-- ==== Sys2Proof/Word.lean ====
section
/-! DEFINITION. The word types of the TC-716: memory words, bytes, samples, port addresses. -/

namespace Sys2Proof

/-- A word of transfer memory or of the register window (00, "Memory"). -/
abbrev Word := BitVec 32

/-- A byte of transfer memory. -/
abbrev Byte := BitVec 8

/-- A raw element sample as the converter delivers it (R63). -/
abbrev Sample := BitVec 24

/-- A byte address on the memory port: the port decodes 0x000000 to 0x7FFFFF (R1). -/
abbrev Addr := BitVec 23

/-- The number of an order-table slot (R1, R21). -/
abbrev SlotNo := Fin 32

/-- The number of a lane entry (R82). -/
abbrev LaneNo := Fin 4

end Sys2Proof
end

