-- ==== Sys2Proof/Syntax.lean ====
section
/-! DEFINITION. The commands of the TC-716: one constructor for each row of spec/opcode_table.json. -/

namespace Sys2Proof

/-- The lanes of one side of the tape (00, "Group"). -/
inductive Group where
  | a
  | b
  deriving DecidableEq, Repr

/-- A speed reference source (07). -/
inductive Source where
  | tach
  | hum
  | bias
  deriving DecidableEq, Repr

/-- What a disturbance leaves a memory word with (R6; log 6): an error the port corrects, or one it only detects,
with the raw word then stored. -/
inductive Disturbance where
  | singleBit
  | uncorrectable (raw : Word)
  deriving DecidableEq, Repr

/-- The commands. The table gives no operands; the operands here are what the row's rule needs (log 40). -/
inductive Instr where
  | resetLow
  | resetRelease
  | clearingDone
  | hostRead (addr : Addr) (enables : BitVec 4)
  | hostWrite (addr : Addr) (value : Word)
  | hostNarrowWrite (addr : Addr) (enables : BitVec 4) (value : Word)
  | post (slot : SlotNo)
  | withdraw (slot : SlotNo)
  | cancel (slot : SlotNo)
  | release (slot : SlotNo)
  | handBackSpan (addr : Addr)
  | clearNews (slot : SlotNo) (ones : Word)
  | clearSummary (ones : Word)
  | attnEn (enable : Bool)
  | warmReset (enable clear : Bool)
  | clearMemerr (enable reset : Bool)
  | discardedWrite (addr : Addr) (enables : BitVec 4) (value : Word)
  | orderReset
  | warmResetEnd
  | takeOrder
  | validate
  | startStreamOrder
  | finishOrder
  | inputChange (periods : Nat) (levels : BitVec 10)
  | debounceExpiry
  | blockBoundary (samples : List (List Sample))
  | motionStopped
  | judgeBlock
  | takeBlock
  | leader
  | blockProcessed
  | captureStop
  | calibrateBlock
  | offsetsFixed
  | windowComplete
  | judgeLanes
  | weak (lane : LaneNo)
  | measureSkew
  | speedBlock
  | holdoverExpiry (group : Group)
  | humTimeout (group : Group)
  | humMissLimit (group : Group)
  | notLocked (group : Group)
  | probationComplete (group : Group)
  | sourceReturn (group : Group)
  | resampleBlock (group : Group)
  | placeFrame (group : Group)
  | watchNotice
  | foldBlock
  | speedmapClose
  | placeRepair
  | storeExcerpt
  | memoryWordDisturbed (addr : Addr) (what : Disturbance)
  deriving DecidableEq, Repr

end Sys2Proof
end

