-- ==== Sys2Proof/Decode.lean ====
section
/-! DEFINITION. Commands spelled by bits. No row of spec/opcode_table.json gives bits, so no word spells a command. -/

namespace Sys2Proof

/-- The command a word spells by the table's bits: no row gives any. -/
def decodeTableWord (_nbits _w : Nat) : Option Instr := none

end Sys2Proof
end

