-- ==== Sys2Proof/Config.lean ====
section
/-! DEFINITION. What the part fixes as numbers, and the free value the spec leaves open. -/

namespace Sys2Proof.Config

/-- Part code and revision as IDENT holds them (R16, R203 "Registers"). -/
def ident : Word := 0x00010716#32

/-- First byte of the general area (R1). -/
def generalBase : Nat := 0x003000

/-- First byte past transfer memory (R1). -/
def memoryEnd : Nat := 0x400000

/-- Base of the transport snapshot (R1, R58). -/
def snapshotBase : Nat := 0x002100

/-- Samples of one element in a block (R64). -/
def blockSamples : Nat := 3840

/-- Samples of one element in a segment (R64). -/
def segmentSamples : Nat := 240

/-- A speed ratio of 1.0 (00, "Time"). -/
def unity : Nat := 4194304

/-- The lower end of the clamp range (R135). -/
def ratioMin : Nat := 3670016

/-- The upper end of the clamp range (R135). -/
def ratioMax : Nat := 4718592

/-- Pages of the spill store (R188). -/
def spillPages : Nat := 96

/-- Capacity of the run queue (R34). -/
def runQueueMax : Nat := 4

/-- Capacity of the repair holding queue (R196). -/
def holdingMax : Nat := 8

/-- Length of a block in thousandths of a reference clock period: 3,840 samples of 64 periods (00, R64; log 10). -/
def blockTime : Nat := 245760000

/-- One microsecond in thousandths of a reference clock period of 24.576 MHz (00; log 10). -/
def microsecond : Nat := 24576

/-- Free value: in which order the changes of different decoders and PINCH that take effect at the same instant
are served. R48: "A count and a change of PINCH that take effect at the same instant are served in either order".
DESIGN CHOICE of form, safe: no body, so no proof can lean on an order (log 9). -/
opaque instantOrder : Nat → Nat

/-- Free value: which slot the order unit's request names, where a slot was withdrawn at the head of the posting queue and
posted again before the request. R26 lets the request stand or come later. DESIGN CHOICE of form, safe: no body, so no proof
can lean on a choice (log 14). -/
opaque namedSlot : Nat → Nat

end Sys2Proof.Config
end

