-- ==== Sys2Proof/Machine/State.lean ====
section
/-! DEFINITION. Every piece of state the spec gives the TC-716, as plain data, and the state after reset. One
structure for each unit of the block diagram (00), in the order of the chapters. -/

namespace Sys2Proof.Machine

/-- One value for each group of lanes. -/
structure PerGroup (α : Type) where
  a : α
  b : α
  deriving DecidableEq, Repr

/-! ## Memory port (01) -/

/-- STATUS phase (R17). -/
inductive Phase where
  | coldInit
  | warmReset
  | ready
  deriving DecidableEq, Repr

/-- The check-bit condition of a disturbed memory word (R6, R7; log 6). A word without one is clean. -/
inductive EccMark where
  | single
  | uncorrectable
  deriving DecidableEq, Repr

/-- Classes of guard-table entries (R11). -/
inductive GuardClass where
  | spanState
  | released
  deriving DecidableEq, Repr

/-- A guard-table entry (R11). -/
structure GuardEntry where
  addr : Nat
  slot : SlotNo
  cls : GuardClass
  watch : Bool
  deriving DecidableEq, Repr

/-- What the port tells the output writer when watches end (R13). -/
structure Notice where
  addr : Nat
  slots : List SlotNo
  deriving DecidableEq, Repr

/-- The memory port. `mem` lists the bytes that are not 0, addresses rising; `ecc` lists the words that are not clean,
addresses rising, a `single` word being held in `mem` as it reads corrected and an `uncorrectable` one raw (log 6). -/
structure Port where
  resetLow : Bool
  phase : Phase
  lastWarm : Bool
  uncorrected : Bool
  corrected : BitVec 8
  attnEn : Bool
  mem : List Host.Cell
  ecc : List (Nat × EccMark)
  guard : List GuardEntry
  notices : List Notice
  /-- the word the last host read returned (log 7) -/
  readData : Word
  deriving DecidableEq, Repr

/-! ## Order unit (02) -/

/-- Slot states, codes 0 to 5 (R23). -/
inductive SlotState where
  | free
  | posted
  | taken
  | running
  | stopping
  | done
  deriving DecidableEq, Repr

/-- Outcomes, codes 0 to 8 (R24). -/
inductive OrderOutcome where
  | none
  | complete
  | refused
  | cancelled
  | superseded
  | notLocked
  | reverted
  | captureEnded
  | reset
  deriving DecidableEq, Repr

/-- Refusal codes 0 to 9 (R203 "Order table"). -/
inductive RefusalCode where
  | none
  | badKind
  | badLayout
  | badProfile
  | badList
  | queueFull
  | noCapture
  | notTracked
  | streamBusy
  | memoryFault
  deriving DecidableEq, Repr

/-- News causes, bits 0 to 12 (R42). -/
inductive Cause where
  | done
  | spanA
  | spanB
  | excerpt
  | repair
  | speedMap
  | lock
  | cue
  | spill
  | lost
  | listFull
  | memoryFault
  | slip
  deriving DecidableEq, Repr

/-- Kinds of orders (R22). -/
inductive Kind where
  | capture
  | calibrate
  | retune
  | source
  | transport
  deriving DecidableEq, Repr

/-- A lane entry of a CAPTURE order (R82, R205). -/
structure LaneEntry where
  first : Nat
  count : Nat
  group : Group
  active : Bool
  deriving DecidableEq, Repr

/-- The tuning of one lane (R203 "Tuning profile"). -/
structure LaneTuning where
  watch : BitVec 6
  anchor : Nat
  measure : Bool
  deriving DecidableEq, Repr

/-- The speed references of one group in a tuning profile. -/
structure GroupTuning where
  prefs : List Source
  holdover : Nat
  hum60 : Bool
  humLane : LaneNo
  biasLane : LaneNo
  biasNominal : Nat
  biasGate : Nat
  deriving DecidableEq, Repr

/-- A tuning profile: presence shift, bridge limit, skew shift, decimation, quiet floor, leader floor and time (R29). -/
structure Tuning where
  lanes : Vector LaneTuning 4
  sp : Nat
  bl : Nat
  ss : Nat
  nd : Nat
  qf : Nat
  leaderFloor : Nat
  leaderTime : Nat
  groups : PerGroup GroupTuning
  deriving DecidableEq, Repr

/-- The engine's copy of a span descriptor: where its state word lies, what it held when copied, buffer and capacity. -/
structure SpanDesc where
  addr : Nat
  held : Nat
  buffer : Nat
  capacity : Nat
  deriving DecidableEq, Repr

/-- Format of one group's output (R157, R158). -/
structure Format where
  paired : Bool
  swap : Bool
  deriving DecidableEq, Repr

/-- The capture parameter block (R205), field by field. -/
structure CaptureParams where
  rateCode : Nat
  formats : PerGroup Format
  start : Option Word
  stop : Option Word
  cueCount : Nat
  cues : List Word
  lanes : Vector LaneEntry 4
  profileAddr : Nat
  spanAddr : PerGroup Nat
  spanCount : PerGroup Nat
  excerptAddr : Nat
  excerptCount : Nat
  mapAddr : Nat
  repairAddr : Nat
  deriving DecidableEq, Repr

/-- The engine's copy of an accepted CAPTURE order (R27): parameters, profile, list capacities, descriptors. -/
structure CaptureOrder where
  params : CaptureParams
  tuning : Tuning
  mapCapacity : Nat
  repairCapacity : Nat
  spans : PerGroup (List SpanDesc)
  excerpts : List SpanDesc
  deriving DecidableEq, Repr

/-- The engine's copy of a CALIBRATE order (R70, R203). -/
structure CalibrateOrder where
  window : Nat
  anchor : Nat
  apply : Bool
  start : Option Word
  deriving DecidableEq, Repr

/-- Encodings of a decoder (R46). -/
inductive Encoding where
  | x4
  | x2
  | x1
  deriving DecidableEq, Repr

/-- Quadrature phases: the filtered levels of A and then B (03, "Decoding"). -/
inductive QPhase where
  | ll
  | hl
  | hh
  | lh
  deriving DecidableEq, Repr

/-- Settings of one decoder; debounce in microseconds, 0 for off; index phase `none` for ANY (R59). -/
structure DecoderSettings where
  encoding : Encoding
  debounce : Nat
  index : Option QPhase
  deriving DecidableEq, Repr

/-- The settings a TRANSPORT order carries (R59, R60). -/
structure TransportOrder where
  capstan : DecoderSettings
  supply : DecoderSettings
  takeup : DecoderSettings
  nc : Nat
  slipThreshold : Nat
  preset : Option Word
  deriving DecidableEq, Repr

/-- A stream order in the run queue, with the engine's copy (R22, R34). -/
inductive StreamOrder where
  | capture (o : CaptureOrder)
  | calibrate (o : CalibrateOrder)
  deriving DecidableEq, Repr

/-- What the engine has copied of a CAPTURE under validation: `none` for what lies outside the general area (R27, R205). -/
structure CaptureCopy where
  params : CaptureParams
  tuning : Option Tuning
  mapCapacity : Option Nat
  repairCapacity : Option Nat
  spans : PerGroup (Option (List SpanDesc))
  excerpts : Option (List SpanDesc)
  deriving DecidableEq, Repr

/-- A SOURCE order's parameters (R22). -/
structure SourceParams where
  group : Group
  target : Option Source
  timeout : Nat
  deriving DecidableEq, Repr

/-- The engine's copy of an order under validation (R27). -/
inductive Copied where
  | capture (c : CaptureCopy)
  | calibrate (o : CalibrateOrder)
  | retune (t : Option Tuning)
  | source (o : SourceParams)
  | transport (o : Option TransportOrder)
  deriving DecidableEq, Repr

/-- What copying an order gave: the copy, or the refusal that the copying met (R27, R205). -/
inductive CopyResult where
  | refused (code : RefusalCode)
  | copied (order : Copied)
  deriving DecidableEq, Repr

/-- The order being taken: its slot and what copying it gave (R26, R27). -/
structure Taking where
  slot : SlotNo
  copy : CopyResult
  deriving DecidableEq, Repr

/-- What the order unit holds of one slot: state and news words (R2), the copied attention mask (R27), and the kind
of the live accepted order, if any (R33). -/
structure SlotRec where
  state : SlotState
  news : BitVec 13
  mask : BitVec 13
  live : Option Kind
  deriving DecidableEq, Repr

/-- An end reported to the order unit (R24). `own` marks an end that is the cancel's own effect (R40). -/
structure EndReport where
  slot : SlotNo
  outcome : OrderOutcome
  code : RefusalCode
  own : Bool
  deriving DecidableEq, Repr

/-- A TRANSPORT order bound to a stream block number not yet reached (R38). -/
structure PendingTransport where
  slot : SlotNo
  block : Word
  order : TransportOrder
  deriving DecidableEq, Repr

/-- The order unit (R25, R26, R34, R38, R44). `named` holds the slots that were withdrawn at the head of the posting queue and
that the unit's next request may have named (R26; log 14). -/
structure OrderUnit where
  slots : Vector SlotRec 32
  summary : Word
  posting : List SlotNo
  named : List SlotNo
  runQueue : List (SlotNo × StreamOrder)
  taking : Option Taking
  ends : List EndReport
  pendingTransport : Option PendingTransport
  reachedTransport : Option SlotNo
  resetDone : Bool
  deriving DecidableEq, Repr

/-! ## Transport counter unit (03) -/

/-- One input line: raw level, filtered level, and the time a pending change has run, in thousandths of a reference
clock period (R45; log 10). -/
structure Line where
  raw : Bool
  filtered : Bool
  ran : Option Nat
  deriving DecidableEq, Repr

/-- One decoder: its three lines, settings and decode-error count (R46, R47). -/
structure Decoder where
  lineA : Line
  lineB : Line
  lineI : Line
  settings : DecoderSettings
  errors : BitVec 16
  deriving DecidableEq, Repr

/-- One reel (R51, R52, R53). -/
structure Reel where
  counter : BitVec 16
  stamp : Option Word
  ratio : Word
  ratioClean : Bool
  runClean : Bool
  slips : BitVec 16
  deriving DecidableEq, Repr

/-- Motion state, codes 0 to 2 (R54). -/
inductive Motion where
  | stopped
  | forward
  | reverse
  deriving DecidableEq, Repr

/-- The record of the block in progress (R55). -/
structure OpenRecord where
  num : Word
  start : Word
  net : Word
  pinch : Bool
  reverse : Bool
  decodeError : Bool
  slip : Bool
  nc : Nat
  deriving DecidableEq, Repr

/-- A closed block record (R55). -/
structure BlockRecord where
  num : Word
  start : Word
  stop : Word
  net : Word
  pinch : Bool
  reverse : Bool
  decodeError : Bool
  slip : Bool
  motion : Motion
  driven : Bool
  nc : Nat
  deriving DecidableEq, Repr

/-- The transport counter unit. -/
structure Transport where
  capstan : Decoder
  supply : Decoder
  takeup : Decoder
  pinch : Line
  nc : Nat
  slipThreshold : Nat
  position : Word
  capstanStamp : Word
  supplyReel : Reel
  takeupReel : Reel
  motion : Motion
  stillRun : Nat
  counted : Bool
  current : Option OpenRecord
  records : List BlockRecord
  /-- time since the block in progress began, in thousandths of a reference clock period (log 10) -/
  clock : Nat
  deriving DecidableEq, Repr

/-! ## Element capture unit (04) -/

/-- A complete block in the history store: raw samples by element, clip counts by element (R65, R67). -/
structure HistBlock where
  num : Word
  samples : List (List Sample)
  clips : List Nat
  deriving DecidableEq, Repr

/-- A calibration table entry (R68). -/
structure CalEntry where
  gain : Nat
  offset : Int
  skew : Int
  dead : Bool
  deriving DecidableEq, Repr

/-- The element capture unit: stream block number of the block in progress, the complete blocks held (newest first),
the calibration table and its generation. -/
structure ElementCapture where
  block : Word
  history : List HistBlock
  table : Vector CalEntry 16
  generation : BitVec 16
  deriving DecidableEq, Repr

/-- A completed block as reported to the capture controller, with its record if it has one (R66, R64). -/
structure StreamBlock where
  num : Word
  record : Option BlockRecord
  clips : List Nat
  deriving DecidableEq, Repr

/-- Run states of a CALIBRATE and states of a capture, codes 0 to 3 (R71, R163). -/
inductive RunState where
  | armed
  | running
  | paused
  | stopping
  deriving DecidableEq, Repr

/-- The last processed block of a CALIBRATE stretch: whether it begins the stretch, whether it is a measure block whose
skew measurement waits for its successor (R75). -/
structure CalLast where
  num : Word
  first : Bool
  measure : Bool
  deriving DecidableEq, Repr

/-- A CALIBRATE run (R71 to R79). Lists are by element. -/
structure CalRun where
  slot : SlotNo
  order : CalibrateOrder
  state : RunState
  processed : Nat
  highWater : Word
  pauses : Nat
  offsetSums : List Int
  offsets : Option (List Int)
  levelSums : List Nat
  clipTotals : List Nat
  skewSums : List Int
  accepted : List Nat
  last : Option CalLast
  startPos : Word
  finished : Bool
  deriving DecidableEq, Repr

/-! ## Lane monitor (05) -/

/-- Repair kinds, codes 1 to 4 (R98). -/
inductive RepairKind where
  | spare
  | bridged
  | weak
  | lost
  deriving DecidableEq, Repr

/-- An open dropout record (R90, R91). `opening` is the opening segment, counted 16 a block from capture block 0;
`firstOut` the group's count of output samples at its first sample, once placed (R100). -/
structure Dropout where
  kind : RepairKind
  block : Nat
  position : Word
  opening : Nat
  absent : BitVec 16
  minPresent : Nat
  noExcerpt : Bool
  voidRuns : Nat
  longest : Nat
  bridged : Nat
  firstOut : Option Nat
  deriving DecidableEq, Repr

/-- The void run in progress (R94). -/
structure VoidRun where
  length : Nat
  limit : Nat
  settled : Bool
  deriving DecidableEq, Repr

/-- The pattern of a judged segment: whether it matches, and the watched positions that are present (R86). -/
structure Pattern where
  isMatch : Bool
  present : List Nat
  deriving DecidableEq, Repr

/-- Lane monitor state of one active lane (R82). `pattern` is that of the segment last judged in the continuity. -/
structure LaneState where
  smooth : List Nat
  pattern : Option Pattern
  dropout : Option Dropout
  run : Option VoidRun
  deriving DecidableEq, Repr

/-- A closed dropout record waiting for its output fields or its hand-off (R100, R102). `closing` is the matching
segment that closed it, or none for one closed after `finalBlock`. -/
structure ClosedDropout where
  seq : Nat
  lane : LaneNo
  drop : Dropout
  cut : Bool
  closing : Option Nat
  finalBlock : Nat
  length : Option Nat
  deriving DecidableEq, Repr

/-- A judged block as later steps need it. -/
structure JudgedMark where
  idx : Nat
  num : Word
  start : Word
  deriving DecidableEq, Repr

/-- The lane monitor for a capture. -/
structure LaneMonitor where
  lanes : Vector (Option LaneState) 4
  seq : Nat
  closed : List ClosedDropout
  last : Option JudgedMark
  finalIdx : Option Nat
  deriving DecidableEq, Repr

/-- Segment classes handed to the resampler (R93), a void one with whether its run is already weak (R96). -/
inductive SegClass where
  | clean
  | spare
  | void (weak : Bool)
  deriving DecidableEq, Repr

/-- Verdicts on void runs (R95, R96). -/
inductive Verdict where
  | bridged
  | weak
  deriving DecidableEq, Repr

/-- What the lane monitor hands for one segment of one lane: class, combining set, and the verdict the segment gives on
the run before it (R97, R151). -/
structure SegInfo where
  cls : SegClass
  set : List Nat
  settles : Option Verdict
  deriving DecidableEq, Repr

/-- What the lane monitor hands for one block of one lane (R88, R97). -/
structure LaneJudgement where
  segs : List SegInfo
  quiet : Bool
  full : List Nat
  deriving DecidableEq, Repr

/-! ## Skew estimator (06) -/

/-- Skew state of one active lane: skews by position in the lane, applied anchor (R106). -/
structure LaneSkew where
  skews : List Int
  anchor : Nat
  deriving DecidableEq, Repr

/-- What the skew estimator hands for one block of one lane (R116, R117). -/
structure SkewReport where
  skews : List Int
  held : Bool
  span : Int
  deriving DecidableEq, Repr

/-! ## Speed reference unit (07) -/

/-- Tracker states (R119). -/
inductive TrackState where
  | off
  | acquiring
  | locked
  deriving DecidableEq, Repr

/-- The TACH tracker (R121). -/
structure Tach where
  state : TrackState
  window : List BlockRecord
  lockedRun : Nat
  deriving DecidableEq, Repr

/-- A HUM tracker (R123 to R126). `periods` is the acquisition run or, LOCKED, the window, oldest first. Times are capture
element time in 1/16 element sample. -/
structure Hum where
  state : TrackState
  periods : List Int
  misses : Nat
  lockedRun : Nat
  stages : List Int
  xPrev : Int
  yPrev : Int
  hasPrev : Bool
  timePrev : Int
  lastCross : Option Int
  begun : Int
  deriving DecidableEq, Repr

/-- The crossings of one block in a BIAS window: how many, first and last crossing time (R128). -/
structure BiasBlock where
  count : Nat
  first : Int
  last : Int
  deriving DecidableEq, Repr

/-- A BIAS tracker (R127 to R129). -/
structure Bias where
  state : TrackState
  window : List BiasBlock
  run : List Nat
  value : Nat
  lockedRun : Nat
  deriving DecidableEq, Repr

/-- Group speed states (R119). -/
inductive SpeedState where
  | tracking
  | holdover
  | freeRun
  deriving DecidableEq, Repr

/-- A decision that has come due and is not carried out (R132 case 3, R134; log 20). -/
inductive DueDecision where
  | expiry
  | sourceReturn
  deriving DecidableEq, Repr

/-- Speed reference state of one group (R119). Active source `none` is NONE. -/
structure GroupSpeed where
  hum : Hum
  bias : Bias
  state : SpeedState
  active : Option Source
  prefs : List Source
  held : Nat
  counter : Nat
  nextState : SpeedState
  nextActive : Option Source
  due : Option DueDecision
  deriving DecidableEq, Repr

/-- The speed reference unit for a capture. -/
structure SpeedUnit where
  tach : Tach
  groups : PerGroup (Option GroupSpeed)
  tuning : Tuning
  deriving DecidableEq, Repr

/-- A group's report for one block (R136). -/
structure SpeedReport where
  q : Nat
  active : Option Source
  state : SpeedState
  clamped : Bool
  switched : Bool
  deriving DecidableEq, Repr

/-- Where a SOURCE order stands (R138 to R140). -/
inductive SourcePhase where
  | waiting (count : Nat)
  | probation (count : Nat) (list : List Source) (source : Option Source)
  deriving DecidableEq, Repr

/-- An accepted SOURCE order (R119, R138). `due` marks an end that has come due: NOT_LOCKED when waiting, COMPLETE in
probation (log 20; at a warm reset, log 71). -/
structure SourceRun where
  slot : SlotNo
  target : Source
  timeout : Nat
  phase : SourcePhase
  due : Bool
  deriving DecidableEq, Repr

/-! ## Resampler (08) -/

/-- Marks, codes 0 to 3 (R152). -/
inductive Mark where
  | clean
  | spare
  | bridged
  | weak
  deriving DecidableEq, Repr

/-- A lane value in a frame (R151 to R153). -/
structure LaneVal where
  lane : LaneNo
  value : Int
  mark : Mark
  final : Bool
  deriving DecidableEq, Repr

/-- A frame in the bridge buffer: the group's count of the sample, its block, that block's start position (R155). -/
structure BufFrame where
  count : Nat
  block : Nat
  position : Word
  vals : List LaneVal
  deriving DecidableEq, Repr

/-- A frame released to the output writer (R159). -/
structure Frame where
  index : Word
  block : Nat
  position : Word
  words : List Word
  deriving DecidableEq, Repr

/-- The count and lane value of the last sample placed in a segment that was not void (R143). -/
structure BridgeStart where
  count : Nat
  value : Int
  deriving DecidableEq, Repr

/-- The resampler of one group (R143). P has 22 fraction bits. `next` counts every sample placed since ARMED: the output
sample index is it modulo 2^32 (log 23). -/
structure Resampler where
  pos : Nat
  lastQ : Option Nat
  next : Nat
  released : Nat
  blocks : Nat
  buffer : List BufFrame
  starts : Vector (Option BridgeStart) 4
  deriving DecidableEq, Repr

/-! ## Output writer (10) -/

/-- A spill queue item: a page with the frames it still holds, or a loss mark (R188). -/
inductive SpillItem where
  | page (frames : List Frame)
  | lossMark
  deriving DecidableEq, Repr

/-- An open LOST record (R190). -/
structure LostRec where
  first : Word
  length : Nat
  block : Nat
  position : Word
  deriving DecidableEq, Repr

/-- The FILLING span of a group: fill, frame count, and the AFTER_LOSS flag it was opened with (R185). -/
structure OpenSpan where
  fill : Nat
  frames : Nat
  afterLoss : Bool
  deriving DecidableEq, Repr

/-- Output writer state of one group (R183). `arriving` holds frames released and not yet placed. -/
structure GroupOut where
  spans : List SpanDesc
  cursor : Nat
  filling : Option OpenSpan
  afterLoss : Bool
  queue : List SpillItem
  lost : Option LostRec
  samplesLost : Nat
  arriving : List Frame
  deriving DecidableEq, Repr

/-- A group's part of a speed map record (R194). -/
structure MapGroup where
  qLast : Nat
  qMin : Nat
  qMax : Nat
  active : Option Source
  holdover : Bool
  freeRun : Bool
  clamped : Bool
  switched : Bool
  deriving DecidableEq, Repr

/-- A lane's part of a speed map record (R194). -/
structure MapLane where
  span : Int
  held : Bool
  quiet : Bool
  clipped : Bool
  deriving DecidableEq, Repr

/-- The speed map record being gathered (R194, R195). -/
structure MapRec where
  first : Nat
  blocks : Nat
  position : Word
  groups : PerGroup (Option MapGroup)
  lanes : Vector (Option MapLane) 4
  cue : Nat
  cueMerged : Bool
  slip : Bool
  resumed : Bool
  extended : Bool
  deriving DecidableEq, Repr

/-- A repair record complete with its output fields (R99, R190). -/
structure RepairRec where
  seq : Nat
  kind : RepairKind
  place : Nat
  minPresent : Nat
  cut : Bool
  noExcerpt : Bool
  absent : BitVec 16
  first : Word
  length : Nat
  block : Nat
  position : Word
  voidRuns : Nat
  longest : Nat
  bridged : Nat
  deriving DecidableEq, Repr

/-- A record list as the writer holds it: header address, capacity of its copy, written count (R192). -/
structure RecList where
  header : Nat
  capacity : Nat
  written : Word
  deriving DecidableEq, Repr

/-- The open excerpt (R197 to R199). `nextIdx` and `nextNum` are the block to be stored next; `endIdx` the end block, once
the lane's latest dropout has closed. -/
structure Excerpt where
  lane : LaneNo
  span : SpanDesc
  firstIdx : Nat
  position : Word
  nextIdx : Nat
  nextNum : Word
  stored : Nat
  blocks : Nat
  endIdx : Option Nat
  seqs : List Nat
  deriving DecidableEq, Repr

/-- The output writer for a capture (R183). -/
structure Writer where
  groups : PerGroup GroupOut
  map : Option MapRec
  mapPending : Bool
  /-- a close has come due (R195), with whether a cue was reported for the block; log 20 -/
  closeDue : Option Bool
  /-- the final block that the open excerpt must have stored before a close due at a pause is carried out (R200) -/
  closeAfter : Option Nat
  mapList : RecList
  repairList : RecList
  mapWritten : Nat
  repairWritten : Nat
  suppressed : Nat
  handed : List RepairRec
  holding : List RepairRec
  excerpts : List SpanDesc
  excerptCursor : Nat
  excerpt : Option Excerpt
  skipped : Nat
  faultMap : Bool
  faultRepair : Bool
  mapDropped : Bool
  deriving DecidableEq, Repr

/-! ## Capture controller (09) -/

/-- End reasons, codes 0 to 4 (R163). -/
inductive EndReason where
  | none
  | stopPosition
  | leader
  | cancel
  | reset
  deriving DecidableEq, Repr

/-- What an end notice states (R167). -/
inductive EndKind where
  | pause
  | capture
  deriving DecidableEq, Repr

/-- A block chosen for processing: the candidate, or a decision to take it (R163, R164, R166). -/
structure TakeRequest where
  block : StreamBlock
  first : Bool
  resumed : Bool
  final : Option EndKind
  deriving DecidableEq, Repr

/-- A block taken into the capture, with what each unit has handed for it (R166, R169). -/
structure Taken where
  idx : Nat
  block : StreamBlock
  tuning : Tuning
  binding : Bool
  first : Bool
  resumed : Bool
  final : Option EndKind
  cues : List Nat
  clipped : List LaneNo
  lanes : Option (Vector (Option LaneJudgement) 4)
  skew : Option (Vector (Option SkewReport) 4)
  speed : Option (PerGroup (Option SpeedReport))
  resampled : PerGroup (Option (Word × Word))
  folded : Bool
  processed : Bool
  deriving DecidableEq, Repr

/-- A pending tuning bound to a capture block index (R168). -/
structure PendingTuning where
  slot : SlotNo
  idx : Nat
  tuning : Tuning
  deriving DecidableEq, Repr

/-- The capture controller's state for a capture (R163). -/
structure Control where
  state : RunState
  candidate : Option TakeRequest
  nextIdx : Nat
  highWater : Word
  cueCursor : Nat
  tuning : Tuning
  pending : Option PendingTuning
  reached : List (SlotNo × Nat)
  leaderRun : Nat
  endReason : EndReason
  processed : Nat
  pauses : Nat
  cuesSkipped : Nat
  cuesReached : Nat
  counts : PerGroup (Option (Word × Word))
  toTake : List TakeRequest
  cancelLeft : Nat
  inFlight : List Taken
  peak : Option (Nat × Nat)
  sources : PerGroup (Option SourceRun)
  ended : Bool
  deriving DecidableEq, Repr

/-- A capture, from ARMED to DONE. The units' states are `none` until the capture leaves ARMED. -/
structure Capture where
  slot : SlotNo
  params : CaptureParams
  control : Control
  monitor : Option LaneMonitor
  skew : Vector (Option LaneSkew) 4
  speed : Option SpeedUnit
  resamplers : PerGroup (Option Resampler)
  writer : Writer
  deriving DecidableEq, Repr

/-! ## The machine -/

/-- The TC-716. `pending` is the queue of commands, first in, first out; `reports` the completed blocks the capture
controller has not judged (R66); `freeCount` counts the free values read (log 9). -/
structure State where
  pending : List Instr
  port : Port
  orders : OrderUnit
  transport : Transport
  elements : ElementCapture
  reports : List StreamBlock
  capture : Option Capture
  calibration : Option CalRun
  freeCount : Nat
  deriving DecidableEq, Repr

/-- Faults: the machine stops because the spec says it cannot be there. -/
inductive Fault where
  /-- BLOCK_BOUNDARY whose samples are not sixteen elements of 3,840 samples (R64): no block has that shape. Safe. -/
  | malformedBlock
  /-- A unit's step reads a block the history store has dropped. R65: "The processing units finish every read for block k
  before block k+3 begins", so the machine is never there. Raised by JUDGE_LANES, MEASURE_SKEW, SPEED_BLOCK,
  RESAMPLE_BLOCK, STORE_EXCERPT, CALIBRATE_BLOCK and WINDOW_COMPLETE. Safe. -/
  | blockNotHeld (num : Word)
  deriving DecidableEq, Repr

/-- Refusals: raised only by exec's arms for a command without a meaning. Safe. -/
inductive Refusal where
  | notModelled (mnemonic : String)
  deriving DecidableEq, Repr

/-! ## Reset -/

/-- A FREE slot with nothing announced (R21). The mask is a DESIGN CHOICE (log 39). -/
def SlotRec.cold : SlotRec := ⟨.free, 0, 0, none⟩

/-- The port at cold start (R9, R11, R15, R17, R18, R19). -/
def Port.cold : Port :=
  { resetLow := false, phase := .coldInit, lastWarm := false, uncorrected := false, corrected := 0, attnEn := false,
    mem := [], ecc := [], guard := [], notices := [], readData := 0 }

/-- The order unit at cold start (R2, R25, R44). -/
def OrderUnit.cold : OrderUnit :=
  { slots := Vector.replicate 32 SlotRec.cold, summary := 0, posting := [], named := [], runQueue := [], taking := none,
    ends := [], pendingTransport := none, reachedTransport := none, resetDone := false }

/-- A line that is low and quiet (log 8). -/
def Line.cold : Line := ⟨false, false, none⟩

/-- A decoder at cold start under an encoding (R59). -/
def Decoder.cold (e : Encoding) : Decoder :=
  { lineA := Line.cold, lineB := Line.cold, lineI := Line.cold, settings := ⟨e, 1, none⟩, errors := 0 }

/-- A reel at cold start (R51, R52, R53). -/
def Reel.cold : Reel := ⟨0, none, 0, false, false, 0⟩

/-- The transport counter unit at cold start (R59, R61). -/
def Transport.cold : Transport :=
  { capstan := Decoder.cold .x4, supply := Decoder.cold .x1, takeup := Decoder.cold .x1, pinch := Line.cold, nc := 0,
    slipThreshold := 20, position := 0, capstanStamp := 0, supplyReel := Reel.cold, takeupReel := Reel.cold,
    motion := .stopped, stillRun := 0, counted := false, current := none, records := [], clock := 0 }

/-- The identity entry of the calibration table (R68). -/
def CalEntry.identity : CalEntry := ⟨16384, 0, 0, false⟩

/-- The element capture unit at cold start (R64, R65, R68). -/
def ElementCapture.cold : ElementCapture :=
  { block := 0, history := [], table := Vector.replicate 16 CalEntry.identity, generation := 0 }

/-- The machine at the instant RESET is released: cold start begins, the clearing of memory runs (R19; log 2). -/
def State.reset : State :=
  { pending := [], port := Port.cold, orders := OrderUnit.cold, transport := Transport.cold,
    elements := ElementCapture.cold, reports := [], capture := none, calibration := none, freeCount := 0 }

end Sys2Proof.Machine
end

