-- ==== Sys2Proof/WellFormed.lean ====
section
/-! DEFINITION. Which operands a row of the table admits. The machine gives every command a meaning whatever its
operands are (a write is routed by its address); these checks say which operands belong to the row. -/

namespace Sys2Proof

/-- The samples of one block: sixteen elements of 3,840 samples each (R63, R64). -/
def wellFormedBlock (samples : List (List Sample)) : Bool :=
  samples.length == 16 && samples.all (fun e => e.length == Config.blockSamples)

/-- The word address of a port address: the two low bits are ignored (R4). -/
def wordAddress (addr : Addr) : Nat := addr.toNat / 4 * 4

/-- An address of ordinary memory: not a held word, not a register, not unassigned above the registers (R1, R2). -/
def isOrdinary (addr : Addr) : Bool :=
  let a := wordAddress addr
  a < Config.memoryEnd && !(a < 0x2000 && (a % 256 == 0 || a % 256 == 4)) && a != 0x2000

/-- The operands a row admits: HOST_WRITE is a write to ordinary memory (R4), HOST_NARROW_WRITE enables fewer than
four bytes (R6), HAND_BACK_SPAN names a word of ordinary memory (R10), DISCARDED_WRITE goes to IDENT, STATUS or an
address from 0x40000C up (R4), BLOCK_BOUNDARY carries one block (R64). -/
def Instr.wellFormed : Instr → Bool
  | .hostWrite addr _ => isOrdinary addr
  | .hostNarrowWrite _ enables _ => enables != 0xF#4
  | .handBackSpan addr => isOrdinary addr
  | .discardedWrite addr _ _ => Config.memoryEnd ≤ wordAddress addr && wordAddress addr != 0x400008
  | .blockBoundary samples => wellFormedBlock samples
  | .resetLow | .resetRelease | .clearingDone | .hostRead _ _ | .post _ | .withdraw _ | .cancel _ | .release _
  | .clearNews _ _ | .clearSummary _ | .attnEn _ | .warmReset _ _ | .clearMemerr _ _ | .orderReset | .warmResetEnd
  | .takeOrder | .validate | .startStreamOrder | .finishOrder | .inputChange _ _ | .debounceExpiry | .motionStopped
  | .judgeBlock | .takeBlock | .leader | .blockProcessed | .captureStop | .calibrateBlock | .offsetsFixed
  | .windowComplete | .judgeLanes | .weak _ | .measureSkew | .speedBlock | .holdoverExpiry _ | .humTimeout _
  | .humMissLimit _ | .notLocked _ | .probationComplete _ | .sourceReturn _ | .resampleBlock _ | .placeFrame _
  | .watchNotice | .foldBlock | .speedmapClose | .placeRepair | .storeExcerpt | .memoryWordDisturbed _ _ => true

end Sys2Proof
end

