-- ==== Sys2Proof/Machine/Operands.lean ====
section
/-! DEFINITION. Operand forms: byte enables, byte order, fields of words, and the shared record layouts (11) as the engine
reads them. -/

namespace Sys2Proof.Machine

/-! ## Words and bytes (R4, R203) -/

/-- Byte `i` of a word: byte 0 holds bits 7 to 0 (R203). -/
def byteOf (w : Word) (i : Nat) : Byte := w.extractLsb' (8 * i) 8

/-- The word of four bytes, lowest address first (R203). -/
def wordOfBytes (b0 b1 b2 b3 : Byte) : Word := b3 ++ b2 ++ b1 ++ b0

/-- A byte of `new` where its enable is set, of `old` where it is clear (R4, R6). -/
def pickByte (enables : BitVec 4) (old new : Word) (i : Nat) : Byte :=
  if enables.getLsbD i then byteOf new i else byteOf old i

/-- The enabled bytes of `new` replace those of `old` (R6). -/
def mergeWord (enables : BitVec 4) (old new : Word) : Word :=
  wordOfBytes (pickByte enables old new 0) (pickByte enables old new 1) (pickByte enables old new 2) (pickByte enables old new 3)

/-- A read returns the selected bytes, the other byte lanes zero (R4). -/
def selectBytes (enables : BitVec 4) (w : Word) : Word := mergeWord enables 0 w

/-- The unsigned field of `n` bits from bit `lo`. -/
def field (w : Word) (lo n : Nat) : Nat := w.toNat / 2 ^ lo % 2 ^ n

/-- One bit of a word. -/
def bit (w : Word) (i : Nat) : Bool := w.getLsbD i

/-- The low `n` bits of an integer in two's complement: how the engine writes a signed narrow field (R203). -/
def signedBits (n : Nat) (z : Int) : Nat := (z % (2 ^ n : Int)).toNat

/-- 1 for a set flag, 0 for a clear one. -/
def flagBit (b : Bool) : Nat := if b then 1 else 0

/-- A word from a natural number, modulo 2^32. -/
def word (n : Nat) : Word := BitVec.ofNat 32 n

/-- An address field: its two low bits are ignored (R203). -/
def alignedAddr (w : Word) : Nat := w.toNat / 4 * 4

/-- "At or past": the signed 32-bit difference is zero or positive (00, "Arithmetic"). -/
def atOrPast (p q : Word) : Bool := decide (0 ≤ (p - q).toInt)

/-- "After": the signed 32-bit difference is positive (R28). -/
def isAfter (p q : Word) : Bool := decide (0 < (p - q).toInt)

/-! ## Indexing helpers -/

/-- Element `i` of a vector. -/
def getAt {α : Type} {n : Nat} (v : Vector α n) (i : Fin n) : α := v[i.val]

/-- A vector with element `i` replaced. -/
def setAt {α : Type} {n : Nat} (v : Vector α n) (i : Fin n) (x : α) : Vector α n := v.set i.val x i.isLt

/-- The value of one group. -/
def PerGroup.get {α : Type} (p : PerGroup α) : Group → α
  | .a => p.a
  | .b => p.b

/-- The pair with one group's value replaced. -/
def PerGroup.put {α : Type} (p : PerGroup α) (g : Group) (x : α) : PerGroup α :=
  match g with
  | .a => { p with a := x }
  | .b => { p with b := x }

/-- The four lane numbers in ascending order. -/
def laneNos : List LaneNo := [0, 1, 2, 3]

/-- The two groups. -/
def groupList : List Group := [.a, .b]

/-- The 32 slot numbers in ascending order. -/
def slotNos : List SlotNo :=
  [0, 1, 2, 3, 4, 5, 6, 7, 8, 9, 10, 11, 12, 13, 14, 15, 16, 17, 18, 19, 20, 21, 22, 23, 24, 25, 26, 27, 28, 29, 30, 31]

/-- The lane number in a two-bit field. -/
def laneOf (n : Nat) : LaneNo := ⟨n % 4, Nat.mod_lt _ (by decide)⟩

/-- Element `e` of the calibration table, identity beyond it. -/
def tableEntry (table : Vector CalEntry 16) (e : Nat) : CalEntry := table.toList.getD e CalEntry.identity

/-! ## Codes (11) -/

/-- Slot state codes (R23). -/
def slotCode : SlotState → Nat
  | .free => 0
  | .posted => 1
  | .taken => 2
  | .running => 3
  | .stopping => 4
  | .done => 5

/-- Outcome codes (11, "Order table"). -/
def outcomeCode : OrderOutcome → Nat
  | .none => 0
  | .complete => 1
  | .refused => 2
  | .cancelled => 3
  | .superseded => 4
  | .notLocked => 5
  | .reverted => 6
  | .captureEnded => 7
  | .reset => 8

/-- Refusal codes (11, "Order table"). -/
def refusalNumber : RefusalCode → Nat
  | .none => 0
  | .badKind => 1
  | .badLayout => 2
  | .badProfile => 3
  | .badList => 4
  | .queueFull => 5
  | .noCapture => 6
  | .notTracked => 7
  | .streamBusy => 8
  | .memoryFault => 9

/-- News bits (11, "Order table"). -/
def causeBit : Cause → Nat
  | .done => 0
  | .spanA => 1
  | .spanB => 2
  | .excerpt => 3
  | .repair => 4
  | .speedMap => 5
  | .lock => 6
  | .cue => 7
  | .spill => 8
  | .lost => 9
  | .listFull => 10
  | .memoryFault => 11
  | .slip => 12

/-- Kind codes 1 to 5; any other is refused (R22). -/
def kindOfCode : Nat → Option Kind
  | 1 => some .capture
  | 2 => some .calibrate
  | 3 => some .retune
  | 4 => some .source
  | 5 => some .transport
  | _ => none

/-- Whether a kind is a stream order (R22). -/
def Kind.isStream : Kind → Bool
  | .capture => true
  | .calibrate => true
  | .retune => false
  | .source => false
  | .transport => false

/-- Source codes, NONE 0 (R203 "Kind parameters"). -/
def sourceCode : Option Source → Nat
  | none => 0
  | some .tach => 1
  | some .hum => 2
  | some .bias => 3

/-- The source of a two-bit code. -/
def sourceOfCode : Nat → Option Source
  | 1 => some .tach
  | 2 => some .hum
  | 3 => some .bias
  | _ => none

/-- Codes of run states and capture states (R71, R163). -/
def runStateCode : RunState → Nat
  | .armed => 0
  | .running => 1
  | .paused => 2
  | .stopping => 3

/-- End reason codes (11, "Kind parameters"). -/
def endReasonCode : EndReason → Nat
  | .none => 0
  | .stopPosition => 1
  | .leader => 2
  | .cancel => 3
  | .reset => 4

/-- Motion state codes (11, "Transport snapshot"). -/
def motionCode : Motion → Nat
  | .stopped => 0
  | .forward => 1
  | .reverse => 2

/-- Repair kind codes (R98). -/
def repairKindCode : RepairKind → Nat
  | .spare => 1
  | .bridged => 2
  | .weak => 3
  | .lost => 4

/-- Mark codes (R152). -/
def markCode : Mark → Nat
  | .clean => 0
  | .spare => 1
  | .bridged => 2
  | .weak => 3

/-- Phase codes (11, "Registers"). -/
def phaseCode : Phase → Nat
  | .coldInit => 0
  | .warmReset => 1
  | .ready => 2

/-- Group codes (11). -/
def groupCode : Group → Nat
  | .a => 0
  | .b => 1

/-! ## Port addresses (R1) -/

/-- What a word address reaches (R1, R2). -/
inductive Target where
  | slotState (slot : SlotNo)
  | news (slot : SlotNo)
  | summary
  | memory (addr : Nat)
  | ident
  | status
  | control
  | unassigned
  deriving DecidableEq, Repr

/-- The slot an order-table address lies in. -/
def slotOfAddr (a : Nat) : SlotNo := ⟨a / 256 % 32, Nat.mod_lt _ (by decide)⟩

/-- The memory map (R1). -/
def targetOf (addr : Addr) : Target :=
  let a := wordAddress addr
  if a < 0x2000 ∧ a % 256 = 0 then .slotState (slotOfAddr a)
  else if a < 0x2000 ∧ a % 256 = 4 then .news (slotOfAddr a)
  else if a = 0x2000 then .summary
  else if a < Config.memoryEnd then .memory a
  else if a = 0x400000 then .ident
  else if a = 0x400004 then .status
  else if a = 0x400008 then .control
  else .unassigned

/-- The first byte of a slot (R1). -/
def slotBase (n : SlotNo) : Nat := 256 * n.val

/-- The address of a slot's state word. -/
def stateAddr (n : SlotNo) : Addr := BitVec.ofNat 23 (slotBase n)

/-- The address of a slot's news word. -/
def newsAddr (n : SlotNo) : Addr := BitVec.ofNat 23 (slotBase n + 4)

/-- The address of the summary word. -/
def summaryAddr : Addr := 0x2000#23

/-- The address of CONTROL. -/
def controlAddr : Addr := 0x400008#23

/-- The value of a CONTROL write (11, "Registers"). -/
def controlWord (enable reset clear : Bool) : Word := word (flagBit enable + 2 * flagBit reset + 4 * flagBit clear)

/-- Whether `size` bytes at `a` lie wholly in the general area (R1). -/
def inGeneral (a size : Nat) : Bool := Config.generalBase ≤ a && a + size ≤ Config.memoryEnd

/-! ## Records the engine reads (11) -/

/-- The word at byte offset `off` of a copied record. -/
def at_ (ws : List Word) (off : Nat) : Word := ws.getD (off / 4) 0

/-- A lane entry: first element, count, group, active mark (R205). -/
def parseLaneEntry (w : Word) (lo : Nat) : LaneEntry :=
  { first := field w lo 4, count := field w (lo + 4) 3, group := if bit w (lo + 8) then .b else .a, active := bit w (lo + 15) }

/-- The capture parameter block, 20 words (R205). -/
def parseCaptureParams (ws : List Word) : CaptureParams :=
  let w0 := at_ ws 0x00
  let w7 := at_ ws 0x1C
  { rateCode := field w0 0 2
    formats := ⟨⟨bit w0 4, bit w0 5⟩, ⟨bit w0 6, bit w0 7⟩⟩
    start := if bit w0 8 then some (at_ ws 0x28) else none
    stop := if bit w0 9 then some (at_ ws 0x2C) else none
    cueCount := field w0 16 4
    cues := (ws.drop 12).take (min (field w0 16 4) 8)
    lanes := #v[parseLaneEntry (at_ ws 0x04) 0, parseLaneEntry (at_ ws 0x04) 16, parseLaneEntry (at_ ws 0x08) 0,
      parseLaneEntry (at_ ws 0x08) 16]
    profileAddr := alignedAddr (at_ ws 0x0C)
    spanAddr := ⟨alignedAddr (at_ ws 0x10), alignedAddr (at_ ws 0x14)⟩
    spanCount := ⟨field w7 0 8, field w7 8 8⟩
    excerptAddr := alignedAddr (at_ ws 0x18)
    excerptCount := field w7 16 8
    mapAddr := alignedAddr (at_ ws 0x20)
    repairAddr := alignedAddr (at_ ws 0x24) }

/-- A lane tuning halfword (11, "Tuning profile"). -/
def parseLaneTuning (w : Word) (lo : Nat) : LaneTuning :=
  { watch := w.extractLsb' lo 6, anchor := field w (lo + 8) 3, measure := bit w (lo + 12) }

/-- The preference list: the entries before the first entry of 0 (R29). -/
def parsePrefs (w : Word) : List Source :=
  match sourceOfCode (field w 0 2), sourceOfCode (field w 2 2), sourceOfCode (field w 4 2) with
  | none, _, _ => []
  | some s, none, _ => [s]
  | some s, some t, none => [s, t]
  | some s, some t, some u => [s, t, u]

/-- A group's speed word, bias nominal and bias gate (11, "Tuning profile"). -/
def parseGroupTuning (w nominal gate : Word) : GroupTuning :=
  { prefs := parsePrefs w, holdover := field w 8 8, hum60 := bit w 16, humLane := laneOf (field w 20 2),
    biasLane := laneOf (field w 24 2), biasNominal := nominal.toNat, biasGate := gate.toNat }

/-- A tuning profile, 16 words (11, "Tuning profile"). -/
def parseTuning (ws : List Word) : Tuning :=
  let w2 := at_ ws 0x08
  { lanes := #v[parseLaneTuning (at_ ws 0x00) 0, parseLaneTuning (at_ ws 0x00) 16, parseLaneTuning (at_ ws 0x04) 0,
      parseLaneTuning (at_ ws 0x04) 16]
    sp := field w2 0 4
    bl := field w2 8 4
    ss := field w2 16 3
    nd := field w2 24 7
    qf := field (at_ ws 0x0C) 0 24
    leaderFloor := field (at_ ws 0x10) 0 24
    leaderTime := field (at_ ws 0x14) 0 16
    groups := ⟨parseGroupTuning (at_ ws 0x18) (at_ ws 0x1C) (at_ ws 0x20),
      parseGroupTuning (at_ ws 0x24) (at_ ws 0x28) (at_ ws 0x2C)⟩ }

/-- A decoder settings byte; `none` for an encoding or index phase that names no code (11, "Kind parameters"). -/
def parseDecoder (w : Word) (lo : Nat) : Option DecoderSettings :=
  let debounce := match field w (lo + 2) 2 with | 0 => 0 | 1 => 1 | 2 => 2 | _ => 4
  let encoding : Option Encoding := match field w lo 2 with | 0 => some .x4 | 1 => some .x2 | 2 => some .x1 | _ => none
  let index : Option (Option QPhase) :=
    match field w (lo + 4) 3 with
    | 0 => some none
    | 1 => some (some .ll)
    | 2 => some (some .hl)
    | 3 => some (some .hh)
    | 4 => some (some .lh)
    | _ => none
  match encoding, index with
  | some e, some i => some ⟨e, debounce, i⟩
  | _, _ => none

/-- A CALIBRATE order's parameters (11, "Kind parameters"). The mode is one bit, so it is always APPLY or MEASURE. -/
def parseCalibrate (w0 w1 : Word) : CalibrateOrder :=
  { window := field w0 0 16, anchor := field w0 16 4, apply := bit w0 24, start := if bit w0 25 then some w1 else none }

/-- The watched positions of a lane: masked positions of its range whose element is not DEAD (R82), as elements. -/
def watchedElements (table : Vector CalEntry 16) (lane : LaneEntry) (t : LaneTuning) : List Nat :=
  (List.range lane.count).filterMap fun i =>
    if t.watch.getLsbD i && !(tableEntry table (lane.first + i)).dead then some (lane.first + i) else none

/-- The elements of a lane's range, from the first upward (R82). -/
def laneElements (lane : LaneEntry) : List Nat := (List.range lane.count).map (lane.first + ·)

/-- The active lanes in ascending number. -/
def activeLanes (p : CaptureParams) : List LaneNo := laneNos.filter fun l => (getAt p.lanes l).active

/-- The active lanes of one group in ascending number. -/
def groupLanes (p : CaptureParams) (g : Group) : List LaneNo :=
  (activeLanes p).filter fun l => decide ((getAt p.lanes l).group = g)

/-- Whether a group has an active lane. -/
def groupActive (p : CaptureParams) (g : Group) : Bool := !(groupLanes p g).isEmpty

/-- The frame size of a group: 4 bytes for each active lane in format WIDE, 4 bytes in PAIRED (R30, R157, R158). -/
def frameSize (p : CaptureParams) (g : Group) : Nat :=
  if (p.formats.get g).paired then 4 else 4 * (groupLanes p g).length

/-- The nominal step N (00, "Time"). -/
def nominalStep (p : CaptureParams) : Nat := if p.rateCode = 0 then 4 else 8

end Sys2Proof.Machine
end

