-- ==== Sys2Proof/Machine/Flags.lean ====
section
/-! DEFINITION. Rounding, saturation and the words the registers and news show: every flag computation. -/

namespace Sys2Proof.Machine

/-! ## Arithmetic (00, "Arithmetic") -/

/-- Division rounded to nearest, ties away from zero. -/
def roundDiv (n : Int) (d : Nat) : Int :=
  if 0 ≤ n then (2 * n + d) / (2 * d) else -((2 * -n + d) / (2 * d))

/-- Division rounded to nearest, ties upward (R122, R126). -/
def roundUpDiv (n d : Nat) : Nat := (2 * n + d) / (2 * d)

/-- Division truncated toward zero. -/
def truncDiv (n d : Int) : Int := n.tdiv d

/-- Clipping to a range. -/
def clampInt (lo hi z : Int) : Int := if z < lo then lo else if hi < z then hi else z

/-- "Saturated to 24 bits". -/
def saturate24 (z : Int) : Int := clampInt (-8388608) 8388607 z

/-- "Saturated to 16 bits". -/
def saturate16 (z : Int) : Int := clampInt (-32768) 32767 z

/-- A count that stays at its top (R47, R53, R58, R180). -/
def satInc (top n : Nat) : Nat := if n < top then n + 1 else n

/-- A sum that stays at its top. -/
def satAdd (top n k : Nat) : Nat := min top (n + k)

/-- The top of a 32-bit count. -/
def max32 : Nat := 4294967295

/-- A 16-bit count that saturates. -/
def inc16 (c : BitVec 16) : BitVec 16 := if c = 65535#16 then c else c + 1

/-- STATUS.CORRECTED raised by one, staying at 255 (R9). -/
def inc8 (c : BitVec 8) : BitVec 8 := if c = 255#8 then c else c + 1

/-- The exact sum of a list. -/
def sumInt (l : List Int) : Int := l.foldl (· + ·) 0

/-- The exact sum of a list. -/
def sumNat (l : List Nat) : Nat := l.foldl (· + ·) 0

/-- The largest of a list, 0 for none. -/
def maxNat (l : List Nat) : Nat := l.foldl max 0

/-! ## Registers (R15 to R18) -/

/-- The ATTN output: the summary word is not zero and ATTN_EN is set (R15). -/
def attnLevel (p : Port) (o : OrderUnit) : Bool := p.attnEn && o.summary != 0

/-- STATUS as a host read returns it (R17; 11, "Registers"). -/
def statusWord (p : Port) (o : OrderUnit) : Word :=
  word (phaseCode p.phase + 16 * flagBit p.lastWarm + 256 * flagBit p.uncorrected + 512 * flagBit (attnLevel p o)
    + 65536 * p.corrected.toNat)

/-- CONTROL as a host read returns it: ATTN_EN, the action fields zero (R18). -/
def controlRead (p : Port) : Word := word (flagBit p.attnEn)

/-! ## News (R42) -/

/-- The bit of a cause in a news word. -/
def causeMask (c : Cause) : BitVec 13 := BitVec.ofNat 13 (2 ^ causeBit c)

/-- The bit of a slot in the summary word. -/
def slotMask (n : SlotNo) : Word := word (2 ^ n.val)

/-- The order unit with one slot's record replaced. -/
def OrderUnit.setSlot (o : OrderUnit) (n : SlotNo) (r : SlotRec) : OrderUnit := { o with slots := setAt o.slots n r }

/-- One slot's record. -/
def OrderUnit.slot (o : OrderUnit) (n : SlotNo) : SlotRec := getAt o.slots n

/-- Setting a cause: the news bit whatever the mask, the summary bit when the mask asks, neither for a FREE or POSTED
slot (R42). -/
def OrderUnit.setNews (o : OrderUnit) (n : SlotNo) (c : Cause) : OrderUnit :=
  let r := o.slot n
  if r.state = .free ∨ r.state = .posted then o
  else
    let o1 := o.setSlot n { r with news := r.news ||| causeMask c }
    if r.mask &&& causeMask c ≠ 0 then { o1 with summary := o1.summary ||| slotMask n } else o1

/-- The slot's word at offset 0x0C: outcome, refusal code, CANCEL_LATE (11, "Order table"). -/
def outcomeWord (out : OrderOutcome) (code : RefusalCode) (late : Bool) : Word :=
  word (outcomeCode out + 256 * refusalNumber code + 65536 * flagBit late)

end Sys2Proof.Machine
end

