-- ==== Sys2Proof/Machine/Ops.lean ====
section
/-! DEFINITION. The named operations over memory, check bits, the guard table and the slots that every unit uses. -/

namespace Sys2Proof.Machine

/-! ## Transfer memory (R1, R19) -/

/-- What an address that is not listed reads as: the clearing writes zero to every word (R19; log 1). -/
def unlistedByte : Byte := 0

/-- The byte at an address. -/
def readByte : List Host.Cell → Nat → Byte
  | [], _ => unlistedByte
  | (b, v) :: rest, a => if a = b then v else readByte rest a

/-- The cells of bytes from an address on: a byte equal to what an unlisted address reads as has none. -/
def cellsFrom : Nat → List Byte → List Host.Cell
  | _, [] => []
  | a, v :: vs => if v = unlistedByte then cellsFrom (a + 1) vs else (a, v) :: cellsFrom (a + 1) vs

/-- Memory with bytes written from an address on, in canonical form. -/
def writeBytes (m : List Host.Cell) (a : Nat) (vs : List Byte) : List Host.Cell :=
  m.takeWhile (fun c => decide (c.1 < a)) ++ cellsFrom a vs ++ m.dropWhile (fun c => decide (c.1 < a + vs.length))

/-- The canonical form: addresses strictly rising, no entry equal to what an unlisted address reads as. -/
def Memory.wf : List Host.Cell → Bool
  | [] => true
  | [(_, v)] => v != unlistedByte
  | (a, v) :: (b, w) :: rest => v != unlistedByte && decide (a < b) && Memory.wf ((b, w) :: rest)

/-- The word at a word address, lowest byte first (R203). -/
def readMemWord (m : List Host.Cell) (a : Nat) : Word :=
  wordOfBytes (readByte m a) (readByte m (a + 1)) (readByte m (a + 2)) (readByte m (a + 3))

/-- The four bytes of a word, lowest address first (R203). -/
def wordBytes (w : Word) : List Byte := [byteOf w 0, byteOf w 1, byteOf w 2, byteOf w 3]

/-- Memory with one word written, lowest byte first (R203). -/
def writeMemWord (m : List Host.Cell) (a : Nat) (w : Word) : List Host.Cell := writeBytes m a (wordBytes w)

/-! ## Check bits (R6 to R9) -/

/-- The condition of a word: `none` for clean. -/
def eccAt : List (Nat × EccMark) → Nat → Option EccMark
  | [], _ => none
  | (b, k) :: rest, a => if a = b then some k else eccAt rest a

/-- Fresh check bits for a word. -/
def clearEcc : List (Nat × EccMark) → Nat → List (Nat × EccMark)
  | [], _ => []
  | (b, k) :: rest, a => if a = b then clearEcc rest a else (b, k) :: clearEcc rest a

/-- A disturbed word, in rising order of addresses. -/
def markEcc : List (Nat × EccMark) → Nat → EccMark → List (Nat × EccMark)
  | [], a, k => [(a, k)]
  | (b, j) :: rest, a, k =>
    if a < b then (a, k) :: (b, j) :: rest else if a = b then (a, k) :: rest else (b, j) :: markEcc rest a k

/-- A whole word stored with fresh check bits (R6). Every engine write is one. -/
def Port.store (p : Port) (a : Nat) (w : Word) : Port :=
  { p with mem := writeMemWord p.mem a w, ecc := clearEcc p.ecc a }

/-- Words stored one after the other from an address on, each with fresh check bits. -/
def Port.storeWords (p : Port) (a : Nat) (ws : List Word) : Port :=
  { p with
    mem := writeBytes p.mem a (ws.flatMap wordBytes)
    ecc := p.ecc.filter fun k => decide (k.1 < a ∨ a + 4 * ws.length ≤ k.1) }

/-- A correction counted (R9). -/
def Port.countCorrection (p : Port) : Port := { p with corrected := inc8 p.corrected }

/-- A checked read: a clean word; a single-bit error corrected, counted and written back; an uncorrectable word flagged
and given as `none`, a memory fault (R7, R8). -/
def Port.checkedRead (p : Port) (a : Nat) : Option Word × Port :=
  match eccAt p.ecc a with
  | none => (some (readMemWord p.mem a), p)
  | some .single => (some (readMemWord p.mem a), { p.countCorrection with ecc := clearEcc p.ecc a })
  | some .uncorrectable => (none, { p with uncorrected := true })

/-- Checked reads of consecutive words, stopping at the first memory fault (R27). -/
def Port.readWords (p : Port) (a : Nat) : Nat → Option (List Word) × Port
  | 0 => (some [], p)
  | n + 1 =>
    match p.checkedRead a with
    | (none, p1) => (none, p1)
    | (some w, p1) =>
      match p1.readWords (a + 4) n with
      | (none, p2) => (none, p2)
      | (some ws, p2) => (some (w :: ws), p2)

/-! ## Guard table and watches (R10 to R13) -/

/-- Whether a SPAN_STATE entry names the word (R11). A RELEASED entry of another order for the same word does not make it ordinary
memory (DESIGN CHOICE, log 53). -/
def Port.isGuarded (p : Port) (a : Nat) : Bool := p.guard.any fun e => e.addr == a && decide (e.cls = .spanState)

/-- Every entry of a slot's order for a word has its watch flag set (R12, R13). -/
def Port.setWatch (p : Port) (n : SlotNo) (a : Nat) : Port :=
  { p with guard := p.guard.map fun e => if e.slot = n ∧ e.addr = a then { e with watch := true } else e }

/-- Watches end at an applied host write: flags cleared, the writer told the address and the slots (R13). -/
def Port.endWatches (p : Port) (a : Nat) : Port :=
  let slots := (p.guard.filter fun e => e.addr == a && e.watch).map (·.slot)
  if slots = [] then p
  else { p with
    guard := p.guard.map fun e => if e.addr = a then { e with watch := false } else e
    notices := p.notices ++ [⟨a, slots⟩] }

/-- A live order's entries removed; their watches end without a notice (R11). -/
def Port.dropEntries (p : Port) (n : SlotNo) : Port := { p with guard := p.guard.filter fun e => e.slot ≠ n }

/-- What an engine's transition request comes back with (R12, R8). -/
inductive Transition where
  | applied
  | found (w : Word)
  | fault
  deriving DecidableEq, Repr

/-- A transition request on a span state word: applied when the word holds the expected value; otherwise the word stays
and, when asked for, the requesting order's watch is set in the same action (R12). -/
def Port.spanRequest (p : Port) (n : SlotNo) (a : Nat) (expected new : Word) (watch : Bool) : Transition × Port :=
  match p.checkedRead a with
  | (none, p1) => (.fault, if watch then p1.setWatch n a else p1)
  | (some w, p1) => if w = expected then (.applied, p1.store a new) else (.found w, if watch then p1.setWatch n a else p1)

/-- Span state codes (R184). -/
def spanEmpty : Word := 0
def spanFilling : Word := 1
def spanFull : Word := 2

/-- The value a guarded span write is judged against: the word corrected, or FULL when it is unreadable (R10). The
judging read counts, flags and writes back as any read (log 16). -/
def Port.judgingRead (p : Port) (a : Nat) : Word × Port :=
  match p.checkedRead a with
  | (none, p1) => (spanFull, p1)
  | (some w, p1) => (w, p1)

/-- A full-word host write to a guarded span state word: only FULL to EMPTY is applied, and it ends the watches (R10,
R13). -/
def Port.guardedWrite (p : Port) (a : Nat) (v : Word) : Port :=
  if p.phase = .warmReset then p
  else
    let (held, p1) := p.judgingRead a
    if held = spanFull ∧ v = spanEmpty then (p1.store a v).endWatches a else p1

/-- A full-word host write to a word of memory: judged when guarded, otherwise applied, ending RELEASED watches (R3, R4,
R10, R13). -/
def Port.memoryWrite (p : Port) (a : Nat) (v : Word) : Port :=
  if p.isGuarded a then p.guardedWrite a v else (p.store a v).endWatches a

/-- A narrower host write to a word of memory: discarded when guarded, otherwise merged into the word as checked (R4,
R6). -/
def Port.narrowWrite (p : Port) (a : Nat) (enables : BitVec 4) (v : Word) : Port :=
  if p.isGuarded a then p
  else
    let old := readMemWord p.mem a
    let (_, p1) := p.checkedRead a
    (p1.store a (mergeWord enables old v)).endWatches a

/-- A disturbance of a memory word (R6; log 6). -/
def Port.disturb (p : Port) (a : Nat) : Disturbance → Port
  | .singleBit => if eccAt p.ecc a = some .uncorrectable then p else { p with ecc := markEcc p.ecc a .single }
  | .uncorrectable raw => { p with mem := writeMemWord p.mem a raw, ecc := markEcc p.ecc a .uncorrectable }

/-! ## Slots (R23, R24) -/

/-- A slot with its state replaced. -/
def OrderUnit.setState (o : OrderUnit) (n : SlotNo) (st : SlotState) : OrderUnit := o.setSlot n { o.slot n with state := st }

/-- The order unit and the port together: what most units reach besides their own state. -/
structure Hub where
  port : Port
  orders : OrderUnit
  deriving DecidableEq, Repr

/-- One whole-word engine write into a slot (R3, R204). -/
def Hub.slotWrite (h : Hub) (n : SlotNo) (off : Nat) (w : Word) : Hub := { h with port := h.port.store (slotBase n + off) w }

/-- A news cause set for a slot (R42). -/
def Hub.news (h : Hub) (n : SlotNo) (c : Cause) : Hub := { h with orders := h.orders.setNews n c }

/-- A slot made DONE: outcome word, live copy, state DONE, DONE news (R24, R44). -/
def Hub.conclude (h : Hub) (n : SlotNo) (out : OrderOutcome) (code : RefusalCode) (late : Bool) : Hub :=
  let h1 := h.slotWrite n 0x0C (outcomeWord out code late)
  { h1 with orders := (h1.orders.setSlot n { h1.orders.slot n with state := .done, live := none }).setNews n .done }

/-- An order finished: its slot made DONE and its guard entries removed (R24, R11). -/
def Hub.finish (h : Hub) (n : SlotNo) (out : OrderOutcome) (code : RefusalCode) (late : Bool) : Hub :=
  let h1 := h.conclude n out code late
  { h1 with port := h1.port.dropEntries n }

/-- An end reported to the order unit (R24). -/
def Hub.report (h : Hub) (n : SlotNo) (out : OrderOutcome) (own : Bool) : Hub :=
  { h with orders := { h.orders with ends := h.orders.ends ++ [⟨n, out, .none, own⟩] } }

/-- The slots whose accepted CAPTURE order is RUNNING or STOPPING (R53, R42; an order under validation is none, log 54). -/
def runningCaptures (o : OrderUnit) : List SlotNo :=
  slotNos.filter fun n => decide ((o.slot n).live = some .capture ∧ ((o.slot n).state = .running ∨ (o.slot n).state = .stopping))

/-- Whether a stream order is RUNNING or STOPPING (R31, R34). -/
def streamBusy (o : OrderUnit) : Bool :=
  slotNos.any fun n => match (o.slot n).live with
    | none => false
    | some k => k.isStream && decide ((o.slot n).state = .running ∨ (o.slot n).state = .stopping)

/-- Whether a TRANSPORT order is pending: accepted and not yet DONE (R38). -/
def transportBusy (o : OrderUnit) : Bool := slotNos.any fun n => decide ((o.slot n).live = some .transport)

/-! ## A running capture -/

/-- The port, the order unit and a capture: what the steps of a capture act on. -/
structure Cx where
  hub : Hub
  cap : Capture
  deriving DecidableEq, Repr

/-- A news cause for the capture's slot. -/
def Cx.news (c : Cx) (k : Cause) : Cx := { c with hub := c.hub.news c.cap.slot k }

/-- A word written into the capture's progress area (R180). -/
def Cx.progress (c : Cx) (off : Nat) (w : Word) : Cx := { c with hub := c.hub.slotWrite c.cap.slot off w }

/-- The capture with its controller replaced. -/
def Cx.setControl (c : Cx) (k : Control) : Cx := { c with cap := { c.cap with control := k } }

/-- The capture with its writer replaced. -/
def Cx.setWriter (c : Cx) (w : Writer) : Cx := { c with cap := { c.cap with writer := w } }

/-- The state with port and order unit replaced. -/
def State.setHub (s : State) (h : Hub) : State := { s with port := h.port, orders := h.orders }

/-- The port and order unit of the state. -/
def State.hub (s : State) : Hub := ⟨s.port, s.orders⟩

/-- The state with port, order unit and capture replaced. -/
def State.setCx (s : State) (c : Cx) : State := { s with port := c.hub.port, orders := c.hub.orders, capture := some c.cap }

/-- A step's own outcome. -/
abbrev Result := Host.Outcome State Fault Refusal

/-- An engine's step happens in every phase but COLD_INIT, in which no unit works (R19, R61, R63; log 33). -/
def engineStep (s : State) (f : State → Result) : Result := if s.port.phase = .coldInit then .next s else f s

/-- A step of the running capture; without a capture the step's condition does not hold (log 4). -/
def captureStep (s : State) (f : Cx → Except Fault Cx) : Result :=
  engineStep s fun s =>
    match s.capture with
    | none => .next s
    | some cap =>
      match f ⟨s.hub, cap⟩ with
      | .ok c => .next (s.setCx c)
      | .error e => .fault e

/-- The samples of a block in the history store (R65). -/
def findBlock (ec : ElementCapture) (num : Word) : Option HistBlock := ec.history.find? fun b => b.num == num

/-- A held block, or the fault that the store has dropped it (R65). -/
def needBlock (ec : ElementCapture) (num : Word) : Except Fault HistBlock :=
  match findBlock ec num with
  | some b => .ok b
  | none => .error (.blockNotHeld num)

/-- The raw samples of one element of a block. -/
def rawSamples (b : HistBlock) (e : Nat) : List Int := (b.samples.getD e []).map (·.toInt)

/-- Trim (R69): y = saturate24(round((x − o) × g / 16,384)). -/
def trim (e : CalEntry) (x : Int) : Int := saturate24 (roundDiv ((x - e.offset) * e.gain) 16384)

/-- The trimmed samples of one element of a block (R69). -/
def trimmed (ec : ElementCapture) (b : HistBlock) (e : Nat) : List Int := (rawSamples b e).map (trim (tableEntry ec.table e))

end Sys2Proof.Machine
end

