-- ==== Sys2Proof/Machine/Transport.lean ====
section
/-! DEFINITION. The transport counter unit (03): filtering, decoding, counting, index events, pack ratios, slip,
motion state, block records and the snapshot. -/

namespace Sys2Proof.Machine

/-! ## Input filtering (R45) -/

/-- Whether a pending change has lasted the debounce interval (R45). -/
def Line.matured (l : Line) (debounce : Nat) : Bool :=
  match l.ran with
  | none => false
  | some r => Config.microsecond * debounce ≤ r

/-- A line after time has passed: a pending change has run on (R45). -/
def Line.tick (l : Line) (dt : Nat) : Line := { l with ran := l.ran.map (· + dt) }

/-- A line at one instant, the raw level being `level` from it on: a matured change takes effect; a difference begins,
keeps or drops a pending change; with debounce off the level is taken at once (R45). -/
def Line.settle (l : Line) (debounce : Nat) (level : Bool) : Line :=
  if debounce = 0 then ⟨level, level, none⟩
  else
    let f := if l.matured debounce then l.raw else l.filtered
    if level = f then ⟨level, f, none⟩
    else if level = l.raw ∧ l.matured debounce = false then ⟨level, f, some (l.ran.getD 0)⟩
    else ⟨level, f, some 0⟩

/-- The time until a line's pending change matures, if it has one. -/
def Line.remaining (l : Line) (debounce : Nat) : Option Nat := l.ran.map fun r => Config.microsecond * debounce - r

/-- The smaller of two optional times. -/
def minOpt : Option Nat → Option Nat → Option Nat
  | none, t => t
  | some a, none => some a
  | some a, some b => some (min a b)

/-- The three lines of a decoder. -/
def Decoder.remaining (d : Decoder) : Option Nat :=
  let n := d.settings.debounce
  minOpt (d.lineA.remaining n) (minOpt (d.lineB.remaining n) (d.lineI.remaining n))

/-- The time until the earliest expiry of a debounce interval; PINCH is filtered with CAPSTAN's interval (R45). -/
def Transport.nextExpiry (t : Transport) : Option Nat :=
  minOpt t.capstan.remaining
    (minOpt t.supply.remaining (minOpt t.takeup.remaining (t.pinch.remaining t.capstan.settings.debounce)))

/-- A decoder after time has passed. -/
def Decoder.tick (d : Decoder) (dt : Nat) : Decoder :=
  { d with lineA := d.lineA.tick dt, lineB := d.lineB.tick dt, lineI := d.lineI.tick dt }

/-- The unit after time has passed without an event. -/
def Transport.tick (t : Transport) (dt : Nat) : Transport :=
  { t with capstan := t.capstan.tick dt, supply := t.supply.tick dt, takeup := t.takeup.tick dt, pinch := t.pinch.tick dt,
           clock := t.clock + dt }

/-! ## Decoding (R46, R50) -/

/-- The phase named by the levels of A and then B. -/
def phaseOf : Bool → Bool → QPhase
  | false, false => .ll
  | true, false => .hl
  | true, true => .hh
  | false, true => .lh

/-- The count of a step from one phase to another, in the three encodings; 0 where the table says none or where the two
phases are no step (R46). -/
def stepCount : Encoding → QPhase → QPhase → Int
  | .x4, .ll, .hl => 1
  | .x4, .hl, .hh => 1
  | .x4, .hh, .lh => 1
  | .x4, .lh, .ll => 1
  | .x4, .ll, .lh => -1
  | .x4, .lh, .hh => -1
  | .x4, .hh, .hl => -1
  | .x4, .hl, .ll => -1
  | .x2, .ll, .hl => 1
  | .x2, .hh, .lh => 1
  | .x2, .lh, .hh => -1
  | .x2, .hl, .ll => -1
  | .x1, .ll, .hl => 1
  | .x1, .hl, .ll => -1
  | _, _, _ => 0

/-- The index condition: I is high and the index phase is ANY or the decoder's phase (R50). -/
def indexCondition (index : Option QPhase) (phase : QPhase) (i : Bool) : Bool :=
  match index with
  | none => i
  | some q => i && decide (q = phase)

/-- The three decoders. -/
inductive DecoderId where
  | capstan
  | supply
  | takeup
  deriving DecidableEq, Repr

/-- The transport counter unit with the port and order unit its news reaches. -/
structure Deck where
  unit : Transport
  hub : Hub
  deriving DecidableEq, Repr

/-- The decoder of that name. -/
def Transport.decoder (t : Transport) : DecoderId → Decoder
  | .capstan => t.capstan
  | .supply => t.supply
  | .takeup => t.takeup

/-- The unit with one decoder replaced. -/
def Transport.setDecoder (t : Transport) (d : DecoderId) (x : Decoder) : Transport :=
  match d with
  | .capstan => { t with capstan := x }
  | .supply => { t with supply := x }
  | .takeup => { t with takeup := x }

/-- A reel whose running interval has become unclean (R52). -/
def Reel.soil (r : Reel) : Reel := { r with runClean := false }

/-- Both running intervals unclean. -/
def Transport.soilReels (t : Transport) : Transport :=
  { t with supplyReel := t.supplyReel.soil, takeupReel := t.takeupReel.soil }

/-- The record in progress changed, if there is one. -/
def Transport.mark (t : Transport) (f : OpenRecord → OpenRecord) : Transport := { t with current := t.current.map f }

/-- A count added to the capstan position while PINCH is engaged: position, block, motion state, still-block run (R48,
R54). -/
def Transport.capstanCount (t : Transport) (c : Int) : Transport :=
  if c = 0 ∨ t.pinch.filtered = false then t
  else
    let d := BitVec.ofInt 32 c
    let t1 := { t with position := t.position + d, motion := if 0 < c then .forward else .reverse, stillRun := 0, counted := true }
    t1.mark fun r => { r with net := r.net + d, reverse := r.reverse || decide (c < 0) }

/-- A count of a decoder delivered (R46, R48, R51). -/
def Transport.count (t : Transport) (d : DecoderId) (c : Int) : Transport :=
  match d with
  | .capstan => t.capstanCount c
  | .supply => { t with supplyReel := { t.supplyReel with counter := t.supplyReel.counter + BitVec.ofInt 16 c } }
  | .takeup => { t with takeupReel := { t.takeupReel with counter := t.takeupReel.counter + BitVec.ofInt 16 c } }

/-- A decode error: no count, the decoder's error count, DECODE_ERROR in the block, unclean intervals (R47, R52). -/
def Transport.decodeError (t : Transport) (d : DecoderId) : Transport :=
  let x := t.decoder d
  let t1 := (t.setDecoder d { x with errors := inc16 x.errors }).mark fun r => { r with decodeError := true }
  match d with
  | .capstan => t1.soilReels
  | .supply => { t1 with supplyReel := t1.supplyReel.soil }
  | .takeup => { t1 with takeupReel := t1.takeupReel.soil }

/-- Whether a new clean pack ratio is a slip against the previous one (R53). -/
def isSlip (threshold : Nat) (old new : Word) : Bool :=
  decide (threshold * old.toInt.natAbs < 1000 * (new.toInt - old.toInt).natAbs)

/-- A reel's index event: counter reloaded, pack ratio, its judgement for slip, new stamp, new interval (R51 to R53). The
flag says whether a slip was judged. -/
def Reel.indexEvent (r : Reel) (position : Word) (engaged : Bool) (threshold : Nat) : Reel × Bool :=
  match r.stamp with
  | none => ({ r with counter := 0, stamp := some position, runClean := engaged }, false)
  | some old =>
    let ratio := position - old
    let slip := r.runClean && r.ratioClean && isSlip threshold r.ratio ratio
    ({ counter := 0, stamp := some position, ratio := ratio, ratioClean := r.runClean, runClean := engaged,
       slips := if slip then inc16 r.slips else r.slips }, slip)

/-- News SLIP for a CAPTURE that is RUNNING or STOPPING; none while a warm reset runs (R53, R62). -/
def Hub.slipNews (h : Hub) : Hub :=
  if h.port.phase = .warmReset then h else (runningCaptures h.orders).foldl (fun h n => h.news n .slip) h

/-- An index event of a decoder (R49 to R53). -/
def Deck.indexEvent (k : Deck) (d : DecoderId) : Deck :=
  let t := k.unit
  match d with
  | .capstan => { k with unit := { t with capstanStamp := t.position } }
  | .supply =>
    let (r, slip) := t.supplyReel.indexEvent t.position t.pinch.filtered t.slipThreshold
    let t1 := { t with supplyReel := r }
    if slip then ⟨t1.mark fun b => { b with slip := true }, k.hub.slipNews⟩ else { k with unit := t1 }
  | .takeup =>
    let (r, slip) := t.takeupReel.indexEvent t.position t.pinch.filtered t.slipThreshold
    let t1 := { t with takeupReel := r }
    if slip then ⟨t1.mark fun b => { b with slip := true }, k.hub.slipNews⟩ else { k with unit := t1 }

/-- An index event, if the condition went from false to true (R50). -/
def Deck.indexEdge (k : Deck) (d : DecoderId) (before after : Bool) : Deck :=
  if before = false ∧ after = true then k.indexEvent d else k

/-- A change of a decoder's filtered lines at one instant: step or decode error, index event of the new phase, and then
the change of I (R45, R46, R47, R50). `x` is the decoder with its lines after the instant. -/
def Deck.decoderChange (k : Deck) (d : DecoderId) (x : Decoder) : Deck :=
  let old := k.unit.decoder d
  let p0 := phaseOf old.lineA.filtered old.lineB.filtered
  let p1 := phaseOf x.lineA.filtered x.lineB.filtered
  let index := old.settings.index
  let t := k.unit.setDecoder d { old with lineA := x.lineA, lineB := x.lineB, lineI := x.lineI }
  let both := old.lineA.filtered != x.lineA.filtered && old.lineB.filtered != x.lineB.filtered
  let t1 := if both then t.decodeError d else t.count d (stepCount old.settings.encoding p0 p1)
  let k1 : Deck := { k with unit := t1 }
  let c0 := indexCondition index p0 old.lineI.filtered
  let c1 := indexCondition index p1 old.lineI.filtered
  let c2 := indexCondition index p1 x.lineI.filtered
  (k1.indexEdge d c0 c1).indexEdge d c1 c2

/-- A change of filtered PINCH: opening marks the block and soils both intervals (R52, R55). -/
def Transport.pinchChange (t : Transport) (l : Line) : Transport :=
  let t1 := { t with pinch := l }
  if t.pinch.filtered = true ∧ l.filtered = false then (t1.mark fun r => { r with pinch := false }).soilReels else t1

/-! ## Instants -/

/-- What changes at an instant: a decoder's lines, or PINCH. -/
inductive Change where
  | decoder (d : DecoderId) (x : Decoder)
  | pinch (l : Line)
  deriving DecidableEq, Repr

/-- One change served. -/
def Deck.serve (k : Deck) : Change → Deck
  | .decoder d x => k.decoderChange d x
  | .pinch l => { k with unit := k.unit.pinchChange l }

/-- An order of a list picked by a number. -/
def permute {α : Type} (k : Nat) : Nat → List α → List α
  | 0, l => l
  | n + 1, l =>
    match l[k % (n + 1)]? with
    | none => l
    | some x => x :: permute (k / (n + 1)) n (l.eraseIdx (k % (n + 1)))

/-- The raw levels of a decoder after an instant. -/
def Decoder.settle (d : Decoder) (a b i : Bool) : Decoder :=
  let n := d.settings.debounce
  { d with lineA := d.lineA.settle n a, lineB := d.lineB.settle n b, lineI := d.lineI.settle n i }

/-- Whether a decoder's filtered levels differ. -/
def Decoder.differs (d x : Decoder) : Bool :=
  d.lineA.filtered != x.lineA.filtered || d.lineB.filtered != x.lineB.filtered || d.lineI.filtered != x.lineI.filtered

/-- The raw levels as they stand: A, B, I of CAPSTAN, SUPPLY, TAKEUP, and PINCH, from bit 0 up. -/
def Transport.rawLevels (t : Transport) : BitVec 10 :=
  BitVec.ofNat 10 (flagBit t.capstan.lineA.raw + 2 * flagBit t.capstan.lineB.raw + 4 * flagBit t.capstan.lineI.raw
    + 8 * flagBit t.supply.lineA.raw + 16 * flagBit t.supply.lineB.raw + 32 * flagBit t.supply.lineI.raw
    + 64 * flagBit t.takeup.lineA.raw + 128 * flagBit t.takeup.lineB.raw + 256 * flagBit t.takeup.lineI.raw
    + 512 * flagBit t.pinch.raw)

/-- A decoder with pending changes and raw levels of another, its filtered levels its own. -/
def Decoder.quiet (d x : Decoder) : Decoder :=
  { d with lineA := { x.lineA with filtered := d.lineA.filtered }, lineB := { x.lineB with filtered := d.lineB.filtered },
           lineI := { x.lineI with filtered := d.lineI.filtered } }

/-- One instant at which the raw levels become `v` and matured changes take effect. Changes of one decoder are one
transition; changes of different decoders and of PINCH are served one after the other, in the order the free value
picks (R45, R48; log 9). The number says how many free values were read. -/
def Deck.instant (k : Deck) (v : BitVec 10) (free : Nat) : Deck × Nat :=
  let t := k.unit
  let cap := t.capstan.settle (v.getLsbD 0) (v.getLsbD 1) (v.getLsbD 2)
  let sup := t.supply.settle (v.getLsbD 3) (v.getLsbD 4) (v.getLsbD 5)
  let tak := t.takeup.settle (v.getLsbD 6) (v.getLsbD 7) (v.getLsbD 8)
  let pin := t.pinch.settle t.capstan.settings.debounce (v.getLsbD 9)
  let changes := (if t.capstan.differs cap then [Change.decoder .capstan cap] else [])
    ++ (if t.pinch.filtered != pin.filtered then [Change.pinch pin] else [])
    ++ (if t.supply.differs sup then [Change.decoder .supply sup] else [])
    ++ (if t.takeup.differs tak then [Change.decoder .takeup tak] else [])
  let k1 : Deck := { k with unit := { t with
    capstan := t.capstan.quiet cap, supply := t.supply.quiet sup, takeup := t.takeup.quiet tak,
    pinch := { pin with filtered := t.pinch.filtered } } }
  if changes.length ≤ 1 then (changes.foldl Deck.serve k1, free)
  else ((permute (Config.instantOrder free) changes.length changes).foldl Deck.serve k1, free + 1)

/-- Time passing, every expiry before its end served at its instant; each of the ten lines expires at most once while no
raw level changes (R45). -/
def Deck.pass (k : Deck) (dt free : Nat) : Nat → Deck × Nat
  | 0 => ({ k with unit := k.unit.tick dt }, free)
  | fuel + 1 =>
    match k.unit.nextExpiry with
    | none => ({ k with unit := k.unit.tick dt }, free)
    | some e =>
      if dt ≤ e then ({ k with unit := k.unit.tick dt }, free)
      else
        let k1 : Deck := { k with unit := k.unit.tick e }
        let (k2, free1) := k1.instant k1.unit.rawLevels free
        k2.pass (dt - e) free1 fuel

/-- The state with the transport counter unit, port, order unit and count of free values replaced. -/
def State.setDeck (s : State) (k : Deck × Nat) : State :=
  { s with transport := k.1.unit, port := k.1.hub.port, orders := k.1.hub.orders, freeCount := k.2 }

/-- The state's transport counter unit with its port and order unit. -/
def State.deck (s : State) : Deck := ⟨s.transport, s.hub⟩

/-- A line that carries a raw level before the unit works (R61; log 8). -/
def Line.hold (l : Line) (level : Bool) : Line := { l with raw := level }

/-- The raw levels of all lines, nothing decoded (R61). -/
def Transport.holdRaw (t : Transport) (v : BitVec 10) : Transport :=
  { t with
    capstan := { t.capstan with lineA := t.capstan.lineA.hold (v.getLsbD 0), lineB := t.capstan.lineB.hold (v.getLsbD 1),
                                lineI := t.capstan.lineI.hold (v.getLsbD 2) }
    supply := { t.supply with lineA := t.supply.lineA.hold (v.getLsbD 3), lineB := t.supply.lineB.hold (v.getLsbD 4),
                              lineI := t.supply.lineI.hold (v.getLsbD 5) }
    takeup := { t.takeup with lineA := t.takeup.lineA.hold (v.getLsbD 6), lineB := t.takeup.lineB.hold (v.getLsbD 7),
                              lineI := t.takeup.lineI.hold (v.getLsbD 8) }
    pinch := t.pinch.hold (v.getLsbD 9) }

/-- INPUT_CHANGE: after the time given, the raw levels are the ones given (R45). Outside COLD_INIT the expiries on the way
are served and the levels judged; in COLD_INIT only the levels change (R61). -/
def execInputChange (periods : Nat) (levels : BitVec 10) (s : State) : Result :=
  if s.port.phase = .coldInit then .next { s with transport := s.transport.holdRaw levels }
  else
    let (k, free) := s.deck.pass (1000 * periods) s.freeCount 10
    .next (s.setDeck (k.instant levels free))

/-- DEBOUNCE_EXPIRY: time passes to the earliest expiry of a pending change, which takes effect (R45). -/
def execDebounceExpiry (s : State) : Result :=
  engineStep s fun s =>
    match s.transport.nextExpiry with
    | none => .next s
    | some e =>
      let k : Deck := { s.deck with unit := s.transport.tick e }
      .next (s.setDeck (k.instant k.unit.rawLevels s.freeCount))

/-! ## Motion state (R54) -/

/-- The motion state becomes STOPPED when the still-block run has reached 10 (R54). -/
def Transport.stopIfStill (t : Transport) : Transport := if 10 ≤ t.stillRun then { t with motion := .stopped } else t

/-- A boundary's update of the still-block run and the motion state (R54). -/
def Transport.closeMotion (t : Transport) : Transport :=
  if t.counted then { t with counted := false } else ({ t with stillRun := t.stillRun + 1 }).stopIfStill

/-- MOTION_STOPPED: the still-block run has reached 10 (R54; log 21). -/
def execMotionStopped (s : State) : Result := engineStep s fun s => .next { s with transport := s.transport.stopIfStill }

/-! ## Block records (R55 to R57) -/

/-- A record closed at the boundary, with the driven test of R56. -/
def OpenRecord.close (r : OpenRecord) (stop : Word) (motion : Motion) : BlockRecord :=
  { num := r.num, start := r.start, stop := stop, net := r.net, pinch := r.pinch, reverse := r.reverse,
    decodeError := r.decodeError, slip := r.slip, motion := motion,
    driven := r.pinch && !r.reverse && decide (motion = .forward), nc := r.nc }

/-- The ending block's record closed and kept among the last eight (R55, R57). -/
def Transport.closeRecord (t : Transport) : Option BlockRecord × Transport :=
  match t.current with
  | none => (none, t)
  | some r =>
    let b := r.close t.position t.motion
    (some b, { t with current := none, records := (b :: t.records).take 8 })

/-- The record of the beginning block opened (R55). PINCH is filtered PINCH as the block begins, for the first record too (DESIGN
CHOICE, log 45). -/
def Transport.openRecord (t : Transport) (num : Word) : Transport :=
  { t with current := some { num := num, start := t.position, net := 0, pinch := t.pinch.filtered, reverse := false,
                             decodeError := false, slip := false, nc := t.nc } }

/-- All settings replaced together; intervals unclean where R52 says; the preset (R59, R60). -/
def Transport.bindOrder (t : Transport) (o : TransportOrder) : Transport :=
  let capChanged := o.capstan.encoding ≠ t.capstan.settings.encoding
  let supSoil := capChanged ∨ o.supply.encoding ≠ t.supply.settings.encoding ∨ o.supply.index ≠ t.supply.settings.index
    ∨ o.preset ≠ none
  let takSoil := capChanged ∨ o.takeup.encoding ≠ t.takeup.settings.encoding ∨ o.takeup.index ≠ t.takeup.settings.index
    ∨ o.preset ≠ none
  { t with
    capstan := { t.capstan with settings := o.capstan }
    supply := { t.supply with settings := o.supply }
    takeup := { t.takeup with settings := o.takeup }
    nc := o.nc
    slipThreshold := o.slipThreshold
    supplyReel := if supSoil then t.supplyReel.soil else t.supplyReel
    takeupReel := if takSoil then t.takeupReel.soil else t.takeupReel
    position := o.preset.getD t.position }

/-- The sixteen words of the snapshot (R58; 11, "Transport snapshot"). -/
def Transport.snapshot (t : Transport) (num : Word) : List Word :=
  [num, t.position, word (motionCode t.motion + 256 * flagBit t.pinch.filtered),
   word (t.supplyReel.counter.toNat + 65536 * t.takeupReel.counter.toNat), t.supplyReel.ratio, t.takeupReel.ratio,
   t.capstanStamp, word (t.capstan.errors.toNat + 65536 * t.supply.errors.toNat), word t.takeup.errors.toNat,
   word (t.supplyReel.slips.toNat + 65536 * t.takeupReel.slips.toNat), 0, 0, 0, 0, 0, num]

/-- A decoder whose filtered levels are its raw levels, nothing pending (R45 "At cold start"). -/
def Decoder.start (d : Decoder) : Decoder :=
  { d with lineA := ⟨d.lineA.raw, d.lineA.raw, none⟩, lineB := ⟨d.lineB.raw, d.lineB.raw, none⟩,
           lineI := ⟨d.lineI.raw, d.lineI.raw, none⟩ }

/-- The unit as counting begins: filtered levels from the raw inputs (R45, R61). -/
def Transport.start (t : Transport) : Transport :=
  { t with capstan := t.capstan.start, supply := t.supply.start, takeup := t.takeup.start,
           pinch := ⟨t.pinch.raw, t.pinch.raw, none⟩, clock := 0 }

end Sys2Proof.Machine
end

