-- ==== Sys2Proof/Machine/Elements.lean ====
section
/-! DEFINITION. Block boundaries (04, 03): the history store, the block record, a TRANSPORT binding and the snapshot. -/

namespace Sys2Proof.Machine

/-- The clip count of one element: its samples at either extreme code (R67). -/
def clipCount (e : List Sample) : Nat := e.countP fun x => x == 0x7FFFFF#24 || x == 0x800000#24

/-- The binding block's record has closed: its positions are written and the end is reported (R59). -/
def Hub.completeTransport (h : Hub) (r : Option BlockRecord) : Hub :=
  match h.orders.reachedTransport, r with
  | some n, some b =>
    let h1 := (h.slotWrite n 0x24 b.start).slotWrite n 0x28 b.stop
    let h2 := h1.report n .complete false
    { h2 with orders := { h2.orders with reachedTransport := none } }
  | _, _ => h

/-- A pending TRANSPORT stamped with the block that begins takes effect (R38, R59). -/
def Deck.bindTransport (k : Deck) (num : Word) : Deck :=
  match k.hub.orders.pendingTransport with
  | none => k
  | some p =>
    if p.block = num then
      { unit := k.unit.bindOrder p.order
        hub := { k.hub with orders := { k.hub.orders with pendingTransport := none, reachedTransport := some p.slot } } }
    else k

/-- The transport counter unit at a boundary: motion state, record, completion of a TRANSPORT, binding, the new record,
the snapshot (R54, R55, R58 to R60). `num` is the number of the block that begins. -/
def Deck.boundary (k : Deck) (num : Word) : Option BlockRecord × Deck :=
  let (r, t) := k.unit.closeMotion.closeRecord
  let k1 : Deck := { unit := t, hub := k.hub.completeTransport r }
  let k2 := k1.bindTransport num
  let t2 := k2.unit.openRecord num
  (r, { unit := { t2 with clock := 0 }
        hub := { k2.hub with port := k2.hub.port.storeWords Config.snapshotBase (t2.snapshot num) } })

/-- The element capture unit at a boundary: the ending block is complete and held with the two before it (R64, R65). -/
def ElementCapture.boundary (ec : ElementCapture) (samples : List (List Sample)) : ElementCapture :=
  { ec with block := ec.block + 1, history := (⟨ec.block, samples, samples.map clipCount⟩ :: ec.history).take 3 }

/-- BLOCK_BOUNDARY: sample 3,839 of the block has been written (R64). The expiries before the boundary are served in the
ending block, those at it in the beginning block, overdue ones with them (log 10, log 35); where a TRANSPORT changes the interval
at the boundary, they are judged against the new one (DESIGN CHOICE, log 55). While a stream order runs, the
completed block goes to the capture controller with its record (R66). -/
def execBlockBoundary (samples : List (List Sample)) (s : State) : Result :=
  engineStep s fun s =>
    if wellFormedBlock samples = false then .fault .malformedBlock
    else
      let num := s.elements.block
      let (k, free) := s.deck.pass (Config.blockTime - s.transport.clock) s.freeCount 10
      let (r, k1) := k.boundary (num + 1)
      let s1 := s.setDeck (k1.instant k1.unit.rawLevels free)
      .next { s1 with
        elements := s.elements.boundary samples
        reports := if s.capture.isSome || s.calibration.isSome
          then s.reports ++ [⟨num, r, samples.map clipCount⟩] else s.reports }

end Sys2Proof.Machine
end

