-- ==== Sys2Proof/Machine/Correlate.lean ====
section
/-! DEFINITION. The skew measurement that CALIBRATE runs and the skew estimator share: edge hold, correlation, acceptance
and refinement (R72, R75, R109 to R113). -/

namespace Sys2Proof.Machine

/-- The samples of an element from 24 before a block to 24 after it; where a neighbour lies outside the stretch or
continuity, the block's own first or last sample stands for its samples (R72, R109). -/
def edgeWindow (before : Option (List Int)) (block : List Int) (after : Option (List Int)) : List Int :=
  (match before with
    | none => List.replicate 24 (block.headD 0)
    | some p => p.drop (p.length - 24))
  ++ block ++
  (match after with
    | none => List.replicate 24 (block.getLastD 0)
    | some n => n.take 24)

/-- The exact sum of products of two lists, as far as the shorter goes. -/
def dot (l m : List Int) : Int := sumInt (List.zipWith (· * ·) l m)

/-- The correlation c(j) (R111): `window` begins 24 samples before the block. -/
def correlation (anchor window : List Int) (j : Int) : Int := dot anchor (window.drop (24 + j).toNat)

/-- The 49 lags, nearest zero first and the negative of an equal pair first (R111). -/
def lags : List Int :=
  0 :: (List.range 24).flatMap fun i => [-(Int.ofNat (i + 1)), Int.ofNat (i + 1)]

/-- The lag of the largest correlation, of equals the first in the order of `lags` (R111). -/
def bestLag (c : Int → Int) : Int := lags.foldl (fun best j => if c best < c j then j else best) 0

/-- Whether a measurement is accepted (R112). -/
def accepted (c : Int → Int) (j : Int) (ea ee : Int) : Bool :=
  decide (0 < c j) && decide (j.natAbs < 24) && decide (ea * ee ≤ 4 * (c j * c j))

/-- The refined measurement m = 64 × j* + round(64 × δ) (R113). -/
def refine (c : Int → Int) (j : Int) : Int :=
  let n := c (j - 1) - c (j + 1)
  let d := 2 * (c (j - 1) - 2 * c j + c (j + 1))
  let frac := if 0 ≤ d then 0 else clampInt (-32) 32 (roundDiv (-64 * n) d.natAbs)
  64 * j + frac

/-- One skew measurement of an element against its anchor: `none` when it is rejected (R75, R111 to R113). -/
def measureSkew (anchor block window : List Int) : Option Int :=
  let c := correlation anchor window
  let j := bestLag c
  if accepted c j (dot anchor anchor) (dot block block) then some (refine c j) else none

/-- The block next to one in the stretch or continuity, unless an edge stands there. -/
def neighbour (ec : ElementCapture) (num : Word) (edge : Bool) : Except Fault (Option HistBlock) :=
  if edge then .ok none
  else
    match needBlock ec num with
    | .ok b => .ok (some b)
    | .error e => .error e

end Sys2Proof.Machine
end

