-- ==== Sys2Proof/Machine/Calibrate.lean ====
section
/-! DEFINITION. The run of a CALIBRATE order (04, R71 to R80). -/

namespace Sys2Proof.Machine

/-- The raw samples of every element of a block. -/
def allRaw (b : HistBlock) : List (List Int) := b.samples.map fun e => e.map (·.toInt)

/-- An element's samples less its offset (R72). -/
def offsetCorrected (offsets : List Int) (b : HistBlock) (e : Nat) : List Int :=
  (rawSamples b e).map (· - offsets.getD e 0)

/-- The offsets fixed after processed block 9, if they are not yet (R73; log 20). -/
def CalRun.fixOffsets (r : CalRun) : CalRun :=
  if 10 ≤ r.processed ∧ r.offsets = none then { r with offsets := some (r.offsetSums.map (roundDiv · 38400)) } else r

/-- The skew measurement of one element in a block (R75). -/
def calibrateSkew (offsets : List Int) (anchor : Nat) (before : Option HistBlock) (b : HistBlock) (after : Option HistBlock)
    (e : Nat) : Option Int :=
  let y := fun (x : HistBlock) => offsetCorrected offsets x e
  measureSkew (offsetCorrected offsets b anchor) (y b) (edgeWindow (before.map y) (y b) (after.map y))

/-- The measurements of a block added to the skew sums and accepted counts (R75). -/
def CalRun.addSkews (r : CalRun) (before : Option HistBlock) (b : HistBlock) (after : Option HistBlock) : CalRun :=
  let offsets := r.offsets.getD []
  let found := (List.range 16).map fun e =>
    if e = r.order.anchor then none else calibrateSkew offsets r.order.anchor before b after e
  { r with
    skewSums := List.zipWith (fun s m => s + m.getD 0) r.skewSums found
    accepted := List.zipWith (fun n (m : Option Int) => if m.isSome then n + 1 else n) r.accepted found }

/-- The measurements of the last processed block, its successor being in the stretch or the stretch having ended (R75). -/
def CalRun.measureLast (r : CalRun) (ec : ElementCapture) (ended : Bool) : Except Fault CalRun :=
  match r.last with
  | none => .ok r
  | some l =>
    if l.measure = false then .ok { r with last := none }
    else
      match needBlock ec l.num, neighbour ec (l.num - 1) l.first, neighbour ec (l.num + 1) ended with
      | .ok b, .ok p, .ok n => .ok { r.addSkews p b n with last := none }
      | .error e, _, _ => .error e
      | _, .error e, _ => .error e
      | _, _, .error e => .error e

/-- The sums of one processed block (R73, R74). -/
def CalRun.addBlock (r : CalRun) (b : HistBlock) : CalRun :=
  let clips := List.zipWith (· + ·) r.clipTotals b.clips
  if r.processed < 10 then
    { r with clipTotals := clips, offsetSums := List.zipWith (fun s e => s + sumInt e) r.offsetSums (allRaw b) }
  else
    let offsets := r.offsets.getD []
    let sums := (List.range 16).map fun e => sumNat ((offsetCorrected offsets b e).map Int.natAbs)
    { r with clipTotals := clips, levelSums := List.zipWith (· + ·) r.levelSums sums }

/-- The word at 0x20: run state and pauses. -/
def CalRun.stateWord (r : CalRun) : Word := word (runStateCode r.state + 65536 * r.pauses)

/-- The run's state word written (R79). -/
def Hub.calibrateState (h : Hub) (r : CalRun) : Hub := h.slotWrite r.slot 0x20 r.stateWord

/-- The progress of a processed block (R79). -/
def Hub.calibrateProgress (h : Hub) (r : CalRun) : Hub :=
  ((h.calibrateState r).slotWrite r.slot 0x24 (word r.processed)).slotWrite r.slot 0x28 r.highWater

/-- One processed block: the measurements of the block before it in the stretch, its own sums, progress; the window is
complete at processed block W − 1 (R71, R73 to R75, R79). -/
def CalRun.process (r : CalRun) (ec : ElementCapture) (num : Word) (rec : BlockRecord) (first : Bool) : Except Fault CalRun :=
  match needBlock ec num, r.measureLast ec false with
  | .ok b, .ok r1 =>
    let r2 := r1.addBlock b
    .ok { r2 with
      processed := r.processed + 1
      highWater := rec.stop
      startPos := if r.processed = 0 then rec.start else r.startPos
      last := some ⟨num, first, decide (10 ≤ r.processed)⟩
      state := if r.processed + 1 = r.order.window then .stopping else .running }
  | .error e, _ => .error e
  | _, .error e => .error e

/-- A report judged by the run; `none` for a block that changes nothing (R71). -/
def CalRun.judge (r : CalRun) (ec : ElementCapture) (b : StreamBlock) : Except Fault (Option (CalRun × Bool)) :=
  match r.state, b.record with
  | .stopping, _ => .ok none
  | .running, none =>
    match r.measureLast ec true with
    | .ok r1 => .ok (some ({ r1 with state := .paused, pauses := satInc 65535 r.pauses }, false))
    | .error e => .error e
  | .running, some rec =>
    if rec.driven then
      match r.process ec b.num rec false with
      | .ok r1 => .ok (some (r1, true))
      | .error e => .error e
    else
      match r.measureLast ec true with
      | .ok r1 => .ok (some ({ r1 with state := .paused, pauses := satInc 65535 r.pauses }, false))
      | .error e => .error e
  | .armed, none => .ok none
  | .armed, some rec =>
    let starts := match r.order.start with
      | none => true
      | some p => atOrPast rec.start p
    if rec.driven && starts then
      match r.process ec b.num rec true with
      | .ok r1 => .ok (some (r1, true))
      | .error e => .error e
    else .ok none
  | .paused, none => .ok none
  | .paused, some rec =>
    if rec.driven && atOrPast rec.start r.highWater then
      match r.process ec b.num rec true with
      | .ok r1 => .ok (some (r1, true))
      | .error e => .error e
    else .ok none

/-- CALIBRATE_BLOCK: the oldest report is judged for the run (R71 to R75, R79). -/
def execCalibrateBlock (s : State) : Result :=
  engineStep s fun s =>
    match s.calibration, s.reports with
    | some r, b :: rest =>
      match r.fixOffsets.judge s.elements b with
      | .error e => .fault e
      | .ok none => .next { s with reports := rest }
      | .ok (some (r1, processed)) =>
        let h := if processed then s.hub.calibrateProgress r1 else s.hub.calibrateState r1
        .next { s.setHub h with reports := rest, calibration := some r1 }
    | _, _ => .next s

/-- OFFSETS_FIXED: the settle part is complete (R73; log 20). -/
def execOffsetsFixed (s : State) : Result :=
  engineStep s fun s => .next { s with calibration := s.calibration.map CalRun.fixOffsets }

/-! ## Results (R76 to R78) -/

/-- What the run found for one element. -/
structure CalResult where
  offset : Int
  level : Nat
  gain : Nat
  skew : Int
  accepted : Nat
  dead : Bool
  clamped : Bool
  noSkew : Bool
  clipped : Bool
  deriving DecidableEq, Repr

/-- The results of a run as a whole. -/
structure CalSummary where
  entries : List CalResult
  amax : Nat
  aref : Nat
  live : Nat
  anchorDead : Bool
  noSignal : Bool
  deriving DecidableEq, Repr

/-- A gain before its limits: round(16,384 × A_ref / A_e), above every limit for a level of 0 (R76). -/
def rawGain (aref level : Nat) : Nat := if level = 0 then 32769 else (roundDiv (16384 * aref : Nat) level).toNat

/-- Gain and CLAMPED of an element (R76, steps 3 to 5). -/
def gainOf (aref level : Nat) (dead : Bool) : Nat × Bool :=
  if dead ∨ aref = 0 then (16384, false)
  else
    let g := rawGain aref level
    if g < 8192 then (8192, true) else if 32768 < g then (32768, true) else (g, false)

/-- Static skew and NO_SKEW of an element (R77). -/
def staticSkew (isAnchor anchorDead dead : Bool) (sum : Int) (count : Nat) : Int × Bool :=
  if anchorDead then (0, true)
  else if isAnchor then (0, false)
  else if dead ∨ count = 0 then (0, true)
  else (roundDiv sum count, false)

/-- The results of a complete window (R74, R76, R77). -/
def CalRun.results (r : CalRun) : CalSummary :=
  let levels := r.levelSums.map (· / (3840 * (r.order.window - 10)))
  let amax := maxNat levels
  let isDead := fun (a : Nat) => decide (a < amax / 8)
  let liveLevels := levels.filter fun a => !isDead a
  let live := liveLevels.length
  let aref := sumNat liveLevels / live
  let anchorDead := isDead (levels.getD r.order.anchor 0)
  let entries := (List.range 16).map fun e =>
    let level := levels.getD e 0
    let dead := isDead level
    let (gain, clamped) := gainOf aref level dead
    let (skew, noSkew) := staticSkew (decide (e = r.order.anchor)) anchorDead dead (r.skewSums.getD e 0) (r.accepted.getD e 0)
    { offset := (r.offsets.getD []).getD e 0, level := level, gain := gain, skew := skew, accepted := r.accepted.getD e 0,
      dead := dead, clamped := clamped, noSkew := noSkew, clipped := decide (0 < r.clipTotals.getD e 0) }
  { entries := entries, amax := amax, aref := aref, live := live, anchorDead := anchorDead, noSignal := decide (aref = 0) }

/-- The three words of a result entry (11, "Kind parameters and results"). -/
def CalResult.words (c : CalResult) : List Word :=
  [word (signedBits 24 c.offset + 16777216 * (c.accepted % 256)),
   word (c.level + 16777216 * (c.accepted / 256 % 32)),
   word (c.gain + 65536 * signedBits 12 c.skew + 268435456 * flagBit c.dead + 536870912 * flagBit c.clamped
     + 1073741824 * flagBit c.noSkew + 2147483648 * flagBit c.clipped)]

/-- The five words of the result summary, from 0x2C (11, "Kind parameters and results"). -/
def CalSummary.words (m : CalSummary) (r : CalRun) (generation : BitVec 16) : List Word :=
  [word (m.amax + 16777216 * m.live + 1073741824 * flagBit m.anchorDead + 2147483648 * flagBit m.noSignal),
   word (m.aref + 16777216 * r.order.anchor + 268435456 * flagBit r.order.apply),
   word (generation.toNat + 65536 * r.order.window), r.startPos, r.highWater]

/-- Results written and the end reported (R78, steps 1, 2 and 4). -/
def Hub.calibrateResults (h : Hub) (r : CalRun) (m : CalSummary) (generation : BitVec 16) : Hub :=
  let base := slotBase r.slot
  let p1 := h.port.storeWords (base + 0x40) (m.entries.flatMap CalResult.words)
  let p2 := p1.storeWords (base + 0x2C) (m.words r generation)
  ({ h with port := p2 } : Hub).report r.slot .complete false

/-- The table entry of a result (R78, step 3). -/
def CalResult.entry (c : CalResult) : CalEntry := ⟨c.gain, c.offset, c.skew, c.dead⟩

/-- The calibration table replaced and its generation raised, as one action (R68, R78). -/
def ElementCapture.writeTable (ec : ElementCapture) (m : CalSummary) : ElementCapture :=
  { ec with
    table := Vector.ofFn fun (i : Fin 16) => (m.entries.map CalResult.entry).getD i.val CalEntry.identity
    generation := ec.generation + 1 }

/-- WINDOW_COMPLETE: the run has entered STOPPING; its results are computed and written, in mode APPLY with the table, and
its end is reported (R76 to R78). -/
def execWindowComplete (s : State) : Result :=
  engineStep s fun s =>
    match s.calibration with
    | none => .next s
    | some r =>
      if r.state ≠ .stopping ∨ r.finished then .next s
      else
        match r.fixOffsets.measureLast s.elements true with
        | .error e => .fault e
        | .ok r1 =>
          let m := r1.results
          let ec := if r.order.apply then s.elements.writeTable m else s.elements
          .next { s.setHub (s.hub.calibrateResults r1 m ec.generation) with
            elements := ec, calibration := some { r1 with finished := true } }

/-- A run as it starts in ARMED (R71). -/
def CalRun.start (n : SlotNo) (o : CalibrateOrder) : CalRun :=
  { slot := n, order := o, state := .armed, processed := 0, highWater := 0, pauses := 0,
    offsetSums := List.replicate 16 0, offsets := none, levelSums := List.replicate 16 0,
    clipTotals := List.replicate 16 0, skewSums := List.replicate 16 0, accepted := List.replicate 16 0,
    last := none, startPos := 0, finished := false }

end Sys2Proof.Machine
end

