-- ==== Sys2Proof/Machine/Lists.lean ====
section
/-! DEFINITION. Record lists of the output writer (10): room, placing records, the speed map and the repair list. -/

namespace Sys2Proof.Machine

/-! ## Room (R192) -/

/-- The two record lists. -/
inductive ListId where
  | map
  | repair
  deriving DecidableEq, Repr

/-- The list of that name. -/
def Writer.list (w : Writer) : ListId → RecList
  | .map => w.mapList
  | .repair => w.repairList

/-- The progress word at 0x28: the list fault flags and SPEEDMAP_DROPPED (11). -/
def Writer.flagsWord (w : Writer) : Word :=
  word (flagBit w.faultMap + 2 * flagBit w.faultRepair + 4 * flagBit w.mapDropped)

/-- A list's fault flag set for the rest of the capture (R192). -/
def Writer.setFault (w : Writer) : ListId → Writer
  | .map => { w with faultMap := true }
  | .repair => { w with faultRepair := true }

/-- A watch asked for on an entry of the capture's order (R13). -/
def Cx.watch (c : Cx) (a : Nat) : Cx := { c with hub := { c.hub with port := c.hub.port.setWatch c.cap.slot a } }

/-- A writer's fields changed in place. -/
def Cx.mapWriter (c : Cx) (f : Writer → Writer) : Cx := c.setWriter (f c.cap.writer)

/-- The progress word of the flags written. -/
def Cx.writeFlags (c : Cx) : Cx := c.progress 0x28 c.cap.writer.flagsWord

/-- The room of a record list: the released count read, an outstanding count above the capacity clamped with LIST_FULL and
the fault flag, an unreadable one giving no room with MEMORY_FAULT and a watch (R192, R8). -/
def Cx.room (c : Cx) (id : ListId) : Nat × Cx :=
  let l := c.cap.writer.list id
  let (v, p) := c.hub.port.checkedRead (l.header + 8)
  let c1 : Cx := { c with hub := { c.hub with port := p } }
  match v with
  | none => (0, (c1.watch (l.header + 8)).news .memoryFault)
  | some released =>
    let outstanding := (l.written - released).toNat
    if outstanding ≤ l.capacity then (l.capacity - outstanding, c1)
    else (l.capacity, ((c1.mapWriter (·.setFault id)).writeFlags).news .listFull)

/-! ## Placing a record (R193) -/

/-- A record's words at the oldest released place and the written count raised. -/
def Port.placeRecord (p : Port) (l : RecList) (words : List Word) : Port :=
  (p.storeWords (l.header + 16 + 4 * words.length * (l.written.toNat % l.capacity)) words).store (l.header + 4) (l.written + 1)

/-- The list after a record has been placed. -/
def RecList.advance (l : RecList) : RecList := { l with written := l.written + 1 }

/-! ## The repair list (R196) -/

/-- The eight words of a repair record, its sequence number and block index modulo 2^32 (11, "Repair record"; log 46, log 47). -/
def RepairRec.words (r : RepairRec) : List Word :=
  [word r.seq,
   word (repairKindCode r.kind + 16 * r.place + 256 * r.minPresent + 4096 * flagBit r.cut + 8192 * flagBit r.noExcerpt
     + 16384 * flagBit (decide (0 < r.voidRuns)) + 65536 * r.absent.toNat),
   r.first, word r.length, word r.block, r.position, word (r.voidRuns + 65536 * r.longest), word r.bridged]

/-- A repair record written (R193). -/
def Cx.writeRepair (c : Cx) (r : RepairRec) : Cx :=
  let w := c.cap.writer
  let c1 : Cx := { c with hub := { c.hub with port := c.hub.port.placeRecord w.repairList r.words } }
  let n := satInc max32 w.repairWritten
  let c2 := c1.setWriter { w with repairList := w.repairList.advance, repairWritten := n }
  (c2.progress 0x60 (word n)).news .repair

/-- Records placed one after the other while the list has room; the list of those without room comes back (R196). -/
def Cx.placeRepairs (c : Cx) : List RepairRec → List RepairRec × Cx
  | [] => ([], c)
  | r :: rest =>
    let (room, c1) := c.room .repair
    if room = 0 then (r :: rest, c1) else (c1.writeRepair r).placeRepairs rest

/-- Records without room counted as suppressed (R196, R201). -/
def Cx.suppress (c : Cx) (k : Nat) : Cx :=
  if k = 0 then c
  else
    let n := satAdd max32 c.cap.writer.suppressed k
    (c.mapWriter fun w => { w with suppressed := n }).progress 0x64 (word n)

/-- Held records placed from the head of the queue while there is room; a watch where there is none (R196). -/
def Cx.retryHeld (c : Cx) : Cx :=
  let (left, c1) := c.placeRepairs c.cap.writer.holding
  let c2 := c1.mapWriter fun w => { w with holding := left }
  if left = [] then c2 else c2.watch (c2.cap.writer.repairList.header + 8)

/-- An arriving repair record: placed, held, or suppressed (R196). -/
def Cx.arriveRepair (c : Cx) (r : RepairRec) : Cx :=
  let c1 := c.retryHeld
  let held := c1.cap.writer.holding
  let (left, c2) := if held = [] then c1.placeRepairs [r] else ([r], c1)
  if left = [] then c2
  else
    let c3 := c2.watch (c2.cap.writer.repairList.header + 8)
    if held.length < Config.holdingMax then (c3.mapWriter fun w => { w with holding := held ++ [r] }).news .listFull
    else (c3.suppress 1).news .listFull

/-- PLACE_REPAIR: the oldest repair record handed to the writer or closed by it (R196). -/
def execPlaceRepair (s : State) : Result :=
  captureStep s fun c =>
    match c.cap.writer.handed with
    | [] => .ok c
    | r :: rest => .ok ((c.mapWriter fun w => { w with handed := rest }).arriveRepair r)

/-! ## The speed map (R194, R195) -/

/-- A group's state byte (11, "Speed map record"). -/
def MapGroup.stateByte (g : MapGroup) : Nat :=
  sourceCode g.active + 4 * flagBit g.holdover + 8 * flagBit g.freeRun + 16 * flagBit g.clamped + 32 * flagBit g.switched

/-- A group's three ratio words, zero for a group without an active lane. -/
def mapRatios : Option MapGroup → List Word
  | none => [0, 0, 0]
  | some g => [word g.qLast, word g.qMin, word g.qMax]

/-- A lane's word (11, "Speed map record"). -/
def mapLaneWord : Option MapLane → Word
  | none => 0
  | some l => word (signedBits 13 l.span + 65536 * flagBit l.held + 131072 * flagBit l.quiet + 262144 * flagBit l.clipped)

/-- The sixteen words of a speed map record (11, "Speed map record"). -/
def MapRec.words (m : MapRec) (seq : Nat) : List Word :=
  let state := fun (g : Option MapGroup) => (g.map MapGroup.stateByte).getD 0
  [word seq, word m.first, word m.blocks, m.position,
   word (state m.groups.a + 256 * state m.groups.b + 65536 * m.cue + 16777216 * flagBit m.resumed
     + 33554432 * flagBit m.slip + 67108864 * flagBit m.extended + 134217728 * flagBit m.cueMerged)]
  ++ mapRatios m.groups.a ++ mapRatios m.groups.b ++ [0] ++ m.lanes.toList.map mapLaneWord

/-- The speed map record written, its number the saturating count of records (R193, R195; DESIGN CHOICE, log 59). -/
def Cx.writeMap (c : Cx) (m : MapRec) : Cx :=
  let w := c.cap.writer
  let c1 : Cx := { c with hub := { c.hub with port := c.hub.port.placeRecord w.mapList (m.words w.mapWritten) } }
  let n := satInc max32 w.mapWritten
  let c2 := c1.setWriter { w with mapList := w.mapList.advance, mapWritten := n, map := none, mapPending := false }
  (c2.progress 0x5C (word n)).news .speedMap

/-- A record opened at a block (R194). -/
def MapRec.start (t : Taken) (pos : Word) : MapRec :=
  { first := t.idx, blocks := 0, position := pos, groups := ⟨none, none⟩, lanes := Vector.replicate 4 none, cue := 0,
    cueMerged := false, slip := false, resumed := false, extended := false }

/-- A group's part after a block (R194). -/
def foldGroup (g : Option MapGroup) : Option SpeedReport → Option MapGroup
  | none => g
  | some r =>
    match g with
    | none => some { qLast := r.q, qMin := r.q, qMax := r.q, active := r.active, holdover := decide (r.state = .holdover),
                     freeRun := decide (r.state = .freeRun), clamped := r.clamped, switched := r.switched }
    | some m => some { qLast := r.q, qMin := min m.qMin r.q, qMax := max m.qMax r.q, active := r.active,
                       holdover := m.holdover || decide (r.state = .holdover),
                       freeRun := m.freeRun || decide (r.state = .freeRun),
                       clamped := m.clamped || r.clamped, switched := m.switched || r.switched }

/-- A lane's part after a block (R194). -/
def foldLane (l : Option MapLane) (quiet clipped : Bool) : Option SkewReport → Option MapLane
  | none => l
  | some r =>
    match l with
    | none => some { span := r.span, held := r.held, quiet := quiet, clipped := clipped }
    | some m => some { span := r.span, held := m.held || r.held, quiet := m.quiet || quiet, clipped := m.clipped || clipped }

/-- The cues of a block: the first becomes the cue index if there is none, every other is merged (R194). -/
def MapRec.addCues (m : MapRec) : List Nat → MapRec
  | [] => m
  | n :: rest => (if m.cue = 0 then { m with cue := n } else { m with cueMerged := true }).addCues rest

/-- A block folded into the record (R194). The block count saturates (DESIGN CHOICE, log 69). -/
def MapRec.fold (m : MapRec) (t : Taken) (lanes : Vector (Option LaneJudgement) 4) (skew : Vector (Option SkewReport) 4)
    (speed : PerGroup (Option SpeedReport)) : MapRec :=
  let m1 := { m with
    blocks := satInc max32 m.blocks
    groups := ⟨foldGroup m.groups.a speed.a, foldGroup m.groups.b speed.b⟩
    lanes := Vector.ofFn fun (i : LaneNo) =>
      foldLane (getAt m.lanes i) (((getAt lanes i).map LaneJudgement.quiet).getD false) (decide (i ∈ t.clipped)) (getAt skew i)
    slip := m.slip || ((t.block.record.map BlockRecord.slip).getD false)
    resumed := m.resumed || t.resumed }
  m1.addCues t.cues

/-- Whether a close due at a pause still waits for the open excerpt to store the pause's final block (R200). -/
def Writer.closeWaits (w : Writer) : Bool :=
  match w.closeDue, w.closeAfter, w.excerpt with
  | some _, some f, some e => decide (e.nextIdx ≤ f)
  | _, _, _ => false

/-- The record of a close that has come due: written, or made pending with EXTENDED and LIST_FULL; then CUE where a cue was
reported (R195). -/
def Cx.closeRecord (c : Cx) (cue : Bool) : Cx :=
  let c0 := c.mapWriter fun w => { w with closeDue := none, closeAfter := none }
  let c1 := match c0.cap.writer.map with
    | none => c0
    | some m =>
      let (room, c2) := c0.room .map
      if room = 0 then
        (c2.mapWriter fun w => { w with map := some { m with extended := true }, mapPending := true }).news .listFull
      else c2.writeMap m
  if cue then c1.news .cue else c1

/-- The close that has come due carried out, unless it waits for an excerpt (R195, R200). -/
def Cx.closeMap (c : Cx) : Cx :=
  match c.cap.writer.closeDue with
  | none => c
  | some cue => if c.cap.writer.closeWaits then c else c.closeRecord cue

/-- SPEEDMAP_CLOSE: a due close is carried out; one that waits for an excerpt stays due (R195, R200; log 20). -/
def execSpeedmapClose (s : State) : Result := captureStep s fun c => .ok c.closeMap

/-- A pending record written where the list has room (R195, R8). -/
def Cx.retryMap (c : Cx) : Cx :=
  match c.cap.writer.map with
  | none => c
  | some m =>
    if c.cap.writer.mapPending then
      let (room, c1) := c.room .map
      if room = 0 then c1 else c1.writeMap m
    else c

/-- Whether a record not pending closes after a block (R195). -/
def MapRec.closes (m : MapRec) (t : Taken) : Bool := decide (t.tuning.nd ≤ m.blocks) || !t.cues.isEmpty || t.final.isSome

/-- A taken block with what the writer needs folded, a pending record and held repair records tried again (R194 to R196). At
a pause the close that comes due with the fold of the final block waits until that block is stored (R200). -/
def Cx.foldTaken (c : Cx) (t : Taken) (lanes : Vector (Option LaneJudgement) 4) (skew : Vector (Option SkewReport) 4)
    (speed : PerGroup (Option SpeedReport)) : Cx :=
  let c0 := c.closeMap
  let start := (t.block.record.map BlockRecord.start).getD 0
  let m := ((c0.cap.writer.map).getD (MapRec.start t start)).fold t lanes skew speed
  let c1 := c0.mapWriter fun w => { w with map := some m }
  let c2 :=
    if c1.cap.writer.mapPending then
      let c3 := c1.retryMap
      if t.cues = [] then c3 else c3.news .cue
    else if m.closes t then c1.mapWriter fun w => { w with
      closeDue := some (!t.cues.isEmpty), closeAfter := if t.final = some .pause then some t.idx else none }
    else c1
  c2.retryHeld

end Sys2Proof.Machine
end

