-- ==== Sys2Proof/Machine/Writer.lean ====
section
/-! DEFINITION. The output writer's audio spans, spill store and losses (10, R184 to R191). -/

namespace Sys2Proof.Machine

/-! ## The state of a group -/

/-- A group's part of the writer changed in place. -/
def Cx.mapOut (c : Cx) (g : Group) (f : GroupOut → GroupOut) : Cx :=
  c.mapWriter fun w => { w with groups := w.groups.put g (f (w.groups.get g)) }

/-- A group's part of the writer. -/
def Cx.out (c : Cx) (g : Group) : GroupOut := c.cap.writer.groups.get g

/-- The descriptor at the span cursor. -/
def GroupOut.span (o : GroupOut) : SpanDesc := o.spans.getD o.cursor ⟨0, 0, 0, 0⟩

/-- The news cause of a group's spans (R42). -/
def spanCause : Group → Cause
  | .a => .spanA
  | .b => .spanB

/-- One word of the descriptor at the cursor written (R184). -/
def Cx.spanWrite (c : Cx) (g : Group) (off : Nat) (w : Word) : Cx :=
  { c with hub := { c.hub with port := c.hub.port.store ((c.out g).span.addr + off) w } }

/-- A transition request on a span state word; a memory fault sets MEMORY_FAULT (R12, R8). -/
def Cx.request (c : Cx) (a : Nat) (expected new : Word) (watch : Bool) : Transition × Cx :=
  let (t, p) := c.hub.port.spanRequest c.cap.slot a expected new watch
  let c1 : Cx := { c with hub := { c.hub with port := p } }
  (t, if t = .fault then c1.news .memoryFault else c1)

/-! ## Opening, filling and closing a span (R185, R186) -/

/-- The span at the cursor opened for a frame (R185). -/
def Cx.openSpan (c : Cx) (g : Group) (f : Frame) : Cx :=
  let loss := (c.out g).afterLoss
  let c1 := ((((c.spanWrite g 0x10 f.index).spanWrite g 0x18 f.position).spanWrite g 0x1C (word (2 * flagBit loss))).spanWrite
    g 0x0C 0).spanWrite g 0x14 0
  c1.mapOut g fun o => { o with filling := some ⟨0, 0, loss⟩, afterLoss := false }

/-- The span at the cursor closed: the request for FULL, its news, the next span (R186). A fault has set MEMORY_FAULT in
place of the span's news; a word found repaired to EMPTY sets none (DESIGN CHOICE, log 58). -/
def Cx.closeSpan (c : Cx) (g : Group) : Cx :=
  let (t, c1) := c.request (c.out g).span.addr spanFilling spanFull false
  let c2 := if t = .applied then c1.news (spanCause g) else c1
  c2.mapOut g fun o => { o with filling := none, cursor := (o.cursor + 1) % o.spans.length }

/-- A frame written into the FILLING span, which is closed when the frame fills it (R185, R186). -/
def Cx.writeFrame (c : Cx) (g : Group) (f : Frame) : Cx :=
  match (c.out g).filling with
  | none => c
  | some sp =>
    let d := (c.out g).span
    let fill := sp.fill + 4 * f.words.length
    let c1 : Cx := { c with hub := { c.hub with port := c.hub.port.storeWords (d.buffer + sp.fill) f.words } }
    let c2 := (c1.spanWrite g 0x0C (word fill)).spanWrite g 0x14 (word (sp.frames + 1))
    let c3 := c2.mapOut g fun o => { o with filling := some { sp with fill := fill, frames := sp.frames + 1 } }
    if d.capacity ≤ fill then c3.closeSpan g else c3

/-- The request for the next span, with the frame written where it is applied; the flag says whether it was (R187). -/
def Cx.openAndWrite (c : Cx) (g : Group) (f : Frame) (watch : Bool) : Bool × Cx :=
  let (t, c1) := c.request (c.out g).span.addr spanEmpty spanFilling watch
  if t = .applied then (true, (c1.openSpan g f).writeFrame g f) else (false, c1)

/-! ## The spill store (R188) -/

/-- Pages a queue holds. -/
def pagesIn (q : List SpillItem) : Nat := q.countP fun i => match i with | .page _ => true | .lossMark => false

/-- Frames of an item. -/
def SpillItem.frames : SpillItem → List Frame
  | .page fs => fs
  | .lossMark => []

/-- Frames a queue holds. -/
def framesIn (q : List SpillItem) : Nat := sumNat (q.map fun i => i.frames.length)

/-- Free pages of the store (R183, R188). -/
def Writer.freePages (w : Writer) : Nat := Config.spillPages - (pagesIn w.groups.a.queue + pagesIn w.groups.b.queue)

/-- Frames one page holds (R188). -/
def framesPerPage (p : CaptureParams) (g : Group) : Nat := 4096 / frameSize p g

/-- The queue with a frame appended to its last page, if that page has room (R188). -/
def appendLast (room : Nat) (f : Frame) : List SpillItem → Option (List SpillItem)
  | [] => none
  | [.page fs] => if fs.length < room then some [.page (fs ++ [f])] else none
  | [.lossMark] => none
  | i :: j :: rest => (appendLast room f (j :: rest)).map (i :: ·)

/-- A queue replaced, SPILL set where it held no frame before (R188). -/
def Cx.spillInto (c : Cx) (g : Group) (q : List SpillItem) : Cx :=
  let empty := framesIn (c.out g).queue = 0
  let c1 := c.mapOut g fun o => { o with queue := q }
  if empty then c1.news .spill else c1

/-- A frame spilled, `none` where no page takes it (R188). -/
def Cx.spill (c : Cx) (g : Group) (f : Frame) : Option Cx :=
  match appendLast (framesPerPage c.cap.params g) f (c.out g).queue with
  | some q => some (c.spillInto g q)
  | none => if 0 < c.cap.writer.freePages then some (c.spillInto g ((c.out g).queue ++ [.page [f]])) else none

/-! ## Loss (R190) -/

/-- The offset of a group's samples lost (11). -/
def lostOffset : Group → Nat
  | .a => 0x68
  | .b => 0x6C

/-- Frames counted in the group's samples lost (R190, R180). -/
def Cx.countLost (c : Cx) (g : Group) (k : Nat) : Cx :=
  if k = 0 then c
  else
    let n := satAdd max32 (c.out g).samplesLost k
    (c.mapOut g fun o => { o with samplesLost := n }).progress (lostOffset g) (word n)

/-- A dropped frame opens a LOST record or lengthens the open one (R190). -/
def Cx.dropFrame (c : Cx) (g : Group) (f : Frame) : Cx :=
  match (c.out g).lost with
  | none => ((c.mapOut g fun o => { o with lost := some ⟨f.index, 1, f.block, f.position⟩ }).countLost g 1).news .lost
  | some l => (c.mapOut g fun o => { o with lost := some { l with length := satInc max32 l.length } }).countLost g 1

/-- The next number of the repair sequence counter (R102). Past 4,294,967,295 it counts on (DESIGN CHOICE, log 46). -/
def Cx.takeSeq (c : Cx) : Nat × Cx :=
  match c.cap.monitor with
  | none => (0, c)
  | some m => (m.seq, { c with cap := { c.cap with monitor := some { m with seq := m.seq + 1 } } })

/-- A LOST record closed: it takes its number and goes to the repair list (R190, R102). -/
def Cx.closeLost (c : Cx) (g : Group) (cut : Bool) : Cx :=
  match (c.out g).lost with
  | none => c
  | some l =>
    let (n, c1) := c.takeSeq
    let r : RepairRec :=
      { seq := n, kind := .lost, place := groupCode g, minPresent := 0, cut := cut, noExcerpt := false, absent := 0,
        first := l.first, length := l.length, block := l.block, position := l.position, voidRuns := 0, longest := 0, bridged := 0 }
    (c1.mapOut g fun o => { o with lost := none }).mapWriter fun w => { w with handed := w.handed ++ [r] }

/-- A frame that arrives while a LOST record is open (R190). -/
def Cx.placeAfterLoss (c : Cx) (g : Group) (f : Frame) : Cx :=
  let spill := fun (c : Cx) =>
    if 0 < c.cap.writer.freePages then
      let c1 := c.closeLost g false
      c1.spillInto g ((c1.out g).queue ++ [.lossMark, .page [f]])
    else c.dropFrame g f
  if (c.out g).queue = [] then
    let (t, c1) := c.request (c.out g).span.addr spanEmpty spanFilling true
    if t = .applied then
      let c2 := (c1.closeLost g false).mapOut g fun o => { o with afterLoss := true }
      (c2.openSpan g f).writeFrame g f
    else spill c1
  else spill c

/-- A frame spilled, or dropped where the store cannot take it (R187, R188, R190). -/
def Cx.spillOrDrop (c : Cx) (g : Group) (f : Frame) : Cx := (c.spill g f).getD (c.dropFrame g f)

/-- A released frame placed by the first case of R187 that applies. -/
def Cx.placeOne (c : Cx) (g : Group) (f : Frame) : Cx :=
  let o := c.out g
  if o.lost.isSome then c.placeAfterLoss g f
  else if o.queue ≠ [] then c.spillOrDrop g f
  else if o.filling.isSome then c.writeFrame g f
  else
    match c.openAndWrite g f true with
    | (true, c1) => c1
    | (false, c1) => c1.spillOrDrop g f

/-- The oldest frame that has arrived for a group placed (R187). -/
def Cx.placeNext (c : Cx) (g : Group) : Cx :=
  match (c.out g).arriving with
  | [] => c
  | f :: rest => (c.mapOut g fun o => { o with arriving := rest }).placeOne g f

/-- PLACE_FRAME: the oldest released frame of a group (R187). -/
def execPlaceFrame (g : Group) (s : State) : Result := captureStep s fun c => .ok (c.placeNext g)

/-! ## The drain (R189, R191) -/

/-- A FILLING span closed early (R191). -/
def Cx.closeEarly (c : Cx) (g : Group) : Cx := if (c.out g).filling.isSome then c.closeSpan g else c

/-- A loss mark acted on: the FILLING span closed early, the after-loss mark set (R191). -/
def Cx.takeLossMark (c : Cx) (g : Group) : Cx := (c.closeEarly g).mapOut g fun o => { o with afterLoss := true }

/-- The queue after its head frame has been taken (R189). -/
def afterHead (fs : List Frame) (rest : List SpillItem) : List SpillItem := if fs = [] then rest else .page fs :: rest

/-- The drain: the head of the spill queue moved into spans until the queue is empty or a span is not given; a loss mark is
taken before a span is asked for (R189, R191; log 26), and none is asked for when the last frame fills one (log 51). The last
argument bounds its length: one for each frame and each item of the queue, and one. -/
def Cx.drain (c : Cx) (g : Group) (watch : Bool) : Nat → Cx
  | 0 => c
  | fuel + 1 =>
    match (c.out g).queue with
    | [] => if (c.out g).lost.isSome ∧ (c.out g).filling.isSome then c.takeLossMark g else c
    | .lossMark :: rest => ((c.mapOut g fun o => { o with queue := rest }).takeLossMark g).drain g watch fuel
    | .page [] :: rest => (c.mapOut g fun o => { o with queue := rest }).drain g watch fuel
    | .page (f :: fs) :: rest =>
      let take := fun (c : Cx) => c.mapOut g fun o => { o with queue := afterHead fs rest }
      if (c.out g).filling.isSome then ((take c).writeFrame g f).drain g watch fuel
      else
        match c.openAndWrite g f watch with
        | (true, c1) => (take c1).drain g watch fuel
        | (false, c1) => c1

/-- The length that bounds a drain of a group. -/
def Cx.drainFuel (c : Cx) (g : Group) : Nat := framesIn (c.out g).queue + (c.out g).queue.length + 1

/-- A watch-end notice acted on for one group: a group that waits with a spill queue on the word asks again and drains
(R189). -/
def Cx.noticeGroup (c : Cx) (a : Nat) (g : Group) : Cx :=
  let o := c.out g
  if o.queue ≠ [] ∧ o.filling = none ∧ o.span.addr = a then c.drain g true (c.drainFuel g) else c

/-- A watch-end notice acted on: waiting groups drain; the repair list's word retries held records, the speed map list's a
pending record (R189, R196, R8; log 41). -/
def Cx.notice (c : Cx) (n : Notice) : Cx :=
  if c.cap.slot ∈ n.slots then
    let c1 := (c.noticeGroup n.addr .a).noticeGroup n.addr .b
    let c2 := if n.addr = c1.cap.writer.repairList.header + 8 then c1.retryHeld else c1
    if n.addr = c2.cap.writer.mapList.header + 8 then c2.retryMap else c2
  else c

/-- WATCH_NOTICE: the oldest notice of the port reaches the output writer; without a capture it changes nothing there (R13,
R189). -/
def execWatchNotice (s : State) : Result :=
  engineStep s fun s =>
    match s.port.notices with
    | [] => .next s
    | n :: rest =>
      let s1 := { s with port := { s.port with notices := rest } }
      match s1.capture with
      | none => .next s1
      | some cap => .next (s1.setCx ((⟨s1.hub, cap⟩ : Cx).notice n))

/-! ## End work (R201) -/

/-- What the end leaves of a group's spill: its frames counted as lost, its queue emptied, an open LOST record closed with
CUT (R201). -/
def Cx.discardSpill (c : Cx) (g : Group) : Cx :=
  let k := framesIn (c.out g).queue
  ((c.mapOut g fun o => { o with queue := [] }).countLost g k).closeLost g true

/-- Step 1 of the end work for a group: drained without a watch, the rest discarded (R201). -/
def Cx.endSpill (c : Cx) (g : Group) : Cx := (c.drain g false (c.drainFuel g)).discardSpill g

/-- Step 4: held and handed records placed while there is room, the rest suppressed (R201). -/
def Cx.endRepairs (c : Cx) (rs : List RepairRec) : Cx :=
  let (left, c1) := c.placeRepairs rs
  (c1.mapWriter fun w => { w with holding := [], handed := [] }).suppress left.length

/-- Step 5: a record still gathered written where there is room, with CUE for a cue whose close was still waiting (R195, R200),
otherwise dropped with SPEEDMAP_DROPPED (R201, R202). -/
def Cx.endMap (c : Cx) : Cx :=
  match c.cap.writer.map with
  | none => c
  | some m =>
    let (room, c1) := c.room .map
    if room = 0 then (c1.mapWriter fun w => { w with map := none, mapPending := false, mapDropped := true }).writeFlags
    else if c1.cap.writer.closeDue = some true then (c1.writeMap m).news .cue
    else c1.writeMap m

/-- The writer's end work at the end of a capture (R201). Of two open LOST records group A's closes first and takes the lower
number (DESIGN CHOICE, log 62). -/
def Cx.endWork (c : Cx) : Cx :=
  let c1 := ((c.endSpill .a).endSpill .b).closeEarly .a
  let c2 := c1.closeEarly .b
  (c2.endRepairs (c2.cap.writer.holding ++ c2.cap.writer.handed)).endMap

end Sys2Proof.Machine
end

