-- ==== Sys2Proof/Machine/Excerpts.lean ====
section
/-! DEFINITION. Evidence excerpts of the output writer (10, R197 to R199). -/

namespace Sys2Proof.Machine

/-- The writer with its open excerpt replaced. -/
def Cx.setExcerpt (c : Cx) (e : Option Excerpt) : Cx := c.mapWriter fun w => { w with excerpt := e }

/-- An opening answered "skipped": the count rises (R197). -/
def Cx.skipExcerpt (c : Cx) : Cx :=
  let n := satInc max32 c.cap.writer.skipped
  (c.mapWriter fun w => { w with skipped := n }).progress 0x70 (word n)

/-- The first block of a new excerpt: the processed block before the opening one where it lies in the same continuity
(R197). -/
def excerptFirst (last : Option JudgedMark) (now : JudgedMark) : JudgedMark := last.getD now

/-- The answer to a dropout opening in a lane: whether it was skipped (R197). `last` is the block judged before in the
continuity, `now` the opening block. -/
def Cx.excerptAnswer (c : Cx) (lane : LaneNo) (last : Option JudgedMark) (now : JudgedMark) : Bool × Cx :=
  let w := c.cap.writer
  if w.excerpts = [] then (false, c)
  else
    match w.excerpt with
    | some e => if e.lane = lane then (false, c.setExcerpt (some { e with endIdx := none })) else (true, c.skipExcerpt)
    | none =>
      let d := w.excerpts.getD w.excerptCursor ⟨0, 0, 0, 0⟩
      let (t, c1) := c.request d.addr spanEmpty spanFilling false
      if t = .applied then
        let m := excerptFirst last now
        let e : Excerpt :=
          { lane := lane, span := d, firstIdx := m.idx, position := m.start, nextIdx := m.idx, nextNum := m.num, stored := 0,
            blocks := 0, endIdx := none, seqs := [] }
        (false, (c1.setExcerpt (some e)).mapWriter fun w => { w with excerptCursor := (w.excerptCursor + 1) % w.excerpts.length })
      else (true, c1.skipExcerpt)

/-- The closing of a lane's dropout reported: its number joins the lane's excerpt, which ends with the block after the
closing one (R92, R198). -/
def Cx.excerptClosing (c : Cx) (lane : LaneNo) (idx seq : Nat) : Cx :=
  match c.cap.writer.excerpt with
  | none => c
  | some e =>
    if e.lane = lane then c.setExcerpt (some { e with endIdx := some (idx + 1), seqs := e.seqs ++ [seq] }) else c

/-- The sixteen words of an excerpt header (11, "Excerpt header"). -/
def Excerpt.header (e : Excerpt) (lane : LaneEntry) (truncated cut : Bool) : List Word :=
  let listed := (e.seqs.take 4).map word
  [word (e.lane.val + 256 * lane.first + 65536 * lane.count + 16777216 * flagBit truncated + 33554432 * flagBit cut
     + 67108864 * flagBit (decide (4 < e.seqs.length)) + 268435456 * listed.length),
   word e.firstIdx, word e.blocks, e.position] ++ listed ++ List.replicate (4 - listed.length) 0 ++ List.replicate 8 0

/-- One word of the excerpt's descriptor written. -/
def Cx.excerptWrite (c : Cx) (e : Excerpt) (off : Nat) (w : Word) : Cx :=
  { c with hub := { c.hub with port := c.hub.port.store (e.span.addr + off) w } }

/-- An excerpt closed: header, descriptor, the request for FULL and its news (R199). Where the request is not applied, the word
being unreadable or repaired to EMPTY, the excerpt counts as closed and sets no news (DESIGN CHOICE, log 63). -/
def Cx.closeExcerpt (c : Cx) (e : Excerpt) (truncated cut : Bool) : Cx :=
  let lane := getAt c.cap.params.lanes e.lane
  let c1 : Cx := { c with hub := { c.hub with port := c.hub.port.storeWords e.span.buffer (e.header lane truncated cut) } }
  let c2 := ((((c1.excerptWrite e 0x0C (word (64 + 15360 * e.stored))).excerptWrite e 0x10 (word e.firstIdx)).excerptWrite e 0x14
    (word e.stored)).excerptWrite e 0x18 e.position).excerptWrite e 0x1C (word (flagBit cut))
  let (t, c3) := c2.request e.span.addr spanFilling spanFull false
  let c4 := if t = .applied then c3.news .excerpt else c3
  c4.setExcerpt none

/-- A raw sample as an excerpt word: sign-extended to 32 bits (R198). -/
def excerptWord (x : Sample) : Word := x.signExtend 32

/-- The element-blocks of one block written while they fit; the flag says that one did not fit (R198). -/
def storeElements (p : Port) (e : Excerpt) : List (List Sample) → Excerpt × Bool × Port
  | [] => (e, false, p)
  | x :: rest =>
    if 64 + 15360 * (e.stored + 1) ≤ e.span.capacity then
      storeElements (p.storeWords (e.span.buffer + 64 + 15360 * e.stored) (x.map excerptWord)) { e with stored := e.stored + 1 } rest
    else (e, true, p)

/-- The block to be stored next stored into the excerpt, which closes when it is truncated, when the continuity's final
block is stored (with CUT), or when its end block is (R198, R199, R200; log 25). -/
def Cx.storeBlock (c : Cx) (e : Excerpt) (b : HistBlock) (finalIdx : Option Nat) : Cx :=
  let lane := getAt c.cap.params.lanes e.lane
  let elements := (laneElements lane).map fun n => b.samples.getD n []
  let (e1, full, p) := storeElements c.hub.port e elements
  let c1 : Cx := { c with hub := { c.hub with port := p } }
  let e2 := { e1 with blocks := if e1.stored = e.stored then e.blocks else e.blocks + 1 }
  if full then c1.closeExcerpt e2 true false
  else if finalIdx = some e.nextIdx then c1.closeExcerpt e2 false true
  else if e.endIdx = some e.nextIdx then c1.closeExcerpt e2 false false
  else c1.setExcerpt (some { e2 with nextIdx := e.nextIdx + 1, nextNum := e.nextNum + 1 })

/-- Whether the lane monitor has judged a block of the continuity. -/
def LaneMonitor.judged (m : LaneMonitor) (idx : Nat) : Bool :=
  match m.last, m.finalIdx with
  | some l, _ => decide (idx ≤ l.idx)
  | none, some f => decide (idx ≤ f)
  | none, none => false

end Sys2Proof.Machine
end

