-- ==== Sys2Proof/Machine/Lanes.lean ====
section
/-! DEFINITION. The lane monitor (05): envelopes, presence, dropouts, void runs, end notices. -/

namespace Sys2Proof.Machine

/-! ## Envelopes and presence (R84 to R87) -/

/-- The segment envelope: the sum of the magnitudes divided by 240 and truncated (R84). -/
def envelope (samples : List Int) : Nat := sumNat (samples.map Int.natAbs) / Config.segmentSamples

/-- The samples of segment `j` of a block's samples of one element (R64). -/
def segmentOf (samples : List Int) (j : Nat) : List Int := (samples.drop (Config.segmentSamples * j)).take Config.segmentSamples

/-- The envelopes of the elements of a lane's range in segment `j` (R84). -/
def laneEnvelopes (samples : List (List Int)) (j : Nat) : List Nat := samples.map fun e => envelope (segmentOf e j)

/-- A smoothed envelope after a segment (R87). -/
def smoothStep (s e : Nat) : Nat := ((s : Int) + truncDiv ((e : Int) - s) 64).toNat

/-- The lane reference over the watched positions (R85). -/
def laneReference (smooth : List Nat) (watched : List Nat) : Nat := maxNat (watched.map fun i => smooth.getD i 0)

/-- The watched positions of a lane in a block (R82). -/
def watchedPositions (table : Vector CalEntry 16) (lane : LaneEntry) (t : LaneTuning) : List Nat :=
  (watchedElements table lane t).map (· - lane.first)

/-- What a segment of a lane is judged with. -/
structure SegmentInput where
  first : Nat
  watched : List Nat
  sp : Nat
  qf : Nat
  bl : Nat
  block : Nat
  position : Word
  segment : Nat
  env : List Nat
  deriving DecidableEq, Repr

/-- What judging a segment of a lane gives. -/
structure SegmentResult where
  state : LaneState
  info : SegInfo
  quiet : Bool
  opened : Bool
  closed : Option Dropout
  deriving DecidableEq, Repr

/-- The mask of a list of elements (R91). -/
def elementMask (l : List Nat) : BitVec 16 := l.foldl (fun m e => m ||| BitVec.ofNat 16 (2 ^ e)) 0

/-! ## Void runs (R94 to R96) -/

/-- A kind raised, never lowered (R98). -/
def raiseKind (old new : RepairKind) : RepairKind := if repairKindCode old < repairKindCode new then new else old

/-- A dropout after a run that ends: the longest run, and BRIDGED for one that is unsettled (R94, R95). -/
def Dropout.endRun (d : Dropout) (r : VoidRun) : Dropout :=
  let d1 := { d with longest := max d.longest (min 65535 r.length) }
  if r.settled then d1 else { d1 with kind := raiseKind d1.kind .bridged, bridged := satInc 65535 d1.bridged }

/-- The verdict WEAK on a run (R96). -/
def Dropout.weakRun (d : Dropout) (r : VoidRun) : Dropout :=
  { d with kind := raiseKind d.kind .weak, longest := max d.longest (min 65535 r.length) }

/-- The verdict that a segment which is not void gives on the run before it (R95). -/
def endVerdict : Option VoidRun → Option Verdict
  | none => none
  | some r => if r.settled then none else some .bridged

/-- A lane whose run has passed its bridge limit takes the verdict WEAK (R96). -/
def LaneState.settleWeak (l : LaneState) : LaneState :=
  match l.run, l.dropout with
  | some r, some d =>
    if r.settled = false ∧ r.limit < r.length then { l with run := some { r with settled := true }, dropout := some (d.weakRun r) }
    else l
  | _, _ => l

/-- A void segment begins or lengthens a run (R94). -/
def LaneState.addVoid (l : LaneState) (bl : Nat) : LaneState :=
  match l.run with
  | none =>
    { l with run := some ⟨1, bl, false⟩, dropout := l.dropout.map fun d => { d with voidRuns := satInc 65535 d.voidRuns } }
  | some r => { l with run := some { r with length := r.length + 1 } }

/-- A segment that is not void ends the run in progress (R94, R95). -/
def LaneState.endRun (l : LaneState) : LaneState :=
  match l.run with
  | none => l
  | some r => { l with run := none, dropout := l.dropout.map fun d => d.endRun r }

/-- Whether the run in progress is settled. -/
def LaneState.settled (l : LaneState) : Bool := (l.run.map VoidRun.settled).getD false

/-! ## A segment (R85 to R96) -/

/-- A mismatching segment opens a dropout or extends the open one (R90, R91). -/
def LaneState.mismatch (l : LaneState) (i : SegmentInput) (absent : List Nat) (present : Nat) : LaneState :=
  match l.dropout with
  | none =>
    { l with dropout := some { kind := .spare, block := i.block, position := i.position, opening := i.segment,
                               absent := elementMask absent, minPresent := present, noExcerpt := false, voidRuns := 0,
                               longest := 0, bridged := 0, firstOut := none } }
  | some d =>
    { l with dropout := some { d with absent := d.absent ||| elementMask absent, minPresent := min d.minPresent present } }

/-- A segment of a lane judged (R85 to R87, R90 to R97). -/
def LaneState.judge (l : LaneState) (i : SegmentInput) : SegmentResult :=
  let reference := laneReference l.smooth i.watched
  let quiet := decide (reference < i.qf)
  let here := fun (p : Nat) => quiet || decide (reference >>> i.sp ≤ i.env.getD p 0)
  let present := i.watched.filter here
  let absent := i.watched.filter fun p => !here p
  let smooth := List.zipWith smoothStep l.smooth i.env
  let name := fun (ps : List Nat) => ps.map (i.first + ·)
  let pattern := some (⟨decide (absent = []), present⟩ : Pattern)
  if absent = [] then
    let l1 := l.endRun
    { state := { l1 with dropout := none, smooth := smooth, pattern := pattern }
      info := ⟨.clean, name present, endVerdict l.run⟩, quiet := quiet,
      opened := false, closed := l1.dropout }
  else
    let l1 := l.mismatch i (name absent) present.length
    if present = [] then
      let l2 := l1.addVoid i.bl
      let l3 := l2.settleWeak
      let verdict := if l3.settled && !l2.settled then some Verdict.weak else none
      { state := { l3 with smooth := smooth, pattern := pattern }
        info := ⟨.void l3.settled, name i.watched, verdict⟩, quiet := quiet,
        opened := l.dropout.isNone, closed := none }
    else
      let l2 := l1.endRun
      { state := { l2 with smooth := smooth, pattern := pattern }
        info := ⟨.spare, name present, endVerdict l.run⟩, quiet := quiet,
        opened := l.dropout.isNone, closed := none }

/-! ## A block (R83, R88, R89) -/

/-- The lane monitor of the capture changed in place. -/
def Cx.mapMonitor (c : Cx) (f : LaneMonitor → LaneMonitor) : Cx :=
  { c with cap := { c.cap with monitor := c.cap.monitor.map f } }

/-- The state of a lane in the monitor. -/
def Cx.laneState (c : Cx) (lane : LaneNo) : Option LaneState := c.cap.monitor.bind fun m => getAt m.lanes lane

/-- The state of a lane replaced. -/
def Cx.setLane (c : Cx) (lane : LaneNo) (l : LaneState) : Cx := c.mapMonitor fun m => { m with lanes := setAt m.lanes lane (some l) }

/-- A dropout record closed: its sequence number, its place among the records not yet handed, the report to the writer (R92,
R102, R103). `closing` is the matching segment, `block` the capture block it falls in or the final block. -/
def Cx.closeDropout (c : Cx) (lane : LaneNo) (d : Dropout) (cut : Bool) (closing : Option Nat) (block : Nat) : Cx :=
  let (n, c1) := c.takeSeq
  let c2 := c1.mapMonitor fun m => { m with closed := m.closed ++ [⟨n, lane, d, cut, closing, block, none⟩] }
  c2.excerptClosing lane block n

/-- A dropout opening reported; a skipped answer sets NO_EXCERPT (R90, R197). -/
def Cx.openDropout (c : Cx) (lane : LaneNo) (last : Option JudgedMark) (now : JudgedMark) : Cx :=
  let (skipped, c1) := c.excerptAnswer lane last now
  match c1.laneState lane with
  | none => c1
  | some l => if skipped then c1.setLane lane { l with dropout := l.dropout.map fun d => { d with noExcerpt := true } } else c1

/-- A lane's hand-off for the block with one more segment (R88, R97). -/
def LaneJudgement.add (j : LaneJudgement) (r : SegmentResult) (present : List Nat) : LaneJudgement :=
  { segs := j.segs ++ [r.info], quiet := j.quiet || r.quiet, full := j.full.filter fun e => decide (e ∈ present) }

/-- The elements a segment counts as present. -/
def SegInfo.present (i : SegInfo) : List Nat :=
  match i.cls with
  | .clean => i.set
  | .spare => i.set
  | .void _ => []

/-- The lanes' hand-offs while a block is judged. -/
abbrev Judgements := Vector (Option LaneJudgement) 4

/-- What judging a block needs besides the capture: the block, its mark, the block judged before it in the continuity, the
trimmed samples of every active lane's range. -/
structure BlockInput where
  taken : Taken
  mark : JudgedMark
  last : Option JudgedMark
  table : Vector CalEntry 16
  samples : Vector (List (List Int)) 4
  deriving DecidableEq, Repr

/-- One segment of one lane judged, its opening or closing reported (R83, R90, R92). -/
def Cx.judgeSegment (b : BlockInput) (j : Nat) (acc : Cx × Judgements) (lane : LaneNo) : Cx × Judgements :=
  let (c, js) := acc
  match c.laneState lane, getAt js lane with
  | some l, some h =>
    let entry := getAt c.cap.params.lanes lane
    let t := b.taken.tuning
    let r := l.judge
      { first := entry.first, watched := watchedPositions b.table entry (getAt t.lanes lane), sp := t.sp, qf := t.qf, bl := t.bl,
        block := b.mark.idx, position := b.mark.start, segment := 16 * b.mark.idx + j,
        env := laneEnvelopes (getAt b.samples lane) j }
    let c1 := c.setLane lane r.state
    let c2 := if r.opened then c1.openDropout lane b.last b.mark else c1
    let c3 := match r.closed with
      | none => c2
      | some d => c2.closeDropout lane d false (some (16 * b.mark.idx + j)) b.mark.idx
    (c3, setAt js lane (some (h.add r r.info.present)))
  | _, _ => acc

/-- The peak envelope of a block over the watched elements of every active lane (R89). -/
def peakEnvelope (p : CaptureParams) (b : BlockInput) : Nat :=
  maxNat ((activeLanes p).flatMap fun lane =>
    let ws := watchedPositions b.table (getAt p.lanes lane) (getAt b.taken.tuning.lanes lane)
    (List.range 16).flatMap fun j => ws.map fun i => (laneEnvelopes (getAt b.samples lane) j).getD i 0)

/-- The hand-off of an active lane before segment 0 (R88). -/
def Cx.freshJudgements (c : Cx) (b : BlockInput) : Judgements :=
  Vector.ofFn fun (lane : LaneNo) =>
    let entry := getAt c.cap.params.lanes lane
    if entry.active then some ⟨[], false, watchedElements b.table entry (getAt b.taken.tuning.lanes lane)⟩ else none

/-- A lane at the first block of a continuity (R87). -/
def LaneState.restart (l : LaneState) : LaneState := { l with smooth := l.smooth.map fun _ => 0 }

/-! ## End notice (R103) -/

/-- A lane at an end notice: an unsettled run is WEAK, a run's length is recorded, the bookkeeping ends and the pattern is
forgotten (R103). -/
def LaneState.endNotice (l : LaneState) : LaneState :=
  match l.run with
  | none => { l with pattern := none }
  | some r => { l with pattern := none, run := none, dropout := l.dropout.map fun d => d.weakRun r }

/-- A lane at an end notice, an open dropout closed with CUT (R103). -/
def Cx.laneEnd (idx : Nat) (c : Cx) (lane : LaneNo) : Cx :=
  match c.laneState lane with
  | none => c
  | some l =>
    let l1 := l.endNotice
    let c1 := c.setLane lane { l1 with dropout := none }
    match l1.dropout with
    | none => c1
    | some d => c1.closeDropout lane d true none idx

/-- The lane monitor's end notice for the final block `idx` (R103). -/
def Cx.lanesEnd (c : Cx) (idx : Nat) : Cx :=
  (laneNos.foldl (Cx.laneEnd idx) c).mapMonitor fun m => { m with last := none, finalIdx := some idx }

/-! ## The commands -/

/-- The first taken block that the lane monitor has not judged (R83). -/
def Control.unjudged (k : Control) : Option Taken := k.inFlight.find? fun t => t.lanes.isNone

/-- A taken block replaced. -/
def Control.putTaken (k : Control) (t : Taken) : Control :=
  { k with inFlight := k.inFlight.map fun u => if u.idx = t.idx then t else u }

/-- A capture's controller changed in place. -/
def Cx.mapControl (c : Cx) (f : Control → Control) : Cx := c.setControl (f c.cap.control)

/-- A block judged: sixteen segments of every active lane in order, the hand-offs, the peak, and the end notice that
travels with a final block (R83, R88, R89, R167). -/
def Cx.judgeLanes (c : Cx) (ec : ElementCapture) (t : Taken) (h : HistBlock) : Cx :=
  let mark : JudgedMark := ⟨t.idx, t.block.num, (t.block.record.map BlockRecord.start).getD 0⟩
  let c0 := if t.first then c.mapMonitor fun m =>
      { m with last := none, lanes := m.lanes.map fun l => l.map LaneState.restart } else c
  let b : BlockInput :=
    { taken := t, mark := mark, last := c0.cap.monitor.bind LaneMonitor.last, table := ec.table,
      samples := Vector.ofFn fun (lane : LaneNo) =>
        let entry := getAt c0.cap.params.lanes lane
        if entry.active then (laneElements entry).map (trimmed ec h) else [] }
  let step := fun (acc : Cx × Judgements) (j : Nat) => laneNos.foldl (Cx.judgeSegment b j) acc
  let (c1, js) := (List.range 16).foldl step (c0, c0.freshJudgements b)
  let c2 := c1.mapMonitor fun m => { m with last := some mark }
  let c3 := c2.mapControl fun k =>
    { (k.putTaken { t with lanes := some js }) with peak := some (t.idx, peakEnvelope c2.cap.params b) }
  if t.final.isSome then c3.lanesEnd t.idx else c3

/-- JUDGE_LANES: the lane monitor judges the oldest taken block it has not judged (R83). -/
def execJudgeLanes (s : State) : Result :=
  captureStep s fun c =>
    match c.cap.control.unjudged with
    | none => .ok c
    | some t =>
      match needBlock s.elements t.block.num with
      | .error e => .error e
      | .ok h => .ok (c.judgeLanes s.elements t h)

/-- WEAK: a void run that has passed its bridge limit receives the verdict (R96; log 21). -/
def execWeak (lane : LaneNo) (s : State) : Result :=
  captureStep s fun c =>
    match c.laneState lane with
    | none => .ok c
    | some l => .ok (c.setLane lane l.settleWeak)

/-- The lane monitor as a capture leaves ARMED (R105). -/
def LaneMonitor.start (p : CaptureParams) : LaneMonitor :=
  { lanes := Vector.ofFn fun (lane : LaneNo) =>
      let entry := getAt p.lanes lane
      if entry.active then some ⟨List.replicate entry.count 0, none, none, none⟩ else none
    seq := 0, closed := [], last := none, finalIdx := none }

/-! ## Completed records (R100 to R102) -/

/-- The repair record of a complete dropout record (R99). -/
def ClosedDropout.record (d : ClosedDropout) (length : Nat) : RepairRec :=
  { seq := d.seq, kind := d.drop.kind, place := d.lane.val, minPresent := d.drop.minPresent, cut := d.cut,
    noExcerpt := d.drop.noExcerpt, absent := d.drop.absent, first := word (d.drop.firstOut.getD 0), length := length,
    block := d.drop.block, position := d.drop.position, voidRuns := d.drop.voidRuns, longest := d.drop.longest,
    bridged := d.drop.bridged }

/-- The complete records at the head of the list, and the rest: a complete record waits for every one with a lower number
(R102). -/
def splitComplete : List ClosedDropout → List RepairRec × List ClosedDropout
  | [] => ([], [])
  | d :: rest =>
    match d.length with
    | none => ([], d :: rest)
    | some n =>
      let (done, left) := splitComplete rest
      (d.record n :: done, left)

/-- Complete records handed to the output writer in sequence order (R102). -/
def Cx.handComplete (c : Cx) : Cx :=
  match c.cap.monitor with
  | none => c
  | some m =>
    let (done, left) := splitComplete m.closed
    (c.mapMonitor fun m => { m with closed := left }).mapWriter fun w => { w with handed := w.handed ++ done }

end Sys2Proof.Machine
end

