-- ==== Sys2Proof/Machine/Leader.lean ====
section
/-! DEFINITION. The capture controller receives a block's peak envelope: the leader run and an end by leader (R173). -/

namespace Sys2Proof.Machine

/-- The capture state set and written into the progress area (R180). -/
def Cx.setState (c : Cx) (st : RunState) : Cx :=
  (c.mapControl fun k => { k with state := st }).progress 0x20 (word (runStateCode st))

/-- The leader run after a block's peak (R173). -/
def leaderRunAfter (run peak : Nat) (t : Tuning) : Nat := if peak < t.leaderFloor then satInc 65535 run else 0

/-- Whether a leader run ends the capture (R173). -/
def leaderEnds (run : Nat) (t : Tuning) (state : RunState) : Bool :=
  decide (t.leaderTime ≠ 0 ∧ t.leaderTime ≤ run ∧ state ≠ .stopping)

/-- A capture ended by leader on a taken block: the block is final for the end of the capture; no later block is taken (R173). -/
def Cx.endByLeader (c : Cx) (t : Taken) : Cx :=
  let c1 := c.mapControl fun k =>
    { (k.putTaken { t with final := some .capture }) with candidate := none, toTake := [], endReason := .leader }
  let c2 := c1.setState .stopping
  if t.final.isSome then c2 else c2.lanesEnd t.idx

/-- The peak envelope on its way received (R173; log 19). -/
def Cx.receivePeak (c : Cx) : Cx :=
  match c.cap.control.peak with
  | none => c
  | some (idx, peak) =>
    match c.cap.control.inFlight.find? fun t => t.idx == idx with
    | none => c.mapControl fun k => { k with peak := none }
    | some t =>
      let run := leaderRunAfter c.cap.control.leaderRun peak t.tuning
      let c1 := c.mapControl fun k => { k with peak := none, leaderRun := run }
      if leaderEnds run t.tuning c.cap.control.state then c1.endByLeader t else c1

/-- LEADER: the peak of the block judged last reaches the capture controller; where the leader run reaches the leader time,
the block is the last of the capture (R173). -/
def execLeader (s : State) : Result := captureStep s fun c => .ok c.receivePeak

end Sys2Proof.Machine
end

