-- ==== Sys2Proof/Machine/Skew.lean ====
section
/-! DEFINITION. The skew estimator (06). -/

namespace Sys2Proof.Machine

/-- Saturation of a skew (R106). -/
def clampSkew (z : Int) : Int := clampInt (-1536) 1536 z

/-- The skews of a lane's range seeded against an anchor element (R107, R108). -/
def seedSkews (table : Vector CalEntry 16) (lane : LaneEntry) (anchor : Nat) : List Int :=
  (laneElements lane).map fun e => clampSkew ((tableEntry table e).skew - (tableEntry table anchor).skew)

/-- The anchor element of a lane under a tuning (R107). -/
def anchorElement (lane : LaneEntry) (t : LaneTuning) : Nat := lane.first + t.anchor

/-- A lane seeded as a capture leaves ARMED (R107). -/
def LaneSkew.seed (table : Vector CalEntry 16) (lane : LaneEntry) (t : LaneTuning) : LaneSkew :=
  ⟨seedSkews table lane (anchorElement lane t), anchorElement lane t⟩

/-- Seeds of every active lane (R107). -/
def seedLanes (table : Vector CalEntry 16) (p : CaptureParams) (t : Tuning) : Vector (Option LaneSkew) 4 :=
  Vector.ofFn fun (lane : LaneNo) =>
    let entry := getAt p.lanes lane
    if entry.active then some (LaneSkew.seed table entry (getAt t.lanes lane)) else none

/-- A lane re-seeded when its anchor has changed (R108). -/
def LaneSkew.reseed (k : LaneSkew) (table : Vector CalEntry 16) (lane : LaneEntry) (t : LaneTuning) : LaneSkew :=
  if anchorElement lane t = k.anchor then k else LaneSkew.seed table lane t

/-- The elements of a lane tried in a block (R110). -/
def triedElements (table : Vector CalEntry 16) (lane : LaneEntry) (t : LaneTuning) (j : LaneJudgement) : List Nat :=
  let anchor := anchorElement lane t
  if t.measure ∧ j.quiet = false ∧ anchor ∈ j.full then
    (watchedElements table lane t).filter fun e => decide (e ≠ anchor ∧ e ∈ j.full)
  else []

/-- The blocks a measurement reads: the block and its neighbours in the continuity (R109). -/
structure SkewInput where
  elements : ElementCapture
  before : Option HistBlock
  block : HistBlock
  after : Option HistBlock
  deriving DecidableEq, Repr

/-- One measurement of an element against the anchor (R111 to R113). -/
def SkewInput.measure (i : SkewInput) (anchor e : Nat) : Option Int :=
  let y := fun (b : HistBlock) => trimmed i.elements b e
  measureSkew (trimmed i.elements i.block anchor) (y i.block) (edgeWindow (i.before.map y) (y i.block) (i.after.map y))

/-- A skew moved by an accepted measurement (R114). -/
def moveSkew (d m : Int) (ss : Nat) : Int := clampSkew (d + truncDiv (m - d) (2 ^ ss : Nat))

/-- One tried element: its skew moved, or SKEW_HELD set (R114, R115). -/
def LaneSkew.apply (i : SkewInput) (lane : LaneEntry) (ss : Nat) (acc : LaneSkew × Bool) (e : Nat) : LaneSkew × Bool :=
  match i.measure acc.1.anchor e with
  | none => (acc.1, true)
  | some m =>
    let p := e - lane.first
    ({ acc.1 with skews := acc.1.skews.set p (moveSkew (acc.1.skews.getD p 0) m ss) }, acc.2)

/-- A lane's skew span: highest watched element minus lowest (R117). -/
def skewSpan (k : LaneSkew) (lane : LaneEntry) (watched : List Nat) : Int :=
  match watched.head?, watched.getLast? with
  | some lo, some hi => k.skews.getD (hi - lane.first) 0 - k.skews.getD (lo - lane.first) 0
  | _, _ => 0

/-- A lane worked on: re-seeding, measurements, report (R108 to R117). Without blocks nothing was to be tried. -/
def LaneSkew.work (k : LaneSkew) (table : Vector CalEntry 16) (lane : LaneEntry) (t : LaneTuning) (ss : Nat)
    (j : LaneJudgement) (input : Option SkewInput) : LaneSkew × SkewReport :=
  let k1 := k.reseed table lane t
  let (k2, held) := match input with
    | none => (k1, false)
    | some i => (triedElements table lane t j).foldl (LaneSkew.apply i lane ss) (k1, false)
  (k2, ⟨k2.skews, held, skewSpan k2 lane (watchedElements table lane t)⟩)

/-- Whether anything is tried in a block (R110). -/
def anyTried (table : Vector CalEntry 16) (p : CaptureParams) (t : Tuning) (js : Judgements) : Bool :=
  (activeLanes p).any fun lane => match getAt js lane with
    | none => false
    | some j => !(triedElements table (getAt p.lanes lane) (getAt t.lanes lane) j).isEmpty

/-- The blocks a block's measurements read, when there are any (R109, R65). -/
def skewInput (ec : ElementCapture) (t : Taken) (tried : Bool) : Except Fault (Option SkewInput) :=
  if tried then
    match needBlock ec t.block.num, neighbour ec (t.block.num - 1) t.first, neighbour ec (t.block.num + 1) t.final.isSome with
    | .ok b, .ok p, .ok n => .ok (some ⟨ec, p, b, n⟩)
    | .error e, _, _ => .error e
    | _, .error e, _ => .error e
    | _, _, .error e => .error e
  else .ok none

/-- A block worked on, its values handed (R109, R116). -/
def Cx.workSkew (c : Cx) (ec : ElementCapture) (t : Taken) (js : Judgements) (input : Option SkewInput) : Cx :=
  let work := fun (lane : LaneNo) =>
    match getAt c.cap.skew lane, getAt js lane with
    | some k, some j =>
      let (k1, r) := k.work ec.table (getAt c.cap.params.lanes lane) (getAt t.tuning.lanes lane) t.tuning.ss j input
      (some k1, some r)
    | k, _ => (k, none)
  let c1 : Cx := { c with cap := { c.cap with skew := Vector.ofFn fun (lane : LaneNo) => (work lane).1 } }
  c1.mapControl fun k => k.putTaken { t with skew := some (Vector.ofFn fun (lane : LaneNo) => (work lane).2) }

/-- The first taken block the skew estimator has not worked on (R109). -/
def Control.unmeasured (k : Control) : Option Taken := k.inFlight.find? fun t => t.skew.isNone

/-- MEASURE_SKEW: the skew estimator works on the oldest taken block it has not worked on, once the lane monitor has judged
it (R109). -/
def execMeasureSkew (s : State) : Result :=
  captureStep s fun c0 =>
    let c := c0.receivePeak
    match c.cap.control.unmeasured with
    | none => .ok c
    | some t =>
      match t.lanes with
      | none => .ok c
      | some js =>
        match skewInput s.elements t (anyTried s.elements.table c.cap.params t.tuning js) with
        | .error e => .error e
        | .ok i => .ok (c.workSkew s.elements t js i)

end Sys2Proof.Machine
end

