-- ==== Sys2Proof/Machine/Trackers.lean ====
section
/-! DEFINITION. The TACH, HUM and BIAS trackers (07, R121 to R129). -/

namespace Sys2Proof.Machine

/-- The locked-run count after a block (R119). -/
def lockedRunAfter (run : Nat) (st : TrackState) : Nat := if st = .locked then satInc 65535 run else 0

/-! ## TACH (R121, R122) -/

/-- Whether a window entry counts towards a lock (R121). -/
def tachEntryGood (r : BlockRecord) : Bool := r.driven && !r.decodeError && !r.slip && decide (0 < r.net.toInt)

/-- The TACH state after a record has entered (R121). -/
def tachState (r : BlockRecord) (window : List BlockRecord) : TrackState :=
  if r.nc = 0 then .off else if window.length = 8 ∧ window.all tachEntryGood then .locked else .acquiring

/-- A processed block given to the TACH tracker; the window is newest first (R121). -/
def Tach.take (t : Tach) (r : BlockRecord) : Tach :=
  if t.state = .off then t
  else
    let window := (r :: t.window).take 8
    let st := tachState r window
    { state := st, window := window, lockedRun := lockedRunAfter t.lockedRun st }

/-- q_tach (R122). -/
def Tach.value (t : Tach) : Nat :=
  match t.window.head? with
  | none => Config.unity
  | some r => roundUpDiv (8 * r.nc * Config.unity) (sumInt (t.window.map fun b => b.net.toInt)).toNat

/-! ## HUM (R123 to R126) -/

/-- The nominal period in 1/16 element samples (R124). -/
def humPeriod (g : GroupTuning) : Int := if g.hum60 then 102400 else 122880

/-- The decimated values of a block: sums of 64 samples, truncated (R123). -/
def decimate (samples : List Int) : List Int :=
  (List.range 60).map fun m => truncDiv (sumInt ((samples.drop (64 * m)).take 64)) 64

/-- A value through the smoothing stages, each stage's new value the next one's input (R123). -/
def smoothStages : List Int → Int → List Int × Int
  | [], x => ([], x)
  | s :: rest, x =>
    let s1 := s + truncDiv (x - s) 16
    let (ss, y) := smoothStages rest s1
    (s1 :: ss, y)

/-- The time of a crossing between two decimated values (R124). A value of exactly 0 is crossed at its own time, as the formula
gives it (DESIGN CHOICE, log 67). -/
def humCrossing (time before after : Int) : Int := time + truncDiv (1024 * -before) (after - before)

/-- A tracker returned to ACQUIRING, its window dropped (R126). -/
def Hum.unlock (h : Hum) : Hum := { h with state := .acquiring, periods := [], misses := 0 }

/-- The third consecutive miss returns a LOCKED tracker to ACQUIRING (R126). -/
def Hum.checkMisses (h : Hum) : Hum := if h.state = .locked ∧ 3 ≤ h.misses then h.unlock else h

/-- More than three nominal periods without a crossing return a LOCKED tracker to ACQUIRING (R126). -/
def Hum.checkTimeout (h : Hum) (p : Int) : Hum :=
  if h.state = .locked ∧ 3 * p < h.timePrev - max (h.lastCross.getD h.begun) h.begun then h.unlock else h

/-- A closed period in ACQUIRING (R125). -/
def Hum.acquire (h : Hum) (nominal p : Int) : Hum :=
  if 15 * nominal < 100 * ((p - nominal).natAbs : Int) then { h with periods := [] }
  else
    let run := h.periods ++ [p]
    let run := run.drop (run.length - 8)
    let s := sumInt run
    let steady := run.length = 8 ∧ run.all (fun q => decide ((100 * (8 * q - s).natAbs : Int) ≤ 2 * s))
    if steady then { h with periods := run, state := .locked, misses := 0 } else { h with periods := run }

/-- A closed period in LOCKED (R126). -/
def Hum.follow (h : Hum) (p : Int) : Hum :=
  let s := sumInt h.periods
  if (100 * (8 * p - s).natAbs : Int) ≤ 4 * s then { h with periods := h.periods.drop 1 ++ [p], misses := 0 }
  else ({ h with misses := h.misses + 1 }).checkMisses

/-- A closed period judged for the tracker's state (R124). -/
def Hum.period (h : Hum) (nominal p : Int) : Hum :=
  match h.state with
  | .off => h
  | .acquiring => h.acquire nominal p
  | .locked => h.follow p

/-- A crossing: it closes a period where there is one before it, and opens the next (R124). -/
def Hum.cross (h : Hum) (nominal time : Int) : Hum :=
  let h1 := match h.lastCross with
    | none => h
    | some t => h.period nominal (time - t)
  { h1 with lastCross := some time }

/-- One decimated value at its time: filtered, tested for a crossing and for the timeout (R123, R124, R126). -/
def Hum.value1 (nominal : Int) (h : Hum) (time x0 : Int) : Hum :=
  let (stages, x) := smoothStages h.stages x0
  let y := x - h.xPrev + truncDiv (255 * h.yPrev) 256
  let h1 := if h.hasPrev ∧ h.yPrev < 0 ∧ 0 ≤ y then h.cross nominal (humCrossing h.timePrev h.yPrev y) else h
  let h2 := { h1 with stages := stages, xPrev := x, yPrev := y, hasPrev := true, timePrev := time }
  h2.checkTimeout nominal

/-- Decimated values in order, 1,024 apart (R124). -/
def Hum.values (nominal : Int) (h : Hum) (time : Int) : List Int → Hum
  | [] => h
  | x :: rest => (Hum.value1 nominal h time x).values nominal (time + 1024) rest

/-- The first block of a continuity: filter at 0, no crossing, a new start (R123, R126, R142). -/
def Hum.restartFilter (h : Hum) (time : Int) : Hum :=
  { h with stages := [0, 0, 0, 0], xPrev := 0, yPrev := 0, hasPrev := false, lastCross := none, begun := time }

/-- A processed block given to a HUM tracker (R123 to R126). -/
def Hum.take (h : Hum) (g : GroupTuning) (first : Bool) (time : Int) (samples : List Int) : Hum :=
  if h.state = .off then h
  else
    let h0 := if first then h.restartFilter time else h
    let h1 := h0.values (humPeriod g) time (decimate samples)
    { h1 with lockedRun := lockedRunAfter h.lockedRun h1.state }

/-- q_hum (R126). -/
def Hum.ratio (h : Hum) (g : GroupTuning) : Nat := roundUpDiv ((sumInt h.periods).toNat * Config.unity) (8 * (humPeriod g).toNat)

/-- An empty HUM tracker in a state (R119, R137). -/
def Hum.fresh (st : TrackState) (time : Int) : Hum :=
  { state := st, periods := [], misses := 0, lockedRun := 0, stages := [0, 0, 0, 0], xPrev := 0, yPrev := 0, hasPrev := false,
    timePrev := time, lastCross := none, begun := time }

/-! ## BIAS (R127 to R129) -/

/-- The bias crossings in a run of samples: `a` and `b` are the two samples before, where the continuity has them, `t` the
time of the next sample in whole samples; first and last crossing time and their number (R127). -/
def biasCrossings (gate : Nat) : Option Int → Option Int → Int → List Int → BiasBlock → BiasBlock
  | _, _, _, [], acc => acc
  | a, b, t, y :: rest, acc =>
    let acc1 := match a, b with
      | some a, some b =>
        let u0 := b - a
        let u1 := y - b
        if u0 < 0 ∧ 0 ≤ u1 ∧ gate ≤ u1.natAbs + u0.natAbs then
          let time := 16 * (t - 1) + truncDiv (16 * -u0) (u1 - u0)
          { count := acc.count + 1, first := if acc.count = 0 then time else acc.first, last := time }
        else acc
      | _, _ => acc
    biasCrossings gate b (some y) (t + 1) rest acc1

/-- The crossings of the blocks of a window as one (R128). -/
def biasWindow (w : List BiasBlock) : BiasBlock :=
  w.foldl (fun acc b =>
    if b.count = 0 then acc
    else { count := acc.count + b.count, first := if acc.count = 0 then b.first else acc.first, last := b.last }) ⟨0, 0, 0⟩

/-- q_bias of a window that gives a value (R128). -/
def biasValue (c : BiasBlock) (nominal : Nat) : Nat :=
  (roundDiv ((c.last - c.first) * (nominal * Config.unity : Nat)) ((c.count - 1) * 6144000)).toNat

/-- A short block (R129). -/
def Bias.short (b : Bias) : Bias := { b with state := .acquiring, run := [] }

/-- A value-giving block (R129). -/
def Bias.give (b : Bias) (v : Nat) : Bias :=
  if b.state = .locked then
    if b.value < 100 * ((v : Int) - b.value).natAbs then { b with state := .acquiring, run := [v] } else { b with value := v }
  else
    let run := b.run ++ [v]
    let run := run.drop (run.length - 4)
    let m := run.foldl min v
    if run.length = 4 ∧ run.all (fun x => decide (1000 * (x - m) ≤ 5 * m)) then { b with state := .locked, run := run, value := v }
    else { b with run := run }

/-- A processed block's crossings given to a BIAS tracker (R128, R129). -/
def Bias.take (b : Bias) (nominal : Nat) (first : Bool) (block : BiasBlock) : Bias :=
  if b.state = .off then b
  else
    let window := (if first then [] else b.window) ++ [block]
    let window := window.drop (window.length - 4)
    let b0 := { b with window := window }
    let c := biasWindow window
    let b1 := if window.length < 4 then b0 else if nominal ≤ 50 * c.count then b0.give (biasValue c nominal) else b0.short
    { b1 with lockedRun := lockedRunAfter b.lockedRun b1.state }

/-- An empty BIAS tracker in a state (R119, R137). -/
def Bias.fresh (st : TrackState) : Bias := { state := st, window := [], run := [], value := Config.unity, lockedRun := 0 }

end Sys2Proof.Machine
end

