-- ==== Sys2Proof/Machine/Speed.lean ====
section
/-! DEFINITION. The speed reference unit (07): group states, the return rule, RETUNE effects, SOURCE orders. -/

namespace Sys2Proof.Machine

/-! ## Sources as a group sees them -/

/-- Whether a source is LOCKED for a group. -/
def sourceLocked (tach : Tach) (g : GroupSpeed) : Source → Bool
  | .tach => decide (tach.state = .locked)
  | .hum => decide (g.hum.state = .locked)
  | .bias => decide (g.bias.state = .locked)

/-- A source's locked-run count for a group (R119). -/
def sourceRun (tach : Tach) (g : GroupSpeed) : Source → Nat
  | .tach => tach.lockedRun
  | .hum => g.hum.lockedRun
  | .bias => g.bias.lockedRun

/-- A source's value for a group. -/
def sourceValue (tach : Tach) (g : GroupSpeed) (t : GroupTuning) : Source → Nat
  | .tach => tach.value
  | .hum => g.hum.ratio t
  | .bias => g.bias.value

/-- A ratio clamped to the range (R135). -/
def clampRatio (q : Nat) : Nat := max Config.ratioMin (min Config.ratioMax q)

/-- The first LOCKED source of the preference list (R132, R133). -/
def firstLocked (tach : Tach) (g : GroupSpeed) : Option Source := g.prefs.find? (sourceLocked tach g)

/-- The return rule: the first source before the active one whose locked-run count is 16 or more (R134). Before an active source
that the list held does not contain stands every source of the list (DESIGN CHOICE, log 70). -/
def returnSource (tach : Tach) (g : GroupSpeed) : Option Source :=
  match g.active with
  | none => none
  | some a => (g.prefs.takeWhile fun s => decide (s ≠ a)).find? fun s => decide (16 ≤ sourceRun tach g s)

/-! ## Settling and deciding (R130 to R136) -/

/-- The state and active source for the block (R130). -/
def GroupSpeed.settle (g : GroupSpeed) (tach : Tach) (t : GroupTuning) : GroupSpeed :=
  let g1 := { g with state := g.nextState, active := g.nextActive, due := none }
  match g1.state, g1.active with
  | .tracking, some a => if sourceLocked tach g1 a then g1 else { g1 with state := .holdover, counter := t.holdover }
  | _, _ => g1

/-- q(k) before and after clamping (R130, R135). -/
def GroupSpeed.ratio (g : GroupSpeed) (tach : Tach) (t : GroupTuning) : Nat × Bool :=
  match g.state, g.active with
  | .tracking, some a =>
    let v := sourceValue tach g t a
    (clampRatio v, decide (clampRatio v ≠ v))
  | _, _ => (g.held, false)

/-- A decision for the next block. -/
def GroupSpeed.next (g : GroupSpeed) (st : SpeedState) (a : Option Source) : GroupSpeed :=
  { g with nextState := st, nextActive := a }

/-- A group's own decision for the next block; a return or an expiry is marked due (R131 to R134; log 20). -/
def GroupSpeed.decide (g : GroupSpeed) (tach : Tach) : GroupSpeed :=
  match g.state with
  | .tracking =>
    let g1 := g.next .tracking g.active
    if (returnSource tach g).isSome then { g1 with due := some .sourceReturn } else g1
  | .holdover =>
    if (g.active.map (sourceLocked tach g)).getD false then g.next .tracking g.active
    else if (returnSource tach g).isSome then { g.next .holdover g.active with due := some .sourceReturn }
    else if g.counter = 0 then { g.next .holdover g.active with due := some .expiry }
    else { g.next .holdover g.active with counter := g.counter - 1 }
  | .freeRun =>
    match firstLocked tach g with
    | none => g.next .freeRun none
    | some s => g.next .tracking (some s)

/-- A due decision carried out (R132 case 3, R134). -/
def GroupSpeed.carryOut (g : GroupSpeed) (tach : Tach) : GroupSpeed :=
  match g.due with
  | none => g
  | some .sourceReturn => { g.next .tracking (returnSource tach g) with due := none }
  | some .expiry =>
    match firstLocked tach g with
    | none => { g.next .freeRun none with due := none }
    | some s => { g.next .tracking (some s) with due := none }

/-! ## RETUNE (R137) -/

/-- The anchor of a lane as a tracker reads it. -/
def laneAnchor (p : CaptureParams) (t : Tuning) (lane : LaneNo) : Nat := anchorElement (getAt p.lanes lane) (getAt t.lanes lane)

/-- A HUM tracker at a RETUNE (R137). -/
def Hum.retune (h : Hum) (p : CaptureParams) (old new : Tuning) (g : Group) (time : Int) : Hum :=
  let a := old.groups.get g
  let b := new.groups.get g
  if Source.hum ∉ b.prefs then Hum.fresh .off time
  else if h.state = .off ∨ a.humLane ≠ b.humLane ∨ laneAnchor p old a.humLane ≠ laneAnchor p new b.humLane ∨ a.hum60 ≠ b.hum60
  then Hum.fresh .acquiring time
  else h

/-- A BIAS tracker at a RETUNE (R137). -/
def Bias.retune (x : Bias) (p : CaptureParams) (old new : Tuning) (g : Group) : Bias :=
  let a := old.groups.get g
  let b := new.groups.get g
  if Source.bias ∉ b.prefs then Bias.fresh .off
  else if x.state = .off ∨ a.biasLane ≠ b.biasLane ∨ laneAnchor p old a.biasLane ≠ laneAnchor p new b.biasLane
    ∨ a.biasNominal ≠ b.biasNominal
  then Bias.fresh .acquiring
  else x

/-- Whether a source is missing from a list. -/
def missing (prefs : List Source) : Option Source → Bool
  | none => false
  | some s => !prefs.contains s

/-- A group at the binding block of a RETUNE (R137; log 29). -/
def GroupSpeed.retune (g : GroupSpeed) (p : CaptureParams) (old new : Tuning) (name : Group) (time : Int) : GroupSpeed :=
  let prefs := (new.groups.get name).prefs
  let g1 := { g with prefs := prefs, hum := g.hum.retune p old new name time, bias := g.bias.retune p old new name }
  if missing prefs g.active || missing prefs g.nextActive then g1.next .freeRun none else g1

/-! ## SOURCE orders (R138 to R141) -/

/-- The capture's SOURCE order of a group replaced. -/
def Cx.setSource (c : Cx) (g : Group) (r : Option SourceRun) : Cx :=
  c.mapControl fun k => { k with sources := k.sources.put g r }

/-- A SOURCE order's end reported; the unit drops it. -/
def Cx.endSource (c : Cx) (g : Group) (r : SourceRun) (out : OrderOutcome) (own : Bool) : Cx :=
  let c1 : Cx := { c with hub := c.hub.report r.slot out own }
  c1.setSource g none

/-- The probation count written before an end of probation (R140; log 31). -/
def Cx.writeProbation (c : Cx) (r : SourceRun) : Cx :=
  match r.phase with
  | .waiting _ => c
  | .probation n _ _ => { c with hub := c.hub.slotWrite r.slot 0x2C (word n) }

/-- A SOURCE order's due end carried out: NOT_LOCKED when it waits, COMPLETE in probation (R139, R140). -/
def Cx.settleSource (c : Cx) (g : Group) : Cx :=
  match c.cap.control.sources.get g with
  | none => c
  | some r =>
    if r.due then
      match r.phase with
      | .waiting n => ({ c with hub := c.hub.slotWrite r.slot 0x20 (word n) } : Cx).endSource g r .notLocked false
      | .probation _ _ _ => (c.writeProbation r).endSource g r .complete false
    else c

/-- The speed unit changed in place. -/
def Cx.mapSpeed (c : Cx) (f : SpeedUnit → SpeedUnit) : Cx := { c with cap := { c.cap with speed := c.cap.speed.map f } }

/-- A group's due decision carried out. -/
def SpeedUnit.carryOut (u : SpeedUnit) (g : Group) : SpeedUnit :=
  { u with groups := u.groups.put g ((u.groups.get g).map fun x => x.carryOut u.tach) }

/-- Everything that has come due in the speed reference unit carried out (log 20; a warm reset carries nothing out, log 71). With a SOURCE order due in both groups, group
A's ends first (DESIGN CHOICE, log 65). -/
def Cx.settleSpeed (c : Cx) : Cx :=
  let c1 := (c.settleSource .a).settleSource .b
  c1.mapSpeed fun u => (u.carryOut .a).carryOut .b

/-- The preference list with a target moved to its head (R139). A target that only a pending RETUNE's list holds is put in at the
head of the list held (DESIGN CHOICE, log 68). -/
def moveToHead (target : Source) (prefs : List Source) : List Source := target :: prefs.filter fun s => decide (s ≠ target)

/-- A waiting order whose target is not LOCKED (R139). -/
def SourceRun.wait (r : SourceRun) (n : Nat) : SourceRun :=
  { r with phase := .waiting (n + 1), due := decide (r.timeout ≤ n + 1) }

/-- The slot's words at a switch and the slot RUNNING (R139, R23). -/
def Hub.sourceSwitch (h : Hub) (n : SlotNo) (count idx : Nat) (previous : Option Source) : Hub :=
  let h1 := ((h.slotWrite n 0x20 (word count)).slotWrite n 0x24 (word (idx + 1))).slotWrite n 0x28 (word (sourceCode previous))
  { h1 with orders := h1.orders.setState n .running }

/-- A group's SOURCE order judged in step 3 of block `idx`, after the group has settled: the group before its own decision
becomes the group with its decision (R139, R140). Probation goes on while another source is active (DESIGN CHOICE, log 56). -/
def Cx.judgeSource (c : Cx) (name : Group) (tach : Tach) (g : GroupSpeed) (idx : Nat) : GroupSpeed × Cx :=
  match c.cap.control.sources.get name with
  | none => (g.decide tach, c)
  | some r =>
    match r.phase with
    | .waiting n =>
      if sourceLocked tach g r.target then
        if (c.hub.orders.slot r.slot).state = .taken then
          let c1 : Cx := { c with hub := c.hub.sourceSwitch r.slot n idx g.active }
          ({ (g.decide tach).next .tracking (some r.target) with prefs := moveToHead r.target g.prefs, due := none },
            c1.setSource name (some { r with phase := .probation 0 g.prefs g.active }))
        else (g.decide tach, c.endSource name r .cancelled true)
      else (g.decide tach, c.setSource name (some (r.wait n)))
    | .probation n list source =>
      let r1 := { r with phase := .probation (n + 1) list source }
      if sourceLocked tach g r.target then
        (g.decide tach, c.setSource name (some { r1 with due := decide (8 ≤ n + 1) }))
      else
        let g1 := { g with prefs := list }
        let g2 := match source with
          | none => g1.decide tach
          | some s => if sourceLocked tach g1 s then { g1.next .tracking (some s) with due := none } else g1.decide tach
        (g2, (c.writeProbation r1).endSource name r1 .reverted false)

/-! ## A block (R120) -/

/-- The samples the trackers read: the block, and the one before it in the continuity for first differences (R127). -/
structure SpeedInput where
  elements : ElementCapture
  before : Option HistBlock
  block : Option HistBlock
  deriving DecidableEq, Repr

/-- The last two samples of an element before the block (R127). A tracker that a RETUNE restarts or moves to another anchor reads
those of the block before on the new anchor (DESIGN CHOICE, log 48). -/
def lastTwo (i : SpeedInput) (e : Nat) : Option Int × Option Int :=
  match i.before with
  | none => (none, none)
  | some b =>
    let l := trimmed i.elements b e
    (l[l.length - 2]?, l.getLast?)

/-- The block's samples of an element. -/
def SpeedInput.samples (i : SpeedInput) (e : Nat) : List Int := (i.block.map fun b => trimmed i.elements b e).getD []

/-- A group's trackers after a block (R120 step 2). -/
def GroupSpeed.track (g : GroupSpeed) (p : CaptureParams) (t : Taken) (name : Group) (i : SpeedInput) : GroupSpeed :=
  let gt := t.tuning.groups.get name
  let whole : Nat := Config.blockSamples * t.idx
  let humElement := laneAnchor p t.tuning gt.humLane
  let biasElement := laneAnchor p t.tuning gt.biasLane
  let hum := g.hum.take gt t.first (16 * whole : Nat) (i.samples humElement)
  let bias :=
    if g.bias.state = .off then g.bias
    else
      let (a, b) := lastTwo i biasElement
      g.bias.take gt.biasNominal t.first (biasCrossings gt.biasGate a b whole (i.samples biasElement) ⟨0, 0, 0⟩)
  { g with hum := hum, bias := bias }

/-- A group's steps 3 and 4: settled, q(k), decision, report (R130 to R136, R139, R140). The flag says whether the active
source changed. -/
def Cx.speedGroup (c : Cx) (name : Group) (tach : Tach) (t : Taken) (g : GroupSpeed) : GroupSpeed × SpeedReport × Cx :=
  let gt := t.tuning.groups.get name
  let g1 := g.settle tach gt
  let (q, clamped) := g1.ratio tach gt
  let g2 := { g1 with held := q }
  let (g3, c1) := c.judgeSource name tach g2 t.idx
  (g3, ⟨q, g1.active, g1.state, clamped, decide (g1.active ≠ g.active)⟩, c1)

/-- One group worked on, if it has an active lane. -/
def Cx.speedOption (c : Cx) (name : Group) (tach : Tach) (t : Taken) :
    Option GroupSpeed → Option GroupSpeed × Option SpeedReport × Cx
  | none => (none, none, c)
  | some g =>
    let (g1, r, c1) := c.speedGroup name tach t g
    (some g1, some r, c1)

/-- LOCK reported for a group's switch (R136). -/
def Cx.lockNews (c : Cx) : Option SpeedReport → Cx
  | none => c
  | some r => if r.switched then c.news .lock else c

/-- RETUNE effects and trackers of a group (R120 steps 1 and 2). -/
def prepareGroup (u : SpeedUnit) (p : CaptureParams) (t : Taken) (i : SpeedInput) (name : Group) (g : GroupSpeed) : GroupSpeed :=
  let time : Nat := 16 * (Config.blockSamples * t.idx)
  let g1 := if t.binding then g.retune p u.tuning t.tuning name time else g
  g1.track p t name i

/-- The block worked on (R120). -/
def Cx.workSpeed (c : Cx) (u : SpeedUnit) (t : Taken) (i : SpeedInput) : Cx :=
  let p := c.cap.params
  let tach := match t.block.record with
    | none => u.tach
    | some r => u.tach.take r
  let (a, ra, c1) := c.speedOption .a tach t (u.groups.a.map (prepareGroup u p t i .a))
  let (b, rb, c2) := c1.speedOption .b tach t (u.groups.b.map (prepareGroup u p t i .b))
  let c3 : Cx := { c2 with cap := { c2.cap with speed := some { tach := tach, groups := ⟨a, b⟩, tuning := t.tuning } } }
  ((c3.mapControl fun k => k.putTaken { t with speed := some ⟨ra, rb⟩ }).lockNews ra).lockNews rb

/-- Whether a group's trackers read samples of the block. -/
def groupReads (t : Taken) (name : Group) : Option GroupSpeed → Bool
  | none => false
  | some g => decide (g.hum.state ≠ .off ∨ g.bias.state ≠ .off) || t.binding && !((t.tuning.groups.get name).prefs.all (· = .tach))

/-- The samples a block's trackers read (R65, R120). -/
def speedInput (ec : ElementCapture) (u : SpeedUnit) (t : Taken) : Except Fault SpeedInput :=
  if groupReads t .a u.groups.a || groupReads t .b u.groups.b then
    match needBlock ec t.block.num, neighbour ec (t.block.num - 1) t.first with
    | .ok b, .ok p => .ok ⟨ec, p, some b⟩
    | .error e, _ => .error e
    | _, .error e => .error e
  else .ok ⟨ec, none, none⟩

/-- The first taken block the speed reference unit has not worked on (R120). -/
def Control.unspeeded (k : Control) : Option Taken := k.inFlight.find? fun t => t.speed.isNone

/-- SPEED_BLOCK: the speed reference unit works on the oldest taken block it has not worked on (R120). -/
def execSpeedBlock (s : State) : Result :=
  captureStep s fun c0 =>
    let c := c0.settleSpeed
    match c.cap.control.unspeeded, c.cap.speed with
    | some t, some u =>
      match speedInput s.elements u t with
      | .error e => .error e
      | .ok i => .ok (c.workSpeed u t i)
    | _, _ => .ok c

/-! ## The events with rows of their own (log 20, log 21) -/

/-- A group's speed state changed in place. -/
def Cx.mapGroup (c : Cx) (g : Group) (f : Tach → GroupSpeed → GroupSpeed) : Cx :=
  c.mapSpeed fun u => { u with groups := u.groups.put g ((u.groups.get g).map (f u.tach)) }

/-- A due decision of one kind carried out. -/
def GroupSpeed.carryIf (g : GroupSpeed) (d : DueDecision) (tach : Tach) : GroupSpeed :=
  if g.due = some d then g.carryOut tach else g

/-- HOLDOVER_EXPIRY: the holdover has expired (R132). -/
def execHoldoverExpiry (g : Group) (s : State) : Result :=
  captureStep s fun c => .ok (c.mapGroup g fun tach x => x.carryIf .expiry tach)

/-- SOURCE_RETURN: an earlier source has been LOCKED for sixteen blocks (R134). -/
def execSourceReturn (g : Group) (s : State) : Result :=
  captureStep s fun c => .ok (c.mapGroup g fun tach x => x.carryIf .sourceReturn tach)

/-- HUM_TIMEOUT: no crossing for more than three periods (R126). -/
def execHumTimeout (g : Group) (s : State) : Result :=
  captureStep s fun c => .ok (c.mapSpeed fun u =>
    { u with groups := u.groups.put g ((u.groups.get g).map fun x =>
        { x with hum := x.hum.checkTimeout (humPeriod (u.tuning.groups.get g)) }) })

/-- HUM_MISS_LIMIT: the third consecutive miss (R126). -/
def execHumMissLimit (g : Group) (s : State) : Result :=
  captureStep s fun c => .ok (c.mapGroup g fun _ x => { x with hum := x.hum.checkMisses })

/-- Whether a SOURCE order waits. -/
def SourceRun.isWaiting (r : SourceRun) : Bool :=
  match r.phase with
  | .waiting _ => true
  | .probation _ _ _ => false

/-- NOT_LOCKED: a waiting order's count has reached its timeout (R139). -/
def execNotLocked (g : Group) (s : State) : Result :=
  captureStep s fun c =>
    .ok (if ((c.cap.control.sources.get g).map SourceRun.isWaiting).getD false then c.settleSource g else c)

/-- PROBATION_COMPLETE: the probation count has reached 8 with the target LOCKED throughout (R140). -/
def execProbationComplete (g : Group) (s : State) : Result :=
  captureStep s fun c =>
    .ok (if ((c.cap.control.sources.get g).map SourceRun.isWaiting).getD true then c else c.settleSource g)

/-! ## Start (R119) -/

/-- A group as a capture leaves ARMED (R119, R130). -/
def GroupSpeed.start (t : GroupTuning) : GroupSpeed :=
  { hum := Hum.fresh (if Source.hum ∈ t.prefs then .acquiring else .off) 0
    bias := Bias.fresh (if Source.bias ∈ t.prefs then .acquiring else .off)
    state := .freeRun, active := none, prefs := t.prefs, held := Config.unity, counter := 0, nextState := .freeRun,
    nextActive := none, due := none }

/-- The unit as a capture leaves ARMED; `nc` is the Nc of the record of capture block 0 (R119). -/
def SpeedUnit.start (p : CaptureParams) (t : Tuning) (nc : Nat) : SpeedUnit :=
  let group := fun (g : Group) => if groupActive p g then some (GroupSpeed.start (t.groups.get g)) else none
  { tach := { state := if 0 < nc then .acquiring else .off, window := [], lockedRun := 0 }
    groups := ⟨group .a, group .b⟩, tuning := t }

end Sys2Proof.Machine
end

