-- ==== Sys2Proof/Machine/Resample.lean ====
section
/-! DEFINITION. The resampler of a group (08). -/

namespace Sys2Proof.Machine

/-! ## Reading an element (R147 to R150) -/

/-- A tap, numbered from the block's first sample; outside the continuity's blocks it is edge-held (R148). -/
def SkewInput.tap (i : SkewInput) (e : Nat) (m : Int) : Int :=
  let entry := tableEntry i.elements.table e
  let read := fun (b : HistBlock) (k : Int) => trim entry (((b.samples.getD e []).getD k.toNat 0).toInt)
  let size : Int := Config.blockSamples
  if m < 0 then
    match i.before with
    | none => read i.block 0
    | some b => read b (size + m)
  else if m < size then read i.block m
  else
    match i.after with
    | none => read i.block (size - 1)
    | some b => read b (m - size)

/-- The coefficients h(−1), h(1), h(2) of a phase (R149). -/
def tapBefore (phi : Int) : Int := roundDiv (-phi * (phi - 64) * (phi - 128)) 96
def tapAfter (phi : Int) : Int := roundDiv (-(phi + 64) * phi * (phi - 128)) 32
def tapLast (phi : Int) : Int := roundDiv ((phi + 64) * phi * (phi - 64)) 96

/-- The coefficient h(0): the four sum to 16,384 (R149). -/
def tapAt (phi : Int) : Int := 16384 - tapBefore phi - tapAfter phi - tapLast phi

/-- Sample number and phase of an element position; a fraction that rounds to 64 carries (R147). -/
def sampleAndPhase (pe : Int) : Int × Int :=
  let n := pe / (Config.unity : Int)
  let phi := roundUpDiv (pe % (Config.unity : Int)).toNat 65536
  if phi = 64 then (n + 1, 0) else (n, phi)

/-- The interpolated value of an element at a position with 22 fraction bits, counted from the block's first sample (R147,
R150). -/
def SkewInput.read (i : SkewInput) (e : Nat) (pos d : Int) : Int :=
  let (n, phi) := sampleAndPhase (pos + d * 65536)
  let y := i.tap e
  saturate24 (roundDiv (tapBefore phi * y (n - 1) + tapAt phi * y n + tapAfter phi * y (n + 1) + tapLast phi * y (n + 2)) 16384)

/-! ## Lane values and frames (R151 to R158) -/

/-- One lane of the group as the block is resampled. -/
structure LaneInput where
  lane : LaneNo
  entry : LaneEntry
  segs : List SegInfo
  skews : List Int
  deriving DecidableEq, Repr

/-- What resampling a block of a group needs. -/
structure GroupInput where
  reads : SkewInput
  lanes : List LaneInput
  idx : Nat
  position : Word
  q : Nat
  last : Nat
  step : Nat
  format : Format
  deriving DecidableEq, Repr

/-- What the lane monitor handed for a segment of a lane. -/
def LaneInput.seg (l : LaneInput) (j : Nat) : SegInfo := l.segs.getD j ⟨.clean, [], none⟩

/-- The lane value: the rounded mean over the combining set (R151). -/
def GroupInput.laneValue (i : GroupInput) (l : LaneInput) (set : List Nat) (pos : Int) : Int :=
  roundDiv (sumInt (set.map fun e => i.reads.read e pos (l.skews.getD (e - l.entry.first) 0))) set.length

/-- Mark and finality of a class (R152, R153). A void sample without a verdict is pending with its weak value. -/
def classMark : SegClass → Mark × Bool
  | .clean => (.clean, true)
  | .spare => (.spare, true)
  | .void weak => (.weak, weak)

/-- A lane's part of a frame (R151 to R153). -/
def GroupInput.laneVal (i : GroupInput) (j : Nat) (pos : Int) (l : LaneInput) : LaneVal :=
  let s := l.seg j
  let (m, final) := classMark s.cls
  ⟨l.lane, i.laneValue l s.set pos, m, final⟩

/-- A WIDE output word (R157). -/
def LaneVal.wide (v : LaneVal) : Word := word (256 * signedBits 24 v.value + markCode v.mark)

/-- A lane value reduced to 16 bits (R158). -/
def LaneVal.narrow (v : LaneVal) : Nat := signedBits 16 (saturate16 (roundDiv v.value 256))

/-- The words of a frame in the group's format (R157, R158). -/
def frameWords (f : Format) (vals : List LaneVal) : List Word :=
  if f.paired then
    match vals with
    | [lo, hi] => if f.swap then [word (hi.narrow + 65536 * lo.narrow)] else [word (lo.narrow + 65536 * hi.narrow)]
    | _ => vals.map LaneVal.wide
  else vals.map LaneVal.wide

/-- A frame handed to the output writer (R159). -/
def BufFrame.release (b : BufFrame) (f : Format) : Frame := ⟨word b.count, b.block, b.position, frameWords f b.vals⟩

/-- A frame is final when every lane value in it is (R155). -/
def BufFrame.final (b : BufFrame) : Bool := b.vals.all LaneVal.final

/-! ## Verdicts (R153, R154) -/

/-- A pending value changed by a rule for its lane. -/
def BufFrame.settle (b : BufFrame) (lane : LaneNo) (f : LaneVal → LaneVal) : BufFrame :=
  { b with vals := b.vals.map fun v => if v.lane = lane ∧ v.final = false then f v else v }

/-- The verdict WEAK on a lane's pending values (R153). -/
def weakVerdict (lane : LaneNo) (buffer : List BufFrame) : List BufFrame :=
  buffer.map fun b => b.settle lane fun v => { v with mark := .weak, final := true }

/-- The bridge value of a sample (R154). -/
def bridgeValue (s : BridgeStart) (b : Int) (ib i : Nat) : Int :=
  s.value + roundDiv ((b - s.value) * ((i - s.count : Nat) : Int)) (ib - s.count)

/-- The verdict BRIDGED on a lane's pending values; the bridge end is the value placed with count `ib` (R153, R154). -/
def bridgeVerdict (lane : LaneNo) (s : BridgeStart) (b : Int) (ib : Nat) (buffer : List BufFrame) : List BufFrame :=
  buffer.map fun f => f.settle lane fun v => { v with value := bridgeValue s b ib f.count, mark := .bridged, final := true }

/-- The verdict that a segment gives on a lane, applied with its first output sample (R153). -/
def applyVerdict (starts : Vector (Option BridgeStart) 4) (vals : List LaneVal) (count j : Nat) (buffer : List BufFrame)
    (l : LaneInput) : List BufFrame :=
  match (l.seg j).settles with
  | none => buffer
  | some .weak => weakVerdict l.lane buffer
  | some .bridged =>
    match getAt starts l.lane, vals.find? (fun v => v.lane == l.lane) with
    | some s, some v => bridgeVerdict l.lane s v.value count buffer
    | _, _ => buffer

/-- Whether a class is void. -/
def SegClass.isVoid : SegClass → Bool
  | .void _ => true
  | .clean => false
  | .spare => false

/-- The bridge starts after a sample (R143, R154). -/
def noteStarts (i : GroupInput) (vals : List LaneVal) (count j : Nat) (starts : Vector (Option BridgeStart) 4) :
    Vector (Option BridgeStart) 4 :=
  i.lanes.foldl (fun st l =>
    match vals.find? (fun v => v.lane == l.lane) with
    | none => st
    | some v => if (l.seg j).cls.isVoid then st else setAt st l.lane (some ⟨count, v.value⟩)) starts

/-! ## The block (R144 to R146, R155, R156) -/

/-- The segment ratio (R146). -/
def segmentRatio (last q j : Nat) : Nat := ((last : Int) + truncDiv (((q : Int) - last) * (j + 1)) 16).toNat

/-- A block in the course of being resampled: the resampler, the frames released, the first sample of each segment with its
count. -/
structure Resampling where
  unit : Resampler
  out : List Frame
  firsts : List (Nat × Nat)
  deriving DecidableEq, Repr

/-- Final frames at the head of the bridge buffer released (R155). -/
def Resampling.release (x : Resampling) (f : Format) : Resampling :=
  let done := x.unit.buffer.takeWhile BufFrame.final
  { x with
    unit := { x.unit with buffer := x.unit.buffer.dropWhile BufFrame.final, released := x.unit.released + done.length }
    out := x.out ++ done.map fun b => b.release f }

/-- One output sample placed at P, in segment `j`; `opens` says that it is the segment's first (R145, R151 to R156). -/
def Resampling.place (i : GroupInput) (x : Resampling) (pos : Int) (j : Nat) (opens : Bool) : Resampling :=
  let r := x.unit
  let vals := i.lanes.map (i.laneVal j pos)
  let buffer := if opens then i.lanes.foldl (applyVerdict r.starts vals r.next j) r.buffer else r.buffer
  let x1 : Resampling :=
    { unit := { r with
        buffer := buffer ++ [⟨r.next, i.idx, i.position, vals⟩]
        starts := noteStarts i vals r.next j r.starts
        next := r.next + 1
        pos := r.pos + i.step * segmentRatio i.last i.q j }
      out := x.out
      firsts := if opens then x.firsts ++ [(16 * i.idx + j, r.next)] else x.firsts }
  x1.release i.format

/-- Samples placed while P lies in the block; `seg` is the segment of the sample before. The bound exceeds the number of
samples of a block, at most 1,098 (R145). -/
def Resampling.run (i : GroupInput) (x : Resampling) (seg : Option Nat) : Nat → Resampling
  | 0 => x
  | fuel + 1 =>
    let origin := Config.blockSamples * x.unit.blocks
    let n := x.unit.pos / Config.unity - origin
    if n < Config.blockSamples then
      let j := n / Config.segmentSamples
      let pos : Int := (x.unit.pos : Int) - (origin * Config.unity : Nat)
      (x.place i pos j (decide (seg ≠ some j))).run i (some j) fuel
    else x

/-- The flush after a final block's last sample: WEAK for what is pending, everything released, the continuity's state
forgotten (R160). -/
def Resampling.flush (x : Resampling) (i : GroupInput) : Resampling :=
  let buffer := i.lanes.foldl (fun b l => weakVerdict l.lane b) x.unit.buffer
  let x1 := ({ x with unit := { x.unit with buffer := buffer } } : Resampling).release i.format
  { x1 with unit := { x1.unit with pos := 0, lastQ := none, blocks := 0, starts := Vector.replicate 4 none } }

/-- The resampler at the first block of a continuity (R143, R161). -/
def Resampler.restart (r : Resampler) : Resampler :=
  { r with pos := 0, lastQ := none, blocks := 0, starts := Vector.replicate 4 none }

/-- A block resampled (R144, R145, R160). -/
def Resampler.block (r : Resampler) (i : GroupInput) (final : Bool) : Resampling :=
  let x := Resampling.run i { unit := r, out := [], firsts := [] } none 1100
  if final then x.flush i
  else { x with unit := { x.unit with lastQ := some i.q, blocks := x.unit.blocks + 1 } }

/-! ## What the lane monitor learns (R100, R156) -/

/-- A dropout told the first sample of a segment (R100). -/
def Dropout.note (d : Dropout) (seg count : Nat) : Dropout :=
  if d.firstOut = none ∧ d.opening ≤ seg then { d with firstOut := some count } else d

/-- The length of a record, 4,294,967,295 at most (R100). -/
def dropoutLength (first next : Nat) : Nat := min max32 (next - first)

/-- A closed record told the first sample of a segment (R100). -/
def ClosedDropout.note (d : ClosedDropout) (seg count : Nat) : ClosedDropout :=
  let d1 := { d with drop := d.drop.note seg count }
  match d.length, d.closing with
  | none, some c => if c ≤ seg then { d1 with length := some (dropoutLength (d1.drop.firstOut.getD count) count) } else d1
  | _, _ => d1

/-- A closed record told that the final block's last sample is placed (R100, R160). -/
def ClosedDropout.noteEnd (d : ClosedDropout) (idx next : Nat) : ClosedDropout :=
  if d.length = none ∧ d.closing = none ∧ d.finalBlock = idx then
    { d with length := some (dropoutLength (d.drop.firstOut.getD next) next) }
  else d

/-- A lane's open dropout told the first sample of a segment. -/
def LaneState.note (seg count : Nat) (l : LaneState) : LaneState :=
  { l with dropout := l.dropout.map fun d => d.note seg count }

/-- The lane monitor told the first sample of a segment of a group's lanes (R156). -/
def LaneMonitor.note (lanes : List LaneNo) (m : LaneMonitor) (f : Nat × Nat) : LaneMonitor :=
  { m with
    lanes := Vector.ofFn fun (n : LaneNo) =>
      if n ∈ lanes then (getAt m.lanes n).map (LaneState.note f.1 f.2) else getAt m.lanes n
    closed := m.closed.map fun d => if d.lane ∈ lanes then d.note f.1 f.2 else d }

/-- The lane monitor told the end of a flush (R156, R160). -/
def LaneMonitor.noteEnd (lanes : List LaneNo) (m : LaneMonitor) (idx next : Nat) : LaneMonitor :=
  { m with closed := m.closed.map fun d => if d.lane ∈ lanes then d.noteEnd idx next else d }

/-! ## The command -/

/-- The group's lanes with what the other units handed for the block. -/
def laneInputs (p : CaptureParams) (g : Group) (js : Judgements) (ks : Vector (Option SkewReport) 4) : List LaneInput :=
  (groupLanes p g).filterMap fun lane =>
    match getAt js lane, getAt ks lane with
    | some j, some k => some ⟨lane, getAt p.lanes lane, j.segs, k.skews⟩
    | _, _ => none

/-- The first taken block a group's resampler has not processed (R144). -/
def Control.unresampled (k : Control) (g : Group) : Option Taken := k.inFlight.find? fun t => (t.resampled.get g).isNone

/-- Whether a group has flushed the capture's final block: in STOPPING no block is left to take, and none it has taken is left
to resample (R143, R160). -/
def Control.flushed (k : Control) (g : Group) : Bool :=
  decide (k.state = .stopping) && k.toTake.isEmpty && k.candidate.isNone && decide (k.cancelLeft = 0) && (k.unresampled g).isNone

/-- A group's resampler discarded once the flush of the capture's final block is done; the flush of a pause is that flush when
the capture ends without another block (R143, R176). -/
def Cx.dropFlushed (c : Cx) (g : Group) : Cx :=
  if c.cap.control.flushed g then { c with cap := { c.cap with resamplers := c.cap.resamplers.put g none } } else c

/-- A block's frames, indices and completed records handed on; the resampler's report, and its state discarded after the
capture's final block (R143, R144, R156, R159, R102). -/
def Cx.finishResample (c : Cx) (g : Group) (t : Taken) (x : Resampling) : Cx :=
  let lanes := groupLanes c.cap.params g
  let c1 : Cx := { c with cap := { c.cap with resamplers := c.cap.resamplers.put g (some x.unit) } }
  let c2 := c1.mapMonitor fun m =>
    let m1 := x.firsts.foldl (LaneMonitor.note lanes) m
    if t.final.isSome then m1.noteEnd lanes t.idx x.unit.next else m1
  let c3 := c2.mapOut g fun o => { o with arriving := o.arriving ++ x.out }
  let report := (word x.unit.next, word x.unit.released)
  ((c3.mapControl fun k => k.putTaken { t with resampled := t.resampled.put g (some report) }).dropFlushed g).handComplete

/-- RESAMPLE_BLOCK: a group's resampler processes the oldest taken block it has not processed, once it holds classes, skews
and q (R144). -/
def execResampleBlock (g : Group) (s : State) : Result :=
  captureStep s fun c0 =>
    let c := c0.receivePeak
    match c.cap.control.unresampled g, c.cap.resamplers.get g with
    | some t, some r =>
      match t.lanes, t.skew, t.speed.bind (fun p => p.get g) with
      | some js, some ks, some report =>
        match skewInput s.elements t true with
        | .error e => .error e
        | .ok none => .ok c
        | .ok (some reads) =>
          let r0 := if t.first then r.restart else r
          let i : GroupInput :=
            { reads := reads, lanes := laneInputs c.cap.params g js ks, idx := t.idx,
              position := (t.block.record.map BlockRecord.start).getD 0, q := report.q, last := r0.lastQ.getD report.q,
              step := nominalStep c.cap.params, format := c.cap.params.formats.get g }
          .ok (c.finishResample g t (r0.block i t.final.isSome))
      | _, _, _ => .ok c
    | _, _ => .ok c

/-- A group's resampler as a capture leaves ARMED (R143). -/
def Resampler.start : Resampler :=
  { pos := 0, lastQ := none, next := 0, released := 0, blocks := 0, buffer := [], starts := Vector.replicate 4 none }

end Sys2Proof.Machine
end

