-- ==== Sys2Proof/Machine/Capture.lean ====
section
/-! DEFINITION. The capture controller (09): judging and taking blocks, processed blocks, cancel, the end of a capture; and
FOLD_BLOCK and STORE_EXCERPT, the writer's steps on taken blocks. -/

namespace Sys2Proof.Machine

/-! ## Cues (R165, R171) -/

/-- The cues from the cursor on that a position is at or past, up to the first that it is not. -/
def cuesPast (p : CaptureParams) (cursor : Nat) (pos : Word) : Nat :=
  ((p.cues.drop (cursor - 1)).takeWhile fun q => atOrPast pos q).length

/-- The progress word of the cues (11). -/
def Control.cuesWord (k : Control) : Word := word (k.cuesSkipped + 256 * k.cuesReached)

/-! ## Judging (R164, R165, R172, R174 to R176) -/

/-- A decision to take a block added (R164). -/
def Cx.decideTake (c : Cx) (r : TakeRequest) : Cx := c.mapControl fun k => { k with toTake := k.toTake ++ [r] }

/-- Whether a block's record reaches the stop position (R172). -/
def stopReached (p : CaptureParams) (b : StreamBlock) : Bool :=
  match p.stop, b.record with
  | some q, some r => atOrPast r.stop q
  | _, _ => false

/-- A block made the candidate; one that reaches the stop position is taken at once as final (R172). -/
def Cx.makeCandidate (c : Cx) (r : TakeRequest) : Cx :=
  if stopReached c.cap.params r.block then
    ((c.decideTake { r with final := some .capture }).mapControl fun k =>
      { k with candidate := none, endReason := .stopPosition }).setState .stopping
  else c.mapControl fun k => { k with candidate := some r }

/-- The candidate decided for taking, final or not (R164). -/
def Cx.takeCandidate (c : Cx) (final : Option EndKind) : Cx :=
  match c.cap.control.candidate with
  | none => c
  | some r => (c.decideTake { r with final := final }).mapControl fun k => { k with candidate := none }

/-- The pending tuning put in force when its index is given (R168, R36). -/
def Control.bindTuning (k : Control) : Bool × Control :=
  match k.pending with
  | none => (false, k)
  | some p =>
    if p.idx = k.nextIdx then
      (true, { k with tuning := p.tuning, pending := none, reached := k.reached ++ [(p.slot, p.idx)] })
    else (false, k)

/-- The tuning that will be in force for the next block taken (R165, R168). -/
def Control.nextTuning (k : Control) : Tuning := k.bindTuning.2.tuning

/-- The units' capture state created from the tuning that will be in force for block 0 (R165, R105, R107, R119, R143). -/
def Capture.createUnits (cap : Capture) (table : Vector CalEntry 16) (nc : Nat) : Capture :=
  let t := cap.control.nextTuning
  let p := cap.params
  let resampler := fun (g : Group) => if groupActive p g then some Resampler.start else none
  { cap with
    monitor := some (LaneMonitor.start p)
    skew := seedLanes table p t
    speed := some (SpeedUnit.start p t nc)
    resamplers := ⟨resampler .a, resampler .b⟩ }

/-- The seeds and speed groups follow the tuning that will be in force for block 0 as long as that block is not taken, so that a
RETUNE cancelled or superseded before leaves nothing behind (R36, R37, R165; log 60). In ARMED there is nothing to follow. -/
def Capture.followTuning (cap : Capture) (table : Vector CalEntry 16) : Capture :=
  match cap.speed with
  | none => cap
  | some u =>
    if cap.control.nextIdx = 0 then
      let t := cap.control.nextTuning
      { cap with
        skew := seedLanes table cap.params t
        speed := some { SpeedUnit.start cap.params t 0 with tach := u.tach } }
    else cap

/-- The pending RETUNE of a capture's controller replaced, the units following (R36, R37; log 60). -/
def Cx.setPendingTuning (c : Cx) (table : Vector CalEntry 16) (p : Option PendingTuning) : Cx :=
  let c1 := c.mapControl fun k => { k with pending := p }
  { c1 with cap := c1.cap.followTuning table }

/-- A block that meets the start condition takes the capture out of ARMED (R165). -/
def Cx.startCapture (c : Cx) (ec : ElementCapture) (b : StreamBlock) (r : BlockRecord) : Cx :=
  let skipped := cuesPast c.cap.params c.cap.control.cueCursor r.start
  let c1 := c.mapControl fun k =>
    { k with highWater := r.start, cueCursor := k.cueCursor + skipped, cuesSkipped := k.cuesSkipped + skipped }
  let c2 := ((((c1.progress 0x50 (ec.generation.setWidth 32)).progress 0x30 b.num).progress 0x34 r.start).progress 0x54
    c1.cap.control.cuesWord).progress 0x3C r.start
  let c3 := c2.setState .running
  let c4 : Cx := { c3 with cap := c3.cap.createUnits ec.table r.nc }
  c4.makeCandidate ⟨b, true, false, none⟩

/-- Whether a block meets the start condition (R165). -/
def meetsStart (p : CaptureParams) (r : BlockRecord) : Bool :=
  r.driven && match p.start with
    | none => true
    | some q => atOrPast r.start q

/-- The high-water position that a resumption is judged against: while blocks are still in processing, the end of the last
one (R175). -/
def Control.resumeFrom (k : Control) : Word :=
  match k.toTake.getLast?, k.inFlight.getLast? with
  | some r, _ => (r.block.record.map BlockRecord.stop).getD k.highWater
  | none, some t => (t.block.record.map BlockRecord.stop).getD k.highWater
  | none, none => k.highWater

/-- An undriven block in RUNNING pauses the capture (R174). -/
def Cx.pause (c : Cx) : Cx :=
  let n := satInc 65535 c.cap.control.pauses
  (((c.takeCandidate (some .pause)).mapControl fun k => { k with pauses := n }).progress 0x58 (word n)).setState .paused

/-- A block that completed before a cancel of a RUNNING capture: driven, it takes the candidate's place and is final when it
is the last such block or reaches the stop position; undriven, the candidate is final (R176; log 22). -/
def Cx.judgeCancelled (c : Cx) (b : StreamBlock) : Cx :=
  let left := c.cap.control.cancelLeft
  if left = 0 then c
  else if ((b.record.map BlockRecord.driven).getD false) = false then
    (c.takeCandidate (some .capture)).mapControl fun k => { k with cancelLeft := 0 }
  else
    let c1 := (c.takeCandidate none).mapControl fun k => { k with candidate := some ⟨b, false, false, none⟩, cancelLeft := left - 1 }
    if left = 1 ∨ stopReached c.cap.params b then
      (c1.takeCandidate (some .capture)).mapControl fun k => { k with cancelLeft := 0 }
    else c1

/-- A block judged by the capture state (R164). -/
def Cx.judge (c : Cx) (ec : ElementCapture) (b : StreamBlock) : Cx :=
  match c.cap.control.state, b.record with
  | .stopping, _ => c.judgeCancelled b
  | .armed, some r => if meetsStart c.cap.params r then c.startCapture ec b r else c
  | .running, some r =>
    if r.driven then (c.takeCandidate none).makeCandidate ⟨b, false, false, none⟩ else c.pause
  | .running, none => c.pause
  | .paused, some r =>
    if r.driven && atOrPast r.start c.cap.control.resumeFrom then
      (c.setState .running).makeCandidate ⟨b, true, true, none⟩
    else c
  | .armed, none => c
  | .paused, none => c

/-- The judged block's end position as the current capstan position (R164). A block without a record leaves the word (DESIGN
CHOICE, log 50). -/
def Cx.writePosition (c : Cx) (b : StreamBlock) : Cx :=
  match b.record with
  | none => c
  | some r => c.progress 0x38 r.stop

/-- JUDGE_BLOCK: the oldest completed block, with its record, judged for the capture (R164). -/
def execJudgeBlock (s : State) : Result :=
  engineStep s fun s =>
    match s.capture, s.reports with
    | some cap, b :: rest =>
      let c : Cx := ⟨s.hub, cap⟩
      .next { s.setCx ((c.judge s.elements b).writePosition b) with reports := rest }
    | _, _ => .next s

/-! ## Taking (R166 to R168, R170, R171) -/

/-- The lanes with a clipped sample in a watched element (R67, R170). -/
def clippedLanes (table : Vector CalEntry 16) (p : CaptureParams) (t : Tuning) (clips : List Nat) : List LaneNo :=
  (activeLanes p).filter fun l => (watchedElements table (getAt p.lanes l) (getAt t.lanes l)).any fun e => decide (0 < clips.getD e 0)

/-- A block given the next capture block index and handed to the units (R166, R168, R170, R171). Past 4,294,967,295 the index
counts on (DESIGN CHOICE, log 47). -/
def Cx.takeBlock (c : Cx) (table : Vector CalEntry 16) (r : TakeRequest) (rest : List TakeRequest) : Cx :=
  let (binding, k) := c.cap.control.bindTuning
  let stop := (r.block.record.map BlockRecord.stop).getD k.highWater
  let n := cuesPast c.cap.params k.cueCursor stop
  let t : Taken :=
    { idx := k.nextIdx, block := r.block, tuning := k.tuning, binding := binding, first := r.first, resumed := r.resumed,
      final := r.final, cues := List.range' k.cueCursor n, clipped := clippedLanes table c.cap.params k.tuning r.block.clips,
      lanes := none, skew := none, speed := none, resampled := ⟨none, none⟩, folded := false, processed := false }
  let k1 := { k with nextIdx := k.nextIdx + 1, toTake := rest, inFlight := k.inFlight ++ [t], cueCursor := k.cueCursor + n,
                     cuesReached := k.cuesReached + n }
  let c1 := c.setControl k1
  if n = 0 then c1 else c1.progress 0x54 k1.cuesWord

/-- TAKE_BLOCK: the oldest decision to take a block carried out, once the peak of the block taken before it has been received
(R166). -/
def execTakeBlock (s : State) : Result :=
  captureStep s fun c0 =>
    let c := c0.receivePeak
    match c.cap.control.toTake with
    | [] => .ok c
    | r :: rest => .ok (if c.cap.control.unjudged.isSome then c else c.takeBlock s.elements.table r rest)

/-! ## Processed blocks (R169) -/

/-- Whether every unit has finished with a taken block (R169). -/
def Taken.done (t : Taken) (p : CaptureParams) : Bool :=
  t.lanes.isSome && t.skew.isSome && t.speed.isSome
    && groupList.all fun g => !groupActive p g || (t.resampled.get g).isSome

/-- Blocks that are processed and folded leave the list. -/
def Control.sweep (k : Control) : Control :=
  { k with inFlight := k.inFlight.filter fun t => !(t.processed && t.folded) }

/-- A group's two progress words (R169, R180). -/
def Cx.writeCounts (c : Cx) (off : Nat) : Option (Word × Word) → Cx
  | none => c
  | some (next, released) => (c.progress off next).progress (off + 4) released

/-- RETUNEs whose binding block is `idx` reported COMPLETE (R169, R36). -/
def Cx.completeRetunes (c : Cx) (idx : Nat) : Cx :=
  let done := c.cap.control.reached.filter fun p => decide (p.2 = idx)
  let c1 := c.mapControl fun k => { k with reached := k.reached.filter fun p => decide (p.2 ≠ idx) }
  { c1 with hub := done.foldl (fun h p => h.report p.1 .complete false) c1.hub }

/-- Block k processed by the capture (R169). -/
def Cx.processed (c : Cx) (t : Taken) : Cx :=
  let stop := (t.block.record.map BlockRecord.stop).getD c.cap.control.highWater
  let n := satInc max32 c.cap.control.processed
  let counts : PerGroup (Option (Word × Word)) := ⟨t.resampled.a <|> c.cap.control.counts.a, t.resampled.b <|> c.cap.control.counts.b⟩
  let c1 := c.mapControl fun k =>
    ({ k with highWater := stop, processed := n, counts := counts }.putTaken { t with processed := true }).sweep
  let c2 := (c1.progress 0x2C (word n)).progress 0x3C stop
  ((c2.writeCounts 0x40 t.resampled.a).writeCounts 0x48 t.resampled.b).completeRetunes t.idx

/-- BLOCK_PROCESSED: every unit has finished the oldest block not yet processed (R169). -/
def execBlockProcessed (s : State) : Result :=
  captureStep s fun c0 =>
    let c := c0.receivePeak
    match c.cap.control.inFlight.find? fun t => !t.processed with
    | none => .ok c
    | some t => .ok (if t.done c.cap.params then c.processed t else c)

/-! ## The writer's steps on taken blocks (R194, R198) -/

/-- FOLD_BLOCK: the oldest block not yet folded, once its reports are there (R194) and no close of the record waits for an excerpt
(R200; log 57). -/
def execFoldBlock (s : State) : Result :=
  captureStep s fun c0 =>
    let c := c0.receivePeak
    match c.cap.control.inFlight.find? fun t => !t.folded with
    | none => .ok c
    | some t =>
      match t.lanes, t.skew, t.speed with
      | some js, some ks, some ps =>
        .ok (if c.cap.writer.closeWaits then c
          else (c.foldTaken t js ks ps).mapControl fun k => (k.putTaken { t with folded := true }).sweep)
      | _, _, _ => .ok c

/-- STORE_EXCERPT: the block the open excerpt stores next, once it is judged (R198). -/
def execStoreExcerpt (s : State) : Result :=
  captureStep s fun c0 =>
    let c := c0.receivePeak
    match c.cap.writer.excerpt, c.cap.monitor with
    | some e, some m =>
      if m.judged e.nextIdx then
        match needBlock s.elements e.nextNum with
        | .error f => .error f
        | .ok b => .ok (c.storeBlock e b m.finalIdx)
      else .ok c
    | _, _ => .ok c

/-! ## Cancel (R176) -/

/-- A cancel reported to the capture controller; `waiting` is the number of blocks completed and not yet judged. From PAUSED the
block already flushed is the capture's final one (R176, R143). -/
def Cx.cancelCapture (c : Cx) (waiting : Nat) : Cx :=
  let stop := fun (c : Cx) => (c.mapControl fun k => { k with endReason := .cancel }).setState .stopping
  match c.cap.control.state with
  | .armed => stop c
  | .paused => ((stop c).dropFlushed .a).dropFlushed .b
  | .stopping => c
  | .running =>
    if waiting = 0 then stop (c.takeCandidate (some .capture))
    else (stop c).mapControl fun k => { k with cancelLeft := waiting }

/-! ## The end of a capture (R178) -/

/-- A group's SOURCE order ended CAPTURE_ENDED (R141). -/
def Cx.endSourceAtStop (c : Cx) (g : Group) : Cx :=
  match c.cap.control.sources.get g with
  | none => c
  | some r => (c.writeProbation r).endSource g r .captureEnded false

/-- A pending tuning's RETUNE ended CAPTURE_ENDED (R168). -/
def Cx.endPending (c : Cx) : Cx :=
  match c.cap.control.pending with
  | none => c
  | some p =>
    let c1 : Cx := { c with hub := c.hub.report p.slot .captureEnded false }
    c1.mapControl fun k => { k with pending := none }

/-- The final progress values and the end reason; the groups' counts are those of the block processed last (R178 step 4, R180).
-/
def Cx.writeFinal (c : Cx) : Cx :=
  let k := c.cap.control
  let c1 := ((c.progress 0x20 (word (runStateCode k.state))).progress 0x2C (word k.processed)).progress 0x3C k.highWater
  let c2 := (c1.writeCounts 0x40 k.counts.a).writeCounts 0x48 k.counts.b
  ((c2.progress 0x54 k.cuesWord).progress 0x58 (word k.pauses)).progress 0x24 (word (endReasonCode k.endReason))

/-- Whether nothing of the capture is left to do before its end work (R178 step 1). -/
def Capture.idle (cap : Capture) : Bool :=
  let k := cap.control
  let w := cap.writer
  decide (k.state = .stopping) && !k.ended && k.toTake.isEmpty && k.candidate.isNone && decide (k.cancelLeft = 0)
    && k.inFlight.isEmpty && k.peak.isNone && w.groups.a.arriving.isEmpty && w.groups.b.arriving.isEmpty && w.handed.isEmpty
    && w.excerpt.isNone

/-- The units' capture state discarded, at the end of the capture for lane monitor, skew estimator and speed reference unit alike
(R105, R106, R118, R142; that it stays until CAPTURE_STOP, DESIGN CHOICE, log 66). A group's resampler is gone already where a
block was flushed (R143). -/
def Capture.dropUnits (cap : Capture) : Capture :=
  { cap with monitor := none, skew := Vector.replicate 4 none, speed := none, resamplers := ⟨none, none⟩ }

/-- The outcome of a capture that ended (R178 step 5): the flag marks a cancel's own effect. -/
def Cx.reportEnd (c : Cx) : Cx :=
  let own := decide (c.cap.control.endReason = .cancel)
  { c with hub := c.hub.report c.cap.slot (if own then .cancelled else .complete) own }

/-- The sequence of R178. With a SOURCE order in both groups, group A's ends first (DESIGN CHOICE, log 65). -/
def Cx.stopCapture (c : Cx) : Cx :=
  let c1 := (((c.endSourceAtStop .a).endSourceAtStop .b).endPending).endWork
  let c2 := c1.writeFinal.reportEnd
  let c3 := c2.mapControl fun k => { k with ended := true }
  { c3 with cap := c3.cap.dropUnits }

/-- CAPTURE_STOP: in STOPPING with every taken block processed, folded, placed and stored, the capture ends (R178). -/
def execCaptureStop (s : State) : Result :=
  captureStep s fun c0 =>
    let c := c0.receivePeak.settleSpeed.closeMap
    .ok (if c.cap.idle then c.stopCapture else c0)

/-! ## The start of a capture (R163, R183) -/

/-- The output writer's state at the start (R183). -/
def Writer.start (o : CaptureOrder) : Writer :=
  let group := fun (spans : List SpanDesc) =>
    ({ spans := spans, cursor := 0, filling := none, afterLoss := false, queue := [], lost := none, samplesLost := 0,
       arriving := [] } : GroupOut)
  { groups := ⟨group o.spans.a, group o.spans.b⟩, map := none, mapPending := false, closeDue := none, closeAfter := none,
    mapList := ⟨o.params.mapAddr, o.mapCapacity, 0⟩, repairList := ⟨o.params.repairAddr, o.repairCapacity, 0⟩,
    mapWritten := 0, repairWritten := 0, suppressed := 0, handed := [], holding := [], excerpts := o.excerpts,
    excerptCursor := 0, excerpt := none, skipped := 0, faultMap := false, faultRepair := false, mapDropped := false }

/-- The capture controller's state at the start (R163). The high-water position starts at 0 (DESIGN CHOICE, log 49). -/
def Control.start (o : CaptureOrder) : Control :=
  { state := .armed, candidate := none, nextIdx := 0, highWater := 0, cueCursor := 1, tuning := o.tuning, pending := none,
    reached := [], leaderRun := 0, endReason := .none, processed := 0, pauses := 0, cuesSkipped := 0, cuesReached := 0,
    counts := ⟨none, none⟩, toTake := [], cancelLeft := 0, inFlight := [], peak := none, sources := ⟨none, none⟩, ended := false }

/-- A capture as it enters ARMED (R163, R183). -/
def Capture.start (n : SlotNo) (o : CaptureOrder) : Capture :=
  { slot := n, params := o.params, control := Control.start o, monitor := none, skew := Vector.replicate 4 none, speed := none,
    resamplers := ⟨none, none⟩, writer := Writer.start o }

/-- Zero written to the written and then the released count of both list headers (R183). -/
def Port.prepareLists (p : Port) (o : CaptureOrder) : Port :=
  (((p.store (o.params.mapAddr + 4) 0).store (o.params.mapAddr + 8) 0).store (o.params.repairAddr + 4) 0).store
    (o.params.repairAddr + 8) 0

end Sys2Proof.Machine
end

