-- ==== Sys2Proof/Machine/Copy.lean ====
section
/-! DEFINITION. Copying a taken order from memory (02, R27; 11, R205). -/

namespace Sys2Proof.Machine

/-! ## Copying (R27, R205) -/

/-- A read of an order's records: it goes on over the port, and a memory fault refuses the order. -/
abbrev Copy := ExceptT RefusalCode (StateM Port)

/-- Words copied from memory (R27). -/
def copyWords (a n : Nat) : Copy (List Word) := fun p =>
  match p.readWords a n with
  | (none, p1) => (.error .memoryFault, p1)
  | (some ws, p1) => (.ok ws, p1)

/-- A record copied, or left unread where part of it lies outside the general area (R27). -/
def copyIfInside (a words : Nat) : Copy (Option (List Word)) :=
  if inGeneral a (4 * words) then do
    let ws ← copyWords a words
    return some ws
  else return none

/-- A descriptor of a copied array (11, "Span descriptors"). -/
def parseDesc (a : Nat) (ws : List Word) (i : Nat) : SpanDesc :=
  let at1 := fun off => at_ ws (32 * i + off)
  ⟨a + 32 * i, (at1 0).toNat, alignedAddr (at1 4), (at1 8).toNat⟩

/-- The descriptors of an array, or `none` where it is not read (R27). -/
def copyDescs (a count : Nat) : Copy (Option (List SpanDesc)) := do
  let ws ← copyIfInside a (8 * count)
  return ws.map fun l => (List.range count).map (parseDesc a l)

/-- The descriptors of a group's span list; a group with no active lane has none (R27). -/
def copySpans (p : CaptureParams) (g : Group) : Copy (Option (List SpanDesc)) :=
  if groupActive p g then copyDescs (p.spanAddr.get g) (p.spanCount.get g) else return some []

/-- A CAPTURE copied: block, profile, list headers, descriptors (R27, R205). -/
def copyCapture (base : Nat) : Copy CaptureCopy := do
  let w ← copyWords (base + 0x10) 1
  let block ← copyIfInside (alignedAddr (at_ w 0)) 20
  match block with
  | none => throw .badLayout
  | some ws =>
    let p := parseCaptureParams ws
    let profile ← copyIfInside p.profileAddr 16
    let map ← copyIfInside p.mapAddr 4
    let repair ← copyIfInside p.repairAddr 4
    let a ← copySpans p .a
    let b ← copySpans p .b
    let e ← if p.excerptCount = 0 then pure (some []) else copyDescs p.excerptAddr p.excerptCount
    let capacity := fun (l : Option (List Word)) => l.map fun ws => (at_ ws 0).toNat
    return { params := p, tuning := profile.map parseTuning, mapCapacity := capacity map, repairCapacity := capacity repair,
             spans := ⟨a, b⟩, excerpts := e }

/-- A SOURCE order's word (11). -/
def parseSource (w : Word) : SourceParams :=
  { group := if bit w 0 then .b else .a, target := sourceOfCode (field w 8 2), timeout := field w 16 8 }

/-- A TRANSPORT order's words; `none` where a field names no code (11). -/
def parseTransport (w0 w1 w2 : Word) : Option TransportOrder :=
  match parseDecoder w0 0, parseDecoder w0 8, parseDecoder w0 16 with
  | some c, some s, some t =>
    some { capstan := c, supply := s, takeup := t, nc := field w1 0 12, slipThreshold := field w1 16 8,
           preset := if bit w1 31 then some w2 else none }
  | _, _, _ => none

/-- The parameters of a kind copied, with its profile, headers and descriptors (R27). -/
def copyKind (base : Nat) : Kind → Copy Copied
  | .capture => do
    let c ← copyCapture base
    return .capture c
  | .calibrate => do
    let ws ← copyWords (base + 0x10) 2
    return .calibrate (parseCalibrate (at_ ws 0) (at_ ws 4))
  | .retune => do
    let ws ← copyWords (base + 0x10) 1
    let profile ← copyIfInside (alignedAddr (at_ ws 0)) 16
    return .retune (profile.map parseTuning)
  | .source => do
    let ws ← copyWords (base + 0x10) 1
    return .source (parseSource (at_ ws 0))
  | .transport => do
    let ws ← copyWords (base + 0x10) 3
    return .transport (parseTransport (at_ ws 0) (at_ ws 4) (at_ ws 8))

/-! ## The kind word and the whole copy (R27) -/

/-- The attention mask in a slot's kind word (R203). -/
def maskOf (w : Word) : BitVec 13 := w.extractLsb' 16 13

/-- What reading the kind word gives: the attention mask, and the kind or the refusal (R27). -/
def readKind (p : Port) (n : SlotNo) : BitVec 13 × Except RefusalCode Kind × Port :=
  match p.checkedRead (slotBase n + 8) with
  | (none, p1) => (BitVec.allOnes 13, .error .memoryFault, p1)
  | (some w, p1) =>
    match kindOfCode (field w 0 4) with
    | none => (maskOf w, .error .badKind, p1)
    | some k => (maskOf w, .ok k, p1)

/-- The order of a slot copied: the attention mask, what copying gave, and the port after the reads (R27, R205). -/
def Port.copyOrder (p : Port) (n : SlotNo) : BitVec 13 × CopyResult × Port :=
  match readKind p n with
  | (mask, .error e, p1) => (mask, .refused e, p1)
  | (mask, .ok k, p1) =>
    match (copyKind (slotBase n) k).run.run p1 with
    | (.error e, p2) => (mask, .refused e, p2)
    | (.ok c, p2) => (mask, .copied c, p2)

end Sys2Proof.Machine
end

