-- ==== Sys2Proof/Machine/Orders.lean ====
section
/-! DEFINITION. The order unit's taking, starting, finishing and warm reset (02, R24, R26, R34, R35, R44). -/

namespace Sys2Proof.Machine

/-! ## Taking (R26, R21, R204) -/

/-- The engine-written words of a slot cleared (R21, R204). -/
def Hub.clearResults (h : Hub) (n : SlotNo) : Hub :=
  let h1 := h.slotWrite n 0x0C 0
  { h1 with port := h1.port.storeWords (slotBase n + 0x20) (List.replicate 56 0) }

/-- The slots that the order unit's request may name: the head of the posting queue, and every slot that was withdrawn at the
head while the request may have stood and is posted again (R26; log 14). -/
def OrderUnit.candidates (o : OrderUnit) : List SlotNo :=
  match o.posting with
  | [] => []
  | n :: rest => n :: o.named.filter fun m => decide (m ∈ rest)

/-- The slot that the request names, with how many free values that took: where there is more than one candidate, which of
them it is is a free value (R26; log 14). -/
def OrderUnit.requested (o : OrderUnit) (free : Nat) : Option (SlotNo × Nat) :=
  match o.candidates with
  | [] => none
  | [n] => some (n, 0)
  | n :: m :: rest => some ((n :: m :: rest).getD (Config.namedSlot free % (rest.length + 2)) n, 1)

/-- A take: the slot is TAKEN and its number leaves the posting queue wherever it stands (R25). -/
def OrderUnit.take (o : OrderUnit) (n : SlotNo) : OrderUnit :=
  { (o.setState n .taken) with posting := o.posting.filter (fun m => decide (m ≠ n)), named := [] }

/-- The order of a taken slot copied: the mask of its kind word and what copying gave are held (R27). -/
def Hub.copyTaken (h : Hub) (n : SlotNo) : Hub :=
  let (mask, copy, p) := h.port.copyOrder n
  { port := p, orders := { (h.orders.setSlot n { h.orders.slot n with mask := mask }) with taking := some ⟨n, copy⟩ } }

/-- TAKE_ORDER: in READY, with no order being taken, the slot that the request names is taken, its engine-written words are
cleared, and the order is copied (R26, R27; log 13). -/
def execTakeOrder (s : State) : Result :=
  match s.orders.requested s.freeCount with
  | none => .next s
  | some (n, k) =>
    if s.port.phase = .ready ∧ s.orders.taking = none ∧ (s.orders.slot n).state = .posted then
      let h := ((⟨s.port, s.orders.take n⟩ : Hub).clearResults n).copyTaken n
      .next { s.setHub h with freeCount := s.freeCount + k }
    else .next s

/-! ## Starting a stream order (R34) -/

/-- The watched-element check of R29 for one lane. -/
def laneWatched (table : Vector CalEntry 16) (lane : LaneEntry) (t : LaneTuning) : Bool :=
  let ws := watchedElements table lane t
  !ws.isEmpty && ws.contains (anchorElement lane t)

/-- The watched-element check of R29 for the active lanes of a capture. -/
def allWatched (table : Vector CalEntry 16) (p : CaptureParams) (t : Tuning) : Bool :=
  (activeLanes p).all fun l => laneWatched table (getAt p.lanes l) (getAt t.lanes l)

/-- The head of the run queue leaves it with the slot RUNNING. -/
def OrderUnit.startHead (o : OrderUnit) (n : SlotNo) (rest : List (SlotNo × StreamOrder)) : OrderUnit :=
  { (o.setState n .running) with runQueue := rest }

/-- The head of the run queue leaves it refused: its end is reported with BAD_PROFILE (R34). -/
def OrderUnit.refuseHead (o : OrderUnit) (n : SlotNo) (rest : List (SlotNo × StreamOrder)) : OrderUnit :=
  { o with runQueue := rest, ends := o.ends ++ [⟨n, .refused, .badProfile, false⟩] }

/-- Whether a head refused by the re-check is not yet DONE; the new head is considered after it (R34). -/
def OrderUnit.refusing (o : OrderUnit) : Bool := o.ends.any fun e => decide (e.outcome = .refused)

/-- START_STREAM_ORDER: in READY, with no stream order RUNNING or STOPPING, none refused and still on its way to DONE, and no
TRANSPORT pending, the head of the run queue is re-checked and started (R34). -/
def execStartStreamOrder (s : State) : Result :=
  match s.orders.runQueue with
  | [] => .next s
  | (n, order) :: rest =>
    if s.port.phase = .ready ∧ streamBusy s.orders = false ∧ s.orders.refusing = false ∧ transportBusy s.orders = false
        ∧ (s.orders.slot n).state = .taken then
      match order with
      | .capture o =>
        if allWatched s.elements.table o.params o.tuning then
          .next { s with orders := s.orders.startHead n rest, port := s.port.prepareLists o, capture := some (Capture.start n o),
                         reports := [] }
        else .next { s with orders := s.orders.refuseHead n rest }
      | .calibrate o =>
        .next { s with orders := s.orders.startHead n rest, calibration := some (CalRun.start n o), reports := [] }
    else .next s

/-! ## Finishing (R24, R35, R41) -/

/-- An end report acted on by the state the slot holds: a cancel served first gives CANCEL_LATE unless the end is its own
effect; a slot that is not live leaves the report without effect (R24, R40, R41). -/
def Hub.finishReport (h : Hub) (r : EndReport) : Hub :=
  match (h.orders.slot r.slot).state with
  | .taken => h.finish r.slot r.outcome r.code false
  | .running => h.finish r.slot r.outcome r.code false
  | .stopping => h.finish r.slot r.outcome r.code (!r.own)
  | .free => h
  | .posted => h
  | .done => h

/-- The capture or CALIBRATE run of a finished slot discarded (R163). -/
def State.dropRun (s : State) (n : SlotNo) : State :=
  let isCapture := match s.capture with
    | none => false
    | some c => decide (c.slot = n)
  let isCalibration := match s.calibration with
    | none => false
    | some c => decide (c.slot = n)
  { s with
    capture := if isCapture then none else s.capture
    calibration := if isCalibration then none else s.calibration
    reports := if isCapture || isCalibration then [] else s.reports }

/-- FINISH_ORDER: the oldest end reported to the order unit is acted on (R24). -/
def execFinishOrder (s : State) : Result :=
  engineStep s fun s =>
    match s.orders.ends with
    | [] => .next s
    | r :: rest =>
      let h : Hub := ⟨s.port, { s.orders with ends := rest }⟩
      .next ((s.setHub (h.finishReport r)).dropRun r.slot)

/-! ## Warm reset (R44, R20) -/

/-- Whether a slot is TAKEN, RUNNING or STOPPING. -/
def SlotState.isLive : SlotState → Bool
  | .taken => true
  | .running => true
  | .stopping => true
  | .free => false
  | .posted => false
  | .done => false

/-- A live slot made DONE with RESET (R44). Its guard entries and watches stay until the port empties the table (R20, R202;
DEDUCED, log 52). -/
def Hub.resetSlot (h : Hub) (n : SlotNo) : Hub :=
  if (h.orders.slot n).state.isLive then h.conclude n .reset .none false else h

/-- The order unit's queues, copies and bindings after a warm reset; the posting queue rebuilt in ascending slot number (R44). -/
def OrderUnit.rebuild (o : OrderUnit) : OrderUnit :=
  { o with
    posting := slotNos.filter fun n => decide ((o.slot n).state = .posted)
    named := [], runQueue := [], taking := none, ends := [], pendingTransport := none, reachedTransport := none, resetDone := true }

/-- ORDER_RESET: the order unit's warm-reset work (R44). -/
def execOrderReset (s : State) : Result :=
  if s.port.phase = .warmReset ∧ s.orders.resetDone = false then
    let h := slotNos.foldl Hub.resetSlot s.hub
    .next (s.setHub { h with orders := h.orders.rebuild })
  else .next s

/-- WARM_RESET_END: every unit has finished; the guard table is emptied and the phase is READY (R20). -/
def execWarmResetEnd (s : State) : Result :=
  if s.port.phase = .warmReset ∧ s.orders.resetDone then
    .next { s with port := { s.port with guard := [], phase := .ready } }
  else .next s

end Sys2Proof.Machine
end

