-- ==== Sys2Proof/Machine/Validate.lean ====
section
/-! DEFINITION. Validation, refusal and acceptance of a taken order (02, R28 to R38). -/

namespace Sys2Proof.Machine

/-! ## Layout (R28) -/

/-- Whether two active lanes share an element. -/
def lanesOverlap (a b : LaneEntry) : Bool := decide (a.first < b.first + b.count ∧ b.first < a.first + a.count)

/-- Every pair of a list passes a test. -/
def allPairs {α : Type} (test : α → α → Bool) : List α → Bool
  | [] => true
  | x :: rest => rest.all (test x) && allPairs test rest

/-- A PAIRED group with active lanes has exactly two (R28). -/
def formatOk (p : CaptureParams) (g : Group) : Bool :=
  !(p.formats.get g).paired || !groupActive p g || decide ((groupLanes p g).length = 2)

/-- Cues ascending, after the start and before the stop (R28). -/
def cuesOk (p : CaptureParams) : Bool :=
  decide (p.cueCount ≤ 8)
    && (List.zipWith (fun a b => isAfter b a) p.cues (p.cues.drop 1)).all id
    && p.cues.all (fun q => match p.start with | none => true | some s => isAfter q s)
    && p.cues.all (fun q => match p.stop with | none => true | some e => isAfter e q)

/-- The layout check of a CAPTURE (R28). -/
def layoutOk (p : CaptureParams) : Bool :=
  let active := (activeLanes p).map (getAt p.lanes ·)
  decide (p.rateCode < 2) && !active.isEmpty
    && active.all (fun l => decide (1 ≤ l.count ∧ l.count ≤ 6 ∧ l.first + l.count ≤ 16))
    && allPairs (fun a b => !lanesOverlap a b) active
    && formatOk p .a && formatOk p .b
    && (match p.start, p.stop with | some s, some e => isAfter e s | _, _ => true)
    && cuesOk p

/-- The layout check of a CALIBRATE (R28). -/
def calibrateOk (o : CalibrateOrder) : Bool := decide (20 ≤ o.window ∧ o.window ≤ 6000 ∧ o.anchor ≤ 15)

/-- The layout check of a SOURCE (R28). -/
def sourceOk (o : SourceParams) : Bool := o.target.isSome && decide (1 ≤ o.timeout ∧ o.timeout ≤ 255)

/-- The layout check of a TRANSPORT (R28). -/
def transportOk (o : TransportOrder) : Bool := decide (o.nc ≤ 4095 ∧ 5 ≤ o.slipThreshold ∧ o.slipThreshold ≤ 200)

/-! ## Profile (R29) -/

/-- One lane of a profile (R29). -/
def laneTuningOk (table : Vector CalEntry 16) (lane : LaneEntry) (t : LaneTuning) : Bool :=
  decide (t.watch.toNat < 2 ^ lane.count) && decide (t.anchor < lane.count) && t.watch.getLsbD t.anchor
    && laneWatched table lane t

/-- No source stands twice. -/
def distinct : List Source → Bool
  | [] => true
  | s :: rest => !rest.contains s && distinct rest

/-- Whether a lane is an active lane of a group. -/
def isLaneOf (p : CaptureParams) (g : Group) (lane : LaneNo) : Bool :=
  (getAt p.lanes lane).active && decide ((getAt p.lanes lane).group = g)

/-- One group of a profile (R29). -/
def groupTuningOk (p : CaptureParams) (g : Group) (t : GroupTuning) : Bool :=
  !t.prefs.isEmpty && distinct t.prefs && decide (t.holdover ≤ 255)
    && (!t.prefs.contains .hum || isLaneOf p g t.humLane)
    && (!t.prefs.contains .bias || (decide (40000 ≤ t.biasNominal ∧ t.biasNominal ≤ 160000) && isLaneOf p g t.biasLane))

/-- The part of a profile that is of no lane or group (R29). -/
def commonTuningOk (t : Tuning) : Bool :=
  decide (2 ≤ t.sp ∧ t.sp ≤ 5 ∧ t.qf ≤ 8388607 ∧ t.bl ≤ 8 ∧ t.ss ≤ 4 ∧ t.leaderFloor ≤ 8388607
    ∧ (t.leaderTime = 0 ∨ (10 ≤ t.leaderTime ∧ t.leaderTime ≤ 500)) ∧ 1 ≤ t.nd ∧ t.nd ≤ 100)

/-- The profile check against a lane layout, where there is one (R29; log 17). -/
def profileOk (table : Vector CalEntry 16) (p : Option CaptureParams) (t : Tuning) : Bool :=
  commonTuningOk t && match p with
    | none => true
    | some p =>
      (activeLanes p).all (fun l => laneTuningOk table (getAt p.lanes l) (getAt t.lanes l))
        && groupList.all fun g => !groupActive p g || groupTuningOk p g (t.groups.get g)

/-! ## Lists (R30) -/

/-- Two ranges of memory share no byte. -/
def apart (x y : Nat × Nat) : Bool := decide (x.1 + x.2 ≤ y.1 ∨ y.1 + y.2 ≤ x.1)

/-- An audio span (R30). -/
def audioSpanOk (size : Nat) (d : SpanDesc) : Bool :=
  inGeneral d.buffer d.capacity && decide (4096 ≤ d.capacity ∧ d.capacity ≤ 1048576 ∧ d.capacity % size = 0)

/-- An excerpt span (R30). -/
def excerptSpanOk (d : SpanDesc) : Bool :=
  inGeneral d.buffer d.capacity && decide (15424 ≤ d.capacity ∧ d.capacity % 4 = 0)

/-- A copied descriptor state that passes: EMPTY or FULL (R30). -/
def stateOk (d : SpanDesc) : Bool := decide (d.held = 0 ∨ d.held = 2)

/-- A record list: capacity in range, header and records in the general area (R30). -/
def recordListOk (addr size capacity : Nat) : Bool :=
  decide (4 ≤ capacity ∧ capacity ≤ 4096) && inGeneral addr (16 + size * capacity)

/-- The ranges an order names: descriptor arrays, list headers, record areas, span buffers. -/
def captureRanges (p : CaptureParams) (mapCap repairCap : Nat) (a b e : List SpanDesc) : List (Nat × Nat) :=
  let array := fun (addr : Nat) (l : List SpanDesc) => if l.isEmpty then [] else [(addr, 32 * l.length)]
  array p.spanAddr.a a ++ array p.spanAddr.b b ++ array p.excerptAddr e
    ++ [(p.mapAddr, 16), (p.repairAddr, 16), (p.mapAddr + 16, 64 * mapCap), (p.repairAddr + 16, 32 * repairCap)]
    ++ (a ++ b ++ e).map fun d => (d.buffer, d.capacity)

/-- A group's span count (R30). -/
def spanCountOk (p : CaptureParams) (g : Group) : Bool :=
  !groupActive p g || decide (2 ≤ p.spanCount.get g ∧ p.spanCount.get g ≤ 64)

/-- The list check of a CAPTURE: the accepted copy, or `none` for BAD_LIST (R30). -/
def checkLists (c : CaptureCopy) (t : Tuning) : Option CaptureOrder :=
  match c.spans.a, c.spans.b, c.excerpts, c.mapCapacity, c.repairCapacity with
  | some a, some b, some e, some m, some r =>
    let p := c.params
    if spanCountOk p .a && spanCountOk p .b && decide (p.excerptCount ≤ 16)
        && a.all (audioSpanOk (frameSize p .a)) && b.all (audioSpanOk (frameSize p .b)) && e.all excerptSpanOk
        && (a ++ b ++ e).all stateOk && recordListOk p.mapAddr 64 m && recordListOk p.repairAddr 32 r
        && allPairs apart (captureRanges p m r a b e)
    then some { params := p, tuning := t, mapCapacity := m, repairCapacity := r, spans := ⟨a, b⟩, excerpts := e }
    else none
  | _, _, _, _, _ => none

/-! ## Context (R31) -/

/-- An order that has passed R28 to R30. -/
inductive Checked where
  | capture (o : CaptureOrder)
  | calibrate (o : CalibrateOrder)
  | retune (t : Tuning)
  | source (group : Group) (target : Source) (timeout : Nat)
  | transport (o : TransportOrder)
  deriving DecidableEq, Repr

/-- The capture in ARMED, RUNNING or PAUSED, if there is one (R31, R179). -/
def openCapture (c : Option Capture) : Option Capture := c.filter fun k => decide (k.control.state ≠ .stopping)

/-- The preference list the unit holds for a group; in ARMED the list of the tuning in force (R141). -/
def heldPrefs (c : Capture) (g : Group) : List Source :=
  match c.speed with
  | none => (c.control.tuning.groups.get g).prefs
  | some u =>
    match u.groups.get g with
    | none => []
    | some x => x.prefs

/-- The list that will be in force at the next block (R31): the pending RETUNE's; else that of the newest RETUNE whose
binding block was reached and which the speed reference unit has not yet put in force (log 43); else the one it holds. -/
def nextPrefs (c : Capture) (g : Group) : List Source :=
  match c.control.pending with
  | some p => (p.tuning.groups.get g).prefs
  | none =>
    match (c.control.inFlight.filter fun t => t.binding && t.speed.isNone).getLast? with
    | some t => (t.tuning.groups.get g).prefs
    | none => heldPrefs c g

/-- The context check (R31). -/
def contextCode (s : State) : Checked → RefusalCode
  | .capture _ => if 4 ≤ s.orders.runQueue.length then .queueFull else .none
  | .calibrate _ => if 4 ≤ s.orders.runQueue.length then .queueFull else .none
  | .retune _ => if (openCapture s.capture).isNone then .noCapture else .none
  | .source g target _ =>
    match openCapture s.capture with
    | none => .noCapture
    | some c => if groupActive c.params g && (nextPrefs c g).contains target then .none else .notTracked
  | .transport _ => if streamBusy s.orders then .streamBusy else .none

/-! ## The checks in order -/

/-- R28 to R30 on a copy. A RETUNE's profile is checked against the lanes of whatever capture exists, one in STOPPING too,
to which R179 lets no RETUNE bind: BAD_PROFILE then comes before NO_CAPTURE (DESIGN CHOICE, log 61). -/
def checkCopy (s : State) : Copied → Except RefusalCode Checked
  | .capture c =>
    if layoutOk c.params = false then .error .badLayout
    else
      match c.tuning with
      | none => .error .badProfile
      | some t =>
        if profileOk s.elements.table (some c.params) t = false then .error .badProfile
        else
          match checkLists c t with
          | none => .error .badList
          | some o => .ok (.capture o)
  | .calibrate o => if calibrateOk o then .ok (.calibrate o) else .error .badLayout
  | .retune none => .error .badProfile
  | .retune (some t) =>
    if profileOk s.elements.table (s.capture.map Capture.params) t then .ok (.retune t) else .error .badProfile
  | .source o =>
    match o.target with
    | none => .error .badLayout
    | some target => if sourceOk o then .ok (.source o.group target o.timeout) else .error .badLayout
  | .transport none => .error .badLayout
  | .transport (some o) => if transportOk o then .ok (.transport o) else .error .badLayout

/-- R28 to R31 on a copy. -/
def checkOrder (s : State) (k : Copied) : Except RefusalCode Checked :=
  match checkCopy s k with
  | .error e => .error e
  | .ok c => if contextCode s c = .none then .ok c else .error (contextCode s c)

/-! ## Acceptance (R33, R36 to R38) -/

/-- The guard entries of a CAPTURE (R11). -/
def guardEntries (n : SlotNo) (o : CaptureOrder) : List GuardEntry :=
  (o.spans.a ++ o.spans.b ++ o.excerpts).map (fun d => ⟨d.addr, n, .spanState, false⟩)
    ++ [⟨o.params.mapAddr + 8, n, .released, false⟩, ⟨o.params.repairAddr + 8, n, .released, false⟩]

/-- A stream order appended to the run queue (R33). -/
def OrderUnit.enqueue (o : OrderUnit) (n : SlotNo) (k : StreamOrder) : OrderUnit := { o with runQueue := o.runQueue ++ [(n, k)] }

/-- A group's SOURCE order superseded by a newer order (R138, R141). -/
def Cx.supersedeSource (c : Cx) (g : Group) : Cx :=
  match c.cap.control.sources.get g with
  | none => c
  | some r => (c.writeProbation r).endSource g r .superseded false

/-- A group's SOURCE order superseded where a RETUNE brings another list (R141). -/
def Cx.supersedeByList (c : Cx) (t : Tuning) (g : Group) : Cx :=
  if heldPrefs c.cap g = (t.groups.get g).prefs then c else c.supersedeSource g

/-- The pending tuning superseded (R37). -/
def Cx.supersedeTuning (c : Cx) : Cx :=
  match c.cap.control.pending with
  | none => c
  | some p => { c with hub := c.hub.report p.slot .superseded false }

/-- A RETUNE bound to the next capture block index (R36, R37). In PAUSED, with the pause's final block decided and not yet taken,
that is the final block's index (DESIGN CHOICE, log 44). A superseded RETUNE is reported before the superseded
SOURCE orders, group A's before group B's (DESIGN CHOICE, log 65). -/
def Cx.acceptRetune (c : Cx) (table : Vector CalEntry 16) (n : SlotNo) (t : Tuning) : Cx :=
  let c1 := ((c.supersedeTuning).supersedeByList t .a).supersedeByList t .b
  let c2 := c1.setPendingTuning table (some ⟨n, c.cap.control.nextIdx, t⟩)
  { c2 with hub := c2.hub.slotWrite n 0x20 (word c.cap.control.nextIdx) }

/-- A SOURCE handed to the speed reference unit (R138). -/
def Cx.acceptSource (c : Cx) (n : SlotNo) (g : Group) (target : Source) (timeout : Nat) : Cx :=
  (c.supersedeSource g).setSource g (some ⟨n, target, timeout, .waiting 0, false⟩)

/-- A TRANSPORT bound to the next block to begin (R38). -/
def Hub.acceptTransport (h : Hub) (n : SlotNo) (o : TransportOrder) (block : Word) : Hub :=
  let h1 := match h.orders.pendingTransport with
    | none => h
    | some p => h.report p.slot .superseded false
  ({ h1 with orders := { h1.orders with pendingTransport := some ⟨n, block, o⟩ } } : Hub).slotWrite n 0x20 block

/-- A step on the capture, if there is one. -/
def State.onCapture (s : State) (f : Cx → Cx) : State :=
  match s.capture with
  | none => s
  | some cap => s.setCx (f ⟨s.hub, cap⟩)

/-- The kind of a checked order. -/
def Checked.kind : Checked → Kind
  | .capture _ => .capture
  | .calibrate _ => .calibrate
  | .retune _ => .retune
  | .source _ _ _ => .source
  | .transport _ => .transport

/-- A slot marked as holding a live accepted order. -/
def OrderUnit.setLive (o : OrderUnit) (n : SlotNo) (k : Kind) : OrderUnit := o.setSlot n { o.slot n with live := some k }

/-- Acceptance by kind (R33). -/
def acceptOrder (s : State) (n : SlotNo) (c : Checked) : State :=
  let s1 := { s with orders := { (s.orders.setLive n c.kind) with taking := none } }
  match c with
  | .capture o =>
    { s1 with port := { s1.port with guard := s1.port.guard ++ guardEntries n o }, orders := s1.orders.enqueue n (.capture o) }
  | .calibrate o => { s1 with orders := s1.orders.enqueue n (.calibrate o) }
  | .retune t => s1.onCapture fun x => x.acceptRetune s.elements.table n t
  | .source g target timeout => s1.onCapture fun x => x.acceptSource n g target timeout
  | .transport o => s1.setHub (s1.hub.acceptTransport n o (s1.elements.block + 1))

/-- A refusal, with CANCEL_LATE where a cancel was served meanwhile (R32). -/
def refuseOrder (s : State) (n : SlotNo) (code : RefusalCode) : State :=
  let late := decide ((s.orders.slot n).state = .stopping)
  let h := s.hub.finish n .refused code late
  s.setHub { h with orders := { h.orders with taking := none } }

/-- An order cancelled while it was validated, that would have been accepted (R32). -/
def cancelTaken (s : State) (n : SlotNo) : State :=
  let h := s.hub.finish n .cancelled .none false
  s.setHub { h with orders := { h.orders with taking := none } }

/-- A copied order checked, and refused, cancelled or accepted; one whose copying met a refusal is refused (R27, R32, R33). -/
def validateSlot (s : State) (n : SlotNo) : CopyResult → State
  | .refused e => refuseOrder s n e
  | .copied c =>
    match checkOrder s c with
    | .error e => refuseOrder s n e
    | .ok o => if (s.orders.slot n).state = .stopping then cancelTaken s n else acceptOrder s n o

/-- VALIDATE: in READY, the copy of the order being taken is validated (R27; log 13). What has come due in the speed reference
unit comes first (log 20). A slot that no longer holds TAKEN or STOPPING has no order to validate (R23). -/
def execValidate (s : State) : Result :=
  match s.orders.taking with
  | none => .next s
  | some k =>
    let st := (s.orders.slot k.slot).state
    if s.port.phase = .ready ∧ (st = .taken ∨ st = .stopping) then
      .next (validateSlot (s.onCapture Cx.settleSpeed) k.slot k.copy)
    else .next s

end Sys2Proof.Machine
end

