-- ==== Sys2Proof/Machine/WarmReset.lean ====
section
/-! DEFINITION. What a warm reset does to the work in progress (R20, R62, R81, R104, R118, R142, R162, R181, R182, R202). -/

namespace Sys2Proof.Machine

/-! ## The lane monitor (R104) -/

/-- A lane at a warm reset: a verdict WEAK for an unsettled run, an open dropout closed with CUT (R104). -/
def Cx.laneReset (c : Cx) (lane : LaneNo) : Cx :=
  match c.laneState lane with
  | none => c
  | some l =>
    let l1 := l.endNotice
    let c1 := c.setLane lane { l1 with dropout := none }
    match l1.dropout with
    | none => c1
    | some d => c1.closeDropout lane d true none ((c1.cap.monitor.bind LaneMonitor.last).map JudgedMark.idx |>.getD 0)

/-- The next index a lane's group would place. -/
def Cx.nextOut (c : Cx) (lane : LaneNo) : Nat :=
  match c.cap.resamplers.get (getAt c.cap.params.lanes lane).group with
  | none => 0
  | some r => r.next

/-- A closed record completed from the indices placed, with CUT (R104). -/
def ClosedDropout.cutShort (d : ClosedDropout) (next : Nat) : ClosedDropout :=
  match d.length with
  | some _ => d
  | none =>
    let first := d.drop.firstOut.getD next
    { d with drop := { d.drop with firstOut := some first }, cut := true, length := some (dropoutLength first next) }

/-- The lane monitor's work at a warm reset: verdicts, closings, completions, hand-off (R104). -/
def Cx.lanesReset (c : Cx) : Cx :=
  let c1 := laneNos.foldl Cx.laneReset c
  (c1.mapMonitor fun m => { m with closed := m.closed.map fun d => d.cutShort (c1.nextOut d.lane) }).handComplete

/-! ## The output writer (R182, R202) -/

/-- A FILLING span closed FULL with its fill and CUT (R182). -/
def Cx.closeCut (c : Cx) (g : Group) : Cx :=
  match (c.out g).filling with
  | none => c
  | some sp => (c.spanWrite g 0x1C (word (1 + 2 * flagBit sp.afterLoss))).closeSpan g

/-- Frames in a group's bridge buffer (R162). -/
def bridgeFrames : Option Resampler → Nat
  | none => 0
  | some r => r.buffer.length

/-- Frames released before the reset and not yet placed go on into the group's FILLING span, with nothing spilled or lost before
them; no span is opened for one (R162, R202; log 32). -/
def Cx.fillReleased (c : Cx) (g : Group) : List Frame → Cx
  | [] => c
  | f :: rest =>
    if (c.out g).queue = [] ∧ (c.out g).lost = none ∧ (c.out g).filling.isSome then
      ((c.mapOut g fun o => { o with arriving := rest }).writeFrame g f).fillReleased g rest
    else c

/-- Spill and bridge frames, and those that found no FILLING span, discarded and counted (R182; log 32). -/
def Cx.discardFrames (c : Cx) (g : Group) : Cx :=
  let k := framesIn (c.out g).queue + (c.out g).arriving.length + bridgeFrames (c.cap.resamplers.get g)
  (c.mapOut g fun o => { o with queue := [], arriving := [] }).countLost g k

/-- An open excerpt closed with CUT (R202). -/
def Cx.cutExcerpt (c : Cx) : Cx :=
  match c.cap.writer.excerpt with
  | none => c
  | some e => c.closeExcerpt e false true

/-- A repair record put into ascending sequence order. -/
def insertSeq (r : RepairRec) : List RepairRec → List RepairRec
  | [] => [r]
  | x :: rest => if r.seq ≤ x.seq then r :: x :: rest else x :: insertSeq r rest

/-- Repair records in ascending sequence order (R202). -/
def sortSeq (l : List RepairRec) : List RepairRec := l.foldr insertSeq []

/-- The output writer's work at a warm reset (R182, R202). Of two open LOST records group A's closes first and takes the lower
number (DESIGN CHOICE, log 62). -/
def Cx.writerReset (c : Cx) : Cx :=
  let c1 := (c.closeCut .a).closeCut .b
  let c2 := ((c1.discardFrames .a).discardFrames .b).cutExcerpt
  let c3 := (c2.closeLost .a true).closeLost .b true
  (c3.endRepairs (sortSeq (c3.cap.writer.holding ++ c3.cap.writer.handed))).endMap

/-- A capture at a warm reset: end reason RESET; a close of the speed map that has come due and waits for no excerpt; frames
already released; lanes; writer (R181, R195; log 20, log 32). -/
def Cx.resetCapture (c : Cx) : Cx :=
  let c1 := (c.mapControl fun k => { k with endReason := .reset }).progress 0x24 (word (endReasonCode .reset))
  let c2 := c1.closeMap
  let c3 := (c2.fillReleased .a (c2.out .a).arriving).fillReleased .b (c2.out .b).arriving
  c3.lanesReset.writerReset

/-- The units' warm-reset work; the order unit's own follows as ORDER_RESET (R20, R44, R81, R181). What has come due in the speed
reference unit and met no row of its own is dropped with the capture: the wait or probation count of such a SOURCE order is not
written (R139, R140, R142; DESIGN CHOICE, log 71), nor is a peak still on its way received (R173; DESIGN CHOICE, log 72). -/
def State.beginWarmReset (s : State) : State :=
  let s1 := { s with port := { s.port with phase := .warmReset, lastWarm := true } }
  let s2 := s1.onCapture Cx.resetCapture
  { s2 with
    port := { s2.port with notices := [] }
    orders := { s2.orders with ends := [], pendingTransport := none, reachedTransport := none, resetDone := false }
    reports := [], capture := none, calibration := none }

end Sys2Proof.Machine
end

