-- ==== Sys2Proof/Machine/HostPort.lean ====
section
/-! DEFINITION. The memory port as the host sees it (01): reads, writes routed by address, slot transitions, the RESET pin
and disturbances. -/

namespace Sys2Proof.Machine

/-! ## Reads (R2, R4, R7, R16 to R19) -/

/-- A held word or register as a host read finds it; `none` for a word of memory (R2, R16 to R18). -/
def heldWord (s : State) : Target → Option Word
  | .slotState n => some (word (slotCode (s.orders.slot n).state))
  | .news n => some ((s.orders.slot n).news.setWidth 32)
  | .summary => some s.orders.summary
  | .ident => some Config.ident
  | .status => some (statusWord s.port s.orders)
  | .control => some (controlRead s.port)
  | .unassigned => some 0
  | .memory _ => none

/-- What a read returns during COLD_INIT: IDENT and STATUS are served, everything else reads zero (R19; log 33). -/
def coldWord (s : State) : Target → Word
  | .ident => Config.ident
  | .status => statusWord s.port s.orders
  | .slotState _ => 0
  | .news _ => 0
  | .summary => 0
  | .memory _ => 0
  | .control => 0
  | .unassigned => 0

/-- A host read of a memory word: checked, the raw word where it is uncorrectable (R7). -/
def Port.hostRead (p : Port) (a : Nat) : Word × Port :=
  match p.checkedRead a with
  | (none, p1) => (readMemWord p.mem a, p1)
  | (some w, p1) => (w, p1)

/-- The word a host read finds, and the port after it. -/
def readTarget (s : State) (t : Target) : Word × Port :=
  if s.port.phase = .coldInit then (coldWord s t, s.port)
  else
    match t with
    | .memory a => s.port.hostRead a
    | .slotState n => ((heldWord s (.slotState n)).getD 0, s.port)
    | .news n => ((heldWord s (.news n)).getD 0, s.port)
    | .summary => ((heldWord s .summary).getD 0, s.port)
    | .ident => ((heldWord s .ident).getD 0, s.port)
    | .status => ((heldWord s .status).getD 0, s.port)
    | .control => ((heldWord s .control).getD 0, s.port)
    | .unassigned => ((heldWord s .unassigned).getD 0, s.port)

/-- HOST_READ: the selected bytes of the word, the other byte lanes zero (R4, R7). -/
def execHostRead (addr : Addr) (enables : BitVec 4) (s : State) : Result :=
  let (w, p) := readTarget s (targetOf addr)
  .next { s with port := { p with readData := selectBytes enables w } }

/-! ## Slot transitions (R10, R23, R25, R39, R40, R43) -/

/-- A posting (R25). -/
def OrderUnit.post (o : OrderUnit) (n : SlotNo) : OrderUnit := { (o.setState n .posted) with posting := o.posting ++ [n] }

/-- A withdrawal; at the head of the queue, with no order being taken, the unit's request may have named the slot (R25, R26;
log 14). -/
def OrderUnit.withdraw (o : OrderUnit) (n : SlotNo) : OrderUnit :=
  { (o.setState n .free) with
    posting := o.posting.filter fun m => decide (m ≠ n)
    named := if o.taking = none ∧ o.posting.head? = some n then n :: o.named.filter (fun m => decide (m ≠ n)) else o.named }

/-- A release: news word and summary bit cleared with the transition (R43). -/
def OrderUnit.release (o : OrderUnit) (n : SlotNo) : OrderUnit :=
  { (o.setSlot n { o.slot n with state := .free, news := 0 }) with summary := o.summary &&& ~~~ slotMask n }

/-- A cancel of a queued stream order, one action with the host's write (R39). -/
def Hub.cancelQueued (h : Hub) (n : SlotNo) : Hub :=
  let o := { h.orders with runQueue := h.orders.runQueue.filter fun q => decide (q.1 ≠ n) }
  ({ h with orders := o } : Hub).finish n .cancelled .none false

/-- A cancel of a CALIBRATE run that has not reached STOPPING ends it (R80). -/
def State.cancelCalibration (s : State) (n : SlotNo) : State :=
  match s.calibration with
  | none => s
  | some r =>
    if r.slot = n ∧ r.state ≠ .stopping then { s.setHub (s.hub.report n .cancelled true) with calibration := none } else s

/-- A cancel of a RETUNE whose binding block is not reached (R36, R40). -/
def Cx.cancelRetune (c : Cx) (table : Vector CalEntry 16) (n : SlotNo) : Cx :=
  match c.cap.control.pending with
  | none => c
  | some p =>
    if p.slot = n then ({ c with hub := c.hub.report n .cancelled true } : Cx).setPendingTuning table none else c

/-- A cancel of a SOURCE order of one group: waiting, CANCELLED; in probation, COMPLETE (R40, R141). -/
def Cx.cancelSource (n : SlotNo) (c : Cx) (g : Group) : Cx :=
  match c.cap.control.sources.get g with
  | none => c
  | some r =>
    if r.slot = n then
      if r.isWaiting then c.endSource g r .cancelled true else (c.writeProbation r).endSource g r .complete false
    else c

/-- A cancel of a TRANSPORT whose binding block is not reached (R38, R40). -/
def Hub.cancelTransport (h : Hub) (n : SlotNo) : Hub :=
  match h.orders.pendingTransport with
  | none => h
  | some p =>
    if p.slot = n then
      let h1 := h.report n .cancelled true
      { h1 with orders := { h1.orders with pendingTransport := none } }
    else h

/-- A cancel of the CAPTURE of a slot (R176). -/
def Cx.cancelOwn (n : SlotNo) (waiting : Nat) (c : Cx) : Cx := if c.cap.slot = n then c.cancelCapture waiting else c

/-- A cancel reported to the order unit, by the kind of the live order (R40); an order under validation is none yet (R32). -/
def State.cancelLive (s : State) (n : SlotNo) : State :=
  match (s.orders.slot n).live with
  | none => s
  | some .capture => s.onCapture (Cx.cancelOwn n s.reports.length)
  | some .calibrate => s.cancelCalibration n
  | some .retune => s.onCapture fun c => c.cancelRetune s.elements.table n
  | some .source => s.onCapture fun c => groupList.foldl (Cx.cancelSource n) c
  | some .transport => s.setHub (s.hub.cancelTransport n)

/-- A cancel (R39, R40). What has come due in the speed reference unit comes first (log 20). -/
def State.cancelSlot (s : State) (n : SlotNo) : State :=
  let s0 := s.onCapture Cx.settleSpeed
  if s0.orders.runQueue.any fun q => decide (q.1 = n) then s0.setHub (s0.hub.cancelQueued n)
  else ({ s0 with orders := s0.orders.setState n .stopping }).cancelLive n

/-- A full-word host write to a slot state word: the five allowed transitions, anything else discarded; all are discarded in
WARM_RESET (R10, R20, R23). -/
def State.writeSlotState (s : State) (n : SlotNo) (v : Word) : State :=
  if s.port.phase = .warmReset then s
  else
    match (s.orders.slot n).state with
    | .free => if v = word (slotCode .posted) then { s with orders := s.orders.post n } else s
    | .posted => if v = word (slotCode .free) then { s with orders := s.orders.withdraw n } else s
    | .taken => if v = word (slotCode .stopping) then s.cancelSlot n else s
    | .running => if v = word (slotCode .stopping) then s.cancelSlot n else s
    | .stopping => s
    | .done => if v = word (slotCode .free) then { s with orders := s.orders.release n } else s

/-! ## Writes (R4, R6, R10, R14, R18) -/

/-- Ones clear the causes of a news word (R14). -/
def OrderUnit.clearNews (o : OrderUnit) (n : SlotNo) (v : Word) : OrderUnit :=
  o.setSlot n { o.slot n with news := (o.slot n).news &&& ~~~ v.setWidth 13 }

/-- Ones clear the bits of the summary word (R14). -/
def OrderUnit.clearSummary (o : OrderUnit) (v : Word) : OrderUnit := { o with summary := o.summary &&& ~~~ v }

/-- STATUS.UNCORRECTED and CORRECTED cleared (R9). -/
def Port.clearErrors (p : Port) : Port := { p with uncorrected := false, corrected := 0 }

/-- A full-word host write to CONTROL: ATTN_EN stored, errors cleared, a warm reset begun in READY (R18). -/
def State.writeControl (s : State) (v : Word) : State :=
  let p1 := { s.port with attnEn := bit v 0 }
  let p2 := if bit v 2 then p1.clearErrors else p1
  let s1 := { s with port := p2 }
  if bit v 1 ∧ s.port.phase = .ready then s1.beginWarmReset else s1

/-- A full-word host write, routed by its address; in COLD_INIT none has an effect that outlives the clearing (R4, R19; log
5). -/
def hostWriteWord (addr : Addr) (v : Word) (s : State) : State :=
  if s.port.phase = .coldInit then s
  else
    match targetOf addr with
    | .slotState n => s.writeSlotState n v
    | .news n => { s with orders := s.orders.clearNews n v }
    | .summary => { s with orders := s.orders.clearSummary v }
    | .memory a => { s with port := s.port.memoryWrite a v }
    | .control => s.writeControl v
    | .ident => s
    | .status => s
    | .unassigned => s

/-- A host write enabling some of the four bytes (R4, R6). -/
def hostWriteBytes (addr : Addr) (enables : BitVec 4) (v : Word) (s : State) : State :=
  if enables = 0xF#4 then hostWriteWord addr v s
  else if s.port.phase = .coldInit then s
  else
    match targetOf addr with
    | .memory a => { s with port := s.port.narrowWrite a enables v }
    | .slotState _ => s
    | .news _ => s
    | .summary => s
    | .control => s
    | .ident => s
    | .status => s
    | .unassigned => s

/-- HOST_WRITE: a full-word host write (R4). -/
def execHostWrite (addr : Addr) (v : Word) (s : State) : Result := .next (hostWriteWord addr v s)

/-- HOST_NARROW_WRITE: a host write enabling fewer than four bytes (R4, R6). -/
def execHostNarrowWrite (addr : Addr) (enables : BitVec 4) (v : Word) (s : State) : Result :=
  .next (hostWriteBytes addr enables v s)

/-- POST: POSTED written to a slot's state word (R25). -/
def execPost (n : SlotNo) (s : State) : Result := .next (hostWriteWord (stateAddr n) (word (slotCode .posted)) s)

/-- WITHDRAW: FREE written to a slot's state word (R25). -/
def execWithdraw (n : SlotNo) (s : State) : Result := .next (hostWriteWord (stateAddr n) (word (slotCode .free)) s)

/-- CANCEL: STOPPING written to a slot's state word (R39, R40). -/
def execCancel (n : SlotNo) (s : State) : Result := .next (hostWriteWord (stateAddr n) (word (slotCode .stopping)) s)

/-- RELEASE: FREE written to a slot's state word (R43). -/
def execRelease (n : SlotNo) (s : State) : Result := .next (hostWriteWord (stateAddr n) (word (slotCode .free)) s)

/-- HAND_BACK_SPAN: EMPTY written to a span state word (R10). -/
def execHandBackSpan (addr : Addr) (s : State) : Result := .next (hostWriteWord addr spanEmpty s)

/-- CLEAR_NEWS: ones written to a news word (R14). -/
def execClearNews (n : SlotNo) (ones : Word) (s : State) : Result := .next (hostWriteWord (newsAddr n) ones s)

/-- CLEAR_SUMMARY: ones written to the summary word (R14). -/
def execClearSummary (ones : Word) (s : State) : Result := .next (hostWriteWord summaryAddr ones s)

/-- ATTN_EN: CONTROL written with both action fields clear (R18; log 34). -/
def execAttnEn (enable : Bool) (s : State) : Result := .next (hostWriteWord controlAddr (controlWord enable false false) s)

/-- WARM_RESET: CONTROL written with WARM_RESET set (R18, R20). -/
def execWarmReset (enable clear : Bool) (s : State) : Result :=
  .next (hostWriteWord controlAddr (controlWord enable true clear) s)

/-- CLEAR_MEMERR: CONTROL written with CLEAR_MEMERR set (R9, R18). -/
def execClearMemerr (enable reset : Bool) (s : State) : Result :=
  .next (hostWriteWord controlAddr (controlWord enable reset true) s)

/-- DISCARDED_WRITE: a write to a read-only register or an unassigned address (R4). -/
def execDiscardedWrite (addr : Addr) (enables : BitVec 4) (v : Word) (s : State) : Result :=
  .next (hostWriteBytes addr enables v s)

/-! ## The RESET pin and cold start (R19) -/

/-- A line keeping its raw level only (R45, R61; log 8). -/
def Line.keepRaw (l : Line) : Line := ⟨l.raw, false, none⟩

/-- A decoder at cold start with the raw levels of its lines (R59; log 8). -/
def Decoder.keepRaw (d : Decoder) (e : Encoding) : Decoder :=
  { Decoder.cold e with lineA := d.lineA.keepRaw, lineB := d.lineB.keepRaw, lineI := d.lineI.keepRaw }

/-- The transport counter unit at cold start with the raw levels of its lines (R61). -/
def Transport.keepRaw (t : Transport) : Transport :=
  { Transport.cold with
    capstan := t.capstan.keepRaw .x4, supply := t.supply.keepRaw .x1, takeup := t.takeup.keepRaw .x1, pinch := t.pinch.keepRaw }

/-- RESET_LOW: the part enters COLD_INIT at once; memory cells keep what they hold until the clearing (R19). -/
def execResetLow (s : State) : Result :=
  .next { s with
    port := { Port.cold with resetLow := true, mem := s.port.mem, ecc := s.port.ecc, readData := s.port.readData }
    orders := OrderUnit.cold, transport := s.transport.keepRaw, elements := ElementCapture.cold, reports := [],
    capture := none, calibration := none }

/-- RESET_RELEASE: RESET is high; the clearing begins (R19). -/
def execResetRelease (s : State) : Result := .next { s with port := { s.port with resetLow := false } }

/-- CLEARING_DONE: with RESET released, every word is zero with fresh check bits; counting, sampling and framing begin and the
phase is READY (R19, R45, R61, R63, R64). -/
def execClearingDone (s : State) : Result :=
  if s.port.phase = .coldInit ∧ s.port.resetLow = false then
    .next { s with
      port := { s.port with mem := [], ecc := [], phase := .ready }
      transport := s.transport.start }
  else .next s

/-- MEMORY_WORD_DISTURBED: a stored word and its check bits are disturbed (R6). Held words and registers carry no check bits
(R1, R2). -/
def execMemoryWordDisturbed (addr : Addr) (what : Disturbance) (s : State) : Result :=
  match targetOf addr with
  | .memory a => .next { s with port := s.port.disturb a what }
  | .slotState _ => .next s
  | .news _ => .next s
  | .summary => .next s
  | .ident => .next s
  | .status => .next s
  | .control => .next s
  | .unassigned => .next s

end Sys2Proof.Machine
end

