-- ==== Sys2Proof/Machine/Dispatch.lean ====
section
/-! DEFINITION. The meaning of every command: one arm for each constructor of `Instr`. -/

namespace Sys2Proof.Machine

/-- The command's effect on everything but the queue. -/
def exec (i : Instr) (s : State) : Host.Outcome State Fault Refusal :=
  match i with
  | .resetLow => Sys2Proof.Machine.execResetLow s
  | .resetRelease => Sys2Proof.Machine.execResetRelease s
  | .clearingDone => Sys2Proof.Machine.execClearingDone s
  | .hostRead addr enables => Sys2Proof.Machine.execHostRead addr enables s
  | .hostWrite addr value => Sys2Proof.Machine.execHostWrite addr value s
  | .hostNarrowWrite addr enables value => Sys2Proof.Machine.execHostNarrowWrite addr enables value s
  | .post slot => Sys2Proof.Machine.execPost slot s
  | .withdraw slot => Sys2Proof.Machine.execWithdraw slot s
  | .cancel slot => Sys2Proof.Machine.execCancel slot s
  | .release slot => Sys2Proof.Machine.execRelease slot s
  | .handBackSpan addr => Sys2Proof.Machine.execHandBackSpan addr s
  | .clearNews slot ones => Sys2Proof.Machine.execClearNews slot ones s
  | .clearSummary ones => Sys2Proof.Machine.execClearSummary ones s
  | .attnEn enable => Sys2Proof.Machine.execAttnEn enable s
  | .warmReset enable clear => Sys2Proof.Machine.execWarmReset enable clear s
  | .clearMemerr enable reset => Sys2Proof.Machine.execClearMemerr enable reset s
  | .discardedWrite addr enables value => Sys2Proof.Machine.execDiscardedWrite addr enables value s
  | .orderReset => Sys2Proof.Machine.execOrderReset s
  | .warmResetEnd => Sys2Proof.Machine.execWarmResetEnd s
  | .takeOrder => Sys2Proof.Machine.execTakeOrder s
  | .validate => Sys2Proof.Machine.execValidate s
  | .startStreamOrder => Sys2Proof.Machine.execStartStreamOrder s
  | .finishOrder => Sys2Proof.Machine.execFinishOrder s
  | .inputChange periods levels => Sys2Proof.Machine.execInputChange periods levels s
  | .debounceExpiry => Sys2Proof.Machine.execDebounceExpiry s
  | .blockBoundary samples => Sys2Proof.Machine.execBlockBoundary samples s
  | .motionStopped => Sys2Proof.Machine.execMotionStopped s
  | .judgeBlock => Sys2Proof.Machine.execJudgeBlock s
  | .takeBlock => Sys2Proof.Machine.execTakeBlock s
  | .leader => Sys2Proof.Machine.execLeader s
  | .blockProcessed => Sys2Proof.Machine.execBlockProcessed s
  | .captureStop => Sys2Proof.Machine.execCaptureStop s
  | .calibrateBlock => Sys2Proof.Machine.execCalibrateBlock s
  | .offsetsFixed => Sys2Proof.Machine.execOffsetsFixed s
  | .windowComplete => Sys2Proof.Machine.execWindowComplete s
  | .judgeLanes => Sys2Proof.Machine.execJudgeLanes s
  | .weak lane => Sys2Proof.Machine.execWeak lane s
  | .measureSkew => Sys2Proof.Machine.execMeasureSkew s
  | .speedBlock => Sys2Proof.Machine.execSpeedBlock s
  | .holdoverExpiry group => Sys2Proof.Machine.execHoldoverExpiry group s
  | .humTimeout group => Sys2Proof.Machine.execHumTimeout group s
  | .humMissLimit group => Sys2Proof.Machine.execHumMissLimit group s
  | .notLocked group => Sys2Proof.Machine.execNotLocked group s
  | .probationComplete group => Sys2Proof.Machine.execProbationComplete group s
  | .sourceReturn group => Sys2Proof.Machine.execSourceReturn group s
  | .resampleBlock group => Sys2Proof.Machine.execResampleBlock group s
  | .placeFrame group => Sys2Proof.Machine.execPlaceFrame group s
  | .watchNotice => Sys2Proof.Machine.execWatchNotice s
  | .foldBlock => Sys2Proof.Machine.execFoldBlock s
  | .speedmapClose => Sys2Proof.Machine.execSpeedmapClose s
  | .placeRepair => Sys2Proof.Machine.execPlaceRepair s
  | .storeExcerpt => Sys2Proof.Machine.execStoreExcerpt s
  | .memoryWordDisturbed addr what => Sys2Proof.Machine.execMemoryWordDisturbed addr what s

end Sys2Proof.Machine
end

