-- ==== Sys2Proof/Machine/Step.lean ====
section
/-! DEFINITION. One step: the front command of the queue. -/

namespace Sys2Proof.Machine

/-- A step takes the command at the front of the queue and runs it on the state with the rest of the queue; with an
empty queue the block idles (log 3). -/
def step (s : State) : Host.Outcome State Fault Refusal :=
  match s.pending with
  | [] => .next s
  | c :: rest => exec c { s with pending := rest }

/-- The state with the command a word spells at the front of the queue; unchanged where the word spells none. -/
def State.withFetchWord (s : State) (nbits w : Nat) : State :=
  match decodeTableWord nbits w with
  | none => s
  | some c => { s with pending := c :: s.pending }

end Sys2Proof.Machine
end

