-- ==== Sys2Proof/Safety.lean ====
section
/-! DEFINITION. What it means that the machine keeps a property, the properties it keeps, and the words the statements
about it are written in. -/

namespace Sys2Proof.Safety

open Machine

/-- Every step that answers a next state keeps the property, whatever the property's state. -/
def StepKeeps (p : State → Prop) : Prop := ∀ s t, p s → step s = .next t → p t

/-! ## Memory -/

/-- The memory of a state is in its canonical form. -/
abbrev MemoryCanonical (s : State) : Prop := Memory.wf s.port.mem = true

/-- Every byte of memory reads as before, but for those of the ranges given by first address and length. -/
def MemoryKeptOutside (s t : State) (ranges : List (Nat × Nat)) : Prop :=
  ∀ a, (∀ r ∈ ranges, a < r.1 ∨ r.1 + r.2 ≤ a) → readByte t.port.mem a = readByte s.port.mem a

/-- Every byte of memory reads as before. -/
def MemoryKept (s t : State) : Prop := ∀ a, readByte t.port.mem a = readByte s.port.mem a

/-- A word of memory holds a value with fresh check bits. -/
abbrev Stored (s : State) (a : Nat) (w : Word) : Prop := readMemWord s.port.mem a = w ∧ eccAt s.port.ecc a = none

/-- The check bits of every word are as before, but for those given. -/
def CheckBitsKeptOutside (s t : State) (words : List Nat) : Prop := ∀ a, a ∉ words → eccAt t.port.ecc a = eccAt s.port.ecc a

/-! ## Guard entries -/

/-- The slots whose watch on a word is set. -/
def watchers (s : State) (a : Nat) : List SlotNo := (s.port.guard.filter fun e => e.addr == a && e.watch).map (·.slot)

/-- After an applied host write to a word: its watch flags are clear, the writer has a notice where one was set, and every
other entry is as before (R13). -/
def WatchesEnded (s t : State) (a : Nat) : Prop :=
  t.port.guard = s.port.guard.map (fun e => if e.addr = a then { e with watch := false } else e)
    ∧ t.port.notices = s.port.notices ++ (if watchers s a = [] then [] else [⟨a, watchers s a⟩])

/-! ## Phases and what has come due -/

/-- A phase in which host writes to guarded words are judged: READY (R10). -/
abbrev Ready (s : State) : Prop := s.port.phase = .ready

/-- A phase in which the units work: every one but COLD_INIT (R19). -/
abbrev Working (s : State) : Prop := s.port.phase ≠ .coldInit

/-- The state after what has come due in the speed reference unit is carried out (log 20). -/
def settled (s : State) : State := s.onCapture Cx.settleSpeed

/-- A line whose filtered level has become its raw level, with no pending change (R45 "At cold start"). -/
def Followed (before after : Line) : Prop := after = ⟨before.raw, before.raw, none⟩

/-! ## Slots -/

/-- One slot's state becomes the given one; its other fields and every other slot are as before. -/
def SlotBecomes (s t : State) (n : SlotNo) (st : SlotState) : Prop :=
  t.orders.slot n = { s.orders.slot n with state := st } ∧ ∀ m, m ≠ n → t.orders.slot m = s.orders.slot m

/-- An order finished (R24): its outcome word is stored, its guard entries are gone, its slot is DONE with DONE news and the
summary bit where its mask asks; nothing else of the port, no other slot and no other word changes. -/
def Finished (s t : State) (n : SlotNo) (out : OrderOutcome) (code : RefusalCode) (late : Bool) : Prop :=
  Stored t (slotBase n + 0x0C) (outcomeWord out code late) ∧
  MemoryKeptOutside s t [(slotBase n + 0x0C, 4)] ∧ CheckBitsKeptOutside s t [slotBase n + 0x0C] ∧
  t.port = { s.port with mem := t.port.mem, ecc := t.port.ecc, guard := s.port.guard.filter fun e => e.slot ≠ n } ∧
  t.orders.slot n = { s.orders.slot n with state := .done, live := none, news := (s.orders.slot n).news ||| 1 } ∧
  (∀ m, m ≠ n → t.orders.slot m = s.orders.slot m) ∧
  t.orders.summary =
    if (s.orders.slot n).mask.getLsbD 0 then s.orders.summary ||| BitVec.ofNat 32 (2 ^ n.val) else s.orders.summary

/-- An end report put behind those not yet acted on. -/
def reported (s : State) (n : SlotNo) (out : OrderOutcome) (own : Bool) : List EndReport :=
  s.orders.ends ++ [⟨n, out, .none, own⟩]

/-- A word stored by the engine, and nothing else changed in the port (R3, R6). -/
def StoresWord (s t : State) (a : Nat) (w : Word) : Prop :=
  Stored t a w ∧ MemoryKeptOutside s t [(a, 4)] ∧ CheckBitsKeptOutside s t [a] ∧
  t.port = { s.port with mem := t.port.mem, ecc := t.port.ecc }

/-! ## Transport inputs -/

/-- The ten input lines with the debounce interval each is filtered with, in the order of the bits of INPUT_CHANGE: A, B, I of
CAPSTAN, SUPPLY and TAKEUP, and PINCH, which has CAPSTAN's interval (R45). -/
def inputLines (t : Transport) : List (Line × Nat) :=
  [(t.capstan.lineA, t.capstan.settings.debounce), (t.capstan.lineB, t.capstan.settings.debounce),
   (t.capstan.lineI, t.capstan.settings.debounce), (t.supply.lineA, t.supply.settings.debounce),
   (t.supply.lineB, t.supply.settings.debounce), (t.supply.lineI, t.supply.settings.debounce),
   (t.takeup.lineA, t.takeup.settings.debounce), (t.takeup.lineB, t.takeup.settings.debounce),
   (t.takeup.lineI, t.takeup.settings.debounce), (t.pinch, t.capstan.settings.debounce)]

/-- No input has a pending change: every filtered level is its raw level. -/
abbrev InputsQuiet (t : Transport) : Prop := ∀ l ∈ inputLines t, l.1.filtered = l.1.raw ∧ l.1.ran = none

/-- The raw levels are the bits of a vector. -/
def RawLevelsAre (t : Transport) (v : BitVec 10) : Prop := (inputLines t).map (fun l => l.1.raw) = (List.range 10).map v.getLsbD

/-- Only the news and summary words of the order unit differ. -/
def OnlyNewsDiffers (o p : OrderUnit) : Prop :=
  p = { o with slots := p.slots, summary := p.summary } ∧ ∀ n, p.slot n = { o.slot n with news := (p.slot n).news }

/-! ## A running capture -/

/-- A capture exists and the units work. -/
abbrev Capturing (s : State) (cap : Capture) : Prop := Working s ∧ s.capture = some cap

/-- A step of a capture leaves the counters, the history, the reports, the CALIBRATE run and the queue of commands as they are,
and of the port changes memory, check bits, error record and guard flags only. -/
def CaptureFrame (s t : State) : Prop :=
  t = { s with port := t.port, orders := t.orders, capture := t.capture } ∧
  t.port = { s.port with
    mem := t.port.mem, ecc := t.port.ecc, corrected := t.port.corrected, uncorrected := t.port.uncorrected
    guard := t.port.guard }

/-- As `CaptureFrame`, with port and order unit untouched: only the capture itself changes. -/
def OnlyCaptureChanges (s t : State) : Prop := t = { s with capture := t.capture }

/-- A capture whose units are made from a tuning, as long as it has left ARMED and block 0 is not taken: the skew seeds (R107)
and the speed groups (R119); later, and in ARMED, the capture as it is (R165; log 60). -/
def unitsFor (table : Vector CalEntry 16) (t : Tuning) (cap : Capture) : Capture :=
  match cap.speed, cap.control.nextIdx with
  | some u, 0 => { cap with
      skew := seedLanes table cap.params t, speed := some { SpeedUnit.start cap.params t 0 with tach := u.tach } }
  | _, _ => cap

/-- One more, but for a count at its top. -/
def upTo (top n : Nat) : Nat := if n < top then n + 1 else n

/-- A free page of the spill store is left. -/
abbrev PageFree (w : Writer) : Prop := pagesIn w.groups.a.queue + pagesIn w.groups.b.queue < Config.spillPages

/-- A record list that lies past the order table, with a clean released count and so many records not yet released (R192). -/
abbrev Outstanding (s : State) (l : RecList) (n : Nat) : Prop :=
  0x2000 ≤ l.header ∧ eccAt s.port.ecc (l.header + 8) = none ∧
  (l.written - readMemWord s.port.mem (l.header + 8)).toNat = n

/-- The place of the i-th record from the oldest released one on in the repair list (R193). -/
abbrev repairPlace (l : RecList) (i : Nat) : Nat := l.header + 16 + 32 * ((l.written.toNat + i) % l.capacity)

/-- Repair records placed one behind the other, the written count after them (R193). -/
def RepairsPlaced (t : State) (l : RecList) (rs : List RepairRec) : Prop :=
  (∀ (i j : Nat) (r : RepairRec) (v : Word), rs[i]? = some r → r.words[j]? = some v → Stored t (repairPlace l i + 4 * j) v) ∧
  (rs ≠ [] → Stored t (l.header + 4) (l.written + BitVec.ofNat 32 rs.length))

/-- The bytes that placing so many repair records writes: their places, the written count, the progress count (R193, R196). -/
def repairRanges (n : SlotNo) (l : RecList) (count : Nat) : List (Nat × Nat) :=
  if count = 0 then [] else
    [(slotBase n + 0x60, 4), (l.header + 4, 4)] ++ (List.range count).map fun i => (repairPlace l i, 32)

/-- A repair list of a capacity in its range, that holds no more records than it has places, with the count of records not yet
wrapped after so many more (R192). -/
abbrev ListTakes (s : State) (w : Writer) (n count : Nat) : Prop :=
  Outstanding s w.repairList n ∧ n ≤ w.repairList.capacity ∧ 4 ≤ w.repairList.capacity ∧ w.repairList.capacity ≤ 4096 ∧
  w.repairList.written.toNat + count < 4294967296 ∧ w.repairWritten ≤ 4294967295

/-- The descriptor at a group's span cursor. -/
def cursorSpan (o : GroupOut) : SpanDesc := o.spans.getD o.cursor ⟨0, 0, 0, 0⟩

/-- The progress word of a group's samples lost (11, "Kind parameters and results"). -/
def lostWord (cap : Capture) : Group → Nat
  | .a => slotBase cap.slot + 0x68
  | .b => slotBase cap.slot + 0x6C

/-- Two ranges of bytes, given by first address and length, share none. -/
abbrev Apart (x y : Nat × Nat) : Prop := x.1 + x.2 ≤ y.1 ∨ y.1 + y.2 ≤ x.1

/-- The descriptor of a span shows state, fill, frame count, first output index, capstan position and flags (R184). -/
def ShowsSpan (t : State) (d : SpanDesc) (st : Word) (fill frames : Nat) (first pos flags : Word) : Prop :=
  Stored t d.addr st ∧ Stored t (d.addr + 0x0C) (BitVec.ofNat 32 fill) ∧ Stored t (d.addr + 0x10) first ∧
  Stored t (d.addr + 0x14) (BitVec.ofNat 32 frames) ∧ Stored t (d.addr + 0x18) pos ∧ Stored t (d.addr + 0x1C) flags

/-- Frames of one length stored one behind the other (R185). -/
def FramesAt (t : State) (a len : Nat) (fs : List Frame) : Prop :=
  ∀ (k : Nat) (f : Frame) (i : Nat) (w : Word), fs[k]? = some f → f.words[i]? = some w → Stored t (a + len * k + 4 * i) w

/-- A closed LOST record as a repair record (R190). -/
def lostRepair (seq : Nat) (g : Group) (r : LostRec) (cut : Bool) : RepairRec :=
  { seq := seq, kind := .lost, place := groupCode g, minPresent := 0, cut := cut, noExcerpt := false, absent := 0
    first := r.first, length := r.length, block := r.block, position := r.position, voidRuns := 0, longest := 0, bridged := 0 }

/-- A block folded into a speed map record (R194): one more block; per group with a report the last ratio, the lowest, the
highest, the active source and the four marks so far; per lane with a report its span, and HELD, QUIET and CLIPPED so far; slip,
resume; the first cue as the cue index, any other merged. -/
def FoldsInto (x : Taken) (js : Judgements) (ks : Vector (Option SkewReport) 4) (ps : PerGroup (Option SpeedReport))
    (m0 m : MapRec) : Prop :=
  m = { m0 with
    blocks := upTo 4294967295 m0.blocks, groups := m.groups, lanes := m.lanes, cue := m.cue, cueMerged := m.cueMerged
    slip := m0.slip || (x.block.record.map (·.slip)).getD false, resumed := m0.resumed || x.resumed } ∧
  (∀ g, ps.get g = none → m.groups.get g = m0.groups.get g) ∧
  (∀ g r, ps.get g = some r →
    let o := m0.groups.get g
    let so := fun (f : MapGroup → Bool) => (o.map f).getD false
    m.groups.get g = some {
      qLast := r.q, qMin := (o.map fun y => min y.qMin r.q).getD r.q, qMax := (o.map fun y => max y.qMax r.q).getD r.q
      active := r.active, holdover := so (·.holdover) || decide (r.state = .holdover)
      freeRun := so (·.freeRun) || decide (r.state = .freeRun), clamped := so (·.clamped) || r.clamped
      switched := so (·.switched) || r.switched }) ∧
  (∀ l, getAt ks l = none → getAt m.lanes l = getAt m0.lanes l) ∧
  (∀ l r, getAt ks l = some r →
    let so := fun (f : MapLane → Bool) => ((getAt m0.lanes l).map f).getD false
    getAt m.lanes l = some {
      span := r.span, held := so (·.held) || r.held, quiet := so (·.quiet) || ((getAt js l).map (·.quiet)).getD false
      clipped := so (·.clipped) || decide (l ∈ x.clipped) }) ∧
  (x.cues = [] → m.cue = m0.cue ∧ m.cueMerged = m0.cueMerged) ∧
  ∀ n rest, x.cues = n :: rest → 0 ∉ x.cues →
    m.cue = (if m0.cue = 0 then n else m0.cue) ∧ m.cueMerged = (m0.cueMerged || decide (m0.cue ≠ 0 ∨ rest ≠ []))

/-- A capture of which no dropout or LOST record is open, waiting or on its way, no excerpt is open, no speed map record is
gathered, and every released frame is placed. -/
def NothingOpen (cap : Capture) : Prop :=
  (∀ m, cap.monitor = some m → m.closed = [] ∧ ∀ l x, getAt m.lanes l = some x → x.dropout = none) ∧
  cap.writer.map = none ∧ cap.writer.excerpt = none ∧ cap.writer.handed = [] ∧ cap.writer.holding = [] ∧
  ∀ g, (cap.writer.groups.get g).arriving = [] ∧ (cap.writer.groups.get g).lost = none

/-- No span of a group is FILLING, and no frame of it is in the spill store or the bridge buffer. -/
def SpansQuiet (cap : Capture) (g : Group) : Prop :=
  (cap.writer.groups.get g).filling = none ∧ (cap.writer.groups.get g).queue = [] ∧
  ∀ r, cap.resamplers.get g = some r → r.buffer = []

/-! ## What R28 to R30 ask of an order -/

/-- The layout and ranges that R28 asks of a CAPTURE. -/
def LayoutRule (p : CaptureParams) : Prop :=
  let lane := fun (l : LaneNo) => getAt p.lanes l
  (p.rateCode = 0 ∨ p.rateCode = 1) ∧ (∃ l, (lane l).active = true) ∧
  (∀ l, (lane l).active = true → 1 ≤ (lane l).count ∧ (lane l).count ≤ 6 ∧ (lane l).first + (lane l).count ≤ 16) ∧
  (∀ l m e, l ≠ m → (lane l).active = true → (lane m).active = true → (lane l).first ≤ e → e < (lane l).first + (lane l).count →
    ¬ ((lane m).first ≤ e ∧ e < (lane m).first + (lane m).count)) ∧
  (∀ g, (p.formats.get g).paired = true → groupActive p g = true → (groupLanes p g).length = 2) ∧
  (∀ a b, p.start = some a → p.stop = some b → 0 < (b - a).toInt) ∧ p.cueCount ≤ 8 ∧
  (∀ (i : Nat) (x y : Word), p.cues[i]? = some x → p.cues[i + 1]? = some y → 0 < (y - x).toInt) ∧
  ∀ x ∈ p.cues, (∀ a, p.start = some a → 0 < (x - a).toInt) ∧ ∀ b, p.stop = some b → 0 < (b - x).toInt

/-- What R29 asks of the fields of a tuning profile that belong to no lane or group. -/
abbrev CommonProfileRule (t : Tuning) : Prop :=
  2 ≤ t.sp ∧ t.sp ≤ 5 ∧ t.qf ≤ 8388607 ∧ t.bl ≤ 8 ∧ t.ss ≤ 4 ∧ t.leaderFloor ≤ 8388607 ∧
  (t.leaderTime = 0 ∨ 10 ≤ t.leaderTime ∧ t.leaderTime ≤ 500) ∧ 1 ≤ t.nd ∧ t.nd ≤ 100

/-- What R29 asks of a tuning profile against a lane layout and a calibration table. -/
def ProfileRule (table : Vector CalEntry 16) (p : CaptureParams) (t : Tuning) : Prop :=
  CommonProfileRule t ∧
  (∀ l, (getAt p.lanes l).active = true →
    let k := getAt t.lanes l
    (∀ i, (getAt p.lanes l).count ≤ i → k.watch.getLsbD i = false) ∧ k.anchor < (getAt p.lanes l).count ∧
    k.watch.getLsbD k.anchor = true ∧ (tableEntry table ((getAt p.lanes l).first + k.anchor)).dead = false) ∧
  ∀ g, groupActive p g = true →
    let x := t.groups.get g
    let isLane := fun (l : LaneNo) => (getAt p.lanes l).active = true ∧ (getAt p.lanes l).group = g
    x.prefs ≠ [] ∧ x.prefs.Nodup ∧ x.holdover ≤ 255 ∧ (.hum ∈ x.prefs → isLane x.humLane) ∧
    (.bias ∈ x.prefs → 40000 ≤ x.biasNominal ∧ x.biasNominal ≤ 160000 ∧ isLane x.biasLane)

/-- What R30 asks of the lists of a CAPTURE, copied whole: span lists, excerpt list, capacities of the two record lists. -/
def ListRule (p : CaptureParams) (a b e : List SpanDesc) (mapCap repairCap : Nat) : Prop :=
  let general := fun (addr size : Nat) => 0x3000 ≤ addr ∧ addr + size ≤ 0x400000
  (∀ g, groupActive p g = true → 2 ≤ p.spanCount.get g ∧ p.spanCount.get g ≤ 64) ∧ p.excerptCount ≤ 16 ∧
  (∀ d ∈ a, general d.buffer d.capacity ∧ 4096 ≤ d.capacity ∧ d.capacity ≤ 1048576 ∧ frameSize p .a ∣ d.capacity) ∧
  (∀ d ∈ b, general d.buffer d.capacity ∧ 4096 ≤ d.capacity ∧ d.capacity ≤ 1048576 ∧ frameSize p .b ∣ d.capacity) ∧
  (∀ d ∈ e, general d.buffer d.capacity ∧ 15424 ≤ d.capacity ∧ 4 ∣ d.capacity) ∧
  (∀ d ∈ a ++ b ++ e, d.held = 0 ∨ d.held = 2) ∧
  (4 ≤ mapCap ∧ mapCap ≤ 4096 ∧ general p.mapAddr (16 + 64 * mapCap)) ∧
  (4 ≤ repairCap ∧ repairCap ≤ 4096 ∧ general p.repairAddr (16 + 32 * repairCap)) ∧
  (captureRanges p mapCap repairCap a b e).Pairwise Apart

/-! ## Invariants -/

/-- The posting queue holds the number of every POSTED slot exactly once and no other number (R25). -/
def PostingExact (s : State) : Prop :=
  s.orders.posting.Nodup ∧ ∀ n, n ∈ s.orders.posting ↔ (s.orders.slot n).state = .posted

/-- While RESET is low the phase is COLD_INIT, and in COLD_INIT every unit but the memory cells, the word last read and the
raw input levels is at its cold-start value (R19, R61). -/
def ColdQuiet (s : State) : Prop :=
  (s.port.resetLow = true → s.port.phase = .coldInit) ∧
  (s.port.phase = .coldInit →
    s.port = { State.reset.port with
      resetLow := s.port.resetLow, mem := s.port.mem, ecc := s.port.ecc, readData := s.port.readData } ∧
    s.orders = State.reset.orders ∧ s.transport = s.transport.keepRaw ∧ s.elements = State.reset.elements ∧
    s.reports = [] ∧ s.capture = none ∧ s.calibration = none)

/-- The stores of a capture's output writer hold no more than they have room for (R188, R196). -/
def WriterWithin (w : Writer) : Prop :=
  pagesIn w.groups.a.queue + pagesIn w.groups.b.queue ≤ Config.spillPages ∧ w.holding.length ≤ Config.holdingMax

/-- No store of the part holds more than the spec gives it: run queue, history store, kept records, spill store, holding queue
(R34, R65, R57, R188, R196). -/
def WithinCapacities (s : State) : Prop :=
  s.orders.runQueue.length ≤ Config.runQueueMax ∧ s.elements.history.length ≤ 3 ∧ s.transport.records.length ≤ 8 ∧
  ∀ cap, s.capture = some cap → WriterWithin cap.writer

end Sys2Proof.Safety
end

