-- ==== Sys2Proof/Certificates/Slice0/Obligations.lean ====
section
/-! DEFINITION. The statements about the TC-716, in the order of the chapters of spec/. -/

open Sys2Proof Sys2Proof.Machine Sys2Proof.Safety

/-! ## The machine as a whole -/

/-- A step of a state whose queue begins with a command is that command on the state with the queue's rest. With an empty
queue the block idles (the model's choice, log 3). -/
def Obligations.StepRunsFrontCommand : Prop :=
  (∀ (c : Instr) (rest : List Instr) (s : State), step { s with pending := c :: rest } = exec c { s with pending := rest }) ∧
  (∀ s : State, s.pending = [] → step s = .next s)

/-- No command is refused, and no command touches the queue. The machine stops only where R64 and R65 say it cannot be:
samples that are no block, or a read of a block that the history store does not hold. -/
def Obligations.StopsOnlyOnImpossibleBlocks : Prop :=
  (∀ (c : Instr) (s : State), (∀ r, exec c s ≠ .refused r) ∧ ∀ t, exec c s = .next t → t.pending = s.pending) ∧
  (∀ (c : Instr) (s : State) (f : Fault), exec c s = .fault f →
     (∃ samples, c = .blockBoundary samples ∧ wellFormedBlock samples = false ∧ f = .malformedBlock) ∨
     (∃ num, f = .blockNotHeld num ∧ ∀ b ∈ s.elements.history, b.num ≠ num))

/-- What reset leaves, where a rule of spec/ gives the value. The values a log entry names are not part of it. The state after
reset has all four invariants. Each reel's counter, pack ratio and slip count are 0, it has no stamp, and neither its ratio nor
its interval is clean (R51 to R53). -/
def Obligations.ResetLeavesColdStartValues : Prop :=
  (State.reset.port.phase = .coldInit ∧ State.reset.port.lastWarm = false ∧ State.reset.port.uncorrected = false ∧
   State.reset.port.corrected = 0 ∧ State.reset.port.attnEn = false ∧ State.reset.port.guard = [] ∧
   State.reset.orders.summary = 0 ∧ State.reset.orders.posting = [] ∧ State.reset.orders.runQueue = [] ∧
   (∀ n, (State.reset.orders.slot n).state = .free ∧ (State.reset.orders.slot n).news = 0 ∧ (State.reset.orders.slot n).live = none) ∧
   State.reset.transport.position = 0 ∧ State.reset.transport.motion = .stopped ∧ State.reset.transport.stillRun = 0 ∧
   State.reset.transport.nc = 0 ∧ State.reset.transport.slipThreshold = 20 ∧
   State.reset.transport.capstan.settings = ⟨.x4, 1, none⟩ ∧ State.reset.transport.supply.settings = ⟨.x1, 1, none⟩ ∧
   State.reset.transport.takeup.settings = ⟨.x1, 1, none⟩ ∧ State.reset.transport.records = [] ∧
   State.reset.transport.supplyReel = ⟨0, none, 0, false, false, 0⟩ ∧ State.reset.transport.takeupReel = ⟨0, none, 0, false, false, 0⟩ ∧
   State.reset.transport.capstanStamp = 0 ∧ State.reset.transport.capstan.errors = 0 ∧ State.reset.transport.supply.errors = 0 ∧
   State.reset.transport.takeup.errors = 0 ∧
   State.reset.elements.block = 0 ∧ State.reset.elements.history = [] ∧ State.reset.elements.generation = 0 ∧
   (∀ e : Fin 16, getAt State.reset.elements.table e = ⟨16384, 0, 0, false⟩) ∧
   State.reset.capture = none ∧ State.reset.calibration = none ∧ attnLevel State.reset.port State.reset.orders = false) ∧
  (MemoryCanonical State.reset ∧ PostingExact State.reset ∧ ColdQuiet State.reset ∧ WithinCapacities State.reset)

/-- Every step keeps the canonical form of memory. -/
def Obligations.StepKeepsMemoryCanonical : Prop := StepKeeps MemoryCanonical

/-- Every step keeps the posting queue equal to the POSTED slots. -/
def Obligations.StepKeepsPostingQueueExact : Prop := StepKeeps PostingExact

/-- Every step keeps a part in COLD_INIT at its cold-start values. -/
def Obligations.StepKeepsColdStartQuiet : Prop := StepKeeps ColdQuiet

/-- Every step keeps within their sizes the run queue of four, the history store of three blocks, the eight kept block records,
the spill store's pages of both groups together, and the holding queue for repair records (R34, R65, R57, R188, R196). -/
def Obligations.StepKeepsCapacities : Prop := StepKeeps WithinCapacities

/-! ## Cold start (R19) -/

/-- RESET going low: COLD_INIT at once, last reset COLD, every unit at its cold-start value (R19); memory cells as before. That
the word last read and the raw input levels stay as they are is the model's choice (logs 7 and 8). RESET released lets the
clearing run; when it is done every word of memory is zero with fresh check bits, the filtered levels are the raw ones without a
pending change, and the phase is READY (R19, R45, R61). With RESET low the clearing does not end. Outside COLD_INIT,
or with RESET low, CLEARING_DONE has no effect (DESIGN CHOICE, log 4). -/
def Obligations.ColdStartClearsMemory : Prop :=
  (∀ s : State, exec .resetLow s = .next { s with
     port := { resetLow := true, phase := .coldInit, lastWarm := false, uncorrected := false, corrected := 0, attnEn := false,
               mem := s.port.mem, ecc := s.port.ecc, guard := [], notices := [], readData := s.port.readData }
     orders := State.reset.orders, transport := s.transport.keepRaw, elements := State.reset.elements, reports := [],
     capture := none, calibration := none }) ∧
  ((∀ s : State, exec .resetRelease s = .next { s with port := { s.port with resetLow := false } }) ∧
   (∀ s : State, s.port.phase = .coldInit → s.port.resetLow = false → ∃ t, exec .clearingDone s = .next t ∧
     t.port.phase = .ready ∧ (∀ a, readByte t.port.mem a = 0) ∧ (∀ a, eccAt t.port.ecc a = none) ∧
     t = { s with port := { s.port with mem := t.port.mem, ecc := t.port.ecc, phase := .ready }, transport := t.transport } ∧
     Followed s.transport.capstan.lineA t.transport.capstan.lineA ∧
     Followed s.transport.capstan.lineB t.transport.capstan.lineB ∧
     Followed s.transport.capstan.lineI t.transport.capstan.lineI ∧
     Followed s.transport.supply.lineA t.transport.supply.lineA ∧
     Followed s.transport.supply.lineB t.transport.supply.lineB ∧
     Followed s.transport.supply.lineI t.transport.supply.lineI ∧
     Followed s.transport.takeup.lineA t.transport.takeup.lineA ∧
     Followed s.transport.takeup.lineB t.transport.takeup.lineB ∧
     Followed s.transport.takeup.lineI t.transport.takeup.lineI ∧
     Followed s.transport.pinch t.transport.pinch ∧
     t.transport.position = s.transport.position ∧ t.transport.current = s.transport.current) ∧
   (∀ s : State, s.port.phase ≠ .coldInit ∨ s.port.resetLow = true → exec .clearingDone s = .next s))

/-! ## The memory port (01) -/

/-- A read returns the bytes its enables select, the other byte lanes zero (R4). A host read of a memory word outside
COLD_INIT: clean, returned unchanged; a single-bit error corrected, counted and written back; an uncorrectable word returned
raw with UNCORRECTED set. Memory bytes and every other word's check bits are as before (R7). -/
def Obligations.HostReadChecksMemoryWord : Prop :=
  (∀ (enables : BitVec 4) (w : Word) (i : Nat), i < 4 →
     byteOf (selectBytes enables w) i = if enables.getLsbD i then byteOf w i else 0) ∧
  (∀ (s : State) (addr : Addr) (enables : BitVec 4) (a : Nat), Working s → targetOf addr = .memory a →
     ∃ t, exec (.hostRead addr enables) s = .next t ∧
       t.port.readData = selectBytes enables (readMemWord s.port.mem a) ∧ MemoryKept s t ∧ CheckBitsKeptOutside s t [a] ∧
       t = { s with port := { s.port with
         ecc := t.port.ecc, corrected := t.port.corrected, uncorrected := t.port.uncorrected, readData := t.port.readData } } ∧
       (eccAt s.port.ecc a = none →
         eccAt t.port.ecc a = none ∧ t.port.corrected = s.port.corrected ∧ t.port.uncorrected = s.port.uncorrected) ∧
       (eccAt s.port.ecc a = some .single →
         eccAt t.port.ecc a = none ∧ t.port.uncorrected = s.port.uncorrected ∧
         t.port.corrected = if s.port.corrected = 255 then 255 else s.port.corrected + 1) ∧
       (eccAt s.port.ecc a = some .uncorrectable →
         eccAt t.port.ecc a = some .uncorrectable ∧ t.port.corrected = s.port.corrected ∧ t.port.uncorrected = true))

/-- What a read of a held word or register finds outside COLD_INIT: the slot's state code, its news word, the summary word,
STATUS, ATTN_EN; zero where nothing is assigned. Nothing but the word returned changes (R2, R17, R18). During COLD_INIT a read
returns zero, but for IDENT and STATUS (R19). -/
def Obligations.HostReadFindsHeldWords : Prop :=
  (∀ (s : State) (addr : Addr) (enables : BitVec 4), Working s →
     let reads := fun (w : Word) =>
       exec (.hostRead addr enables) s = .next { s with port := { s.port with readData := selectBytes enables w } }
     (∀ n, targetOf addr = .slotState n → reads (BitVec.ofNat 32 (slotCode (s.orders.slot n).state))) ∧
     (∀ n, targetOf addr = .news n → reads ((s.orders.slot n).news.setWidth 32)) ∧
     (targetOf addr = .summary → reads s.orders.summary) ∧
     (targetOf addr = .status → reads (statusWord s.port s.orders)) ∧
     (targetOf addr = .control → reads (if s.port.attnEn then 1 else 0)) ∧
     (targetOf addr = .unassigned → reads 0)) ∧
  (∀ (s : State) (addr : Addr) (enables : BitVec 4), s.port.phase = .coldInit →
     let w := if targetOf addr = .ident then 0x00010716#32
       else if targetOf addr = .status then statusWord s.port s.orders else 0
     exec (.hostRead addr enables) s = .next { s with port := { s.port with readData := selectBytes enables w } })

/-- ATTN is high exactly while the summary word is not zero and ATTN_EN is set; STATUS shows its level in every phase; in
COLD_INIT it is low (R15). The five things STATUS shows (R17). -/
def Obligations.AttnFollowsSummaryAndEnable : Prop :=
  ((∀ s : State, attnLevel s.port s.orders = true ↔ s.orders.summary ≠ 0 ∧ s.port.attnEn = true) ∧
   (∀ (s : State) (addr : Addr), addr.toNat / 4 = 0x100001 → ∃ t, exec (.hostRead addr 0xF#4) s = .next t ∧
     bit t.port.readData 9 = attnLevel s.port s.orders ∧ attnLevel t.port t.orders = attnLevel s.port s.orders) ∧
   (∀ s : State, ColdQuiet s → s.port.phase = .coldInit → attnLevel s.port s.orders = false)) ∧
  (∀ (p : Port) (o : OrderUnit), field (statusWord p o) 0 4 = phaseCode p.phase ∧ bit (statusWord p o) 4 = p.lastWarm ∧
     bit (statusWord p o) 8 = p.uncorrected ∧ bit (statusWord p o) 9 = attnLevel p o ∧
     field (statusWord p o) 16 8 = p.corrected.toNat)

/-- IDENT reads part code 0x0716 and revision 1 in every phase, and every write to it is discarded (R16). -/
def Obligations.IdentIsReadOnly : Prop :=
  ∀ (s : State) (addr : Addr), addr.toNat / 4 = 0x100000 →
    exec (.hostRead addr 0xF#4) s = .next { s with port := { s.port with readData := 0x00010716#32 } } ∧
    ∀ (enables : BitVec 4) (v : Word), exec (.discardedWrite addr enables v) s = .next s

/-- A write to IDENT, STATUS or an address from 0x40000C up is discarded (R4). A narrower host write to a guarded span state
word, a slot state word, a news word, the summary word or CONTROL is discarded (R4). A host write to a guarded span state word
is discarded while the phase is COLD_INIT or WARM_RESET; in READY a readable word that is clean keeps its value under every
write but EMPTY over FULL (R10). -/
def Obligations.DiscardedWritesChangeNothing : Prop :=
  (∀ (s : State) (addr : Addr) (enables : BitVec 4) (v : Word),
     addr.toNat / 4 = 0x100000 ∨ addr.toNat / 4 = 0x100001 ∨ 0x40000C ≤ addr.toNat →
     exec (.discardedWrite addr enables v) s = .next s) ∧
  (∀ (s : State) (addr : Addr) (enables : BitVec 4) (v : Word), enables ≠ 0xF#4 →
     (isOrdinary addr = true → s.port.isGuarded (wordAddress addr) = true) →
     exec (.hostNarrowWrite addr enables v) s = .next s) ∧
  (∀ (s : State) (addr : Addr) (v : Word), isOrdinary addr = true → s.port.isGuarded (wordAddress addr) = true →
     (s.port.phase ≠ .ready ∨
       (eccAt s.port.ecc (wordAddress addr) = none ∧ ¬ (readMemWord s.port.mem (wordAddress addr) = 2 ∧ v = 0))) →
     exec (.hostWrite addr v) s = .next s)

/-- A full-word host write to ordinary memory that no SPAN_STATE entry guards: the word is stored with fresh check bits,
watches on it end, nothing else changes (R3, R4, R6, R13). -/
def Obligations.HostWriteStoresWord : Prop :=
  ∀ (s : State) (addr : Addr) (v : Word), Working s → MemoryCanonical s → isOrdinary addr = true →
    s.port.isGuarded (wordAddress addr) = false →
    let a := wordAddress addr
    ∃ t, exec (.hostWrite addr v) s = .next t ∧ Stored t a v ∧ MemoryKeptOutside s t [(a, 4)] ∧
      CheckBitsKeptOutside s t [a] ∧ WatchesEnded s t a ∧
      t = { s with port := { s.port with
        mem := t.port.mem, ecc := t.port.ecc, guard := t.port.guard, notices := t.port.notices } }

/-- A narrower host write to ordinary memory that no SPAN_STATE entry guards: the enabled bytes replace those of the word as
checked, and the merged word is stored with fresh check bits; a correction is counted, an uncorrectable word is flagged (R6).
-/
def Obligations.NarrowWriteMergesBytes : Prop :=
  ∀ (s : State) (addr : Addr) (enables : BitVec 4) (v : Word), Working s → MemoryCanonical s → enables ≠ 0xF#4 →
    isOrdinary addr = true → s.port.isGuarded (wordAddress addr) = false →
    let a := wordAddress addr
    ∃ t, exec (.hostNarrowWrite addr enables v) s = .next t ∧
      (∀ i, i < 4 → byteOf (readMemWord t.port.mem a) i =
        if enables.getLsbD i then byteOf v i else byteOf (readMemWord s.port.mem a) i) ∧
      eccAt t.port.ecc a = none ∧ MemoryKeptOutside s t [(a, 4)] ∧ CheckBitsKeptOutside s t [a] ∧ WatchesEnded s t a ∧
      t.port.corrected = (if eccAt s.port.ecc a = some .single ∧ s.port.corrected ≠ 255 then s.port.corrected + 1
        else s.port.corrected) ∧
      t.port.uncorrected = (s.port.uncorrected || decide (eccAt s.port.ecc a = some .uncorrectable)) ∧
      t = { s with port := { s.port with
        mem := t.port.mem, ecc := t.port.ecc, guard := t.port.guard, notices := t.port.notices
        corrected := t.port.corrected, uncorrected := t.port.uncorrected } }

/-- A write of EMPTY to a guarded span state word in READY: a word that reads FULL, or is unreadable, becomes EMPTY with fresh
check bits and its watches end; a word that reads anything else keeps its value (R10, R13). The judging read counts a corrected
error and flags an uncorrectable one (R9); that it also writes a corrected word back with fresh check bits is the model's (log 16).
A word is guarded where a SPAN_STATE entry names it, also where a RELEASED entry of another order does too (DESIGN CHOICE,
log 53). -/
def Obligations.HandBackMovesFullToEmpty : Prop :=
  ∀ (s : State) (addr : Addr), Ready s → MemoryCanonical s → isOrdinary addr = true →
    s.port.isGuarded (wordAddress addr) = true →
    let a := wordAddress addr
    let held := readMemWord s.port.mem a
    ∃ t, exec (.handBackSpan addr) s = .next t ∧ MemoryKeptOutside s t [(a, 4)] ∧ CheckBitsKeptOutside s t [a] ∧
      t.port.corrected = (if eccAt s.port.ecc a = some .single ∧ s.port.corrected ≠ 255 then s.port.corrected + 1
        else s.port.corrected) ∧
      t.port.uncorrected = (s.port.uncorrected || decide (eccAt s.port.ecc a = some .uncorrectable)) ∧
      (held = 2 ∨ eccAt s.port.ecc a = some .uncorrectable → Stored t a 0 ∧ WatchesEnded s t a) ∧
      (held ≠ 2 → eccAt s.port.ecc a ≠ some .uncorrectable →
        Stored t a held ∧ t.port.guard = s.port.guard ∧ t.port.notices = s.port.notices) ∧
      t = { s with port := { s.port with
        mem := t.port.mem, ecc := t.port.ecc, guard := t.port.guard, notices := t.port.notices
        corrected := t.port.corrected, uncorrected := t.port.uncorrected } }

/-- Ones written to a news word or the summary word clear those bits and nothing else; releasing a DONE slot makes it FREE and
clears both; a narrower write, and any write in COLD_INIT, is discarded (R14, R43). -/
def Obligations.OnesClearNewsAndSummary : Prop :=
  (∀ (s : State) (n : SlotNo) (v : Word), Working s → ∃ t, exec (.clearNews n v) s = .next t ∧
     (∀ i, i < 13 → (t.orders.slot n).news.getLsbD i = ((s.orders.slot n).news.getLsbD i && !v.getLsbD i)) ∧
     t.orders.slot n = { s.orders.slot n with news := (t.orders.slot n).news } ∧
     (∀ m, m ≠ n → t.orders.slot m = s.orders.slot m) ∧ t = { s with orders := { s.orders with slots := t.orders.slots } }) ∧
  (∀ (s : State) (v : Word), Working s → ∃ t, exec (.clearSummary v) s = .next t ∧
     (∀ i, i < 32 → t.orders.summary.getLsbD i = (s.orders.summary.getLsbD i && !v.getLsbD i)) ∧
     t = { s with orders := { s.orders with summary := t.orders.summary } }) ∧
  (∀ (s : State) (n : SlotNo), Ready s → (s.orders.slot n).state = .done → ∃ t, exec (.release n) s = .next t ∧
      t.orders.slot n = { s.orders.slot n with state := .free, news := 0 } ∧
      (∀ m, m ≠ n → t.orders.slot m = s.orders.slot m) ∧
      (∀ i, i < 32 → t.orders.summary.getLsbD i = (s.orders.summary.getLsbD i && decide (i ≠ n.val))) ∧
      t = { s with orders := { s.orders with slots := t.orders.slots, summary := t.orders.summary } }) ∧
  (∀ (s : State) (n : SlotNo) (v : Word), s.port.phase = .coldInit →
     exec (.clearNews n v) s = .next s ∧ exec (.clearSummary v) s = .next s) ∧
  (∀ (s : State) (addr : Addr) (enables : BitVec 4) (v : Word), enables ≠ 0xF#4 →
     (∃ n, targetOf addr = .news n) ∨ targetOf addr = .summary → exec (.hostNarrowWrite addr enables v) s = .next s)

/-- A CONTROL write in READY or WARM_RESET stores ATTN_EN, and clears UNCORRECTED and CORRECTED where CLEAR_MEMERR is set; a
WARM_RESET written while a warm reset runs has no effect of its own; in COLD_INIT the write is discarded (R18). A write that sets
both action fields is one write, under whichever of the two rows it is sent (R18; log 34): in READY it begins the warm reset with
the errors cleared, as WarmResetBegins says. A HOST_WRITE too reaches the held words and CONTROL (R4; log 34): to a slot state
word it does what POST, WITHDRAW, CANCEL or RELEASE does where the pair of state and written value is that row's, and nothing for
any other pair (R10); to a news word or the summary word what CLEAR_NEWS or CLEAR_SUMMARY does (R14); to CONTROL what the row of
its action fields does (R18). -/
def Obligations.ControlWriteStoresAndClears : Prop :=
  (∀ (s : State) (e : Bool), Working s → exec (.attnEn e) s = .next { s with port := { s.port with attnEn := e } }) ∧
  (∀ (s : State) (e r : Bool), Working s → r = false ∨ s.port.phase = .warmReset →
    exec (.clearMemerr e r) s = .next { s with port := { s.port with attnEn := e, uncorrected := false, corrected := 0 } }) ∧
  (∀ (s : State) (e c : Bool), s.port.phase = .warmReset →
    exec (.warmReset e c) s = .next { s with port := { s.port with
      attnEn := e, uncorrected := s.port.uncorrected && !c, corrected := if c then 0 else s.port.corrected } }) ∧
  (∀ (s : State) (e b : Bool), s.port.phase = .coldInit → exec (.attnEn e) s = .next s ∧
    exec (.warmReset e b) s = .next s ∧ exec (.clearMemerr e b) s = .next s) ∧
  (∀ (s : State) (e : Bool), exec (.clearMemerr e true) s = exec (.warmReset e true) s ∧
    (Ready s → ∃ t, exec (.clearMemerr e true) s = .next t ∧ t.port.phase = .warmReset ∧ t.port.lastWarm = true ∧
      t.port.attnEn = e ∧ (s.capture = none → t.port.uncorrected = false ∧ t.port.corrected = 0))) ∧
  (∀ (s : State) (addr : Addr) (v : Word),
    let a := wordAddress addr
    let writes := exec (.hostWrite addr v) s
    (∀ n, a = slotBase n → writes =
      let st := (s.orders.slot n).state
      if st = .free ∧ v = 1 then exec (.post n) s
      else if st = .posted ∧ v = 0 then exec (.withdraw n) s
      else if (st = .taken ∨ st = .running) ∧ v = 4 then exec (.cancel n) s
      else if st = .done ∧ v = 0 then exec (.release n) s
      else .next s) ∧
    (∀ n, a = slotBase n + 4 → writes = exec (.clearNews n v) s) ∧ (a = 0x2000 → writes = exec (.clearSummary v) s) ∧
    (a = 0x400008 → writes =
      if v.getLsbD 1 then exec (.warmReset (v.getLsbD 0) (v.getLsbD 2)) s
      else if v.getLsbD 2 then exec (.clearMemerr (v.getLsbD 0) false) s
      else exec (.attnEn (v.getLsbD 0)) s))

/-- A disturbance of a memory word: a single-bit error leaves what the word reads as, an uncorrectable one leaves the raw word
given; check bits of every other word and every other byte are as before. Held words and registers have no check bits (R6, R2;
the operand's form is the model's, log 6). -/
def Obligations.DisturbanceMarksWord : Prop :=
  ∀ (s : State) (addr : Addr) (raw : Word), MemoryCanonical s →
    (∀ a, targetOf addr = .memory a →
      (∃ t, exec (.memoryWordDisturbed addr .singleBit) s = .next t ∧ MemoryKept s t ∧ CheckBitsKeptOutside s t [a] ∧
        eccAt t.port.ecc a = (if eccAt s.port.ecc a = some .uncorrectable then some .uncorrectable else some .single) ∧
        t = { s with port := { s.port with ecc := t.port.ecc } }) ∧
      (∃ t, exec (.memoryWordDisturbed addr (.uncorrectable raw)) s = .next t ∧ readMemWord t.port.mem a = raw ∧
        MemoryKeptOutside s t [(a, 4)] ∧ CheckBitsKeptOutside s t [a] ∧ eccAt t.port.ecc a = some .uncorrectable ∧
        t = { s with port := { s.port with mem := t.port.mem, ecc := t.port.ecc } })) ∧
    ((∀ a, targetOf addr ≠ .memory a) → ∀ d, exec (.memoryWordDisturbed addr d) s = .next s)

/-! ## Warm reset (R20, R44, R181) -/

/-- A CONTROL write with WARM_RESET set in READY: phase WARM_RESET, last reset WARM, ATTN_EN stored, memory errors cleared where
asked; a capture and a CALIBRATE run end. Slot states, masks, posting queue, transport counters, calibration table and the queue
of commands stay (R20). That the units' part is one action at the write, and that pending and reached TRANSPORTs, end reports and
notices are dropped in it, is the model's (log 32). A capture in ARMED writes end reason RESET and nothing else into memory
(R181). Past ARMED, a FILLING span becomes FULL with its fill and CUT, and the frames of spill store and bridge buffer are counted
as lost (R162, R182, R202); frames released and not placed go on into a FILLING span with nothing spilled before them, else they
are lost too (log 32); an open excerpt is closed FULL with CUT (R202); a speed map record is written where its list has room and
dropped with SPEEDMAP_DROPPED where it has none, after a close that has come due (R195, R202; log 20); a close at a pause that
still waits for the open excerpt (R200) goes with the record, with CUE for its cue (DEDUCED, log 57); an open dropout is closed
with CUT, its record written where the repair list has room and counted as suppressed where it has none (R104, R202). A released
count ahead of the written count gives the whole list as room, with the fault flag and LIST_FULL (R192). With any of these open at
once, LOST records too: the records held, handed and closed, then the open dropouts in lane order, then the LOST records with CUT,
group A's first (log 62), are written while there is room, the rest suppressed (R104, R202). The records' layouts are stated in
NoticesAndRepairRecords and SpeedMapRecords. -/
def Obligations.WarmResetBegins : Prop :=
  (∀ (s : State) (e c : Bool), Ready s → ∃ t, exec (.warmReset e c) s = .next t ∧
     t.port.phase = .warmReset ∧ t.port.lastWarm = true ∧ t.port.attnEn = e ∧ t.port.notices = [] ∧
     t.capture = none ∧ t.calibration = none ∧ t.reports = [] ∧
     (∀ n, (t.orders.slot n).state = (s.orders.slot n).state ∧ (t.orders.slot n).mask = (s.orders.slot n).mask ∧
       (t.orders.slot n).live = (s.orders.slot n).live) ∧
     t.orders = { s.orders with
       slots := t.orders.slots, summary := t.orders.summary, ends := [], pendingTransport := none, reachedTransport := none
       resetDone := false } ∧
     t.transport = s.transport ∧ t.elements = s.elements ∧ t.pending = s.pending ∧ t.freeCount = s.freeCount ∧
     (s.capture = none → t.port = { s.port with
       phase := .warmReset, lastWarm := true, attnEn := e, notices := [], uncorrected := s.port.uncorrected && !c
       corrected := if c then 0 else s.port.corrected } ∧ t.orders.slots = s.orders.slots ∧ t.orders.summary = s.orders.summary)) ∧
  (∀ (s : State) (e c : Bool) (n : SlotNo) (o : CaptureOrder) (k : Control), Ready s → MemoryCanonical s → k.state = .armed →
     s.capture = some { Capture.start n o with control := k } →
     ∃ t, exec (.warmReset e c) s = .next t ∧ Stored t (slotBase n + 0x24) 4 ∧ MemoryKeptOutside s t [(slotBase n + 0x24, 4)] ∧
       t.orders.slots = s.orders.slots ∧ t.orders.summary = s.orders.summary) ∧
  (∀ (s : State) (e c : Bool) (cap : Capture), Ready s → MemoryCanonical s → s.capture = some cap →
    let base := slotBase cap.slot
    let w := cap.writer
    let news := fun (t : State) (o : OrderUnit) => t.orders.slots = o.slots ∧ t.orders.summary = o.summary
    let without := fun (g : Group) (o : GroupOut) => { cap with writer := { w with groups := w.groups.put g o } }
    let bridged := fun (g : Group) => ((cap.resamplers.get g).map (·.buffer.length)).getD 0
    (∀ g, NothingOpen (without g { w.groups.get g with arriving := [] }) → w.closeDue = none →
      (∀ h, h ≠ g → SpansQuiet cap h) →
      let o := w.groups.get g
      let d := cursorSpan o
      let k := framesIn o.queue + o.arriving.length + bridged g
      o.arriving = [] ∨ o.filling = none ∨ o.queue ≠ [] →
      ∃ t, exec (.warmReset e c) s = .next t ∧
        (0 < k → Stored t (lostWord cap g) (BitVec.ofNat 32 (min 4294967295 (o.samplesLost + k)))) ∧
        (o.filling = none → Stored t (base + 0x24) 4 ∧ MemoryKeptOutside s t [(base + 0x24, 4), (lostWord cap g, 4)] ∧
          news t s.orders) ∧
        (∀ sp, o.filling = some sp → 0x2000 ≤ d.addr → Stored s d.addr 1 →
          Stored t (base + 0x24) 4 ∧ Stored t d.addr 2 ∧ Stored t (d.addr + 0x1C) (if sp.afterLoss then 3 else 1) ∧
          MemoryKeptOutside s t [(base + 0x24, 4), (lostWord cap g, 4), (d.addr, 4), (d.addr + 0x1C, 4)] ∧
          news t (s.orders.setNews cap.slot (match g with | .a => .spanA | .b => .spanB)))) ∧
    (∀ g sp len, NothingOpen (without g { w.groups.get g with arriving := [] }) → w.closeDue = none →
      (∀ h, h ≠ g → SpansQuiet cap h) →
      let o := w.groups.get g
      let d := cursorSpan o
      o.queue = [] → o.arriving ≠ [] → o.filling = some sp → 0 < len → (∀ f ∈ o.arriving, 4 * f.words.length = len) →
      sp.fill < d.capacity → len ∣ d.capacity - sp.fill → 0x2000 ≤ d.addr → 0x2000 ≤ d.buffer →
      Apart (d.addr, 32) (d.buffer, d.capacity) → Stored s d.addr 1 →
      let room := (d.capacity - sp.fill) / len
      let placed := min room o.arriving.length
      let k := o.arriving.length - placed + bridged g
      ∃ t, exec (.warmReset e c) s = .next t ∧ Stored t (base + 0x24) 4 ∧ Stored t d.addr 2 ∧
        FramesAt t (d.buffer + sp.fill) len (o.arriving.take room) ∧
        Stored t (d.addr + 0x0C) (BitVec.ofNat 32 (sp.fill + len * placed)) ∧
        Stored t (d.addr + 0x14) (BitVec.ofNat 32 (sp.frames + placed)) ∧
        (o.arriving.length < room → Stored t (d.addr + 0x1C) (if sp.afterLoss then 3 else 1)) ∧
        (0 < k → Stored t (lostWord cap g) (BitVec.ofNat 32 (min 4294967295 (o.samplesLost + k)))) ∧
        MemoryKeptOutside s t ([(base + 0x24, 4), (d.addr, 4), (d.addr + 0x0C, 4), (d.addr + 0x14, 4),
          (d.buffer + sp.fill, len * placed)] ++ (if o.arriving.length < room then [(d.addr + 0x1C, 4)] else []) ++
          (if k = 0 then [] else [(lostWord cap g, 4)])) ∧
        news t (s.orders.setNews cap.slot (match g with | .a => .spanA | .b => .spanB))) ∧
    ((∀ g, SpansQuiet cap g) →
      (∀ x, w.excerpt = some x → NothingOpen { cap with writer := { w with excerpt := none } } → w.closeDue = none →
        0x2000 ≤ x.span.addr → 0x2000 ≤ x.span.buffer → Apart (x.span.addr, 32) (x.span.buffer, 64) → Stored s x.span.addr 1 →
        ∃ t, exec (.warmReset e c) s = .next t ∧ Stored t (base + 0x24) 4 ∧ Stored t x.span.addr 2 ∧
          Stored t (x.span.addr + 0x0C) (BitVec.ofNat 32 (64 + 15360 * x.stored)) ∧ Stored t (x.span.addr + 0x1C) 1 ∧
          (∀ (i : Nat) (v : Word), (x.header (getAt cap.params.lanes x.lane) false true)[i]? = some v →
            Stored t (x.span.buffer + 4 * i) v) ∧
          MemoryKeptOutside s t [(base + 0x24, 4), (x.span.addr, 4), (x.span.addr + 0x0C, 20), (x.span.buffer, 64)] ∧
          news t (s.orders.setNews cap.slot .excerpt)) ∧
      (∀ m due n, w.map = some m → NothingOpen { cap with writer := { w with map := none } } → w.closeDue = due →
        let l := w.mapList
        let cued := fun (o : OrderUnit) => if due = some true then o.setNews cap.slot .cue else o
        Outstanding s l n →
        (n < l.capacity → ∃ t, exec (.warmReset e c) s = .next t ∧ Stored t (base + 0x24) 4 ∧
          (∀ (i : Nat) (v : Word), (m.words w.mapWritten)[i]? = some v →
            Stored t (l.header + 16 + 64 * (l.written.toNat % l.capacity) + 4 * i) v) ∧ Stored t (l.header + 4) (l.written + 1) ∧
          Stored t (base + 0x5C) (BitVec.ofNat 32 (upTo 4294967295 w.mapWritten)) ∧
          MemoryKeptOutside s t [(base + 0x24, 4), (base + 0x5C, 4),
            (l.header + 16 + 64 * (l.written.toNat % l.capacity), 64), (l.header + 4, 4)] ∧
          news t (cued (s.orders.setNews cap.slot .speedMap))) ∧
        (n = l.capacity → ∃ t, exec (.warmReset e c) s = .next t ∧
          Stored t (base + 0x28) (BitVec.ofNat 32 (flagBit w.faultMap + 2 * flagBit w.faultRepair + 4)) ∧
          MemoryKeptOutside s t [(base + 0x24, 4), (base + 0x28, 4)] ∧
          news t (if due.isSome then cued (s.orders.setNews cap.slot .listFull) else s.orders)) ∧
        (l.capacity < n → 0 < l.capacity → ∃ t, exec (.warmReset e c) s = .next t ∧ Stored t (base + 0x24) 4 ∧
          Stored t (base + 0x28) (BitVec.ofNat 32 (1 + 2 * flagBit w.faultRepair + 4 * flagBit w.mapDropped)) ∧
          (∀ (i : Nat) (v : Word), (m.words w.mapWritten)[i]? = some v →
            Stored t (l.header + 16 + 64 * (l.written.toNat % l.capacity) + 4 * i) v) ∧ Stored t (l.header + 4) (l.written + 1) ∧
          Stored t (base + 0x5C) (BitVec.ofNat 32 (upTo 4294967295 w.mapWritten)) ∧
          MemoryKeptOutside s t [(base + 0x24, 8), (base + 0x5C, 4),
            (l.header + 16 + 64 * (l.written.toNat % l.capacity), 64), (l.header + 4, 4)] ∧
          news t (cued ((s.orders.setNews cap.slot .listFull).setNews cap.slot .speedMap)))) ∧
      (∀ g r m n, w.closeDue = none → cap.monitor = some m → (w.groups.get g).lost = some r →
        NothingOpen (without g { w.groups.get g with lost := none }) →
        let l := w.repairList
        Outstanding s l n → l.capacity < n → 0 < l.capacity →
        ∃ t, exec (.warmReset e c) s = .next t ∧ Stored t (base + 0x24) 4 ∧
          Stored t (base + 0x28) (BitVec.ofNat 32 (flagBit w.faultMap + 2 + 4 * flagBit w.mapDropped)) ∧
          (∀ (i : Nat) (v : Word), (lostRepair m.seq g r true).words[i]? = some v →
            Stored t (l.header + 16 + 32 * (l.written.toNat % l.capacity) + 4 * i) v) ∧ Stored t (l.header + 4) (l.written + 1) ∧
          Stored t (base + 0x60) (BitVec.ofNat 32 (upTo 4294967295 w.repairWritten)) ∧
          MemoryKeptOutside s t [(base + 0x24, 8), (base + 0x60, 4),
            (l.header + 16 + 32 * (l.written.toNat % l.capacity), 32), (l.header + 4, 4)] ∧
          news t ((s.orders.setNews cap.slot .listFull).setNews cap.slot .repair)) ∧
      (∀ m lane x d r n, NothingOpen { cap with monitor := none } → w.closeDue = none → cap.monitor = some m → m.closed = [] →
        getAt m.lanes lane = some x → x.dropout = some d → x.run = none →
        (∀ l y, l ≠ lane → getAt m.lanes l = some y → y.dropout = none) →
        cap.resamplers.get (getAt cap.params.lanes lane).group = some r →
        let l := w.repairList
        let first := d.firstOut.getD r.next
        let record : RepairRec :=
          { seq := m.seq, kind := d.kind, place := lane.val, minPresent := d.minPresent, cut := true, noExcerpt := d.noExcerpt
            absent := d.absent, first := BitVec.ofNat 32 first, length := min 4294967295 (r.next - first), block := d.block
            position := d.position, voidRuns := d.voidRuns, longest := d.longest, bridged := d.bridged }
        Outstanding s l n →
        (n < l.capacity → ∃ t, exec (.warmReset e c) s = .next t ∧ Stored t (base + 0x24) 4 ∧
          (∀ (i : Nat) (v : Word), record.words[i]? = some v →
            Stored t (l.header + 16 + 32 * (l.written.toNat % l.capacity) + 4 * i) v) ∧ Stored t (l.header + 4) (l.written + 1) ∧
          MemoryKeptOutside s t [(base + 0x24, 4), (base + 0x60, 4),
            (l.header + 16 + 32 * (l.written.toNat % l.capacity), 32), (l.header + 4, 4)] ∧
          news t (s.orders.setNews cap.slot .repair)) ∧
        (n = l.capacity → ∃ t, exec (.warmReset e c) s = .next t ∧
          Stored t (base + 0x64) (BitVec.ofNat 32 (min 4294967295 (w.suppressed + 1))) ∧
          MemoryKeptOutside s t [(base + 0x24, 4), (base + 0x64, 4)] ∧ news t s.orders))) ∧
    (∀ m n nm, cap.monitor = some m →
      (w.closeDue ≠ none → ∃ f x, w.closeAfter = some f ∧ w.excerpt = some x ∧ x.nextIdx ≤ f) →
      (∀ g, (w.groups.get g).arriving = []) →
      let next := fun (lane : LaneNo) => ((cap.resamplers.get (getAt cap.params.lanes lane).group).map (·.next)).getD 0
      let opened := fun (lane : LaneNo) => (getAt m.lanes lane).bind (·.dropout)
      (∀ lane x, getAt m.lanes lane = some x → x.run = none) →
      (∀ lane, (opened lane).isSome = true ∨ (∃ x ∈ m.closed, x.lane = lane ∧ x.length = none) →
        (cap.resamplers.get (getAt cap.params.lanes lane).group).isSome = true) →
      let ended := fun (lane : LaneNo) (d : Dropout) (seq : Nat) => ({
        seq := seq, kind := d.kind, place := lane.val, minPresent := d.minPresent, cut := true, noExcerpt := d.noExcerpt
        absent := d.absent, first := BitVec.ofNat 32 (d.firstOut.getD (next lane))
        length := min 4294967295 (next lane - d.firstOut.getD (next lane)), block := d.block
        position := d.position, voidRuns := d.voidRuns, longest := d.longest, bridged := d.bridged } : RepairRec)
      let fresh : List (Nat → RepairRec) :=
        ((List.finRange 4).filterMap fun lane => (opened lane).map (ended lane)) ++
        ([Group.a, Group.b].filterMap fun g => (w.groups.get g).lost.map fun r seq => lostRepair seq g r true)
      let records := w.holding ++ w.handed ++
        (m.closed.map fun x => match x.length with | some k => x.record k | none => ended x.lane x.drop x.seq) ++
        (fresh.zipIdx.map fun x => x.1 (m.seq + x.2))
      (records.map (·.seq)).Pairwise (· < ·) →
      let l := w.repairList
      let lm := w.mapList
      let count := min records.length (l.capacity - n)
      ListTakes s w n count → Outstanding s lm nm → nm ≤ lm.capacity → 4 ≤ lm.capacity →
      let span := fun (g : Group) => cursorSpan (w.groups.get g)
      let lost := fun (g : Group) => framesIn (w.groups.get g).queue + bridged g
      (∀ g, (w.groups.get g).filling.isSome = true → 0x2000 ≤ (span g).addr ∧ Stored s (span g).addr 1) →
      (∀ x, w.excerpt = some x → 0x2000 ≤ x.span.addr ∧ 0x2000 ≤ x.span.buffer ∧ Stored s x.span.addr 1) →
      ([(l.header, 16 + 32 * l.capacity), (lm.header, 16 + 64 * lm.capacity)] ++
        ([Group.a, Group.b].filterMap fun g => (w.groups.get g).filling.map fun _ => ((span g).addr, 32)) ++
        (w.excerpt.toList.flatMap fun (x : Excerpt) => [(x.span.addr, 32), (x.span.buffer, 64)])).Pairwise Apart →
      ∃ t, exec (.warmReset e c) s = .next t ∧ Stored t (base + 0x24) 4 ∧
        (∀ g, 0 < lost g →
          Stored t (lostWord cap g) (BitVec.ofNat 32 (min 4294967295 ((w.groups.get g).samplesLost + lost g)))) ∧
        (∀ g sp, (w.groups.get g).filling = some sp →
          Stored t (span g).addr 2 ∧ Stored t ((span g).addr + 0x1C) (if sp.afterLoss then 3 else 1)) ∧
        (∀ x, w.excerpt = some x →
          let number := m.seq + ((List.finRange 4).filter fun y => decide (y < x.lane) && (opened y).isSome).length
          let shown := { x with seqs := x.seqs ++ (if (opened x.lane).isSome then [number] else []) }
          Stored t x.span.addr 2 ∧ Stored t (x.span.addr + 0x0C) (BitVec.ofNat 32 (64 + 15360 * x.stored)) ∧
          Stored t (x.span.addr + 0x1C) 1 ∧
          ∀ (i : Nat) (v : Word), (shown.header (getAt cap.params.lanes x.lane) false true)[i]? = some v →
            Stored t (x.span.buffer + 4 * i) v) ∧
        RepairsPlaced t l (records.take count) ∧
        (0 < count → Stored t (base + 0x60) (BitVec.ofNat 32 (min 4294967295 (w.repairWritten + count)))) ∧
        (count < records.length →
          Stored t (base + 0x64) (BitVec.ofNat 32 (min 4294967295 (w.suppressed + (records.length - count))))) ∧
        (∀ x, w.map = some x → nm < lm.capacity →
          (∀ (i : Nat) (v : Word), (x.words w.mapWritten)[i]? = some v →
            Stored t (lm.header + 16 + 64 * (lm.written.toNat % lm.capacity) + 4 * i) v) ∧
          Stored t (lm.header + 4) (lm.written + 1) ∧
          Stored t (base + 0x5C) (BitVec.ofNat 32 (upTo 4294967295 w.mapWritten))) ∧
        (w.map ≠ none → nm = lm.capacity →
          Stored t (base + 0x28) (BitVec.ofNat 32 (flagBit w.faultMap + 2 * flagBit w.faultRepair + 4))) ∧
        MemoryKeptOutside s t ([(base + 0x24, 4)] ++
          ([Group.a, Group.b].flatMap fun g => (if lost g = 0 then [] else [(lostWord cap g, 4)]) ++
            (if (w.groups.get g).filling = none then [] else [((span g).addr, 4), ((span g).addr + 0x1C, 4)])) ++
          (w.excerpt.toList.flatMap fun (x : Excerpt) => [(x.span.addr, 4), (x.span.addr + 0x0C, 20), (x.span.buffer, 64)]) ++
          repairRanges cap.slot l count ++
          (if count = records.length then [] else [(base + 0x64, 4)]) ++
          (if w.map = none then [] else if nm = lm.capacity then [(base + 0x28, 4)] else
            [(base + 0x5C, 4), (lm.header + 4, 4), (lm.header + 16 + 64 * (lm.written.toNat % lm.capacity), 64)])) ∧
        news t (((if (w.groups.a.filling).isSome then [Cause.spanA] else []) ++
            (if (w.groups.b.filling).isSome then [Cause.spanB] else []) ++ (if w.excerpt.isSome then [Cause.excerpt] else []) ++
            (if 0 < count then [Cause.repair] else []) ++
            (if w.map.isSome ∧ nm < lm.capacity then
              Cause.speedMap :: (if w.closeDue = some true then [Cause.cue] else []) else [])).foldl (fun o k => o.setNews cap.slot k) s.orders)))

/-- The order unit's warm-reset work: every TAKEN, RUNNING or STOPPING slot becomes DONE with outcome RESET, refusal code NONE,
CANCEL_LATE clear and DONE news, with its summary bit where its mask asks for DONE, its mask and its other news kept; every other
slot and summary bit stays; the posting queue holds the POSTED slots in ascending number; run queue, copies and bindings are
discarded; no other memory byte or check bits change, and of the port nothing else: the guard entries of those slots and their
watches stay (R44, R202; DEDUCED, log 52). When every unit has finished, the guard table is emptied, entries and watches alike,
without a notice and the phase is READY; nothing else changes (R20). ORDER_RESET outside WARM_RESET or with its work done, and
WARM_RESET_END before that, have no effect (DESIGN CHOICE, log 4). -/
def Obligations.WarmResetEndsOrders : Prop :=
  (∀ s : State, s.port.phase = .warmReset → s.orders.resetDone = false → MemoryCanonical s →
     ∃ t, exec .orderReset s = .next t ∧
       (∀ n, (s.orders.slot n).state.isLive = true → Stored t (slotBase n + 0x0C) 8 ∧
         t.orders.slot n = { s.orders.slot n with state := .done, live := none, news := (s.orders.slot n).news ||| 1 }) ∧
       (∀ n, (s.orders.slot n).state.isLive = false → t.orders.slot n = s.orders.slot n) ∧
       (∀ n : SlotNo, t.orders.summary.getLsbD n.val =
         (s.orders.summary.getLsbD n.val || ((s.orders.slot n).state.isLive && (s.orders.slot n).mask.getLsbD 0))) ∧
       t.orders = {
         slots := t.orders.slots, summary := t.orders.summary
         posting := (List.finRange 32).filter fun n => decide ((s.orders.slot n).state = .posted)
         named := [], runQueue := [], taking := none, ends := [], pendingTransport := none, reachedTransport := none
         resetDone := true } ∧
       t.port = { s.port with mem := t.port.mem, ecc := t.port.ecc } ∧
       (∀ a, (∀ n : SlotNo, (s.orders.slot n).state.isLive = true → a ≠ slotBase n + 0x0C) →
         eccAt t.port.ecc a = eccAt s.port.ecc a) ∧
       (∀ a, (∀ n : SlotNo, (s.orders.slot n).state.isLive = true → a < slotBase n + 0x0C ∨ slotBase n + 0x10 ≤ a) →
         readByte t.port.mem a = readByte s.port.mem a) ∧
       t = { s with port := t.port, orders := t.orders }) ∧
  (∀ s : State, s.port.phase ≠ .warmReset ∨ s.orders.resetDone = true → exec .orderReset s = .next s) ∧
  ((∀ s : State, s.port.phase = .warmReset → s.orders.resetDone = true →
     exec .warmResetEnd s = .next { s with port := { s.port with guard := [], phase := .ready } }) ∧
   (∀ s : State, s.port.phase ≠ .warmReset ∨ s.orders.resetDone = false → exec .warmResetEnd s = .next s))

/-! ## Orders (02) -/

/-- A posting: the slot becomes POSTED and its number goes to the tail of the posting queue; nothing else changes. A posting
of a slot that is not FREE, or outside READY, is discarded (R10, R20, R23, R25). A withdrawal: the slot becomes FREE and its
number leaves the posting queue wherever it stands; nothing else changes, but that the model notes a slot withdrawn at the head
while no order is being taken, since the unit's request may have named it (R26; log 14). The write is discarded outside READY
and for a slot that is neither POSTED nor DONE (R10, R20, R23, R25). -/
def Obligations.PostAndWithdraw : Prop :=
  (∀ (s : State) (n : SlotNo),
     (Ready s → (s.orders.slot n).state = .free →
       ∃ t, exec (.post n) s = .next t ∧ SlotBecomes s t n .posted ∧
         t = { s with orders := { s.orders with slots := t.orders.slots, posting := s.orders.posting ++ [n] } }) ∧
     (¬ (s.port.phase = .ready ∧ (s.orders.slot n).state = .free) → exec (.post n) s = .next s)) ∧
  (∀ (s : State) (n : SlotNo),
     (Ready s → (s.orders.slot n).state = .posted → ∃ t, exec (.withdraw n) s = .next t ∧ SlotBecomes s t n .free ∧
       n ∉ t.orders.posting ∧ (∀ m, m ≠ n → (m ∈ t.orders.posting ↔ m ∈ s.orders.posting)) ∧
       t.orders.posting.Sublist s.orders.posting ∧
       (∀ m, m ∈ t.orders.named ↔
         m ∈ s.orders.named ∨ (m = n ∧ s.orders.taking = none ∧ s.orders.posting.head? = some n)) ∧
       t = { s with orders := { s.orders with
         slots := t.orders.slots, posting := t.orders.posting, named := t.orders.named } }) ∧
     (¬ (s.port.phase = .ready ∧ ((s.orders.slot n).state = .posted ∨ (s.orders.slot n).state = .done)) →
       exec (.withdraw n) s = .next s))

/-- A cancel of a stream order in the run queue: in one action its outcome CANCELLED is written with CANCEL_LATE clear, it
leaves the run queue and the guard table, and its slot is DONE with DONE news (R39). What has come due in the speed reference
unit is carried out first (log 20). A cancel of a slot that is FREE, POSTED, STOPPING or DONE, and any cancel outside READY,
is discarded (R10, R20, R41). -/
def Obligations.CancelOfQueuedOrder : Prop :=
  (∀ (s : State) (n : SlotNo), Ready s → MemoryCanonical s → (s.orders.slot n).state = .taken →
     (∃ q ∈ s.orders.runQueue, q.1 = n) →
     let s1 := settled s
     ∃ t, exec (.cancel n) s = .next t ∧ Finished s1 t n .cancelled .none false ∧
       t.orders.runQueue = s.orders.runQueue.filter (fun q => decide (q.1 ≠ n)) ∧
       t = { s1 with port := t.port, orders := { s1.orders with
         slots := t.orders.slots, summary := t.orders.summary, runQueue := t.orders.runQueue } }) ∧
  (∀ (s : State) (n : SlotNo),
     ¬ (s.port.phase = .ready ∧ ((s.orders.slot n).state = .taken ∨ (s.orders.slot n).state = .running)) →
     exec (.cancel n) s = .next s)

/-- A cancel of a CALIBRATE run or a TRANSPORT: the slot is STOPPING; a run not yet in STOPPING, and a TRANSPORT whose binding
block is not reached, end CANCELLED as the cancel's own effect; otherwise, and for an order under validation, nothing more happens
(R32, R40, R80). A cancel of a RETUNE whose binding block is not reached drops the pending tuning, and before block 0 is taken the
units go back to the tuning in force (R36, R165; log 60); of a waiting SOURCE order, ends the wait; both end CANCELLED as the
cancel's own effect. A cancel of a RETUNE whose binding block is reached changes its slot state only: it still ends by itself
(R36, R41). In probation the order ends COMPLETE (R36, R40, R141); that the probation count is written there is log 31. What has
come due in the speed reference unit is carried out first (log 20). -/
def Obligations.CancelOfBoundOrder : Prop :=
  (∀ (s : State) (n : SlotNo), Ready s → (s.orders.slot n).state = .taken ∨ (s.orders.slot n).state = .running →
     (∀ q ∈ s.orders.runQueue, q.1 ≠ n) →
     let s1 := settled s
     let stopped := { s1 with orders := s1.orders.setState n .stopping }
     ((s.orders.slot n).live = some .calibrate → ∀ r, s1.calibration = some r → r.slot = n →
       exec (.cancel n) s = .next (if r.state = .stopping then stopped else { stopped with
         calibration := none, orders := { stopped.orders with ends := reported s1 n .cancelled true } })) ∧
     ((s.orders.slot n).live = some .transport →
       exec (.cancel n) s = .next (if s1.orders.pendingTransport.map (·.slot) = some n then { stopped with
         orders := { stopped.orders with ends := reported s1 n .cancelled true, pendingTransport := none } } else stopped)) ∧
     ((s.orders.slot n).live = none → exec (.cancel n) s = .next stopped)) ∧
  (∀ (s : State) (n : SlotNo) (cap : Capture), Ready s →
     (s.orders.slot n).state = .taken ∨ (s.orders.slot n).state = .running → (∀ q ∈ s.orders.runQueue, q.1 ≠ n) →
     (settled s).capture = some cap →
     let s1 := settled s
     let stopped := s1.orders.setState n .stopping
     let k := cap.control
     ((s.orders.slot n).live = some .retune → ∀ p, k.pending = some p → p.slot = n →
       exec (.cancel n) s = .next { s1 with
         orders := { stopped with ends := reported s1 n .cancelled true }
         capture := some (unitsFor s1.elements.table k.tuning { cap with control := { k with pending := none } }) }) ∧
     ((s.orders.slot n).live = some .retune → (∀ p, k.pending = some p → p.slot ≠ n) →
       exec (.cancel n) s = .next { s1 with orders := stopped }) ∧
     ((s.orders.slot n).live = some .source → ∀ g r count, k.sources.get g = some r → r.slot = n → r.phase = .waiting count →
       (∀ h x, h ≠ g → k.sources.get h = some x → x.slot ≠ n) →
       exec (.cancel n) s = .next { s1 with
         orders := { stopped with ends := reported s1 n .cancelled true }
         capture := some { cap with control := { k with sources := k.sources.put g none } } }) ∧
     ((s.orders.slot n).live = some .source → ∀ g r count list source, k.sources.get g = some r → r.slot = n →
       r.phase = .probation count list source → (∀ h x, h ≠ g → k.sources.get h = some x → x.slot ≠ n) →
       exec (.cancel n) s = .next { s1 with
         port := s1.port.store (slotBase n + 0x2C) (BitVec.ofNat 32 count)
         orders := { stopped with ends := reported s1 n .complete false }
         capture := some { cap with control := { k with sources := k.sources.put g none } } }))

/-- A cancel of the running CAPTURE, by the capture's state: ARMED or PAUSED, STOPPING with end reason CANCEL; RUNNING with no
block waiting to be judged, the candidate is also taken as final; RUNNING with blocks waiting, they are judged first;
STOPPING, the flush goes on (R176). What has come due in the speed reference unit is carried out first (log 20); how blocks that
wait are judged after a cancel is log 22. Cancelled in PAUSED, the pause's final block is the capture's: the resampler of a group
that has flushed it is discarded (R143; DEDUCED, log 64). -/
def Obligations.CancelOfCapture : Prop :=
  ∀ (s : State) (n : SlotNo) (cap : Capture), Ready s → MemoryCanonical (settled s) → (s.orders.slot n).state = .running →
    (∀ q ∈ s.orders.runQueue, q.1 ≠ n) → (s.orders.slot n).live = some .capture →
    (settled s).capture = some cap → cap.slot = n →
    let s1 := settled s
    let k := cap.control
    ∃ t k' rs, exec (.cancel n) s = .next t ∧ SlotBecomes s1 t n .stopping ∧
      t = { s1 with port := t.port, orders := { s1.orders with slots := t.orders.slots }
                    capture := some { cap with control := k', resamplers := rs } } ∧
      (k.state = .stopping → k' = k ∧ t.port = s1.port) ∧
      (k.state ≠ .paused → rs = cap.resamplers) ∧
      (k.state = .paused → ∀ g,
        let flushed := k.toTake = [] ∧ k.candidate = none ∧ k.cancelLeft = 0 ∧ ∀ x ∈ k.inFlight, (x.resampled.get g).isSome = true
        (flushed → rs.get g = none) ∧ (¬ flushed → rs.get g = cap.resamplers.get g)) ∧
      (k.state ≠ .stopping → StoresWord s1 t (slotBase n + 0x20) 3) ∧
      (k.state = .armed ∨ k.state = .paused → k' = { k with state := .stopping, endReason := .cancel }) ∧
      (k.state = .running → s.reports = [] → ∀ r, k.candidate = some r → k' = { k with
        state := .stopping, endReason := .cancel, candidate := none, toTake := k.toTake ++ [{ r with final := some .capture }] }) ∧
      (k.state = .running → s.reports ≠ [] →
        k' = { k with state := .stopping, endReason := .cancel, cancelLeft := s.reports.length })

/-- A take: the slot that the request names becomes TAKEN and leaves the posting queue. It is the head, or a slot that was
withdrawn at the head and has been posted again since (R26); which of them, where there is such a slot, is a free value (log
14). Its outcome word and its progress and result area become zero (R21). The order is then copied: kind word, attention mask
and what the copying gave are held, and no byte of memory changes by it (R27; that the copy is whole at the take is log 13).
Nothing else changes. Outside READY, while an order is being taken, or with nothing posted, no order is taken (R26;
log 4). -/
def Obligations.TakeClearsResults : Prop :=
  (∀ (s : State) (h : SlotNo) (rest : List SlotNo), Ready s → MemoryCanonical s → PostingExact s → s.orders.taking = none →
    s.orders.posting = h :: rest →
    ∃ (t : State) (n : SlotNo) (c : CopyResult) (p : Port), exec .takeOrder s = .next t ∧ (n = h ∨ n ∈ rest ∧ n ∈ s.orders.named) ∧
      t.orders.slot n = { s.orders.slot n with state := .taken, mask := (t.orders.slot n).mask } ∧
      (∀ m, m ≠ n → t.orders.slot m = s.orders.slot m) ∧ Stored t (slotBase n + 0x0C) 0 ∧
      (∀ i, i < 56 → Stored t (slotBase n + 0x20 + 4 * i) 0) ∧
      MemoryKeptOutside s t [(slotBase n + 0x0C, 4), (slotBase n + 0x20, 224)] ∧
      p = { s.port with mem := t.port.mem, ecc := p.ecc } ∧ p.copyOrder n = ((t.orders.slot n).mask, c, t.port) ∧
      (∀ a, a < slotBase n + 0x0C ∨ slotBase n + 0x10 ≤ a → a < slotBase n + 0x20 ∨ slotBase n + 0x100 ≤ a →
        eccAt p.ecc a = eccAt s.port.ecc a) ∧
      t = { s with
        port := { s.port with
          mem := t.port.mem, ecc := t.port.ecc, corrected := t.port.corrected, uncorrected := t.port.uncorrected }
        orders := { s.orders with
          slots := t.orders.slots, posting := s.orders.posting.filter (fun m => decide (m ≠ n)), named := []
          taking := some ⟨n, c⟩ }
        freeCount := t.freeCount }) ∧
  (∀ s : State, s.port.phase ≠ .ready ∨ s.orders.taking ≠ none ∨ s.orders.posting = [] → exec .takeOrder s = .next s)

/-- What copying an order finds in its kind word: unreadable, MEMORY_FAULT with every cause in the mask; a kind of 0 or 6 to 15,
BAD_KIND with the mask of the word, a single-bit error corrected and counted; a CAPTURE whose parameter block does not lie
wholly in the general area, BAD_LAYOUT (R22, R27, R205). Validation of an order whose copying met a refusal: refused with that
code, CANCEL_LATE where a cancel was served meanwhile (R32). What has come due in the speed reference unit is carried out first
(log 20). No order is validated outside READY, nor when none is being taken (R26; log 4). -/
def Obligations.ValidateRefusesBadKind : Prop :=
  (∀ (p : Port) (n : SlotNo),
     let a := slotBase n + 0x08
     let w := readMemWord p.mem a
     let block := readMemWord p.mem (slotBase n + 0x10)
     (eccAt p.ecc a = some .uncorrectable →
       p.copyOrder n = (BitVec.allOnes 13, .refused .memoryFault, { p with uncorrected := true })) ∧
     (eccAt p.ecc a ≠ some .uncorrectable → w.toNat % 16 = 0 ∨ 6 ≤ w.toNat % 16 →
       ∃ q, p.copyOrder n = (w.extractLsb' 16 13, .refused .badKind, q) ∧ eccAt q.ecc a = none ∧
         q = { p with ecc := q.ecc, corrected := q.corrected } ∧
         q.corrected = if eccAt p.ecc a = some .single ∧ p.corrected ≠ 255 then p.corrected + 1 else p.corrected) ∧
     (eccAt p.ecc a = none → eccAt p.ecc (slotBase n + 0x10) = none → w.toNat % 16 = 1 →
       block.toNat / 4 * 4 < 0x3000 ∨ 0x400000 < block.toNat / 4 * 4 + 80 →
       p.copyOrder n = (w.extractLsb' 16 13, .refused .badLayout, p))) ∧
  (∀ (s : State) (n : SlotNo) (e : RefusalCode), Ready s → MemoryCanonical (settled s) →
     s.orders.taking = some ⟨n, .refused e⟩ → (s.orders.slot n).state = .taken ∨ (s.orders.slot n).state = .stopping →
     let s1 := settled s
     ∃ t, exec .validate s = .next t ∧ Finished s1 t n .refused e (decide ((s.orders.slot n).state = .stopping)) ∧ t = { s1 with
       port := t.port, orders := { s1.orders with slots := t.orders.slots, summary := t.orders.summary, taking := none } }) ∧
  (∀ s : State, s.port.phase ≠ .ready ∨ s.orders.taking = none → exec .validate s = .next s)

/-- What copying gives where every word can be read: the mask, and by the kind the parameters read from the slot's words, a
CAPTURE's parameter block, the tuning profile, list capacities and descriptors, a record outside the general area being left
unread (R22, R27, R205). A word that cannot be read gives MEMORY_FAULT, be it a parameter word of the slot, or one of a record
that is read: a RETUNE's profile, a CAPTURE's parameter block, and with that readable its profile, list headers and descriptors
(R27); that every word of these counts, a list header's other three, a descriptor's last five and parameter words the kind does
not use too, is the model's reading (DEDUCED, log 15). The fields of a SOURCE, a TRANSPORT (none where a field names no code), a
tuning profile and a capture parameter block are those of the layouts in chapter 11. A CALIBRATE: its copy is what its readable
words say (R27, R203). Validation of a CALIBRATE's copy: a window outside 20 to 6,000 or an anchor past 15 is refused BAD_LAYOUT;
a full run queue refuses QUEUE_FULL; an order cancelled meanwhile that would be accepted ends CANCELLED; otherwise it joins the
run queue and its slot stays TAKEN (R28, R31 to R33). The mode has one bit, so it is always APPLY or MEASURE. What has come due in
the speed reference unit is carried out first (log 20). -/
def Obligations.ValidateCalibrate : Prop :=
  (∀ (p : Port) (n : SlotNo),
    let base := slotBase n
    let word := fun (a : Nat) => readMemWord p.mem a
    let record := fun (a count : Nat) => (List.range count).map fun i => word (a + 4 * i)
    let kind := (word (base + 0x08)).toNat % 16
    let mask := (word (base + 0x08)).extractLsb' 16 13
    let aligned := fun (w : Word) => w.toNat / 4 * 4
    let inside := fun (a bytes : Nat) => decide (0x3000 ≤ a ∧ a + bytes ≤ 0x400000)
    let tuning := fun (a : Nat) => if inside a 64 then some (parseTuning (record a 16)) else none
    let capacity := fun (a : Nat) => if inside a 16 then some (word a).toNat else none
    let descs := fun (a count : Nat) => if inside a (32 * count) then some ((List.range count).map fun i =>
      (⟨a + 32 * i, (word (a + 32 * i)).toNat, aligned (word (a + 32 * i + 4)), (word (a + 32 * i + 8)).toNat⟩ : SpanDesc)) else none
    let copies := fun (c : Copied) => ∃ q, p.copyOrder n = (mask, .copied c, q) ∧
      q = { p with ecc := q.ecc, corrected := q.corrected }
    ((∀ a, eccAt p.ecc a ≠ some .uncorrectable) →
      (kind = 4 → copies (.source (parseSource (word (base + 0x10))))) ∧
      (kind = 5 → copies (.transport (parseTransport (word (base + 0x10)) (word (base + 0x14)) (word (base + 0x18))))) ∧
      (kind = 3 → copies (.retune (tuning (aligned (word (base + 0x10)))))) ∧
      (kind = 1 → inside (aligned (word (base + 0x10))) 80 = true →
        let c := parseCaptureParams (record (aligned (word (base + 0x10))) 20)
        let spans := fun (g : Group) =>
          if (∃ l, (getAt c.lanes l).active = true ∧ (getAt c.lanes l).group = g) then descs (c.spanAddr.get g) (c.spanCount.get g)
          else some []
        copies (.capture { params := c, tuning := tuning c.profileAddr, mapCapacity := capacity c.mapAddr
                           repairCapacity := capacity c.repairAddr, spans := ⟨spans .a, spans .b⟩
                           excerpts := if c.excerptCount = 0 then some [] else descs c.excerptAddr c.excerptCount }))) ∧
    (eccAt p.ecc (base + 0x08) ≠ some .uncorrectable →
      let bad := fun (a bytes : Nat) => ∃ i, 4 * i < bytes ∧ eccAt p.ecc (a + 4 * i) = some .uncorrectable
      let faults := ∃ q, p.copyOrder n = (mask, .refused .memoryFault, q) ∧ q.uncorrected = true ∧ q.mem = p.mem
      let at1 := aligned (word (base + 0x10))
      (1 ≤ kind → kind ≤ 5 → bad (base + 0x10) 4 → faults) ∧ (kind = 2 → bad (base + 0x10) 8 → faults) ∧
      (kind = 5 → bad (base + 0x10) 12 → faults) ∧ (kind = 3 → ¬ bad (base + 0x10) 4 → inside at1 64 = true → bad at1 64 → faults) ∧
      (kind = 1 → ¬ bad (base + 0x10) 4 → inside at1 80 = true →
        (bad at1 80 → faults) ∧
        (¬ bad at1 80 →
          let c := parseCaptureParams (record at1 20)
          let spans := fun (g : Group) => ∃ l, (getAt c.lanes l).active = true ∧ (getAt c.lanes l).group = g
          ∀ a bytes, (a, bytes) ∈ [(c.profileAddr, 64), (c.mapAddr, 16), (c.repairAddr, 16), (c.excerptAddr, 32 * c.excerptCount)] ∨
              (∃ g, spans g ∧ (a, bytes) = (c.spanAddr.get g, 32 * c.spanCount.get g)) →
            inside a bytes = true → bad a bytes → faults)))) ∧
  (let bits := fun (w : Word) (high low : Nat) => w.toNat / 2 ^ low % 2 ^ (high + 1 - low)
   (∀ w : Word, parseSource w = {
      group := if bits w 0 0 = 1 then .b else .a, timeout := bits w 23 16
      target := match bits w 9 8 with | 0 => none | 1 => some .tach | 2 => some .hum | _ => some .bias }) ∧
   (∀ w0 w1 w2 : Word,
      let decoder := fun (low : Nat) => if bits w0 (low + 1) low = 3 ∨ 4 < bits w0 (low + 6) (low + 4) then none else some (
        { encoding := match bits w0 (low + 1) low with | 0 => .x4 | 1 => .x2 | _ => .x1
          debounce := match bits w0 (low + 3) (low + 2) with | 0 => 0 | 1 => 1 | 2 => 2 | _ => 4
          index := match bits w0 (low + 6) (low + 4) with
            | 0 => none | 1 => some .ll | 2 => some .hl | 3 => some .hh | _ => some .lh } : DecoderSettings)
      parseTransport w0 w1 w2 = match decoder 0, decoder 8, decoder 16 with
        | some c, some s, some t => some { capstan := c, supply := s, takeup := t, nc := bits w1 11 0, slipThreshold := bits w1 23 16
                                           preset := if bits w1 31 31 = 1 then some w2 else none }
        | _, _, _ => none) ∧
   (∀ ws : List Word,
      let w := fun (i : Nat) => ws.getD i 0
      let t := parseTuning ws
      t.sp = bits (w 2) 3 0 ∧ t.bl = bits (w 2) 11 8 ∧ t.ss = bits (w 2) 18 16 ∧ t.nd = bits (w 2) 30 24 ∧
      t.qf = bits (w 3) 23 0 ∧ t.leaderFloor = bits (w 4) 23 0 ∧ t.leaderTime = bits (w 5) 15 0 ∧
      (∀ l : LaneNo, let low := 16 * (l.val % 2)
        let half := w (l.val / 2)
        (getAt t.lanes l).watch.toNat = bits half (low + 5) low ∧ (getAt t.lanes l).anchor = bits half (low + 10) (low + 8) ∧
        (getAt t.lanes l).measure = decide (bits half (low + 12) (low + 12) = 1)) ∧
      ∀ g, let first := match g with | .a => 6 | .b => 9
        let o := t.groups.get g
        o.holdover = bits (w first) 15 8 ∧ o.hum60 = decide (bits (w first) 16 16 = 1) ∧
        o.humLane.val = bits (w first) 21 20 ∧ o.biasLane.val = bits (w first) 25 24 ∧
        o.biasNominal = (w (first + 1)).toNat ∧ o.biasGate = (w (first + 2)).toNat ∧
        o.prefs.map (fun x => match x with | .tach => 1 | .hum => 2 | .bias => 3) =
          [bits (w first) 1 0, bits (w first) 3 2, bits (w first) 5 4].takeWhile (· ≠ 0)) ∧
   (∀ ws : List Word, ws.length = 20 →
      let w := fun (i : Nat) => ws.getD i 0
      let address := fun (i : Nat) => (w i).toNat / 4 * 4
      let c := parseCaptureParams ws
      c.rateCode = bits (w 0) 1 0 ∧ c.formats.a = ⟨decide (bits (w 0) 4 4 = 1), decide (bits (w 0) 5 5 = 1)⟩ ∧
      c.formats.b = ⟨decide (bits (w 0) 6 6 = 1), decide (bits (w 0) 7 7 = 1)⟩ ∧
      c.start = (if bits (w 0) 8 8 = 1 then some (w 10) else none) ∧ c.stop = (if bits (w 0) 9 9 = 1 then some (w 11) else none) ∧
      c.cueCount = bits (w 0) 19 16 ∧ c.cues = (List.range (min (bits (w 0) 19 16) 8)).map (fun i => w (12 + i)) ∧
      (∀ l : LaneNo, let low := 16 * (l.val % 2)
        let half := w (1 + l.val / 2)
        getAt c.lanes l = { first := bits half (low + 3) low, count := bits half (low + 6) (low + 4)
                            group := if bits half (low + 8) (low + 8) = 1 then .b else .a
                            active := decide (bits half (low + 15) (low + 15) = 1) }) ∧
      c.profileAddr = address 3 ∧ c.spanAddr = ⟨address 4, address 5⟩ ∧ c.excerptAddr = address 6 ∧
      c.spanCount = ⟨bits (w 7) 7 0, bits (w 7) 15 8⟩ ∧ c.excerptCount = bits (w 7) 23 16 ∧
      c.mapAddr = address 8 ∧ c.repairAddr = address 9)) ∧
  (∀ (p : Port) (n : SlotNo),
    let kind := readMemWord p.mem (slotBase n + 0x08)
    let w := readMemWord p.mem (slotBase n + 0x10)
    eccAt p.ecc (slotBase n + 0x08) ≠ some .uncorrectable → eccAt p.ecc (slotBase n + 0x10) ≠ some .uncorrectable →
    eccAt p.ecc (slotBase n + 0x14) ≠ some .uncorrectable → kind.toNat % 16 = 2 →
    ∃ q, p.copyOrder n = (kind.extractLsb' 16 13, .copied (.calibrate
      { window := w.toNat % 65536, anchor := w.toNat / 65536 % 16, apply := w.getLsbD 24
        start := if w.getLsbD 25 then some (readMemWord p.mem (slotBase n + 0x14)) else none }), q) ∧
      q = { p with ecc := q.ecc, corrected := q.corrected }) ∧
  (∀ (s : State) (n : SlotNo) (order : CalibrateOrder), Ready s → MemoryCanonical (settled s) →
    s.orders.taking = some ⟨n, .copied (.calibrate order)⟩ →
    (s.orders.slot n).state = .taken ∨ (s.orders.slot n).state = .stopping →
    let s1 := settled s
    let late := decide ((s.orders.slot n).state = .stopping)
    let ok := 20 ≤ order.window ∧ order.window ≤ 6000 ∧ order.anchor ≤ 15
    let finishes := fun (out : OrderOutcome) (code : RefusalCode) (late : Bool) =>
      ∃ t, exec .validate s = .next t ∧ Finished s1 t n out code late ∧ t = { s1 with
        port := t.port, orders := { s1.orders with slots := t.orders.slots, summary := t.orders.summary, taking := none } }
    (¬ ok → finishes .refused .badLayout late) ∧
    (ok → 4 ≤ s.orders.runQueue.length → finishes .refused .queueFull late) ∧
    (ok → s.orders.runQueue.length < 4 → (s.orders.slot n).state = .stopping → finishes .cancelled .none false) ∧
    (ok → s.orders.runQueue.length < 4 → (s.orders.slot n).state = .taken →
      exec .validate s = .next { s1 with orders := { s1.orders.setSlot n { s1.orders.slot n with live := some .calibrate } with
        taking := none, runQueue := s.orders.runQueue ++ [(n, .calibrate order)] } }))

/-- Validation in general, over the engine's copy. A copying that met a refusal, and an order that fails a check, is refused with
that code; an order cancelled meanwhile that passes ends CANCELLED; any other is accepted and its slot stays TAKEN (R27, R31 to
R33). A CAPTURE joins the run queue and its guard entries the guard table: one SPAN_STATE entry for each descriptor of its lists,
one RELEASED entry for each of its two record lists, without a watch (R11). A RETUNE is bound to the next capture block index (in
PAUSED with the pause's final block not yet taken that is the final block's: log 44), the pending one is superseded, and so is a
SOURCE order of each group to which it brings another list, reported in that order, group A's first (DESIGN CHOICE, log 65); its
profile is checked against the lanes of the capture, one in STOPPING too, before NO_CAPTURE (DESIGN CHOICE, log 61), and with no
capture only in the fields of no lane or group (DEDUCED, log 17); before block 0 is taken the units follow the RETUNE's tuning
(R165; log 60); a SOURCE waits in its group, and the group's earlier one is superseded; a TRANSPORT is bound to the next block to
begin, and the pending one is superseded (R36 to R38, R138, R141). The ranges and the context that each kind is held to (R28 to
R31). What has come due in the speed reference unit is carried out first (log 20); a probation's count is written at a
supersession (log 31). A SOURCE is checked against the pending RETUNE's list, else that of the newest reached RETUNE on whose
binding block the speed reference unit has not worked, else the list it holds, in ARMED the tuning's (R31, R141; DEDUCED, log 43).
-/
def Obligations.ValidateRefusesOrBinds : Prop :=
  (∀ (s : State) (n : SlotNo) (copy : CopyResult), Ready s → MemoryCanonical (settled s) → s.orders.taking = some ⟨n, copy⟩ →
    (s.orders.slot n).state = .taken ∨ (s.orders.slot n).state = .stopping →
    let s1 := settled s
    let late := decide ((s.orders.slot n).state = .stopping)
    let finishes := fun (out : OrderOutcome) (code : RefusalCode) (late : Bool) =>
      ∃ t, exec .validate s = .next t ∧ Finished s1 t n out code late ∧ t = { s1 with
        port := t.port, orders := { s1.orders with slots := t.orders.slots, summary := t.orders.summary, taking := none } }
    let accepted := fun (k : Kind) => { s1.orders.setSlot n { s1.orders.slot n with live := some k } with taking := none }
    let ended := fun (m : SlotNo) => (⟨m, .superseded, .none, false⟩ : EndReport)
    (∀ e, copy = .refused e → finishes .refused e late) ∧
    (∀ c e, copy = .copied c → checkOrder s1 c = .error e → finishes .refused e late) ∧
    (∀ c o, copy = .copied c → checkOrder s1 c = .ok o → (s.orders.slot n).state = .stopping → finishes .cancelled .none false) ∧
    ((s.orders.slot n).state = .taken → ∀ c checked, copy = .copied c → checkOrder s1 c = .ok checked →
      (∀ o, checked = .capture o → exec .validate s = .next { s1 with
        port := { s1.port with guard := s1.port.guard ++ guardEntries n o }
        orders := { accepted .capture with runQueue := s1.orders.runQueue ++ [(n, .capture o)] } }) ∧
      (∀ t cap, checked = .retune t → s1.capture = some cap →
        let k := cap.control
        let out := fun (g : Group) => if heldPrefs cap g = (t.groups.get g).prefs then none else k.sources.get g
        let kept := fun (g : Group) => if (out g).isSome then none else k.sources.get g
        let counted := fun (g : Group) (p : Port) => match (out g).map SourceRun.phase, out g with
          | some (.probation count _ _), some q => p.store (slotBase q.slot + 0x2C) (BitVec.ofNat 32 count)
          | _, _ => p
        exec .validate s = .next { s1 with
          port := (counted .b (counted .a s1.port)).store (slotBase n + 0x20) (BitVec.ofNat 32 k.nextIdx)
          orders := { accepted .retune with ends := s1.orders.ends ++ k.pending.toList.map (fun q => ended q.slot) ++
            ((out .a).toList ++ (out .b).toList).map fun q => ended q.slot }
          capture := some (unitsFor s1.elements.table t { cap with control := { k with
            pending := some ⟨n, k.nextIdx, t⟩, sources := ⟨kept .a, kept .b⟩ } }) }) ∧
      (∀ g target timeout cap, checked = .source g target timeout → s1.capture = some cap →
        let k := cap.control
        let waits := some { cap with control := { k with
          sources := k.sources.put g (some ⟨n, target, timeout, .waiting 0, false⟩) } }
        (k.sources.get g = none → exec .validate s = .next { s1 with orders := accepted .source, capture := waits }) ∧
        (∀ r count, k.sources.get g = some r → r.phase = .waiting count → exec .validate s = .next { s1 with
          orders := { accepted .source with ends := s1.orders.ends ++ [ended r.slot] }, capture := waits }) ∧
        (∀ r count list source, k.sources.get g = some r → r.phase = .probation count list source →
          exec .validate s = .next { s1 with
            port := s1.port.store (slotBase r.slot + 0x2C) (BitVec.ofNat 32 count)
            orders := { accepted .source with ends := s1.orders.ends ++ [ended r.slot] }, capture := waits })) ∧
      (∀ o, checked = .transport o → exec .validate s = .next { s1 with
        port := s1.port.store (slotBase n + 0x20) (s1.elements.block + 1)
        orders := { accepted .transport with
          ends := s1.orders.ends ++ s1.orders.pendingTransport.toList.map fun q => ended q.slot
          pendingTransport := some ⟨n, s1.elements.block + 1, o⟩ } }))) ∧
  (∀ (cap : Capture) (g : Group),
    let k := cap.control
    (∀ p, k.pending = some p → nextPrefs cap g = (p.tuning.groups.get g).prefs) ∧
    (k.pending = none →
      (∀ before x after, k.inFlight = before ++ x :: after → x.binding = true → x.speed = none →
        (∀ y ∈ after, y.binding = true → y.speed ≠ none) → nextPrefs cap g = (x.tuning.groups.get g).prefs) ∧
      ((∀ y ∈ k.inFlight, y.binding = true → y.speed ≠ none) → nextPrefs cap g = heldPrefs cap g)) ∧
    (cap.speed = none → heldPrefs cap g = (k.tuning.groups.get g).prefs) ∧
    ∀ u, cap.speed = some u → heldPrefs cap g = match u.groups.get g with | none => [] | some y => y.prefs) ∧
  (∀ (n : SlotNo) (o : CaptureOrder),
    let descs := o.spans.a ++ o.spans.b ++ o.excerpts
    (guardEntries n o).length = descs.length + 2 ∧ ∀ e, e ∈ guardEntries n o ↔ e.slot = n ∧ e.watch = false ∧
      ((e.cls = .spanState ∧ ∃ d ∈ descs, e.addr = d.addr) ∨
       (e.cls = .released ∧ (e.addr = o.params.mapAddr + 8 ∨ e.addr = o.params.repairAddr + 8)))) ∧
  ((∀ (s : State) (c : CaptureCopy),
     (¬ LayoutRule c.params → checkOrder s (.capture c) = .error .badLayout) ∧
     (LayoutRule c.params →
       (c.tuning = none → checkOrder s (.capture c) = .error .badProfile) ∧
       (∀ t, c.tuning = some t →
         (¬ ProfileRule s.elements.table c.params t → checkOrder s (.capture c) = .error .badProfile) ∧
         (ProfileRule s.elements.table c.params t →
           (c.spans.a = none ∨ c.spans.b = none ∨ c.excerpts = none ∨ c.mapCapacity = none ∨ c.repairCapacity = none →
             checkOrder s (.capture c) = .error .badList) ∧
           (∀ a b e m r, c.spans = ⟨some a, some b⟩ → c.excerpts = some e → c.mapCapacity = some m → c.repairCapacity = some r →
             (¬ ListRule c.params a b e m r → checkOrder s (.capture c) = .error .badList) ∧
             (ListRule c.params a b e m r → 4 ≤ s.orders.runQueue.length →
               checkOrder s (.capture c) = .error .queueFull) ∧
             (ListRule c.params a b e m r → s.orders.runQueue.length < 4 →
               checkOrder s (.capture c) = .ok (.capture { params := c.params, tuning := t, mapCapacity := m, repairCapacity := r
                                                           spans := ⟨a, b⟩, excerpts := e }))))))) ∧
   (∀ s : State, checkOrder s (.retune none) = .error .badProfile) ∧
   (∀ (s : State) (t : Tuning), s.capture = none →
     (¬ CommonProfileRule t → checkOrder s (.retune (some t)) = .error .badProfile) ∧
     (CommonProfileRule t → checkOrder s (.retune (some t)) = .error .noCapture)) ∧
   (∀ (s : State) (t : Tuning) (cap : Capture), s.capture = some cap →
     (¬ ProfileRule s.elements.table cap.params t → checkOrder s (.retune (some t)) = .error .badProfile) ∧
     (ProfileRule s.elements.table cap.params t → cap.control.state = .stopping →
       checkOrder s (.retune (some t)) = .error .noCapture) ∧
     (ProfileRule s.elements.table cap.params t → cap.control.state ≠ .stopping →
       checkOrder s (.retune (some t)) = .ok (.retune t))) ∧
   (∀ (s : State) (o : SourceParams), o.target = none ∨ o.timeout = 0 ∨ 255 < o.timeout →
     checkOrder s (.source o) = .error .badLayout) ∧
   (∀ (s : State) (g : Group) (x : Source) (timeout : Nat), 1 ≤ timeout → timeout ≤ 255 →
     ((∀ cap, s.capture = some cap → cap.control.state = .stopping) →
       checkOrder s (.source ⟨g, some x, timeout⟩) = .error .noCapture) ∧
     (∀ cap, s.capture = some cap → cap.control.state ≠ .stopping →
       groupActive cap.params g = true ∧ x ∈ nextPrefs cap g →
         checkOrder s (.source ⟨g, some x, timeout⟩) = .ok (.source g x timeout)) ∧
     (∀ cap, s.capture = some cap → cap.control.state ≠ .stopping →
       groupActive cap.params g = false ∨ x ∉ nextPrefs cap g →
         checkOrder s (.source ⟨g, some x, timeout⟩) = .error .notTracked)) ∧
   (∀ s : State, checkOrder s (.transport none) = .error .badLayout) ∧
   (∀ (s : State) (o : TransportOrder),
     (4095 < o.nc ∨ o.slipThreshold < 5 ∨ 200 < o.slipThreshold → checkOrder s (.transport (some o)) = .error .badLayout) ∧
     (o.nc ≤ 4095 → 5 ≤ o.slipThreshold → o.slipThreshold ≤ 200 → streamBusy s.orders = true →
       checkOrder s (.transport (some o)) = .error .streamBusy) ∧
     (o.nc ≤ 4095 → 5 ≤ o.slipThreshold → o.slipThreshold ≤ 200 → streamBusy s.orders = false →
       checkOrder s (.transport (some o)) = .ok (.transport o))))

/-- The start of the head of the run queue: a CALIBRATE's slot is RUNNING and its run ARMED; a CAPTURE whose lanes pass the
watched-element check is RUNNING and ARMED, both counts of its two lists written to zero; one that does not is removed and its
end reported REFUSED BAD_PROFILE. While an accepted stream order is RUNNING or STOPPING (one still under validation does not
count: DESIGN CHOICE, log 54), while a refused head is not yet DONE, while a TRANSPORT is pending and outside READY none starts
(R34, R163, R183). -/
def Obligations.StartOfStreamOrder : Prop :=
  ∀ (s : State) (n : SlotNo) (order : StreamOrder) (rest : List (SlotNo × StreamOrder)),
    s.orders.runQueue = (n, order) :: rest →
    (s.port.phase ≠ .ready ∨ streamBusy s.orders = true ∨ transportBusy s.orders = true ∨
      (∃ e ∈ s.orders.ends, e.outcome = .refused) → exec .startStreamOrder s = .next s) ∧
    (Ready s → MemoryCanonical s → streamBusy s.orders = false → transportBusy s.orders = false →
      (∀ e ∈ s.orders.ends, e.outcome ≠ .refused) →
      (s.orders.slot n).state = .taken →
      (∀ o, order = .calibrate o → ∃ t r, exec .startStreamOrder s = .next t ∧ SlotBecomes s t n .running ∧
        t = { s with orders := { s.orders with slots := t.orders.slots, runQueue := rest }, calibration := some r, reports := [] } ∧
        r.slot = n ∧ r.order = o ∧ r.state = .armed ∧ r.processed = 0 ∧ r.pauses = 0 ∧ r.offsets = none ∧ r.finished = false) ∧
      (∀ o, order = .capture o → allWatched s.elements.table o.params o.tuning = true →
        ∃ t cap, exec .startStreamOrder s = .next t ∧ SlotBecomes s t n .running ∧
        t = { s with
          port := { s.port with mem := t.port.mem, ecc := t.port.ecc }
          orders := { s.orders with slots := t.orders.slots, runQueue := rest }, capture := some cap, reports := [] } ∧
        cap.slot = n ∧ cap.params = o.params ∧ cap.control.state = .armed ∧ cap.control.endReason = .none ∧
        cap.control.nextIdx = 0 ∧ cap.control.tuning = o.tuning ∧ cap.control.cueCursor = 1 ∧
        MemoryKeptOutside s t [(o.params.mapAddr + 4, 8), (o.params.repairAddr + 4, 8)] ∧
        (∀ a, o.params.mapAddr + 4 ≤ a → a < o.params.mapAddr + 12 → readByte t.port.mem a = 0) ∧
        (∀ a, o.params.repairAddr + 4 ≤ a → a < o.params.repairAddr + 12 → readByte t.port.mem a = 0)) ∧
      (∀ o, order = .capture o → allWatched s.elements.table o.params o.tuning = false →
        exec .startStreamOrder s = .next { s with orders := { s.orders with
          runQueue := rest, ends := s.orders.ends ++ [⟨n, .refused, .badProfile, false⟩] } }))

/-- An end acted on: from TAKEN or RUNNING the order is finished with its outcome; from STOPPING with CANCEL_LATE, unless the
end is the cancel's own effect; a slot that holds no live order is left as it is. A finished stream order's capture or run is
discarded (R24, R40, R41). -/
def Obligations.FinishActsOnEnd : Prop :=
  ∀ (s : State) (r : EndReport) (rest : List EndReport), Working s → MemoryCanonical s → s.orders.ends = r :: rest →
    let s1 := { s with orders := { s.orders with ends := rest } }
    let drops := { s1 with
      capture := if s.capture.map (·.slot) = some r.slot then none else s.capture
      calibration := if s.calibration.map (·.slot) = some r.slot then none else s.calibration
      reports := if s.capture.map (·.slot) = some r.slot ∨ s.calibration.map (·.slot) = some r.slot then [] else s.reports }
    ((s.orders.slot r.slot).state.isLive = true →
      let late := decide ((s.orders.slot r.slot).state = .stopping) && !r.own
      ∃ t, exec .finishOrder s = .next t ∧ Finished s1 t r.slot r.outcome r.code late ∧
        t = { drops with
          port := t.port, orders := { s1.orders with slots := t.orders.slots, summary := t.orders.summary } }) ∧
    ((s.orders.slot r.slot).state.isLive = false → exec .finishOrder s = .next drops)

/-- A cause set for a slot that is not FREE or POSTED: its news bit whatever the mask says, its summary bit when the mask
asks; no other bit, no other slot and no queue changes. For a FREE or POSTED slot neither is set (R42). -/
def Obligations.NewsFollowsMask : Prop :=
  ∀ (o : OrderUnit) (n : SlotNo) (c : Cause),
    ((o.slot n).state = .free ∨ (o.slot n).state = .posted → o.setNews n c = o) ∧
    ((o.slot n).state ≠ .free → (o.slot n).state ≠ .posted →
      (∀ i, i < 13 → ((o.setNews n c).slot n).news.getLsbD i = ((o.slot n).news.getLsbD i || decide (i = causeBit c))) ∧
      (∀ i, i < 32 → (o.setNews n c).summary.getLsbD i =
        (o.summary.getLsbD i || (decide (i = n.val) && (o.slot n).mask.getLsbD (causeBit c)))) ∧
      (o.setNews n c).slot n = { o.slot n with news := ((o.setNews n c).slot n).news } ∧
      (∀ m, m ≠ n → (o.setNews n c).slot m = o.slot m) ∧
      o.setNews n c = { o with slots := (o.setNews n c).slots, summary := (o.setNews n c).summary })

/-! ## The transport counter unit (03) -/

/-- INPUT_CHANGE outside COLD_INIT: the raw levels are the ones given; an input whose debounce is off has them as its filtered
level at once. While no interval ends on the way, an input with debounce on keeps its filtered level: at that level its pending
change is dropped, at the other one a pending change begins, or has run on where the raw level is as before. No memory word,
register or other unit changes, and of the order unit only news (R45). In COLD_INIT only the raw levels change (R61). A debounce
interval that ends: time passes to the earliest end, the filtered level of each input whose interval ends then takes its raw
level, the raw levels stay; no other unit changes but for news. With no pending change nothing happens (log 4). That time is an
operand, and that DEBOUNCE_EXPIRY carries the clock to the earliest end, is the model's (log 10). -/
def Obligations.InputsAreFiltered : Prop :=
  (∀ (s : State) (periods : Nat) (v : BitVec 10), ∃ t, exec (.inputChange periods v) s = .next t ∧
     RawLevelsAre t.transport v ∧
     t = { s with transport := t.transport, orders := t.orders, freeCount := t.freeCount } ∧ OnlyNewsDiffers s.orders t.orders ∧
     (Working s → ∀ l ∈ inputLines t.transport, l.2 = 0 → l.1.filtered = l.1.raw ∧ l.1.ran = none) ∧
     (Working s → (∀ e, s.transport.nextExpiry = some e → 1000 * periods < e) →
       ∀ (i : Nat) (l m : Line × Nat), (inputLines s.transport)[i]? = some l → (inputLines t.transport)[i]? = some m → 0 < l.2 →
         m.2 = l.2 ∧ m.1.filtered = l.1.filtered ∧ (v.getLsbD i = l.1.filtered → m.1.ran = none) ∧
         (v.getLsbD i ≠ l.1.filtered → m.1.ran =
           some (if v.getLsbD i = l.1.raw then (l.1.ran.map (· + 1000 * periods)).getD 0 else 0))) ∧
     (s.port.phase = .coldInit → t = { s with transport := t.transport } ∧
       t.transport = { s.transport with
         capstan := t.transport.capstan, supply := t.transport.supply, takeup := t.transport.takeup, pinch := t.transport.pinch } ∧
       (inputLines t.transport).map (fun l => (l.1.filtered, l.1.ran, l.2)) =
         (inputLines s.transport).map (fun l => (l.1.filtered, l.1.ran, l.2)) ∧
       t.transport.capstan.settings = s.transport.capstan.settings ∧ t.transport.capstan.errors = s.transport.capstan.errors ∧
       t.transport.supply.settings = s.transport.supply.settings ∧ t.transport.supply.errors = s.transport.supply.errors ∧
       t.transport.takeup.settings = s.transport.takeup.settings ∧ t.transport.takeup.errors = s.transport.takeup.errors)) ∧
  (∀ s : State, Working s →
     (s.transport.nextExpiry = none → exec .debounceExpiry s = .next s) ∧
     (∀ e, s.transport.nextExpiry = some e → ∃ t, exec .debounceExpiry s = .next t ∧
       t.transport.clock = s.transport.clock + e ∧
       (inputLines t.transport).map (fun l => l.1.raw) = (inputLines s.transport).map (fun l => l.1.raw) ∧
       (∀ (i : Nat) (l m : Line × Nat), (inputLines s.transport)[i]? = some l → (inputLines t.transport)[i]? = some m →
         l.1.remaining l.2 = some e → m.1.filtered = l.1.raw ∧ m.1.ran = none) ∧
       t = { s with transport := t.transport, orders := t.orders, freeCount := t.freeCount } ∧ OnlyNewsDiffers s.orders t.orders))

/-- The counts of the eight steps in the three encodings; a step back counts what the step forward counts with the other sign
(R46). One edge of CAPSTAN with debounce off, all inputs quiet and its index input low: the step's count in the encoding goes to
the position and the motion state while PINCH is engaged, to neither while it is open; added, it goes to the open block record
too, to its net count and, below 0, to its reverse mark, and sets the still-block run to 0. Both edges together are a decode
error: no count, the error count up by one, DECODE_ERROR in the open record, both reels' running intervals unclean. Nothing else
changes (R46, R47, R48, R52, R54, R55). One edge of any decoder's A, B or I with debounce off, all inputs quiet: a count of SUPPLY
or TAKEUP goes to its reel counter whether PINCH is engaged or not; an index event follows exactly when the index condition goes
from false to true, after the count: CAPSTAN's latches the position as its stamp, a reel's is `Reel.indexEvent` and marks the
block SLIP where it judges a slip, and sets SLIP news for a CAPTURE that is RUNNING or STOPPING (R46, R49 to R51, R53, R42; an
order under validation is none, log 54), none while a warm reset runs (R62). Both edges of a reel's decoder are a decode error of
it: no count, and its interval becomes unclean (R47, R52). A change of PINCH alone with debounce off: opening clears
PINCH-throughout in the open record and makes both reels' intervals unclean; closing changes neither (R52, R55). -/
def Obligations.CapstanEdgeCounts : Prop :=
  ((∀ e p q, stepCount e p q = -stepCount e q p) ∧
   (∀ e, [stepCount e .ll .hl, stepCount e .hl .hh, stepCount e .hh .lh, stepCount e .lh .ll,
      stepCount e .ll .lh, stepCount e .lh .hh, stepCount e .hh .hl, stepCount e .hl .ll] =
     match e with
     | .x4 => [1, 1, 1, 1, -1, -1, -1, -1]
     | .x2 => [1, 0, 1, 0, 0, -1, 0, -1]
     | .x1 => [1, 0, 0, 0, 0, 0, 0, -1]) ∧
   (∀ e, stepCount e .ll .hl = 1) ∧ (∀ p q, stepCount .x1 p q ≠ 0 → (p = .ll ∧ q = .hl) ∨ (p = .hl ∧ q = .ll)) ∧
   (∀ p q, stepCount .x2 p q ≠ 0 → stepCount .x4 p q = stepCount .x2 p q) ∧ (∀ e p, stepCount e p p = 0)) ∧
  (∀ (s : State) (periods : Nat) (v : BitVec 10) (flipA flipB : Bool), Working s → InputsQuiet s.transport →
     s.transport.capstan.settings.debounce = 0 → s.transport.capstan.lineI.raw = false → flipA = true ∨ flipB = true →
     let t0 := s.transport
     let a := t0.capstan.lineA.raw
     let b := t0.capstan.lineB.raw
     (inputLines t0).map (fun l => l.1.raw) =
       [a, b] ++ ((List.range 10).drop 2).map v.getLsbD → v.getLsbD 0 = (a ^^ flipA) → v.getLsbD 1 = (b ^^ flipB) →
     let c := stepCount t0.capstan.settings.encoding (phaseOf a b) (phaseOf (a ^^ flipA) (b ^^ flipB))
     let error := flipA && flipB
     let added := !error && t0.pinch.raw && decide (c ≠ 0)
     let net := if added then BitVec.ofInt 32 c else 0
     exec (.inputChange periods v) s = .next { s with transport := { t0 with
       capstan := { t0.capstan with
         lineA := ⟨a ^^ flipA, a ^^ flipA, none⟩, lineB := ⟨b ^^ flipB, b ^^ flipB, none⟩
         errors := if error ∧ t0.capstan.errors ≠ 65535 then t0.capstan.errors + 1 else t0.capstan.errors }
       position := t0.position + net
       motion := if added then (if 0 < c then .forward else .reverse) else t0.motion
       stillRun := if added then 0 else t0.stillRun
       counted := t0.counted || added
       current := t0.current.map fun r => { r with
         net := r.net + net, reverse := r.reverse || (added && decide (c < 0)), decodeError := r.decodeError || error }
       supplyReel := { t0.supplyReel with runClean := t0.supplyReel.runClean && !error }
       takeupReel := { t0.takeupReel with runClean := t0.takeupReel.runClean && !error }
       clock := t0.clock + 1000 * periods } }) ∧
  (∀ (s : State) (periods : Nat) (v : BitVec 10) (d : DecoderId) (j : Nat), Working s → InputsQuiet s.transport → j < 3 →
     let t0 := s.transport
     let x := t0.decoder d
     let first := match d with | .capstan => 0 | .supply => 3 | .takeup => 6
     x.settings.debounce = 0 →
     (∀ (i : Nat) (l : Line × Nat), (inputLines t0)[i]? = some l → v.getLsbD i = (l.1.raw ^^ decide (i = first + j))) →
     let before := phaseOf x.lineA.raw x.lineB.raw
     let after := phaseOf (x.lineA.raw ^^ decide (j = 0)) (x.lineB.raw ^^ decide (j = 1))
     let c := stepCount x.settings.encoding before after
     let condition := fun (p : QPhase) (i : Bool) => i && (decide (x.settings.index = none) || decide (x.settings.index = some p))
     let event := !condition before x.lineI.raw && condition after (x.lineI.raw ^^ decide (j = 2))
     let turned := fun (r : Reel) => { r with counter := r.counter + BitVec.ofInt 16 c }
     let latched := fun (r : Reel) => (turned r).indexEvent t0.position t0.pinch.raw t0.slipThreshold
     let position := if t0.pinch.raw && decide (d = .capstan) then t0.position + BitVec.ofInt 32 c else t0.position
     let slip := event && match d with
       | .capstan => false
       | .supply => (latched t0.supplyReel).2
       | .takeup => (latched t0.takeupReel).2
     ∃ t, exec (.inputChange periods v) s = .next t ∧ t = { s with transport := t.transport, orders := t.orders } ∧
       OnlyNewsDiffers s.orders t.orders ∧ t.transport.position = position ∧
       (t.transport.decoder d).errors = x.errors ∧
       (let added := t0.pinch.raw && decide (d = .capstan ∧ c ≠ 0)
        let net := if added then BitVec.ofInt 32 c else 0
        t.transport.motion = (if added then (if 0 < c then .forward else .reverse) else t0.motion) ∧
        t.transport.stillRun = (if added then 0 else t0.stillRun) ∧ t.transport.counted = (t0.counted || added) ∧
        t.transport.current = t0.current.map fun r => { r with
          net := r.net + net, reverse := r.reverse || (added && decide (c < 0)), slip := r.slip || slip }) ∧
       t.transport.capstanStamp = (if event && decide (d = .capstan) then position else t0.capstanStamp) ∧
       t.transport.supplyReel = (if d ≠ .supply then t0.supplyReel else if event then (latched t0.supplyReel).1
         else turned t0.supplyReel) ∧
       t.transport.takeupReel = (if d ≠ .takeup then t0.takeupReel else if event then (latched t0.takeupReel).1
         else turned t0.takeupReel) ∧
       (slip = false → t.orders = s.orders) ∧
       (let told := fun (n : SlotNo) => slip && decide (s.port.phase ≠ .warmReset ∧ (s.orders.slot n).live = some .capture ∧
          ((s.orders.slot n).state = .running ∨ (s.orders.slot n).state = .stopping))
        (∀ n, t.orders.slot n = if told n then { s.orders.slot n with news := (s.orders.slot n).news ||| 0x1000 }
          else s.orders.slot n) ∧
        ∀ n : SlotNo, t.orders.summary.getLsbD n.val =
          (s.orders.summary.getLsbD n.val || (told n && (s.orders.slot n).mask.getLsbD 12)))) ∧
  (∀ (s : State) (periods : Nat) (v : BitVec 10) (d : DecoderId), Working s → InputsQuiet s.transport → d ≠ .capstan →
     let t0 := s.transport
     let x := t0.decoder d
     let first := match d with | .capstan => 0 | .supply => 3 | .takeup => 6
     x.settings.debounce = 0 → x.lineI.raw = false →
     (∀ (i : Nat) (l : Line × Nat), (inputLines t0)[i]? = some l →
       v.getLsbD i = (l.1.raw ^^ decide (i = first ∨ i = first + 1))) →
     ∃ t, exec (.inputChange periods v) s = .next t ∧ t = { s with transport := t.transport } ∧
       t.transport.position = t0.position ∧ t.transport.motion = t0.motion ∧ t.transport.capstanStamp = t0.capstanStamp ∧
       (t.transport.decoder d).errors = (if x.errors = 65535 then 65535 else x.errors + 1) ∧
       t.transport.supplyReel = { t0.supplyReel with runClean := t0.supplyReel.runClean && decide (d ≠ .supply) } ∧
       t.transport.takeupReel = { t0.takeupReel with runClean := t0.takeupReel.runClean && decide (d ≠ .takeup) } ∧
       t.transport.current = t0.current.map fun r => { r with decodeError := true }) ∧
  (∀ (s : State) (periods : Nat) (v : BitVec 10), Working s → InputsQuiet s.transport →
     let t0 := s.transport
     let opens := t0.pinch.raw
     t0.capstan.settings.debounce = 0 →
     (∀ (i : Nat) (l : Line × Nat), (inputLines t0)[i]? = some l → v.getLsbD i = (l.1.raw ^^ decide (i = 9))) →
     exec (.inputChange periods v) s = .next { s with transport := { t0 with
       pinch := ⟨!opens, !opens, none⟩
       current := t0.current.map fun r => { r with pinch := r.pinch && !opens }
       supplyReel := { t0.supplyReel with runClean := t0.supplyReel.runClean && !opens }
       takeupReel := { t0.takeupReel with runClean := t0.takeupReel.runClean && !opens }
       clock := t0.clock + 1000 * periods } })

/-- A reel's index event: the counter is 0 and the position is the stamp; with a stamp before it, the pack ratio is the
difference and takes the interval's clean mark, and the slip count rises exactly when both ratios are clean and the
difference, times 1,000, exceeds the threshold times the previous ratio; the new interval is clean when PINCH is engaged (R51,
R52, R53). -/
def Obligations.ReelIndexEventJudgesSlip : Prop :=
  ∀ (r : Reel) (position : Word) (engaged : Bool) (threshold : Nat),
    let x := r.indexEvent position engaged threshold
    x.1.counter = 0 ∧ x.1.stamp = some position ∧ x.1.runClean = engaged ∧
    (r.stamp = none → x.2 = false ∧ x.1.ratio = r.ratio ∧ x.1.ratioClean = r.ratioClean ∧ x.1.slips = r.slips) ∧
    (∀ old, r.stamp = some old → x.1.ratio = position - old ∧ x.1.ratioClean = r.runClean ∧
      (x.2 = true ↔ r.runClean = true ∧ r.ratioClean = true ∧
        threshold * r.ratio.toInt.natAbs < 1000 * ((position - old).toInt - r.ratio.toInt).natAbs) ∧
      x.1.slips = (if x.2 then (if r.slips = 65535 then 65535 else r.slips + 1) else r.slips))

/-- A block is driven exactly when PINCH was engaged throughout, no reverse count was added and the motion state at its end is
FORWARD (R56). -/
def Obligations.DrivenBlockTest : Prop :=
  ∀ (r : OpenRecord) (stop : Word) (m : Motion),
    (r.close stop m).driven = true ↔ r.pinch = true ∧ r.reverse = false ∧ m = .forward

/-- A boundary's update of the motion state: a block that received a count leaves the still-block run; any other raises it,
and at ten the state is STOPPED (R54). MOTION_STOPPED names an event that the boundary has already done: that its row gives the
same state at ten and changes nothing else is the model's (log 21). -/
def Obligations.TenStillBlocksStopMotion : Prop :=
  (∀ t : Transport, t.counted = true → t.closeMotion = { t with counted := false }) ∧
  (∀ t : Transport, t.counted = false → t.closeMotion = { t with
    stillRun := t.stillRun + 1, motion := if 10 ≤ t.stillRun + 1 then .stopped else t.motion }) ∧
  (∀ s : State, Working s → exec .motionStopped s = .next { s with
    transport := { s.transport with motion := if 10 ≤ s.transport.stillRun then .stopped else s.transport.motion } })

/-- A block boundary: the completed block, numbered as the count of blocks before it, is held with its clip counts and two older
ones; the stream block number rises by one; its report goes to a running stream order; a record opens for the block that begins;
the snapshot holds that block's number first and last (R55, R57, R58, R64 to R67). The closed record keeps number, start position
and Nc of the record that was open, a reverse count, a decode error and a slip already in it, and ends with the motion state and
the driven test of R56; the next one begins clear (R55, R56). With no change pending on an input it is the record that was open,
closed at the position that stands; the next one begins at that position, unless a preset comes between; a block without a count
lengthens the still-block run, which at 10 makes the motion state STOPPED; counters, stamps, ratios, error and slip counts and
inputs stay, and a reel's running interval becomes unclean where a TRANSPORT changes an encoding or its index phase or presets
the position (R52, R54, R60); each word of the snapshot is the value that stands after the boundary (R58; changes that mature at
the boundary come after the snapshot, log 35). That the first record's PINCH begins as the filtered level at its boundary is the
model's choice (log 45). A TRANSPORT whose
binding block ends with a record has its two position words written and its end reported COMPLETE; a pending TRANSPORT is put in
force exactly at the boundary that begins the block it is stamped with, and before that no setting changes (R38, R59, R60). Memory
changes only in the snapshot and in the two position words. Samples that are no block are a fault of the model's (log 11); the
reports wait in a list of the model's (log 18). -/
def Obligations.BlockBoundaryFramesBlocks : Prop :=
  (∀ (s : State) (samples : List (List Sample)), Working s → MemoryCanonical s → wellFormedBlock samples = true →
    let num := s.elements.block
    let clips := samples.map fun e => (e.filter fun x => x == 0x7FFFFF#24 || x == 0x800000#24).length
    let settingsKept := fun (u : Transport) =>
      u.capstan.settings = s.transport.capstan.settings ∧ u.supply.settings = s.transport.supply.settings ∧
      u.takeup.settings = s.transport.takeup.settings ∧ u.nc = s.transport.nc ∧ u.slipThreshold = s.transport.slipThreshold
    ∃ t, exec (.blockBoundary samples) s = .next t ∧
      t.elements = { s.elements with block := num + 1, history := (⟨num, samples, clips⟩ :: s.elements.history).take 3 } ∧
      (s.capture = none → s.calibration = none → t.reports = s.reports) ∧
      (s.capture ≠ none ∨ s.calibration ≠ none → ∃ r, t.reports = s.reports ++ [⟨num, r, clips⟩] ∧
        r.isSome = s.transport.current.isSome ∧
        ∀ x, r = some x → t.transport.records = (x :: s.transport.records).take 8) ∧
      (∀ c, s.transport.current = some c → ∃ x, t.transport.records = (x :: s.transport.records).take 8 ∧
        x.num = c.num ∧ x.start = c.start ∧ x.nc = c.nc ∧ (c.pinch = false → x.pinch = false) ∧
        (c.reverse = true → x.reverse = true) ∧ (c.decodeError = true → x.decodeError = true) ∧ (c.slip = true → x.slip = true) ∧
        (x.driven = true ↔ x.pinch = true ∧ x.reverse = false ∧ x.motion = .forward) ∧
        (InputsQuiet s.transport →
          let u := s.transport.closeMotion
          x = { num := c.num, start := c.start, stop := s.transport.position, net := c.net, pinch := c.pinch, reverse := c.reverse
                decodeError := c.decodeError, slip := c.slip, motion := u.motion
                driven := c.pinch && !c.reverse && decide (u.motion = .forward), nc := c.nc })) ∧
      (∃ r, t.transport.current = some r ∧ r.num = num + 1 ∧ r.nc = t.transport.nc ∧ Stored t 0x2104 r.start ∧
        (InputsQuiet s.transport → r = { num := num + 1, start := t.transport.position, net := 0
                                         pinch := s.transport.pinch.filtered, reverse := false, decodeError := false, slip := false
                                         nc := t.transport.nc })) ∧
      (InputsQuiet s.transport →
        let u := s.transport
        let v := t.transport
        let bound := (s.orders.pendingTransport.filter fun p => p.block == num + 1).map (·.order)
        let soiled := fun (settings : Transport → DecoderSettings) (new : TransportOrder → DecoderSettings) => bound.any fun o =>
          decide (o.capstan.encoding ≠ u.capstan.settings.encoding) || decide ((new o).encoding ≠ (settings u).encoding) ||
            decide ((new o).index ≠ (settings u).index) || o.preset.isSome
        v.position = (bound.bind (·.preset)).getD u.position ∧
        v.stillRun = (if u.counted then u.stillRun else u.stillRun + 1) ∧ v.counted = false ∧
        v.motion = (if u.counted = false ∧ 10 ≤ u.stillRun + 1 then .stopped else u.motion) ∧
        v.capstan = { u.capstan with settings := v.capstan.settings } ∧ v.supply = { u.supply with settings := v.supply.settings } ∧
        v.takeup = { u.takeup with settings := v.takeup.settings } ∧ v.pinch = u.pinch ∧ v.capstanStamp = u.capstanStamp ∧
        v.supplyReel = { u.supplyReel with runClean := u.supplyReel.runClean && !soiled (·.supply.settings) (·.supply) } ∧
        v.takeupReel = { u.takeupReel with runClean := u.takeupReel.runClean && !soiled (·.takeup.settings) (·.takeup) }) ∧
      (InputsQuiet s.transport →
        let u := t.transport
        Stored t 0x2108 (BitVec.ofNat 32 (motionCode u.motion + 256 * flagBit u.pinch.filtered)) ∧
        Stored t 0x210C (BitVec.ofNat 32 (u.supplyReel.counter.toNat + 65536 * u.takeupReel.counter.toNat)) ∧
        Stored t 0x2110 u.supplyReel.ratio ∧ Stored t 0x2114 u.takeupReel.ratio ∧ Stored t 0x2118 u.capstanStamp ∧
        Stored t 0x211C (BitVec.ofNat 32 (u.capstan.errors.toNat + 65536 * u.supply.errors.toNat)) ∧
        Stored t 0x2120 (BitVec.ofNat 32 u.takeup.errors.toNat) ∧
        Stored t 0x2124 (BitVec.ofNat 32 (u.supplyReel.slips.toNat + 65536 * u.takeupReel.slips.toNat)) ∧
        ∀ a ∈ [0x2128, 0x212C, 0x2130, 0x2134, 0x2138], Stored t a 0) ∧
      Stored t 0x2100 (num + 1) ∧ Stored t 0x213C (num + 1) ∧
      (∀ n, s.orders.reachedTransport = some n → s.transport.current.isSome = true → ∃ x, t.transport.records.head? = some x ∧
        t.orders.ends = s.orders.ends ++ [⟨n, .complete, .none, false⟩] ∧
        Stored t (slotBase n + 0x24) x.start ∧ Stored t (slotBase n + 0x28) x.stop) ∧
      (s.orders.reachedTransport = none → t.orders.ends = s.orders.ends) ∧
      (∀ p, s.orders.pendingTransport = some p →
        (p.block = num + 1 → t.orders.pendingTransport = none ∧ t.orders.reachedTransport = some p.slot ∧
          t.transport.capstan.settings = p.order.capstan ∧ t.transport.supply.settings = p.order.supply ∧
          t.transport.takeup.settings = p.order.takeup ∧ t.transport.nc = p.order.nc ∧
          t.transport.slipThreshold = p.order.slipThreshold ∧
          ∀ q, p.order.preset = some q → t.transport.current.map (·.start) = some q) ∧
        (p.block ≠ num + 1 → t.orders.pendingTransport = some p ∧ settingsKept t.transport)) ∧
      (s.orders.pendingTransport = none → t.orders.pendingTransport = none ∧ settingsKept t.transport) ∧
      MemoryKeptOutside s t ((0x2100, 64) :: s.orders.reachedTransport.toList.map fun n => (slotBase n + 0x24, 8)) ∧
      t.port = { s.port with mem := t.port.mem, ecc := t.port.ecc } ∧
      t = { s with
        port := t.port, orders := t.orders, transport := t.transport, elements := t.elements, reports := t.reports
        freeCount := t.freeCount } ∧
      t.orders = { s.orders with
        slots := t.orders.slots, summary := t.orders.summary, ends := t.orders.ends
        pendingTransport := t.orders.pendingTransport, reachedTransport := t.orders.reachedTransport } ∧
      ∀ n, t.orders.slot n = { s.orders.slot n with news := (t.orders.slot n).news }) ∧
  (∀ (s : State) (samples : List (List Sample)), Working s → wellFormedBlock samples = false →
    exec (.blockBoundary samples) s = .fault .malformedBlock)

/-- A TRANSPORT's settings are taken all together; the preset, where there is one, becomes the position; motion state,
still-block run, stamps, counts and levels stay; the running intervals become unclean where an encoding, an index phase or a
preset says so (R52, R59, R60). -/
def Obligations.TransportSettingsBindTogether : Prop :=
  ∀ (t : Transport) (o : TransportOrder), let u := t.bindOrder o
    u.capstan = { t.capstan with settings := o.capstan } ∧ u.supply = { t.supply with settings := o.supply } ∧
    u.takeup = { t.takeup with settings := o.takeup } ∧ u.nc = o.nc ∧ u.slipThreshold = o.slipThreshold ∧
    u.position = o.preset.getD t.position ∧
    u = { t with
      capstan := u.capstan, supply := u.supply, takeup := u.takeup, nc := u.nc, slipThreshold := u.slipThreshold
      position := u.position, supplyReel := u.supplyReel, takeupReel := u.takeupReel } ∧
    (let kept := o.preset = none ∧ o.capstan.encoding = t.capstan.settings.encoding ∧
        o.supply.encoding = t.supply.settings.encoding ∧ o.supply.index = t.supply.settings.index;
      u.supplyReel = { t.supplyReel with runClean := t.supplyReel.runClean && decide kept }) ∧
    (let kept := o.preset = none ∧ o.capstan.encoding = t.capstan.settings.encoding ∧
        o.takeup.encoding = t.takeup.settings.encoding ∧ o.takeup.index = t.takeup.settings.index;
      u.takeupReel = { t.takeupReel with runClean := t.takeupReel.runClean && decide kept })

/-! ## Element capture and CALIBRATE (04) -/

/-- Division rounded to nearest, ties away from zero (00, "Arithmetic"). A trimmed sample: the exact product over 16,384
rounded to nearest, saturated to 24 bits; the identity entry reads a sample back unchanged (R69). Gains and static skews of a
calibration: a DEAD element has gain 16,384 without CLAMPED; a live one the rounded quotient held to 8,192 to 32,768 with
CLAMPED where it was held; skews as the five cases of R77 (R76, R77). -/
def Obligations.TrimAndCalibrationArithmetic : Prop :=
  ((∀ (n : Int) (d : Nat), 0 < d → let q := roundDiv n d
     2 * (n - q * d).natAbs ≤ d ∧ (2 * (n - q * d).natAbs = d → n.natAbs < (q * d).natAbs)) ∧
  ((∀ (e : CalEntry) (x : Int), let y := trim e x
     let p := (x - e.offset) * e.gain;
     -8388608 ≤ y ∧ y ≤ 8388607 ∧
     (2 * (p - y * 16384).natAbs ≤ 16384 ∨ (y = 8388607 ∧ 8388607 * 16384 < p) ∨ (y = -8388608 ∧ p < -8388608 * 16384))) ∧
   (∀ x : Sample, trim CalEntry.identity x.toInt = x.toInt))) ∧
  ((∀ (aref level : Nat), gainOf aref level true = (16384, false) ∧ gainOf 0 level false = (16384, false)) ∧
  (∀ (aref level : Nat), 0 < aref → let g := gainOf aref level false
    8192 ≤ g.1 ∧ g.1 ≤ 32768 ∧ (level = 0 → g = (32768, true)) ∧
    (0 < level → g.2 = false → 2 * ((16384 * aref : Nat) - (g.1 * level : Nat) : Int).natAbs ≤ level) ∧
    (0 < level → g.2 = true → (g.1 = 8192 ∧ 16384 * aref < 8192 * level) ∨ (g.1 = 32768 ∧ 32768 * level < 16384 * aref))) ∧
  (∀ (isAnchor dead : Bool) (sum : Int) (count : Nat), staticSkew isAnchor true dead sum count = (0, true)) ∧
  (∀ (dead : Bool) (sum : Int) (count : Nat), staticSkew true false dead sum count = (0, false)) ∧
  (∀ (sum : Int) (count : Nat), staticSkew false false true sum count = (0, true) ∧
    staticSkew false false false sum 0 = (0, true) ∧
    (0 < count → staticSkew false false false sum count = (roundDiv sum count, false))))

/-- CALIBRATE_BLOCK judges the oldest report: a block that changes nothing is passed over; a block that is processed raises
the processed count, sets the high-water position to its end, and the run is RUNNING, or STOPPING at the last block of the
window; an undriven block in RUNNING pauses the run. The progress words follow, and nothing else in memory changes (R71,
R79). Its samples go into the sums: every block's clip counts into the clip totals, a settle block's raw samples into the offset
sums, a measure block's magnitudes less the offsets into the level sums (R73, R74). Offsets that have come due are fixed first (R73;
log 20), and the block before is measured: its skew measurement, where it waited for a successor, is made with it or, at a pause,
without one; an accepted measurement is added to the element's skew sum and counted, a rejected one is not (R75). -/
def Obligations.CalibrateBlockMovesTheRun : Prop :=
  (∀ (s : State) (r : CalRun) (b : StreamBlock) (rest : List StreamBlock), Working s → MemoryCanonical s →
    s.calibration = some r → s.reports = b :: rest →
    let driven := (b.record.map (·.driven)).getD false
    let start := (b.record.map (·.start)).getD 0
    let base := slotBase r.slot
    let passed := exec .calibrateBlock s = .next { s with reports := rest }
    (r.state = .stopping → passed) ∧
    (r.state = .armed → driven = false ∨ (∃ p, r.order.start = some p ∧ (start - p).toInt < 0) → passed) ∧
    (r.state = .paused → driven = false ∨ (start - r.highWater).toInt < 0 → passed) ∧
    (∀ rec h r1, b.record = some rec → rec.driven = true → findBlock s.elements b.num = some h →
      r.fixOffsets.measureLast s.elements false = .ok r1 →
      (r.state = .running ∨ (r.state = .armed ∧ ∀ p, r.order.start = some p → 0 ≤ (rec.start - p).toInt) ∨
        (r.state = .paused ∧ 0 ≤ (rec.start - r.highWater).toInt)) →
      let state : RunState := if r.processed + 1 = r.order.window then .stopping else .running
      let levels := (List.range 16).map fun e =>
        ((h.samples.getD e []).map fun x => (x.toInt - (r1.offsets.getD []).getD e 0).natAbs).sum
      ∃ t, exec .calibrateBlock s = .next t ∧
        Stored t (base + 0x20) (BitVec.ofNat 32 (runStateCode state + 65536 * r.pauses)) ∧
        Stored t (base + 0x24) (BitVec.ofNat 32 (r.processed + 1)) ∧ Stored t (base + 0x28) rec.stop ∧
        MemoryKeptOutside s t [(base + 0x20, 12)] ∧
        t = { s with
          port := { s.port with mem := t.port.mem, ecc := t.port.ecc }, reports := rest
          calibration := some { r1 with
            clipTotals := List.zipWith (· + ·) r1.clipTotals h.clips
            offsetSums := if r.processed < 10 then List.zipWith (fun sum xs => sum + (xs.map BitVec.toInt).sum) r1.offsetSums h.samples
              else r1.offsetSums
            levelSums := if r.processed < 10 then r1.levelSums else List.zipWith (· + ·) r1.levelSums levels
            processed := r.processed + 1, highWater := rec.stop, state := state
            startPos := if r.processed = 0 then rec.start else r.startPos
            last := some ⟨b.num, decide (r.state ≠ .running), decide (10 ≤ r.processed)⟩ } }) ∧
    (∀ r1, r.state = .running → driven = false → r.fixOffsets.measureLast s.elements true = .ok r1 →
      ∃ t, exec .calibrateBlock s = .next t ∧
        t = { s with
          port := t.port, reports := rest
          calibration := some { r1 with state := .paused, pauses := if r.pauses < 65535 then r.pauses + 1 else r.pauses } } ∧
        StoresWord s t (base + 0x20) (BitVec.ofNat 32 (2 + 65536 * if r.pauses < 65535 then r.pauses + 1 else r.pauses)))) ∧
  (∀ (ec : ElementCapture) (r : CalRun) (ended : Bool),
    (r.last = none → r.measureLast ec ended = .ok r) ∧
    (∀ l, r.last = some l → l.measure = false → r.measureLast ec ended = .ok { r with last := none }) ∧
    (∀ l h (before after : Option HistBlock), r.last = some l → l.measure = true → findBlock ec l.num = some h →
      before = (if l.first then none else findBlock ec (l.num - 1)) → (l.first = false → before ≠ none) →
      after = (if ended then none else findBlock ec (l.num + 1)) → (ended = false → after ≠ none) →
      let a := r.order.anchor
      let y := fun (e : Nat) (x : HistBlock) => (x.samples.getD e []).map fun z => z.toInt - (r.offsets.getD []).getD e 0
      let found := fun (e : Nat) => if e = a then none else
        measureSkew (y a h) (y e h) (edgeWindow (before.map (y e)) (y e h) (after.map (y e)))
      r.measureLast ec ended = .ok { r with
        last := none
        skewSums := List.zipWith (fun sum m => sum + Option.getD m 0) r.skewSums ((List.range 16).map found)
        accepted := List.zipWith (fun n m => if Option.isSome m then n + 1 else n) r.accepted ((List.range 16).map found) }))

/-- After processed block 9 each offset is fixed as the rounded mean of the settle part's sum; before it, or once fixed,
nothing changes (R73; log 4; that OFFSETS_FIXED carries this out after the block is log 20). A complete window: the sixteen result
entries and the five words of the summary are written into the slot, each word with fresh check bits, and the end is reported
COMPLETE; in mode APPLY the table takes the sixteen results and the generation rises by one, in mode MEASURE the table stays
(R78). The last block is measured before (R75), and offsets not yet fixed are fixed first (log 20). The results: each level the
level sum over 3,840 times the measure blocks, truncated (R74); Amax the largest, DEAD below an eighth of it, A_ref the truncated
mean over the live elements (R76); gains and static skews as TrimAndCalibrationArithmetic has them (R76, R77). -/
def Obligations.WindowCompleteWritesResults : Prop :=
  (∀ s : State, Working s →
     (∀ r, s.calibration = some r → 10 ≤ r.processed → r.offsets = none → exec .offsetsFixed s = .next { s with
       calibration := some { r with offsets := some (r.offsetSums.map fun x => roundDiv x 38400) } }) ∧
     ((∀ r, s.calibration = some r → r.processed < 10 ∨ r.offsets ≠ none) → exec .offsetsFixed s = .next s)) ∧
  (∀ (s : State) (r r1 : CalRun), Working s → MemoryCanonical s → s.calibration = some r → r.state = .stopping →
     r.finished = false → r.fixOffsets.measureLast s.elements true = .ok r1 →
     let base := slotBase r.slot
     let m := r1.results
     ∃ t, exec .windowComplete s = .next t ∧
       t.elements.generation = (if r.order.apply then s.elements.generation + 1 else s.elements.generation) ∧
       (r.order.apply = false → t.elements = s.elements) ∧
       t.elements.block = s.elements.block ∧ t.elements.history = s.elements.history ∧ m.entries.length = 16 ∧
       (r.order.apply = true → ∀ e : Fin 16, ∃ x, m.entries[e.val]? = some x ∧
         getAt t.elements.table e = ⟨x.gain, x.offset, x.skew, x.dead⟩) ∧
       t.orders = { s.orders with ends := reported s r.slot .complete false } ∧
       t.calibration = some { r1 with finished := true } ∧
       (∀ (e : Fin 16) (x : CalResult), m.entries[e.val]? = some x →
         Stored t (base + 0x40 + 12 * e.val) (BitVec.ofNat 32 (signedBits 24 x.offset + 16777216 * (x.accepted % 256))) ∧
         Stored t (base + 0x44 + 12 * e.val) (BitVec.ofNat 32 (x.level + 16777216 * (x.accepted / 256 % 32))) ∧
         Stored t (base + 0x48 + 12 * e.val) (BitVec.ofNat 32 (x.gain + 65536 * signedBits 12 x.skew + 268435456 * flagBit x.dead
           + 536870912 * flagBit x.clamped + 1073741824 * flagBit x.noSkew + 2147483648 * flagBit x.clipped))) ∧
       Stored t (base + 0x2C) (BitVec.ofNat 32
         (m.amax + 16777216 * m.live + 1073741824 * flagBit m.anchorDead + 2147483648 * flagBit m.noSignal)) ∧
       Stored t (base + 0x30) (BitVec.ofNat 32 (m.aref + 16777216 * r.order.anchor + 268435456 * flagBit r.order.apply)) ∧
       Stored t (base + 0x34) (BitVec.ofNat 32 (t.elements.generation.toNat + 65536 * r.order.window)) ∧
       Stored t (base + 0x38) r.startPos ∧ Stored t (base + 0x3C) r.highWater ∧
       MemoryKeptOutside s t [(base + 0x2C, 20), (base + 0x40, 192)] ∧
       t = { s with
         port := { s.port with mem := t.port.mem, ecc := t.port.ecc }
         orders := t.orders, elements := t.elements, calibration := t.calibration }) ∧
  (∀ r : CalRun, r.levelSums.length = 16 →
    let m := r.results
    let level := fun (e : Nat) => r.levelSums.getD e 0 / (3840 * (r.order.window - 10))
    let dead := fun (e : Nat) => decide (level e < m.amax / 8)
    let live := (List.range 16).filter fun e => !dead e
    (∀ e, level e ≤ m.amax) ∧ (∃ e, e < 16 ∧ level e = m.amax) ∧ m.live = live.length ∧ 1 ≤ m.live ∧
    m.aref = (live.map level).sum / m.live ∧ m.anchorDead = dead r.order.anchor ∧ (m.noSignal = true ↔ m.aref = 0) ∧
    m.entries.length = 16 ∧ ∀ e x, m.entries[e]? = some x →
      x.level = level e ∧ x.dead = dead e ∧ x.offset = (r.offsets.getD []).getD e 0 ∧ x.accepted = r.accepted.getD e 0 ∧
      (x.gain, x.clamped) = gainOf m.aref (level e) (dead e) ∧ (x.clipped = true ↔ 0 < r.clipTotals.getD e 0) ∧
      (x.skew, x.noSkew) = staticSkew (decide (e = r.order.anchor)) m.anchorDead (dead e) (r.skewSums.getD e 0) x.accepted)

/-! ## The capture controller (09) -/

/-- JUDGE_BLOCK judges the oldest completed block by the capture's state: ARMED, a driven block at or past the start position
becomes the candidate and the capture RUNNING, the cues at or below its start position are skipped, and the units' state is
created from the tuning that will be in force for block 0; any other block is passed over; RUNNING, the candidate is taken, not
final before a driven block, final with a pause before an undriven one; PAUSED, a driven block at or past the high-water position,
or past the end of the last block still in processing, resumes; in each of the three a candidate that reaches the stop position is
taken at once as final and the capture is STOPPING; STOPPING, passed over, but for the blocks that a cancel found completed: a
driven one takes the candidate's place, and the last of them, one that reaches the stop position, or the candidate before an
undriven one is final (log 22). The block's end position is the current position; only the capture's progress words change in
memory (R105, R107, R119, R143, R164, R165, R172, R174, R175, R176, R180). -/
def Obligations.JudgeBlockMovesTheCapture : Prop :=
  ∀ (s : State) (cap : Capture) (b : StreamBlock) (rest : List StreamBlock), Capturing s cap → MemoryCanonical s →
    s.reports = b :: rest →
    let k := cap.control
    let base := slotBase cap.slot
    let driven := (b.record.map (·.driven)).getD false
    let tuning := match k.pending with | none => k.tuning | some p => if p.idx = k.nextIdx then p.tuning else k.tuning
    let held := match k.toTake.getLast? with | some r => some r.block | none => k.inFlight.getLast?.map Taken.block
    let from_ := ((held.bind StreamBlock.record).map BlockRecord.stop).getD k.highWater
    let taken := fun (final : Option EndKind) => k.toTake ++ k.candidate.toList.map fun r => { r with final := final }
    ∃ t cap', exec .judgeBlock s = .next t ∧ t.capture = some cap' ∧
      t = { s with port := { s.port with mem := t.port.mem, ecc := t.port.ecc }, reports := rest, capture := some cap' } ∧
      cap'.slot = cap.slot ∧ cap'.params = cap.params ∧ cap'.writer = cap.writer ∧ cap'.control.inFlight = k.inFlight ∧
      cap'.control.nextIdx = k.nextIdx ∧ cap'.control.processed = k.processed ∧
      MemoryKeptOutside s t [(base + 0x20, 4), (base + 0x30, 16), (base + 0x50, 12)] ∧
      (∀ rec, b.record = some rec → Stored t (base + 0x38) rec.stop) ∧
      (k.state = .armed → driven = false → cap' = cap) ∧
      (∀ rec p, k.state = .armed → b.record = some rec → cap.params.start = some p → (rec.start - p).toInt < 0 → cap' = cap) ∧
      (∀ rec, k.state = .armed → b.record = some rec → driven = true →
        (∀ p, cap.params.start = some p → 0 ≤ (rec.start - p).toInt) → ∃ (n : Nat) (m : LaneMonitor) (u : SpeedUnit),
        let cue := fun (i : Nat) => cap.params.cues[k.cueCursor - 1 + i]?
        (∀ i, i < n → ∃ q, cue i = some q ∧ 0 ≤ (rec.start - q).toInt) ∧ (∀ q, cue n = some q → (rec.start - q).toInt < 0) ∧
        cap'.control = { k with
          highWater := rec.start, cueCursor := k.cueCursor + n, cuesSkipped := k.cuesSkipped + n
          state := cap'.control.state, candidate := cap'.control.candidate, toTake := cap'.control.toTake
          endReason := cap'.control.endReason } ∧
        (stopReached cap.params b = false → cap'.control.state = .running ∧ Stored t (base + 0x20) 1 ∧
          cap'.control.candidate = some ⟨b, true, false, none⟩ ∧ cap'.control.toTake = k.toTake ∧
          cap'.control.endReason = k.endReason) ∧
        (stopReached cap.params b = true → cap'.control.state = .stopping ∧ Stored t (base + 0x20) 3 ∧
          cap'.control.candidate = none ∧ cap'.control.toTake = k.toTake ++ [⟨b, true, false, some .capture⟩] ∧
          cap'.control.endReason = .stopPosition) ∧
        Stored t (base + 0x30) b.num ∧ Stored t (base + 0x34) rec.start ∧ Stored t (base + 0x3C) rec.start ∧
        Stored t (base + 0x50) (s.elements.generation.setWidth 32) ∧
        Stored t (base + 0x54) (BitVec.ofNat 32 (k.cuesSkipped + n + 256 * k.cuesReached)) ∧
        cap'.monitor = some m ∧ m.seq = 0 ∧ m.closed = [] ∧ m.last = none ∧
        (∀ l, getAt m.lanes l = if (getAt cap.params.lanes l).active then
          some ⟨List.replicate (getAt cap.params.lanes l).count 0, none, none, none⟩ else none) ∧
        cap'.skew = seedLanes s.elements.table cap.params tuning ∧
        cap'.speed = some u ∧ u.tuning = tuning ∧ u.tach = ⟨if 0 < rec.nc then .acquiring else .off, [], 0⟩ ∧
        (∀ g, groupActive cap.params g = false → u.groups.get g = none ∧ cap'.resamplers.get g = none) ∧
        ∀ g, groupActive cap.params g = true → ∃ y r, u.groups.get g = some y ∧ cap'.resamplers.get g = some r ∧
          y.prefs = (tuning.groups.get g).prefs ∧ y.state = .freeRun ∧ y.active = none ∧ y.held = 4194304 ∧ y.counter = 0 ∧
          y.hum.state = (if .hum ∈ y.prefs then .acquiring else .off) ∧ y.hum.lockedRun = 0 ∧ y.hum.periods = [] ∧
          y.bias.state = (if .bias ∈ y.prefs then .acquiring else .off) ∧ y.bias.lockedRun = 0 ∧ y.bias.window = [] ∧
          r.pos = 0 ∧ r.next = 0 ∧ r.released = 0 ∧ r.buffer = [] ∧ r.lastQ = none) ∧
      (∀ r, k.state = .running → k.candidate = some r → driven = true → stopReached cap.params b = false →
        cap' = { cap with control := { k with
          toTake := k.toTake ++ [{ r with final := none }], candidate := some ⟨b, false, false, none⟩ } }) ∧
      (∀ r, k.state = .running → k.candidate = some r → driven = true → stopReached cap.params b = true →
        Stored t (base + 0x20) 3 ∧ cap' = { cap with control := { k with
          toTake := k.toTake ++ [{ r with final := none }, ⟨b, false, false, some .capture⟩], candidate := none
          state := .stopping, endReason := .stopPosition } }) ∧
      (∀ r, k.state = .running → k.candidate = some r → driven = false →
        Stored t (base + 0x20) 2 ∧ Stored t (base + 0x58) (BitVec.ofNat 32 (upTo 65535 k.pauses)) ∧
        cap' = { cap with control := { k with
          toTake := k.toTake ++ [{ r with final := some .pause }], candidate := none, state := .paused
          pauses := upTo 65535 k.pauses } }) ∧
      (k.state = .paused → driven = false → cap' = cap) ∧
      (∀ rec, k.state = .paused → b.record = some rec →
        ((rec.start - from_).toInt < 0 → cap' = cap) ∧
        (0 ≤ (rec.start - from_).toInt → driven = true → stopReached cap.params b = false →
          Stored t (base + 0x20) 1 ∧ cap' = { cap with control := { k with
            state := .running, candidate := some ⟨b, true, true, none⟩ } }) ∧
        (0 ≤ (rec.start - from_).toInt → driven = true → stopReached cap.params b = true →
          Stored t (base + 0x20) 3 ∧ cap' = { cap with control := { k with
            state := .stopping, candidate := none, toTake := k.toTake ++ [⟨b, true, true, some .capture⟩]
            endReason := .stopPosition } })) ∧
      (k.state = .stopping → k.cancelLeft = 0 → cap' = cap) ∧
      (k.state = .stopping → 0 < k.cancelLeft →
        (driven = false → cap' = { cap with control := { k with
          toTake := taken (some .capture), candidate := none, cancelLeft := 0 } }) ∧
        (driven = true → k.cancelLeft = 1 ∨ stopReached cap.params b = true → cap' = { cap with control := { k with
          toTake := taken none ++ [⟨b, false, false, some .capture⟩], candidate := none, cancelLeft := 0 } }) ∧
        (driven = true → 1 < k.cancelLeft → stopReached cap.params b = false → cap' = { cap with control := { k with
          toTake := taken none, candidate := some ⟨b, false, false, none⟩, cancelLeft := k.cancelLeft - 1 } }))

/-- TAKE_BLOCK gives the oldest decided block the next capture block index and the tuning in force; a pending tuning bound to that
index is put in force with it; the cues its end is at or past, each a cue of the order, are reached in order, up to the first that
it is not at or past; a lane is CLIPPED where one of its watched elements has a clipped sample in the block; nothing is handed for
it yet, and the rest of the controller stays. While a block is not yet judged by the lane monitor no further one is taken (R166,
R168, R170, R171; log 4; the index past 4,294,967,295 is log 47). -/
def Obligations.TakeBlockGivesIndexAndTuning : Prop :=
  ∀ (s : State) (cap : Capture), Capturing s cap → MemoryCanonical s → cap.control.peak = none →
    let k := cap.control
    (k.toTake = [] ∨ (∃ x ∈ k.inFlight, x.lanes = none) → exec .takeBlock s = .next s) ∧
    (∀ r rest, k.toTake = r :: rest → (∀ x ∈ k.inFlight, x.lanes ≠ none) →
      ∃ t x, exec .takeBlock s = .next t ∧ CaptureFrame s t ∧ t.orders = s.orders ∧
        t.capture = some { cap with control := { k with
          toTake := rest, nextIdx := k.nextIdx + 1, inFlight := k.inFlight ++ [x], tuning := x.tuning
          pending := if x.binding then none else k.pending
          reached := k.reached ++ (if x.binding then k.pending.toList.map fun p => (p.slot, p.idx) else [])
          cueCursor := k.cueCursor + x.cues.length, cuesReached := k.cuesReached + x.cues.length } } ∧
        x = { idx := k.nextIdx, block := r.block, tuning := x.tuning, binding := x.binding, first := r.first, resumed := r.resumed
              final := r.final, cues := List.range' k.cueCursor x.cues.length, clipped := x.clipped, lanes := none, skew := none
              speed := none, resampled := ⟨none, none⟩, folded := false, processed := false } ∧
        (∀ p, k.pending = some p → p.idx = k.nextIdx → x.binding = true ∧ x.tuning = p.tuning) ∧
        ((∀ p, k.pending = some p → p.idx ≠ k.nextIdx) → x.binding = false ∧ x.tuning = k.tuning) ∧
        x.clipped.Pairwise (· < ·) ∧
        (∀ l, l ∈ x.clipped ↔ (getAt cap.params.lanes l).active = true ∧
          ∃ e ∈ watchedElements s.elements.table (getAt cap.params.lanes l) (getAt x.tuning.lanes l), 0 < r.block.clips.getD e 0) ∧
        (∀ i, i < x.cues.length → ∃ q, cap.params.cues[k.cueCursor - 1 + i]? = some q) ∧
        (∀ rec, r.block.record = some rec →
          (∀ (i : Nat) (q : Word), i < x.cues.length → cap.params.cues[k.cueCursor - 1 + i]? = some q → 0 ≤ (rec.stop - q).toInt) ∧
          ∀ q, cap.params.cues[k.cueCursor - 1 + x.cues.length]? = some q → (rec.stop - q).toInt < 0) ∧
        MemoryKeptOutside s t [(slotBase cap.slot + 0x54, 4)] ∧ (x.cues = [] → t.port = s.port) ∧
        (x.cues ≠ [] → Stored t (slotBase cap.slot + 0x54) 
          (BitVec.ofNat 32 (k.cuesSkipped + 256 * (k.cuesReached + x.cues.length)))))

/-- LEADER gives the peak on its way to the controller: a peak below the leader floor of its block raises the leader run, any
other sets it to 0; a run that reaches a leader time that is not 0 ends a capture not in STOPPING, the block being its last;
where the block was not final before, the lane monitor gets its end notice: each open dropout is closed with CUT and numbered, by
ascending lane (R102, R103).
TAKE_BLOCK, MEASURE_SKEW, BLOCK_PROCESSED, FOLD_BLOCK, STORE_EXCERPT and RESAMPLE_BLOCK receive a peak still on its way first, and
so does a CAPTURE_STOP that finds nothing left to do; one that does not changes nothing (R173; log 19). -/
def Obligations.LeaderRunEndsTheCapture : Prop :=
  (∀ (s : State) (cap : Capture) (x : Taken) (peak : Nat), Capturing s cap → MemoryCanonical s →
    cap.control.peak = some (x.idx, peak) → cap.control.inFlight.find? (fun y => y.idx == x.idx) = some x →
    let k := cap.control
    let run := if peak < x.tuning.leaderFloor then upTo 65535 k.leaderRun else 0
    let ends := x.tuning.leaderTime ≠ 0 ∧ x.tuning.leaderTime ≤ run ∧ k.state ≠ .stopping
    (¬ ends → exec .leader s = .next { s with
      capture := some { cap with control := { k with peak := none, leaderRun := run } } }) ∧
    (ends → ∃ t cap', exec .leader s = .next t ∧ t = { s with port := t.port, capture := some cap' } ∧
      StoresWord s t (slotBase cap.slot + 0x20) 3 ∧ cap'.control.state = .stopping ∧ cap'.control.endReason = .leader ∧
      cap'.control.candidate = none ∧ cap'.control.toTake = [] ∧ cap'.control.peak = none ∧
      cap'.control.leaderRun = run ∧ (∀ y ∈ cap'.control.inFlight, y.idx = x.idx → y.final = some .capture) ∧
      (x.final ≠ none → cap'.monitor = cap.monitor) ∧
      ∀ m, x.final = none → cap.monitor = some m → ∃ m', cap'.monitor = some m' ∧ m'.finalIdx = some x.idx ∧ m'.last = none ∧
        (let cut := laneNos.filterMap fun l => (getAt m.lanes l).bind fun y => y.dropout.map fun d =>
           (l, (match y.run with
             | none => d
             | some r => { d with
                 kind := if d.kind = .lost then .lost else .weak, longest := max d.longest (min 65535 r.length) }))
         m'.seq = m.seq + cut.length ∧
         m'.closed = m.closed ++ cut.mapIdx fun n c => (⟨m.seq + n, c.1, c.2, true, none, x.idx, none⟩ : ClosedDropout)) ∧
        ∀ l y, getAt m.lanes l = some y → getAt m'.lanes l = some ⟨y.smooth, none, none, none⟩)) ∧
  (∀ (s : State) (cap : Capture), Capturing s cap → cap.control.peak = none → exec .leader s = .next s) ∧
  (∀ s t : State, exec .leader s = .next t →
    exec .takeBlock s = exec .takeBlock t ∧ exec .measureSkew s = exec .measureSkew t ∧
    exec .blockProcessed s = exec .blockProcessed t ∧ exec .foldBlock s = exec .foldBlock t ∧
    exec .storeExcerpt s = exec .storeExcerpt t ∧ ∀ g, exec (.resampleBlock g) s = exec (.resampleBlock g) t) ∧
  (∀ s t : State, exec .leader s = .next t →
    (exec .captureStop t = .next t → exec .captureStop s = .next s) ∧
    (exec .captureStop t ≠ .next t → exec .captureStop s = exec .captureStop t))

/-- Every unit has finished with a taken block when lane monitor, skew estimator and speed reference unit have handed their work
for it and the resampler of each group with an active lane has reported it (R144, R169). BLOCK_PROCESSED: once every unit has
finished the oldest block not yet processed, the processed count rises, the high-water position is the block's end, both stand in
the progress area with the counts that each group's resampler reported for the block, and RETUNEs whose binding block it is are
reported COMPLETE; the block leaves the list once it is folded too, and the rest of the controller stays. Before that nothing
changes (R36, R163, R169; log 4). -/
def Obligations.BlockProcessedRaisesHighWater : Prop :=
  (∀ (x : Taken) (p : CaptureParams), x.done p = true ↔ x.lanes ≠ none ∧ x.skew ≠ none ∧ x.speed ≠ none ∧
    ∀ g, (∃ l, (getAt p.lanes l).active = true ∧ (getAt p.lanes l).group = g) → x.resampled.get g ≠ none) ∧
  ∀ (s : State) (cap : Capture) (x : Taken) (rec : BlockRecord), Capturing s cap → MemoryCanonical s → cap.control.peak = none →
    cap.control.inFlight.find? (fun y => !y.processed) = some x → x.block.record = some rec →
    let k := cap.control
    let base := slotBase cap.slot
    (x.done cap.params = false → exec .blockProcessed s = .next s) ∧
    (x.done cap.params = true → ∃ t k', exec .blockProcessed s = .next t ∧ CaptureFrame s t ∧
      t.capture = some { cap with control := k' } ∧
      k' = { k with
        processed := upTo 4294967295 k.processed, highWater := rec.stop, counts := k'.counts
        reached := k.reached.filter fun p => decide (p.2 ≠ x.idx)
        inFlight := (k.inFlight.map fun y => if y.idx = x.idx then { x with processed := true } else y).filter fun y =>
          !(y.processed && y.folded) } ∧
      t.orders = { s.orders with ends := s.orders.ends ++
        (k.reached.filter fun p => decide (p.2 = x.idx)).map fun p => ⟨p.1, .complete, .none, false⟩ } ∧
      Stored t (base + 0x2C) (BitVec.ofNat 32 (upTo 4294967295 k.processed)) ∧ Stored t (base + 0x3C) rec.stop ∧
      (∀ g next released, x.resampled.get g = some (next, released) → k'.counts.get g = some (next, released) ∧
        Stored t (base + (match g with | .a => 0x40 | .b => 0x48)) next ∧
        Stored t (base + (match g with | .a => 0x44 | .b => 0x4C)) released) ∧
      (∀ g, x.resampled.get g = none → k'.counts.get g = k.counts.get g ∧
        ∀ a, base + (match g with | .a => 0x40 | .b => 0x48) ≤ a → a < base + (match g with | .a => 0x48 | .b => 0x50) →
          readByte t.port.mem a = readByte s.port.mem a) ∧
      MemoryKeptOutside s t [(base + 0x2C, 4), (base + 0x3C, 20)])

/-- CAPTURE_STOP: a capture in STOPPING with nothing left to do (no block to take, in work or waiting, no frame, record or excerpt
on its way) ends: the SOURCE orders of its groups and a pending RETUNE end CAPTURE_ENDED (R37, R141, R168; group A's before group
B's, DESIGN CHOICE, log 65), its final progress values and its end reason stand in the progress area, the groups' counts being
those of the block processed last (R180), its end is reported, CANCELLED as the cancel's own effect after a cancel and COMPLETE
otherwise, and the units' capture state is discarded, at this instant (DESIGN CHOICE, log 66). A capture that is not in STOPPING
or has something left is left as it is (R178; log 4). What was on its way or due is carried out before (log 19, log 20). The
writer's end work: spilled frames drain into spans without a watch, and those that meet a span not EMPTY are counted as lost; a
FILLING span is closed early with the fill it holds; open LOST records are closed with CUT and numbered, group A's first (log 62),
and follow the held records into the repair list while it has room, the rest counted as suppressed; a speed map record is written
where its list has room, and otherwise dropped with SPEEDMAP_DROPPED (R201); the layouts of the two records are stated in
SpeedMapRecords and NoticesAndRepairRecords. -/
def Obligations.CaptureStopReportsTheEnd : Prop :=
  (∀ cap : Capture, cap.idle = true ↔ cap.control.state = .stopping ∧ cap.control.ended = false ∧ cap.control.toTake = [] ∧
    cap.control.candidate = none ∧ cap.control.cancelLeft = 0 ∧ cap.control.inFlight = [] ∧ cap.control.peak = none ∧
    (∀ g, (cap.writer.groups.get g).arriving = []) ∧ cap.writer.handed = [] ∧ cap.writer.excerpt = none) ∧
  (∀ (s : State) (cap : Capture), Capturing s cap → MemoryCanonical s → settled s = s → cap.writer.closeDue = none →
    cap.idle = true →
    let k := cap.control
    let w := cap.writer
    let base := slotBase cap.slot
    let own := decide (k.endReason = .cancel)
    let ended := fun (n : SlotNo) => (⟨n, .captureEnded, .none, false⟩ : EndReport)
    let news := fun (t : State) (o : OrderUnit) => t.orders.slots = o.slots ∧ t.orders.summary = o.summary
    ∃ t cap', exec .captureStop s = .next t ∧ t.capture = some cap' ∧ cap'.control.ended = true ∧
      cap'.control.endReason = k.endReason ∧ cap'.monitor = none ∧ cap'.speed = none ∧ cap'.resamplers = ⟨none, none⟩ ∧
      (∀ l, getAt cap'.skew l = none) ∧ cap'.control.sources = ⟨none, none⟩ ∧ cap'.control.pending = none ∧ CaptureFrame s t ∧
      t.orders.ends = s.orders.ends ++ (k.sources.a.toList ++ k.sources.b.toList).map (fun q => ended q.slot) ++
        k.pending.toList.map (fun q => ended q.slot) ++ [⟨cap.slot, if own then .cancelled else .complete, .none, own⟩] ∧
      Stored t (base + 0x24) (BitVec.ofNat 32 (endReasonCode k.endReason)) ∧ Stored t (base + 0x20) 3 ∧
      Stored t (base + 0x2C) (BitVec.ofNat 32 k.processed) ∧ Stored t (base + 0x3C) k.highWater ∧
      Stored t (base + 0x54) (BitVec.ofNat 32 (k.cuesSkipped + 256 * k.cuesReached)) ∧
      Stored t (base + 0x58) (BitVec.ofNat 32 k.pauses) ∧
      (∀ g next released, k.counts.get g = some (next, released) →
        Stored t (base + (match g with | .a => 0x40 | .b => 0x48)) next ∧
        Stored t (base + (match g with | .a => 0x44 | .b => 0x4C)) released) ∧
      (∀ g, NothingOpen cap → k.sources = ⟨none, none⟩ → (∀ h, h ≠ g → SpansQuiet cap h) →
        let o := w.groups.get g
        let d := cursorSpan o
        (∀ sp, o.queue = [] → o.filling = some sp → 0x2000 ≤ d.addr → Stored s d.addr 1 →
          Stored t d.addr 2 ∧ MemoryKeptOutside s t [(base + 0x20, 60), (d.addr, 4)] ∧
          news t (s.orders.setNews cap.slot (match g with | .a => .spanA | .b => .spanB))) ∧
        (∀ f fs rest v, o.filling = none → o.queue = .page (f :: fs) :: rest → 0x2000 ≤ d.addr → Stored s d.addr v → v ≠ 0 →
          Stored t (lostWord cap g) (BitVec.ofNat 32 (min 4294967295 (o.samplesLost + framesIn o.queue))) ∧
          MemoryKeptOutside s t [(base + 0x20, 60), (lostWord cap g, 4)] ∧ news t s.orders) ∧
        (∀ (pages : List (List Frame)) (f : Frame) (fs : List Frame) (len : Nat), o.filling = none →
          o.queue = pages.map .page → pages.flatten = f :: fs → (∀ x ∈ f :: fs, 4 * x.words.length = len) → 0 < len →
          0 < d.capacity → 0x2000 ≤ d.addr → 0x2000 ≤ d.buffer → Apart (d.addr, 32) (d.buffer, d.capacity) → Stored s d.addr 0 →
          let flags := if o.afterLoss then 2 else 0
          let spanNews := s.orders.setNews cap.slot (match g with | .a => .spanA | .b => .spanB)
          let all := len * (fs.length + 1)
          (all ≤ d.capacity → ShowsSpan t d 2 all (fs.length + 1) f.index f.position flags ∧ FramesAt t d.buffer len (f :: fs) ∧
            MemoryKeptOutside s t [(base + 0x20, 60), (d.buffer, all), (d.addr, 4), (d.addr + 0x0C, 20)] ∧ news t spanNews) ∧
          (∀ (fit : List Frame) (h : Frame) (left : List Frame), f :: fs = fit ++ h :: left → len * fit.length = d.capacity →
            let e := cursorSpan { o with cursor := (o.cursor + 1) % o.spans.length }
            let size := len * (left.length + 1)
            (∀ v, Stored s e.addr v → v ≠ 0 → 0x2000 ≤ e.addr → Apart (e.addr, 4) (d.addr, 32) →
              Apart (e.addr, 4) (d.buffer, d.capacity) →
              ShowsSpan t d 2 d.capacity fit.length f.index f.position flags ∧ FramesAt t d.buffer len fit ∧
              Stored t (lostWord cap g) (BitVec.ofNat 32 (min 4294967295 (o.samplesLost + (left.length + 1)))) ∧
              MemoryKeptOutside s t [(base + 0x20, 60), (lostWord cap g, 4), (d.buffer, d.capacity), (d.addr, 4),
                (d.addr + 0x0C, 20)] ∧ news t spanNews) ∧
            (Stored s e.addr 0 → size ≤ e.capacity → 0x2000 ≤ e.addr → 0x2000 ≤ e.buffer →
              [(d.addr, 32), (d.buffer, d.capacity), (e.addr, 32), (e.buffer, e.capacity)].Pairwise Apart →
              ShowsSpan t d 2 d.capacity fit.length f.index f.position flags ∧ FramesAt t d.buffer len fit ∧
              ShowsSpan t e 2 size (left.length + 1) h.index h.position 0 ∧ FramesAt t e.buffer len (h :: left) ∧
              MemoryKeptOutside s t [(base + 0x20, 60), (d.buffer, d.capacity), (d.addr, 4), (d.addr + 0x0C, 20),
                (e.buffer, size), (e.addr, 4), (e.addr + 0x0C, 20)] ∧ news t spanNews)))) ∧
      (∀ m n nm, cap.monitor = some m → k.sources = ⟨none, none⟩ →
        let span := fun (g : Group) => cursorSpan (w.groups.get g)
        let lost := fun (g : Group) => framesIn (w.groups.get g).queue
        (∀ g, (w.groups.get g).queue ≠ [] →
          (w.groups.get g).filling = none ∧ ∃ v, v ≠ 0 ∧ 0x2000 ≤ (span g).addr ∧ Stored s (span g).addr v) →
        (∀ g, (w.groups.get g).filling.isSome = true → 0x2000 ≤ (span g).addr ∧ Stored s (span g).addr 1) →
        let records := w.holding ++ (([Group.a, Group.b].filterMap fun g => (w.groups.get g).lost.map fun r seq =>
          lostRepair seq g r true).zipIdx.map fun x => x.1 (m.seq + x.2))
        let l := w.repairList
        let lm := w.mapList
        let count := min records.length (l.capacity - n)
        ListTakes s w n count → Outstanding s lm nm → nm ≤ lm.capacity → 4 ≤ lm.capacity →
        ([(l.header, 16 + 32 * l.capacity), (lm.header, 16 + 64 * lm.capacity)] ++
          ([Group.a, Group.b].filterMap fun g =>
            if (w.groups.get g).filling = none ∧ (w.groups.get g).queue = [] then none else some ((span g).addr, 32))).Pairwise Apart →
        (∀ g, 0 < lost g →
          Stored t (lostWord cap g) (BitVec.ofNat 32 (min 4294967295 ((w.groups.get g).samplesLost + lost g)))) ∧
        (∀ g, (w.groups.get g).filling.isSome = true → Stored t (span g).addr 2) ∧
        RepairsPlaced t l (records.take count) ∧
        (0 < count → Stored t (base + 0x60) (BitVec.ofNat 32 (min 4294967295 (w.repairWritten + count)))) ∧
        (count < records.length →
          Stored t (base + 0x64) (BitVec.ofNat 32 (min 4294967295 (w.suppressed + (records.length - count))))) ∧
        (∀ x, w.map = some x → nm < lm.capacity →
          (∀ (i : Nat) (v : Word), (x.words w.mapWritten)[i]? = some v →
            Stored t (lm.header + 16 + 64 * (lm.written.toNat % lm.capacity) + 4 * i) v) ∧
          Stored t (lm.header + 4) (lm.written + 1) ∧
          Stored t (base + 0x5C) (BitVec.ofNat 32 (upTo 4294967295 w.mapWritten))) ∧
        (w.map ≠ none → nm = lm.capacity →
          Stored t (base + 0x28) (BitVec.ofNat 32 (flagBit w.faultMap + 2 * flagBit w.faultRepair + 4))) ∧
        MemoryKeptOutside s t ([(base + 0x20, 60)] ++
          ([Group.a, Group.b].flatMap fun g => (if lost g = 0 then [] else [(lostWord cap g, 4)]) ++
            (if (w.groups.get g).filling = none then [] else [((span g).addr, 4)])) ++
          repairRanges cap.slot l count ++ (if count = records.length then [] else [(base + 0x64, 4)]) ++
          (if w.map = none ∨ nm = lm.capacity then [] else
            [(base + 0x5C, 4), (lm.header + 4, 4), (lm.header + 16 + 64 * (lm.written.toNat % lm.capacity), 64)])) ∧
        news t (((if (w.groups.a.filling).isSome then [Cause.spanA] else []) ++
            (if (w.groups.b.filling).isSome then [Cause.spanB] else []) ++ (if 0 < count then [Cause.repair] else []) ++
            (if w.map.isSome ∧ nm < lm.capacity then [Cause.speedMap] else [])).foldl (fun o k => o.setNews cap.slot k) s.orders)) ∧
      ((∀ g, SpansQuiet cap g) → k.sources = ⟨none, none⟩ →
        (∀ m n, w.map = some m → NothingOpen { cap with writer := { w with map := none } } →
          let l := w.mapList
          Outstanding s l n →
          (n < l.capacity → (∀ (i : Nat) (v : Word), (m.words w.mapWritten)[i]? = some v →
              Stored t (l.header + 16 + 64 * (l.written.toNat % l.capacity) + 4 * i) v) ∧
            Stored t (l.header + 4) (l.written + 1) ∧ Stored t (base + 0x5C) (BitVec.ofNat 32 (upTo 4294967295 w.mapWritten)) ∧
            MemoryKeptOutside s t [(base + 0x20, 64), (l.header + 16 + 64 * (l.written.toNat % l.capacity), 64), (l.header + 4, 4)] ∧
            news t (s.orders.setNews cap.slot .speedMap)) ∧
          (n = l.capacity → Stored t (base + 0x28) (BitVec.ofNat 32 (flagBit w.faultMap + 2 * flagBit w.faultRepair + 4)) ∧
            MemoryKeptOutside s t [(base + 0x20, 60)] ∧ news t s.orders)) ∧
        (∀ r n, w.holding = [r] → NothingOpen { cap with writer := { w with holding := [] } } →
          let l := w.repairList
          Outstanding s l n →
          (n < l.capacity → (∀ (i : Nat) (v : Word), r.words[i]? = some v →
              Stored t (l.header + 16 + 32 * (l.written.toNat % l.capacity) + 4 * i) v) ∧
            Stored t (l.header + 4) (l.written + 1) ∧
            Stored t (base + 0x60) (BitVec.ofNat 32 (upTo 4294967295 w.repairWritten)) ∧
            MemoryKeptOutside s t [(base + 0x20, 68), (l.header + 16 + 32 * (l.written.toNat % l.capacity), 32), (l.header + 4, 4)] ∧
            news t (s.orders.setNews cap.slot .repair)) ∧
          (n = l.capacity → Stored t (base + 0x64) (BitVec.ofNat 32 (min 4294967295 (w.suppressed + 1))) ∧
            MemoryKeptOutside s t [(base + 0x20, 60), (base + 0x64, 4)] ∧ news t s.orders)))) ∧
  (∀ (s : State) (cap : Capture), Capturing s cap → cap.control.peak = none → settled s = s →
    cap.control.state ≠ .stopping ∨ (cap.writer.closeDue = none ∧ cap.idle = false) → exec .captureStop s = .next s)

/-! ## The lane monitor (05) -/

/-- JUDGE_LANES: the lane monitor judges the oldest taken block it has not judged. Each active lane's sixteen segments are judged
in order, each by the judgement of SegmentJudgement on the block's own inputs and from the state the segment before left, the
first from the state of the block before or, at the first block of a continuity, with its smoothed envelopes at 0 (R83 to R87);
what the excerpts answer to an opening can only set NO_EXCERPT (R90). The sixteen results are handed on, the watched elements
present in all sixteen segments carry the full-presence mark, and the block's peak, the largest envelope of a watched element of
an active lane, goes to the controller (R88, R89; on its way it stands in a word of the model's, log 19). Each dropout that a
segment closes is numbered and put behind the closed ones, segment by segment and within one by ascending lane, with CUT clear and
that segment (R92, R102); a final block ends the continuity: after segment 15 each open one is closed with CUT, by ascending lane,
an unsettled run having become WEAK and its length recorded (R94, R103). Without a list of excerpt spans nothing outside the
capture changes. WEAK on a lane gives the verdict to a run past its bridge limit and changes nothing else (R96; that the judgement
has already given it is log 21). -/
def Obligations.LanesAreJudgedBlockByBlock : Prop :=
  (∀ (s : State) (cap : Capture) (m : LaneMonitor) (x : Taken) (h : HistBlock), Capturing s cap → cap.monitor = some m →
    cap.control.inFlight.find? (fun y => y.lanes.isNone) = some x → findBlock s.elements x.block.num = some h →
    (∀ l, (getAt cap.params.lanes l).active = (getAt m.lanes l).isSome) →
    let entry := fun (l : LaneNo) => getAt cap.params.lanes l
    let watched := fun (l : LaneNo) =>
      (watchedElements s.elements.table (entry l) (getAt x.tuning.lanes l)).map (· - (entry l).first)
    let samples := fun (l : LaneNo) => (laneElements (entry l)).map (trimmed s.elements h)
    let env := fun (l : LaneNo) (j : Nat) => (samples l).map fun e => (((e.drop (240 * j)).take 240).map Int.natAbs).sum / 240
    let input := fun (l : LaneNo) (j : Nat) => ({
      first := (entry l).first, watched := watched l, sp := x.tuning.sp, qf := x.tuning.qf, bl := x.tuning.bl, block := x.idx
      position := (x.block.record.map (·.start)).getD 0, segment := 16 * x.idx + j, env := env l j } : SegmentInput)
    ∃ t cap' m' js peak, ∃ states : LaneNo → Nat → LaneState, exec .judgeLanes s = .next t ∧ t.capture = some cap' ∧
      cap'.monitor = some m' ∧ CaptureFrame s t ∧
      (∀ y ∈ cap'.control.inFlight, y.idx = x.idx → y = { x with lanes := some js }) ∧
      cap'.control.peak = some (x.idx, peak) ∧ cap'.control.state = cap.control.state ∧
      (∀ l j p, (entry l).active = true → j < 16 → p ∈ watched l → (env l j).getD p 0 ≤ peak) ∧
      (peak = 0 ∨ ∃ l j p, (entry l).active = true ∧ j < 16 ∧ p ∈ watched l ∧ (env l j).getD p 0 = peak) ∧
      (∀ l y, getAt m.lanes l = some y → ∃ out : LaneJudgement, getAt js l = some out ∧
        states l 0 = (if x.first then { y with smooth := y.smooth.map fun _ => 0 } else y) ∧
        (∀ j, j < 16 → let r := (states l j).judge (input l j)
          out.segs[j]? = some r.info ∧
          (states l (j + 1) = r.state ∨ (r.opened = true ∧
            states l (j + 1) = { r.state with dropout := r.state.dropout.map fun d => { d with noExcerpt := true } }))) ∧
        out.full = ((watchedElements s.elements.table (entry l) (getAt x.tuning.lanes l)).filter fun e =>
          (List.range 16).all fun j =>
            let info := ((states l j).judge (input l j)).info
            match info.cls with
            | .void _ => false
            | _ => decide (e ∈ info.set)) ∧
        out.segs.length = 16 ∧ (out.quiet = true ↔ ∃ j, j < 16 ∧ ((states l j).judge (input l j)).quiet = true) ∧
        (x.final = none → getAt m'.lanes l = some (states l 16))) ∧
      (let judged := laneNos.filter fun l => (getAt m.lanes l).isSome
       let closings : List (LaneNo × Dropout × Bool × Option Nat) :=
         ((List.range 16).flatMap fun j => judged.filterMap fun l =>
           ((states l j).judge (input l j)).closed.map fun d => (l, d, false, some (16 * x.idx + j))) ++
         if x.final = none then [] else judged.filterMap fun l => (states l 16).dropout.map fun d =>
           (l, (match (states l 16).run with
             | none => d
             | some r => { d with
                 kind := if d.kind = .lost then .lost else .weak, longest := max d.longest (min 65535 r.length) }), true, none)
       m'.seq = m.seq + closings.length ∧
       m'.closed = m.closed ++ closings.mapIdx fun n c =>
         (⟨m.seq + n, c.1, c.2.1, c.2.2.1, c.2.2.2, x.idx, none⟩ : ClosedDropout)) ∧
      (∀ l, (entry l).active = false → getAt js l = none) ∧
      (x.final = none → m'.last.map (·.idx) = some x.idx) ∧
      (x.final ≠ none → m'.finalIdx = some x.idx ∧ m'.last = none ∧ ∀ l y, getAt m'.lanes l = some y →
        y.dropout = none ∧ y.run = none ∧ y.pattern = none) ∧
      (cap.writer.excerpts = [] → cap.writer.excerpt = none → OnlyCaptureChanges s t)) ∧
  (∀ (s : State) (cap : Capture) (m : LaneMonitor) (lane : LaneNo) (l : LaneState) (r : VoidRun) (d : Dropout),
    Capturing s cap → cap.monitor = some m → getAt m.lanes lane = some l → l.run = some r → l.dropout = some d →
    (r.settled = false → r.limit < r.length → exec (.weak lane) s = .next { s with
      capture := some { cap with monitor := some { m with lanes := setAt m.lanes lane (some { l with
        run := some { r with settled := true }, dropout := some { d with
          kind := if d.kind = .lost then .lost else .weak, longest := max d.longest (min 65535 r.length) } }) } } }) ∧
    (r.settled = true ∨ r.length ≤ r.limit → exec (.weak lane) s = .next s))

/-- A segment of a lane: with R the largest smoothed envelope of the watched positions, every watched position is present
where R is below the quiet floor, else those whose envelope is at least R >> Sp (R85, R86). All present, the segment matches
and closes an open dropout; none, it is void; else spare (R90, R92, R93). A mismatch opens a record of kind SPARE, or extends the
open one: its absent mask is the union of the absent elements, its minimum present count the least (R90, R91). A void run begins
with the tuning's bridge limit and counts one void run; a segment that is not void ends it, and ends it BRIDGED where it is
unsettled; a void segment that takes it past its limit gives WEAK (R94 to R96). A verdict raises the kind and never lowers it
(R98). The pattern of the segment is kept (R82), and each smoothed envelope moves by a 64th of its difference (R87). -/
def Obligations.SegmentJudgement : Prop :=
  ∀ (l : LaneState) (i : SegmentInput), i.watched ≠ [] →
    let reference := (i.watched.map fun p => l.smooth.getD p 0).foldl max 0
    let present := fun (p : Nat) => decide (reference < i.qf) || decide (reference / 2 ^ i.sp ≤ i.env.getD p 0)
    let here := i.watched.filter present
    let absentBit := fun (e : Nat) => i.watched.any fun p => !present p && decide (i.first + p = e)
    let raised := fun (k v : RepairKind) => if repairKindCode k < repairKindCode v then v else k
    let runEnds := fun (d : Dropout) (n : VoidRun) => { d with
      longest := max d.longest (min 65535 n.length)
      bridged := if n.settled then d.bridged else upTo 65535 d.bridged
      kind := if n.settled then d.kind else raised d.kind .bridged }
    let ended := fun (d : Dropout) => match l.run with | none => d | some n => runEnds d n
    let verdict := match l.run with | none => none | some n => if n.settled then none else some Verdict.bridged
    let r := l.judge i
    (r.quiet = true ↔ reference < i.qf) ∧
    r.state.smooth = List.zipWith (fun (s e : Nat) => ((s : Int) + Int.tdiv ((e : Int) - s) 64).toNat) l.smooth i.env ∧
    r.state.pattern = some ⟨decide (here = i.watched), here⟩ ∧
    ((∀ p ∈ i.watched, present p = true) →
      r.info = ⟨.clean, i.watched.map (i.first + ·), verdict⟩ ∧ r.state.dropout = none ∧ r.state.run = none ∧
      r.opened = false ∧ r.closed = l.dropout.map ended) ∧
    ((∃ p ∈ i.watched, present p = false) →
      r.closed = none ∧ (r.opened = true ↔ l.dropout = none) ∧
      ∃ d, r.state.dropout = some d ∧
        (∀ e, e < 16 → d.absent.getLsbD e = ((l.dropout.map fun o => o.absent.getLsbD e).getD false || absentBit e)) ∧
        d.minPresent = (l.dropout.map fun o => min o.minPresent here.length).getD here.length ∧
        (l.dropout = none → d.block = i.block ∧ d.position = i.position ∧ d.opening = i.segment ∧ d.noExcerpt = false ∧
          d.firstOut = none) ∧
        (∀ o, l.dropout = some o → d.block = o.block ∧ d.position = o.position ∧ d.opening = o.opening ∧
          d.noExcerpt = o.noExcerpt ∧ d.firstOut = o.firstOut) ∧
        (here ≠ [] → r.info = ⟨.spare, here.map (i.first + ·), verdict⟩ ∧ r.state.run = none ∧
          (l.dropout = none → l.run = none → d.kind = .spare ∧ d.voidRuns = 0 ∧ d.longest = 0 ∧ d.bridged = 0) ∧
          (∀ o, l.dropout = some o → d.kind = (ended o).kind ∧ d.voidRuns = o.voidRuns ∧ d.longest = (ended o).longest ∧
            d.bridged = (ended o).bridged)) ∧
        (here = [] →
          let n := match l.run with | none => (⟨1, i.bl, false⟩ : VoidRun) | some n => { n with length := n.length + 1 }
          let weak := decide (n.settled = false ∧ n.limit < n.length)
          r.info = ⟨.void (n.settled || weak), i.watched.map (i.first + ·), if weak then some .weak else none⟩ ∧
          r.state.run = some { n with settled := n.settled || weak } ∧
          let o := l.dropout.getD { d with kind := .spare, voidRuns := 0, longest := 0, bridged := 0 }
          d.voidRuns = (if l.run = none then upTo 65535 o.voidRuns else o.voidRuns) ∧ d.bridged = o.bridged ∧
          d.kind = (if weak then raised o.kind .weak else o.kind) ∧
          d.longest = (if weak then max o.longest (min 65535 n.length) else o.longest)))

/-! ## The skew estimator (06) -/

/-- MEASURE_SKEW works on the oldest judged block it has not worked on and changes nothing outside the capture (R109). Each active
lane's skews are seeded from the static skews of the table against the lane's anchor, again where the anchor has changed (R107,
R108); an element is tried where the lane's measurement is enabled, the element is watched and not the anchor, no segment of the
block was quiet, and it and the anchor were present throughout (R110); an accepted measurement moves its skew, a rejected one
leaves it and sets SKEW_HELD (R112, R114, R115); the skews of the range, SKEW_HELD and the span from the lowest to the highest
watched element are handed on (R116, R117). A measurement reads the block and its neighbours in the continuity (R109). Skews that
lie within ±1,536 stay there (R106). While the lane monitor has not judged the block nothing happens (log 4). -/
def Obligations.SkewsAreMeasuredWithinRange : Prop :=
  (∀ (s : State) (cap : Capture) (x : Taken) (js : Judgements) (i : Option SkewInput), Capturing s cap →
    cap.control.peak = none → cap.control.inFlight.find? (fun y => y.skew.isNone) = some x → x.lanes = some js →
    skewInput s.elements x (anyTried s.elements.table cap.params x.tuning js) = .ok i →
    let static := fun (e : Nat) => (tableEntry s.elements.table e).skew
    let y := fun (e : Nat) (b : HistBlock) => trimmed s.elements b e
    ∃ t cap' ks, exec .measureSkew s = .next t ∧ OnlyCaptureChanges s t ∧ t.capture = some cap' ∧
      (∀ y ∈ cap'.control.inFlight, y.idx = x.idx → y = { x with skew := some ks }) ∧
      (∀ l k j, (getAt cap.params.lanes l).active = true → getAt cap.skew l = some k → getAt js l = some j →
        let entry := getAt cap.params.lanes l
        let tuning := getAt x.tuning.lanes l
        let a := entry.first + tuning.anchor
        let old := if k.anchor = a then k.skews
          else (List.range entry.count).map fun p => max (-1536) (min 1536 (static (entry.first + p) - static a))
        let watched := (List.range entry.count).filter fun p =>
          tuning.watch.getLsbD p && !(tableEntry s.elements.table (entry.first + p)).dead
        let tried := fun (e : Nat) => tuning.measure = true ∧ j.quiet = false ∧ a ∈ j.full ∧
          (∃ p ∈ watched, e = entry.first + p) ∧ e ≠ a ∧ e ∈ j.full
        let measured := fun (e : Nat) => i.bind fun z =>
          measureSkew (y a z.block) (y e z.block) (edgeWindow (z.before.map (y e)) (y e z.block) (z.after.map (y e)))
        ∃ k' r, getAt cap'.skew l = some k' ∧ getAt ks l = some r ∧ r.skews = k'.skews ∧ k'.anchor = a ∧
          k'.skews.length = old.length ∧
          (∀ p d, old[p]? = some d →
            (¬ tried (entry.first + p) → k'.skews[p]? = some d) ∧
            (tried (entry.first + p) → k'.skews[p]? = some (match measured (entry.first + p) with
              | none => d
              | some m => moveSkew d m x.tuning.ss))) ∧
          (r.held = true ↔ ∃ e, tried e ∧ measured e = none) ∧
          (∀ lo hi, watched.head? = some lo → watched.getLast? = some hi →
            r.span = k'.skews.getD hi 0 - k'.skews.getD lo 0)) ∧
      ((∀ l k, getAt cap.skew l = some k → ∀ z ∈ k.skews, -1536 ≤ z ∧ z ≤ 1536) →
        ∀ l k, getAt cap'.skew l = some k → ∀ z ∈ k.skews, -1536 ≤ z ∧ z ≤ 1536)) ∧
  (∀ (s : State) (cap : Capture) (x : Taken), Capturing s cap → cap.control.peak = none →
    cap.control.inFlight.find? (fun y => y.skew.isNone) = some x → x.lanes = none → exec .measureSkew s = .next s) ∧
  (∀ (ec : ElementCapture) (x : Taken) (z : SkewInput), skewInput ec x true = .ok (some z) →
    z.elements = ec ∧ findBlock ec x.block.num = some z.block ∧
    z.before = (if x.first then none else findBlock ec (x.block.num - 1)) ∧ (x.first = false → z.before ≠ none) ∧
    z.after = (if x.final.isSome then none else findBlock ec (x.block.num + 1)) ∧ (x.final = none → z.after ≠ none)) ∧
  (∀ (table : Vector CalEntry 16) (p : CaptureParams) (t : Tuning) (l : LaneNo),
    let entry := getAt p.lanes l
    let a := entry.first + (getAt t.lanes l).anchor
    (entry.active = false → getAt (seedLanes table p t) l = none) ∧
    (entry.active = true → getAt (seedLanes table p t) l = some ⟨(List.range entry.count).map fun i =>
      max (-1536) (min 1536 ((tableEntry table (entry.first + i)).skew - (tableEntry table a).skew)), a⟩))

/-- The correlation at a lag is the exact sum of products of the anchor's samples and the element's read that much later; of
samples outside the continuity the element's first or last sample stands (R109, R111). The lag taken is one of largest correlation
and of those the nearest zero, the negative one of a pair; a measurement is accepted when its correlation is positive, its lag
inside ±24 and four times its square not below the product of the energies; the refined value is 64 times the lag and the rounded
64th part of the vertex of the parabola, held to half a sample, and the lag itself where the curve has no maximum; a rejected
measurement gives none; a skew moves by the difference over 2^Ss, truncated (R111 to R114). -/
def Obligations.SkewMeasurementArithmetic : Prop :=
  (∀ (anchor window : List Int) (j : Int), -24 ≤ j → j ≤ 24 → window.length = anchor.length + 48 →
    correlation anchor window j =
      ((List.range anchor.length).map fun n => anchor.getD n 0 * window.getD (24 + j + n).toNat 0).sum) ∧
  (∀ (before after : Option (List Int)) (block : List Int), block ≠ [] → (∀ b, before = some b → 24 ≤ b.length) →
    (∀ b, after = some b → 24 ≤ b.length) →
    let w := edgeWindow before block after
    w.length = block.length + 48 ∧ (∀ n, n < block.length → w[24 + n]? = block[n]?) ∧
    (∀ n, n < 24 → w[n]? = (match before with | none => block.head? | some b => b[b.length - 24 + n]?) ∧
      w[24 + block.length + n]? = (match after with | none => block.getLast? | some b => b[n]?))) ∧
  (∀ anchor block window : List Int,
    let c := correlation anchor window
    let energy := fun (l : List Int) => (l.map fun z => z * z).sum
    measureSkew anchor block window =
      if accepted c (bestLag c) (energy anchor) (energy block) = true then some (refine c (bestLag c)) else none) ∧
  (∀ c : Int → Int, let j := bestLag c
    (-24 ≤ j ∧ j ≤ 24) ∧ (∀ k, -24 ≤ k → k ≤ 24 → c k ≤ c j) ∧
    (∀ k, -24 ≤ k → k ≤ 24 → c k = c j → j.natAbs < k.natAbs ∨ (j.natAbs = k.natAbs ∧ j ≤ k))) ∧
  (∀ (c : Int → Int) (j ea ee : Int), accepted c j ea ee = true ↔ 0 < c j ∧ (-24 < j ∧ j < 24) ∧ ea * ee ≤ 4 * (c j * c j)) ∧
  (∀ (c : Int → Int) (j : Int),
    let num := c (j - 1) - c (j + 1)
    let den := 2 * (c (j - 1) - 2 * c j + c (j + 1))
    (refine c j - 64 * j).natAbs ≤ 32 ∧ (0 ≤ den → refine c j = 64 * j) ∧
    (den < 0 → refine c j = 64 * j + max (-32) (min 32 (roundDiv (-64 * num) (-den).toNat)))) ∧
  (∀ (d m : Int) (ss : Nat), moveSkew d m ss = max (-1536) (min 1536 (d + Int.tdiv (m - d) (2 ^ ss))) ∧
    -1536 ≤ moveSkew d m ss ∧ moveSkew d m ss ≤ 1536)

/-! ## The speed reference unit (07) -/

/-- SPEED_BLOCK works on the oldest taken block it has not worked on and hands each group's ratio; a group whose held ratio lies
in the clamp range reports a ratio in it (R120, R135, R136). The TACH tracker takes the block's record, the HUM and BIAS trackers
of a group the trimmed samples of their lane's anchor, under the tuning in force for the block (R120, R121, R123, R127); at a
binding block the two samples before it are read on the new anchor too (DESIGN CHOICE, log 48). They are read where a tracker that
is not OFF, or one that the RETUNE may start, needs them: the block of that number in the history store and, inside a continuity,
the one before it, each sample trimmed by its element's entry (R69). Without SOURCE orders each group settles, reports and decides
by its own rules, no memory word changes, and each group whose active source at its step 4 differs from its active source for the
block before reports LOCK with the switch, A before B (R136). What has come due is carried out first (log 20). TACH: eight good
records lock it, Nc 0 puts it OFF (R121), its value is 8 Nc 2^22 over the window's counts, ties upward (R122). HUM: decimation,
smoothing and DC blocking (R123), a block's sixty values taken in order, 1,024 sixteenths of a sample apart, with the filter and
crossing state cleared at the first block of a continuity (R123, R124, R126, R142), the crossing's time (R124; a value of exactly
0 is crossed at its own time, DESIGN CHOICE, log 67), the run that locks (R125), the window, the misses, the timeout and the value
of a LOCKED tracker (R126). BIAS: a crossing and its time (R127), the window of four blocks and the value (R128), locking, short
blocks and jumps (R129). A tracker at a RETUNE: a restarted one is empty but for its time (R137; DEDUCED, log 30). -/
def Obligations.SpeedReportsStayInClampRange : Prop :=
  (∀ q, 3670016 ≤ clampRatio q ∧ clampRatio q ≤ 4718592 ∧ (3670016 ≤ q → q ≤ 4718592 → clampRatio q = q)) ∧
  (∀ s : State, Working s → exec .speedBlock s = exec .speedBlock (settled s)) ∧
  (∀ (s : State) (cap : Capture) (u : SpeedUnit) (x : Taken) (i : SpeedInput), Capturing s cap → settled s = s →
    cap.speed = some u → cap.control.inFlight.find? (fun y => y.speed.isNone) = some x → speedInput s.elements u x = .ok i →
    let gt := fun (g : Group) => x.tuning.groups.get g
    let anchor := fun (lane : LaneNo) => (getAt cap.params.lanes lane).first + (getAt x.tuning.lanes lane).anchor
    ∃ t cap' u' ps, exec .speedBlock s = .next t ∧ CaptureFrame s t ∧ t.capture = some cap' ∧ cap'.speed = some u' ∧
      (∀ y ∈ cap'.control.inFlight, y.idx = x.idx → y = { x with speed := some ps }) ∧ u'.tuning = x.tuning ∧
      u'.tach = (match x.block.record with | none => u.tach | some r => u.tach.take r) ∧
      (∀ g, (ps.get g).isSome = (u.groups.get g).isSome ∧ (u'.groups.get g).isSome = (u.groups.get g).isSome) ∧
      (∀ g y r, u.groups.get g = some y → 3670016 ≤ y.held → y.held ≤ 4718592 → ps.get g = some r →
        3670016 ≤ r.q ∧ r.q ≤ 4718592) ∧
      (∀ g y y', u.groups.get g = some y → u'.groups.get g = some y' →
        let y0 := if x.binding then y.retune cap.params u.tuning x.tuning g (61440 * x.idx : Nat) else y
        let old := lastTwo i (anchor (gt g).biasLane)
        y'.hum = y0.hum.take (gt g) x.first (61440 * x.idx : Nat) (i.samples (anchor (gt g).humLane)) ∧
        (y0.bias.state = .off → y'.bias = y0.bias) ∧
        (y0.bias.state ≠ .off → y'.bias = y0.bias.take (gt g).biasNominal x.first
          (biasCrossings (gt g).biasGate old.1 old.2 (3840 * x.idx : Nat) (i.samples (anchor (gt g).biasLane)) ⟨0, 0, 0⟩)) ∧
        (cap.control.sources.get g = none →
          let z := { y0 with hum := y'.hum, bias := y'.bias }.settle u'.tach (gt g)
          let q := z.ratio u'.tach (gt g)
          y' = { z with held := q.1 }.decide u'.tach ∧
          ps.get g = some ⟨q.1, z.active, z.state, q.2, decide (z.active ≠ y0.active)⟩)) ∧
      (cap.control.sources = ⟨none, none⟩ →
        let lock := fun (r : Option SpeedReport) (o : OrderUnit) =>
          if (r.map (·.switched)).getD false then o.setNews cap.slot .lock else o
        t.port = s.port ∧ OnlyNewsDiffers s.orders t.orders ∧ t.orders = lock ps.b (lock ps.a s.orders))) ∧
  (∀ (ec : ElementCapture) (u : SpeedUnit) (x : Taken) (i : SpeedInput), speedInput ec u x = .ok i →
    let reads := ∃ g y, u.groups.get g = some y ∧ (y.hum.state ≠ .off ∨ y.bias.state ≠ .off ∨
      (x.binding = true ∧ ∃ k ∈ (x.tuning.groups.get g).prefs, k ≠ .tach))
    i.elements = ec ∧ (¬ reads → i.block = none ∧ i.before = none) ∧
    (reads → (∃ b, i.block = some b ∧ findBlock ec x.block.num = some b) ∧ (x.first = true → i.before = none) ∧
      (x.first = false → ∃ b, i.before = some b ∧ findBlock ec (x.block.num - 1) = some b))) ∧
  (∀ (i : SpeedInput) (e : Nat),
    (∀ b, i.block = some b → i.samples e = trimmed i.elements b e) ∧ (i.block = none → i.samples e = []) ∧
    (i.before = none → lastTwo i e = (none, none)) ∧
    (∀ b ys y z, i.before = some b → trimmed i.elements b e = ys ++ [y, z] → lastTwo i e = (some y, some z)) ∧
    ∀ (b : HistBlock) (n : Nat), (trimmed i.elements b e)[n]? =
      ((b.samples.getD e [])[n]?).map fun v => trim (tableEntry i.elements.table e) v.toInt) ∧
  (∀ (t : Tach) (r : BlockRecord),
    let w := (r :: t.window).take 8
    let t' := t.take r
    (t.state = .off → t' = t) ∧
    (t.state ≠ .off → t'.window = w ∧ (t'.state = .off ↔ r.nc = 0) ∧
      (t'.state = .locked ↔ r.nc ≠ 0 ∧ w.length = 8 ∧
        ∀ e ∈ w, e.driven = true ∧ e.decodeError = false ∧ e.slip = false ∧ 0 < e.net.toInt) ∧
      t'.lockedRun = if t'.state = .locked then upTo 65535 t.lockedRun else 0) ∧
    (∀ total, t.window.head? = some r → (t.window.map fun e => e.net.toInt).sum = total → 0 < total →
      (t.value : Int) = (2 * (8 * r.nc * 4194304) + total) / (2 * total))) ∧
  ((∀ samples : List Int, (decimate samples).length = 60 ∧ ∀ m, m < 60 →
      (decimate samples)[m]? = some (Int.tdiv ((samples.drop (64 * m)).take 64).sum 64)) ∧
   (∀ (s x : Int) (ss : List Int), smoothStages [] x = ([], x) ∧
      let s' := s + Int.tdiv (x - s) 16
      smoothStages (s :: ss) x = (s' :: (smoothStages ss s').1, (smoothStages ss s').2)) ∧
   (∀ (h : Hum) (nominal time v : Int),
      let x := (smoothStages h.stages v).2
      let y := x - h.xPrev + Int.tdiv (255 * h.yPrev) 256
      let crossed := h.hasPrev = true ∧ h.yPrev < 0 ∧ 0 ≤ y
      let crossAt := h.timePrev + Int.tdiv (1024 * -h.yPrev) (y - h.yPrev)
      let h1 := match h.lastCross with | none => h | some t => h.period nominal (crossAt - t)
      let noted := fun (h : Hum) => { h with
        stages := (smoothStages h.stages v).1, xPrev := x, yPrev := y, hasPrev := true, timePrev := time }
      (crossed → h.timePrev ≤ crossAt ∧ crossAt ≤ h.timePrev + 1024 ∧
        Hum.value1 nominal h time v = { noted h1 with lastCross := some crossAt }.checkTimeout nominal) ∧
      (¬ crossed → Hum.value1 nominal h time v = (noted h).checkTimeout nominal) ∧
      (h.state = .off → h.period nominal v = h) ∧ (h.state = .acquiring → h.period nominal v = h.acquire nominal v) ∧
      (h.state = .locked → h.period nominal v = h.follow v)) ∧
   (∀ (h : Hum) (nominal p : Int),
      let run := (h.periods ++ [p]).drop ((h.periods ++ [p]).length - 8)
      let steady := run.length = 8 ∧ ∀ q ∈ run, (100 * (8 * q - run.sum).natAbs : Int) ≤ 2 * run.sum
      (15 * nominal < 100 * (p - nominal).natAbs → h.acquire nominal p = { h with periods := [] }) ∧
      (100 * (p - nominal).natAbs ≤ 15 * nominal → ¬ steady → h.acquire nominal p = { h with periods := run }) ∧
      (100 * (p - nominal).natAbs ≤ 15 * nominal → steady →
        h.acquire nominal p = { h with periods := run, state := .locked, misses := 0 })) ∧
   (∀ (h : Hum) (p : Int), h.state = .locked →
      let sum := h.periods.sum
      (100 * (8 * p - sum).natAbs ≤ 4 * sum → h.follow p = { h with periods := h.periods.drop 1 ++ [p], misses := 0 }) ∧
      (4 * sum < 100 * (8 * p - sum).natAbs →
        (h.misses < 2 → h.follow p = { h with misses := h.misses + 1 }) ∧
        (2 ≤ h.misses → h.follow p = { h with state := .acquiring, periods := [], misses := 0 }))) ∧
   (∀ (h : Hum) (p : Int),
      let late := h.state = .locked ∧ 3 * p < h.timePrev - max (h.lastCross.getD h.begun) h.begun
      (late → h.checkTimeout p = { h with state := .acquiring, periods := [], misses := 0 }) ∧
      (¬ late → h.checkTimeout p = h)) ∧
   (∀ (h : Hum) (g : GroupTuning), 0 < h.periods.sum →
      humPeriod g = (if g.hum60 then 102400 else 122880) ∧
      (h.ratio g : Int) = (2 * (h.periods.sum * 4194304) + 8 * humPeriod g) / (2 * (8 * humPeriod g))) ∧
   (∀ (h : Hum) (g : GroupTuning) (first : Bool) (time : Int) (samples : List Int),
      let h' := h.take g first time samples
      let h0 := if first then { h with
        stages := [0, 0, 0, 0], xPrev := 0, yPrev := 0, hasPrev := false, lastCross := none, begun := time } else h
      (h.state = .off → h' = h) ∧
      (h.state ≠ .off → ∃ after : Nat → Hum, after 0 = h0 ∧
        (∀ m v, m < 60 → (decimate samples)[m]? = some v →
          after (m + 1) = Hum.value1 (humPeriod g) (after m) (time + 1024 * m) v) ∧
        h' = { after 60 with lockedRun := h'.lockedRun }) ∧
      (h.state ≠ .off → h'.lockedRun = if h'.state = .locked then upTo 65535 h.lockedRun else 0))) ∧
  ((∀ (gate : Nat) (a b y t : Int),
      let u0 := b - a
      let u1 := y - b
      let time := 16 * (t - 1) + Int.tdiv (16 * -u0) (u1 - u0)
      (u0 < 0 ∧ 0 ≤ u1 ∧ gate ≤ u1.natAbs + u0.natAbs →
        biasCrossings gate (some a) (some b) t [y] ⟨0, 0, 0⟩ = ⟨1, time, time⟩ ∧
        ∀ c : BiasBlock, 0 < c.count → biasCrossings gate (some a) (some b) t [y] c = ⟨c.count + 1, c.first, time⟩) ∧
      (¬ (u0 < 0 ∧ 0 ≤ u1 ∧ gate ≤ u1.natAbs + u0.natAbs) → ∀ c, biasCrossings gate (some a) (some b) t [y] c = c)) ∧
   (∀ (gate : Nat) (a b : Option Int) (y t : Int) (ys : List Int) (c : BiasBlock),
      biasCrossings gate a b t [] c = c ∧ (a = none ∨ b = none → biasCrossings gate a b t [y] c = c) ∧
      biasCrossings gate a b t (y :: ys) c = biasCrossings gate b (some y) (t + 1) ys (biasCrossings gate a b t [y] c)) ∧
   (∀ w : List BiasBlock, (biasWindow w).count = (w.map (·.count)).sum ∧
      ∀ (pre post : List BiasBlock) (b : BiasBlock), w = pre ++ b :: post → 0 < b.count →
        ((∀ e ∈ pre, e.count = 0) → (biasWindow w).first = b.first) ∧
        ((∀ e ∈ post, e.count = 0) → (biasWindow w).last = b.last)) ∧
   (∀ (c : BiasBlock) (nominal : Nat), 2 ≤ c.count → c.first ≤ c.last →
      let d := ((c.count : Int) - 1) * 6144000
      (biasValue c nominal : Int) = (2 * ((c.last - c.first) * (nominal * 4194304)) + d) / (2 * d)) ∧
   (∀ (b : Bias) (nominal : Nat) (first : Bool) (block : BiasBlock),
      let w0 := (if first then [] else b.window) ++ [block]
      let w := w0.drop (w0.length - 4)
      let c := biasWindow w
      let b0 := { b with window := w }
      let run := fun (x : Bias) => { x with lockedRun := if x.state = .locked then upTo 65535 b.lockedRun else 0 }
      (b.state = .off → b.take nominal first block = b) ∧
      (b.state ≠ .off →
        (w.length < 4 → b.take nominal first block = run b0) ∧
        (w.length = 4 → nominal ≤ 50 * c.count → b.take nominal first block = run (b0.give (biasValue c nominal))) ∧
        (w.length = 4 → 50 * c.count < nominal →
          b.take nominal first block = run { b0 with state := .acquiring, run := [] }))) ∧
   (∀ (b : Bias) (v : Nat),
      let run := (b.run ++ [v]).drop ((b.run ++ [v]).length - 4)
      let steady := run.length = 4 ∧ ∀ x ∈ run, ∀ y ∈ run, 1000 * (x - y) ≤ 5 * y
      (b.state = .locked →
        (100 * ((v : Int) - b.value).natAbs ≤ b.value → b.give v = { b with value := v }) ∧
        (b.value < 100 * ((v : Int) - b.value).natAbs → b.give v = { b with state := .acquiring, run := [v] })) ∧
      (b.state ≠ .locked →
        (steady → b.give v = { b with state := .locked, run := run, value := v }) ∧ (¬ steady → b.give v = { b with run := run })))) ∧
  (∀ (h : Hum) (b : Bias) (p : CaptureParams) (old new : Tuning) (g : Group) (time : Int),
    let o := old.groups.get g
    let n := new.groups.get g
    let anchor := fun (t : Tuning) (lane : LaneNo) => (getAt p.lanes lane).first + (getAt t.lanes lane).anchor
    let humMoved := h.state = .off ∨ o.humLane ≠ n.humLane ∨ anchor old o.humLane ≠ anchor new n.humLane ∨ o.hum60 ≠ n.hum60
    let biasMoved := b.state = .off ∨ o.biasLane ≠ n.biasLane ∨ anchor old o.biasLane ≠ anchor new n.biasLane ∨
      o.biasNominal ≠ n.biasNominal
    let humEmpty := fun (st : TrackState) => h.retune p old new g time = { h with
      state := st, periods := [], misses := 0, lockedRun := 0, stages := [0, 0, 0, 0], xPrev := 0, yPrev := 0, hasPrev := false
      timePrev := time, lastCross := none, begun := time }
    let biasEmpty := fun (st : TrackState) => (b.retune p old new g).state = st ∧ (b.retune p old new g).window = [] ∧
      (b.retune p old new g).run = [] ∧ (b.retune p old new g).lockedRun = 0
    (.hum ∉ n.prefs → humEmpty .off) ∧ (.hum ∈ n.prefs → humMoved → humEmpty .acquiring) ∧
    (.hum ∈ n.prefs → ¬ humMoved → h.retune p old new g time = h) ∧
    (.bias ∉ n.prefs → biasEmpty .off) ∧ (.bias ∈ n.prefs → biasMoved → biasEmpty .acquiring) ∧
    (.bias ∈ n.prefs → ¬ biasMoved → b.retune p old new g = b))

/-- A group at a block: it takes the state and the source decided for it, and in TRACKING on a source that is not LOCKED it enters
HOLDOVER with the counter at Hl (R130); in TRACKING its ratio is its source's value, clamped and then marked, otherwise the held
one (R130, R135). Its own decision: TRACKING goes on, HOLDOVER goes back to a LOCKED source, counts down or has come due to
expire, FREE_RUN adopts the first LOCKED source of the list (R131 to R133); the return rule finds the first source before the
active one that has been LOCKED for sixteen blocks (R134), and where the list does not contain the active one, the first of the
list (DESIGN CHOICE, log 70). A RETUNE replaces the list, and puts a group whose source has left it into FREE_RUN (R137). What has come due in a group is carried out by its own command (log 20): an expired holdover switches to
the first LOCKED source of the list, or to FREE_RUN when there is none (R132); a return switches to the earlier source (R134). A
LOCKED HUM tracker with a third miss, or without a crossing for more than three nominal periods, returns to ACQUIRING with its
window dropped (R126); that the rows HUM_MISS_LIMIT and HUM_TIMEOUT, which name events inside SPEED_BLOCK, do this in a state
where their condition stands is log 21. Nothing else changes, and nothing where the condition does not hold (log 4). -/
def Obligations.DueSpeedDecisions : Prop :=
  (∀ (s : State) (cap : Capture) (u : SpeedUnit) (g : Group) (x : GroupSpeed), Capturing s cap → cap.speed = some u →
    u.groups.get g = some x →
    let becomes := fun (y : GroupSpeed) =>
      Host.Outcome.next { s with capture := some { cap with speed := some { u with groups := u.groups.put g (some y) } } }
    let locked := x.prefs.find? (sourceLocked u.tach x)
    let period := humPeriod (u.tuning.groups.get g)
    let silent := x.hum.timePrev - max (x.hum.lastCross.getD x.hum.begun) x.hum.begun
    let dropped := { x with hum := { x.hum with state := .acquiring, periods := [], misses := 0 } }
    (x.due = some .expiry → exec (.holdoverExpiry g) s = becomes { x with
      nextState := if locked.isSome then .tracking else .freeRun, nextActive := locked, due := none }) ∧
    (x.due ≠ some .expiry → exec (.holdoverExpiry g) s = .next s) ∧
    (x.due = some .sourceReturn → exec (.sourceReturn g) s = becomes { x with
      nextState := .tracking, nextActive := returnSource u.tach x, due := none }) ∧
    (x.due ≠ some .sourceReturn → exec (.sourceReturn g) s = .next s) ∧
    (x.hum.state = .locked → 3 ≤ x.hum.misses → exec (.humMissLimit g) s = becomes dropped) ∧
    (x.hum.state ≠ .locked ∨ x.hum.misses < 3 → exec (.humMissLimit g) s = .next s) ∧
    (x.hum.state = .locked → 3 * period < silent → exec (.humTimeout g) s = becomes dropped) ∧
    (x.hum.state ≠ .locked ∨ silent ≤ 3 * period → exec (.humTimeout g) s = .next s)) ∧
  (∀ (x : GroupSpeed) (tach : Tach) (t : GroupTuning),
    let isLocked := fun (s : Source) => match s with
      | .tach => tach.state = .locked
      | .hum => x.hum.state = .locked
      | .bias => x.bias.state = .locked
    let run := fun (s : Source) => match s with | .tach => tach.lockedRun | .hum => x.hum.lockedRun | .bias => x.bias.lockedRun
    let value := fun (s : Source) => match s with | .tach => tach.value | .hum => x.hum.ratio t | .bias => x.bias.value
    let decided := fun (st : SpeedState) (a : Option Source) => { x with nextState := st, nextActive := a }
    (∀ a, sourceLocked tach x a = true ↔ isLocked a) ∧
    (x.nextState = .tracking → ∀ a, x.nextActive = some a →
      (isLocked a → x.settle tach t = { x with state := .tracking, active := some a, due := none }) ∧
      (¬ isLocked a → x.settle tach t = { x with state := .holdover, active := some a, counter := t.holdover, due := none })) ∧
    (x.nextState ≠ .tracking → x.settle tach t = { x with state := x.nextState, active := x.nextActive, due := none }) ∧
    (∀ a, x.state = .tracking → x.active = some a →
      x.ratio tach t = (clampRatio (value a), decide (value a < 3670016 ∨ 4718592 < value a))) ∧
    (x.state ≠ .tracking → x.ratio tach t = (x.held, false)) ∧
    (x.state = .tracking → returnSource tach x = none → x.decide tach = decided .tracking x.active) ∧
    (∀ r, x.state = .tracking → returnSource tach x = some r →
      x.decide tach = { decided .tracking x.active with due := some .sourceReturn }) ∧
    (∀ a, x.state = .holdover → x.active = some a →
      (isLocked a → x.decide tach = decided .tracking (some a)) ∧
      (∀ r, ¬ isLocked a → returnSource tach x = some r →
        x.decide tach = { decided .holdover (some a) with due := some .sourceReturn }) ∧
      (¬ isLocked a → returnSource tach x = none → x.counter = 0 →
        x.decide tach = { decided .holdover (some a) with due := some .expiry }) ∧
      (¬ isLocked a → returnSource tach x = none → 0 < x.counter →
        x.decide tach = { decided .holdover (some a) with counter := x.counter - 1 })) ∧
    (x.state = .freeRun →
      ((∀ a ∈ x.prefs, ¬ isLocked a) → x.decide tach = decided .freeRun none) ∧
      (∀ pre a post, x.prefs = pre ++ a :: post → (∀ b ∈ pre, ¬ isLocked b) → isLocked a →
        x.decide tach = decided .tracking (some a))) ∧
    (x.active = none → returnSource tach x = none) ∧
    (∀ a pre post, x.active = some a → x.prefs = pre ++ a :: post → a ∉ pre →
      ((∀ b ∈ pre, run b < 16) → returnSource tach x = none) ∧
      (∀ before b after, pre = before ++ b :: after → (∀ c ∈ before, run c < 16) → 16 ≤ run b → returnSource tach x = some b)) ∧
    (∀ a, x.active = some a → a ∉ x.prefs →
      ((∀ b ∈ x.prefs, run b < 16) → returnSource tach x = none) ∧
      (∀ before b after, x.prefs = before ++ b :: after → (∀ c ∈ before, run c < 16) → 16 ≤ run b →
        returnSource tach x = some b))) ∧
  (∀ (x : GroupSpeed) (p : CaptureParams) (old new : Tuning) (g : Group) (time : Int),
    let prefs := (new.groups.get g).prefs
    let y := x.retune p old new g time
    y.prefs = prefs ∧ y.hum = x.hum.retune p old new g time ∧ y.bias = x.bias.retune p old new g ∧ y.held = x.held ∧
    y.counter = x.counter ∧ y.active = x.active ∧
    (∀ a, x.active = some a → a ∉ prefs → y.nextState = .freeRun ∧ y.nextActive = none) ∧
    ((∀ a, x.active = some a ∨ x.nextActive = some a → a ∈ prefs) → y.nextState = x.nextState ∧ y.nextActive = x.nextActive))

/-- A SOURCE order in SPEED_BLOCK, with one SOURCE accepted: waiting, its wait count rises while its target is not LOCKED, and
NOT_LOCKED has come due when it reaches the timeout; with the target LOCKED the slot becomes RUNNING, the wait count, the block
index from which the target is active and the previous source are written, the target moves to the head of the list held, put in
there where only a pending RETUNE's list holds it (DESIGN CHOICE, log 68), and is decided for the next block, and probation
begins; a slot found STOPPING ends the order CANCELLED without a switch (R139). In probation the count rises, also at a block
where another source is active (DESIGN CHOICE, log 56); COMPLETE has come due at eight; with the target not LOCKED the count is
written, the list is restored, the previous source is decided where it is LOCKED, and the order ends REVERTED (R140). An end that
is due is carried out by its own command (log 20): waiting, the wait count is written and the order ends NOT_LOCKED; in probation,
the probation count is written and it ends COMPLETE. Nothing else changes; before it is due neither command does anything (log 4).
-/
def Obligations.SourceOrdersEnd : Prop :=
  (∀ (s : State) (cap : Capture) (g : Group) (r : SourceRun), Capturing s cap → MemoryCanonical s →
    cap.control.sources.get g = some r →
    let gone := some { cap with control := { cap.control with sources := cap.control.sources.put g none } }
    (∀ n, r.phase = .waiting n → exec (.probationComplete g) s = .next s ∧
      (r.due = false → exec (.notLocked g) s = .next s) ∧
      (r.due = true → ∃ t, exec (.notLocked g) s = .next t ∧ StoresWord s t (slotBase r.slot + 0x20) (BitVec.ofNat 32 n) ∧
        t = { s with
          port := t.port, orders := { s.orders with ends := reported s r.slot .notLocked false }, capture := gone })) ∧
    (∀ n list source, r.phase = .probation n list source → exec (.notLocked g) s = .next s ∧
      (r.due = false → exec (.probationComplete g) s = .next s) ∧
      (r.due = true → ∃ t, exec (.probationComplete g) s = .next t ∧
        StoresWord s t (slotBase r.slot + 0x2C) (BitVec.ofNat 32 n) ∧
        t = { s with
          port := t.port, orders := { s.orders with ends := reported s r.slot .complete false }, capture := gone }))) ∧
  (∀ (s : State) (cap : Capture) (u : SpeedUnit) (x : Taken) (i : SpeedInput) (g : Group) (r : SourceRun) (y : GroupSpeed),
    Capturing s cap → MemoryCanonical s → settled s = s → cap.speed = some u → u.groups.get g = some y →
    cap.control.inFlight.find? (fun y => y.speed.isNone) = some x → speedInput s.elements u x = .ok i →
    cap.control.sources = (PerGroup.put ⟨none, none⟩ g (some r)) →
    let base := slotBase r.slot
    let tach := match x.block.record with | none => u.tach | some e => u.tach.take e
    let gt := x.tuning.groups.get g
    let z1 := (prepareGroup u cap.params x i g y).settle tach gt
    let z := { z1 with held := (z1.ratio tach gt).1 }
    let locked := sourceLocked tach z
    ∃ t cap' u' y', exec .speedBlock s = .next t ∧ CaptureFrame s t ∧ t.capture = some cap' ∧ cap'.speed = some u' ∧
      u'.groups.get g = some y' ∧
      let now := fun (o : Option SourceRun) => cap'.control.sources = PerGroup.put ⟨none, none⟩ g o
      let stays := t.port = s.port ∧ t.orders.ends = s.orders.ends ∧ (t.orders.slot r.slot).state = (s.orders.slot r.slot).state
      (∀ n, r.phase = .waiting n →
        (locked r.target = false → y' = z.decide tach ∧ stays ∧
          now (some { r with phase := .waiting (n + 1), due := decide (r.timeout ≤ n + 1) })) ∧
        (locked r.target = true → (s.orders.slot r.slot).state = .taken →
          y' = { z.decide tach with
            nextState := .tracking, nextActive := some r.target, due := none
            prefs := r.target :: z.prefs.filter (fun e => decide (e ≠ r.target)) } ∧
          now (some { r with phase := .probation 0 z.prefs z.active }) ∧
          Stored t (base + 0x20) (BitVec.ofNat 32 n) ∧ Stored t (base + 0x24) (BitVec.ofNat 32 (x.idx + 1)) ∧
          Stored t (base + 0x28) (BitVec.ofNat 32 (sourceCode z.active)) ∧ MemoryKeptOutside s t [(base + 0x20, 12)] ∧
          t.orders.ends = s.orders.ends ∧ (t.orders.slot r.slot).state = .running) ∧
        (locked r.target = true → (s.orders.slot r.slot).state = .stopping → y' = z.decide tach ∧ now none ∧ t.port = s.port ∧
          t.orders.ends = reported s r.slot .cancelled true ∧ (t.orders.slot r.slot).state = .stopping)) ∧
      (∀ n list source, r.phase = .probation n list source →
        (locked r.target = true → y' = z.decide tach ∧ stays ∧
          now (some { r with phase := .probation (n + 1) list source, due := decide (8 ≤ n + 1) })) ∧
        (locked r.target = false → now none ∧ t.orders.ends = reported s r.slot .reverted false ∧
          Stored t (base + 0x2C) (BitVec.ofNat 32 (n + 1)) ∧ MemoryKeptOutside s t [(base + 0x2C, 4)] ∧
          (∀ e, source = some e → locked e = true →
            y' = { z with prefs := list, nextState := .tracking, nextActive := some e, due := none }) ∧
          ((∀ e, source = some e → locked e = false) → y' = { z with prefs := list }.decide tach))))

/-! ## The resampler (08) -/

/-- RESAMPLE_BLOCK processes a group's oldest block once classes, skews and ratio are there (R144). It places one sample at the
position it holds, moves on by the nominal step times the ratio of the segment that the position lies in, and repeats this while
the position lies in the block: the count of samples rises by the number so placed, and the position past the block is carried to
the next one (R145, R146, R156). Each sample placed has the next count and, for each lane of the group, the rounded mean over the
combining set of the segment that governs it, of the elements read at the sample's position and their skews, with the mark of the
segment's class (R147, R151, R152); in front of a continuity's first block and behind its final one there is no block to read
(R148). All final frames at the head of the bridge buffer leave, in order; a final lane value never changes, and a pending one
takes the first verdict a segment's first sample brings its lane: its weak value and WEAK, or BRIDGED and the line from the last
sample that was not void to that first sample; after a final block WEAK (R153 to R155, R160). The first block of a continuity
begins at position 0 with no last ratio (R161). The lane monitor is told the first sample of each segment, in the order placed,
and after a final block that its last sample is placed; the dropout records complete then are handed to the output writer in
sequence order, up to the first that is not (R100, R102, R156). After the capture's final block the group's resampler is gone: in
STOPPING with no block left to take and none left to resample (R143; DEDUCED for a capture cancelled in PAUSED, log 64). Samples
placed and released are counted and reported, released frames go to the output writer behind those waiting, after a final block
everything placed is released and the continuity's state is forgotten (R144, R156, R159, R160). Nothing outside the capture
changes, and the other group's resampler and writer state stay. -/
def Obligations.ResampleBlockPlacesSamples : Prop :=
  ∀ (s : State) (cap : Capture) (g : Group) (x : Taken) (r : Resampler) (js : Judgements) (ks : Vector (Option SkewReport) 4)
    (ps : PerGroup (Option SpeedReport)) (report : SpeedReport) (i : SkewInput), Capturing s cap → cap.control.peak = none →
    cap.control.inFlight.find? (fun y => (y.resampled.get g).isNone) = some x → cap.resamplers.get g = some r →
    x.lanes = some js → x.skew = some ks → x.speed = some ps → ps.get g = some report →
    skewInput s.elements x true = .ok (some i) →
    let start := if x.first then 0 else r.pos
    let blocks := if x.first then 0 else r.blocks
    let last := if x.first then report.q else r.lastQ.getD report.q
    let segment := fun (p : Nat) => (p / 4194304 - 3840 * blocks) / 240
    let value := fun (seg : SegInfo) (k : SkewReport) (first : Nat) (p : Nat) =>
      let reads := seg.set.map fun e => i.read e ((p : Int) - (3840 * blocks * 4194304 : Nat)) (k.skews.getD (e - first) 0)
      roundDiv reads.sum reads.length
    let marked := fun (seg : SegInfo) => match seg.cls with
      | .clean => (Mark.clean, true)
      | .spare => (.spare, true)
      | .void settled => (.weak, settled)
    let vals := fun (p : Nat) => (groupLanes cap.params g).filterMap fun l =>
      match getAt js l, getAt ks l with
      | some j, some k =>
        let seg := j.segs.getD (segment p) ⟨.clean, [], none⟩
        some (⟨l, value seg k (getAt cap.params.lanes l).first p, (marked seg).1, (marked seg).2⟩ : LaneVal)
      | _, _ => none
    let judged := fun (l : LaneNo) => l ∈ groupLanes cap.params g ∧ (getAt js l).isSome = true ∧ (getAt ks l).isSome = true
    (x.first = true → i.before = none) ∧ (x.first = false → i.before = findBlock s.elements (x.block.num - 1)) ∧
    (x.final ≠ none → i.after = none) ∧ (x.final = none → i.after = findBlock s.elements (x.block.num + 1)) ∧
    findBlock s.elements x.block.num = some i.block ∧ i.elements = s.elements ∧
    ∃ t cap' r' frames, exec (.resampleBlock g) s = .next t ∧ OnlyCaptureChanges s t ∧ t.capture = some cap' ∧
      (let k := cap'.control
       let done := k.state = .stopping ∧ k.toTake = [] ∧ k.candidate = none ∧ k.cancelLeft = 0 ∧
         ∀ y ∈ k.inFlight, (y.resampled.get g).isSome = true
       (done → cap'.resamplers.get g = none) ∧ (¬ done → cap'.resamplers.get g = some r') ∧
       k.state = cap.control.state ∧ k.toTake = cap.control.toTake ∧ k.candidate = cap.control.candidate ∧
       k.cancelLeft = cap.control.cancelLeft) ∧
      (∀ h, h ≠ g → cap'.resamplers.get h = cap.resamplers.get h) ∧
      r.next ≤ r'.next ∧ r'.released = r.released + frames.length ∧
      (3670016 ≤ report.q → 3670016 ≤ last → 3840 * blocks * 4194304 ≤ start → ∃ (m : Nat) (pos : Nat → Nat), pos 0 = start ∧
        (∀ k, k < m → pos k / 4194304 < 3840 * (blocks + 1) ∧
          pos (k + 1) = pos k + (if cap.params.rateCode = 0 then 4 else 8) * segmentRatio last report.q (segment (pos k))) ∧
        3840 * (blocks + 1) ≤ pos m / 4194304 ∧ r'.next = r.next + m ∧
        let placed := fun (l : LaneNo) (j : Nat) => (vals (pos j)).find? fun v => decide (v.lane = l)
        let handed := fun (l : LaneNo) (j : Nat) => ((getAt js l).map fun y => y.segs).getD [] |>.getD (segment (pos j)) ⟨.clean, [], none⟩
        let bridge := fun (l : LaneNo) (j : Nat) => ((List.range j).reverse.findSome? fun k =>
          match (handed l k).cls, placed l k with
          | .void _, _ => none
          | _, v => v.map fun v => (⟨r.next + k, v.value⟩ : BridgeStart)).or (if x.first then none else getAt r.starts l)
        let weak := fun (u : LaneVal) => { u with mark := .weak, final := true }
        let verdict := fun (u : LaneVal) (count j : Nat) =>
          if j = 0 ∨ segment (pos (j - 1)) ≠ segment (pos j) then
            match (handed u.lane j).settles, placed u.lane j, bridge u.lane j with
            | some .weak, some _, _ => some (weak u)
            | some .bridged, some e, some b =>
              let way := roundDiv ((e.value - b.value) * ((count - b.count : Nat) : Int)) (r.next + j - b.count)
              some { u with value := b.value + way, mark := .bridged, final := true }
            | _, _, _ => none
          else none
        (∃ out : List BufFrame, out.length = r.buffer.length + m ∧
          frames = (out.take frames.length).map (·.release (cap.params.formats.get g)) ∧ r'.buffer = out.drop frames.length ∧
          (∀ f ∈ out.take frames.length, ∀ v ∈ f.vals, v.final = true) ∧
          (0 < m ∨ x.final ≠ none → ∀ f, r'.buffer.head? = some f → ∃ v ∈ f.vals, v.final = false) ∧
          ∀ (n : Nat) (a b : BufFrame), (r.buffer ++ (List.range m).map fun k =>
              (⟨r.next + k, x.idx, (x.block.record.map (·.start)).getD 0, vals (pos k)⟩ : BufFrame))[n]? = some a →
            out[n]? = some b → b.count = a.count ∧ b.block = a.block ∧ b.position = a.position ∧
              b.vals.map (·.lane) = a.vals.map (·.lane) ∧
              ∀ (k : Nat) (u v : LaneVal), a.vals[k]? = some u → b.vals[k]? = some v →
                v = if u.final then u else
                  ((List.range m).findSome? fun j => if n < r.buffer.length + j then verdict u a.count j else none).getD
                    (if x.final ≠ none ∧ judged u.lane then weak u else u)) ∧
        (x.final = none → r'.pos = pos m ∧ r'.blocks = blocks + 1 ∧ ∀ l, getAt r'.starts l = bridge l m) ∧
        ∀ mon, cap.monitor = some mon →
          let lanes := groupLanes cap.params g
          let firsts := (List.range m).filterMap fun k =>
            if k = 0 ∨ segment (pos (k - 1)) ≠ segment (pos k) then some (16 * x.idx + segment (pos k), r.next + k) else none
          let noted := firsts.foldl (LaneMonitor.note lanes) mon
          let ended := if x.final = none then noted else noted.noteEnd lanes x.idx (r.next + m)
          cap'.monitor = some { ended with closed := (splitComplete ended.closed).2 } ∧
          cap'.writer.handed = cap.writer.handed ++ (splitComplete ended.closed).1) ∧
      (r.next = r.released + r.buffer.length → r'.next = r'.released + r'.buffer.length) ∧
      (cap'.writer.groups.get g).arriving = (cap.writer.groups.get g).arriving ++ frames ∧
      (∀ h, h ≠ g → cap'.writer.groups.get h = cap.writer.groups.get h) ∧
      (x.final = none → r'.lastQ = some report.q) ∧
      (x.final ≠ none → r'.lastQ = none ∧ r'.pos = 0 ∧ r'.blocks = 0 ∧ (∀ l, getAt r'.starts l = none) ∧
        ((∀ l ∈ groupLanes cap.params g, (getAt js l).isSome = true ∧ (getAt ks l).isSome = true) →
          (∀ b ∈ r.buffer, ∀ v ∈ b.vals, v.lane ∈ groupLanes cap.params g) → r'.buffer = [])) ∧
      (∀ y ∈ cap'.control.inFlight, y.idx = x.idx →
        y.resampled.get g = some (BitVec.ofNat 32 r'.next, BitVec.ofNat 32 r'.released))

/-- An element is read at the position plus its skew in 64ths of a sample, split into sample and phase with ties upward, as the
saturated rounded sum of four trimmed samples; one before the continuity's first block or behind its final one is the edge sample
(R147, R148, R150). The coefficients of a phase sum to 16,384, phase 0 reads the sample alone, and a constant signal reads as that
constant; the phase lies in 0 to 63; the ratio of segment j is the last ratio plus the difference's (j + 1)/16, truncated toward 0,
lies between the two block ratios and is the new one in segment 15; a bridge value lies between its two ends and equals them there (R146, R147, R149, R150, R154). Where a block's segment begins, the verdicts
it gives on its lanes are applied to the pending values in the bridge buffer with its first sample: WEAK keeps their values,
BRIDGED gives each the bridge value between the bridge start and that sample, final values stay; then the sample is put behind the
buffer, the final frames at its head are released, and it is the bridge start of every lane in which its segment is not void
(R143, R153 to R155). In format WIDE a word read as a signed number and divided by 256, rounding down, is the lane value, its two
low bits are the mark and the six between are zero; in PAIRED the frame is one word of two 16-bit values, rounded and saturated,
the lower-numbered lane in the lower half unless the swap flag is set (R157, R158). -/
def Obligations.InterpolationBridgingAndFormats : Prop :=
  ((∀ (i : SkewInput) (e : Nat) (pos d : Int),
      let np := sampleAndPhase (pos + d * 65536)
      let y := fun (m : Int) => i.tap e (np.1 + m)
      i.read e pos d = max (-8388608) (min 8388607 (roundDiv
        (tapBefore np.2 * y (-1) + tapAt np.2 * y 0 + tapAfter np.2 * y 1 + tapLast np.2 * y 2) 16384))) ∧
   (∀ (i : SkewInput) (e : Nat) (m : Int),
      let sample := fun (b : HistBlock) (n : Nat) => trim (tableEntry i.elements.table e) ((b.samples.getD e []).getD n 0).toInt
      (0 ≤ m → m < 3840 → i.tap e m = sample i.block m.toNat) ∧
      (m < 0 → i.before = none → i.tap e m = sample i.block 0) ∧
      (m < 0 → ∀ b, i.before = some b → i.tap e m = sample b (3840 + m).toNat) ∧
      (3840 ≤ m → i.after = none → i.tap e m = sample i.block 3839) ∧
      (3840 ≤ m → ∀ b, i.after = some b → i.tap e m = sample b (m - 3840).toNat)) ∧
   (∀ pe off : Int, off = ((sampleAndPhase pe).1 * 64 + (sampleAndPhase pe).2) * 65536 - pe → -32768 < off ∧ off ≤ 32768)) ∧
  ((∀ phi, tapBefore phi = roundDiv (-(phi * (phi - 64) * (phi - 128))) 96 ∧
    tapAfter phi = roundDiv (-((phi + 64) * phi * (phi - 128))) 32 ∧ tapLast phi = roundDiv ((phi + 64) * phi * (phi - 64)) 96) ∧
  (∀ phi, tapBefore phi + tapAt phi + tapAfter phi + tapLast phi = 16384) ∧
  (tapBefore 0 = 0 ∧ tapAt 0 = 16384 ∧ tapAfter 0 = 0 ∧ tapLast 0 = 0) ∧
  (tapBefore 8 = -560 ∧ tapAt 8 = 15120 ∧ tapAfter 8 = 2160 ∧ tapLast 8 = -336) ∧
  (tapBefore 28 = -1050 ∧ tapAt 28 = 10350 ∧ tapAfter 28 = 8050 ∧ tapLast 28 = -966) ∧
  (tapBefore 32 = -1024 ∧ tapAt 32 = 9216 ∧ tapAfter 32 = 9216 ∧ tapLast 32 = -1024) ∧
  (tapBefore 20 = -990 ∧ tapAt 20 = 12474 ∧ tapAfter 20 = 5670 ∧ tapLast 20 = -770) ∧
  (∀ phi y : Int, -8388608 ≤ y → y ≤ 8388607 →
    saturate24 (roundDiv (tapBefore phi * y + tapAt phi * y + tapAfter phi * y + tapLast phi * y) 16384) = y) ∧
  (∀ pe : Int, 0 ≤ (sampleAndPhase pe).2 ∧ (sampleAndPhase pe).2 ≤ 63 ∧
    2 * (pe - ((sampleAndPhase pe).1 * 64 + (sampleAndPhase pe).2) * 65536).natAbs ≤ 65536) ∧
  (∀ last q j, j ≤ 15 → min last q ≤ segmentRatio last q j ∧ segmentRatio last q j ≤ max last q) ∧
  (∀ last q, segmentRatio last q 15 = q) ∧
  (∀ last q j : Nat, j ≤ 15 → (segmentRatio last q j : Int) = last + Int.tdiv (((q : Int) - last) * (j + 1)) 16) ∧
  (∀ (a : BridgeStart) (b : Int) (ib i : Nat), a.count < ib → a.count ≤ i → i ≤ ib →
    bridgeValue a b ib a.count = a.value ∧ bridgeValue a b ib ib = b ∧
    min a.value b ≤ bridgeValue a b ib i ∧ bridgeValue a b ib i ≤ max a.value b)) ∧
  ((∀ (a : BridgeStart) (b : Int) (ib i : Nat), bridgeValue a b ib i =
      a.value + roundDiv ((b - a.value) * (i - a.count : Nat)) (ib - a.count)) ∧
   (∀ (i : GroupInput) (x : Resampling) (pos : Int) (j : Nat) (opens : Bool),
      let r := x.unit
      let vals := i.lanes.map (i.laneVal j pos)
      let settled := if opens then i.lanes.foldl (applyVerdict r.starts vals r.next j) r.buffer else r.buffer
      let waiting := settled ++ [⟨r.next, i.idx, i.position, vals⟩]
      let done := waiting.takeWhile fun f => f.vals.all (·.final)
      let y := x.place i pos j opens
      y.unit.buffer = waiting.drop done.length ∧ y.out = x.out ++ done.map (·.release i.format) ∧
      y.unit.next = r.next + 1 ∧ y.unit.released = r.released + done.length ∧
      y.unit.pos = r.pos + i.step * segmentRatio i.last i.q j ∧ y.unit.starts = noteStarts i vals r.next j r.starts) ∧
   (∀ (starts : Vector (Option BridgeStart) 4) (vals : List LaneVal) (count j : Nat) (buffer : List BufFrame) (l : LaneInput),
      let settled := fun (f : BufFrame → LaneVal → LaneVal) => buffer.map fun b =>
        { b with vals := b.vals.map fun v => if v.lane = l.lane ∧ v.final = false then f b v else v }
      ((l.seg j).settles = none → applyVerdict starts vals count j buffer l = buffer) ∧
      ((l.seg j).settles = some .weak → applyVerdict starts vals count j buffer l =
        settled fun _ v => { v with mark := .weak, final := true }) ∧
      (∀ a e, (l.seg j).settles = some .bridged → getAt starts l.lane = some a → vals.find? (fun v => v.lane == l.lane) = some e →
        applyVerdict starts vals count j buffer l =
          settled fun b v => { v with value := bridgeValue a e.value count b.count, mark := .bridged, final := true })) ∧
   (∀ (i : GroupInput) (j : Nat) (pos : Int) (count : Nat) (starts : Vector (Option BridgeStart) 4),
      (i.lanes.map (·.lane)).Nodup →
      let after := noteStarts i (i.lanes.map (i.laneVal j pos)) count j starts
      (∀ n, (∀ l ∈ i.lanes, l.lane ≠ n) → getAt after n = getAt starts n) ∧
      ∀ l ∈ i.lanes, getAt after l.lane = if (∃ w, (l.seg j).cls = .void w) then getAt starts l.lane
        else some ⟨count, (i.laneVal j pos l).value⟩)) ∧
  ((∀ v : LaneVal, -8388608 ≤ v.value → v.value ≤ 8388607 →
    v.wide.toInt / 256 = v.value ∧ v.wide.toNat % 256 = markCode v.mark) ∧
  (∀ (f : Format) (vals : List LaneVal), f.paired = false → frameWords f vals = vals.map LaneVal.wide) ∧
  (∀ (f : Format) (lo hi : LaneVal), f.paired = true → ∃ w : Word, frameWords f [lo, hi] = [w] ∧
    let low := if f.swap then hi else lo
    let high := if f.swap then lo else hi
    (w.extractLsb' 0 16).toInt = max (-32768) (min 32767 (roundDiv low.value 256)) ∧
    (w.extractLsb' 16 16).toInt = max (-32768) (min 32767 (roundDiv high.value 256))))

/-! ## The output writer (10) -/

/-- PLACE_FRAME places a group's oldest released frame: into the FILLING span, which shows its raised fill and frame count, and
which becomes FULL with news SPAN_A or SPAN_B where the frame fills it, the cursor going on to the next span (R185, R186); with
the span at the cursor EMPTY, it opens that span; with no room there, the frame is spilled behind a watch on the span's word,
with news SPILL; with no page left, it is lost, and a LOST record opens (R187, R188, R190). Behind a spill queue the frame joins
its last page, or a free page, or is lost (R187 case 3, R188). While a LOST record is open: with the queue empty and the span
EMPTY the record closes and goes to the repair list, and the span opens with AFTER_LOSS; with a page free the record closes and
the frame is spilled behind a loss mark; otherwise the record grows (R190). A span word that cannot be read gives news
MEMORY_FAULT and a watch, and the frame is spilled (R8). Memory changes only in the words written. With no frame released
nothing happens (log 4). -/
def Obligations.PlaceFrameByRoom : Prop :=
  ∀ (s : State) (cap : Capture) (g : Group) (f : Frame) (rest : List Frame), Capturing s cap → MemoryCanonical s →
    let o := cap.writer.groups.get g
    let d := cursorSpan o
    let len := 4 * f.words.length
    let room := 4096 / frameSize cap.params g
    let watched := s.port.guard.map fun e => if e.slot = cap.slot ∧ e.addr = d.addr then { e with watch := true } else e
    let spanNews := s.orders.setNews cap.slot (match g with | .a => .spanA | .b => .spanB)
    let spillNews := if framesIn o.queue = 0 then s.orders.setNews cap.slot .spill else s.orders
    let lost := BitVec.ofNat 32 (min 4294967295 (o.samplesLost + 1))
    let withOut := fun (x : GroupOut) => { cap with writer := { cap.writer with groups := cap.writer.groups.put g x } }
    (o.arriving = [] → exec (.placeFrame g) s = .next s) ∧
    (o.arriving = f :: rest → o.lost = none → o.queue = [] →
      (∀ sp, o.filling = some sp → sp.fill + len ≤ d.capacity → Apart (d.addr, 32) (d.buffer, d.capacity) →
        let wrote := fun (t : State) =>
          (∀ (i : Nat) (w : Word), f.words[i]? = some w → Stored t (d.buffer + sp.fill + 4 * i) w) ∧
          Stored t (d.addr + 0x0C) (BitVec.ofNat 32 (sp.fill + len)) ∧
          Stored t (d.addr + 0x14) (BitVec.ofNat 32 (sp.frames + 1))
        (sp.fill + len < d.capacity → ∃ t, exec (.placeFrame g) s = .next t ∧ CaptureFrame s t ∧ t.orders = s.orders ∧ wrote t ∧
          t.capture = some (withOut { o with
            arriving := rest, filling := some { sp with fill := sp.fill + len, frames := sp.frames + 1 } }) ∧
          MemoryKeptOutside s t [(d.buffer + sp.fill, len), (d.addr + 0x0C, 4), (d.addr + 0x14, 4)]) ∧
        (sp.fill + len = d.capacity → Stored s d.addr 1 → ∃ t, exec (.placeFrame g) s = .next t ∧ CaptureFrame s t ∧ wrote t ∧
          t.orders = spanNews ∧ Stored t d.addr 2 ∧
          t.capture = some (withOut { o with arriving := rest, filling := none, cursor := (o.cursor + 1) % o.spans.length }) ∧
          MemoryKeptOutside s t [(d.buffer + sp.fill, len), (d.addr, 4), (d.addr + 0x0C, 4), (d.addr + 0x14, 4)])) ∧
      (o.filling = none → Stored s d.addr 0 → len < d.capacity → Apart (d.addr, 32) (d.buffer, d.capacity) →
        ∃ t, exec (.placeFrame g) s = .next t ∧ CaptureFrame s t ∧ t.orders = s.orders ∧
          t.capture = some (withOut { o with arriving := rest, filling := some ⟨len, 1, o.afterLoss⟩, afterLoss := false }) ∧
          ShowsSpan t d 1 len 1 f.index f.position (if o.afterLoss then 2 else 0) ∧ FramesAt t d.buffer len [f] ∧
          MemoryKeptOutside s t [(d.buffer, len), (d.addr, 4), (d.addr + 0x0C, 20)]) ∧
      (∀ w, o.filling = none → Stored s d.addr w → w ≠ 0 →
        (PageFree cap.writer → ∃ t, exec (.placeFrame g) s = .next t ∧ CaptureFrame s t ∧ t.port.mem = s.port.mem ∧
          t.capture = some (withOut { o with arriving := rest, queue := [.page [f]] }) ∧ t.port.guard = watched ∧
          t.orders = s.orders.setNews cap.slot .spill) ∧
        (¬ PageFree cap.writer → ∃ t, exec (.placeFrame g) s = .next t ∧ CaptureFrame s t ∧ t.port.guard = watched ∧
          t.capture = some (withOut { o with
            arriving := rest, lost := some ⟨f.index, 1, f.block, f.position⟩
            samplesLost := min 4294967295 (o.samplesLost + 1) }) ∧
          Stored t (lostWord cap g) lost ∧ MemoryKeptOutside s t [(lostWord cap g, 4)] ∧
          t.orders = s.orders.setNews cap.slot .lost)) ∧
      (o.filling = none → eccAt s.port.ecc d.addr = some .uncorrectable → PageFree cap.writer →
        exec (.placeFrame g) s = .next { s with
          port := { s.port with uncorrected := true, guard := watched }
          orders := (s.orders.setNews cap.slot .memoryFault).setNews cap.slot .spill
          capture := some (withOut { o with arriving := rest, queue := [.page [f]] }) })) ∧
    (o.arriving = f :: rest → o.lost = none → ∀ pre i, o.queue = pre ++ [i] →
      (∀ fs, i = .page fs → fs.length < room → exec (.placeFrame g) s = .next { s with
        orders := spillNews
        capture := some (withOut { o with arriving := rest, queue := pre ++ [.page (fs ++ [f])] }) }) ∧
      (i = .lossMark ∨ (∃ fs, i = .page fs ∧ room ≤ fs.length) →
        (PageFree cap.writer → exec (.placeFrame g) s = .next { s with
          orders := spillNews
          capture := some (withOut { o with arriving := rest, queue := pre ++ [i, .page [f]] }) }) ∧
        (¬ PageFree cap.writer → exec (.placeFrame g) s = .next { s with
          port := s.port.store (lostWord cap g) lost
          orders := s.orders.setNews cap.slot .lost
          capture := some (withOut { o with
            arriving := rest, lost := some ⟨f.index, 1, f.block, f.position⟩
            samplesLost := min 4294967295 (o.samplesLost + 1) }) }))) ∧
    (∀ r m, o.arriving = f :: rest → o.lost = some r → cap.monitor = some m →
      let closed := fun (x : GroupOut) => { withOut x with
        monitor := some { m with seq := m.seq + 1 }
        writer := { (withOut x).writer with handed := cap.writer.handed ++ [lostRepair m.seq g r false] } }
      let grown := { o with
        arriving := rest, lost := some { r with length := upTo 4294967295 r.length }
        samplesLost := min 4294967295 (o.samplesLost + 1) }
      let behind := { o with arriving := rest, lost := none, queue := o.queue ++ [.lossMark, .page [f]] }
      (o.queue = [] → Stored s d.addr 0 → len < d.capacity → Apart (d.addr, 32) (d.buffer, d.capacity) →
        ∃ t, exec (.placeFrame g) s = .next t ∧ CaptureFrame s t ∧ t.orders = s.orders ∧
          t.capture = some (closed { o with arriving := rest, lost := none, filling := some ⟨len, 1, true⟩, afterLoss := false }) ∧
          ShowsSpan t d 1 len 1 f.index f.position 2 ∧ FramesAt t d.buffer len [f] ∧
          MemoryKeptOutside s t [(d.buffer, len), (d.addr, 4), (d.addr + 0x0C, 20)]) ∧
      (∀ w, o.queue = [] → Stored s d.addr w → w ≠ 0 →
        (PageFree cap.writer → exec (.placeFrame g) s = .next { s with
          port := { s.port with guard := watched }, orders := spillNews, capture := some (closed behind) }) ∧
        (¬ PageFree cap.writer → exec (.placeFrame g) s = .next { s with
          port := { s.port with guard := watched }.store (lostWord cap g) lost, capture := some (withOut grown) })) ∧
      (o.queue ≠ [] →
        (PageFree cap.writer → exec (.placeFrame g) s = .next { s with orders := spillNews, capture := some (closed behind) }) ∧
        (¬ PageFree cap.writer → exec (.placeFrame g) s = .next { s with
          port := s.port.store (lostWord cap g) lost, capture := some (withOut grown) })))

/-- WATCH_NOTICE takes the oldest notice; with none waiting nothing changes (log 4); one that names another order, finds no capture,
or is for a word on which nothing waits, changes nothing more (R13, R189). A group waiting on the word with frames spilled, on any
number of pages, asks again: a span still not EMPTY gets its watch again; an EMPTY one opens and takes the frames, staying FILLING
where they leave room; the last one filling it makes it FULL, and no span is asked for (R186, R189; log 51); filled by one on the
way, the next span is asked for with a watch, and an EMPTY one takes the frames left; while a LOST record is open the span is closed
early once the queue is empty; a loss mark at the head is taken first and gives the next span AFTER_LOSS (R191; log 26), one behind
frames closes the span early. A notice for the repair list's released count places held records from the head while there is room,
with a watch where some are left; one for the speed map's places a pending record (R195, R196; log 41); an unreadable count gives no
room, a watch and MEMORY_FAULT (R8, R192). PLACE_REPAIR takes the oldest repair record handed over: it joins the held ones, and they
are placed from the head while there is room, each at the oldest released place, then the written count, then the progress count,
with news REPAIR; those left are held with a watch and LIST_FULL, up to eight, a ninth dropped and counted as suppressed (R193,
R196); more outstanding than the list holds gives full room, LIST_FULL and the fault flag (R192). A repair record's eight words are
those of chapter 11, number and block index modulo 2^32 (logs 46, 47). The first sample index at or past the opening segment is a
record's first index; the first at or past the closing segment, or the end of the final block, gives the length, 4,294,967,295 at
most; the records complete at the head of the closed ones are handed over (R99 to R102). -/
def Obligations.NoticesAndRepairRecords : Prop :=
  (∀ r : RepairRec, r.place < 4 → r.minPresent < 8 → r.voidRuns < 65536 → r.longest < 65536 → r.bridged < 65536 →
    let w := fun (i : Nat) => r.words.getD i 0
    let bits := fun (i high low : Nat) => (w i).toNat / 2 ^ low % 2 ^ (high + 1 - low)
    r.words.length = 8 ∧ w 0 = BitVec.ofNat 32 r.seq ∧
    bits 1 2 0 = (match r.kind with | .spare => 1 | .bridged => 2 | .weak => 3 | .lost => 4) ∧ bits 1 5 4 = r.place ∧
    bits 1 10 8 = r.minPresent ∧ bits 1 12 12 = flagBit r.cut ∧ bits 1 13 13 = flagBit r.noExcerpt ∧
    bits 1 14 14 = (if 0 < r.voidRuns then 1 else 0) ∧ bits 1 31 16 = r.absent.toNat ∧
    (∀ k ∈ [(3, 3), (7, 6), (11, 11), (15, 15)], bits 1 k.1 k.2 = 0) ∧
    w 2 = r.first ∧ w 3 = BitVec.ofNat 32 r.length ∧ w 4 = BitVec.ofNat 32 r.block ∧ w 5 = r.position ∧
    bits 6 15 0 = r.voidRuns ∧ bits 6 31 16 = r.longest ∧ bits 7 31 0 = r.bridged) ∧
  ((∀ (lanes : List LaneNo) (m : LaneMonitor) (segment index : Nat),
      let y := LaneMonitor.note lanes m (segment, index)
      let told := fun (d : Dropout) =>
        { d with firstOut := if d.firstOut = none ∧ d.opening ≤ segment then some index else d.firstOut }
      y = { m with lanes := y.lanes, closed := y.closed } ∧
      (∀ l, getAt y.lanes l = if l ∈ lanes then (getAt m.lanes l).map fun x => { x with dropout := x.dropout.map told }
        else getAt m.lanes l) ∧
      y.closed = m.closed.map fun d => if d.lane ∈ lanes then { d with
        drop := told d.drop
        length := if d.length = none ∧ d.closing.any (fun c => decide (c ≤ segment)) = true
          then some (min 4294967295 (index - (told d.drop).firstOut.getD index)) else d.length } else d) ∧
   (∀ (lanes : List LaneNo) (m : LaneMonitor) (block next : Nat), m.noteEnd lanes block next = { m with
      closed := m.closed.map fun d => if d.lane ∈ lanes ∧ d.length = none ∧ d.closing = none ∧ d.finalBlock = block
        then { d with length := some (min 4294967295 (next - d.drop.firstOut.getD next)) } else d }) ∧
   (∀ l : List ClosedDropout, ∃ n, (splitComplete l).2 = l.drop n ∧ (∀ d ∈ l.take n, d.length ≠ none) ∧
      (∀ d, (l.drop n).head? = some d → d.length = none) ∧
      (splitComplete l).1 = (l.take n).filterMap fun d => d.length.map fun length =>
        { seq := d.seq, kind := d.drop.kind, place := d.lane.val, minPresent := d.drop.minPresent, cut := d.cut
          noExcerpt := d.drop.noExcerpt, absent := d.drop.absent, first := BitVec.ofNat 32 (d.drop.firstOut.getD 0)
          length := length, block := d.drop.block, position := d.drop.position, voidRuns := d.drop.voidRuns
          longest := d.drop.longest, bridged := d.drop.bridged })) ∧
  (∀ s : State, Working s → s.port.notices = [] → exec .watchNotice s = .next s) ∧
  (∀ (s : State) (n : Notice) (rest : List Notice), Working s → s.port.notices = n :: rest →
    (∀ cap, s.capture = some cap → cap.slot ∉ n.slots) →
    exec .watchNotice s = .next { s with port := { s.port with notices := rest } }) ∧
  (∀ (s : State) (cap : Capture) (n : Notice) (rest : List Notice), Capturing s cap → MemoryCanonical s →
    s.port.notices = n :: rest → cap.slot ∈ n.slots →
    let w := cap.writer
    let watched := fun (a : Nat) => s.port.guard.map fun e => if e.slot = cap.slot ∧ e.addr = a then { e with watch := true } else e
    let repairWord := w.repairList.header + 8
    let mapWord := w.mapList.header + 8
    let frame := fun (t : State) =>
      CaptureFrame { s with port := { s.port with notices := rest } } t
    (∀ g, n.addr ≠ repairWord → n.addr ≠ mapWord →
      (∀ h, h ≠ g → (w.groups.get h).queue = [] ∨ (w.groups.get h).filling ≠ none ∨ (cursorSpan (w.groups.get h)).addr ≠ n.addr) →
      let o := w.groups.get g
      let d := cursorSpan o
      let next := (o.cursor + 1) % o.spans.length
      let e := cursorSpan { o with cursor := next }
      let withOut := fun (x : GroupOut) => some { cap with writer := { w with groups := w.groups.put g x } }
      let spanNews := s.orders.setNews cap.slot (match g with | .a => .spanA | .b => .spanB)
      let flags := if o.afterLoss then 2 else 0
      d.addr = n.addr → o.filling = none →
      (∀ v, o.queue ≠ [] → (∀ i ∈ o.queue.head?, ∃ f fs, i = .page (f :: fs)) → Stored s d.addr v → v ≠ 0 →
        exec .watchNotice s = .next { s with port := { s.port with notices := rest, guard := watched d.addr } }) ∧
      (Stored s d.addr 0 → Apart (d.addr, 32) (d.buffer, d.capacity) → 0 < d.capacity →
        (∀ (pages : List (List Frame)) (f : Frame) (fs : List Frame) (len : Nat), o.queue = pages.map .page →
          pages.flatten = f :: fs → (∀ x ∈ f :: fs, 4 * x.words.length = len) → 0 < len →
          let all := len * (fs.length + 1)
          (all < d.capacity → o.lost = none → ∃ t, exec .watchNotice s = .next t ∧ frame t ∧ t.orders = s.orders ∧
            ShowsSpan t d 1 all (fs.length + 1) f.index f.position flags ∧ FramesAt t d.buffer len (f :: fs) ∧
            t.capture = withOut { o with queue := [], filling := some ⟨all, fs.length + 1, o.afterLoss⟩, afterLoss := false } ∧
            MemoryKeptOutside s t [(d.buffer, all), (d.addr, 4), (d.addr + 0x0C, 20)]) ∧
          (all < d.capacity → o.lost ≠ none → ∃ t, exec .watchNotice s = .next t ∧ frame t ∧ t.orders = spanNews ∧
            ShowsSpan t d 2 all (fs.length + 1) f.index f.position flags ∧ FramesAt t d.buffer len (f :: fs) ∧
            t.capture = withOut { o with queue := [], afterLoss := true, cursor := next } ∧
            MemoryKeptOutside s t [(d.buffer, all), (d.addr, 4), (d.addr + 0x0C, 20)]) ∧
          (all = d.capacity → ∃ t, exec .watchNotice s = .next t ∧ frame t ∧ t.orders = spanNews ∧
            ShowsSpan t d 2 all (fs.length + 1) f.index f.position flags ∧ FramesAt t d.buffer len (f :: fs) ∧
            t.capture = withOut { o with queue := [], afterLoss := false, cursor := next } ∧
            MemoryKeptOutside s t [(d.buffer, all), (d.addr, 4), (d.addr + 0x0C, 20)]) ∧
          (∀ (fit : List Frame) (h : Frame) (left : List Frame), f :: fs = fit ++ h :: left → o.lost = none →
            len * fit.length = d.capacity → Stored s e.addr 0 → len * (left.length + 1) < e.capacity →
            [(d.addr, 32), (d.buffer, d.capacity), (e.addr, 32), (e.buffer, e.capacity)].Pairwise Apart →
            let size := len * (left.length + 1)
            ∃ t, exec .watchNotice s = .next t ∧ frame t ∧ t.orders = spanNews ∧
              ShowsSpan t d 2 d.capacity fit.length f.index f.position flags ∧ FramesAt t d.buffer len fit ∧
              ShowsSpan t e 1 size (left.length + 1) h.index h.position 0 ∧ FramesAt t e.buffer len (h :: left) ∧
              t.capture = withOut { o with
                queue := [], filling := some ⟨size, left.length + 1, false⟩, afterLoss := false, cursor := next } ∧
              MemoryKeptOutside s t [(d.buffer, d.capacity), (d.addr, 4), (d.addr + 0x0C, 20), (e.buffer, size), (e.addr, 4),
                (e.addr + 0x0C, 20)]) ∧
          (∀ (before : List (List Frame)) (start : List Frame) (h : Frame) (left : List Frame) (behind : List (List Frame)) (v : Word),
            pages = before ++ (start ++ h :: left) :: behind →
            let fit := before.flatten ++ start
            len * fit.length = d.capacity → Stored s e.addr v → v ≠ 0 → Apart (e.addr, 4) (d.addr, 32) →
            Apart (e.addr, 4) (d.buffer, d.capacity) → ∃ t, exec .watchNotice s = .next t ∧ frame t ∧ t.orders = spanNews ∧
              ShowsSpan t d 2 d.capacity fit.length f.index f.position flags ∧ FramesAt t d.buffer len fit ∧
              t.capture = withOut { o with queue := ((h :: left) :: behind).map .page, afterLoss := false, cursor := next } ∧
              t.port.guard = watched e.addr ∧
              MemoryKeptOutside s t [(d.buffer, d.capacity), (d.addr, 4), (d.addr + 0x0C, 20)])) ∧
        (∀ f : Frame, o.queue = [.lossMark, .page [f]] → o.lost = none → 4 * f.words.length < d.capacity →
          ∃ t, exec .watchNotice s = .next t ∧ frame t ∧ t.orders = s.orders ∧
            ShowsSpan t d 1 (4 * f.words.length) 1 f.index f.position 2 ∧ FramesAt t d.buffer (4 * f.words.length) [f] ∧
            t.capture = withOut { o with queue := [], filling := some ⟨4 * f.words.length, 1, true⟩, afterLoss := false } ∧
            MemoryKeptOutside s t [(d.buffer, 4 * f.words.length), (d.addr, 4), (d.addr + 0x0C, 20)]) ∧
        (∀ (f h : Frame) (v : Word), o.queue = [.page [f], .lossMark, .page [h]] → 4 * f.words.length < d.capacity →
          Stored s e.addr v → v ≠ 0 → Apart (e.addr, 4) (d.addr, 32) → Apart (e.addr, 4) (d.buffer, d.capacity) →
          ∃ t, exec .watchNotice s = .next t ∧ frame t ∧ t.orders = spanNews ∧
            ShowsSpan t d 2 (4 * f.words.length) 1 f.index f.position flags ∧ FramesAt t d.buffer (4 * f.words.length) [f] ∧
            t.capture = withOut { o with queue := [.page [h]], afterLoss := true, cursor := next } ∧
            t.port.guard = watched e.addr ∧
            MemoryKeptOutside s t [(d.buffer, 4 * f.words.length), (d.addr, 4), (d.addr + 0x0C, 20)]))) ∧
    ((∀ g, (w.groups.get g).queue = [] ∨ (w.groups.get g).filling ≠ none ∨ (cursorSpan (w.groups.get g)).addr ≠ n.addr) →
      (n.addr = repairWord → w.holding = []) → (n.addr = mapWord → w.map = none ∨ w.mapPending = false) →
      exec .watchNotice s = .next { s with port := { s.port with notices := rest } }) ∧
    ((∀ g, (w.groups.get g).queue = []) →
      (∀ k, n.addr = repairWord → repairWord ≠ mapWord → w.holding ≠ [] →
        let l := w.repairList
        let count := min w.holding.length (l.capacity - k)
        ListTakes s w k count → ∃ t, exec .watchNotice s = .next t ∧ frame t ∧ RepairsPlaced t l (w.holding.take count) ∧
          (0 < count →
            Stored t (slotBase cap.slot + 0x60) (BitVec.ofNat 32 (min 4294967295 (w.repairWritten + count)))) ∧
          MemoryKeptOutside s t (repairRanges cap.slot l count) ∧
          t.orders = (if 0 < count then s.orders.setNews cap.slot .repair else s.orders) ∧
          t.port.guard = (if count = w.holding.length then s.port.guard else watched repairWord) ∧
          t.capture = some { cap with writer := { w with
            holding := w.holding.drop count, repairList := { l with written := l.written + BitVec.ofNat 32 count }
            repairWritten := min 4294967295 (w.repairWritten + count) } }) ∧
      (∀ a, n.addr = a → repairWord ≠ mapWord → eccAt s.port.ecc a = some .uncorrectable →
        a = repairWord ∧ w.holding ≠ [] ∨ a = mapWord ∧ w.map ≠ none ∧ w.mapPending = true →
        exec .watchNotice s = .next { s with
          port := { s.port with notices := rest, uncorrected := true, guard := watched a }
          orders := s.orders.setNews cap.slot .memoryFault }) ∧
      (∀ r held k, n.addr = repairWord → repairWord ≠ mapWord → w.holding = r :: held → w.repairList.capacity ≤ 4096 →
        Outstanding s w.repairList k → k < w.repairList.capacity → held = [] ∨ k + 1 = w.repairList.capacity →
        let l := w.repairList
        ∃ t, exec .watchNotice s = .next t ∧ frame t ∧
          (∀ (i : Nat) (v : Word), r.words[i]? = some v →
            Stored t (l.header + 16 + 32 * (l.written.toNat % l.capacity) + 4 * i) v) ∧ Stored t (l.header + 4) (l.written + 1) ∧
          Stored t (slotBase cap.slot + 0x60) (BitVec.ofNat 32 (upTo 4294967295 w.repairWritten)) ∧
          MemoryKeptOutside s t [(l.header + 16 + 32 * (l.written.toNat % l.capacity), 32), (l.header + 4, 4),
            (slotBase cap.slot + 0x60, 4)] ∧
          t.orders = s.orders.setNews cap.slot .repair ∧
          t.port.guard = (if held = [] then s.port.guard else watched repairWord) ∧
          t.capture = some { cap with writer := { w with
            holding := held, repairList := { l with written := l.written + 1 }
            repairWritten := upTo 4294967295 w.repairWritten } }) ∧
      (∀ m k, n.addr = mapWord → repairWord ≠ mapWord → w.map = some m → w.mapPending = true → Outstanding s w.mapList k →
        k < w.mapList.capacity →
        let l := w.mapList
        ∃ t, exec .watchNotice s = .next t ∧ frame t ∧
          (∀ (i : Nat) (v : Word), (m.words w.mapWritten)[i]? = some v →
            Stored t (l.header + 16 + 64 * (l.written.toNat % l.capacity) + 4 * i) v) ∧ Stored t (l.header + 4) (l.written + 1) ∧
          Stored t (slotBase cap.slot + 0x5C) (BitVec.ofNat 32 (upTo 4294967295 w.mapWritten)) ∧
          MemoryKeptOutside s t [(l.header + 16 + 64 * (l.written.toNat % l.capacity), 64), (l.header + 4, 4),
            (slotBase cap.slot + 0x5C, 4)] ∧
          t.orders = s.orders.setNews cap.slot .speedMap ∧
          t.capture = some { cap with writer := { w with
            map := none, mapPending := false, mapList := { l with written := l.written + 1 }
            mapWritten := upTo 4294967295 w.mapWritten } }))) ∧
  (∀ (s : State) (cap : Capture) (r : RepairRec) (rest : List RepairRec), Capturing s cap → MemoryCanonical s →
    cap.writer.handed = r :: rest →
    let w := cap.writer
    let l := w.repairList
    let held := w.holding
    let watched := s.port.guard.map fun e => if e.slot = cap.slot ∧ e.addr = l.header + 8 then { e with watch := true } else e
    let full := fun (o : OrderUnit) => o.setNews cap.slot .listFull
    (held = [] → eccAt s.port.ecc (l.header + 8) = some .uncorrectable →
      exec .placeRepair s = .next { s with
        port := { s.port with uncorrected := true, guard := watched }
        orders := full (s.orders.setNews cap.slot .memoryFault)
        capture := some { cap with writer := { w with handed := rest, holding := [r] } } }) ∧
    (held ≠ [] → Outstanding s l l.capacity → held.length < 8 →
      exec .placeRepair s = .next { s with
        port := { s.port with guard := watched }, orders := full s.orders
        capture := some { cap with writer := { w with handed := rest, holding := held ++ [r] } } }) ∧
    (held ≠ [] → Outstanding s l l.capacity → 8 ≤ held.length → ∃ t, exec .placeRepair s = .next t ∧ CaptureFrame s t ∧
      Stored t (slotBase cap.slot + 0x64) (BitVec.ofNat 32 (min 4294967295 (w.suppressed + 1))) ∧
      MemoryKeptOutside s t [(slotBase cap.slot + 0x64, 4)] ∧ t.port.guard = watched ∧ t.orders = full s.orders ∧
      t.capture = some { cap with writer := { w with handed := rest, suppressed := min 4294967295 (w.suppressed + 1) } }) ∧
    (∀ h k, held = [h] → Outstanding s l k → k + 1 = l.capacity → l.capacity ≤ 4096 →
      ∃ t, exec .placeRepair s = .next t ∧ CaptureFrame s t ∧
        (∀ (i : Nat) (v : Word), h.words[i]? = some v →
          Stored t (l.header + 16 + 32 * (l.written.toNat % l.capacity) + 4 * i) v) ∧ Stored t (l.header + 4) (l.written + 1) ∧
        Stored t (slotBase cap.slot + 0x60) (BitVec.ofNat 32 (upTo 4294967295 w.repairWritten)) ∧
        MemoryKeptOutside s t [(l.header + 16 + 32 * (l.written.toNat % l.capacity), 32), (l.header + 4, 4),
          (slotBase cap.slot + 0x60, 4)] ∧
        t.port.guard = watched ∧ t.orders = full (s.orders.setNews cap.slot .repair) ∧
        t.capture = some { cap with writer := { w with
          handed := rest, holding := [r], repairList := { l with written := l.written + 1 }
          repairWritten := upTo 4294967295 w.repairWritten } }) ∧
    (∀ k, let records := held ++ [r]
      let count := min records.length (l.capacity - k)
      let left := records.drop count
      ListTakes s w k count → held.length < 8 + (l.capacity - k) → ∃ t, exec .placeRepair s = .next t ∧ CaptureFrame s t ∧
        RepairsPlaced t l (records.take count) ∧
        (0 < count → Stored t (slotBase cap.slot + 0x60) (BitVec.ofNat 32 (min 4294967295 (w.repairWritten + count)))) ∧
        MemoryKeptOutside s t (repairRanges cap.slot l count) ∧
        t.port.guard = (if left = [] then s.port.guard else watched) ∧
        (let placed := if 0 < count then s.orders.setNews cap.slot .repair else s.orders
         t.orders = if left = [] then placed else full placed) ∧
        t.capture = some { cap with writer := { w with
          handed := rest, holding := left, repairList := { l with written := l.written + BitVec.ofNat 32 count }
          repairWritten := min 4294967295 (w.repairWritten + count) } })) ∧
  (∀ (s : State) (cap : Capture) (r : RepairRec) (rest : List RepairRec) (n : Nat), Capturing s cap → MemoryCanonical s →
    cap.writer.handed = r :: rest → cap.writer.holding = [] →
    let w := cap.writer
    let l := w.repairList
    let placed := fun (t : State) (ranges : List (Nat × Nat)) => CaptureFrame s t ∧
      (∀ (i : Nat) (w : Word), r.words[i]? = some w → Stored t (l.header + 16 + 32 * (l.written.toNat % l.capacity) + 4 * i) w) ∧
      Stored t (l.header + 4) (l.written + 1) ∧
      Stored t (slotBase cap.slot + 0x60) (BitVec.ofNat 32 (upTo 4294967295 w.repairWritten)) ∧
      MemoryKeptOutside s t ([(l.header + 16 + 32 * (l.written.toNat % l.capacity), 32), (l.header + 4, 4),
        (slotBase cap.slot + 0x60, 4)] ++ ranges)
    let after := { w with
      handed := rest, repairList := { l with written := l.written + 1 }, repairWritten := upTo 4294967295 w.repairWritten }
    Outstanding s l n →
    (n < l.capacity → ∃ t, exec .placeRepair s = .next t ∧ placed t [] ∧
      t.orders = s.orders.setNews cap.slot .repair ∧ t.capture = some { cap with writer := after }) ∧
    (n = l.capacity → ∃ t, exec .placeRepair s = .next t ∧ CaptureFrame s t ∧ t.port.mem = s.port.mem ∧
      t.port.guard = s.port.guard.map (fun e => if e.slot = cap.slot ∧ e.addr = l.header + 8 then { e with watch := true } else e) ∧
      t.orders = s.orders.setNews cap.slot .listFull ∧
      t.capture = some { cap with writer := { w with handed := rest, holding := [r] } }) ∧
    (l.capacity < n → 0 < l.capacity → ∃ t, exec .placeRepair s = .next t ∧ placed t [(slotBase cap.slot + 0x28, 4)] ∧
      Stored t (slotBase cap.slot + 0x28) (BitVec.ofNat 32 (flagBit w.faultMap + 2 + 4 * flagBit w.mapDropped)) ∧
      t.orders = (s.orders.setNews cap.slot .listFull).setNews cap.slot .repair ∧
      t.capture = some { cap with writer := { after with faultRepair := true } }))

/-- FOLD_BLOCK, with nothing pending, held or due, folds the oldest block not yet folded into the speed map record, and makes its
close due when the record holds Nd blocks, the block reaches a cue or is final; at a pause the due close waits until the open
excerpt has stored the final block, and FOLD_BLOCK with it (R200; DEDUCED, log 57): ratios, source and marks of each group, span
and marks of each lane, slip, resume, cue index and CUE_MERGED go into the record (R194), whose block count saturates (DESIGN
CHOICE, log 69). Into a pending record it folds the block the same way, then writes the record if the list has room now, and
reports the block's cue at once (R195). The record's number is the saturating count (DESIGN CHOICE, log 59); SPEEDMAP_CLOSE
carries a due close out (that the close waits for its own command is log 20, and that the command does nothing where no close is
due log 4): where the list has room the record is written, then the written count, then the progress count, with news SPEEDMAP and
then CUE; where it has none the record is pending, EXTENDED, with news LIST_FULL (R171, R192 to R195); a released count by which
more records than the list holds would be outstanding gives full room, with LIST_FULL and the list's fault flag (R192). With
repair records held, FOLD_BLOCK then places them from the head while their list has room, with a watch where some are left (R196).
A speed map record's sixteen words are laid out as chapter 11 says, the block index modulo 2^32 (DESIGN CHOICE, log 47). -/
def Obligations.SpeedMapRecords : Prop :=
  (∀ (m : MapRec) (number : Nat), m.cue < 16 →
    let w := fun (i : Nat) => (m.words number).getD i 0
    let bits := fun (i high low : Nat) => (w i).toNat / 2 ^ low % 2 ^ (high + 1 - low)
    (m.words number).length = 16 ∧ w 0 = BitVec.ofNat 32 number ∧ w 1 = BitVec.ofNat 32 m.first ∧
    w 2 = BitVec.ofNat 32 m.blocks ∧ w 3 = m.position ∧ bits 4 19 16 = m.cue ∧ bits 4 24 24 = flagBit m.resumed ∧
    bits 4 25 25 = flagBit m.slip ∧ bits 4 26 26 = flagBit m.extended ∧ bits 4 27 27 = flagBit m.cueMerged ∧
    bits 4 23 20 = 0 ∧ bits 4 31 28 = 0 ∧ w 11 = 0 ∧
    (∀ g, let byte := match g with | .a => 0 | .b => 8
      let ratio := match g with | .a => 5 | .b => 8
      (m.groups.get g = none → bits 4 (byte + 7) byte = 0 ∧ w ratio = 0 ∧ w (ratio + 1) = 0 ∧ w (ratio + 2) = 0) ∧
      ∀ y, m.groups.get g = some y →
        bits 4 (byte + 1) byte = (match y.active with | none => 0 | some .tach => 1 | some .hum => 2 | some .bias => 3) ∧
        bits 4 (byte + 2) (byte + 2) = flagBit y.holdover ∧ bits 4 (byte + 3) (byte + 3) = flagBit y.freeRun ∧
        bits 4 (byte + 4) (byte + 4) = flagBit y.clamped ∧ bits 4 (byte + 5) (byte + 5) = flagBit y.switched ∧
        bits 4 (byte + 7) (byte + 6) = 0 ∧ w ratio = BitVec.ofNat 32 y.qLast ∧ w (ratio + 1) = BitVec.ofNat 32 y.qMin ∧
        w (ratio + 2) = BitVec.ofNat 32 y.qMax) ∧
    ∀ l : LaneNo, (getAt m.lanes l = none → w (12 + l.val) = 0) ∧
      ∀ y, getAt m.lanes l = some y → -4096 ≤ y.span → y.span ≤ 4095 →
        ((w (12 + l.val)).extractLsb' 0 13).toInt = y.span ∧ bits (12 + l.val) 15 13 = 0 ∧
        bits (12 + l.val) 16 16 = flagBit y.held ∧ bits (12 + l.val) 17 17 = flagBit y.quiet ∧
        bits (12 + l.val) 18 18 = flagBit y.clipped ∧ bits (12 + l.val) 31 19 = 0) ∧
  (∀ (s : State) (cap : Capture) (x : Taken) (js : Judgements) (ks : Vector (Option SkewReport) 4)
    (ps : PerGroup (Option SpeedReport)), Capturing s cap → cap.control.peak = none → cap.writer.closeDue = none →
    cap.writer.mapPending = false → cap.writer.holding = [] →
    cap.control.inFlight.find? (fun y => !y.folded) = some x → x.lanes = some js → x.skew = some ks → x.speed = some ps →
    let fresh : MapRec := ⟨x.idx, 0, (x.block.record.map (·.start)).getD 0, ⟨none, none⟩, Vector.replicate 4 none, 0, false, false,
      false, false⟩
    let closes := fun (m : MapRec) => x.tuning.nd ≤ m.blocks ∨ x.cues ≠ [] ∨ x.final ≠ none
    let after := fun (m : MapRec) =>
      if closes m then (if x.final = some .pause then some x.idx else none) else cap.writer.closeAfter
    ∃ t cap' m, exec .foldBlock s = .next t ∧ OnlyCaptureChanges s t ∧ t.capture = some cap' ∧
      cap'.writer = { cap.writer with
        map := some m, closeDue := if closes m then some (!x.cues.isEmpty) else none
        closeAfter := after m } ∧
      FoldsInto x js ks ps (cap.writer.map.getD fresh) m ∧
      (cap.writer.map = none → m.first = x.idx ∧ m.blocks = 1) ∧
      (∀ m0, cap.writer.map = some m0 → m.first = m0.first ∧ m.blocks = upTo 4294967295 m0.blocks ∧
        m.extended = m0.extended ∧ m.position = m0.position) ∧
      (∀ g r, ps.get g = some r → ∃ y, m.groups.get g = some y ∧ y.qLast = r.q ∧ y.qMin ≤ r.q ∧ r.q ≤ y.qMax ∧ y.active = r.active) ∧
      (∀ y ∈ cap'.control.inFlight, y.idx = x.idx → y.folded = true)) ∧
  (∀ (s : State) (cap : Capture) (x : Taken) (js : Judgements) (ks : Vector (Option SkewReport) 4)
    (ps : PerGroup (Option SpeedReport)) (m0 : MapRec) (n : Nat), Capturing s cap → MemoryCanonical s → cap.control.peak = none →
    cap.writer.closeDue = none → cap.writer.mapPending = true → cap.writer.map = some m0 → cap.writer.holding = [] →
    cap.control.inFlight.find? (fun y => !y.folded) = some x → x.lanes = some js → x.skew = some ks → x.speed = some ps →
    Outstanding s cap.writer.mapList n →
    let w := cap.writer
    let l := w.mapList
    let withCue := fun (o : OrderUnit) => if x.cues = [] then o else o.setNews cap.slot .cue
    ∃ t cap' m, exec .foldBlock s = .next t ∧ t.capture = some cap' ∧ FoldsInto x js ks ps m0 m ∧
      (∀ y ∈ cap'.control.inFlight, y.idx = x.idx → y.folded = true) ∧
      (n < l.capacity → CaptureFrame s t ∧
        (∀ (i : Nat) (v : Word), (m.words w.mapWritten)[i]? = some v →
          Stored t (l.header + 16 + 64 * (l.written.toNat % l.capacity) + 4 * i) v) ∧
        Stored t (l.header + 4) (l.written + 1) ∧
        Stored t (slotBase cap.slot + 0x5C) (BitVec.ofNat 32 (upTo 4294967295 w.mapWritten)) ∧
        MemoryKeptOutside s t [(l.header + 16 + 64 * (l.written.toNat % l.capacity), 64), (l.header + 4, 4),
          (slotBase cap.slot + 0x5C, 4)] ∧
        t.orders = withCue (s.orders.setNews cap.slot .speedMap) ∧
        cap'.writer = { w with mapList := { l with written := l.written + 1 }, mapWritten := upTo 4294967295 w.mapWritten
                               map := none, mapPending := false }) ∧
      (n = l.capacity → t = { s with orders := withCue s.orders, capture := some cap' } ∧ cap'.writer = { w with map := some m }) ∧
      (l.capacity < n → 0 < l.capacity → CaptureFrame s t ∧
        (∀ (i : Nat) (v : Word), (m.words w.mapWritten)[i]? = some v →
          Stored t (l.header + 16 + 64 * (l.written.toNat % l.capacity) + 4 * i) v) ∧
        Stored t (l.header + 4) (l.written + 1) ∧
        Stored t (slotBase cap.slot + 0x5C) (BitVec.ofNat 32 (upTo 4294967295 w.mapWritten)) ∧
        Stored t (slotBase cap.slot + 0x28) (BitVec.ofNat 32 (1 + 2 * flagBit w.faultRepair + 4 * flagBit w.mapDropped)) ∧
        MemoryKeptOutside s t [(l.header + 16 + 64 * (l.written.toNat % l.capacity), 64), (l.header + 4, 4),
          (slotBase cap.slot + 0x5C, 4), (slotBase cap.slot + 0x28, 4)] ∧
        t.orders = withCue ((s.orders.setNews cap.slot .listFull).setNews cap.slot .speedMap) ∧
        cap'.writer = { w with mapList := { l with written := l.written + 1 }, mapWritten := upTo 4294967295 w.mapWritten
                               map := none, mapPending := false, faultMap := true })) ∧
  (∀ (s : State) (cap : Capture), Capturing s cap → cap.writer.closeDue = none → exec .speedmapClose s = .next s) ∧
  (∀ (s : State) (cap : Capture) (cue : Bool) (f : Nat) (x : Excerpt), Capturing s cap → cap.writer.closeDue = some cue →
    cap.writer.closeAfter = some f → cap.writer.excerpt = some x → x.nextIdx ≤ f →
    exec .speedmapClose s = .next s ∧ (cap.control.peak = none → exec .foldBlock s = .next s)) ∧
  (∀ (s : State) (cap : Capture) (m : MapRec) (cue : Bool) (n : Nat), Capturing s cap → MemoryCanonical s →
    cap.writer.closeDue = some cue → cap.writer.map = some m →
    (∀ f x, cap.writer.closeAfter = some f → cap.writer.excerpt = some x → f < x.nextIdx) →
    let l := cap.writer.mapList
    let w := cap.writer
    let withCue := fun (o : OrderUnit) => if cue then o.setNews cap.slot .cue else o
    Outstanding s l n →
    (n < l.capacity → ∃ t, exec .speedmapClose s = .next t ∧ CaptureFrame s t ∧
      (∀ (i : Nat) (v : Word), (m.words w.mapWritten)[i]? = some v →
        Stored t (l.header + 16 + 64 * (l.written.toNat % l.capacity) + 4 * i) v) ∧
      Stored t (l.header + 4) (l.written + 1) ∧
      Stored t (slotBase cap.slot + 0x5C) (BitVec.ofNat 32 (upTo 4294967295 w.mapWritten)) ∧
      MemoryKeptOutside s t [(l.header + 16 + 64 * (l.written.toNat % l.capacity), 64), (l.header + 4, 4),
        (slotBase cap.slot + 0x5C, 4)] ∧
      t.orders = withCue (s.orders.setNews cap.slot .speedMap) ∧
      t.capture = some { cap with writer := { w with
        mapList := { l with written := l.written + 1 }, mapWritten := upTo 4294967295 w.mapWritten, map := none
        mapPending := false, closeDue := none, closeAfter := none } }) ∧
    (n = l.capacity → exec .speedmapClose s = .next { s with
      orders := withCue (s.orders.setNews cap.slot .listFull)
      capture := some { cap with writer := { w with
        map := some { m with extended := true }, mapPending := true, closeDue := none
        closeAfter := none } } }) ∧
    (l.capacity < n → 0 < l.capacity → ∃ t, exec .speedmapClose s = .next t ∧ CaptureFrame s t ∧
      (∀ (i : Nat) (v : Word), (m.words w.mapWritten)[i]? = some v →
        Stored t (l.header + 16 + 64 * (l.written.toNat % l.capacity) + 4 * i) v) ∧
      Stored t (l.header + 4) (l.written + 1) ∧
      Stored t (slotBase cap.slot + 0x5C) (BitVec.ofNat 32 (upTo 4294967295 w.mapWritten)) ∧
      Stored t (slotBase cap.slot + 0x28) (BitVec.ofNat 32 (1 + 2 * flagBit w.faultRepair + 4 * flagBit w.mapDropped)) ∧
      MemoryKeptOutside s t [(l.header + 16 + 64 * (l.written.toNat % l.capacity), 64), (l.header + 4, 4),
        (slotBase cap.slot + 0x5C, 4), (slotBase cap.slot + 0x28, 4)] ∧
      t.orders = withCue ((s.orders.setNews cap.slot .listFull).setNews cap.slot .speedMap) ∧
      t.capture = some { cap with writer := { w with
        mapList := { l with written := l.written + 1 }, mapWritten := upTo 4294967295 w.mapWritten, map := none
        mapPending := false, closeDue := none, closeAfter := none, faultMap := true } })) ∧
  (∀ (s : State) (cap : Capture) (x : Taken) (js : Judgements) (ks : Vector (Option SkewReport) 4)
    (ps : PerGroup (Option SpeedReport)) (r : RepairRec) (held : List RepairRec) (k : Nat), Capturing s cap → MemoryCanonical s →
    cap.control.peak = none → cap.writer.closeDue = none → cap.writer.mapPending = false → cap.writer.holding = r :: held →
    cap.control.inFlight.find? (fun y => !y.folded) = some x → x.lanes = some js → x.skew = some ks → x.speed = some ps →
    Outstanding s cap.writer.repairList k → cap.writer.repairList.capacity ≤ 4096 →
    let w := cap.writer
    let l := w.repairList
    let fresh : MapRec := ⟨x.idx, 0, (x.block.record.map (·.start)).getD 0, ⟨none, none⟩, Vector.replicate 4 none, 0, false, false,
      false, false⟩
    let closes := fun (m : MapRec) => x.tuning.nd ≤ m.blocks ∨ x.cues ≠ [] ∨ x.final ≠ none
    let after := fun (m : MapRec) =>
      if closes m then (if x.final = some .pause then some x.idx else none) else cap.writer.closeAfter
    let watched := s.port.guard.map fun e => if e.slot = cap.slot ∧ e.addr = l.header + 8 then { e with watch := true } else e
    ∃ t cap' m, exec .foldBlock s = .next t ∧ CaptureFrame s t ∧ t.capture = some cap' ∧
      FoldsInto x js ks ps (w.map.getD fresh) m ∧ (∀ y ∈ cap'.control.inFlight, y.idx = x.idx → y.folded = true) ∧
      (let folded := { w with
         map := some m, closeDue := if closes m then some (!x.cues.isEmpty) else none
         closeAfter := after m }
       (k = l.capacity → t.port = { s.port with guard := watched } ∧ t.orders = s.orders ∧ cap'.writer = folded) ∧
       (k < l.capacity → held = [] ∨ k + 1 = l.capacity →
         (∀ (i : Nat) (v : Word), r.words[i]? = some v →
           Stored t (l.header + 16 + 32 * (l.written.toNat % l.capacity) + 4 * i) v) ∧ Stored t (l.header + 4) (l.written + 1) ∧
         Stored t (slotBase cap.slot + 0x60) (BitVec.ofNat 32 (upTo 4294967295 w.repairWritten)) ∧
         MemoryKeptOutside s t [(l.header + 16 + 32 * (l.written.toNat % l.capacity), 32), (l.header + 4, 4),
           (slotBase cap.slot + 0x60, 4)] ∧
         t.orders = s.orders.setNews cap.slot .repair ∧ t.port.guard = (if held = [] then s.port.guard else watched) ∧
         cap'.writer = { folded with
           holding := held, repairList := { l with written := l.written + 1 }
           repairWritten := upTo 4294967295 w.repairWritten })))

/-- STORE_EXCERPT stores the raw samples of the lane's elements of the block due, sign-extended to 32 bits, element by element,
while they fit, and the excerpt stays open for the next block (R198). Where an element-block does not fit the excerpt is closed
TRUNCATED, without CUT also at the final block (DEDUCED, log 25); where the block is the continuity's final one, with CUT; where
it is the excerpt's end block, without a flag: header, descriptor and FULL are written, with news EXCERPT (R198 to R200). Nothing
else in memory changes. While the lane monitor has not judged that block nothing happens (log 4). The answer to a dropout's
opening: with no excerpt list, no excerpt and nothing skipped; an open excerpt of the lane is extended; one of another lane, or a
span that is not EMPTY or not readable, is skipped, and the skipped count rises; an EMPTY span becomes FILLING and an excerpt
opens, from the block before where the continuity has one (R197). A closing adds the dropout's number and sets the excerpt's end
to the next block (R198). -/
def Obligations.StoreExcerptCopiesRawSamples : Prop :=
  (∀ (s : State) (cap : Capture) (m : LaneMonitor) (e : Excerpt), Capturing s cap → MemoryCanonical s →
    cap.control.peak = none → cap.monitor = some m → cap.writer.excerpt = some e →
    let lane := getAt cap.params.lanes e.lane
    let base := e.span.buffer + 64
    (m.judged e.nextIdx = false → exec .storeExcerpt s = .next s) ∧
    (∀ (b : HistBlock) (k : Nat), m.judged e.nextIdx = true → findBlock s.elements e.nextNum = some b →
      wellFormedBlock b.samples = true → lane.first + lane.count ≤ 16 → k ≤ lane.count →
      64 + 15360 * (e.stored + k) ≤ e.span.capacity →
      let samples := fun (t : State) => ∀ (j i : Nat) (xs : List Sample) (x : Sample), j < k →
        b.samples[lane.first + j]? = some xs → xs[i]? = some x →
        Stored t (base + 15360 * (e.stored + j) + 4 * i) (x.signExtend 32)
      let closes := fun (truncated cut : Bool) => Stored s e.span.addr 1 → Apart (e.span.addr, 32) (e.span.buffer, e.span.capacity) →
        let listed := e.seqs.take 4
        let header : List Word :=
          [BitVec.ofNat 32 (e.lane.val + 256 * lane.first + 65536 * lane.count + 16777216 * flagBit truncated
             + 33554432 * flagBit cut + 67108864 * flagBit (decide (4 < e.seqs.length)) + 268435456 * listed.length),
           BitVec.ofNat 32 e.firstIdx, BitVec.ofNat 32 (if k = 0 then e.blocks else e.blocks + 1), e.position]
          ++ listed.map (BitVec.ofNat 32) ++ List.replicate (12 - listed.length) 0
        ∃ t, exec .storeExcerpt s = .next t ∧ CaptureFrame s t ∧ samples t ∧
          (∀ (i : Nat) (v : Word), header[i]? = some v → Stored t (e.span.buffer + 4 * i) v) ∧
          ShowsSpan t e.span 2 (64 + 15360 * (e.stored + k)) (e.stored + k) (BitVec.ofNat 32 e.firstIdx) e.position
            (BitVec.ofNat 32 (flagBit cut)) ∧
          t.capture = some { cap with writer := { cap.writer with excerpt := none } } ∧
          t.orders = s.orders.setNews cap.slot .excerpt ∧
          MemoryKeptOutside s t [(base + 15360 * e.stored, 15360 * k), (e.span.buffer, 64), (e.span.addr, 4), (e.span.addr + 0x0C, 20)]
      (k = lane.count → 1 ≤ k → m.finalIdx ≠ some e.nextIdx → e.endIdx ≠ some e.nextIdx →
        ∃ t, exec .storeExcerpt s = .next t ∧ CaptureFrame s t ∧ t.orders = s.orders ∧ samples t ∧
          t.capture = some { cap with writer := { cap.writer with excerpt := some { e with
            stored := e.stored + k, blocks := e.blocks + 1, nextIdx := e.nextIdx + 1, nextNum := e.nextNum + 1 } } } ∧
          MemoryKeptOutside s t [(base + 15360 * e.stored, 15360 * k)]) ∧
      (k < lane.count → e.span.capacity < 64 + 15360 * (e.stored + k + 1) → closes true false) ∧
      (k = lane.count → m.finalIdx = some e.nextIdx → closes false true) ∧
      (k = lane.count → m.finalIdx ≠ some e.nextIdx → e.endIdx = some e.nextIdx → closes false false))) ∧
  (∀ (c : Cx) (lane : LaneNo) (last : Option JudgedMark) (now : JudgedMark),
    let w := c.cap.writer
    let d := w.excerpts.getD w.excerptCursor ⟨0, 0, 0, 0⟩
    let p := c.hub.port
    let first := last.getD now
    let n := upTo 4294967295 w.skipped
    let withW := fun (w : Writer) => { c.cap with writer := w }
    let skippedOver := fun (p : Port) (o : OrderUnit) => (⟨⟨p.store (slotBase c.cap.slot + 0x70) (BitVec.ofNat 32 n), o⟩,
      withW { w with skipped := n }⟩ : Cx)
    (w.excerpts = [] → c.excerptAnswer lane last now = (false, c)) ∧
    (w.excerpts ≠ [] →
      (∀ e, w.excerpt = some e → e.lane = lane →
        c.excerptAnswer lane last now = (false, ⟨c.hub, withW { w with excerpt := some { e with endIdx := none } }⟩)) ∧
      (∀ e, w.excerpt = some e → e.lane ≠ lane → c.excerptAnswer lane last now = (true, skippedOver p c.hub.orders)) ∧
      (w.excerpt = none → eccAt p.ecc d.addr = none → readMemWord p.mem d.addr = 0 →
        c.excerptAnswer lane last now = (false, ⟨⟨p.store d.addr 1, c.hub.orders⟩, withW { w with
          excerptCursor := (w.excerptCursor + 1) % w.excerpts.length
          excerpt := some ⟨lane, d, first.idx, first.start, first.idx, first.num, 0, 0, none, []⟩ }⟩)) ∧
      (w.excerpt = none → eccAt p.ecc d.addr = none → readMemWord p.mem d.addr ≠ 0 →
        c.excerptAnswer lane last now = (true, skippedOver p c.hub.orders)) ∧
      (w.excerpt = none → eccAt p.ecc d.addr = some .uncorrectable →
        c.excerptAnswer lane last now =
          (true, skippedOver { p with uncorrected := true } (c.hub.orders.setNews c.cap.slot .memoryFault))))) ∧
  (∀ (c : Cx) (lane : LaneNo) (idx seq : Nat),
    (∀ e, c.cap.writer.excerpt = some e → e.lane = lane → c.excerptClosing lane idx seq = ⟨c.hub, { c.cap with
      writer := { c.cap.writer with excerpt := some { e with endIdx := some (idx + 1), seqs := e.seqs ++ [seq] } } }⟩) ∧
    (c.cap.writer.excerpt.map (·.lane) ≠ some lane → c.excerptClosing lane idx seq = c))
end

