-- ==== Sys2Proof/Laws/Memory.lean ====
section
/-! SUPPORT. Transfer memory: the canonical form, what a read finds after a write, and that the port keeps the form. -/

namespace Sys2Proof.Laws

open Machine

/-- The canonical form as a property of the whole list: rising addresses, no byte that an unlisted address reads as. -/
def Canonical (m : List Host.Cell) : Prop :=
  m.Pairwise (fun c d => c.1 < d.1) ∧ ∀ c ∈ m, c.2 ≠ unlistedByte

theorem wf_iff_canonical (m : List Host.Cell) : Memory.wf m = true ↔ Canonical m := by
  induction m with
  | nil => simp [Memory.wf, Canonical]
  | cons c rest ih =>
    obtain ⟨a, v⟩ := c
    cases rest with
    | nil => simp [Memory.wf, Canonical]
    | cons d rest =>
      obtain ⟨b, w⟩ := d
      have step : Memory.wf ((a, v) :: (b, w) :: rest) = true ↔
          (v ≠ unlistedByte ∧ a < b) ∧ Memory.wf ((b, w) :: rest) = true := by
        simp [Memory.wf]
      rw [step, ih]
      constructor
      · rintro ⟨⟨hv, hab⟩, hp, hz⟩
        refine ⟨List.pairwise_cons.2 ⟨?_, hp⟩, ?_⟩
        · intro d hd
          rcases List.mem_cons.1 hd with rfl | hd
          · exact hab
          · exact hab.trans ((List.pairwise_cons.1 hp).1 d hd)
        · intro c hc
          rcases List.mem_cons.1 hc with rfl | hc
          · exact hv
          · exact hz c hc
      · rintro ⟨hp, hz⟩
        obtain ⟨h1, h2⟩ := List.pairwise_cons.1 hp
        exact ⟨⟨hz (a, v) (by simp), h1 (b, w) (by simp)⟩, h2, fun c hc => hz c (by simp [List.mem_cons.1 hc])⟩

theorem canonical_nil : Canonical [] := by simp [Canonical]

/-! ## Cells of written bytes -/

theorem mem_cellsFrom {a : Nat} {vs : List Byte} {c : Host.Cell} (h : c ∈ cellsFrom a vs) :
    a ≤ c.1 ∧ c.1 < a + vs.length ∧ c.2 ≠ unlistedByte := by
  induction vs generalizing a with
  | nil => simp [cellsFrom] at h
  | cons v vs ih =>
    unfold cellsFrom at h
    split at h
    · obtain ⟨h1, h2, h3⟩ := ih h
      exact ⟨by omega, by simp; omega, h3⟩
    · rename_i hv
      rcases List.mem_cons.1 h with rfl | h
      · exact ⟨le_refl _, by simp, hv⟩
      · obtain ⟨h1, h2, h3⟩ := ih h
        exact ⟨by omega, by simp; omega, h3⟩

theorem pairwise_cellsFrom (a : Nat) (vs : List Byte) : (cellsFrom a vs).Pairwise (fun c d => c.1 < d.1) := by
  induction vs generalizing a with
  | nil => simp [cellsFrom]
  | cons v vs ih =>
    unfold cellsFrom
    split
    · exact ih _
    · refine List.pairwise_cons.2 ⟨fun d hd => ?_, ih _⟩
      have := (mem_cellsFrom hd).1
      simp; omega

/-! ## The canonical form is kept -/

theorem lt_of_mem_dropWhile {m : List Host.Cell} (hp : m.Pairwise (fun c d => c.1 < d.1)) {b : Nat} {c : Host.Cell}
    (h : c ∈ m.dropWhile (fun c => decide (c.1 < b))) : b ≤ c.1 := by
  induction m with
  | nil => simp at h
  | cons d m ih =>
    obtain ⟨h1, h2⟩ := List.pairwise_cons.1 hp
    by_cases hd : d.1 < b
    · rw [List.dropWhile_cons_of_pos (by simpa using hd)] at h
      exact ih h2 h
    · rw [List.dropWhile_cons_of_neg (by simpa using hd)] at h
      rcases List.mem_cons.1 h with rfl | h
      · omega
      · have := h1 c h; omega

theorem lt_of_mem_takeWhile {m : List Host.Cell} {b : Nat} {c : Host.Cell}
    (h : c ∈ m.takeWhile (fun c => decide (c.1 < b))) : c.1 < b := by
  simpa using List.mem_takeWhile_imp h

theorem canonical_writeBytes {m : List Host.Cell} (h : Canonical m) (a : Nat) (vs : List Byte) :
    Canonical (writeBytes m a vs) := by
  obtain ⟨hp, hz⟩ := h
  unfold writeBytes
  refine ⟨List.pairwise_append.2 ⟨List.pairwise_append.2 ⟨hp.sublist (List.takeWhile_sublist _), pairwise_cellsFrom _ _, ?_⟩,
    hp.sublist (List.dropWhile_sublist _), ?_⟩, ?_⟩
  · intro c hc d hd
    have h1 := lt_of_mem_takeWhile hc
    have h2 := (mem_cellsFrom hd).1
    omega
  · intro c hc d hd
    have h2 := lt_of_mem_dropWhile hp hd
    rcases List.mem_append.1 hc with hc | hc
    · have h1 := lt_of_mem_takeWhile hc; omega
    · have h1 := (mem_cellsFrom hc).2.1; omega
  · intro c hc
    rcases List.mem_append.1 hc with hc | hc
    · rcases List.mem_append.1 hc with hc | hc
      · exact hz c ((List.takeWhile_sublist _).subset hc)
      · exact (mem_cellsFrom hc).2.2
    · exact hz c ((List.dropWhile_sublist _).subset hc)

theorem wf_writeBytes {m : List Host.Cell} (h : Memory.wf m = true) (a : Nat) (vs : List Byte) :
    Memory.wf (writeBytes m a vs) = true :=
  (wf_iff_canonical _).2 (canonical_writeBytes ((wf_iff_canonical _).1 h) a vs)

theorem wf_writeMemWord {m : List Host.Cell} (h : Memory.wf m = true) (a : Nat) (w : Word) :
    Memory.wf (writeMemWord m a w) = true := wf_writeBytes h a _

/-! ## What a read finds -/

theorem readByte_of_forall_ne {m : List Host.Cell} {x : Nat} (h : ∀ c ∈ m, c.1 ≠ x) : readByte m x = unlistedByte := by
  induction m with
  | nil => rfl
  | cons c m ih =>
    have hc : x ≠ c.1 := fun e => h c (by simp) e.symm
    simp only [readByte, if_neg hc]
    exact ih fun d hd => h d (by simp [hd])

theorem readByte_append_of_forall_ne {l m : List Host.Cell} {x : Nat} (h : ∀ c ∈ l, c.1 ≠ x) :
    readByte (l ++ m) x = readByte m x := by
  induction l with
  | nil => rfl
  | cons c l ih =>
    have hc : x ≠ c.1 := fun e => h c (by simp) e.symm
    simp only [List.cons_append, readByte, if_neg hc]
    exact ih fun d hd => h d (by simp [hd])

theorem readByte_append_of_forall_ne_right {l m : List Host.Cell} {x : Nat} (h : ∀ c ∈ m, c.1 ≠ x) :
    readByte (l ++ m) x = readByte l x := by
  induction l with
  | nil => simpa [readByte] using readByte_of_forall_ne h
  | cons c l ih => simp only [List.cons_append, readByte, ih]

theorem readByte_takeWhile {m : List Host.Cell} {b x : Nat} (h : x < b) (hp : m.Pairwise (fun c d => c.1 < d.1)) :
    readByte (m.takeWhile (fun c => decide (c.1 < b))) x = readByte m x := by
  conv_rhs => rw [← List.takeWhile_append_dropWhile (p := fun c : Host.Cell => decide (c.1 < b)) (l := m)]
  exact (readByte_append_of_forall_ne_right fun c hc => by have := lt_of_mem_dropWhile hp hc; omega).symm

theorem readByte_dropWhile {m : List Host.Cell} {b x : Nat} (h : b ≤ x) :
    readByte (m.dropWhile (fun c => decide (c.1 < b))) x = readByte m x := by
  conv_rhs => rw [← List.takeWhile_append_dropWhile (p := fun c : Host.Cell => decide (c.1 < b)) (l := m)]
  exact (readByte_append_of_forall_ne fun c hc => by have := lt_of_mem_takeWhile hc; omega).symm

theorem readByte_cellsFrom (a : Nat) (vs : List Byte) (i : Nat) :
    readByte (cellsFrom a vs) (a + i) = vs.getD i unlistedByte := by
  induction vs generalizing a i with
  | nil => simp [cellsFrom, readByte]
  | cons v vs ih =>
    have next : ∀ j, readByte (cellsFrom (a + 1) vs) (a + (j + 1)) = vs.getD j unlistedByte := fun j => by
      rw [show a + (j + 1) = a + 1 + j by omega]; exact ih _ _
    cases i with
    | zero =>
      unfold cellsFrom
      split
      · rename_i hv
        rw [readByte_of_forall_ne fun c hc => by have := (mem_cellsFrom hc).1; omega]
        simp [hv]
      · simp [readByte]
    | succ j =>
      unfold cellsFrom
      split
      · simpa using next j
      · simp only [readByte]
        rw [if_neg (by omega)]
        simpa using next j

/-- A byte outside the bytes written reads as before. -/
theorem readByte_writeBytes_outside {m : List Host.Cell} (h : Memory.wf m = true) {a x : Nat} {vs : List Byte}
    (hx : x < a ∨ a + vs.length ≤ x) : readByte (writeBytes m a vs) x = readByte m x := by
  have hp := ((wf_iff_canonical m).1 h).1
  unfold writeBytes
  rcases hx with hx | hx
  · rw [List.append_assoc, readByte_append_of_forall_ne_right, readByte_takeWhile hx hp]
    intro c hc
    rcases List.mem_append.1 hc with hc | hc
    · have := (mem_cellsFrom hc).1; omega
    · have := lt_of_mem_dropWhile hp hc; omega
  · rw [readByte_append_of_forall_ne, readByte_dropWhile hx]
    intro c hc
    rcases List.mem_append.1 hc with hc | hc
    · have := lt_of_mem_takeWhile hc; omega
    · have := (mem_cellsFrom hc).2.1; omega

/-- A byte written reads as what was written. -/
theorem readByte_writeBytes_inside {m : List Host.Cell} (h : Memory.wf m = true) {a i : Nat} {vs : List Byte}
    (hi : i < vs.length) : readByte (writeBytes m a vs) (a + i) = vs.getD i unlistedByte := by
  have hp := ((wf_iff_canonical m).1 h).1
  unfold writeBytes
  rw [readByte_append_of_forall_ne_right, readByte_append_of_forall_ne, readByte_cellsFrom]
  · intro c hc
    have := lt_of_mem_takeWhile hc; omega
  · intro c hc
    have := lt_of_mem_dropWhile hp hc; omega

theorem wordBytes_length (w : Word) : (wordBytes w).length = 4 := rfl

/-- A word of four bytes gives the bytes back. -/
theorem wordOfBytes_wordBytes (w : Word) : wordOfBytes (byteOf w 0) (byteOf w 1) (byteOf w 2) (byteOf w 3) = w := by
  apply BitVec.eq_of_getLsbD_eq
  intro i hi
  simp only [wordOfBytes, byteOf, BitVec.getLsbD_append, BitVec.getLsbD_extractLsb']
  by_cases h0 : i < 8
  · simp [h0]
  · by_cases h1 : i < 16
    · simp only [h0, if_false, show i - 8 < 8 by omega, if_true, decide_true, Bool.true_and]
      congr 1; omega
    · by_cases h2 : i < 24
      · simp only [h0, if_false, show ¬ i - 8 < 8 by omega, show i - 8 - 8 < 8 by omega, if_true, decide_true, Bool.true_and]
        congr 1; omega
      · simp only [h0, if_false, show ¬ i - 8 < 8 by omega, show ¬ i - 8 - 8 < 8 by omega, show i - 8 - 8 - 8 < 8 by omega,
          decide_true, Bool.true_and]
        congr 1; omega

theorem byteOf_wordOfBytes (b0 b1 b2 b3 : Byte) :
    byteOf (wordOfBytes b0 b1 b2 b3) 0 = b0 ∧ byteOf (wordOfBytes b0 b1 b2 b3) 1 = b1
      ∧ byteOf (wordOfBytes b0 b1 b2 b3) 2 = b2 ∧ byteOf (wordOfBytes b0 b1 b2 b3) 3 = b3 := by
  refine ⟨?_, ?_, ?_, ?_⟩ <;>
  · apply BitVec.eq_of_getLsbD_eq
    intro i hi
    simp only [wordOfBytes, byteOf, BitVec.getLsbD_append, BitVec.getLsbD_extractLsb', hi, decide_true, Bool.true_and]
    first
      | rw [if_pos (show 8 * 0 + i < 8 by omega)]; congr 1; omega
      | rw [if_neg (show ¬ 8 * 1 + i < 8 by omega), if_pos (show 8 * 1 + i - 8 < 8 by omega)]; congr 1; omega
      | rw [if_neg (show ¬ 8 * 2 + i < 8 by omega), if_neg (show ¬ 8 * 2 + i - 8 < 8 by omega),
          if_pos (show 8 * 2 + i - 8 - 8 < 8 by omega)]; congr 1; omega
      | rw [if_neg (show ¬ 8 * 3 + i < 8 by omega), if_neg (show ¬ 8 * 3 + i - 8 < 8 by omega),
          if_neg (show ¬ 8 * 3 + i - 8 - 8 < 8 by omega)]; congr 1; omega

/-- A word written reads as written. -/
theorem readMemWord_writeMemWord {m : List Host.Cell} (h : Memory.wf m = true) (a : Nat) (w : Word) :
    readMemWord (writeMemWord m a w) a = w := by
  have hb : ∀ i, i < 4 → readByte (writeMemWord m a w) (a + i) = (wordBytes w).getD i unlistedByte := fun i hi =>
    readByte_writeBytes_inside h (by simpa [wordBytes_length] using hi)
  have h0 := hb 0 (by omega)
  unfold readMemWord
  rw [show readByte (writeMemWord m a w) a = byteOf w 0 by simpa [wordBytes] using h0, hb 1 (by omega), hb 2 (by omega),
    hb 3 (by omega)]
  simpa [wordBytes] using wordOfBytes_wordBytes w

theorem readByte_writeMemWord_outside {m : List Host.Cell} (h : Memory.wf m = true) {a x : Nat} (w : Word)
    (hx : x < a ∨ a + 4 ≤ x) : readByte (writeMemWord m a w) x = readByte m x :=
  readByte_writeBytes_outside h (by simpa [wordBytes_length] using hx)

/-- A word that shares no byte with a written one reads as before. -/
theorem readMemWord_writeMemWord_of_apart {m : List Host.Cell} (h : Memory.wf m = true) {a b : Nat} (w : Word)
    (hb : b + 4 ≤ a ∨ a + 4 ≤ b) : readMemWord (writeMemWord m a w) b = readMemWord m b := by
  unfold readMemWord
  rw [readByte_writeMemWord_outside h, readByte_writeMemWord_outside h, readByte_writeMemWord_outside h,
    readByte_writeMemWord_outside h] <;> omega

theorem length_flatMap_wordBytes (ws : List Word) : (ws.flatMap wordBytes).length = 4 * ws.length := by
  induction ws with
  | nil => rfl
  | cons w ws ih => simp [wordBytes_length, ih]; omega

/-! ## The port keeps the form -/

/-- The form of the memory behind a port. -/
def PortWf (p : Port) : Prop := Memory.wf p.mem = true

theorem portWf_store {p : Port} (h : PortWf p) (a : Nat) (w : Word) : PortWf (p.store a w) := wf_writeMemWord h a w

theorem portWf_storeWords {p : Port} (h : PortWf p) (a : Nat) (ws : List Word) : PortWf (p.storeWords a ws) := wf_writeBytes h a _

/-- A checked read leaves memory as it is: it answers none, or changes marks and counts. -/
theorem checkedRead_mem (p : Port) (a : Nat) : (p.checkedRead a).2.mem = p.mem := by
  unfold Port.checkedRead
  split <;> rfl

theorem readWords_mem (p : Port) (a n : Nat) : (p.readWords a n).2.mem = p.mem := by
  induction n generalizing p a with
  | zero => rfl
  | succ n ih =>
    unfold Port.readWords
    have h1 := checkedRead_mem p a
    split
    · rename_i p1 he; rw [he] at h1; exact h1
    · rename_i w p1 he
      rw [he] at h1
      have h2 := ih p1 (a + 4)
      split
      · rename_i p2 he2; rw [he2] at h2; exact h2.trans h1
      · rename_i ws p2 he2; rw [he2] at h2; exact h2.trans h1

theorem portWf_checkedRead {p : Port} (h : PortWf p) (a : Nat) : PortWf (p.checkedRead a).2 := by
  unfold PortWf; rw [checkedRead_mem]; exact h

theorem portWf_readWords {p : Port} (h : PortWf p) (a n : Nat) : PortWf (p.readWords a n).2 := by
  unfold PortWf; rw [readWords_mem]; exact h

theorem setWatch_mem (p : Port) (n : SlotNo) (a : Nat) : (p.setWatch n a).mem = p.mem := rfl
theorem dropEntries_mem (p : Port) (n : SlotNo) : (p.dropEntries n).mem = p.mem := rfl

theorem endWatches_mem (p : Port) (a : Nat) : (p.endWatches a).mem = p.mem := by
  unfold Port.endWatches
  dsimp only
  split <;> rfl

theorem portWf_endWatches {p : Port} (h : PortWf p) (a : Nat) : PortWf (p.endWatches a) := by
  unfold PortWf; rw [endWatches_mem]; exact h

theorem portWf_setWatch {p : Port} (h : PortWf p) (n : SlotNo) (a : Nat) : PortWf (p.setWatch n a) := h

theorem portWf_spanRequest {p : Port} (h : PortWf p) (n : SlotNo) (a : Nat) (e w : Word) (b : Bool) :
    PortWf (p.spanRequest n a e w b).2 := by
  unfold Port.spanRequest
  have h1 := portWf_checkedRead h a
  split
  · rename_i p1 he
    rw [he] at h1
    cases b
    · exact h1
    · exact portWf_setWatch h1 n a
  · rename_i v p1 he
    rw [he] at h1
    split
    · exact portWf_store h1 a w
    · cases b
      · exact h1
      · exact portWf_setWatch h1 n a

theorem portWf_judgingRead {p : Port} (h : PortWf p) (a : Nat) : PortWf (p.judgingRead a).2 := by
  unfold Port.judgingRead
  have h1 := portWf_checkedRead h a
  split <;> rename_i he <;> rw [he] at h1 <;> exact h1

theorem portWf_guardedWrite {p : Port} (h : PortWf p) (a : Nat) (v : Word) : PortWf (p.guardedWrite a v) := by
  unfold Port.guardedWrite
  have h1 := portWf_judgingRead h a
  split
  · exact h
  · dsimp only
    split
    · exact portWf_endWatches (portWf_store h1 a v) a
    · exact h1

theorem portWf_memoryWrite {p : Port} (h : PortWf p) (a : Nat) (v : Word) : PortWf (p.memoryWrite a v) := by
  unfold Port.memoryWrite
  split
  · exact portWf_guardedWrite h a v
  · exact portWf_endWatches (portWf_store h a v) a

theorem portWf_narrowWrite {p : Port} (h : PortWf p) (a : Nat) (en : BitVec 4) (v : Word) : PortWf (p.narrowWrite a en v) := by
  unfold Port.narrowWrite
  split
  · exact h
  · exact portWf_endWatches (portWf_store (portWf_checkedRead h a) a _) a

theorem portWf_disturb {p : Port} (h : PortWf p) (a : Nat) (d : Disturbance) : PortWf (p.disturb a d) := by
  unfold Port.disturb
  split
  · split <;> exact h
  · exact wf_writeMemWord h a _

/-- Reset memory has the form. -/
theorem portWf_reset : PortWf State.reset.port := rfl

end Sys2Proof.Laws
end

