-- ==== Sys2Proof/Laws/State.lean ====
section
/-! SUPPORT. What each update of the state leaves in each field: one lemma for each field, so that no proof unfolds an update. -/

namespace Sys2Proof.Machine

/-! ## The state -/

@[simp] theorem State.setHub_pending (s : State) (h : Hub) : (s.setHub h).pending = s.pending := rfl
@[simp] theorem State.setHub_port (s : State) (h : Hub) : (s.setHub h).port = h.port := rfl
@[simp] theorem State.setHub_orders (s : State) (h : Hub) : (s.setHub h).orders = h.orders := rfl
@[simp] theorem State.setHub_transport (s : State) (h : Hub) : (s.setHub h).transport = s.transport := rfl
@[simp] theorem State.setHub_elements (s : State) (h : Hub) : (s.setHub h).elements = s.elements := rfl
@[simp] theorem State.setHub_reports (s : State) (h : Hub) : (s.setHub h).reports = s.reports := rfl
@[simp] theorem State.setHub_capture (s : State) (h : Hub) : (s.setHub h).capture = s.capture := rfl
@[simp] theorem State.setHub_calibration (s : State) (h : Hub) : (s.setHub h).calibration = s.calibration := rfl
@[simp] theorem State.setHub_freeCount (s : State) (h : Hub) : (s.setHub h).freeCount = s.freeCount := rfl

@[simp] theorem State.setCx_pending (s : State) (c : Cx) : (s.setCx c).pending = s.pending := rfl
@[simp] theorem State.setCx_port (s : State) (c : Cx) : (s.setCx c).port = c.hub.port := rfl
@[simp] theorem State.setCx_orders (s : State) (c : Cx) : (s.setCx c).orders = c.hub.orders := rfl
@[simp] theorem State.setCx_transport (s : State) (c : Cx) : (s.setCx c).transport = s.transport := rfl
@[simp] theorem State.setCx_elements (s : State) (c : Cx) : (s.setCx c).elements = s.elements := rfl
@[simp] theorem State.setCx_reports (s : State) (c : Cx) : (s.setCx c).reports = s.reports := rfl
@[simp] theorem State.setCx_capture (s : State) (c : Cx) : (s.setCx c).capture = some c.cap := rfl
@[simp] theorem State.setCx_calibration (s : State) (c : Cx) : (s.setCx c).calibration = s.calibration := rfl
@[simp] theorem State.setCx_freeCount (s : State) (c : Cx) : (s.setCx c).freeCount = s.freeCount := rfl

@[simp] theorem State.setDeck_pending (s : State) (k : Deck × Nat) : (s.setDeck k).pending = s.pending := rfl
@[simp] theorem State.setDeck_port (s : State) (k : Deck × Nat) : (s.setDeck k).port = k.1.hub.port := rfl
@[simp] theorem State.setDeck_orders (s : State) (k : Deck × Nat) : (s.setDeck k).orders = k.1.hub.orders := rfl
@[simp] theorem State.setDeck_transport (s : State) (k : Deck × Nat) : (s.setDeck k).transport = k.1.unit := rfl
@[simp] theorem State.setDeck_elements (s : State) (k : Deck × Nat) : (s.setDeck k).elements = s.elements := rfl
@[simp] theorem State.setDeck_reports (s : State) (k : Deck × Nat) : (s.setDeck k).reports = s.reports := rfl
@[simp] theorem State.setDeck_capture (s : State) (k : Deck × Nat) : (s.setDeck k).capture = s.capture := rfl
@[simp] theorem State.setDeck_calibration (s : State) (k : Deck × Nat) : (s.setDeck k).calibration = s.calibration := rfl
@[simp] theorem State.setDeck_freeCount (s : State) (k : Deck × Nat) : (s.setDeck k).freeCount = k.2 := rfl

@[simp] theorem State.hub_port (s : State) : s.hub.port = s.port := rfl
@[simp] theorem State.hub_orders (s : State) : s.hub.orders = s.orders := rfl

/-! ## The port -/

@[simp] theorem Port.store_resetLow (p : Port) (a : Nat) (w : Word) : (p.store a w).resetLow = p.resetLow := rfl
@[simp] theorem Port.store_phase (p : Port) (a : Nat) (w : Word) : (p.store a w).phase = p.phase := rfl
@[simp] theorem Port.store_lastWarm (p : Port) (a : Nat) (w : Word) : (p.store a w).lastWarm = p.lastWarm := rfl
@[simp] theorem Port.store_uncorrected (p : Port) (a : Nat) (w : Word) : (p.store a w).uncorrected = p.uncorrected := rfl
@[simp] theorem Port.store_corrected (p : Port) (a : Nat) (w : Word) : (p.store a w).corrected = p.corrected := rfl
@[simp] theorem Port.store_attnEn (p : Port) (a : Nat) (w : Word) : (p.store a w).attnEn = p.attnEn := rfl
@[simp] theorem Port.store_mem (p : Port) (a : Nat) (w : Word) : (p.store a w).mem = writeMemWord p.mem a w := rfl
@[simp] theorem Port.store_ecc (p : Port) (a : Nat) (w : Word) : (p.store a w).ecc = clearEcc p.ecc a := rfl
@[simp] theorem Port.store_guard (p : Port) (a : Nat) (w : Word) : (p.store a w).guard = p.guard := rfl
@[simp] theorem Port.store_notices (p : Port) (a : Nat) (w : Word) : (p.store a w).notices = p.notices := rfl
@[simp] theorem Port.store_readData (p : Port) (a : Nat) (w : Word) : (p.store a w).readData = p.readData := rfl

@[simp] theorem Port.storeWords_resetLow (p : Port) (a : Nat) (ws : List Word) : (p.storeWords a ws).resetLow = p.resetLow := rfl
@[simp] theorem Port.storeWords_phase (p : Port) (a : Nat) (ws : List Word) : (p.storeWords a ws).phase = p.phase := rfl
@[simp] theorem Port.storeWords_lastWarm (p : Port) (a : Nat) (ws : List Word) : (p.storeWords a ws).lastWarm = p.lastWarm := rfl
@[simp] theorem Port.storeWords_uncorrected (p : Port) (a : Nat) (ws : List Word) : (p.storeWords a ws).uncorrected = p.uncorrected := rfl
@[simp] theorem Port.storeWords_corrected (p : Port) (a : Nat) (ws : List Word) : (p.storeWords a ws).corrected = p.corrected := rfl
@[simp] theorem Port.storeWords_attnEn (p : Port) (a : Nat) (ws : List Word) : (p.storeWords a ws).attnEn = p.attnEn := rfl
@[simp] theorem Port.storeWords_mem (p : Port) (a : Nat) (ws : List Word) : (p.storeWords a ws).mem = writeBytes p.mem a (ws.flatMap wordBytes) := rfl
@[simp] theorem Port.storeWords_ecc (p : Port) (a : Nat) (ws : List Word) : (p.storeWords a ws).ecc = p.ecc.filter fun k => decide (k.1 < a ∨ a + 4 * ws.length ≤ k.1) := rfl
@[simp] theorem Port.storeWords_guard (p : Port) (a : Nat) (ws : List Word) : (p.storeWords a ws).guard = p.guard := rfl
@[simp] theorem Port.storeWords_notices (p : Port) (a : Nat) (ws : List Word) : (p.storeWords a ws).notices = p.notices := rfl
@[simp] theorem Port.storeWords_readData (p : Port) (a : Nat) (ws : List Word) : (p.storeWords a ws).readData = p.readData := rfl

@[simp] theorem Port.countCorrection_resetLow (p : Port) : (p.countCorrection).resetLow = p.resetLow := rfl
@[simp] theorem Port.countCorrection_phase (p : Port) : (p.countCorrection).phase = p.phase := rfl
@[simp] theorem Port.countCorrection_lastWarm (p : Port) : (p.countCorrection).lastWarm = p.lastWarm := rfl
@[simp] theorem Port.countCorrection_uncorrected (p : Port) : (p.countCorrection).uncorrected = p.uncorrected := rfl
@[simp] theorem Port.countCorrection_corrected (p : Port) : (p.countCorrection).corrected = inc8 p.corrected := rfl
@[simp] theorem Port.countCorrection_attnEn (p : Port) : (p.countCorrection).attnEn = p.attnEn := rfl
@[simp] theorem Port.countCorrection_mem (p : Port) : (p.countCorrection).mem = p.mem := rfl
@[simp] theorem Port.countCorrection_ecc (p : Port) : (p.countCorrection).ecc = p.ecc := rfl
@[simp] theorem Port.countCorrection_guard (p : Port) : (p.countCorrection).guard = p.guard := rfl
@[simp] theorem Port.countCorrection_notices (p : Port) : (p.countCorrection).notices = p.notices := rfl
@[simp] theorem Port.countCorrection_readData (p : Port) : (p.countCorrection).readData = p.readData := rfl

@[simp] theorem Port.setWatch_resetLow (p : Port) (n : SlotNo) (a : Nat) : (p.setWatch n a).resetLow = p.resetLow := rfl
@[simp] theorem Port.setWatch_phase (p : Port) (n : SlotNo) (a : Nat) : (p.setWatch n a).phase = p.phase := rfl
@[simp] theorem Port.setWatch_lastWarm (p : Port) (n : SlotNo) (a : Nat) : (p.setWatch n a).lastWarm = p.lastWarm := rfl
@[simp] theorem Port.setWatch_uncorrected (p : Port) (n : SlotNo) (a : Nat) : (p.setWatch n a).uncorrected = p.uncorrected := rfl
@[simp] theorem Port.setWatch_corrected (p : Port) (n : SlotNo) (a : Nat) : (p.setWatch n a).corrected = p.corrected := rfl
@[simp] theorem Port.setWatch_attnEn (p : Port) (n : SlotNo) (a : Nat) : (p.setWatch n a).attnEn = p.attnEn := rfl
@[simp] theorem Port.setWatch_mem (p : Port) (n : SlotNo) (a : Nat) : (p.setWatch n a).mem = p.mem := rfl
@[simp] theorem Port.setWatch_ecc (p : Port) (n : SlotNo) (a : Nat) : (p.setWatch n a).ecc = p.ecc := rfl
@[simp] theorem Port.setWatch_guard (p : Port) (n : SlotNo) (a : Nat) : (p.setWatch n a).guard = p.guard.map fun e => if e.slot = n ∧ e.addr = a then { e with watch := true } else e := rfl
@[simp] theorem Port.setWatch_notices (p : Port) (n : SlotNo) (a : Nat) : (p.setWatch n a).notices = p.notices := rfl
@[simp] theorem Port.setWatch_readData (p : Port) (n : SlotNo) (a : Nat) : (p.setWatch n a).readData = p.readData := rfl

@[simp] theorem Port.dropEntries_resetLow (p : Port) (n : SlotNo) : (p.dropEntries n).resetLow = p.resetLow := rfl
@[simp] theorem Port.dropEntries_phase (p : Port) (n : SlotNo) : (p.dropEntries n).phase = p.phase := rfl
@[simp] theorem Port.dropEntries_lastWarm (p : Port) (n : SlotNo) : (p.dropEntries n).lastWarm = p.lastWarm := rfl
@[simp] theorem Port.dropEntries_uncorrected (p : Port) (n : SlotNo) : (p.dropEntries n).uncorrected = p.uncorrected := rfl
@[simp] theorem Port.dropEntries_corrected (p : Port) (n : SlotNo) : (p.dropEntries n).corrected = p.corrected := rfl
@[simp] theorem Port.dropEntries_attnEn (p : Port) (n : SlotNo) : (p.dropEntries n).attnEn = p.attnEn := rfl
@[simp] theorem Port.dropEntries_mem (p : Port) (n : SlotNo) : (p.dropEntries n).mem = p.mem := rfl
@[simp] theorem Port.dropEntries_ecc (p : Port) (n : SlotNo) : (p.dropEntries n).ecc = p.ecc := rfl
@[simp] theorem Port.dropEntries_guard (p : Port) (n : SlotNo) : (p.dropEntries n).guard = p.guard.filter fun e => e.slot ≠ n := rfl
@[simp] theorem Port.dropEntries_notices (p : Port) (n : SlotNo) : (p.dropEntries n).notices = p.notices := rfl
@[simp] theorem Port.dropEntries_readData (p : Port) (n : SlotNo) : (p.dropEntries n).readData = p.readData := rfl

@[simp] theorem Port.clearErrors_resetLow (p : Port) : (p.clearErrors).resetLow = p.resetLow := rfl
@[simp] theorem Port.clearErrors_phase (p : Port) : (p.clearErrors).phase = p.phase := rfl
@[simp] theorem Port.clearErrors_lastWarm (p : Port) : (p.clearErrors).lastWarm = p.lastWarm := rfl
@[simp] theorem Port.clearErrors_uncorrected (p : Port) : (p.clearErrors).uncorrected = false := rfl
@[simp] theorem Port.clearErrors_corrected (p : Port) : (p.clearErrors).corrected = 0 := rfl
@[simp] theorem Port.clearErrors_attnEn (p : Port) : (p.clearErrors).attnEn = p.attnEn := rfl
@[simp] theorem Port.clearErrors_mem (p : Port) : (p.clearErrors).mem = p.mem := rfl
@[simp] theorem Port.clearErrors_ecc (p : Port) : (p.clearErrors).ecc = p.ecc := rfl
@[simp] theorem Port.clearErrors_guard (p : Port) : (p.clearErrors).guard = p.guard := rfl
@[simp] theorem Port.clearErrors_notices (p : Port) : (p.clearErrors).notices = p.notices := rfl
@[simp] theorem Port.clearErrors_readData (p : Port) : (p.clearErrors).readData = p.readData := rfl

@[simp] theorem Port.placeRecord_resetLow (p : Port) (l : RecList) (ws : List Word) : (p.placeRecord l ws).resetLow = p.resetLow := rfl
@[simp] theorem Port.placeRecord_phase (p : Port) (l : RecList) (ws : List Word) : (p.placeRecord l ws).phase = p.phase := rfl
@[simp] theorem Port.placeRecord_lastWarm (p : Port) (l : RecList) (ws : List Word) : (p.placeRecord l ws).lastWarm = p.lastWarm := rfl
@[simp] theorem Port.placeRecord_uncorrected (p : Port) (l : RecList) (ws : List Word) : (p.placeRecord l ws).uncorrected = p.uncorrected := rfl
@[simp] theorem Port.placeRecord_corrected (p : Port) (l : RecList) (ws : List Word) : (p.placeRecord l ws).corrected = p.corrected := rfl
@[simp] theorem Port.placeRecord_attnEn (p : Port) (l : RecList) (ws : List Word) : (p.placeRecord l ws).attnEn = p.attnEn := rfl
@[simp] theorem Port.placeRecord_guard (p : Port) (l : RecList) (ws : List Word) : (p.placeRecord l ws).guard = p.guard := rfl
@[simp] theorem Port.placeRecord_notices (p : Port) (l : RecList) (ws : List Word) : (p.placeRecord l ws).notices = p.notices := rfl
@[simp] theorem Port.placeRecord_readData (p : Port) (l : RecList) (ws : List Word) : (p.placeRecord l ws).readData = p.readData := rfl

@[simp] theorem Port.prepareLists_resetLow (p : Port) (o : CaptureOrder) : (p.prepareLists o).resetLow = p.resetLow := rfl
@[simp] theorem Port.prepareLists_phase (p : Port) (o : CaptureOrder) : (p.prepareLists o).phase = p.phase := rfl
@[simp] theorem Port.prepareLists_lastWarm (p : Port) (o : CaptureOrder) : (p.prepareLists o).lastWarm = p.lastWarm := rfl
@[simp] theorem Port.prepareLists_uncorrected (p : Port) (o : CaptureOrder) : (p.prepareLists o).uncorrected = p.uncorrected := rfl
@[simp] theorem Port.prepareLists_corrected (p : Port) (o : CaptureOrder) : (p.prepareLists o).corrected = p.corrected := rfl
@[simp] theorem Port.prepareLists_attnEn (p : Port) (o : CaptureOrder) : (p.prepareLists o).attnEn = p.attnEn := rfl
@[simp] theorem Port.prepareLists_guard (p : Port) (o : CaptureOrder) : (p.prepareLists o).guard = p.guard := rfl
@[simp] theorem Port.prepareLists_notices (p : Port) (o : CaptureOrder) : (p.prepareLists o).notices = p.notices := rfl
@[simp] theorem Port.prepareLists_readData (p : Port) (o : CaptureOrder) : (p.prepareLists o).readData = p.readData := rfl

/-! ## The order unit -/

@[simp] theorem OrderUnit.setSlot_slots (o : OrderUnit) (n : SlotNo) (r : SlotRec) : (o.setSlot n r).slots = setAt o.slots n r := rfl
@[simp] theorem OrderUnit.setSlot_summary (o : OrderUnit) (n : SlotNo) (r : SlotRec) : (o.setSlot n r).summary = o.summary := rfl
@[simp] theorem OrderUnit.setSlot_posting (o : OrderUnit) (n : SlotNo) (r : SlotRec) : (o.setSlot n r).posting = o.posting := rfl
@[simp] theorem OrderUnit.setSlot_named (o : OrderUnit) (n : SlotNo) (r : SlotRec) : (o.setSlot n r).named = o.named := rfl
@[simp] theorem OrderUnit.setSlot_runQueue (o : OrderUnit) (n : SlotNo) (r : SlotRec) : (o.setSlot n r).runQueue = o.runQueue := rfl
@[simp] theorem OrderUnit.setSlot_taking (o : OrderUnit) (n : SlotNo) (r : SlotRec) : (o.setSlot n r).taking = o.taking := rfl
@[simp] theorem OrderUnit.setSlot_ends (o : OrderUnit) (n : SlotNo) (r : SlotRec) : (o.setSlot n r).ends = o.ends := rfl
@[simp] theorem OrderUnit.setSlot_pendingTransport (o : OrderUnit) (n : SlotNo) (r : SlotRec) : (o.setSlot n r).pendingTransport = o.pendingTransport := rfl
@[simp] theorem OrderUnit.setSlot_reachedTransport (o : OrderUnit) (n : SlotNo) (r : SlotRec) : (o.setSlot n r).reachedTransport = o.reachedTransport := rfl
@[simp] theorem OrderUnit.setSlot_resetDone (o : OrderUnit) (n : SlotNo) (r : SlotRec) : (o.setSlot n r).resetDone = o.resetDone := rfl

@[simp] theorem OrderUnit.setState_slots (o : OrderUnit) (n : SlotNo) (st : SlotState) : (o.setState n st).slots = setAt o.slots n { o.slot n with state := st } := rfl
@[simp] theorem OrderUnit.setState_summary (o : OrderUnit) (n : SlotNo) (st : SlotState) : (o.setState n st).summary = o.summary := rfl
@[simp] theorem OrderUnit.setState_posting (o : OrderUnit) (n : SlotNo) (st : SlotState) : (o.setState n st).posting = o.posting := rfl
@[simp] theorem OrderUnit.setState_named (o : OrderUnit) (n : SlotNo) (st : SlotState) : (o.setState n st).named = o.named := rfl
@[simp] theorem OrderUnit.setState_runQueue (o : OrderUnit) (n : SlotNo) (st : SlotState) : (o.setState n st).runQueue = o.runQueue := rfl
@[simp] theorem OrderUnit.setState_taking (o : OrderUnit) (n : SlotNo) (st : SlotState) : (o.setState n st).taking = o.taking := rfl
@[simp] theorem OrderUnit.setState_ends (o : OrderUnit) (n : SlotNo) (st : SlotState) : (o.setState n st).ends = o.ends := rfl
@[simp] theorem OrderUnit.setState_pendingTransport (o : OrderUnit) (n : SlotNo) (st : SlotState) : (o.setState n st).pendingTransport = o.pendingTransport := rfl
@[simp] theorem OrderUnit.setState_reachedTransport (o : OrderUnit) (n : SlotNo) (st : SlotState) : (o.setState n st).reachedTransport = o.reachedTransport := rfl
@[simp] theorem OrderUnit.setState_resetDone (o : OrderUnit) (n : SlotNo) (st : SlotState) : (o.setState n st).resetDone = o.resetDone := rfl

@[simp] theorem OrderUnit.post_slots (o : OrderUnit) (n : SlotNo) : (o.post n).slots = (o.setState n .posted).slots := rfl
@[simp] theorem OrderUnit.post_summary (o : OrderUnit) (n : SlotNo) : (o.post n).summary = o.summary := rfl
@[simp] theorem OrderUnit.post_posting (o : OrderUnit) (n : SlotNo) : (o.post n).posting = o.posting ++ [n] := rfl
@[simp] theorem OrderUnit.post_named (o : OrderUnit) (n : SlotNo) : (o.post n).named = o.named := rfl
@[simp] theorem OrderUnit.post_runQueue (o : OrderUnit) (n : SlotNo) : (o.post n).runQueue = o.runQueue := rfl
@[simp] theorem OrderUnit.post_taking (o : OrderUnit) (n : SlotNo) : (o.post n).taking = o.taking := rfl
@[simp] theorem OrderUnit.post_ends (o : OrderUnit) (n : SlotNo) : (o.post n).ends = o.ends := rfl
@[simp] theorem OrderUnit.post_pendingTransport (o : OrderUnit) (n : SlotNo) : (o.post n).pendingTransport = o.pendingTransport := rfl
@[simp] theorem OrderUnit.post_reachedTransport (o : OrderUnit) (n : SlotNo) : (o.post n).reachedTransport = o.reachedTransport := rfl
@[simp] theorem OrderUnit.post_resetDone (o : OrderUnit) (n : SlotNo) : (o.post n).resetDone = o.resetDone := rfl

@[simp] theorem OrderUnit.withdraw_slots (o : OrderUnit) (n : SlotNo) : (o.withdraw n).slots = (o.setState n .free).slots := rfl
@[simp] theorem OrderUnit.withdraw_summary (o : OrderUnit) (n : SlotNo) : (o.withdraw n).summary = o.summary := rfl
@[simp] theorem OrderUnit.withdraw_posting (o : OrderUnit) (n : SlotNo) : (o.withdraw n).posting = o.posting.filter fun m => decide (m ≠ n) := rfl
@[simp] theorem OrderUnit.withdraw_named (o : OrderUnit) (n : SlotNo) : (o.withdraw n).named = if o.taking = none ∧ o.posting.head? = some n then n :: o.named.filter (fun m => decide (m ≠ n)) else o.named := rfl
@[simp] theorem OrderUnit.withdraw_runQueue (o : OrderUnit) (n : SlotNo) : (o.withdraw n).runQueue = o.runQueue := rfl
@[simp] theorem OrderUnit.withdraw_taking (o : OrderUnit) (n : SlotNo) : (o.withdraw n).taking = o.taking := rfl
@[simp] theorem OrderUnit.withdraw_ends (o : OrderUnit) (n : SlotNo) : (o.withdraw n).ends = o.ends := rfl
@[simp] theorem OrderUnit.withdraw_pendingTransport (o : OrderUnit) (n : SlotNo) : (o.withdraw n).pendingTransport = o.pendingTransport := rfl
@[simp] theorem OrderUnit.withdraw_reachedTransport (o : OrderUnit) (n : SlotNo) : (o.withdraw n).reachedTransport = o.reachedTransport := rfl
@[simp] theorem OrderUnit.withdraw_resetDone (o : OrderUnit) (n : SlotNo) : (o.withdraw n).resetDone = o.resetDone := rfl

@[simp] theorem OrderUnit.take_slots (o : OrderUnit) (n : SlotNo) : (o.take n).slots = (o.setState n .taken).slots := rfl
@[simp] theorem OrderUnit.take_summary (o : OrderUnit) (n : SlotNo) : (o.take n).summary = o.summary := rfl
@[simp] theorem OrderUnit.take_posting (o : OrderUnit) (n : SlotNo) : (o.take n).posting = o.posting.filter fun m => decide (m ≠ n) := rfl
@[simp] theorem OrderUnit.take_named (o : OrderUnit) (n : SlotNo) : (o.take n).named = [] := rfl
@[simp] theorem OrderUnit.take_runQueue (o : OrderUnit) (n : SlotNo) : (o.take n).runQueue = o.runQueue := rfl
@[simp] theorem OrderUnit.take_taking (o : OrderUnit) (n : SlotNo) : (o.take n).taking = o.taking := rfl
@[simp] theorem OrderUnit.take_ends (o : OrderUnit) (n : SlotNo) : (o.take n).ends = o.ends := rfl
@[simp] theorem OrderUnit.take_pendingTransport (o : OrderUnit) (n : SlotNo) : (o.take n).pendingTransport = o.pendingTransport := rfl
@[simp] theorem OrderUnit.take_reachedTransport (o : OrderUnit) (n : SlotNo) : (o.take n).reachedTransport = o.reachedTransport := rfl
@[simp] theorem OrderUnit.take_resetDone (o : OrderUnit) (n : SlotNo) : (o.take n).resetDone = o.resetDone := rfl
@[simp] theorem Hub.copyTaken_port (h : Hub) (n : SlotNo) : (h.copyTaken n).port = (h.port.copyOrder n).2.2 := rfl
@[simp] theorem Hub.copyTaken_slots (h : Hub) (n : SlotNo) : (h.copyTaken n).orders.slots =
    setAt h.orders.slots n { h.orders.slot n with mask := (h.port.copyOrder n).1 } := rfl
@[simp] theorem Hub.copyTaken_summary (h : Hub) (n : SlotNo) : (h.copyTaken n).orders.summary = h.orders.summary := rfl
@[simp] theorem Hub.copyTaken_posting (h : Hub) (n : SlotNo) : (h.copyTaken n).orders.posting = h.orders.posting := rfl
@[simp] theorem Hub.copyTaken_named (h : Hub) (n : SlotNo) : (h.copyTaken n).orders.named = h.orders.named := rfl
@[simp] theorem Hub.copyTaken_runQueue (h : Hub) (n : SlotNo) : (h.copyTaken n).orders.runQueue = h.orders.runQueue := rfl
@[simp] theorem Hub.copyTaken_taking (h : Hub) (n : SlotNo) :
    (h.copyTaken n).orders.taking = some ⟨n, (h.port.copyOrder n).2.1⟩ := rfl
@[simp] theorem Hub.copyTaken_ends (h : Hub) (n : SlotNo) : (h.copyTaken n).orders.ends = h.orders.ends := rfl
@[simp] theorem Hub.copyTaken_pendingTransport (h : Hub) (n : SlotNo) :
    (h.copyTaken n).orders.pendingTransport = h.orders.pendingTransport := rfl
@[simp] theorem Hub.copyTaken_reachedTransport (h : Hub) (n : SlotNo) :
    (h.copyTaken n).orders.reachedTransport = h.orders.reachedTransport := rfl
@[simp] theorem Hub.copyTaken_resetDone (h : Hub) (n : SlotNo) : (h.copyTaken n).orders.resetDone = h.orders.resetDone := rfl

@[simp] theorem OrderUnit.release_slots (o : OrderUnit) (n : SlotNo) : (o.release n).slots = (o.setSlot n { o.slot n with state := .free, news := 0 }).slots := rfl
@[simp] theorem OrderUnit.release_summary (o : OrderUnit) (n : SlotNo) : (o.release n).summary = o.summary &&& ~~~ slotMask n := rfl
@[simp] theorem OrderUnit.release_posting (o : OrderUnit) (n : SlotNo) : (o.release n).posting = o.posting := rfl
@[simp] theorem OrderUnit.release_named (o : OrderUnit) (n : SlotNo) : (o.release n).named = o.named := rfl
@[simp] theorem OrderUnit.release_runQueue (o : OrderUnit) (n : SlotNo) : (o.release n).runQueue = o.runQueue := rfl
@[simp] theorem OrderUnit.release_taking (o : OrderUnit) (n : SlotNo) : (o.release n).taking = o.taking := rfl
@[simp] theorem OrderUnit.release_ends (o : OrderUnit) (n : SlotNo) : (o.release n).ends = o.ends := rfl
@[simp] theorem OrderUnit.release_pendingTransport (o : OrderUnit) (n : SlotNo) : (o.release n).pendingTransport = o.pendingTransport := rfl
@[simp] theorem OrderUnit.release_reachedTransport (o : OrderUnit) (n : SlotNo) : (o.release n).reachedTransport = o.reachedTransport := rfl
@[simp] theorem OrderUnit.release_resetDone (o : OrderUnit) (n : SlotNo) : (o.release n).resetDone = o.resetDone := rfl

@[simp] theorem OrderUnit.clearNews_slots (o : OrderUnit) (n : SlotNo) (v : Word) : (o.clearNews n v).slots = (o.setSlot n { o.slot n with news := (o.slot n).news &&& ~~~ v.setWidth 13 }).slots := rfl
@[simp] theorem OrderUnit.clearNews_summary (o : OrderUnit) (n : SlotNo) (v : Word) : (o.clearNews n v).summary = o.summary := rfl
@[simp] theorem OrderUnit.clearNews_posting (o : OrderUnit) (n : SlotNo) (v : Word) : (o.clearNews n v).posting = o.posting := rfl
@[simp] theorem OrderUnit.clearNews_named (o : OrderUnit) (n : SlotNo) (v : Word) : (o.clearNews n v).named = o.named := rfl
@[simp] theorem OrderUnit.clearNews_runQueue (o : OrderUnit) (n : SlotNo) (v : Word) : (o.clearNews n v).runQueue = o.runQueue := rfl
@[simp] theorem OrderUnit.clearNews_taking (o : OrderUnit) (n : SlotNo) (v : Word) : (o.clearNews n v).taking = o.taking := rfl
@[simp] theorem OrderUnit.clearNews_ends (o : OrderUnit) (n : SlotNo) (v : Word) : (o.clearNews n v).ends = o.ends := rfl
@[simp] theorem OrderUnit.clearNews_pendingTransport (o : OrderUnit) (n : SlotNo) (v : Word) : (o.clearNews n v).pendingTransport = o.pendingTransport := rfl
@[simp] theorem OrderUnit.clearNews_reachedTransport (o : OrderUnit) (n : SlotNo) (v : Word) : (o.clearNews n v).reachedTransport = o.reachedTransport := rfl
@[simp] theorem OrderUnit.clearNews_resetDone (o : OrderUnit) (n : SlotNo) (v : Word) : (o.clearNews n v).resetDone = o.resetDone := rfl

@[simp] theorem OrderUnit.clearSummary_slots (o : OrderUnit) (v : Word) : (o.clearSummary v).slots = o.slots := rfl
@[simp] theorem OrderUnit.clearSummary_summary (o : OrderUnit) (v : Word) : (o.clearSummary v).summary = o.summary &&& ~~~ v := rfl
@[simp] theorem OrderUnit.clearSummary_posting (o : OrderUnit) (v : Word) : (o.clearSummary v).posting = o.posting := rfl
@[simp] theorem OrderUnit.clearSummary_named (o : OrderUnit) (v : Word) : (o.clearSummary v).named = o.named := rfl
@[simp] theorem OrderUnit.clearSummary_runQueue (o : OrderUnit) (v : Word) : (o.clearSummary v).runQueue = o.runQueue := rfl
@[simp] theorem OrderUnit.clearSummary_taking (o : OrderUnit) (v : Word) : (o.clearSummary v).taking = o.taking := rfl
@[simp] theorem OrderUnit.clearSummary_ends (o : OrderUnit) (v : Word) : (o.clearSummary v).ends = o.ends := rfl
@[simp] theorem OrderUnit.clearSummary_pendingTransport (o : OrderUnit) (v : Word) : (o.clearSummary v).pendingTransport = o.pendingTransport := rfl
@[simp] theorem OrderUnit.clearSummary_reachedTransport (o : OrderUnit) (v : Word) : (o.clearSummary v).reachedTransport = o.reachedTransport := rfl
@[simp] theorem OrderUnit.clearSummary_resetDone (o : OrderUnit) (v : Word) : (o.clearSummary v).resetDone = o.resetDone := rfl

@[simp] theorem OrderUnit.startHead_slots (o : OrderUnit) (n : SlotNo) (rest : List (SlotNo × StreamOrder)) : (o.startHead n rest).slots = (o.setState n .running).slots := rfl
@[simp] theorem OrderUnit.startHead_summary (o : OrderUnit) (n : SlotNo) (rest : List (SlotNo × StreamOrder)) : (o.startHead n rest).summary = o.summary := rfl
@[simp] theorem OrderUnit.startHead_posting (o : OrderUnit) (n : SlotNo) (rest : List (SlotNo × StreamOrder)) : (o.startHead n rest).posting = o.posting := rfl
@[simp] theorem OrderUnit.startHead_named (o : OrderUnit) (n : SlotNo) (rest : List (SlotNo × StreamOrder)) : (o.startHead n rest).named = o.named := rfl
@[simp] theorem OrderUnit.startHead_runQueue (o : OrderUnit) (n : SlotNo) (rest : List (SlotNo × StreamOrder)) : (o.startHead n rest).runQueue = rest := rfl
@[simp] theorem OrderUnit.startHead_taking (o : OrderUnit) (n : SlotNo) (rest : List (SlotNo × StreamOrder)) : (o.startHead n rest).taking = o.taking := rfl
@[simp] theorem OrderUnit.startHead_ends (o : OrderUnit) (n : SlotNo) (rest : List (SlotNo × StreamOrder)) : (o.startHead n rest).ends = o.ends := rfl
@[simp] theorem OrderUnit.startHead_pendingTransport (o : OrderUnit) (n : SlotNo) (rest : List (SlotNo × StreamOrder)) : (o.startHead n rest).pendingTransport = o.pendingTransport := rfl
@[simp] theorem OrderUnit.startHead_reachedTransport (o : OrderUnit) (n : SlotNo) (rest : List (SlotNo × StreamOrder)) : (o.startHead n rest).reachedTransport = o.reachedTransport := rfl
@[simp] theorem OrderUnit.startHead_resetDone (o : OrderUnit) (n : SlotNo) (rest : List (SlotNo × StreamOrder)) : (o.startHead n rest).resetDone = o.resetDone := rfl

@[simp] theorem OrderUnit.refuseHead_slots (o : OrderUnit) (n : SlotNo) (rest : List (SlotNo × StreamOrder)) : (o.refuseHead n rest).slots = o.slots := rfl
@[simp] theorem OrderUnit.refuseHead_summary (o : OrderUnit) (n : SlotNo) (rest : List (SlotNo × StreamOrder)) : (o.refuseHead n rest).summary = o.summary := rfl
@[simp] theorem OrderUnit.refuseHead_posting (o : OrderUnit) (n : SlotNo) (rest : List (SlotNo × StreamOrder)) : (o.refuseHead n rest).posting = o.posting := rfl
@[simp] theorem OrderUnit.refuseHead_named (o : OrderUnit) (n : SlotNo) (rest : List (SlotNo × StreamOrder)) : (o.refuseHead n rest).named = o.named := rfl
@[simp] theorem OrderUnit.refuseHead_runQueue (o : OrderUnit) (n : SlotNo) (rest : List (SlotNo × StreamOrder)) : (o.refuseHead n rest).runQueue = rest := rfl
@[simp] theorem OrderUnit.refuseHead_taking (o : OrderUnit) (n : SlotNo) (rest : List (SlotNo × StreamOrder)) : (o.refuseHead n rest).taking = o.taking := rfl
@[simp] theorem OrderUnit.refuseHead_ends (o : OrderUnit) (n : SlotNo) (rest : List (SlotNo × StreamOrder)) : (o.refuseHead n rest).ends = o.ends ++ [⟨n, .refused, .badProfile, false⟩] := rfl
@[simp] theorem OrderUnit.refuseHead_pendingTransport (o : OrderUnit) (n : SlotNo) (rest : List (SlotNo × StreamOrder)) : (o.refuseHead n rest).pendingTransport = o.pendingTransport := rfl
@[simp] theorem OrderUnit.refuseHead_reachedTransport (o : OrderUnit) (n : SlotNo) (rest : List (SlotNo × StreamOrder)) : (o.refuseHead n rest).reachedTransport = o.reachedTransport := rfl
@[simp] theorem OrderUnit.refuseHead_resetDone (o : OrderUnit) (n : SlotNo) (rest : List (SlotNo × StreamOrder)) : (o.refuseHead n rest).resetDone = o.resetDone := rfl

@[simp] theorem OrderUnit.enqueue_slots (o : OrderUnit) (n : SlotNo) (k : StreamOrder) : (o.enqueue n k).slots = o.slots := rfl
@[simp] theorem OrderUnit.enqueue_summary (o : OrderUnit) (n : SlotNo) (k : StreamOrder) : (o.enqueue n k).summary = o.summary := rfl
@[simp] theorem OrderUnit.enqueue_posting (o : OrderUnit) (n : SlotNo) (k : StreamOrder) : (o.enqueue n k).posting = o.posting := rfl
@[simp] theorem OrderUnit.enqueue_named (o : OrderUnit) (n : SlotNo) (k : StreamOrder) : (o.enqueue n k).named = o.named := rfl
@[simp] theorem OrderUnit.enqueue_runQueue (o : OrderUnit) (n : SlotNo) (k : StreamOrder) : (o.enqueue n k).runQueue = o.runQueue ++ [(n, k)] := rfl
@[simp] theorem OrderUnit.enqueue_taking (o : OrderUnit) (n : SlotNo) (k : StreamOrder) : (o.enqueue n k).taking = o.taking := rfl
@[simp] theorem OrderUnit.enqueue_ends (o : OrderUnit) (n : SlotNo) (k : StreamOrder) : (o.enqueue n k).ends = o.ends := rfl
@[simp] theorem OrderUnit.enqueue_pendingTransport (o : OrderUnit) (n : SlotNo) (k : StreamOrder) : (o.enqueue n k).pendingTransport = o.pendingTransport := rfl
@[simp] theorem OrderUnit.enqueue_reachedTransport (o : OrderUnit) (n : SlotNo) (k : StreamOrder) : (o.enqueue n k).reachedTransport = o.reachedTransport := rfl
@[simp] theorem OrderUnit.enqueue_resetDone (o : OrderUnit) (n : SlotNo) (k : StreamOrder) : (o.enqueue n k).resetDone = o.resetDone := rfl

@[simp] theorem OrderUnit.setLive_slots (o : OrderUnit) (n : SlotNo) (k : Kind) : (o.setLive n k).slots = (o.setSlot n { o.slot n with live := some k }).slots := rfl
@[simp] theorem OrderUnit.setLive_summary (o : OrderUnit) (n : SlotNo) (k : Kind) : (o.setLive n k).summary = o.summary := rfl
@[simp] theorem OrderUnit.setLive_posting (o : OrderUnit) (n : SlotNo) (k : Kind) : (o.setLive n k).posting = o.posting := rfl
@[simp] theorem OrderUnit.setLive_named (o : OrderUnit) (n : SlotNo) (k : Kind) : (o.setLive n k).named = o.named := rfl
@[simp] theorem OrderUnit.setLive_runQueue (o : OrderUnit) (n : SlotNo) (k : Kind) : (o.setLive n k).runQueue = o.runQueue := rfl
@[simp] theorem OrderUnit.setLive_taking (o : OrderUnit) (n : SlotNo) (k : Kind) : (o.setLive n k).taking = o.taking := rfl
@[simp] theorem OrderUnit.setLive_ends (o : OrderUnit) (n : SlotNo) (k : Kind) : (o.setLive n k).ends = o.ends := rfl
@[simp] theorem OrderUnit.setLive_pendingTransport (o : OrderUnit) (n : SlotNo) (k : Kind) : (o.setLive n k).pendingTransport = o.pendingTransport := rfl
@[simp] theorem OrderUnit.setLive_reachedTransport (o : OrderUnit) (n : SlotNo) (k : Kind) : (o.setLive n k).reachedTransport = o.reachedTransport := rfl
@[simp] theorem OrderUnit.setLive_resetDone (o : OrderUnit) (n : SlotNo) (k : Kind) : (o.setLive n k).resetDone = o.resetDone := rfl

@[simp] theorem OrderUnit.rebuild_slots (o : OrderUnit) : (o.rebuild).slots = o.slots := rfl
@[simp] theorem OrderUnit.rebuild_summary (o : OrderUnit) : (o.rebuild).summary = o.summary := rfl
@[simp] theorem OrderUnit.rebuild_posting (o : OrderUnit) : (o.rebuild).posting = slotNos.filter fun n => decide ((o.slot n).state = .posted) := rfl
@[simp] theorem OrderUnit.rebuild_named (o : OrderUnit) : (o.rebuild).named = [] := rfl
@[simp] theorem OrderUnit.rebuild_runQueue (o : OrderUnit) : (o.rebuild).runQueue = [] := rfl
@[simp] theorem OrderUnit.rebuild_taking (o : OrderUnit) : (o.rebuild).taking = none := rfl
@[simp] theorem OrderUnit.rebuild_ends (o : OrderUnit) : (o.rebuild).ends = [] := rfl
@[simp] theorem OrderUnit.rebuild_pendingTransport (o : OrderUnit) : (o.rebuild).pendingTransport = none := rfl
@[simp] theorem OrderUnit.rebuild_reachedTransport (o : OrderUnit) : (o.rebuild).reachedTransport = none := rfl
@[simp] theorem OrderUnit.rebuild_resetDone (o : OrderUnit) : (o.rebuild).resetDone = true := rfl

/-! ## Port and order unit -/

@[simp] theorem Hub.slotWrite_port (h : Hub) (n : SlotNo) (off : Nat) (w : Word) : (h.slotWrite n off w).port = h.port.store (slotBase n + off) w := rfl
@[simp] theorem Hub.slotWrite_orders (h : Hub) (n : SlotNo) (off : Nat) (w : Word) : (h.slotWrite n off w).orders = h.orders := rfl

@[simp] theorem Hub.news_port (h : Hub) (n : SlotNo) (c : Cause) : (h.news n c).port = h.port := rfl
@[simp] theorem Hub.news_orders (h : Hub) (n : SlotNo) (c : Cause) : (h.news n c).orders = h.orders.setNews n c := rfl

@[simp] theorem Hub.report_port (h : Hub) (n : SlotNo) (out : OrderOutcome) (own : Bool) : (h.report n out own).port = h.port := rfl
@[simp] theorem Hub.report_orders (h : Hub) (n : SlotNo) (out : OrderOutcome) (own : Bool) : (h.report n out own).orders = { h.orders with ends := h.orders.ends ++ [⟨n, out, .none, own⟩] } := rfl

/-! ## A running capture -/

@[simp] theorem Cx.setControl_hub (c : Cx) (k : Control) : (c.setControl k).hub = c.hub := rfl
@[simp] theorem Cx.setControl_slot (c : Cx) (k : Control) : (c.setControl k).cap.slot = c.cap.slot := rfl
@[simp] theorem Cx.setControl_params (c : Cx) (k : Control) : (c.setControl k).cap.params = c.cap.params := rfl
@[simp] theorem Cx.setControl_control (c : Cx) (k : Control) : (c.setControl k).cap.control = k := rfl
@[simp] theorem Cx.setControl_monitor (c : Cx) (k : Control) : (c.setControl k).cap.monitor = c.cap.monitor := rfl
@[simp] theorem Cx.setControl_skew (c : Cx) (k : Control) : (c.setControl k).cap.skew = c.cap.skew := rfl
@[simp] theorem Cx.setControl_speed (c : Cx) (k : Control) : (c.setControl k).cap.speed = c.cap.speed := rfl
@[simp] theorem Cx.setControl_resamplers (c : Cx) (k : Control) : (c.setControl k).cap.resamplers = c.cap.resamplers := rfl
@[simp] theorem Cx.setControl_writer (c : Cx) (k : Control) : (c.setControl k).cap.writer = c.cap.writer := rfl

@[simp] theorem Cx.setWriter_hub (c : Cx) (w : Writer) : (c.setWriter w).hub = c.hub := rfl
@[simp] theorem Cx.setWriter_slot (c : Cx) (w : Writer) : (c.setWriter w).cap.slot = c.cap.slot := rfl
@[simp] theorem Cx.setWriter_params (c : Cx) (w : Writer) : (c.setWriter w).cap.params = c.cap.params := rfl
@[simp] theorem Cx.setWriter_control (c : Cx) (w : Writer) : (c.setWriter w).cap.control = c.cap.control := rfl
@[simp] theorem Cx.setWriter_monitor (c : Cx) (w : Writer) : (c.setWriter w).cap.monitor = c.cap.monitor := rfl
@[simp] theorem Cx.setWriter_skew (c : Cx) (w : Writer) : (c.setWriter w).cap.skew = c.cap.skew := rfl
@[simp] theorem Cx.setWriter_speed (c : Cx) (w : Writer) : (c.setWriter w).cap.speed = c.cap.speed := rfl
@[simp] theorem Cx.setWriter_resamplers (c : Cx) (w : Writer) : (c.setWriter w).cap.resamplers = c.cap.resamplers := rfl
@[simp] theorem Cx.setWriter_writer (c : Cx) (w : Writer) : (c.setWriter w).cap.writer = w := rfl

@[simp] theorem Cx.mapControl_hub (c : Cx) (f : Control → Control) : (c.mapControl f).hub = c.hub := rfl
@[simp] theorem Cx.mapControl_slot (c : Cx) (f : Control → Control) : (c.mapControl f).cap.slot = c.cap.slot := rfl
@[simp] theorem Cx.mapControl_params (c : Cx) (f : Control → Control) : (c.mapControl f).cap.params = c.cap.params := rfl
@[simp] theorem Cx.mapControl_control (c : Cx) (f : Control → Control) : (c.mapControl f).cap.control = f c.cap.control := rfl
@[simp] theorem Cx.mapControl_monitor (c : Cx) (f : Control → Control) : (c.mapControl f).cap.monitor = c.cap.monitor := rfl
@[simp] theorem Cx.mapControl_skew (c : Cx) (f : Control → Control) : (c.mapControl f).cap.skew = c.cap.skew := rfl
@[simp] theorem Cx.mapControl_speed (c : Cx) (f : Control → Control) : (c.mapControl f).cap.speed = c.cap.speed := rfl
@[simp] theorem Cx.mapControl_resamplers (c : Cx) (f : Control → Control) : (c.mapControl f).cap.resamplers = c.cap.resamplers := rfl
@[simp] theorem Cx.mapControl_writer (c : Cx) (f : Control → Control) : (c.mapControl f).cap.writer = c.cap.writer := rfl

@[simp] theorem Cx.mapWriter_hub (c : Cx) (f : Writer → Writer) : (c.mapWriter f).hub = c.hub := rfl
@[simp] theorem Cx.mapWriter_slot (c : Cx) (f : Writer → Writer) : (c.mapWriter f).cap.slot = c.cap.slot := rfl
@[simp] theorem Cx.mapWriter_params (c : Cx) (f : Writer → Writer) : (c.mapWriter f).cap.params = c.cap.params := rfl
@[simp] theorem Cx.mapWriter_control (c : Cx) (f : Writer → Writer) : (c.mapWriter f).cap.control = c.cap.control := rfl
@[simp] theorem Cx.mapWriter_monitor (c : Cx) (f : Writer → Writer) : (c.mapWriter f).cap.monitor = c.cap.monitor := rfl
@[simp] theorem Cx.mapWriter_skew (c : Cx) (f : Writer → Writer) : (c.mapWriter f).cap.skew = c.cap.skew := rfl
@[simp] theorem Cx.mapWriter_speed (c : Cx) (f : Writer → Writer) : (c.mapWriter f).cap.speed = c.cap.speed := rfl
@[simp] theorem Cx.mapWriter_resamplers (c : Cx) (f : Writer → Writer) : (c.mapWriter f).cap.resamplers = c.cap.resamplers := rfl
@[simp] theorem Cx.mapWriter_writer (c : Cx) (f : Writer → Writer) : (c.mapWriter f).cap.writer = f c.cap.writer := rfl

@[simp] theorem Cx.mapMonitor_hub (c : Cx) (f : LaneMonitor → LaneMonitor) : (c.mapMonitor f).hub = c.hub := rfl
@[simp] theorem Cx.mapMonitor_slot (c : Cx) (f : LaneMonitor → LaneMonitor) : (c.mapMonitor f).cap.slot = c.cap.slot := rfl
@[simp] theorem Cx.mapMonitor_params (c : Cx) (f : LaneMonitor → LaneMonitor) : (c.mapMonitor f).cap.params = c.cap.params := rfl
@[simp] theorem Cx.mapMonitor_control (c : Cx) (f : LaneMonitor → LaneMonitor) : (c.mapMonitor f).cap.control = c.cap.control := rfl
@[simp] theorem Cx.mapMonitor_monitor (c : Cx) (f : LaneMonitor → LaneMonitor) : (c.mapMonitor f).cap.monitor = c.cap.monitor.map f := rfl
@[simp] theorem Cx.mapMonitor_skew (c : Cx) (f : LaneMonitor → LaneMonitor) : (c.mapMonitor f).cap.skew = c.cap.skew := rfl
@[simp] theorem Cx.mapMonitor_speed (c : Cx) (f : LaneMonitor → LaneMonitor) : (c.mapMonitor f).cap.speed = c.cap.speed := rfl
@[simp] theorem Cx.mapMonitor_resamplers (c : Cx) (f : LaneMonitor → LaneMonitor) : (c.mapMonitor f).cap.resamplers = c.cap.resamplers := rfl
@[simp] theorem Cx.mapMonitor_writer (c : Cx) (f : LaneMonitor → LaneMonitor) : (c.mapMonitor f).cap.writer = c.cap.writer := rfl

@[simp] theorem Cx.mapSpeed_hub (c : Cx) (f : SpeedUnit → SpeedUnit) : (c.mapSpeed f).hub = c.hub := rfl
@[simp] theorem Cx.mapSpeed_slot (c : Cx) (f : SpeedUnit → SpeedUnit) : (c.mapSpeed f).cap.slot = c.cap.slot := rfl
@[simp] theorem Cx.mapSpeed_params (c : Cx) (f : SpeedUnit → SpeedUnit) : (c.mapSpeed f).cap.params = c.cap.params := rfl
@[simp] theorem Cx.mapSpeed_control (c : Cx) (f : SpeedUnit → SpeedUnit) : (c.mapSpeed f).cap.control = c.cap.control := rfl
@[simp] theorem Cx.mapSpeed_monitor (c : Cx) (f : SpeedUnit → SpeedUnit) : (c.mapSpeed f).cap.monitor = c.cap.monitor := rfl
@[simp] theorem Cx.mapSpeed_skew (c : Cx) (f : SpeedUnit → SpeedUnit) : (c.mapSpeed f).cap.skew = c.cap.skew := rfl
@[simp] theorem Cx.mapSpeed_speed (c : Cx) (f : SpeedUnit → SpeedUnit) : (c.mapSpeed f).cap.speed = c.cap.speed.map f := rfl
@[simp] theorem Cx.mapSpeed_resamplers (c : Cx) (f : SpeedUnit → SpeedUnit) : (c.mapSpeed f).cap.resamplers = c.cap.resamplers := rfl
@[simp] theorem Cx.mapSpeed_writer (c : Cx) (f : SpeedUnit → SpeedUnit) : (c.mapSpeed f).cap.writer = c.cap.writer := rfl

@[simp] theorem Cx.progress_hub (c : Cx) (off : Nat) (w : Word) : (c.progress off w).hub = c.hub.slotWrite c.cap.slot off w := rfl
@[simp] theorem Cx.progress_slot (c : Cx) (off : Nat) (w : Word) : (c.progress off w).cap.slot = c.cap.slot := rfl
@[simp] theorem Cx.progress_params (c : Cx) (off : Nat) (w : Word) : (c.progress off w).cap.params = c.cap.params := rfl
@[simp] theorem Cx.progress_control (c : Cx) (off : Nat) (w : Word) : (c.progress off w).cap.control = c.cap.control := rfl
@[simp] theorem Cx.progress_monitor (c : Cx) (off : Nat) (w : Word) : (c.progress off w).cap.monitor = c.cap.monitor := rfl
@[simp] theorem Cx.progress_skew (c : Cx) (off : Nat) (w : Word) : (c.progress off w).cap.skew = c.cap.skew := rfl
@[simp] theorem Cx.progress_speed (c : Cx) (off : Nat) (w : Word) : (c.progress off w).cap.speed = c.cap.speed := rfl
@[simp] theorem Cx.progress_resamplers (c : Cx) (off : Nat) (w : Word) : (c.progress off w).cap.resamplers = c.cap.resamplers := rfl
@[simp] theorem Cx.progress_writer (c : Cx) (off : Nat) (w : Word) : (c.progress off w).cap.writer = c.cap.writer := rfl

@[simp] theorem Cx.news_hub (c : Cx) (k : Cause) : (c.news k).hub = c.hub.news c.cap.slot k := rfl
@[simp] theorem Cx.news_slot (c : Cx) (k : Cause) : (c.news k).cap.slot = c.cap.slot := rfl
@[simp] theorem Cx.news_params (c : Cx) (k : Cause) : (c.news k).cap.params = c.cap.params := rfl
@[simp] theorem Cx.news_control (c : Cx) (k : Cause) : (c.news k).cap.control = c.cap.control := rfl
@[simp] theorem Cx.news_monitor (c : Cx) (k : Cause) : (c.news k).cap.monitor = c.cap.monitor := rfl
@[simp] theorem Cx.news_skew (c : Cx) (k : Cause) : (c.news k).cap.skew = c.cap.skew := rfl
@[simp] theorem Cx.news_speed (c : Cx) (k : Cause) : (c.news k).cap.speed = c.cap.speed := rfl
@[simp] theorem Cx.news_resamplers (c : Cx) (k : Cause) : (c.news k).cap.resamplers = c.cap.resamplers := rfl
@[simp] theorem Cx.news_writer (c : Cx) (k : Cause) : (c.news k).cap.writer = c.cap.writer := rfl

@[simp] theorem Cx.setSource_hub (c : Cx) (g : Group) (r : Option SourceRun) : (c.setSource g r).hub = c.hub := rfl
@[simp] theorem Cx.setSource_slot (c : Cx) (g : Group) (r : Option SourceRun) : (c.setSource g r).cap.slot = c.cap.slot := rfl
@[simp] theorem Cx.setSource_params (c : Cx) (g : Group) (r : Option SourceRun) : (c.setSource g r).cap.params = c.cap.params := rfl
@[simp] theorem Cx.setSource_control (c : Cx) (g : Group) (r : Option SourceRun) : (c.setSource g r).cap.control = { c.cap.control with sources := c.cap.control.sources.put g r } := rfl
@[simp] theorem Cx.setSource_monitor (c : Cx) (g : Group) (r : Option SourceRun) : (c.setSource g r).cap.monitor = c.cap.monitor := rfl
@[simp] theorem Cx.setSource_skew (c : Cx) (g : Group) (r : Option SourceRun) : (c.setSource g r).cap.skew = c.cap.skew := rfl
@[simp] theorem Cx.setSource_speed (c : Cx) (g : Group) (r : Option SourceRun) : (c.setSource g r).cap.speed = c.cap.speed := rfl
@[simp] theorem Cx.setSource_resamplers (c : Cx) (g : Group) (r : Option SourceRun) : (c.setSource g r).cap.resamplers = c.cap.resamplers := rfl
@[simp] theorem Cx.setSource_writer (c : Cx) (g : Group) (r : Option SourceRun) : (c.setSource g r).cap.writer = c.cap.writer := rfl

@[simp] theorem Cx.endSource_hub (c : Cx) (g : Group) (r : SourceRun) (out : OrderOutcome) (own : Bool) : (c.endSource g r out own).hub = c.hub.report r.slot out own := rfl
@[simp] theorem Cx.endSource_slot (c : Cx) (g : Group) (r : SourceRun) (out : OrderOutcome) (own : Bool) : (c.endSource g r out own).cap.slot = c.cap.slot := rfl
@[simp] theorem Cx.endSource_params (c : Cx) (g : Group) (r : SourceRun) (out : OrderOutcome) (own : Bool) : (c.endSource g r out own).cap.params = c.cap.params := rfl
@[simp] theorem Cx.endSource_control (c : Cx) (g : Group) (r : SourceRun) (out : OrderOutcome) (own : Bool) : (c.endSource g r out own).cap.control = { c.cap.control with sources := c.cap.control.sources.put g none } := rfl
@[simp] theorem Cx.endSource_monitor (c : Cx) (g : Group) (r : SourceRun) (out : OrderOutcome) (own : Bool) : (c.endSource g r out own).cap.monitor = c.cap.monitor := rfl
@[simp] theorem Cx.endSource_skew (c : Cx) (g : Group) (r : SourceRun) (out : OrderOutcome) (own : Bool) : (c.endSource g r out own).cap.skew = c.cap.skew := rfl
@[simp] theorem Cx.endSource_speed (c : Cx) (g : Group) (r : SourceRun) (out : OrderOutcome) (own : Bool) : (c.endSource g r out own).cap.speed = c.cap.speed := rfl
@[simp] theorem Cx.endSource_resamplers (c : Cx) (g : Group) (r : SourceRun) (out : OrderOutcome) (own : Bool) : (c.endSource g r out own).cap.resamplers = c.cap.resamplers := rfl
@[simp] theorem Cx.endSource_writer (c : Cx) (g : Group) (r : SourceRun) (out : OrderOutcome) (own : Bool) : (c.endSource g r out own).cap.writer = c.cap.writer := rfl

/-! ## Slots by number -/

theorem getAt_setAt {α : Type} {n : Nat} (v : Vector α n) (i j : Fin n) (x : α) :
    getAt (setAt v i x) j = if j = i then x else getAt v j := by
  unfold getAt setAt
  rw [Vector.getElem_set]
  by_cases h : i.val = j.val
  · rw [if_pos h, if_pos (Fin.ext h.symm)]
  · rw [if_neg h, if_neg fun e => h (by rw [e])]

@[simp] theorem getAt_setAt_self {α : Type} {n : Nat} (v : Vector α n) (i : Fin n) (x : α) : getAt (setAt v i x) i = x := by
  simp [getAt_setAt]

theorem getAt_setAt_of_ne {α : Type} {n : Nat} (v : Vector α n) {i j : Fin n} (x : α) (h : j ≠ i) :
    getAt (setAt v i x) j = getAt v j := by
  simp [getAt_setAt, h]

@[simp] theorem OrderUnit.setSlot_slot_self (o : OrderUnit) (n : SlotNo) (r : SlotRec) : (o.setSlot n r).slot n = r :=
  getAt_setAt_self _ _ _

theorem OrderUnit.setSlot_slot (o : OrderUnit) (n m : SlotNo) (r : SlotRec) :
    (o.setSlot n r).slot m = if m = n then r else o.slot m := getAt_setAt _ _ _ _

theorem OrderUnit.setSlot_slot_of_ne (o : OrderUnit) {n m : SlotNo} (r : SlotRec) (h : m ≠ n) :
    (o.setSlot n r).slot m = o.slot m := getAt_setAt_of_ne _ _ h

@[simp] theorem OrderUnit.setState_slot_self (o : OrderUnit) (n : SlotNo) (st : SlotState) :
    (o.setState n st).slot n = { o.slot n with state := st } := getAt_setAt_self _ _ _

theorem OrderUnit.setState_slot_of_ne (o : OrderUnit) {n m : SlotNo} (st : SlotState) (h : m ≠ n) :
    (o.setState n st).slot m = o.slot m := getAt_setAt_of_ne _ _ h

@[simp] theorem PerGroup.get_put_self {α : Type} (p : PerGroup α) (g : Group) (x : α) : (p.put g x).get g = x := by
  cases g <;> rfl

theorem PerGroup.get_put_of_ne {α : Type} (p : PerGroup α) {g h : Group} (x : α) (e : h ≠ g) : (p.put g x).get h = p.get h := by
  cases g <;> cases h <;> first | rfl | exact absurd rfl e

end Sys2Proof.Machine
end

