-- ==== Sys2Proof/Laws/Ops.lean ====
section
/-! SUPPORT. The shared operations: for each one lemma that says what it can do, so that no proof unfolds it. -/

namespace Sys2Proof.Laws

open Machine

/-! ## Check bits -/

@[simp] theorem eccAt_clearEcc_self (l : List (Nat × EccMark)) (a : Nat) : eccAt (clearEcc l a) a = none := by
  induction l with
  | nil => rfl
  | cons c l ih =>
    unfold clearEcc
    split
    · exact ih
    · rename_i h; simp only [eccAt, if_neg h, ih]

theorem eccAt_clearEcc_of_ne (l : List (Nat × EccMark)) {a b : Nat} (h : b ≠ a) : eccAt (clearEcc l a) b = eccAt l b := by
  induction l with
  | nil => rfl
  | cons c l ih =>
    unfold clearEcc
    split
    · rename_i e
      have : b ≠ c.1 := fun x => h (x.trans e.symm)
      simp only [eccAt, if_neg this, ih]
    · simp only [eccAt, ih]

@[simp] theorem eccAt_markEcc_self (l : List (Nat × EccMark)) (a : Nat) (k : EccMark) : eccAt (markEcc l a k) a = some k := by
  induction l with
  | nil => simp [markEcc, eccAt]
  | cons c l ih =>
    unfold markEcc
    split
    · simp [eccAt]
    · split
      · simp [eccAt]
      · rename_i h; simp only [eccAt, if_neg h, ih]

theorem eccAt_markEcc_of_ne (l : List (Nat × EccMark)) {a b : Nat} (k : EccMark) (h : b ≠ a) :
    eccAt (markEcc l a k) b = eccAt l b := by
  induction l with
  | nil => simp [markEcc, eccAt, h]
  | cons c l ih =>
    unfold markEcc
    split
    · simp only [eccAt, if_neg h]
    · split
      · rename_i e
        have : b ≠ c.1 := fun x => h (x.trans e.symm)
        simp only [eccAt, if_neg h, if_neg this]
      · simp only [eccAt, ih]

theorem checkedRead_clean {p : Port} {a : Nat} (h : eccAt p.ecc a = none) : p.checkedRead a = (some (readMemWord p.mem a), p) := by
  simp only [Port.checkedRead, h]

theorem checkedRead_single {p : Port} {a : Nat} (h : eccAt p.ecc a = some .single) :
    p.checkedRead a = (some (readMemWord p.mem a), { p.countCorrection with ecc := clearEcc p.ecc a }) := by
  simp only [Port.checkedRead, h]

theorem checkedRead_uncorrectable {p : Port} {a : Nat} (h : eccAt p.ecc a = some .uncorrectable) :
    p.checkedRead a = (none, { p with uncorrected := true }) := by
  simp only [Port.checkedRead, h]

/-- A checked read changes the error record and the check bits of the word it reads, and nothing else. -/
theorem checkedRead_frame (p : Port) (a : Nat) :
    let q := (p.checkedRead a).2
    q = { p with ecc := q.ecc, corrected := q.corrected, uncorrected := q.uncorrected } := by
  unfold Port.checkedRead
  split <;> rfl

theorem readWords_frame (p : Port) (a n : Nat) :
    let q := (p.readWords a n).2
    q = { p with ecc := q.ecc, corrected := q.corrected, uncorrected := q.uncorrected } := by
  induction n generalizing p a with
  | zero => rfl
  | succ n ih =>
    unfold Port.readWords
    have h1 := checkedRead_frame p a
    split
    · rename_i p1 he; rw [he] at h1; exact h1
    · rename_i w p1 he
      rw [he] at h1
      have h2 := ih p1 (a + 4)
      split
      · rename_i p2 he2
        rw [he2] at h2
        dsimp only at h1 h2 ⊢
        rw [h2, h1]
      · rename_i ws p2 he2
        rw [he2] at h2
        dsimp only at h1 h2 ⊢
        rw [h2, h1]

/-- Words that are all clean are read without a change (R27). -/
theorem readWords_clean {p : Port} {a n : Nat} (h : ∀ i < n, eccAt p.ecc (a + 4 * i) = none) :
    p.readWords a n = (some ((List.range n).map fun i => readMemWord p.mem (a + 4 * i)), p) := by
  induction n generalizing a with
  | zero => rfl
  | succ n ih =>
    have h0 := h 0 (by omega)
    have hr := ih (a := a + 4) fun i hi => by
      have := h (i + 1) (by omega)
      rwa [show a + 4 * (i + 1) = a + 4 + 4 * i by ring] at this
    have e : ∀ i, a + 4 + 4 * i = a + 4 * (i + 1) := fun i => by ring
    unfold Port.readWords
    rw [checkedRead_clean (by simpa using h0)]
    dsimp only
    rw [hr]
    simp [List.range_succ_eq_map, Function.comp_def, e]

/-! ## Guard table, transition requests and watches -/

theorem endWatches_of_none {p : Port} {a : Nat} (h : ∀ e ∈ p.guard, e.addr = a → e.watch = false) : p.endWatches a = p := by
  have : (p.guard.filter fun e => e.addr == a && e.watch) = [] := by
    rw [List.filter_eq_nil_iff]
    intro e he
    by_cases ha : e.addr = a
    · simp [h e he ha]
    · simp [ha]
  simp [Port.endWatches, this]

/-- The end of watches changes the guard table's flags and the notices, and nothing else. -/
theorem endWatches_frame (p : Port) (a : Nat) :
    let q := p.endWatches a
    q = { p with guard := q.guard, notices := q.notices } := by
  unfold Port.endWatches
  dsimp only
  split <;> rfl

/-- What a transition request comes back with, by what the word holds (R12, R8). -/
theorem spanRequest_clean {p : Port} {n : SlotNo} {a : Nat} {e w : Word} {b : Bool} (h : eccAt p.ecc a = none) :
    p.spanRequest n a e w b =
      if readMemWord p.mem a = e then (.applied, p.store a w)
      else (.found (readMemWord p.mem a), if b then p.setWatch n a else p) := by
  simp only [Port.spanRequest, checkedRead_clean h]

theorem spanRequest_single {p : Port} {n : SlotNo} {a : Nat} {e w : Word} {b : Bool} (h : eccAt p.ecc a = some .single) :
    p.spanRequest n a e w b =
      let p1 : Port := { p.countCorrection with ecc := clearEcc p.ecc a }
      if readMemWord p.mem a = e then (.applied, p1.store a w)
      else (.found (readMemWord p.mem a), if b then p1.setWatch n a else p1) := by
  simp only [Port.spanRequest, checkedRead_single h]

theorem spanRequest_uncorrectable {p : Port} {n : SlotNo} {a : Nat} {e w : Word} {b : Bool}
    (h : eccAt p.ecc a = some .uncorrectable) :
    p.spanRequest n a e w b =
      (.fault, if b then ({ p with uncorrected := true } : Port).setWatch n a else { p with uncorrected := true }) := by
  simp only [Port.spanRequest, checkedRead_uncorrectable h]

/-! ## News -/

/-- News is set for a slot that is not FREE or POSTED: its bit, and the summary bit where the mask asks (R42). -/
theorem setNews_live {o : OrderUnit} {n : SlotNo} {c : Cause} (h1 : (o.slot n).state ≠ .free) (h2 : (o.slot n).state ≠ .posted) :
    o.setNews n c =
      { o.setSlot n { o.slot n with news := (o.slot n).news ||| causeMask c } with
        summary := if (o.slot n).mask &&& causeMask c ≠ 0 then o.summary ||| slotMask n else o.summary } := by
  unfold OrderUnit.setNews
  simp only [h1, h2, or_self, if_false]
  split <;> rfl

theorem setNews_idle {o : OrderUnit} {n : SlotNo} {c : Cause} (h : (o.slot n).state = .free ∨ (o.slot n).state = .posted) :
    o.setNews n c = o := by
  simp only [OrderUnit.setNews, if_pos h]

/-- News changes one slot's news word and the summary word, and nothing else. -/
theorem setNews_frame (o : OrderUnit) (n : SlotNo) (c : Cause) :
    let q := o.setNews n c
    q = { o with slots := q.slots, summary := q.summary } ∧
    (∀ m, (q.slot m).state = (o.slot m).state ∧ (q.slot m).mask = (o.slot m).mask ∧ (q.slot m).live = (o.slot m).live) ∧
    ∀ m, m ≠ n → q.slot m = o.slot m := by
  by_cases h : (o.slot n).state = .free ∨ (o.slot n).state = .posted
  · rw [setNews_idle h]; exact ⟨rfl, fun m => ⟨rfl, rfl, rfl⟩, fun m _ => rfl⟩
  · rw [not_or] at h
    rw [setNews_live h.1 h.2]
    refine ⟨rfl, fun m => ?_, fun m hm => OrderUnit.setSlot_slot_of_ne _ _ hm⟩
    change ((o.setSlot n _).slot m).state = _ ∧ ((o.setSlot n _).slot m).mask = _ ∧ ((o.setSlot n _).slot m).live = _
    rw [OrderUnit.setSlot_slot]
    split
    · rename_i e; subst e; exact ⟨rfl, rfl, rfl⟩
    · exact ⟨rfl, rfl, rfl⟩

/-! ## Finishing -/

/-- A slot made DONE: its outcome word is written, its live copy goes, its state is DONE with DONE news; every other slot and
every queue is as before (R24, R44). -/
theorem conclude_spec (h : Hub) (n : SlotNo) (out : OrderOutcome) (code : RefusalCode) (late : Bool) :
    let g := h.conclude n out code late
    g.port = h.port.store (slotBase n + 0x0C) (outcomeWord out code late) ∧
    g.orders.slot n = { h.orders.slot n with state := .done, live := none, news := (h.orders.slot n).news ||| causeMask .done } ∧
    (∀ m, m ≠ n → g.orders.slot m = h.orders.slot m) ∧
    g.orders = { h.orders with slots := g.orders.slots, summary := g.orders.summary } ∧
    g.orders.summary =
      if (h.orders.slot n).mask &&& causeMask .done ≠ 0 then h.orders.summary ||| slotMask n else h.orders.summary := by
  unfold Hub.conclude
  dsimp only [Hub.slotWrite]
  rw [setNews_live (by simp) (by simp)]
  refine ⟨rfl, ?_, fun m hm => ?_, rfl, by simp⟩
  · change (OrderUnit.setSlot _ _ _).slot n = _
    simp
  · change (OrderUnit.setSlot _ _ _).slot m = _
    rw [OrderUnit.setSlot_slot_of_ne _ _ hm, OrderUnit.setSlot_slot_of_ne _ _ hm]

/-- An order finished is its slot made DONE, and its guard entries go (R24, R11). -/
theorem finish_spec (h : Hub) (n : SlotNo) (out : OrderOutcome) (code : RefusalCode) (late : Bool) :
    (h.finish n out code late).orders = (h.conclude n out code late).orders ∧
    (h.finish n out code late).port = (h.conclude n out code late).port.dropEntries n := ⟨rfl, rfl⟩

/-! ## Steps of an engine and of a capture -/

theorem engineStep_cold {s : State} {f : State → Result} (h : s.port.phase = .coldInit) : engineStep s f = .next s := by
  simp only [engineStep, if_pos h]

theorem engineStep_warm {s : State} {f : State → Result} (h : s.port.phase ≠ .coldInit) : engineStep s f = f s := by
  simp only [engineStep, if_neg h]

theorem captureStep_none {s : State} {f : Cx → Except Fault Cx} (h : s.capture = none) : captureStep s f = .next s := by
  unfold captureStep engineStep
  simp [h]

theorem captureStep_some {s : State} {f : Cx → Except Fault Cx} {cap : Capture} (h : s.port.phase ≠ .coldInit)
    (hc : s.capture = some cap) :
    captureStep s f = match f ⟨s.hub, cap⟩ with
      | .ok c => .next (s.setCx c)
      | .error e => .fault e := by
  unfold captureStep
  rw [engineStep_warm h]
  simp only [hc] <;> rfl

/-- Everything a capture's step can answer. -/
theorem captureStep_next {s t : State} {f : Cx → Except Fault Cx} (h : captureStep s f = .next t) :
    t = s ∨ ∃ cap c, s.capture = some cap ∧ f ⟨s.hub, cap⟩ = .ok c ∧ t = s.setCx c := by
  by_cases hp : s.port.phase = .coldInit
  · unfold captureStep at h
    rw [engineStep_cold hp] at h
    exact .inl (Host.Outcome.next.inj h).symm
  · cases hc : s.capture with
    | none => rw [captureStep_none hc] at h; exact .inl (Host.Outcome.next.inj h).symm
    | some cap =>
      rw [captureStep_some hp hc] at h
      cases hf : f ⟨s.hub, cap⟩ with
      | error e => rw [hf] at h; cases h
      | ok c => rw [hf] at h; exact .inr ⟨cap, c, rfl, hf, (Host.Outcome.next.inj h).symm⟩

/-- A machine that writes itself back is unchanged. -/
@[simp] theorem setHub_hub (s : State) : s.setHub s.hub = s := rfl

theorem setCx_self {s : State} {cap : Capture} (h : s.capture = some cap) : s.setCx ⟨s.hub, cap⟩ = s := by
  cases s; simp_all [State.setCx, State.hub]

end Sys2Proof.Laws
end

