-- ==== Sys2Proof/Laws/Copy.lean ====
section
/-! SUPPORT. Copying a taken order only reads: memory stays, and of the port only the error record and the check bits differ
(R27). -/

namespace Sys2Proof.Laws

open Machine

/-- A port after checked reads: check bits and error record may differ, and a clean word stays clean. -/
structure OnlyRead (p q : Port) : Prop where
  rest : q = { p with ecc := q.ecc, corrected := q.corrected, uncorrected := q.uncorrected }
  clean : ∀ a, eccAt p.ecc a = none → eccAt q.ecc a = none

theorem OnlyRead.refl (p : Port) : OnlyRead p p := ⟨rfl, fun _ h => h⟩

theorem OnlyRead.trans {p q r : Port} (h : OnlyRead p q) (k : OnlyRead q r) : OnlyRead p r :=
  ⟨by rw [k.rest, h.rest], fun a ha => k.clean a (h.clean a ha)⟩

theorem OnlyRead.mem {p q : Port} (h : OnlyRead p q) : q.mem = p.mem := by rw [h.rest]

/-- A checked read only reads. -/
theorem onlyRead_checkedRead (p : Port) (a : Nat) : OnlyRead p (p.checkedRead a).2 := by
  cases h : eccAt p.ecc a with
  | none => rw [checkedRead_clean h]; exact OnlyRead.refl p
  | some k =>
    cases k with
    | single =>
      rw [checkedRead_single h]
      refine ⟨rfl, fun b hb => ?_⟩
      rw [eccAt_clearEcc_of_ne]
      · exact hb
      · rintro rfl; rw [h] at hb; exact absurd hb (by simp)
    | uncorrectable => rw [checkedRead_uncorrectable h]; exact ⟨rfl, fun _ hb => hb⟩

/-- Consecutive reads only read. -/
theorem onlyRead_readWords (p : Port) (a n : Nat) : OnlyRead p (p.readWords a n).2 := by
  induction n generalizing p a with
  | zero => exact OnlyRead.refl p
  | succ n ih =>
    have h := onlyRead_checkedRead p a
    unfold Port.readWords
    split
    · rename_i hq; rw [hq] at h; exact h
    · rename_i w q hq
      rw [hq] at h
      have k := h.trans (ih q (a + 4))
      split
      · rename_i hr; rw [hr] at k; exact k
      · rename_i hr; rw [hr] at k; exact k

/-- A copying that only reads. -/
def OnlyReads {α : Type} (m : Copy α) : Prop := ∀ p : Port, OnlyRead p (m.run.run p).2

theorem onlyReads_pure {α : Type} (x : α) : OnlyReads (pure x : Copy α) := fun p => OnlyRead.refl p

theorem onlyReads_throw {α : Type} (e : RefusalCode) : OnlyReads (throw e : Copy α) := fun p => OnlyRead.refl p

theorem OnlyReads.bind {α β : Type} {m : Copy α} {f : α → Copy β} (h : OnlyReads m) (k : ∀ x, OnlyReads (f x)) :
    OnlyReads (m >>= f) := by
  intro p
  have hp := h p
  cases hm : m.run.run p with
  | mk r q =>
    rw [hm] at hp
    have e : (m >>= f).run.run p = match r with | .ok x => (f x).run.run q | .error e => (.error e, q) := by
      show (ExceptT.bind m f) p = _
      unfold ExceptT.bind ExceptT.mk
      show (ExceptT.bindCont f (m p).1) (m p).2 = _
      rw [show m p = (r, q) from hm]
      cases r <;> rfl
    rw [e]
    cases r with
    | ok x => exact hp.trans (k x q)
    | error e => exact hp

theorem onlyReads_words (a n : Nat) : OnlyReads (copyWords a n) := by
  intro p
  have h := onlyRead_readWords p a n
  show OnlyRead p (copyWords a n p).2
  unfold copyWords
  split <;> (rename_i hq; rw [hq] at h; exact h)

theorem onlyReads_ifInside (a n : Nat) : OnlyReads (copyIfInside a n) := by
  unfold copyIfInside
  split
  · exact (onlyReads_words a n).bind fun _ => onlyReads_pure _
  · exact onlyReads_pure _

theorem onlyReads_descs (a n : Nat) : OnlyReads (copyDescs a n) :=
  (onlyReads_ifInside a (8 * n)).bind fun _ => onlyReads_pure _

theorem onlyReads_spans (p : CaptureParams) (g : Group) : OnlyReads (copySpans p g) := by
  unfold copySpans
  split
  · exact onlyReads_descs _ _
  · exact onlyReads_pure _

theorem onlyReads_capture (base : Nat) : OnlyReads (copyCapture base) := by
  refine (onlyReads_words _ _).bind fun w => (onlyReads_ifInside _ _).bind fun block => ?_
  cases block with
  | none => exact onlyReads_throw _
  | some ws =>
    refine (onlyReads_ifInside _ _).bind fun _ => (onlyReads_ifInside _ _).bind fun _ =>
      (onlyReads_ifInside _ _).bind fun _ => (onlyReads_spans _ _).bind fun _ =>
      (onlyReads_spans _ _).bind fun _ => ?_
    dsimp only
    split
    · exact (onlyReads_pure _).bind fun _ => onlyReads_pure _
    · exact (onlyReads_descs _ _).bind fun _ => onlyReads_pure _

/-- Copying the parameters of a kind only reads. -/
theorem onlyReads_kind (base : Nat) (k : Kind) : OnlyReads (copyKind base k) := by
  cases k with
  | capture => exact (onlyReads_capture base).bind fun _ => onlyReads_pure _
  | calibrate => exact (onlyReads_words _ _).bind fun _ => onlyReads_pure _
  | retune => exact (onlyReads_words _ _).bind fun _ => (onlyReads_ifInside _ _).bind fun _ => onlyReads_pure _
  | source => exact (onlyReads_words _ _).bind fun _ => onlyReads_pure _
  | transport => exact (onlyReads_words _ _).bind fun _ => onlyReads_pure _

theorem onlyRead_readKind (p : Port) (n : SlotNo) : OnlyRead p (readKind p n).2.2 := by
  have h := onlyRead_checkedRead p (slotBase n + 8)
  unfold readKind
  split
  · rename_i hq; rw [hq] at h; exact h
  · rename_i hq
    rw [hq] at h
    split <;> exact h

/-- Copying an order only reads (R27). -/
theorem onlyRead_copyOrder (p : Port) (n : SlotNo) : OnlyRead p (p.copyOrder n).2.2 := by
  have h := onlyRead_readKind p n
  unfold Port.copyOrder
  split
  · rename_i hq; rw [hq] at h; exact h
  · rename_i k p1 hq
    rw [hq] at h
    have hk := h.trans (onlyReads_kind (slotBase n) k p1)
    split <;> (rename_i hr; rw [hr] at hk; exact hk)

/-- Copying an order leaves memory as it is (R27). -/
theorem copyOrder_mem (p : Port) (n : SlotNo) : (p.copyOrder n).2.2.mem = p.mem := (onlyRead_copyOrder p n).mem

end Sys2Proof.Laws
end

