-- ==== Sys2Proof/Laws/Kept.lean ====
section
/-! SUPPORT. What no step of a capture changes: one relation, which every function on a capture satisfies. -/

namespace Sys2Proof.Laws

open Machine Safety

/-! ## The relation -/

/-- What the steps of a capture keep of the port and the order unit: of the port only memory, check bits, error record and
guard table change, memory staying canonical; of the order unit only news, reported ends and the state of a slot that goes
from TAKEN to RUNNING. -/
structure HubKept (h k : Hub) : Prop where
  port : k.port = { h.port with
    mem := k.port.mem, ecc := k.port.ecc, corrected := k.port.corrected, uncorrected := k.port.uncorrected
    guard := k.port.guard }
  wf : Memory.wf h.port.mem = true → Memory.wf k.port.mem = true
  orders : k.orders = { h.orders with slots := k.orders.slots, summary := k.orders.summary, ends := k.orders.ends }
  slot : ∀ n, (k.orders.slot n).mask = (h.orders.slot n).mask ∧ (k.orders.slot n).live = (h.orders.slot n).live ∧
    ((k.orders.slot n).state = (h.orders.slot n).state ∨
      ((h.orders.slot n).state = .taken ∧ (k.orders.slot n).state = .running))

theorem HubKept.refl (h : Hub) : HubKept h h := ⟨rfl, id, rfl, fun _ => ⟨rfl, rfl, .inl rfl⟩⟩

theorem HubKept.trans {h k l : Hub} (a : HubKept h k) (b : HubKept k l) : HubKept h l := by
  refine ⟨?_, fun w => b.wf (a.wf w), ?_, fun n => ?_⟩
  · rw [b.port, a.port]
  · rw [b.orders, a.orders]
  · obtain ⟨a1, a2, a3⟩ := a.slot n
    obtain ⟨b1, b2, b3⟩ := b.slot n
    refine ⟨b1.trans a1, b2.trans a2, ?_⟩
    rcases a3 with a3 | ⟨a3, a4⟩
    · rw [← a3]; exact b3
    · rcases b3 with b3 | ⟨b3, b4⟩
      · exact .inr ⟨a3, b3.trans a4⟩
      · exact .inr ⟨a3, b4⟩

/-- What the steps of a capture keep. -/
structure CxKept (c d : Cx) : Prop where
  hub : HubKept c.hub d.hub
  slot : d.cap.slot = c.cap.slot
  params : d.cap.params = c.cap.params
  writer : WriterWithin c.cap.writer → WriterWithin d.cap.writer

theorem CxKept.refl (c : Cx) : CxKept c c := ⟨.refl _, rfl, rfl, id⟩

theorem CxKept.trans {c d e : Cx} (a : CxKept c d) (b : CxKept d e) : CxKept c e :=
  ⟨a.hub.trans b.hub, b.slot.trans a.slot, b.params.trans a.params, fun w => b.writer (a.writer w)⟩

theorem CxKept.ofHub {c : Cx} {h : Hub} (k : HubKept c.hub h) : CxKept c { c with hub := h } := ⟨k, rfl, rfl, id⟩

/-- A capture changed in fields other than slot, parameters and writer. -/
theorem CxKept.ofCap {c : Cx} {x : Capture} (h1 : x.slot = c.cap.slot) (h2 : x.params = c.cap.params)
    (h3 : x.writer = c.cap.writer) : CxKept c { c with cap := x } := ⟨.refl _, h1, h2, fun w => by rw [h3]; exact w⟩

/-! ## Port and order unit -/

theorem hubKept_ofPort {h : Hub} {p : Port} (hp : p = { h.port with
      mem := p.mem, ecc := p.ecc, corrected := p.corrected, uncorrected := p.uncorrected, guard := p.guard })
    (hw : Memory.wf h.port.mem = true → Memory.wf p.mem = true) : HubKept h { h with port := p } :=
  ⟨hp, hw, rfl, fun _ => ⟨rfl, rfl, .inl rfl⟩⟩

theorem hubKept_store (h : Hub) (a : Nat) (w : Word) : HubKept h { h with port := h.port.store a w } :=
  hubKept_ofPort rfl fun x => portWf_store x a w

theorem hubKept_storeWords (h : Hub) (a : Nat) (ws : List Word) : HubKept h { h with port := h.port.storeWords a ws } :=
  hubKept_ofPort rfl fun x => portWf_storeWords x a ws

theorem hubKept_slotWrite (h : Hub) (n : SlotNo) (off : Nat) (w : Word) : HubKept h (h.slotWrite n off w) := hubKept_store h _ w

theorem hubKept_checkedRead (h : Hub) (a : Nat) : HubKept h { h with port := (h.port.checkedRead a).2 } :=
  hubKept_ofPort (by have := checkedRead_frame h.port a; dsimp only at this; rw [this]) fun x => portWf_checkedRead x a

theorem hubKept_setWatch (h : Hub) (n : SlotNo) (a : Nat) : HubKept h { h with port := h.port.setWatch n a } :=
  hubKept_ofPort rfl id

theorem hubKept_spanRequest (h : Hub) (n : SlotNo) (a : Nat) (e w : Word) (b : Bool) :
    HubKept h { h with port := (h.port.spanRequest n a e w b).2 } := by
  have hr := hubKept_checkedRead h a
  unfold Port.spanRequest
  split
  · rename_i p1 he
    rw [he] at hr
    split
    · exact hr.trans (hubKept_setWatch _ n a)
    · exact hr
  · rename_i v p1 he
    rw [he] at hr
    split
    · exact hr.trans (hubKept_store _ a w)
    · split
      · exact hr.trans (hubKept_setWatch _ n a)
      · exact hr

theorem hubKept_news (h : Hub) (n : SlotNo) (c : Cause) : HubKept h (h.news n c) := by
  obtain ⟨h1, h2, h3⟩ := setNews_frame h.orders n c
  exact ⟨rfl, id, by
      have he : (h.orders.setNews n c).ends = h.orders.ends := by rw [h1]
      change h.orders.setNews n c = { h.orders with
        slots := (h.orders.setNews n c).slots, summary := (h.orders.setNews n c).summary, ends := (h.orders.setNews n c).ends }
      rw [he]
      exact h1, fun m => ⟨(h2 m).2.1, (h2 m).2.2, .inl (h2 m).1⟩⟩

theorem hubKept_report (h : Hub) (n : SlotNo) (out : OrderOutcome) (own : Bool) : HubKept h (h.report n out own) :=
  ⟨rfl, id, rfl, fun _ => ⟨rfl, rfl, .inl rfl⟩⟩

/-! ## Small steps of a capture -/

theorem kept_news (c : Cx) (k : Cause) : CxKept c (c.news k) := .ofHub (hubKept_news _ _ k)

theorem kept_progress (c : Cx) (off : Nat) (w : Word) : CxKept c (c.progress off w) := .ofHub (hubKept_slotWrite _ _ off w)

theorem kept_setControl (c : Cx) (k : Control) : CxKept c (c.setControl k) := .ofCap rfl rfl rfl

theorem kept_mapControl (c : Cx) (f : Control → Control) : CxKept c (c.mapControl f) := .ofCap rfl rfl rfl

theorem kept_mapMonitor (c : Cx) (f : LaneMonitor → LaneMonitor) : CxKept c (c.mapMonitor f) := .ofCap rfl rfl rfl

theorem kept_mapSpeed (c : Cx) (f : SpeedUnit → SpeedUnit) : CxKept c (c.mapSpeed f) := .ofCap rfl rfl rfl

theorem kept_setWriter {c : Cx} {w : Writer} (h : WriterWithin c.cap.writer → WriterWithin w) : CxKept c (c.setWriter w) :=
  ⟨.refl _, rfl, rfl, h⟩

/-- A writer changed in fields other than its groups and its holding queue. -/
theorem kept_setWriter_of_eq {c : Cx} {w : Writer} (h1 : w.groups = c.cap.writer.groups) (h2 : w.holding = c.cap.writer.holding) :
    CxKept c (c.setWriter w) := kept_setWriter fun h => by unfold WriterWithin at h ⊢; rw [h1, h2]; exact h

theorem kept_mapWriter_of_eq {c : Cx} {f : Writer → Writer} (h1 : (f c.cap.writer).groups = c.cap.writer.groups)
    (h2 : (f c.cap.writer).holding = c.cap.writer.holding) : CxKept c (c.mapWriter f) := kept_setWriter_of_eq h1 h2

theorem kept_mapOut {c : Cx} {g : Group} {f : GroupOut → GroupOut}
    (h : pagesIn (f (c.cap.writer.groups.get g)).queue ≤ pagesIn (c.cap.writer.groups.get g).queue) : CxKept c (c.mapOut g f) := by
  refine kept_setWriter fun w => ?_
  unfold WriterWithin at w ⊢
  cases g <;> simp only [PerGroup.put, PerGroup.get] at h ⊢ <;> omega

/-- A group's part of the writer changed in fields other than its spill queue. -/
theorem kept_mapOut_of_eq {c : Cx} {g : Group} {f : GroupOut → GroupOut} (h : ∀ o, (f o).queue = o.queue) :
    CxKept c (c.mapOut g f) := kept_mapOut (by rw [h])

theorem kept_watch (c : Cx) (a : Nat) : CxKept c (c.watch a) := .ofHub (hubKept_setWatch _ _ a)

theorem kept_writeFlags (c : Cx) : CxKept c c.writeFlags := kept_progress c _ _

theorem kept_room (c : Cx) (id : ListId) : CxKept c (c.room id).2 := by
  unfold Cx.room
  have hr := CxKept.ofHub (hubKept_checkedRead c.hub ((c.cap.writer.list id).header + 8))
  dsimp only
  split
  · refine CxKept.trans ?_ (kept_news _ _)
    refine CxKept.trans ?_ (kept_watch _ _)
    exact hr
  · split
    · exact hr
    · refine CxKept.trans ?_ (kept_news _ _)
      refine CxKept.trans ?_ (kept_writeFlags _)
      refine hr.trans (kept_setWriter_of_eq ?_ ?_) <;> cases id <;> rfl

/-! ## The repair list -/

theorem kept_placeRecord (c : Cx) (l : RecList) (ws : List Word) :
    CxKept c { c with hub := { c.hub with port := c.hub.port.placeRecord l ws } } :=
  .ofHub ((hubKept_storeWords c.hub _ ws).trans (hubKept_store _ _ _))

theorem kept_writeRepair (c : Cx) (r : RepairRec) : CxKept c (c.writeRepair r) := by
  unfold Cx.writeRepair
  dsimp only
  refine CxKept.trans ?_ (kept_news _ _)
  refine CxKept.trans ?_ (kept_progress _ _ _)
  refine CxKept.trans (kept_placeRecord c c.cap.writer.repairList r.words) (kept_setWriter_of_eq ?_ ?_) <;> rfl

theorem kept_placeRepairs (c : Cx) (rs : List RepairRec) :
    CxKept c (c.placeRepairs rs).2 ∧ (c.placeRepairs rs).1.length ≤ rs.length := by
  induction rs generalizing c with
  | nil => exact ⟨.refl c, Nat.le_refl _⟩
  | cons r rest ih =>
    unfold Cx.placeRepairs
    have hr := kept_room c .repair
    dsimp only
    split
    · exact ⟨hr, Nat.le_refl _⟩
    · obtain ⟨h1, h2⟩ := ih ((c.room .repair).2.writeRepair r)
      exact ⟨(hr.trans (kept_writeRepair _ r)).trans h1, Nat.le_succ_of_le h2⟩

/-- The holding queue replaced by one that is no longer than its capacity. -/
theorem kept_holding {c : Cx} {f : Writer → Writer} (h1 : (f c.cap.writer).groups = c.cap.writer.groups)
    (h2 : c.cap.writer.holding.length ≤ Config.holdingMax → (f c.cap.writer).holding.length ≤ Config.holdingMax) :
    CxKept c (c.mapWriter f) := kept_setWriter fun h => by
  unfold WriterWithin at h ⊢
  rw [h1]
  exact ⟨h.1, h2 h.2⟩

theorem kept_suppress (c : Cx) (k : Nat) : CxKept c (c.suppress k) := by
  unfold Cx.suppress
  split
  · exact .refl c
  · dsimp only
    refine CxKept.trans ?_ (kept_progress _ _ _)
    exact kept_mapWriter_of_eq rfl rfl

/-- The holding queue is the same after the room of a list is asked for. -/
theorem room_holding (c : Cx) (id : ListId) : (c.room id).2.cap.writer.holding = c.cap.writer.holding := by
  unfold Cx.room
  dsimp only
  split
  · rfl
  · split
    · rfl
    · cases id <;> rfl

theorem placeRepairs_holding (c : Cx) (rs : List RepairRec) : (c.placeRepairs rs).2.cap.writer.holding = c.cap.writer.holding := by
  induction rs generalizing c with
  | nil => rfl
  | cons r rest ih =>
    unfold Cx.placeRepairs
    dsimp only
    split
    · exact room_holding c .repair
    · rw [ih]; exact room_holding c .repair

theorem kept_retryHeld (c : Cx) : CxKept c c.retryHeld := by
  unfold Cx.retryHeld
  obtain ⟨h1, h2⟩ := kept_placeRepairs c c.cap.writer.holding
  have hh := placeRepairs_holding c c.cap.writer.holding
  have h3 : CxKept c ((c.placeRepairs c.cap.writer.holding).2.mapWriter
      fun w => { w with holding := (c.placeRepairs c.cap.writer.holding).1 }) :=
    h1.trans (kept_holding rfl fun h => by rw [hh] at h; exact h2.trans h)
  dsimp only
  split
  · exact h3
  · exact h3.trans (kept_watch _ _)

theorem kept_arriveRepair (c : Cx) (r : RepairRec) : CxKept c (c.arriveRepair r) := by
  unfold Cx.arriveRepair
  have h1 := kept_retryHeld c
  have h2 := (kept_placeRepairs c.retryHeld [r]).1
  dsimp only
  generalize hx : (if c.retryHeld.cap.writer.holding = [] then c.retryHeld.placeRepairs [r] else ([r], c.retryHeld)) = x
  have h3 : CxKept c x.2 := by
    rw [← hx]
    split
    · exact h1.trans h2
    · exact h1
  split
  · exact h3
  · split
    · rename_i hl
      refine CxKept.trans ?_ (kept_news _ _)
      refine (h3.trans (kept_watch _ _)).trans (kept_holding rfl fun _ => ?_)
      simp only [List.length_append, List.length_singleton]
      exact hl
    · refine CxKept.trans ?_ (kept_news _ _)
      refine CxKept.trans ?_ (kept_suppress _ _)
      exact h3.trans (kept_watch _ _)

/-! ## The speed map -/

theorem kept_writeMap (c : Cx) (m : MapRec) : CxKept c (c.writeMap m) := by
  unfold Cx.writeMap
  dsimp only
  refine CxKept.trans ?_ (kept_news _ _)
  refine CxKept.trans ?_ (kept_progress _ _ _)
  refine CxKept.trans (kept_placeRecord c c.cap.writer.mapList (m.words c.cap.writer.mapWritten)) (kept_setWriter_of_eq ?_ ?_) <;> rfl

theorem kept_mapToList (c : Cx) (m : MapRec) : CxKept c
    (if (c.room .map).1 = 0 then
      ((c.room .map).2.mapWriter fun w => { w with map := some { m with extended := true }, mapPending := true }).news .listFull
    else (c.room .map).2.writeMap m) := by
  split
  · refine CxKept.trans ?_ (kept_news _ _)
    exact (kept_room c .map).trans (kept_mapWriter_of_eq rfl rfl)
  · exact (kept_room c .map).trans (kept_writeMap _ _)

theorem kept_closeRecord (c : Cx) (cue : Bool) : CxKept c (c.closeRecord cue) := by
  unfold Cx.closeRecord
  have h0 : CxKept c (c.mapWriter fun w => { w with closeDue := none, closeAfter := none }) := kept_mapWriter_of_eq rfl rfl
  dsimp only
  split
  · refine CxKept.trans ?_ (kept_news _ _)
    split
    · exact h0
    · exact h0.trans (kept_mapToList _ _)
  · split
    · exact h0
    · exact h0.trans (kept_mapToList _ _)

theorem kept_closeMap (c : Cx) : CxKept c c.closeMap := by
  unfold Cx.closeMap
  split
  · exact .refl c
  · split
    · exact .refl c
    · exact kept_closeRecord _ _

theorem kept_retryMap (c : Cx) : CxKept c c.retryMap := by
  unfold Cx.retryMap
  split
  · exact .refl c
  · split
    · dsimp only
      split
      · exact kept_room c .map
      · exact (kept_room c .map).trans (kept_writeMap _ _)
    · exact .refl c

theorem kept_foldTaken (c : Cx) (t : Taken) (lanes : Vector (Option LaneJudgement) 4) (skew : Vector (Option SkewReport) 4)
    (speed : PerGroup (Option SpeedReport)) : CxKept c (c.foldTaken t lanes skew speed) := by
  unfold Cx.foldTaken
  dsimp only
  refine CxKept.trans ?_ (kept_retryHeld _)
  generalize (c.closeMap.cap.writer.map.getD _).fold t lanes skew speed = m
  have h1 : CxKept c (c.closeMap.mapWriter fun w => { w with map := some m }) := (kept_closeMap c).trans (kept_mapWriter_of_eq rfl rfl)
  split
  · split
    · exact h1.trans (kept_retryMap _)
    · refine CxKept.trans ?_ (kept_news _ _)
      exact h1.trans (kept_retryMap _)
  · split
    · exact h1.trans (kept_mapWriter_of_eq rfl rfl)
    · exact h1

/-! ## Audio spans, spill store, losses -/

theorem kept_spanWrite (c : Cx) (g : Group) (off : Nat) (w : Word) : CxKept c (c.spanWrite g off w) := .ofHub (hubKept_store _ _ w)

theorem kept_request (c : Cx) (a : Nat) (e w : Word) (b : Bool) : CxKept c (c.request a e w b).2 := by
  unfold Cx.request
  have h := CxKept.ofHub (hubKept_spanRequest c.hub c.cap.slot a e w b)
  dsimp only
  split
  · exact h.trans (kept_news _ _)
  · exact h

/-- A transition request changes nothing of the capture itself. -/
theorem request_cap (c : Cx) (a : Nat) (e w : Word) (b : Bool) : (c.request a e w b).2.cap = c.cap := by
  unfold Cx.request
  dsimp only
  split <;> rfl

theorem kept_openSpan (c : Cx) (g : Group) (f : Frame) : CxKept c (c.openSpan g f) := by
  unfold Cx.openSpan
  dsimp only
  refine CxKept.trans ?_ (kept_mapOut_of_eq fun _ => rfl)
  refine CxKept.trans ?_ (kept_spanWrite _ _ _ _)
  refine CxKept.trans ?_ (kept_spanWrite _ _ _ _)
  refine CxKept.trans ?_ (kept_spanWrite _ _ _ _)
  refine CxKept.trans ?_ (kept_spanWrite _ _ _ _)
  exact kept_spanWrite _ _ _ _

theorem kept_closeSpan (c : Cx) (g : Group) : CxKept c (c.closeSpan g) := by
  unfold Cx.closeSpan
  have h := kept_request c (c.out g).span.addr spanFilling spanFull false
  dsimp only
  refine CxKept.trans ?_ (kept_mapOut_of_eq fun _ => rfl)
  split
  · exact h.trans (kept_news _ _)
  · exact h

theorem kept_writeFrame (c : Cx) (g : Group) (f : Frame) : CxKept c (c.writeFrame g f) := by
  unfold Cx.writeFrame
  split
  · exact .refl c
  · rename_i sp _
    have h : ∀ o : GroupOut → GroupOut, (∀ x, (o x).queue = x.queue) →
        CxKept c (((({ c with hub := { c.hub with port := c.hub.port.storeWords ((c.out g).span.buffer + sp.fill) f.words } } : Cx).spanWrite
          g 0x0C (word (sp.fill + 4 * f.words.length))).spanWrite g 0x14 (word (sp.frames + 1))).mapOut g o) := by
      intro o ho
      refine CxKept.trans ?_ (kept_mapOut_of_eq ho)
      refine CxKept.trans ?_ (kept_spanWrite _ _ _ _)
      refine CxKept.trans ?_ (kept_spanWrite _ _ _ _)
      exact .ofHub (hubKept_storeWords _ _ _)
    dsimp only
    split
    · refine CxKept.trans ?_ (kept_closeSpan _ _)
      exact h _ fun _ => rfl
    · exact h _ fun _ => rfl

theorem kept_openAndWrite (c : Cx) (g : Group) (f : Frame) (b : Bool) : CxKept c (c.openAndWrite g f b).2 := by
  unfold Cx.openAndWrite
  have h := kept_request c (c.out g).span.addr spanEmpty spanFilling b
  dsimp only
  split
  · exact (h.trans (kept_openSpan _ _ _)).trans (kept_writeFrame _ _ _)
  · exact h

/-- A group's part changed in fields other than its spill queue leaves every spill queue. -/
theorem mapOut_queue {c : Cx} {g h : Group} {f : GroupOut → GroupOut} (hf : ∀ o, (f o).queue = o.queue) :
    ((c.mapOut g f).out h).queue = (c.out h).queue := by
  cases g <;> cases h <;> simp [Cx.out, Cx.mapOut, Cx.mapWriter, Cx.setWriter, PerGroup.put, PerGroup.get, hf]

theorem request_queue (c : Cx) (a : Nat) (e w : Word) (b : Bool) (h : Group) :
    ((c.request a e w b).2.out h).queue = (c.out h).queue := by
  unfold Cx.out
  rw [request_cap]

theorem closeSpan_queue (c : Cx) (g h : Group) : ((c.closeSpan g).out h).queue = (c.out h).queue := by
  have hq := request_queue c (c.out g).span.addr spanFilling spanFull false h
  unfold Cx.closeSpan
  dsimp only
  refine (mapOut_queue ?_).trans ?_
  · exact fun _ => rfl
  · split
    · exact hq
    · exact hq

theorem writeFrame_queue (c : Cx) (g h : Group) (f : Frame) : ((c.writeFrame g f).out h).queue = (c.out h).queue := by
  unfold Cx.writeFrame
  split
  · rfl
  · dsimp only
    split
    · rw [closeSpan_queue]
      refine (mapOut_queue ?_).trans ?_
      · exact fun _ => rfl
      · rfl
    · refine (mapOut_queue ?_).trans ?_
      · exact fun _ => rfl
      · rfl

theorem openSpan_queue (c : Cx) (g h : Group) (f : Frame) : ((c.openSpan g f).out h).queue = (c.out h).queue := by
  unfold Cx.openSpan
  dsimp only
  refine (mapOut_queue ?_).trans ?_
  · exact fun _ => rfl
  · rfl

theorem openAndWrite_queue (c : Cx) (g h : Group) (f : Frame) (b : Bool) :
    ((c.openAndWrite g f b).2.out h).queue = (c.out h).queue := by
  have hq := request_queue c (c.out g).span.addr spanEmpty spanFilling b h
  unfold Cx.openAndWrite
  dsimp only
  split
  · rw [writeFrame_queue, openSpan_queue]
    exact hq
  · exact hq

theorem pagesIn_append (l m : List SpillItem) : pagesIn (l ++ m) = pagesIn l + pagesIn m := List.countP_append

theorem pagesIn_cons_page (fs : List Frame) (q : List SpillItem) : pagesIn (.page fs :: q) = pagesIn q + 1 := by
  simp [pagesIn]

theorem pagesIn_cons_lossMark (q : List SpillItem) : pagesIn (.lossMark :: q) = pagesIn q := by
  simp [pagesIn]

theorem pagesIn_appendLast {room : Nat} {f : Frame} {q r : List SpillItem} (h : appendLast room f q = some r) :
    pagesIn r = pagesIn q := by
  induction q generalizing r with
  | nil => simp [appendLast] at h
  | cons i q ih =>
    cases q with
    | nil =>
      cases i with
      | page fs =>
        unfold appendLast at h
        split at h
        · cases h; simp only [pagesIn_cons_page]
        · cases h
      | lossMark => simp [appendLast] at h
    | cons j rest =>
      have h' : (appendLast room f (j :: rest)).map (i :: ·) = some r := by cases i <;> exact h
      cases hr : appendLast room f (j :: rest) with
      | none => rw [hr] at h'; simp at h'
      | some r' =>
        rw [hr] at h'
        simp at h'
        subst h'
        have := ih hr
        cases i <;> simp only [pagesIn_cons_page, pagesIn_cons_lossMark] at this ⊢ <;> omega

/-- A spill queue replaced by one with as many pages, or with one page more while a page is free. -/
theorem kept_spillInto {c : Cx} {g : Group} {q : List SpillItem}
    (h : pagesIn q ≤ pagesIn (c.out g).queue ∨ (pagesIn q ≤ pagesIn (c.out g).queue + 1 ∧ 0 < c.cap.writer.freePages)) :
    CxKept c (c.spillInto g q) := by
  unfold Cx.spillInto
  have h1 : CxKept c (c.mapOut g fun o => { o with queue := q }) := by
    refine kept_setWriter fun w => ?_
    unfold Writer.freePages Cx.out at h
    unfold WriterWithin at w ⊢
    cases g <;> simp only [PerGroup.put, PerGroup.get] at h ⊢ <;> omega
  dsimp only
  split
  · exact h1.trans (kept_news _ _)
  · exact h1

theorem kept_spill {c d : Cx} {g : Group} {f : Frame} (h : c.spill g f = some d) : CxKept c d := by
  unfold Cx.spill at h
  split at h
  · rename_i q hq
    cases h
    exact kept_spillInto (.inl (Nat.le_of_eq (pagesIn_appendLast hq)))
  · split at h
    · rename_i hp
      cases h
      exact kept_spillInto (.inr ⟨by rw [pagesIn_append, pagesIn_cons_page]; simp [pagesIn], hp⟩)
    · cases h

theorem kept_countLost (c : Cx) (g : Group) (k : Nat) : CxKept c (c.countLost g k) := by
  unfold Cx.countLost
  split
  · exact .refl c
  · dsimp only
    refine CxKept.trans ?_ (kept_progress _ _ _)
    exact kept_mapOut_of_eq fun _ => rfl

theorem kept_dropFrame (c : Cx) (g : Group) (f : Frame) : CxKept c (c.dropFrame g f) := by
  unfold Cx.dropFrame
  split
  · refine CxKept.trans ?_ (kept_news _ _)
    refine CxKept.trans ?_ (kept_countLost _ _ _)
    exact kept_mapOut_of_eq fun _ => rfl
  · refine CxKept.trans ?_ (kept_countLost _ _ _)
    exact kept_mapOut_of_eq fun _ => rfl

theorem kept_takeSeq (c : Cx) : CxKept c c.takeSeq.2 := by
  unfold Cx.takeSeq
  split
  · exact .refl c
  · exact .ofCap rfl rfl rfl

theorem takeSeq_writer (c : Cx) : c.takeSeq.2.cap.writer = c.cap.writer := by
  unfold Cx.takeSeq
  split <;> rfl

theorem kept_closeLost (c : Cx) (g : Group) (cut : Bool) : CxKept c (c.closeLost g cut) := by
  unfold Cx.closeLost
  split
  · exact .refl c
  · dsimp only
    refine CxKept.trans ?_ (kept_mapWriter_of_eq rfl rfl)
    refine CxKept.trans ?_ (kept_mapOut_of_eq fun _ => rfl)
    exact kept_takeSeq c

theorem closeLost_queue (c : Cx) (g : Group) (cut : Bool) (h : Group) : ((c.closeLost g cut).out h).queue = (c.out h).queue := by
  unfold Cx.closeLost
  split
  · rfl
  · dsimp only
    have e : (c.takeSeq.2.out h).queue = (c.out h).queue := by unfold Cx.out; rw [takeSeq_writer]
    refine Eq.trans ?_ e
    exact mapOut_queue (c := c.takeSeq.2) (f := fun o => { o with lost := none }) fun _ => rfl

theorem closeLost_freePages (c : Cx) (g : Group) (cut : Bool) : (c.closeLost g cut).cap.writer.freePages = c.cap.writer.freePages := by
  have ha : (c.closeLost g cut).cap.writer.groups.a.queue = c.cap.writer.groups.a.queue := closeLost_queue c g cut .a
  have hb : (c.closeLost g cut).cap.writer.groups.b.queue = c.cap.writer.groups.b.queue := closeLost_queue c g cut .b
  unfold Writer.freePages
  rw [ha, hb]

theorem kept_placeAfterLoss (c : Cx) (g : Group) (f : Frame) : CxKept c (c.placeAfterLoss g f) := by
  have hs : ∀ d : Cx, CxKept d (if 0 < d.cap.writer.freePages then
      ((d.closeLost g false).spillInto g (((d.closeLost g false).out g).queue ++ [.lossMark, .page [f]]))
    else d.dropFrame g f) := by
    intro d
    split
    · rename_i hp
      refine (kept_closeLost d g false).trans (kept_spillInto (.inr ⟨?_, ?_⟩))
      · rw [pagesIn_append, pagesIn_cons_lossMark, pagesIn_cons_page]; simp [pagesIn]
      · rw [closeLost_freePages]; exact hp
    · exact kept_dropFrame d g f
  unfold Cx.placeAfterLoss
  dsimp only
  split
  · have h := kept_request c (c.out g).span.addr spanEmpty spanFilling true
    split
    · refine CxKept.trans ?_ (kept_writeFrame _ _ _)
      refine CxKept.trans ?_ (kept_openSpan _ _ _)
      refine CxKept.trans ?_ (kept_mapOut_of_eq fun _ => rfl)
      exact h.trans (kept_closeLost _ _ _)
    · exact h.trans (hs _)
  · exact hs c

theorem kept_spillOrDrop (c : Cx) (g : Group) (f : Frame) : CxKept c (c.spillOrDrop g f) := by
  unfold Cx.spillOrDrop
  cases h : c.spill g f with
  | none => exact kept_dropFrame c g f
  | some d => exact kept_spill h

theorem kept_placeOne (c : Cx) (g : Group) (f : Frame) : CxKept c (c.placeOne g f) := by
  unfold Cx.placeOne
  dsimp only
  split
  · exact kept_placeAfterLoss c g f
  · split
    · exact kept_spillOrDrop c g f
    · split
      · exact kept_writeFrame c g f
      · have h := kept_openAndWrite c g f true
        split
        · rename_i c1 he; rw [he] at h; exact h
        · rename_i c1 he; rw [he] at h; exact h.trans (kept_spillOrDrop _ _ _)

theorem kept_placeNext (c : Cx) (g : Group) : CxKept c (c.placeNext g) := by
  unfold Cx.placeNext
  split
  · exact .refl c
  · refine CxKept.trans ?_ (kept_placeOne _ _ _)
    exact kept_mapOut_of_eq fun _ => rfl

/-! ## The drain and the end work -/

theorem kept_closeEarly (c : Cx) (g : Group) : CxKept c (c.closeEarly g) := by
  unfold Cx.closeEarly
  split
  · exact kept_closeSpan c g
  · exact .refl c

theorem kept_takeLossMark (c : Cx) (g : Group) : CxKept c (c.takeLossMark g) := by
  unfold Cx.takeLossMark
  refine CxKept.trans ?_ (kept_mapOut_of_eq fun _ => rfl)
  exact kept_closeEarly c g

theorem kept_drain (c : Cx) (g : Group) (b : Bool) (fuel : Nat) : CxKept c (c.drain g b fuel) := by
  induction fuel generalizing c with
  | zero => exact .refl c
  | succ fuel ih =>
    unfold Cx.drain
    split
    · split
      · exact kept_takeLossMark c g
      · exact .refl c
    · rename_i rest hq
      refine CxKept.trans ?_ (ih _)
      refine CxKept.trans ?_ (kept_takeLossMark _ _)
      refine kept_mapOut ?_
      change pagesIn rest ≤ pagesIn (c.out g).queue
      rw [hq, pagesIn_cons_lossMark]
    · rename_i rest hq
      refine CxKept.trans ?_ (ih _)
      refine kept_mapOut ?_
      change pagesIn rest ≤ pagesIn (c.out g).queue
      rw [hq, pagesIn_cons_page]; omega
    · rename_i f fs rest hq
      have ha : pagesIn (afterHead fs rest) ≤ pagesIn (c.out g).queue := by
        rw [hq]; unfold afterHead; split <;> simp only [pagesIn_cons_page] <;> omega
      dsimp only
      split
      · refine CxKept.trans ?_ (ih _)
        refine CxKept.trans ?_ (kept_writeFrame _ _ _)
        exact kept_mapOut ha
      · have h := kept_openAndWrite c g f b
        have hqueue := openAndWrite_queue c g g f b
        split
        · rename_i c1 he
          rw [he] at h hqueue
          refine CxKept.trans ?_ (ih _)
          refine h.trans (kept_mapOut ?_)
          change pagesIn (afterHead fs rest) ≤ pagesIn (c1.out g).queue
          rw [hqueue]; exact ha
        · rename_i c1 he; rw [he] at h; exact h

theorem kept_noticeGroup (c : Cx) (a : Nat) (g : Group) : CxKept c (c.noticeGroup a g) := by
  unfold Cx.noticeGroup
  dsimp only
  split
  · exact kept_drain c g true _
  · exact .refl c

theorem kept_notice (c : Cx) (n : Notice) : CxKept c (c.notice n) := by
  unfold Cx.notice
  split
  · have h1 := (kept_noticeGroup c n.addr .a).trans (kept_noticeGroup _ n.addr .b)
    dsimp only
    generalize (c.noticeGroup n.addr .a).noticeGroup n.addr .b = c1 at h1 ⊢
    have h2 : CxKept c (if n.addr = c1.cap.writer.repairList.header + 8 then c1.retryHeld else c1) := by
      split
      · exact h1.trans (kept_retryHeld _)
      · exact h1
    generalize (if n.addr = c1.cap.writer.repairList.header + 8 then c1.retryHeld else c1) = c2 at h2 ⊢
    split
    · exact h2.trans (kept_retryMap _)
    · exact h2
  · exact .refl c

theorem kept_discardSpill (c : Cx) (g : Group) : CxKept c (c.discardSpill g) := by
  unfold Cx.discardSpill
  dsimp only
  refine CxKept.trans ?_ (kept_closeLost _ _ _)
  refine CxKept.trans ?_ (kept_countLost _ _ _)
  exact kept_mapOut (by simp [pagesIn])

theorem kept_endSpill (c : Cx) (g : Group) : CxKept c (c.endSpill g) := (kept_drain c g false _).trans (kept_discardSpill _ g)

theorem kept_endRepairs (c : Cx) (rs : List RepairRec) : CxKept c (c.endRepairs rs) := by
  unfold Cx.endRepairs
  dsimp only
  refine CxKept.trans ?_ (kept_suppress _ _)
  refine (kept_placeRepairs c rs).1.trans (kept_holding rfl fun _ => ?_)
  simp [Config.holdingMax]

theorem kept_endMap (c : Cx) : CxKept c c.endMap := by
  unfold Cx.endMap
  split
  · exact .refl c
  · have h := kept_room c .map
    dsimp only
    split
    · refine CxKept.trans ?_ (kept_writeFlags _)
      exact h.trans (kept_mapWriter_of_eq rfl rfl)
    · split
      · exact (h.trans (kept_writeMap _ _)).trans (kept_news _ _)
      · exact h.trans (kept_writeMap _ _)

theorem kept_endWork (c : Cx) : CxKept c c.endWork := by
  unfold Cx.endWork
  dsimp only
  refine CxKept.trans ?_ (kept_endMap _)
  refine CxKept.trans ?_ (kept_endRepairs _ _)
  refine CxKept.trans ?_ (kept_closeEarly _ _)
  refine CxKept.trans ?_ (kept_closeEarly _ _)
  refine CxKept.trans ?_ (kept_endSpill _ _)
  exact kept_endSpill _ _

/-! ## Excerpts -/

theorem kept_setExcerpt (c : Cx) (e : Option Excerpt) : CxKept c (c.setExcerpt e) := kept_mapWriter_of_eq rfl rfl

theorem kept_skipExcerpt (c : Cx) : CxKept c c.skipExcerpt := by
  unfold Cx.skipExcerpt
  dsimp only
  refine CxKept.trans ?_ (kept_progress _ _ _)
  exact kept_mapWriter_of_eq rfl rfl

theorem kept_excerptAnswer (c : Cx) (lane : LaneNo) (last : Option JudgedMark) (now : JudgedMark) :
    CxKept c (c.excerptAnswer lane last now).2 := by
  unfold Cx.excerptAnswer
  dsimp only
  split
  · exact .refl c
  · split
    · split
      · exact kept_setExcerpt _ _
      · exact kept_skipExcerpt _
    · have h := kept_request c (c.cap.writer.excerpts.getD c.cap.writer.excerptCursor ⟨0, 0, 0, 0⟩).addr spanEmpty spanFilling false
      split
      · dsimp only
        refine CxKept.trans ?_ (kept_mapWriter_of_eq rfl rfl)
        exact h.trans (kept_setExcerpt _ _)
      · exact h.trans (kept_skipExcerpt _)

theorem kept_excerptClosing (c : Cx) (lane : LaneNo) (idx seq : Nat) : CxKept c (c.excerptClosing lane idx seq) := by
  unfold Cx.excerptClosing
  split
  · exact .refl c
  · split
    · exact kept_setExcerpt _ _
    · exact .refl c

theorem kept_excerptWrite (c : Cx) (e : Excerpt) (off : Nat) (w : Word) : CxKept c (c.excerptWrite e off w) :=
  .ofHub (hubKept_store _ _ w)

theorem kept_closeExcerpt (c : Cx) (e : Excerpt) (a b : Bool) : CxKept c (c.closeExcerpt e a b) := by
  unfold Cx.closeExcerpt
  dsimp only
  refine CxKept.trans ?_ (kept_setExcerpt _ _)
  split
  · refine CxKept.trans ?_ (kept_news _ _)
    refine CxKept.trans ?_ (kept_request _ _ _ _ _)
    refine CxKept.trans ?_ (kept_excerptWrite _ _ _ _)
    refine CxKept.trans ?_ (kept_excerptWrite _ _ _ _)
    refine CxKept.trans ?_ (kept_excerptWrite _ _ _ _)
    refine CxKept.trans ?_ (kept_excerptWrite _ _ _ _)
    refine CxKept.trans ?_ (kept_excerptWrite _ _ _ _)
    exact .ofHub (hubKept_storeWords _ _ _)
  · refine CxKept.trans ?_ (kept_request _ _ _ _ _)
    refine CxKept.trans ?_ (kept_excerptWrite _ _ _ _)
    refine CxKept.trans ?_ (kept_excerptWrite _ _ _ _)
    refine CxKept.trans ?_ (kept_excerptWrite _ _ _ _)
    refine CxKept.trans ?_ (kept_excerptWrite _ _ _ _)
    refine CxKept.trans ?_ (kept_excerptWrite _ _ _ _)
    exact .ofHub (hubKept_storeWords _ _ _)

theorem hubKept_storeElements (h : Hub) (e : Excerpt) (xs : List (List Sample)) :
    HubKept h { h with port := (storeElements h.port e xs).2.2 } := by
  induction xs generalizing h e with
  | nil => exact .refl h
  | cons x rest ih =>
    unfold storeElements
    split
    · exact (hubKept_storeWords h _ _).trans (ih { h with port := h.port.storeWords _ _ } _)
    · exact .refl h

theorem kept_storeBlock (c : Cx) (e : Excerpt) (b : HistBlock) (f : Option Nat) : CxKept c (c.storeBlock e b f) := by
  unfold Cx.storeBlock
  dsimp only
  have h := CxKept.ofHub (hubKept_storeElements c.hub e
    ((laneElements (getAt c.cap.params.lanes e.lane)).map fun n => b.samples.getD n []))
  split
  · exact h.trans (kept_closeExcerpt _ _ _ _)
  · split
    · exact h.trans (kept_closeExcerpt _ _ _ _)
    · split
      · exact h.trans (kept_closeExcerpt _ _ _ _)
      · exact h.trans (kept_setExcerpt _ _)

/-! ## The lane monitor -/

theorem kept_setLane (c : Cx) (lane : LaneNo) (l : LaneState) : CxKept c (c.setLane lane l) := kept_mapMonitor c _

theorem kept_closeDropout (c : Cx) (lane : LaneNo) (d : Dropout) (cut : Bool) (closing : Option Nat) (block : Nat) :
    CxKept c (c.closeDropout lane d cut closing block) := by
  unfold Cx.closeDropout
  dsimp only
  refine CxKept.trans ?_ (kept_excerptClosing _ _ _ _)
  refine CxKept.trans ?_ (kept_mapMonitor _ _)
  exact kept_takeSeq c

theorem kept_openDropout (c : Cx) (lane : LaneNo) (last : Option JudgedMark) (now : JudgedMark) :
    CxKept c (c.openDropout lane last now) := by
  unfold Cx.openDropout
  have h := kept_excerptAnswer c lane last now
  dsimp only
  split
  · exact h
  · split
    · exact h.trans (kept_setLane _ _ _)
    · exact h

theorem kept_judgeSegment (b : BlockInput) (j : Nat) (acc : Cx × Judgements) (lane : LaneNo) :
    CxKept acc.1 (Cx.judgeSegment b j acc lane).1 := by
  obtain ⟨c, js⟩ := acc
  unfold Cx.judgeSegment
  dsimp only
  split
  · dsimp only
    generalize LaneState.judge _ _ = r
    have h2 : CxKept c (if r.opened then (c.setLane lane r.state).openDropout lane b.last b.mark else c.setLane lane r.state) := by
      split
      · exact (kept_setLane _ _ _).trans (kept_openDropout _ _ _ _)
      · exact kept_setLane _ _ _
    generalize (if r.opened then (c.setLane lane r.state).openDropout lane b.last b.mark else c.setLane lane r.state) = c2 at h2 ⊢
    split
    · exact h2
    · exact h2.trans (kept_closeDropout _ _ _ _ _ _)
  · exact .refl c

theorem kept_foldl {α : Type} (f : Cx → α → Cx) (h : ∀ c a, CxKept c (f c a)) (c : Cx) (l : List α) : CxKept c (l.foldl f c) := by
  induction l generalizing c with
  | nil => exact .refl c
  | cons a l ih => exact (h c a).trans (ih _)

theorem kept_foldl_fst {α β : Type} (f : Cx × β → α → Cx × β) (h : ∀ x a, CxKept x.1 (f x a).1) (x : Cx × β) (l : List α) :
    CxKept x.1 (l.foldl f x).1 := by
  induction l generalizing x with
  | nil => exact .refl x.1
  | cons a l ih => exact (h x a).trans (ih _)

theorem kept_judgeSegments (b : BlockInput) (x : Cx × Judgements) (l : List Nat) :
    CxKept x.1 (l.foldl (fun (acc : Cx × Judgements) (j : Nat) => laneNos.foldl (Cx.judgeSegment b j) acc) x).1 :=
  kept_foldl_fst _ (fun x j => kept_foldl_fst _ (fun y lane => kept_judgeSegment b j y lane) x laneNos) x l

theorem kept_laneEnd (idx : Nat) (c : Cx) (lane : LaneNo) : CxKept c (c.laneEnd idx lane) := by
  unfold Cx.laneEnd
  split
  · exact .refl c
  · dsimp only
    split
    · exact kept_setLane _ _ _
    · refine CxKept.trans ?_ (kept_closeDropout _ _ _ _ _ _)
      exact kept_setLane _ _ _

theorem kept_lanesEnd (c : Cx) (idx : Nat) : CxKept c (c.lanesEnd idx) := by
  unfold Cx.lanesEnd
  refine CxKept.trans ?_ (kept_mapMonitor _ _)
  exact kept_foldl (Cx.laneEnd idx) (kept_laneEnd idx) c laneNos

theorem kept_judgeLanes (c : Cx) (ec : ElementCapture) (t : Taken) (h : HistBlock) : CxKept c (c.judgeLanes ec t h) := by
  unfold Cx.judgeLanes
  extract_lets mark c0 b step
  have h0 : CxKept c c0 := by
    show CxKept c (if t.first then _ else c)
    split
    · exact kept_mapMonitor _ _
    · exact .refl c
  have h1 : CxKept c ((List.range 16).foldl step (c0, c0.freshJudgements b)).1 :=
    h0.trans (kept_judgeSegments b (c0, c0.freshJudgements b) (List.range 16))
  generalize (List.range 16).foldl step (c0, c0.freshJudgements b) = x at h1 ⊢
  dsimp only
  split
  · refine CxKept.trans ?_ (kept_lanesEnd _ _)
    refine CxKept.trans ?_ (kept_mapControl _ _)
    exact h1.trans (kept_mapMonitor _ _)
  · refine CxKept.trans ?_ (kept_mapControl _ _)
    exact h1.trans (kept_mapMonitor _ _)

theorem kept_handComplete (c : Cx) : CxKept c c.handComplete := by
  unfold Cx.handComplete
  split
  · exact .refl c
  · dsimp only
    refine CxKept.trans ?_ (kept_mapWriter_of_eq rfl rfl)
    exact kept_mapMonitor _ _

/-! ## Controller, skew estimator, speed reference unit, resampler -/

theorem kept_setState (c : Cx) (st : RunState) : CxKept c (c.setState st) := by
  unfold Cx.setState
  refine CxKept.trans ?_ (kept_progress _ _ _)
  exact kept_mapControl _ _

theorem kept_endByLeader (c : Cx) (t : Taken) : CxKept c (c.endByLeader t) := by
  unfold Cx.endByLeader
  dsimp only
  split
  · refine CxKept.trans ?_ (kept_setState _ _)
    exact kept_mapControl _ _
  · refine CxKept.trans ?_ (kept_lanesEnd _ _)
    refine CxKept.trans ?_ (kept_setState _ _)
    exact kept_mapControl _ _

theorem kept_receivePeak (c : Cx) : CxKept c c.receivePeak := by
  unfold Cx.receivePeak
  split
  · exact .refl c
  · split
    · exact kept_mapControl _ _
    · dsimp only
      split
      · refine CxKept.trans ?_ (kept_endByLeader _ _)
        exact kept_mapControl _ _
      · exact kept_mapControl _ _

theorem kept_workSkew (c : Cx) (ec : ElementCapture) (t : Taken) (js : Judgements) (i : Option SkewInput) :
    CxKept c (c.workSkew ec t js i) := by
  unfold Cx.workSkew
  dsimp only
  refine CxKept.trans ?_ (kept_mapControl _ _)
  exact .ofCap rfl rfl rfl

theorem kept_setSource (c : Cx) (g : Group) (r : Option SourceRun) : CxKept c (c.setSource g r) := kept_mapControl _ _

theorem kept_endSource (c : Cx) (g : Group) (r : SourceRun) (out : OrderOutcome) (own : Bool) :
    CxKept c (c.endSource g r out own) := by
  unfold Cx.endSource
  dsimp only
  refine CxKept.trans ?_ (kept_setSource _ _ _)
  exact .ofHub (hubKept_report _ _ _ _)

theorem kept_writeProbation (c : Cx) (r : SourceRun) : CxKept c (c.writeProbation r) := by
  unfold Cx.writeProbation
  split
  · exact .refl c
  · exact .ofHub (hubKept_slotWrite _ _ _ _)

theorem kept_settleSource (c : Cx) (g : Group) : CxKept c (c.settleSource g) := by
  unfold Cx.settleSource
  split
  · exact .refl c
  · split
    · split
      · refine CxKept.trans ?_ (kept_endSource _ _ _ _ _)
        exact .ofHub (hubKept_slotWrite _ _ _ _)
      · refine CxKept.trans ?_ (kept_endSource _ _ _ _ _)
        exact kept_writeProbation _ _
    · exact .refl c

theorem kept_settleSpeed (c : Cx) : CxKept c c.settleSpeed := by
  unfold Cx.settleSpeed
  dsimp only
  refine CxKept.trans ?_ (kept_mapSpeed _ _)
  refine CxKept.trans ?_ (kept_settleSource _ _)
  exact kept_settleSource _ _

theorem hubKept_setRunning {h : Hub} {n : SlotNo} (ht : (h.orders.slot n).state = .taken) :
    HubKept h { h with orders := h.orders.setState n .running } := by
  refine ⟨rfl, id, rfl, fun m => ?_⟩
  change ((h.orders.setSlot n _).slot m).mask = (h.orders.slot m).mask ∧ ((h.orders.setSlot n _).slot m).live = (h.orders.slot m).live ∧
    (((h.orders.setSlot n _).slot m).state = (h.orders.slot m).state ∨ ((h.orders.slot m).state = .taken ∧
      ((h.orders.setSlot n _).slot m).state = .running))
  rw [OrderUnit.setSlot_slot]
  split
  · rename_i e; subst e; exact ⟨rfl, rfl, .inr ⟨ht, rfl⟩⟩
  · exact ⟨rfl, rfl, .inl rfl⟩

theorem hubKept_sourceSwitch {h : Hub} {n : SlotNo} (ht : (h.orders.slot n).state = .taken) (count idx : Nat) (p : Option Source) :
    HubKept h (h.sourceSwitch n count idx p) := by
  unfold Hub.sourceSwitch
  dsimp only
  refine HubKept.trans ?_ (hubKept_setRunning ht)
  refine HubKept.trans ?_ (hubKept_slotWrite _ _ _ _)
  refine HubKept.trans ?_ (hubKept_slotWrite _ _ _ _)
  exact hubKept_slotWrite _ _ _ _

theorem kept_judgeSource (c : Cx) (name : Group) (tach : Tach) (g : GroupSpeed) (idx : Nat) :
    CxKept c (c.judgeSource name tach g idx).2 := by
  unfold Cx.judgeSource
  split
  · exact .refl c
  · split
    · split
      · split
        · rename_i ht
          dsimp only
          refine CxKept.trans ?_ (kept_setSource _ _ _)
          exact .ofHub (hubKept_sourceSwitch ht _ _ _)
        · exact kept_endSource _ _ _ _ _
      · exact kept_setSource _ _ _
    · dsimp only
      split
      · exact kept_setSource _ _ _
      · dsimp only
        refine CxKept.trans ?_ (kept_endSource _ _ _ _ _)
        exact kept_writeProbation _ _

theorem kept_speedOption (c : Cx) (name : Group) (tach : Tach) (t : Taken) (g : Option GroupSpeed) :
    CxKept c (c.speedOption name tach t g).2.2 := by
  unfold Cx.speedOption
  split
  · exact .refl c
  · exact kept_judgeSource c name tach _ _

theorem kept_lockNews (c : Cx) (r : Option SpeedReport) : CxKept c (c.lockNews r) := by
  unfold Cx.lockNews
  split
  · exact .refl c
  · split
    · exact kept_news _ _
    · exact .refl c

theorem kept_workSpeed (c : Cx) (u : SpeedUnit) (t : Taken) (i : SpeedInput) : CxKept c (c.workSpeed u t i) := by
  unfold Cx.workSpeed
  dsimp only
  refine CxKept.trans ?_ (kept_lockNews _ _)
  refine CxKept.trans ?_ (kept_lockNews _ _)
  refine CxKept.trans ?_ (kept_mapControl _ _)
  refine CxKept.trans ?_ (.ofCap rfl rfl rfl)
  refine CxKept.trans ?_ (kept_speedOption _ _ _ _ _)
  exact kept_speedOption _ _ _ _ _

theorem kept_dropFlushed (c : Cx) (g : Group) : CxKept c (c.dropFlushed g) := by
  unfold Cx.dropFlushed
  split
  · exact .ofCap rfl rfl rfl
  · exact .refl c

/-- Of the capture it changes the group's resampler and nothing else. -/
theorem dropFlushed_eq (c : Cx) (g : Group) : c.dropFlushed g = { c with cap := { c.cap with
    resamplers := if c.cap.control.flushed g then c.cap.resamplers.put g none else c.cap.resamplers } } := by
  unfold Cx.dropFlushed
  split <;> rfl

@[simp] theorem dropFlushed_hub (c : Cx) (g : Group) : (c.dropFlushed g).hub = c.hub := by rw [dropFlushed_eq]

@[simp] theorem dropFlushed_control (c : Cx) (g : Group) : (c.dropFlushed g).cap.control = c.cap.control := by rw [dropFlushed_eq]

@[simp] theorem dropFlushed_monitor (c : Cx) (g : Group) : (c.dropFlushed g).cap.monitor = c.cap.monitor := by rw [dropFlushed_eq]

@[simp] theorem dropFlushed_writer (c : Cx) (g : Group) : (c.dropFlushed g).cap.writer = c.cap.writer := by rw [dropFlushed_eq]

/-- The groups that have flushed the capture's final block: no block is left to take or to resample. -/
theorem flushed_iff (k : Control) (g : Group) : k.flushed g = true ↔ k.state = .stopping ∧ k.toTake = [] ∧ k.candidate = none ∧
    k.cancelLeft = 0 ∧ ∀ x ∈ k.inFlight, (x.resampled.get g).isSome = true := by
  simp only [Control.flushed, Control.unresampled, Bool.and_eq_true, decide_eq_true_eq, List.isEmpty_iff,
    Option.isNone_iff_eq_none, List.find?_eq_none, Option.isSome_iff_ne_none, ne_eq, and_assoc]

theorem kept_finishResample (c : Cx) (g : Group) (t : Taken) (x : Resampling) : CxKept c (c.finishResample g t x) := by
  unfold Cx.finishResample
  dsimp only
  refine CxKept.trans ?_ (kept_handComplete _)
  refine CxKept.trans ?_ (kept_dropFlushed _ _)
  refine CxKept.trans ?_ (kept_mapControl _ _)
  refine CxKept.trans ?_ (kept_mapOut_of_eq fun _ => rfl)
  refine CxKept.trans ?_ (kept_mapMonitor _ _)
  exact .ofCap rfl rfl rfl

/-! ## The capture controller -/

theorem kept_decideTake (c : Cx) (r : TakeRequest) : CxKept c (c.decideTake r) := kept_mapControl _ _

theorem kept_makeCandidate (c : Cx) (r : TakeRequest) : CxKept c (c.makeCandidate r) := by
  unfold Cx.makeCandidate
  split
  · refine CxKept.trans ?_ (kept_setState _ _)
    refine CxKept.trans ?_ (kept_mapControl _ _)
    exact kept_decideTake _ _
  · exact kept_mapControl _ _

theorem kept_takeCandidate (c : Cx) (f : Option EndKind) : CxKept c (c.takeCandidate f) := by
  unfold Cx.takeCandidate
  split
  · exact .refl c
  · refine CxKept.trans ?_ (kept_mapControl _ _)
    exact kept_decideTake _ _

theorem kept_createUnits (c : Cx) (table : Vector CalEntry 16) (nc : Nat) :
    CxKept c { c with cap := c.cap.createUnits table nc } := .ofCap rfl rfl rfl

theorem kept_startCapture (c : Cx) (ec : ElementCapture) (b : StreamBlock) (r : BlockRecord) : CxKept c (c.startCapture ec b r) := by
  unfold Cx.startCapture
  dsimp only
  refine CxKept.trans ?_ (kept_makeCandidate _ _)
  refine CxKept.trans ?_ (kept_createUnits _ _ _)
  refine CxKept.trans ?_ (kept_setState _ _)
  refine CxKept.trans ?_ (kept_progress _ _ _)
  refine CxKept.trans ?_ (kept_progress _ _ _)
  refine CxKept.trans ?_ (kept_progress _ _ _)
  refine CxKept.trans ?_ (kept_progress _ _ _)
  refine CxKept.trans ?_ (kept_progress _ _ _)
  exact kept_mapControl _ _

theorem kept_pause (c : Cx) : CxKept c c.pause := by
  unfold Cx.pause
  dsimp only
  refine CxKept.trans ?_ (kept_setState _ _)
  refine CxKept.trans ?_ (kept_progress _ _ _)
  refine CxKept.trans ?_ (kept_mapControl _ _)
  exact kept_takeCandidate _ _

theorem kept_judgeCancelled (c : Cx) (b : StreamBlock) : CxKept c (c.judgeCancelled b) := by
  unfold Cx.judgeCancelled
  dsimp only
  split
  · exact .refl c
  · split
    · refine CxKept.trans ?_ (kept_mapControl _ _)
      exact kept_takeCandidate _ _
    · split
      · refine CxKept.trans ?_ (kept_mapControl _ _)
        refine CxKept.trans ?_ (kept_takeCandidate _ _)
        refine CxKept.trans ?_ (kept_mapControl _ _)
        exact kept_takeCandidate _ _
      · refine CxKept.trans ?_ (kept_mapControl _ _)
        exact kept_takeCandidate _ _

theorem kept_judge (c : Cx) (ec : ElementCapture) (b : StreamBlock) : CxKept c (c.judge ec b) := by
  unfold Cx.judge
  split
  · exact kept_judgeCancelled c b
  · split
    · exact kept_startCapture c ec b _
    · exact .refl c
  · split
    · refine CxKept.trans ?_ (kept_makeCandidate _ _)
      exact kept_takeCandidate _ _
    · exact kept_pause c
  · exact kept_pause c
  · split
    · refine CxKept.trans ?_ (kept_makeCandidate _ _)
      exact kept_setState _ _
    · exact .refl c
  · exact .refl c
  · exact .refl c

theorem kept_writePosition (c : Cx) (b : StreamBlock) : CxKept c (c.writePosition b) := by
  unfold Cx.writePosition
  split
  · exact .refl c
  · exact kept_progress _ _ _

theorem kept_takeBlock (c : Cx) (table : Vector CalEntry 16) (r : TakeRequest) (rest : List TakeRequest) :
    CxKept c (c.takeBlock table r rest) := by
  unfold Cx.takeBlock
  dsimp only
  split
  · exact kept_setControl _ _
  · refine CxKept.trans ?_ (kept_progress _ _ _)
    exact kept_setControl _ _

theorem kept_writeCounts (c : Cx) (off : Nat) (x : Option (Word × Word)) : CxKept c (c.writeCounts off x) := by
  unfold Cx.writeCounts
  split
  · exact .refl c
  · refine CxKept.trans ?_ (kept_progress _ _ _)
    exact kept_progress _ _ _

theorem hubKept_reports (h : Hub) (l : List (SlotNo × Nat)) : HubKept h (l.foldl (fun h p => h.report p.1 .complete false) h) := by
  induction l generalizing h with
  | nil => exact .refl h
  | cons a l ih => exact (hubKept_report h _ _ _).trans (ih _)

theorem kept_completeRetunes (c : Cx) (idx : Nat) : CxKept c (c.completeRetunes idx) := by
  unfold Cx.completeRetunes
  dsimp only
  exact CxKept.trans (kept_mapControl c _) (.ofHub (hubKept_reports _ _))

theorem kept_processed (c : Cx) (t : Taken) : CxKept c (c.processed t) := by
  unfold Cx.processed
  dsimp only
  refine CxKept.trans ?_ (kept_completeRetunes _ _)
  refine CxKept.trans ?_ (kept_writeCounts _ _ _)
  refine CxKept.trans ?_ (kept_writeCounts _ _ _)
  refine CxKept.trans ?_ (kept_progress _ _ _)
  refine CxKept.trans ?_ (kept_progress _ _ _)
  exact kept_mapControl _ _

theorem kept_cancelCapture (c : Cx) (n : Nat) : CxKept c (c.cancelCapture n) := by
  unfold Cx.cancelCapture
  dsimp only
  split
  · refine CxKept.trans ?_ (kept_setState _ _)
    exact kept_mapControl _ _
  · refine CxKept.trans ?_ (kept_dropFlushed _ _)
    refine CxKept.trans ?_ (kept_dropFlushed _ _)
    refine CxKept.trans ?_ (kept_setState _ _)
    exact kept_mapControl _ _
  · exact .refl c
  · split
    · refine CxKept.trans ?_ (kept_setState _ _)
      refine CxKept.trans ?_ (kept_mapControl _ _)
      exact kept_takeCandidate _ _
    · refine CxKept.trans ?_ (kept_mapControl _ _)
      refine CxKept.trans ?_ (kept_setState _ _)
      exact kept_mapControl _ _

theorem kept_endSourceAtStop (c : Cx) (g : Group) : CxKept c (c.endSourceAtStop g) := by
  unfold Cx.endSourceAtStop
  split
  · exact .refl c
  · refine CxKept.trans ?_ (kept_endSource _ _ _ _ _)
    exact kept_writeProbation _ _

theorem kept_endPending (c : Cx) : CxKept c c.endPending := by
  unfold Cx.endPending
  split
  · exact .refl c
  · dsimp only
    refine CxKept.trans ?_ (kept_mapControl _ _)
    exact .ofHub (hubKept_report _ _ _ _)

theorem kept_writeFinal (c : Cx) : CxKept c c.writeFinal := by
  unfold Cx.writeFinal
  dsimp only
  refine CxKept.trans ?_ (kept_progress _ _ _)
  refine CxKept.trans ?_ (kept_progress _ _ _)
  refine CxKept.trans ?_ (kept_progress _ _ _)
  refine CxKept.trans ?_ (kept_writeCounts _ _ _)
  refine CxKept.trans ?_ (kept_writeCounts _ _ _)
  refine CxKept.trans ?_ (kept_progress _ _ _)
  refine CxKept.trans ?_ (kept_progress _ _ _)
  exact kept_progress _ _ _

theorem kept_reportEnd (c : Cx) : CxKept c c.reportEnd := .ofHub (hubKept_report _ _ _ _)

theorem kept_dropUnits (c : Cx) : CxKept c { c with cap := c.cap.dropUnits } := .ofCap rfl rfl rfl

theorem kept_stopCapture (c : Cx) : CxKept c c.stopCapture := by
  unfold Cx.stopCapture
  dsimp only
  refine CxKept.trans ?_ (kept_dropUnits _)
  refine CxKept.trans ?_ (kept_mapControl _ _)
  refine CxKept.trans ?_ (kept_reportEnd _)
  refine CxKept.trans ?_ (kept_writeFinal _)
  refine CxKept.trans ?_ (kept_endWork _)
  refine CxKept.trans ?_ (kept_endPending _)
  refine CxKept.trans ?_ (kept_endSourceAtStop _ _)
  exact kept_endSourceAtStop _ _

/-! ## Cancels, acceptance, the warm reset -/

/-- Following the tuning of block 0 changes skew seeds and speed groups only (R165). -/
theorem followTuning_frame (cap : Capture) (table : Vector CalEntry 16) :
    cap.followTuning table = { cap with skew := (cap.followTuning table).skew, speed := (cap.followTuning table).speed } := by
  unfold Capture.followTuning
  split
  · rfl
  · split <;> rfl

/-- In ARMED no unit follows the tuning. -/
theorem followTuning_armed {cap : Capture} (h : cap.speed = none) (table : Vector CalEntry 16) : cap.followTuning table = cap := by
  unfold Capture.followTuning
  rw [h]

/-- Once block 0 is taken no unit follows the pending tuning. -/
theorem followTuning_taken {cap : Capture} (h : cap.control.nextIdx ≠ 0) (table : Vector CalEntry 16) :
    cap.followTuning table = cap := by
  unfold Capture.followTuning
  split
  · rfl
  · rw [if_neg h]

theorem kept_followTuning (c : Cx) (table : Vector CalEntry 16) : CxKept c { c with cap := c.cap.followTuning table } := by
  rw [followTuning_frame]
  exact .ofCap rfl rfl rfl

theorem kept_setPendingTuning (c : Cx) (table : Vector CalEntry 16) (p : Option PendingTuning) :
    CxKept c (c.setPendingTuning table p) := by
  unfold Cx.setPendingTuning
  dsimp only
  refine CxKept.trans ?_ (kept_followTuning _ _)
  exact kept_mapControl c _

theorem kept_cancelRetune (c : Cx) (table : Vector CalEntry 16) (n : SlotNo) : CxKept c (c.cancelRetune table n) := by
  unfold Cx.cancelRetune
  split
  · exact .refl c
  · split
    · refine CxKept.trans ?_ (kept_setPendingTuning _ _ _)
      exact .ofHub (hubKept_report _ _ _ _)
    · exact .refl c

theorem kept_cancelSource (n : SlotNo) (c : Cx) (g : Group) : CxKept c (c.cancelSource n g) := by
  unfold Cx.cancelSource
  split
  · exact .refl c
  · split
    · split
      · exact kept_endSource _ _ _ _ _
      · refine CxKept.trans ?_ (kept_endSource _ _ _ _ _)
        exact kept_writeProbation _ _
    · exact .refl c

theorem kept_cancelOwn (n : SlotNo) (k : Nat) (c : Cx) : CxKept c (c.cancelOwn n k) := by
  unfold Cx.cancelOwn
  split
  · exact kept_cancelCapture c k
  · exact .refl c

theorem kept_supersedeSource (c : Cx) (g : Group) : CxKept c (c.supersedeSource g) := by
  unfold Cx.supersedeSource
  split
  · exact .refl c
  · refine CxKept.trans ?_ (kept_endSource _ _ _ _ _)
    exact kept_writeProbation _ _

theorem kept_supersedeByList (c : Cx) (t : Tuning) (g : Group) : CxKept c (c.supersedeByList t g) := by
  unfold Cx.supersedeByList
  split
  · exact .refl c
  · exact kept_supersedeSource c g

theorem kept_supersedeTuning (c : Cx) : CxKept c c.supersedeTuning := by
  unfold Cx.supersedeTuning
  split
  · exact .refl c
  · exact .ofHub (hubKept_report _ _ _ _)

theorem kept_acceptRetune (c : Cx) (table : Vector CalEntry 16) (n : SlotNo) (t : Tuning) :
    CxKept c (c.acceptRetune table n t) := by
  unfold Cx.acceptRetune
  dsimp only
  refine CxKept.trans ?_ (.ofHub (hubKept_slotWrite _ _ _ _))
  refine CxKept.trans ?_ (kept_setPendingTuning _ _ _)
  refine CxKept.trans ?_ (kept_supersedeByList _ _ _)
  refine CxKept.trans ?_ (kept_supersedeByList _ _ _)
  exact kept_supersedeTuning _

theorem kept_acceptSource (c : Cx) (n : SlotNo) (g : Group) (target : Source) (k : Nat) :
    CxKept c (c.acceptSource n g target k) := by
  unfold Cx.acceptSource
  refine CxKept.trans ?_ (kept_setSource _ _ _)
  exact kept_supersedeSource c g

theorem kept_laneReset (c : Cx) (lane : LaneNo) : CxKept c (c.laneReset lane) := by
  unfold Cx.laneReset
  split
  · exact .refl c
  · dsimp only
    split
    · exact kept_setLane _ _ _
    · refine CxKept.trans ?_ (kept_closeDropout _ _ _ _ _ _)
      exact kept_setLane _ _ _

theorem kept_lanesReset (c : Cx) : CxKept c c.lanesReset := by
  unfold Cx.lanesReset
  dsimp only
  refine CxKept.trans ?_ (kept_handComplete _)
  refine CxKept.trans ?_ (kept_mapMonitor _ _)
  exact kept_foldl Cx.laneReset kept_laneReset c laneNos

theorem kept_closeCut (c : Cx) (g : Group) : CxKept c (c.closeCut g) := by
  unfold Cx.closeCut
  split
  · exact .refl c
  · refine CxKept.trans ?_ (kept_closeSpan _ _)
    exact kept_spanWrite _ _ _ _

theorem kept_fillReleased (c : Cx) (g : Group) (fs : List Frame) : CxKept c (c.fillReleased g fs) := by
  induction fs generalizing c with
  | nil => exact .refl c
  | cons f rest ih =>
    unfold Cx.fillReleased
    split
    · refine CxKept.trans ?_ (ih _)
      refine CxKept.trans ?_ (kept_writeFrame _ _ _)
      exact kept_mapOut_of_eq fun _ => rfl
    · exact .refl c

theorem kept_discardFrames (c : Cx) (g : Group) : CxKept c (c.discardFrames g) := by
  unfold Cx.discardFrames
  dsimp only
  refine CxKept.trans ?_ (kept_countLost _ _ _)
  exact kept_mapOut (by simp [pagesIn])

theorem kept_cutExcerpt (c : Cx) : CxKept c c.cutExcerpt := by
  unfold Cx.cutExcerpt
  split
  · exact .refl c
  · exact kept_closeExcerpt _ _ _ _

theorem kept_writerReset (c : Cx) : CxKept c c.writerReset := by
  unfold Cx.writerReset
  dsimp only
  refine CxKept.trans ?_ (kept_endMap _)
  refine CxKept.trans ?_ (kept_endRepairs _ _)
  refine CxKept.trans ?_ (kept_closeLost _ _ _)
  refine CxKept.trans ?_ (kept_closeLost _ _ _)
  refine CxKept.trans ?_ (kept_cutExcerpt _)
  refine CxKept.trans ?_ (kept_discardFrames _ _)
  refine CxKept.trans ?_ (kept_discardFrames _ _)
  refine CxKept.trans ?_ (kept_closeCut _ _)
  exact kept_closeCut _ _

theorem kept_resetCapture (c : Cx) : CxKept c c.resetCapture := by
  unfold Cx.resetCapture
  dsimp only
  refine CxKept.trans ?_ (kept_writerReset _)
  refine CxKept.trans ?_ (kept_lanesReset _)
  refine CxKept.trans ?_ (kept_fillReleased _ _ _)
  refine CxKept.trans ?_ (kept_fillReleased _ _ _)
  refine CxKept.trans ?_ (kept_closeMap _)
  refine CxKept.trans ?_ (kept_progress _ _ _)
  exact kept_mapControl _ _

end Sys2Proof.Laws
end

