-- ==== Sys2Proof/Laws/Port.lean ====
section
/-! SUPPORT. The memory port as the host sees it: which command an address belongs to, merged bytes, stored words, ended
watches. -/

namespace Sys2Proof.Laws

open Machine Safety

/-! ## The memory map -/

theorem targetOf_ident {addr : Addr} (h : addr.toNat / 4 = 0x100000) : targetOf addr = .ident := by
  have : wordAddress addr = 0x400000 := by unfold wordAddress; omega
  simp [targetOf, this, Config.memoryEnd]

theorem targetOf_status {addr : Addr} (h : addr.toNat / 4 = 0x100001) : targetOf addr = .status := by
  have : wordAddress addr = 0x400004 := by unfold wordAddress; omega
  simp [targetOf, this, Config.memoryEnd]

theorem targetOf_unassigned {addr : Addr} (h : 0x40000C ≤ addr.toNat) : targetOf addr = .unassigned := by
  have : 0x40000C ≤ wordAddress addr := by unfold wordAddress; omega
  have a1 : ¬ wordAddress addr < 8192 := by omega
  have a2 : ¬ wordAddress addr = 8192 := by omega
  have a3 : ¬ wordAddress addr < 4194304 := by omega
  have a4 : ¬ wordAddress addr = 4194304 := by omega
  have a5 : ¬ wordAddress addr = 4194308 := by omega
  have a6 : ¬ wordAddress addr = 4194312 := by omega
  simp [targetOf, a1, a2, a3, a4, a5, a6, Config.memoryEnd]

/-- An address of ordinary memory reaches its word. -/
theorem targetOf_ordinary {addr : Addr} (h : isOrdinary addr = true) : targetOf addr = .memory (wordAddress addr) := by
  simp only [isOrdinary, Config.memoryEnd] at h
  simp at h
  obtain ⟨⟨h1, h2⟩, h3⟩ := h
  have h1 : wordAddress addr < 4194304 := of_decide_eq_true h1
  have b1 : ¬ (wordAddress addr < 8192 ∧ wordAddress addr % 256 = 0) := fun ⟨a, b⟩ => by omega
  have b2 : ¬ (wordAddress addr < 8192 ∧ wordAddress addr % 256 = 4) := fun ⟨a, b⟩ => by omega
  simp [targetOf, b1, b2, h1, h3, Config.memoryEnd]

/-- Only an address of ordinary memory reaches a word of memory. -/
theorem isOrdinary_of_target {addr : Addr} {a : Nat} (h : targetOf addr = .memory a) :
    isOrdinary addr = true ∧ a = wordAddress addr := by
  unfold targetOf at h
  dsimp only at h
  split at h; · cases h
  split at h; · cases h
  split at h; · cases h
  split at h
  · rename_i h1 h2 h3 h4
    refine ⟨?_, (by injection h with h; exact h.symm)⟩
    unfold isOrdinary
    simp
    refine ⟨⟨by simpa using h4, ?_⟩, h3⟩
    omega
  split at h; · cases h
  split at h; · cases h
  split at h <;> cases h

@[simp] theorem targetOf_stateAddr (n : SlotNo) : targetOf (stateAddr n) = .slotState n := by revert n; decide

@[simp] theorem targetOf_newsAddr (n : SlotNo) : targetOf (newsAddr n) = .news n := by revert n; decide

@[simp] theorem targetOf_summaryAddr : targetOf summaryAddr = .summary := by decide

@[simp] theorem targetOf_controlAddr : targetOf controlAddr = .control := by decide

/-! ## Bytes -/

theorem byteOf_mergeWord (enables : BitVec 4) (old new : Word) {i : Nat} (hi : i < 4) :
    byteOf (mergeWord enables old new) i = if enables.getLsbD i then byteOf new i else byteOf old i := by
  obtain ⟨h0, h1, h2, h3⟩ := byteOf_wordOfBytes (pickByte enables old new 0) (pickByte enables old new 1)
    (pickByte enables old new 2) (pickByte enables old new 3)
  unfold mergeWord
  interval_cases i
  · rw [h0]; rfl
  · rw [h1]; rfl
  · rw [h2]; rfl
  · rw [h3]; rfl

/-- A read with all four bytes enabled returns the word. -/
@[simp] theorem selectBytes_all (w : Word) : selectBytes 0xF#4 w = w := by
  unfold selectBytes mergeWord
  have := wordOfBytes_wordBytes w
  simpa [pickByte] using this

/-! ## Stored words -/

/-- What storing a word leaves: the word, fresh check bits, every byte and every mark of other words as before. -/
theorem store_spec {p : Port} (h : Memory.wf p.mem = true) (a : Nat) (w : Word) :
    readMemWord (p.store a w).mem a = w ∧ eccAt (p.store a w).ecc a = none ∧
    (∀ x, x < a ∨ a + 4 ≤ x → readByte (p.store a w).mem x = readByte p.mem x) ∧
    (∀ x, x ≠ a → eccAt (p.store a w).ecc x = eccAt p.ecc x) :=
  ⟨readMemWord_writeMemWord h a w, eccAt_clearEcc_self _ _, fun _ hx => readByte_writeMemWord_outside h w hx,
    fun _ hx => eccAt_clearEcc_of_ne _ hx⟩

theorem eccAt_filter_of_pos {l : List (Nat × EccMark)} {f : Nat → Bool} {a : Nat} (h : f a = true) :
    eccAt (l.filter fun k => f k.1) a = eccAt l a := by
  induction l with
  | nil => rfl
  | cons c l ih =>
    by_cases ha : a = c.1
    · have : f c.1 = true := ha ▸ h
      simp [this, eccAt, ha]
    · by_cases hc : f c.1 = true
      · simp [hc, eccAt, ha, ih]
      · simp [hc, eccAt, ha, ih]

theorem eccAt_filter_of_neg {l : List (Nat × EccMark)} {f : Nat → Bool} {a : Nat} (h : f a = false) :
    eccAt (l.filter fun k => f k.1) a = none := by
  induction l with
  | nil => rfl
  | cons c l ih =>
    by_cases hc : f c.1 = true
    · have : a ≠ c.1 := by rintro rfl; simp [h] at hc
      simp [hc, eccAt, this, ih]
    · simp [hc, ih]

/-- A word of a run of words, as bytes. -/
theorem flatMap_wordBytes_getElem? {ws : List Word} {i : Nat} {w : Word} (h : ws[i]? = some w) {j : Nat} (hj : j < 4) :
    (ws.flatMap wordBytes)[4 * i + j]? = some (byteOf w j) := by
  induction ws generalizing i with
  | nil => simp at h
  | cons v ws ih =>
    rw [List.flatMap_cons]
    cases i with
    | zero =>
      simp at h
      subst h
      rw [List.getElem?_append_left (by simp [wordBytes]; omega)]
      interval_cases j <;> rfl
    | succ i =>
      rw [List.getElem?_append_right (by simp [wordBytes]; omega), wordBytes_length,
        show 4 * (i + 1) + j - 4 = 4 * i + j by omega]
      exact ih (by simpa using h)

/-- What storing a run of words leaves: each word with fresh check bits, everything outside as before. -/
theorem storeWords_spec {p : Port} (h : Memory.wf p.mem = true) (a : Nat) (ws : List Word) :
    (∀ (i : Nat) (w : Word), ws[i]? = some w →
      readMemWord (p.storeWords a ws).mem (a + 4 * i) = w ∧ eccAt (p.storeWords a ws).ecc (a + 4 * i) = none) ∧
    (∀ x, x < a ∨ a + 4 * ws.length ≤ x → readByte (p.storeWords a ws).mem x = readByte p.mem x) ∧
    (∀ x, x < a ∨ a + 4 * ws.length ≤ x → eccAt (p.storeWords a ws).ecc x = eccAt p.ecc x) := by
  have hl : (ws.flatMap wordBytes).length = 4 * ws.length := length_flatMap_wordBytes ws
  refine ⟨fun i w hw => ⟨?_, ?_⟩, fun x hx => ?_, fun x hx => ?_⟩
  · have hb : ∀ j, j < 4 → readByte (p.storeWords a ws).mem (a + 4 * i + j) = byteOf w j := by
      intro j hj
      have hg := flatMap_wordBytes_getElem? hw hj
      have hlt : 4 * i + j < (ws.flatMap wordBytes).length := by
        rw [List.getElem?_eq_some_iff] at hg; exact hg.1
      have := readByte_writeBytes_inside h (a := a) (i := 4 * i + j) (vs := ws.flatMap wordBytes) hlt
      rw [← Nat.add_assoc] at this
      rw [Port.storeWords_mem, this]
      simp [hg]
    unfold readMemWord
    have h0 := hb 0 (by omega)
    rw [Nat.add_zero] at h0
    rw [h0, hb 1 (by omega), hb 2 (by omega), hb 3 (by omega)]
    exact wordOfBytes_wordBytes w
  · have hi : i < ws.length := by
      rw [List.getElem?_eq_some_iff] at hw; exact hw.1
    exact eccAt_filter_of_neg (f := fun k => decide (k < a ∨ a + 4 * ws.length ≤ k)) (by simp; omega)
  · exact readByte_writeBytes_outside h (by rw [hl]; exact hx)
  · exact eccAt_filter_of_pos (f := fun k => decide (k < a ∨ a + 4 * ws.length ≤ k)) (by simpa using hx)

/-! ## Watches -/

/-- What an applied host write leaves of the watches on a word (R13). -/
theorem endWatches_spec (p : Port) (a : Nat) :
    let slots := (p.guard.filter fun e => e.addr == a && e.watch).map (·.slot)
    (p.endWatches a).guard = p.guard.map (fun e => if e.addr = a then { e with watch := false } else e) ∧
    (p.endWatches a).notices = p.notices ++ (if slots = [] then [] else [⟨a, slots⟩]) := by
  unfold Port.endWatches
  dsimp only
  split
  · rename_i h
    simp only [List.map_eq_nil_iff, List.filter_eq_nil_iff] at h
    refine ⟨?_, by simp⟩
    conv_lhs => rw [← List.map_id p.guard]
    apply List.map_congr_left
    intro e he
    split
    · rename_i ea
      have := h e he
      simp [ea] at this
      cases e; simp_all
    · rfl
  · exact ⟨rfl, rfl⟩

end Sys2Proof.Laws
end

