-- ==== Sys2Proof/Laws/Steps.lean ====
section
/-! SUPPORT. What every command can do at most, command by command: the steps of a capture, of a calibration, of the
transport counter unit, of the memory port. -/

namespace Sys2Proof.Laws

open Machine Safety

/-! ## The commands that step a capture -/

/-- A state after a step of a capture: unchanged, or with a capture, port and order unit that keep what `CxKept` says. -/
def CaptureKept (s t : State) : Prop := t = s ∨ ∃ cap d, s.capture = some cap ∧ CxKept ⟨s.hub, cap⟩ d ∧ t = s.setCx d

theorem captureStep_kept {s t : State} {f : Cx → Except Fault Cx} (hf : ∀ c d, f c = .ok d → CxKept c d)
    (h : captureStep s f = .next t) : CaptureKept s t := by
  rcases captureStep_next h with h | ⟨cap, d, h1, h2, h3⟩
  · exact .inl h
  · exact .inr ⟨cap, d, h1, hf _ _ h2, h3⟩

/-- A step that always succeeds. -/
theorem captureStep_kept_ok {s t : State} {f : Cx → Cx} (hf : ∀ c, CxKept c (f c))
    (h : captureStep s (fun c => .ok (f c)) = .next t) : CaptureKept s t :=
  captureStep_kept (fun c d e => by cases e; exact hf c) h

theorem execTakeBlock_kept {s t : State} (h : execTakeBlock s = .next t) : CaptureKept s t := by
  refine captureStep_kept (fun c d e => ?_) h
  dsimp only at e
  split at e
  · cases e; exact kept_receivePeak c
  · cases e
    split
    · exact kept_receivePeak c
    · exact (kept_receivePeak c).trans (kept_takeBlock _ _ _ _)

theorem execLeader_kept {s t : State} (h : execLeader s = .next t) : CaptureKept s t := captureStep_kept_ok kept_receivePeak h

theorem execBlockProcessed_kept {s t : State} (h : execBlockProcessed s = .next t) : CaptureKept s t := by
  refine captureStep_kept (fun c d e => ?_) h
  dsimp only at e
  split at e
  · cases e; exact kept_receivePeak c
  · cases e
    split
    · exact (kept_receivePeak c).trans (kept_processed _ _)
    · exact kept_receivePeak c

theorem execFoldBlock_kept {s t : State} (h : execFoldBlock s = .next t) : CaptureKept s t := by
  refine captureStep_kept (fun c d e => ?_) h
  dsimp only at e
  split at e
  · cases e; exact kept_receivePeak c
  · split at e
    · cases e
      split
      · exact kept_receivePeak c
      · refine CxKept.trans ?_ (kept_mapControl _ _)
        exact (kept_receivePeak c).trans (kept_foldTaken _ _ _ _ _)
    · cases e; exact kept_receivePeak c

theorem execStoreExcerpt_kept {s t : State} (h : execStoreExcerpt s = .next t) : CaptureKept s t := by
  refine captureStep_kept (fun c d e => ?_) h
  dsimp only at e
  split at e
  · split at e
    · split at e
      · cases e
      · cases e; exact (kept_receivePeak c).trans (kept_storeBlock _ _ _ _)
    · cases e; exact kept_receivePeak c
  · cases e; exact kept_receivePeak c

theorem execCaptureStop_kept {s t : State} (h : execCaptureStop s = .next t) : CaptureKept s t := by
  refine captureStep_kept (fun c d e => ?_) h
  dsimp only at e
  cases e
  split
  · refine CxKept.trans ?_ (kept_stopCapture _)
    refine CxKept.trans ?_ (kept_closeMap _)
    exact (kept_receivePeak c).trans (kept_settleSpeed _)
  · exact .refl c

theorem execJudgeLanes_kept {s t : State} (h : execJudgeLanes s = .next t) : CaptureKept s t := by
  refine captureStep_kept (fun c d e => ?_) h
  split at e
  · cases e; exact .refl c
  · split at e
    · cases e
    · cases e; exact kept_judgeLanes _ _ _ _

theorem execWeak_kept {s t : State} {lane : LaneNo} (h : execWeak lane s = .next t) : CaptureKept s t := by
  refine captureStep_kept (fun c d e => ?_) h
  split at e
  · cases e; exact .refl c
  · cases e; exact kept_setLane _ _ _

theorem execMeasureSkew_kept {s t : State} (h : execMeasureSkew s = .next t) : CaptureKept s t := by
  refine captureStep_kept (fun c d e => ?_) h
  dsimp only at e
  split at e
  · cases e; exact kept_receivePeak c
  · split at e
    · cases e; exact kept_receivePeak c
    · split at e
      · cases e
      · cases e; exact (kept_receivePeak c).trans (kept_workSkew _ _ _ _ _)

theorem execSpeedBlock_kept {s t : State} (h : execSpeedBlock s = .next t) : CaptureKept s t := by
  refine captureStep_kept (fun c d e => ?_) h
  dsimp only at e
  split at e
  · split at e
    · cases e
    · cases e; exact (kept_settleSpeed c).trans (kept_workSpeed _ _ _ _)
  · cases e; exact kept_settleSpeed c

theorem execHoldoverExpiry_kept {s t : State} {g : Group} (h : execHoldoverExpiry g s = .next t) : CaptureKept s t :=
  captureStep_kept_ok (fun c => kept_mapSpeed c _) h

theorem execSourceReturn_kept {s t : State} {g : Group} (h : execSourceReturn g s = .next t) : CaptureKept s t :=
  captureStep_kept_ok (fun c => kept_mapSpeed c _) h

theorem execHumTimeout_kept {s t : State} {g : Group} (h : execHumTimeout g s = .next t) : CaptureKept s t :=
  captureStep_kept_ok (fun c => kept_mapSpeed c _) h

theorem execHumMissLimit_kept {s t : State} {g : Group} (h : execHumMissLimit g s = .next t) : CaptureKept s t :=
  captureStep_kept_ok (fun c => kept_mapSpeed c _) h

theorem execNotLocked_kept {s t : State} {g : Group} (h : execNotLocked g s = .next t) : CaptureKept s t := by
  refine captureStep_kept (fun c d e => ?_) h
  cases e
  split
  · exact kept_settleSource _ _
  · exact .refl c

theorem execProbationComplete_kept {s t : State} {g : Group} (h : execProbationComplete g s = .next t) : CaptureKept s t := by
  refine captureStep_kept (fun c d e => ?_) h
  cases e
  split
  · exact .refl c
  · exact kept_settleSource _ _

theorem execResampleBlock_kept {s t : State} {g : Group} (h : execResampleBlock g s = .next t) : CaptureKept s t := by
  refine captureStep_kept (fun c d e => ?_) h
  dsimp only at e
  split at e
  · split at e
    · split at e
      · cases e
      · cases e; exact kept_receivePeak c
      · cases e; exact (kept_receivePeak c).trans (kept_finishResample _ _ _ _)
    · cases e; exact kept_receivePeak c
  · cases e; exact kept_receivePeak c

theorem execPlaceFrame_kept {s t : State} {g : Group} (h : execPlaceFrame g s = .next t) : CaptureKept s t :=
  captureStep_kept_ok (fun c => kept_placeNext c g) h

theorem execSpeedmapClose_kept {s t : State} (h : execSpeedmapClose s = .next t) : CaptureKept s t :=
  captureStep_kept_ok kept_closeMap h

theorem execPlaceRepair_kept {s t : State} (h : execPlaceRepair s = .next t) : CaptureKept s t := by
  refine captureStep_kept (fun c d e => ?_) h
  split at e
  · cases e; exact .refl c
  · cases e
    refine CxKept.trans ?_ (kept_arriveRepair _ _)
    exact kept_mapWriter_of_eq rfl rfl

/-- What a step of a capture leaves as it is, said of the state. -/
theorem CaptureKept.frame {s t : State} (h : CaptureKept s t) :
    CaptureFrame s t ∧ HubKept s.hub t.hub ∧ (s.capture = none → t = s) := by
  rcases h with rfl | ⟨cap, d, h1, h2, rfl⟩
  · exact ⟨⟨rfl, rfl⟩, .refl _, fun _ => rfl⟩
  · exact ⟨⟨rfl, h2.hub.port⟩, h2.hub, fun e => by rw [h1] at e; cases e⟩

/-- What has come due in the speed reference unit, carried out before another command (log 20). -/
theorem settled_kept (s : State) : CaptureKept s (settled s) := by
  unfold settled State.onCapture
  split
  · exact .inl rfl
  · rename_i cap h
    exact .inr ⟨cap, _, h, kept_settleSpeed _, rfl⟩

/-! ## Peaks and due decisions (log 19, log 20) -/

theorem receivePeak_of_none {c : Cx} (h : c.cap.control.peak = none) : c.receivePeak = c := by
  unfold Cx.receivePeak
  rw [h]

theorem takeSeq_control (c : Cx) : c.takeSeq.2.cap.control = c.cap.control := by
  unfold Cx.takeSeq
  split <;> rfl

theorem excerptClosing_control (c : Cx) (lane : LaneNo) (idx seq : Nat) :
    (c.excerptClosing lane idx seq).cap.control = c.cap.control := by
  unfold Cx.excerptClosing
  split
  · rfl
  · split <;> rfl

theorem closeDropout_control (c : Cx) (lane : LaneNo) (d : Dropout) (cut : Bool) (closing : Option Nat) (block : Nat) :
    (c.closeDropout lane d cut closing block).cap.control = c.cap.control := by
  unfold Cx.closeDropout
  dsimp only
  rw [excerptClosing_control]
  exact takeSeq_control c

theorem laneEnd_control (idx : Nat) (c : Cx) (lane : LaneNo) : (c.laneEnd idx lane).cap.control = c.cap.control := by
  unfold Cx.laneEnd
  split
  · rfl
  · dsimp only
    split
    · rfl
    · rw [closeDropout_control]; rfl

theorem lanesEnd_control (c : Cx) (idx : Nat) : (c.lanesEnd idx).cap.control = c.cap.control := by
  have h : ∀ (l : List LaneNo) (c : Cx), (l.foldl (Cx.laneEnd idx) c).cap.control = c.cap.control := by
    intro l
    induction l with
    | nil => exact fun _ => rfl
    | cons a l ih => exact fun c => (ih _).trans (laneEnd_control idx c a)
  exact h laneNos c

theorem receivePeak_peak (c : Cx) : c.receivePeak.cap.control.peak = none := by
  unfold Cx.receivePeak
  split
  · assumption
  · split
    · rfl
    · dsimp only
      split
      · unfold Cx.endByLeader
        dsimp only
        split
        · rfl
        · rw [lanesEnd_control]; rfl
      · rfl

/-- A peak is received once. -/
theorem receivePeak_receivePeak (c : Cx) : c.receivePeak.receivePeak = c.receivePeak := receivePeak_of_none (receivePeak_peak c)

theorem closeMap_of_none {c : Cx} (h : c.cap.writer.closeDue = none) : c.closeMap = c := by
  unfold Cx.closeMap
  rw [h]

/-- A close that waits for an excerpt changes nothing. -/
theorem closeMap_of_waits {c : Cx} (h : c.cap.writer.closeWaits = true) : c.closeMap = c := by
  unfold Cx.closeMap
  split
  · rfl
  · rw [if_pos h]

/-- A due close that waits for no excerpt is carried out. -/
theorem closeMap_of_due {c : Cx} {cue : Bool} (h : c.cap.writer.closeDue = some cue) (hw : c.cap.writer.closeWaits = false) :
    c.closeMap = c.closeRecord cue := by
  unfold Cx.closeMap
  rw [h]
  simp [hw]

/-! ## The transport counter unit -/

/-- What an instant changes outside the transport counter unit: news for slots that are not FREE or POSTED. -/
theorem slipNews_kept (h : Hub) : h.slipNews.port = h.port ∧ OnlyNewsDiffers h.orders h.slipNews.orders := by
  have key : ∀ (l : List SlotNo) (h : Hub), (l.foldl (fun h n => h.news n .slip) h).port = h.port ∧
      OnlyNewsDiffers h.orders (l.foldl (fun h n => h.news n .slip) h).orders := by
    intro l
    induction l with
    | nil => exact fun h => ⟨rfl, rfl, fun _ => rfl⟩
    | cons a l ih =>
      intro h
      obtain ⟨h1, h2, h3⟩ := ih (h.news a .slip)
      obtain ⟨n1, n2, n3⟩ := setNews_frame h.orders a .slip
      refine ⟨h1, ?_, fun m => ?_⟩
      · rw [List.foldl_cons, h2]
        show ({ h.orders.setNews a .slip with slots := _, summary := _ } : OrderUnit) = _
        rw [n1]
      · rw [List.foldl_cons, h3 m]
        have e1 := n2 m
        show ({ (h.orders.setNews a .slip).slot m with news := _ } : SlotRec) = _
        rw [show (h.orders.setNews a .slip).slot m = ⟨((h.orders.setNews a .slip).slot m).state,
          ((h.orders.setNews a .slip).slot m).news, ((h.orders.setNews a .slip).slot m).mask,
          ((h.orders.setNews a .slip).slot m).live⟩ from rfl, e1.1, e1.2.1, e1.2.2]
  unfold Hub.slipNews
  split
  · exact ⟨rfl, rfl, fun _ => rfl⟩
  · exact key _ h

theorem onlyNewsDiffers_refl (o : OrderUnit) : OnlyNewsDiffers o o := ⟨rfl, fun _ => rfl⟩

theorem onlyNewsDiffers_trans {o p q : OrderUnit} (a : OnlyNewsDiffers o p) (b : OnlyNewsDiffers p q) : OnlyNewsDiffers o q := by
  refine ⟨?_, fun n => ?_⟩
  · rw [b.1, a.1]
  · rw [b.2 n, a.2 n]

/-- What the changes of the transport counter unit keep: the port, and of the order unit everything but news. -/
def DeckKept (k l : Deck) : Prop := l.hub.port = k.hub.port ∧ OnlyNewsDiffers k.hub.orders l.hub.orders ∧
  l.unit.records = k.unit.records ∧ l.unit.current.isSome = k.unit.current.isSome

theorem DeckKept.refl (k : Deck) : DeckKept k k := ⟨rfl, onlyNewsDiffers_refl _, rfl, rfl⟩

theorem DeckKept.trans {k l m : Deck} (a : DeckKept k l) (b : DeckKept l m) : DeckKept k m :=
  ⟨b.1.trans a.1, onlyNewsDiffers_trans a.2.1 b.2.1, b.2.2.1.trans a.2.2.1, b.2.2.2.trans a.2.2.2⟩

/-- The unit changed with its records kept. -/
theorem DeckKept.ofUnit {k : Deck} {t : Transport} (h1 : t.records = k.unit.records) (h2 : t.current.isSome = k.unit.current.isSome) :
    DeckKept k { k with unit := t } := ⟨rfl, onlyNewsDiffers_refl _, h1, h2⟩

theorem indexEvent_kept (k : Deck) (d : DecoderId) : DeckKept k (k.indexEvent d) := by
  cases d with
  | capstan => exact .ofUnit rfl rfl
  | supply =>
    unfold Deck.indexEvent
    dsimp only
    split
    · exact ⟨(slipNews_kept k.hub).1, (slipNews_kept k.hub).2, rfl, by simp [Transport.mark]⟩
    · exact .ofUnit rfl rfl
  | takeup =>
    unfold Deck.indexEvent
    dsimp only
    split
    · exact ⟨(slipNews_kept k.hub).1, (slipNews_kept k.hub).2, rfl, by simp [Transport.mark]⟩
    · exact .ofUnit rfl rfl

theorem indexEdge_kept (k : Deck) (d : DecoderId) (a b : Bool) : DeckKept k (k.indexEdge d a b) := by
  unfold Deck.indexEdge
  split
  · exact indexEvent_kept k d
  · exact .refl k

theorem count_kept (t : Transport) (d : DecoderId) (c : Int) :
    (t.count d c).records = t.records ∧ (t.count d c).current.isSome = t.current.isSome := by
  cases d with
  | capstan =>
    unfold Transport.count Transport.capstanCount
    dsimp only
    split
    · exact ⟨rfl, rfl⟩
    · exact ⟨rfl, by simp [Transport.mark]⟩
  | supply => exact ⟨rfl, rfl⟩
  | takeup => exact ⟨rfl, rfl⟩

theorem decodeError_kept (t : Transport) (d : DecoderId) :
    (t.decodeError d).records = t.records ∧ (t.decodeError d).current.isSome = t.current.isSome := by
  cases d <;> exact ⟨rfl, by simp [Transport.decodeError, Transport.mark, Transport.setDecoder, Transport.soilReels]⟩

theorem serve_kept (k : Deck) (c : Change) : DeckKept k (k.serve c) := by
  cases c with
  | decoder d x =>
    show DeckKept k (k.decoderChange d x)
    unfold Deck.decoderChange
    extract_lets old p0 p1 index t both t1 k1 c0 c1 c2
    refine DeckKept.trans ?_ ((indexEdge_kept k1 d c0 c1).trans (indexEdge_kept _ d c1 c2))
    have ht : t.records = k.unit.records ∧ t.current.isSome = k.unit.current.isSome := by cases d <;> exact ⟨rfl, rfl⟩
    have h1 : t1.records = t.records ∧ t1.current.isSome = t.current.isSome := by
      show (if both then _ else _ : Transport).records = _ ∧ (if both then _ else _ : Transport).current.isSome = _
      split
      · exact decodeError_kept t d
      · exact count_kept t d _
    exact .ofUnit (h1.1.trans ht.1) (h1.2.trans ht.2)
  | pinch l =>
    unfold Deck.serve Transport.pinchChange
    dsimp only
    refine .ofUnit ?_ ?_
    · split <;> rfl
    · split
      · simp [Transport.mark, Transport.soilReels]
      · rfl

theorem serves_kept (k : Deck) (l : List Change) : DeckKept k (l.foldl Deck.serve k) := by
  induction l generalizing k with
  | nil => exact .refl k
  | cons c l ih => exact (serve_kept k c).trans (ih _)

theorem instant_kept (k : Deck) (v : BitVec 10) (free : Nat) : DeckKept k (k.instant v free).1 := by
  unfold Deck.instant
  extract_lets t cap sup tak pin changes k1
  have h1 : DeckKept k k1 := .ofUnit rfl rfl
  split
  · exact h1.trans (serves_kept _ _)
  · exact h1.trans (serves_kept _ _)

theorem pass_kept (k : Deck) (dt free fuel : Nat) : DeckKept k (k.pass dt free fuel).1 := by
  induction fuel generalizing k dt free with
  | zero => exact .ofUnit rfl rfl
  | succ fuel ih =>
    unfold Deck.pass
    split
    · exact .ofUnit rfl rfl
    · split
      · exact .ofUnit rfl rfl
      · rename_i e _ _
        have h1 : DeckKept k { k with unit := k.unit.tick e } := .ofUnit rfl rfl
        have h2 := instant_kept { k with unit := k.unit.tick e } (k.unit.tick e).rawLevels free
        dsimp only
        generalize ({ k with unit := k.unit.tick e } : Deck).instant (k.unit.tick e).rawLevels free = x at h2 ⊢
        exact (h1.trans h2).trans (ih _ _ _)

end Sys2Proof.Laws
end

