-- ==== Sys2Proof/Tests/Slice0.lean ====
section
/-! SUPPORT. Tests: the operand checks with a term each refuses, one small step of every command, and for every statement
with hypotheses a concrete state and operands that meet them. -/

namespace Sys2Proof.Tests

set_option Elab.async false

open Sys2Proof.Machine Sys2Proof.Safety

/-! ## Operand checks -/

/-- A block of silence: sixteen elements of 3,840 samples. -/
def silence : List (List Sample) := List.replicate 16 (List.replicate 3840 0)

theorem silence_wellFormed : wellFormedBlock silence = true := by
  unfold wellFormedBlock silence
  rw [List.length_replicate, List.all_replicate, List.length_replicate]
  decide

theorem test_hostWrite_ordinary : (Instr.hostWrite 0x3000 7).wellFormed = true ∧ (Instr.hostWrite 0x400000 7).wellFormed = false ∧
    (Instr.hostWrite 0x1F00 7).wellFormed = false ∧ (Instr.hostWrite 0x2000 7).wellFormed = false := by decide

theorem test_narrowWrite_enables : (Instr.hostNarrowWrite 0x3000 0x7 7).wellFormed = true ∧
    (Instr.hostNarrowWrite 0x3000 0xF 7).wellFormed = false := by decide

theorem test_handBack_ordinary : (Instr.handBackSpan 0x3000).wellFormed = true ∧ (Instr.handBackSpan 0x2000).wellFormed = false := by decide

theorem test_discarded_address : (Instr.discardedWrite 0x400000 0xF 7).wellFormed = true ∧
    (Instr.discardedWrite 0x40000C 0xF 7).wellFormed = true ∧ (Instr.discardedWrite 0x400008 0xF 7).wellFormed = false ∧
    (Instr.discardedWrite 0x3000 0xF 7).wellFormed = false := by decide

theorem test_block_shape : (Instr.blockBoundary silence).wellFormed = true ∧ (Instr.blockBoundary []).wellFormed = false :=
  ⟨silence_wellFormed, by decide⟩

/-! ## Small states -/

/-- The part in READY, as the clearing leaves it. -/
def ready : State := { State.reset with port := { Port.cold with phase := .ready } }

/-- The part while a warm reset runs. -/
def resetting : State := { State.reset with port := { Port.cold with phase := .warmReset } }

/-- READY with one memory word stored. -/
def withWord (s : State) (a : Nat) (w : Word) : State := { s with port := s.port.store a w }

/-- A memory word disturbed. -/
def disturbed (s : State) (a : Nat) (k : EccMark) : State := { s with port := { s.port with ecc := markEcc s.port.ecc a k } }

/-- A slot's record replaced. -/
def withSlot (s : State) (n : SlotNo) (st : SlotState) (k : Option Kind) : State :=
  { s with orders := s.orders.setSlot n ⟨st, 0, 1, k⟩ }

/-- A span state entry in the guard table. -/
def guarded (s : State) (a : Nat) : State := { s with port := { s.port with guard := [⟨a, 0, .spanState, true⟩] } }

def speech : GroupTuning :=
  { prefs := [.tach], holdover := 4, hum60 := false, humLane := 0, biasLane := 0, biasNominal := 40000, biasGate := 0 }

def tuning : Tuning :=
  { lanes := Vector.replicate 4 ⟨1, 0, false⟩, sp := 3, bl := 2, ss := 1, nd := 2, qf := 100, leaderFloor := 50, leaderTime := 10,
    groups := ⟨speech, speech⟩ }

/-- One active lane of one element in group A, stop position 1,000, two cues. -/
def params : CaptureParams :=
  { rateCode := 0, formats := ⟨⟨false, false⟩, ⟨false, false⟩⟩, start := some 10, stop := some 1000, cueCount := 2, cues := [100, 200],
    lanes := #v[⟨0, 1, .a, true⟩, ⟨0, 0, .a, false⟩, ⟨0, 0, .a, false⟩, ⟨0, 0, .a, false⟩]
    profileAddr := 0x3000, spanAddr := ⟨0x3100, 0⟩, spanCount := ⟨2, 0⟩, excerptAddr := 0x3200, excerptCount := 1
    mapAddr := 0x4000, repairAddr := 0x5000 }

/-- Two spans of 4,096 bytes and one excerpt span. -/
def order : CaptureOrder :=
  { params := params, tuning := tuning, mapCapacity := 4, repairCapacity := 4
    spans := ⟨[⟨0x3100, 0, 0x10000, 4096⟩, ⟨0x3120, 0, 0x11000, 4096⟩], []⟩, excerpts := [⟨0x3200, 0, 0x20000, 15424⟩] }

/-- A capture just started. -/
def armed : Capture := Capture.start 0 order

/-- A capture that has left ARMED, its controller changed as given. -/
def begun (f : Control → Control) : Capture :=
  { armed with
    control := f { armed.control with state := .running }
    monitor := some (LaneMonitor.start params), skew := seedLanes (Vector.replicate 16 CalEntry.identity) params tuning
    speed := some (SpeedUnit.start params tuning 0), resamplers := ⟨some Resampler.start, none⟩ }

/-- READY with that capture in slot 0. -/
def capturing (c : Capture) : State := { withSlot ready 0 .running (some .capture) with capture := some c }

/-- A record that passes the driven test. -/
def driven (start stop : Word) : BlockRecord :=
  { num := 0, start := start, stop := stop, net := stop - start, pinch := true, reverse := false, decodeError := false, slip := false,
    motion := .forward, driven := true, nc := 0 }

def drivenBlock (start stop : Word) : StreamBlock := ⟨0, some (driven start stop), List.replicate 16 0⟩

def undriven : StreamBlock := ⟨0, none, List.replicate 16 0⟩

def request (b : StreamBlock) : TakeRequest := ⟨b, true, false, none⟩

/-- A taken block on which no unit has worked. -/
def taken : Taken :=
  { idx := 0, block := drivenBlock 10 110, tuning := tuning, binding := false, first := true, resumed := false, final := none,
    cues := [], clipped := [], lanes := none, skew := none, speed := none, resampled := ⟨none, none⟩, folded := false,
    processed := false }

/-- What the lane monitor hands for the one active lane. -/
def judged : Judgements := #v[some ⟨List.replicate 16 ⟨.clean, [0], none⟩, false, [0]⟩, none, none, none]

def skewed : Vector (Option SkewReport) 4 := #v[some ⟨[0], false, 0⟩, none, none, none]

def report : SpeedReport := ⟨Config.unity, none, .freeRun, false, false⟩

/-- That block with every unit's work handed. -/
def done : Taken :=
  { taken with lanes := some judged, skew := some skewed, speed := some ⟨some report, none⟩, resampled := ⟨some (1, 1), none⟩ }

/-- A block of the history store whose samples no step of a test reads. -/
def held : HistBlock := ⟨0, [], []⟩

def withHistory (s : State) (h : HistBlock) : State := { s with elements := { s.elements with history := [h] } }

def calRun (f : CalRun → CalRun) : CalRun := f (CalRun.start 3 ⟨20, 0, true, none⟩)

def calibrating (r : CalRun) : State := { withSlot ready 3 .running (some .calibrate) with calibration := some r }

def frame : Frame := ⟨7, 0, 10, [0x100]⟩

/-- The capture with group A's part of the writer changed. -/
def withOut (c : Capture) (f : GroupOut → GroupOut) : Capture :=
  { c with writer := { c.writer with groups := { c.writer.groups with a := f c.writer.groups.a } } }

def withWriter (c : Capture) (f : Writer → Writer) : Capture := { c with writer := f c.writer }

def repair : RepairRec :=
  { seq := 0, kind := .spare, place := 0, minPresent := 0, cut := false, noExcerpt := false, absent := 1, first := 0, length := 5,
    block := 0, position := 10, voidRuns := 0, longest := 0, bridged := 0 }

def mapRec : MapRec := MapRec.start taken 10

def dropout : Dropout :=
  { kind := .spare, block := 0, position := 10, opening := 0, absent := 1, minPresent := 0, noExcerpt := false, voidRuns := 1,
    longest := 0, bridged := 0, firstOut := none }

/-- A lane monitor whose one lane has a void run of the given length and limit. -/
def voidLane (length limit : Nat) (settled : Bool) : LaneState := ⟨[0], none, some dropout, some ⟨length, limit, settled⟩⟩

def monitorWith (l : LaneState) : LaneMonitor := { LaneMonitor.start params with lanes := #v[some l, none, none, none] }

/-- The machine goes on, to a state of which the test holds. -/
def after (r : Result) (test : State → Bool) : Bool :=
  match r with
  | .next t => test t
  | _ => false

/-- The machine goes on, to the state given. -/
def goesTo (r : Result) (t : State) : Bool := after r fun u => u = t

/-- The capture after a step. -/
def capOf : Host.Outcome State Fault Refusal → Option Capture
  | .next t => t.capture
  | _ => none

/-- The CALIBRATE run after a step. -/
def runOf : Host.Outcome State Fault Refusal → Option CalRun
  | .next t => t.calibration
  | _ => none

/-- The machine stops with the fault given. -/
def faults (r : Result) (f : Fault) : Bool :=
  match r with
  | .fault g => g = f
  | _ => false

/-- The running capture with an open excerpt of lane 0, and a monitor that has judged block 0. -/
def excerpting (next : Nat) : Capture :=
  let e : Excerpt :=
    { lane := 0, span := ⟨0x3200, 1, 0x20000, 46144⟩, firstIdx := 0, position := 10, nextIdx := next, nextNum := 0, stored := 0, blocks := 0
      endIdx := none, seqs := [] }
  withWriter { begun id with monitor := some { LaneMonitor.start params with last := some ⟨0, 0, 10⟩ } } fun w => { w with excerpt := some e }

/-- Whether nothing of a capture is open. -/
def nothingOpen (cap : Capture) : Bool :=
  (cap.monitor.all fun m => m.closed.isEmpty && laneNos.all fun l => (getAt m.lanes l).all fun x => x.dropout.isNone) &&
  (cap.writer.map.isNone && (cap.writer.excerpt.isNone && (cap.writer.handed.isEmpty && (cap.writer.holding.isEmpty &&
  groupList.all fun g => (cap.writer.groups.get g).arriving.isEmpty && (cap.writer.groups.get g).lost.isNone))))

theorem nothingOpen_spec {cap : Capture} (h : nothingOpen cap = true) : NothingOpen cap := by
  simp only [nothingOpen, Bool.and_eq_true, List.isEmpty_iff, Option.isNone_iff_eq_none, List.all_eq_true, groupList, laneNos] at h
  obtain ⟨h1, h2, h3, h4, h5, h6⟩ := h
  refine ⟨?_, h2, h3, h4, h5, fun g => h6 g (by cases g <;> simp)⟩
  intro m hm
  rw [hm] at h1
  simp only [Option.all_some, Bool.and_eq_true, List.isEmpty_iff, List.all_eq_true] at h1
  refine ⟨h1.1, fun l x hx => ?_⟩
  have := h1.2 l ((by decide : ∀ l : LaneNo, l ∈ [(0 : LaneNo), 1, 2, 3]) l)
  rw [hx] at this
  simpa using this

/-- Whether a group's spans and stores are quiet. -/
def spansQuiet (cap : Capture) (g : Group) : Bool :=
  (cap.writer.groups.get g).filling.isNone && ((cap.writer.groups.get g).queue.isEmpty &&
  (cap.resamplers.get g).all fun r => r.buffer.isEmpty)

theorem spansQuiet_spec {cap : Capture} {g : Group} (h : spansQuiet cap g = true) : SpansQuiet cap g := by
  simp only [spansQuiet, Bool.and_eq_true, List.isEmpty_iff, Option.isNone_iff_eq_none] at h
  refine ⟨h.1, h.2.1, fun r hr => ?_⟩
  have := h.2.2
  rw [hr] at this
  simpa using this

/-! ## The machine as a whole -/

theorem witness_StepRunsFrontCommand : goesTo (step ready) ready ∧
    goesTo (step { ready with pending := [.post 4] }) (withSlot { ready with orders := { ready.orders with posting := [4] } } 4 .posted none
      |> fun s => { s with orders := s.orders.setSlot 4 ⟨.posted, 0, 0, none⟩ }) := by decide +kernel

theorem witness_StopsOnlyOnImpossibleBlocks : faults (exec (.blockBoundary []) ready) .malformedBlock ∧
    faults (exec .judgeLanes (capturing (begun fun k => { k with inFlight := [taken] }))) (.blockNotHeld 0) ∧
    goesTo (exec .motionStopped ready) ready := by decide +kernel

theorem witness_ResetHasTheInvariants : MemoryCanonical State.reset ∧ State.reset.orders.posting.Nodup ∧
    State.reset.port.phase = .coldInit ∧ goesTo (step State.reset) State.reset := by decide +kernel

theorem witness_StepKeepsCapacities : (ready.orders.runQueue.length ≤ Config.runQueueMax ∧ ready.elements.history.length ≤ 3 ∧
    ready.transport.records.length ≤ 8) ∧ pagesIn armed.writer.groups.a.queue + pagesIn armed.writer.groups.b.queue ≤ 96 ∧
    goesTo (step { ready with pending := [.takeOrder] }) ready := by decide +kernel

theorem witness_ColdStartClearsMemory : (goesTo (exec .resetRelease State.reset) State.reset) ∧
    (State.reset.port.phase = .coldInit ∧ State.reset.port.resetLow = false) ∧ goesTo (exec .clearingDone State.reset) ready ∧
    ready.port.phase ≠ .coldInit := by decide +kernel

/-! ## The memory port -/

theorem witness_HostReadChecksMemoryWord : Working ready ∧ targetOf 0x3003 = .memory 0x3000 ∧ targetOf 0x3FFFFF = .memory 0x3FFFFC ∧
    eccAt ready.port.ecc 0x3000 = none ∧ eccAt (disturbed ready 0x3000 .single).port.ecc 0x3000 = some .single ∧
    eccAt (disturbed ready 0x3000 .uncorrectable).port.ecc 0x3000 = some .uncorrectable ∧
    after (exec (.hostRead 0x3000 0x3) (withWord ready 0x3000 0x11223344)) (fun t => t.port.readData = 0x3344) := by decide +kernel

theorem witness_HostReadFindsHeldWords : Working ready ∧ targetOf 0 = .slotState 0 ∧ targetOf 0x1F00 = .slotState 31 ∧
    targetOf 0x1F04 = .news 31 ∧ targetOf 0x2000 = .summary ∧ targetOf 0x400004 = .status ∧ targetOf 0x400008 = .control ∧
    targetOf 0x40000C = .unassigned ∧ targetOf 0x7FFFFF = .unassigned ∧ targetOf 0x400000 = .ident ∧
    State.reset.port.phase = .coldInit := by decide +kernel

theorem witness_AttnFollowsSummaryAndEnable : (0x400004#23).toNat / 4 = 0x100001 ∧ (0x400007#23).toNat / 4 = 0x100001 ∧
    (State.reset.port.resetLow = true → State.reset.port.phase = .coldInit) ∧ State.reset.transport = State.reset.transport.keepRaw ∧
    attnLevel { ready.port with attnEn := true } { ready.orders with summary := 1 } = true := by decide +kernel

theorem witness_IdentIsReadOnly : (0x400000#23).toNat / 4 = 0x100000 ∧ (0x400003#23).toNat / 4 = 0x100000 := by decide

theorem witness_DiscardedWritesChangeNothing : (0x400007#23).toNat / 4 = 0x100001 ∧ 0x40000C ≤ (0x40000C#23).toNat ∧
    (isOrdinary 0x3000 = true ∧ (guarded ready 0x3000).port.isGuarded (wordAddress 0x3000) = true) ∧ isOrdinary 0x2000 = false ∧
    (guarded resetting 0x3000).port.phase ≠ .ready ∧ (guarded resetting 0x3000).port.isGuarded (wordAddress 0x3000) = true ∧
    eccAt (guarded ready 0x3000).port.ecc 0x3000 = none ∧ readMemWord (guarded ready 0x3000).port.mem 0x3000 ≠ 2 ∧
    goesTo (exec (.discardedWrite 0x400000 0xF 9) ready) ready ∧
    goesTo (exec (.hostNarrowWrite 0x1F00 0x1 9) ready) ready := by decide +kernel

theorem witness_HostWriteStoresWord : Working ready ∧ MemoryCanonical ready ∧ isOrdinary 0x3FFFFC = true ∧ isOrdinary 0x8 = true ∧
    ready.port.isGuarded (wordAddress 0x3FFFFC) = false ∧ goesTo (exec (.hostWrite 0x3002 0x11223344) ready) { ready with port := { ready.port with
        mem := [(0x3000, 0x44), (0x3001, 0x33), (0x3002, 0x22), (0x3003, 0x11)] } } := by decide +kernel

theorem witness_NarrowWriteMergesBytes : Working ready ∧ MemoryCanonical ready ∧ (0x0#4) ≠ 0xF#4 ∧ (0xE#4) ≠ 0xF#4 ∧
    isOrdinary 0x3000 = true ∧ ready.port.isGuarded 0x3000 = false ∧
    goesTo (exec (.hostNarrowWrite 0x3000 0x2 0x11223344) ready) { ready with port := { ready.port with mem := [(0x3001, 0x33)] } } := by decide +kernel

theorem witness_HandBackMovesFullToEmpty : Ready ready ∧ MemoryCanonical (withWord (guarded ready 0x3000) 0x3000 2) ∧
    isOrdinary 0x3000 = true ∧ (withWord (guarded ready 0x3000) 0x3000 2).port.isGuarded (wordAddress 0x3000) = true ∧
    readMemWord (withWord (guarded ready 0x3000) 0x3000 2).port.mem 0x3000 = 2 ∧
    readMemWord (withWord (guarded ready 0x3000) 0x3000 1).port.mem 0x3000 ≠ 2 ∧
    goesTo (exec (.handBackSpan 0x3000) (withWord (guarded ready 0x3000) 0x3000 2)) { ready with port := { ready.port with
        guard := [⟨0x3000, 0, .spanState, false⟩], notices := [⟨0x3000, [0]⟩] } } := by decide +kernel

theorem witness_OnesClearNewsAndSummary : Working ready ∧ Ready ready ∧
    ((withSlot ready 31 .done none).orders.slot 31).state = .done ∧ State.reset.port.phase = .coldInit ∧
    targetOf 0x2000 = .summary ∧ targetOf 0x4 = .news 0 ∧
    goesTo (exec (.clearSummary 0x80000001) { ready with orders := { ready.orders with summary := 0x80000003 } }) { ready with orders := { ready.orders with summary := 2 } } ∧
    goesTo (exec (.clearNews 5 1) ready) ready ∧
    goesTo (exec (.release 31) { withSlot ready 31 .done none with orders := { (withSlot ready 31 .done none).orders with summary := 0x80000000 } }) { ready with orders := ready.orders.setSlot 31 ⟨.free, 0, 1, none⟩ } := by decide +kernel

theorem witness_ControlWriteStoresAndClears : Working ready ∧ resetting.port.phase = .warmReset ∧ State.reset.port.phase = .coldInit ∧
    goesTo (exec (.attnEn true) ready) { ready with port := { ready.port with attnEn := true } } ∧
    goesTo (exec (.clearMemerr false false) { ready with port := { ready.port with corrected := 255, uncorrected := true } }) ready := by decide +kernel

/-- Host writes that reach a held word or CONTROL, and a CONTROL write with both action fields (R4, R10, R14, R18). -/
theorem witness_ControlWriteStoresAndClears_held :
    let soiled := { ready with port := { ready.port with corrected := 255, uncorrected := true } }
    let like := fun (s : State) (addr : Addr) (v : Word) (i : Instr) => after (exec i s) fun t => goesTo (exec (.hostWrite addr v) s) t
    Ready soiled ∧ soiled.capture = none ∧ wordAddress 0x1F03 = slotBase 31 ∧ wordAddress 0x1F04 = slotBase 31 + 4 ∧
    wordAddress 0x40000B = 0x400008 ∧ like ready 0x1F03 1 (.post 31) ∧ like (withSlot ready 31 .posted none) 0x1F00 0 (.withdraw 31) ∧
    like (withSlot ready 31 .running none) 0x1F00 4 (.cancel 31) ∧ like (withSlot ready 31 .done none) 0x1F00 0 (.release 31) ∧
    goesTo (exec (.hostWrite 0x1F00 2) ready) ready ∧ like (withSlot ready 31 .done none) 0x1F04 1 (.clearNews 31 1) ∧
    like ready 0x2000 1 (.clearSummary 1) ∧ like ready 0x400008 1 (.attnEn true) ∧ like soiled 0x40000B 4 (.clearMemerr false false) ∧
    like soiled 0x400008 7 (.warmReset true true) ∧
    after (exec (.clearMemerr true true) soiled) (fun t => t.port.phase = .warmReset ∧ t.port.uncorrected = false ∧ t.port.corrected = 0) := by
  decide +kernel

theorem witness_DisturbanceMarksWord : MemoryCanonical ready ∧ targetOf 0x8 = .memory 8 ∧ (∀ a, targetOf 0x400000 ≠ .memory a) ∧
    goesTo (exec (.memoryWordDisturbed 0x8 .singleBit) ready) (disturbed ready 8 .single) := by
  refine ⟨by decide, by decide, ?_, by decide +kernel⟩
  rw [show targetOf 0x400000 = .ident by decide]
  intro a h
  cases h

/-! ## Warm reset -/

theorem witness_WarmResetBegins : Ready ready ∧ ready.capture = none ∧
    (Ready (capturing armed) ∧ MemoryCanonical (capturing armed) ∧ (capturing armed).capture = some (Capture.start 0 order)) ∧
    after (exec (.warmReset true false) (capturing armed)) (fun t => t.port.phase = .warmReset ∧ t.port.lastWarm = true ∧ t.port.mem = [(0x24, 4)] ∧ t.capture = none) := by decide +kernel

/-- What a warm reset does to the units of a capture past ARMED, part by part. -/
theorem witness_WarmResetBegins_units :
    let reset := exec (.warmReset false false)
    let spans := withOut (begun id) fun o => { o with filling := some ⟨8, 2, true⟩, queue := [.page [frame]] }
    let retuned := { armed with control := { armed.control with
      pending := some ⟨7, 0, tuning⟩, sources := ⟨some ⟨8, .tach, 9, .waiting 2, false⟩, none⟩ } }
    let gathered := withWriter (begun id) fun w => { w with map := some mapRec, closeDue := some true }
    let dropped := { begun id with monitor := some (monitorWith ⟨[0], none, some dropout, none⟩) }
    (NothingOpen spans ∧ SpansQuiet spans .b ∧ Stored (withWord (capturing spans) 0x3100 1) 0x3100 1) ∧
    after (reset (withWord (capturing spans) 0x3100 1)) (fun t => t.port.mem = [(0x24, 4), (0x68, 1), (0x3100, 2), (0x311C, 3)] ∧
      (t.orders.slot 0).news = 2) ∧
    (armed.control.state = .armed ∧ retuned = { Capture.start 0 order with control := retuned.control }) ∧
    after (reset (capturing retuned)) (fun t => t.port.mem = [(0x24, 4)] ∧ t.capture = none) ∧
    (NothingOpen { excerpting 0 with writer := { (excerpting 0).writer with excerpt := none } } ∧ SpansQuiet (excerpting 0) .a) ∧
    after (reset (withWord (capturing (excerpting 0)) 0x3200 1)) (fun t => readMemWord t.port.mem 0x3200 = 2 ∧
      readMemWord t.port.mem 0x320C = 64 ∧ readMemWord t.port.mem 0x321C = 1 ∧ readMemWord t.port.mem 0x20000 = 0x02010000 ∧
      (t.orders.slot 0).news = 8) ∧
    (NothingOpen { gathered with writer := { gathered.writer with map := none } } ∧ Outstanding (capturing gathered) gathered.writer.mapList 0 ∧
      Outstanding (withWord (capturing gathered) 0x4008 (-3)) gathered.writer.mapList 3) ∧
    after (reset (capturing gathered)) (fun t => readMemWord t.port.mem 0x4004 = 1 ∧ readMemWord t.port.mem 0x401C = 10 ∧
      (t.orders.slot 0).news = 0xA0) ∧
    after (reset (withWord (capturing gathered) 0x4008 (-4))) (fun t => readMemWord t.port.mem 0x28 = 4 ∧
      readMemWord t.port.mem 0x4004 = 0 ∧ (t.orders.slot 0).news = 0x480) ∧
    NothingOpen { dropped with monitor := none } ∧
    after (reset (capturing dropped)) (fun t => readMemWord t.port.mem 0x5004 = 1 ∧ readMemWord t.port.mem 0x5014 = 0x15001 ∧
      (t.orders.slot 0).news = 0x10) ∧
    after (reset (withWord (capturing dropped) 0x5008 (-4))) (fun t => readMemWord t.port.mem 0x64 = 1 ∧ (t.orders.slot 0).news = 0) :=
  ⟨⟨nothingOpen_spec (by decide +kernel), spansQuiet_spec (by decide +kernel), by decide +kernel⟩, by decide +kernel,
    by decide +kernel, by decide +kernel, ⟨nothingOpen_spec (by decide +kernel), spansQuiet_spec (by decide +kernel)⟩,
    by decide +kernel, ⟨nothingOpen_spec (by decide +kernel), by decide +kernel, by decide +kernel⟩, by decide +kernel,
    by decide +kernel, nothingOpen_spec (by decide +kernel), by decide +kernel, by decide +kernel⟩

/-- A running capture with everything open at once: a FILLING span with spilled frames and a LOST record of group A, an excerpt, a
dropout of its lane, a gathered speed map record, a held repair record. -/
def busy : Capture :=
  let c := withOut (withWriter (excerpting 0) fun w => { w with map := some mapRec, holding := [repair] }) fun o => { o with
    filling := some ⟨8, 2, true⟩, queue := [.page [frame]], lost := some ⟨9, 4, 2, 30⟩ }
  { c with monitor := some { monitorWith ⟨[0], none, some dropout, none⟩ with seq := 7 } }

/-- READY with that capture, its span and excerpt FILLING. -/
def busyState : State := withWord (withWord (capturing busy) 0x3100 1) 0x3200 1

/-- With everything open at once: all records written where there is room for three, one suppressed where there is room for two. -/
theorem witness_WarmResetBegins_together :
    let reset := exec (.warmReset false false)
    let w := busy.writer
    (Ready busyState ∧ MemoryCanonical busyState ∧ w.closeDue = none ∧ Outstanding busyState w.repairList 0 ∧
      Outstanding (withWord busyState 0x5008 (-2)) w.repairList 2 ∧ Outstanding busyState w.mapList 0 ∧
      [((0x5000, 80) : Nat × Nat), (0x4000, 272), (0x3100, 32), (0x3200, 32), (0x20000, 64)].Pairwise Apart ∧
      Stored busyState 0x3100 1 ∧ Stored busyState 0x3200 1 ∧ ([0, 7, 8] : List Nat).Pairwise (· < ·)) ∧
    after (reset busyState) (fun t => (readMemWord t.port.mem 0x5004, readMemWord t.port.mem 0x60) = (3, 3) ∧
      (readMemWord t.port.mem 0x5010, readMemWord t.port.mem 0x5030, readMemWord t.port.mem 0x5050) = (0, 7, 8) ∧
      readMemWord t.port.mem 0x5054 = 0x1004 ∧ readMemWord t.port.mem 0x20000 = 0x12010000 ∧ readMemWord t.port.mem 0x20010 = 7 ∧
      (t.orders.slot 0).news = 58) ∧
    after (reset (withWord busyState 0x5008 (-2))) (fun t => (readMemWord t.port.mem 0x5004, readMemWord t.port.mem 0x64) = (2, 1) ∧
      readMemWord t.port.mem 0x5050 = 0) := by decide +kernel

/-- Frames released and not placed, and a released count ahead of the written count. -/
theorem witness_WarmResetBegins_released :
    let reset := exec (.warmReset false false)
    let arrived := fun (n : Nat) (sp : Option OpenSpan) =>
      withOut (begun id) fun o => { o with filling := sp, arriving := List.replicate n frame }
    let clear := fun (c : Capture) => withOut c fun o => { o with arriving := [] }
    let full : Option OpenSpan := some ⟨4088, 2, true⟩
    let lost := withOut (begun id) fun o => { o with lost := some ⟨9, 4, 2, 30⟩ }
    let gathered := withWriter (begun id) fun w => { w with map := some mapRec }
    (NothingOpen (clear (arrived 3 full)) ∧ NothingOpen (clear (arrived 2 none)) ∧ SpansQuiet (arrived 3 full) .b ∧
      NothingOpen (withOut lost fun o => { o with lost := none }) ∧ SpansQuiet lost .a) ∧
    (Outstanding (withWord (capturing lost) 0x5008 1) lost.writer.repairList 4294967295 ∧
      Outstanding (withWord (capturing gathered) 0x4008 1) gathered.writer.mapList 4294967295) ∧
    after (reset (withWord (capturing (arrived 1 full)) 0x3100 1)) (fun t => readMemWord t.port.mem 0x310C = 4092 ∧
      readMemWord t.port.mem 0x311C = 3 ∧ readMemWord t.port.mem 0x68 = 0 ∧ readMemWord t.port.mem 0x10FF8 = 0x100) ∧
    after (reset (withWord (capturing (arrived 3 full)) 0x3100 1)) (fun t => readMemWord t.port.mem 0x310C = 4096 ∧
      readMemWord t.port.mem 0x311C = 0 ∧ readMemWord t.port.mem 0x68 = 1) ∧
    after (reset (capturing (arrived 2 none))) (fun t => t.port.mem = [(0x24, 4), (0x68, 2)]) ∧
    after (reset (withWord (capturing lost) 0x5008 1)) (fun t => readMemWord t.port.mem 0x28 = 2 ∧
      readMemWord t.port.mem 0x5014 = 0x1004 ∧ (t.orders.slot 0).news = 1040) ∧
    after (reset (withWord (capturing gathered) 0x4008 1)) (fun t => readMemWord t.port.mem 0x28 = 1 ∧
      readMemWord t.port.mem 0x4004 = 1 ∧ (t.orders.slot 0).news = 1056) :=
  ⟨⟨nothingOpen_spec (by decide +kernel), nothingOpen_spec (by decide +kernel), spansQuiet_spec (by decide +kernel),
    nothingOpen_spec (by decide +kernel), spansQuiet_spec (by decide +kernel)⟩, by decide +kernel, by decide +kernel, by decide +kernel,
    by decide +kernel, by decide +kernel, by decide +kernel⟩

theorem witness_WarmResetEndsOrders : (resetting.port.phase = .warmReset ∧ resetting.orders.resetDone = false ∧ MemoryCanonical resetting) ∧
    goesTo (exec .orderReset ready) ready ∧
    after (exec .orderReset { resetting with orders := resetting.orders.setSlot 9 ⟨.taken, 4, 1, none⟩ }) (fun t =>
      t.orders.slot 9 = ⟨.done, 5, 1, none⟩ ∧ t.orders.summary = 512) ∧
    after (exec .orderReset (withSlot resetting 9 .stopping none)) (fun t => (t.orders.slot 9).state = .done ∧ t.port.mem = [(0x90C, 8)] ∧ t.orders.resetDone = true ∧
        goesTo (exec .warmResetEnd t) { t with port := { t.port with guard := [], phase := .ready } }) ∧ ready.port.phase ≠ .warmReset ∧
    after (exec .orderReset (guarded (withSlot resetting 0 .running (some .capture)) 0x3100)) (fun t => (t.orders.slot 0).state = .done ∧
      t.port.guard = [⟨0x3100, 0, .spanState, true⟩]) := by decide +kernel

/-! ## Orders -/

theorem witness_PostAndWithdraw : Ready ready ∧ (ready.orders.slot 31).state = .free ∧
    ((withSlot ready 31 .posted none).orders.slot 31).state = .posted ∧ ¬ (resetting.port.phase = .ready) ∧
    after (exec (.post 31) ready) (fun t => t.orders.posting = [31] ∧
      goesTo (exec (.withdraw 31) t) { ready with orders := { ready.orders with named := [31] } }) := by decide +kernel

/-- A CALIBRATE waiting in the run queue. -/
def queued : State :=
  let s := withSlot ready 2 .taken (some .calibrate)
  { s with orders := { s.orders with runQueue := [(2, .calibrate ⟨20, 0, true, none⟩)] } }

theorem witness_CancelOfQueuedOrder : Ready queued ∧ MemoryCanonical queued ∧ (queued.orders.slot 2).state = .taken ∧
    (∃ q ∈ queued.orders.runQueue, q.1 = 2) ∧ ¬ ((ready.orders.slot 2).state = .taken ∨ (ready.orders.slot 2).state = .running) ∧
    after (exec (.cancel 2) queued) (fun t => t.port.mem = [(0x20C, 3)] ∧ (t.orders.slot 2).state = .done ∧ t.orders.runQueue = []) := by decide +kernel

/-- A RETUNE in slot 7 and a SOURCE in slot 8 of the running capture. -/
def bound (phase : SourcePhase) : State :=
  let k := fun (k : Control) => { k with
    pending := some ⟨7, 1, tuning⟩, sources := ⟨some ⟨8, .tach, 9, phase, false⟩, none⟩ }
  let s := withSlot (withSlot ready 7 .taken (some .retune)) 8 .taken (some .source)
  { s with capture := some (begun k) }

/-- A TRANSPORT in slot 9 bound to block 1. -/
def boundTransport : State :=
  let d : DecoderSettings := ⟨.x4, 1, none⟩
  let s := withSlot ready 9 .taken (some .transport)
  { s with orders := { s.orders with pendingTransport := some ⟨9, 1, ⟨d, d, d, 5, 20, some 77⟩⟩ } }

theorem witness_CancelOfBoundOrder : Ready (calibrating (calRun id)) ∧ (∀ q ∈ (calibrating (calRun id)).orders.runQueue, q.1 ≠ 3) ∧
    ((calibrating (calRun id)).orders.slot 3).state = .running ∧ ((calibrating (calRun id)).orders.slot 3).live = some .calibrate ∧
    (settled (calibrating (calRun id))).calibration = some (calRun id) ∧ (calRun id).slot = 3 ∧
    (boundTransport.orders.slot 9).live = some .transport ∧ (settled boundTransport).orders.pendingTransport.map (·.slot) = some 9 ∧
    ((withSlot ready 4 .taken none).orders.slot 4).live = none ∧
    (settled (bound (.waiting 2))).capture = (bound (.waiting 2)).capture ∧
    ((bound (.waiting 2)).orders.slot 7).live = some .retune ∧ ((bound (.waiting 2)).orders.slot 8).live = some .source ∧
    (settled (bound (.probation 3 [.tach] none))).capture = (bound (.probation 3 [.tach] none)).capture := by decide +kernel

/-- A RETUNE whose binding block is reached changes its slot only; the units start with the tuning of one bound to block 0, and go
back to the tuning in force when it is cancelled before that block is taken (R36, R40, R119, R165; log 60). -/
theorem test_cancel_retune :
    let reached := { bound (.waiting 2) with capture := some (begun fun k => { k with reached := [(7, 1)] }) }
    let other := { tuning with groups := ⟨{ speech with prefs := [.hum] }, speech⟩ }
    let early : Capture := { armed with control := { armed.control with pending := some ⟨7, 0, other⟩ } }
    settled reached = reached ∧
    goesTo (exec (.cancel 7) reached) { reached with orders := reached.orders.setState 7 .stopping } ∧
    (early.createUnits (Vector.replicate 16 CalEntry.identity) 0).speed = some (SpeedUnit.start params other 0) ∧
    (let left := { begun fun k => { k with pending := some ⟨7, 0, other⟩ } with speed := some (SpeedUnit.start params other 0) }
     after (exec (.cancel 7) { reached with capture := some left }) fun t =>
       t.capture.bind (·.speed) = some (SpeedUnit.start params tuning 0)) := by decide +kernel

theorem witness_CancelOfCapture :
    let s := capturing (begun fun k => { k with candidate := some (request (drivenBlock 10 110)) })
    Ready s ∧ settled s = s ∧ MemoryCanonical (settled s) ∧ (s.orders.slot 0).state = .running ∧ s.orders.runQueue = [] ∧
    (s.orders.slot 0).live = some .capture ∧ s.reports = [] ∧
    (settled (capturing armed)).capture = some armed ∧ armed.control.state = .armed ∧
    after (exec (.cancel 0) s) (fun t => t.port.mem = [(0x20, 3)] ∧ (t.orders.slot 0).state = .stopping) := by decide +kernel

/-- Slot 6 posted with a CALIBRATE of window `w` and the attention mask 1. -/
def postedCalibrate (w : Word) : State :=
  let s := withWord (withWord ready 0x608 0x10002) 0x610 w
  { withSlot s 6 .posted none with orders := { (withSlot s 6 .posted none).orders with posting := [6] } }

/-- The only posted slot is the only candidate for the take, and slot 31 posted again behind slot 6 is one too (R26). -/
def reposted : State :=
  let s := withSlot (postedCalibrate 20) 31 .posted none
  { s with orders := { s.orders with posting := [6, 31], named := [31] } }

theorem witness_TakeClearsResults : Ready (postedCalibrate 20) ∧ MemoryCanonical (postedCalibrate 20) ∧
    (postedCalibrate 20).orders.taking = none ∧ (postedCalibrate 20).orders.posting = [6] ∧
    ((postedCalibrate 20).orders.slot 6).state = .posted ∧ resetting.port.phase ≠ .ready ∧
    (postedCalibrate 20).orders.candidates = [6] ∧ reposted.orders.candidates = [6, 31] ∧ reposted.orders.taking = none ∧
    after (exec .takeOrder (postedCalibrate 20)) (fun t => (t.orders.slot 6).state = .taken ∧ (t.orders.slot 6).mask = 1 ∧
      t.orders.taking = some ⟨6, .copied (.calibrate ⟨20, 0, false, none⟩)⟩) := by decide +kernel

theorem witness_TakeClearsResults_posting : PostingExact (postedCalibrate 20) ∧ PostingExact reposted := by
  constructor <;> exact ⟨by decide +kernel, by decide +kernel⟩

/-- Words stored in memory. -/
def withWords (s : State) (l : List (Nat × Word)) : State := l.foldl (fun s x => withWord s x.1 x.2) s

/-- Slot 6 taken, its order copied. -/
def copied (s : State) (st : SlotState) : State :=
  let t := withSlot s 6 st none
  { t with orders := { t.orders with taking := some ⟨6, (t.port.copyOrder 6).2.1⟩ } }

/-- Slot 6 taken with an order of the given kind and first parameter words. -/
def takenOrder (s : State) (kind w0 w1 : Word) (st : SlotState) : State :=
  copied (withWords s [(0x608, kind), (0x610, w0), (0x614, w1)]) st

/-- That slot taken with a CALIBRATE. -/
def takenCalibrate (w : Word) (st : SlotState) : State := takenOrder ready 0x10002 w 0 st

theorem witness_ValidateRefusesBadKind :
    let s := fun (w0 w1 : Word) => takenOrder ready w0 w1 0 .taken
    let copy := fun (s : State) => (s.port.copyOrder 6).2.1
    Ready (s 6 0) ∧ MemoryCanonical (settled (s 6 0)) ∧ (s 6 0).orders.taking = some ⟨6, .refused .badKind⟩ ∧
    ((s 6 0).orders.slot 6).state = .taken ∧ copy (s 0 0) = .refused .badKind ∧ copy (s 15 0) = .refused .badKind ∧
    eccAt (disturbed (s 2 20) 0x608 .uncorrectable).port.ecc (slotBase 6 + 8) = some .uncorrectable ∧
    (disturbed (s 2 20) 0x608 .uncorrectable).port.copyOrder 6 =
      (BitVec.allOnes 13, .refused .memoryFault, { (disturbed (s 2 20) 0x608 .uncorrectable).port with uncorrected := true }) ∧
    ((disturbed (s 6 0) 0x608 .single).port.copyOrder 6).2.2.corrected = 1 ∧
    copy (s 1 0x2FFF) = .refused .badLayout ∧ copy (s 1 0x3FFFB4) = .refused .badLayout ∧ copy (s 1 0x3000) ≠ .refused .badLayout ∧
    after (exec .validate (s 6 0)) (fun t => readMemWord t.port.mem 0x60C = 0x102 ∧ (t.orders.slot 6).state = .done) := by decide +kernel

theorem witness_ValidateCalibrate : Ready (takenCalibrate 20 .taken) ∧ MemoryCanonical (settled (takenCalibrate 20 .taken)) ∧
    (takenCalibrate 20 .taken).orders.taking = some ⟨6, .copied (.calibrate ⟨20, 0, false, none⟩)⟩ ∧
    ((takenCalibrate 20 .stopping).orders.slot 6).state = .stopping ∧
    eccAt (takenCalibrate 20 .taken).port.ecc 0x608 = none ∧ (readMemWord (takenCalibrate 20 .taken).port.mem 0x608).toNat % 16 = 2 ∧
    (takenCalibrate 6000 .taken).orders.taking = some ⟨6, .copied (.calibrate ⟨6000, 0, false, none⟩)⟩ ∧
    after (exec .validate (takenCalibrate 20 .taken)) (fun t => t.orders.runQueue = [(6, .calibrate ⟨20, 0, false, none⟩)] ∧ (t.orders.slot 6).state = .taken) ∧
    after (exec .validate (takenCalibrate 19 .taken)) (fun t => readMemWord t.port.mem 0x60C = 0x202 ∧ t.orders.runQueue = []) := by decide +kernel

/-- A host write after the take changes memory only (R205). -/
theorem test_write_after_take :
    after (exec (.hostWrite 0x610 19) (takenCalibrate 20 .taken)) (fun t => readMemWord t.port.mem 0x610 = 19 ∧
      after (exec .validate t) (fun u => u.orders.runQueue = [(6, .calibrate ⟨20, 0, false, none⟩)])) := by decide +kernel

/-- READY with the records of `order` in memory: the parameter block at 0x3800, the profile, the descriptors, the headers. -/
def written : State :=
  withWords ready ([(0x3800, 0x20300), (0x3804, 0x8010), (0x380C, 0x3000), (0x3810, 0x3100), (0x3818, 0x3200), (0x381C, 0x10002),
    (0x3820, 0x4000), (0x3824, 0x5000), (0x3828, 10), (0x382C, 1000), (0x3830, 100), (0x3834, 200)] ++
    [(0x3000, 0x10001), (0x3004, 0x10001), (0x3008, 0x2010203), (0x300C, 100), (0x3010, 50), (0x3014, 10), (0x3018, 0x401),
    (0x301C, 40000), (0x3024, 0x401), (0x3028, 40000)] ++
    [(0x3104, 0x10000), (0x3108, 4096), (0x3124, 0x11000), (0x3128, 4096), (0x3204, 0x20000), (0x3208, 15424), (0x4000, 4), (0x5000, 4)])

/-- What copying gives, by kind: the conditions of every clause, and the fields of each record. -/
theorem witness_ValidateCalibrate_copies :
    let p := fun (kind w0 w1 w2 : Word) => (withWords written [(0x608, kind), (0x610, w0), (0x614, w1), (0x618, w2)]).port
    let copy := fun (p : Port) => (p.copyOrder 6).2.1
    (p 1 0x3800 0 0).ecc = [] ∧
    copy (p 4 0xFF0201 0 0) = .copied (.source ⟨.b, some .hum, 255⟩) ∧ copy (p 4 0xFF0200 0 0) = .copied (.source ⟨.a, some .hum, 255⟩) ∧
    copy (p 5 0x40000C 0x80C80FFF 9) = .copied (.transport (some
      ⟨⟨.x4, 4, none⟩, ⟨.x4, 0, none⟩, ⟨.x4, 0, some .lh⟩, 4095, 200, some 9⟩)) ∧
    copy (p 5 3 0 0) = .copied (.transport none) ∧ copy (p 5 0x50 0 0) = .copied (.transport none) ∧
    copy (p 3 0x3003 0 0) = .copied (.retune (some tuning)) ∧ copy (p 3 0x2FFC 0 0) = .copied (.retune none) ∧
    copy (p 1 0x3800 0 0) = .copied (.capture ⟨params, some tuning, some 4, some 4,
      ⟨some [⟨0x3100, 0, 0x10000, 4096⟩, ⟨0x3120, 0, 0x11000, 4096⟩], some []⟩, some [⟨0x3200, 0, 0x20000, 15424⟩]⟩) ∧
    copy { p 4 0 0 0 with ecc := [(0x610, .uncorrectable)] } = .refused .memoryFault ∧
    (let faults := fun (kind w0 : Word) (a : Nat) => decide (copy { p kind w0 0 0 with ecc := [(a, .uncorrectable)] } = .refused .memoryFault)
     [(0x614 : Nat)].all (faults 2 0) ∧ [(0x614 : Nat), 0x618].all (faults 5 0x40000C) ∧ [(0x3000 : Nat), 0x303C].all (faults 3 0x3000) ∧
     [(0x3800 : Nat), 0x384C, 0x3000, 0x303C, 0x4000, 0x400C, 0x5000, 0x500C, 0x3100, 0x313C, 0x3200, 0x321C].all (faults 1 0x3800) ∧
     [(0x3850 : Nat), 0x3040, 0x3140, 0x3220, 0x4010].all (fun a => !faults 1 0x3800 a)) ∧
    parsePrefs 0x39 = [.tach, .hum, .bias] ∧ parsePrefs 0x31 = [.tach] ∧ parsePrefs 0x38 = [] := by decide +kernel

theorem witness_ValidateRefusesOrBinds_capture :
    let s := takenOrder written 0x10001 0x3800 0 .taken
    let other := fun (w : State) => takenOrder w 0x10001 0x3800 0 .taken
    Ready s ∧ MemoryCanonical (settled s) ∧ s.orders.taking.map (·.slot) = some 6 ∧ (s.orders.slot 6).state = .taken ∧
    after (exec .validate s) (fun t => t.orders.runQueue = [(6, .capture order)] ∧ t.port.guard = [⟨0x3100, 6, .spanState, false⟩, ⟨0x3120, 6, .spanState, false⟩, ⟨0x3200, 6, .spanState, false⟩,
        ⟨0x4008, 6, .released, false⟩, ⟨0x5008, 6, .released, false⟩] ∧
      (t.orders.slot 6).live = some .capture ∧ (t.orders.slot 6).state = .taken) ∧
    after (exec .validate (other (disturbed written 0x3128 .uncorrectable))) (fun t => readMemWord t.port.mem 0x60C = 0x902 ∧ t.orders.runQueue = []) ∧
    after (exec .validate (other (withWord written 0x3208 15420))) (fun t => readMemWord t.port.mem 0x60C = 0x402) ∧
    after (exec .validate (other (withWord written 0x3008 0x2010201))) (fun t => readMemWord t.port.mem 0x60C = 0x302) ∧
    after (exec .validate (takenOrder written 0x10001 0x3800 0 .stopping)) (fun t => readMemWord t.port.mem 0x60C = 3) := by decide +kernel

theorem witness_ValidateRefusesOrBinds_retune :
    let s := { takenOrder written 0x10003 0x3000 0 .taken with capture := some armed }
    armed.control.sources = ⟨none, none⟩ ∧
    after (exec .validate s) (fun t => (t.capture.bind (·.control.pending)) = some ⟨6, 0, tuning⟩ ∧ t.orders.ends = []) ∧
    after (exec .validate { s with capture := (bound (.waiting 2)).capture }) (fun t =>
      t.orders.ends = [⟨7, .superseded, .none, false⟩]) ∧
    after (exec .validate { s with capture := none }) (fun t => readMemWord t.port.mem 0x60C = 0x602) ∧
    (let both := begun fun k => { k with sources :=
       ⟨some ⟨8, .hum, 9, .waiting 2, false⟩, some ⟨9, .bias, 9, .waiting 3, false⟩⟩ }
     let other := { both with speed := some { SpeedUnit.start params tuning 0 with
       groups := ⟨some (GroupSpeed.start { speech with prefs := [.hum] }), none⟩ } }
     after (exec .validate { s with capture := some other }) fun t =>
       t.orders.ends = [⟨8, .superseded, .none, false⟩, ⟨9, .superseded, .none, false⟩]) := by decide +kernel

theorem witness_ValidateRefusesOrBinds_source :
    let s := fun (c : Option Capture) (w : Word) => { takenOrder ready 0x10004 w 0 .taken with capture := c }
    let waits := fun (t : State) => (t.capture.bind (·.control.sources.a)) = some ⟨6, .tach, 9, .waiting 0, false⟩
    after (exec .validate (s (some (begun id)) 0x90100)) (fun t => waits t ∧ t.orders.ends = []) ∧
    after (exec .validate (s (bound (.waiting 2)).capture 0x90100)) (fun t => waits t ∧ t.orders.ends = [⟨8, .superseded, .none, false⟩]) ∧
    after (exec .validate (s (bound (.probation 3 [.tach] none)).capture 0x90100)) (fun t => waits t ∧ readMemWord t.port.mem 0x82C = 3) ∧
    after (exec .validate (s (some (begun id)) 0x90200)) (fun t => readMemWord t.port.mem 0x60C = 0x702) ∧
    after (exec .validate (s (some (begun id)) 0x100)) (fun t => readMemWord t.port.mem 0x60C = 0x202) := by decide +kernel

/-- The list a SOURCE is checked against, by where the newest RETUNE stands (R31; log 43). -/
theorem witness_ValidateRefusesOrBinds_lists :
    let lists := fun (l : List Source) => { tuning with groups := ⟨{ speech with prefs := l }, speech⟩ }
    let bind := fun (l : List Source) => { taken with binding := true, tuning := lists l }
    let worked := { bind [.bias] with speed := some ⟨some report, none⟩ }
    let c := fun (f : Control → Control) => nextPrefs (begun f) .a
    c (fun k => { k with pending := some ⟨6, 1, lists [.hum]⟩, inFlight := [bind [.bias]] }) = [.hum] ∧
    c (fun k => { k with inFlight := [bind [.bias], bind [.hum, .tach], taken] }) = [.hum, .tach] ∧
    c (fun k => { k with inFlight := [bind [.hum], worked, taken] }) = [.hum] ∧
    c (fun k => { k with inFlight := [worked, taken], tuning := lists [.hum] }) = [.tach] ∧
    heldPrefs { armed with control := { armed.control with tuning := lists [.hum] } } .a = [.hum] ∧
    heldPrefs (begun id) .b = [] := by decide +kernel

theorem witness_ValidateRefusesOrBinds_transport :
    let s := fun (w : Word) => takenOrder ready 0x10005 0 w .taken
    let bound9 := { boundTransport with orders := { (s 0x140000).orders with pendingTransport := boundTransport.orders.pendingTransport }
                                        port := (s 0x140000).port }
    after (exec .validate (s 0x50000)) (fun t => (t.orders.pendingTransport.map fun p => (p.slot, p.order.slipThreshold)) = some (6, 5) ∧
      readMemWord t.port.mem 0x620 = 1) ∧
    after (exec .validate (s 0x40000)) (fun t => readMemWord t.port.mem 0x60C = 0x202) ∧
    after (exec .validate (s 0xC80000)) (fun t => t.orders.pendingTransport.isSome) ∧
    after (exec .validate (s 0xC90000)) (fun t => readMemWord t.port.mem 0x60C = 0x202) ∧
    after (exec .validate bound9) (fun t => t.orders.ends = [⟨9, .superseded, .none, false⟩]) := by decide +kernel

/-- The engine's copy of the CAPTURE in memory. -/
def captureCopy : CaptureCopy :=
  { params := params, tuning := some tuning, mapCapacity := some 4, repairCapacity := some 4, spans := ⟨some order.spans.a, some []⟩
    excerpts := some order.excerpts }

theorem witness_layoutRule : LayoutRule params ∧ ¬ LayoutRule { params with rateCode := 2 } ∧ ¬ LayoutRule { params with cueCount := 9 } := by
  have lane : ∀ l : LaneNo, (getAt params.lanes l).active = true → l = 0 := by decide
  refine ⟨⟨Or.inl rfl, ⟨0, rfl⟩, by decide, ?_, fun g h => by cases g <;> exact absurd h (by decide), ?_, by decide, ?_, ?_⟩,
    fun h => ?_, fun h => ?_⟩
  · intro l m e h h1 h2; exact absurd ((lane l h1).trans (lane m h2).symm) h
  · intro a b h1 h2; cases h1; cases h2; decide
  · intro i x y h1 h2
    match i, h1, h2 with
    | 0, h1, h2 => cases h1; cases h2; decide
    | 1, h1, h2 => cases h2
    | i + 2, h1, h2 => cases h1
  · intro x hx
    rw [show params.cues = [100, 200] from rfl] at hx
    refine ⟨fun a h => ?_, fun b h => ?_⟩ <;> cases h <;> revert hx <;> simp <;> rintro (rfl | rfl) <;> decide
  · have := h.1; revert this; decide
  · have := h.2.2.2.2.2.2.1; revert this; decide

theorem witness_profileRule : ProfileRule (Vector.replicate 16 CalEntry.identity) params tuning ∧
    ¬ ProfileRule (Vector.replicate 16 CalEntry.identity) params { tuning with nd := 101 } := by
  refine ⟨⟨by decide, ?_, ?_⟩, fun h => ?_⟩
  · intro l hl
    obtain rfl : l = 0 := (by decide : ∀ l : LaneNo, (getAt params.lanes l).active = true → l = 0) l hl
    refine ⟨fun i hi => ?_, by decide, by decide, by decide⟩
    match i, hi with
    | i + 1, _ => simp [tuning, getAt]
  · intro g hg
    cases g
    · exact ⟨by decide, by decide, by decide, by decide, by decide⟩
    · exact absurd hg (by decide)
  · have := h.1; revert this; decide

theorem witness_listRule : ListRule params order.spans.a [] order.excerpts 4 4 ∧ ¬ ListRule params order.spans.a [] order.excerpts 3 4 := by
  refine ⟨⟨fun g hg => ?_, by decide, by decide, by decide, by decide, by decide, by decide, by decide, by decide +kernel⟩, fun h => ?_⟩
  · cases g
    · decide
    · exact absurd hg (by decide)
  · have := h.2.2.2.2.2.2.1.1; revert this; decide

theorem witness_ValidateRefusesOrBinds_checks :
    checkOrder ready (.capture captureCopy) = .ok (.capture order) ∧
    checkOrder ready (.capture { captureCopy with params := { params with rateCode := 2 } }) = .error .badLayout ∧
    checkOrder ready (.capture { captureCopy with tuning := none }) = .error .badProfile ∧
    checkOrder ready (.capture { captureCopy with tuning := some { tuning with nd := 101 } }) = .error .badProfile ∧
    checkOrder ready (.capture { captureCopy with excerpts := none }) = .error .badList ∧
    checkOrder ready (.capture { captureCopy with mapCapacity := some 3 }) = .error .badList ∧
    checkOrder ready (.retune none) = .error .badProfile ∧ ready.capture = none ∧ CommonProfileRule tuning ∧
    checkOrder ready (.retune (some tuning)) = .error .noCapture ∧
    checkOrder ready (.retune (some { tuning with nd := 101 })) = .error .badProfile ∧
    checkOrder (capturing armed) (.retune (some { tuning with sp := 6 })) = .error .badProfile ∧
    checkOrder (capturing (begun fun k => { k with state := .stopping })) (.retune (some tuning)) = .error .noCapture ∧
    checkOrder (capturing armed) (.retune (some tuning)) = .ok (.retune tuning) ∧
    checkOrder ready (.source ⟨.a, some .tach, 0⟩) = .error .badLayout ∧ checkOrder ready (.source ⟨.a, some .tach, 256⟩) = .error .badLayout ∧
    checkOrder ready (.source ⟨.a, some .tach, 255⟩) = .error .noCapture ∧ nextPrefs armed .a = [.tach] ∧
    checkOrder (capturing armed) (.source ⟨.a, some .tach, 1⟩) = .ok (.source .a .tach 1) ∧
    checkOrder (capturing armed) (.source ⟨.b, some .tach, 1⟩) = .error .notTracked := by decide +kernel

/-- A CAPTURE waiting in the run queue. -/
def queuedCapture (o : CaptureOrder) : State :=
  let s := withSlot ready 0 .taken (some .capture)
  { s with orders := { s.orders with runQueue := [(0, .capture o)] } }

theorem witness_StartOfStreamOrder : Ready queued ∧ MemoryCanonical queued ∧ streamBusy queued.orders = false ∧
    transportBusy queued.orders = false ∧ (queued.orders.slot 2).state = .taken ∧ resetting.port.phase ≠ .ready ∧
    allWatched (queuedCapture order).elements.table order.params order.tuning = true ∧
    allWatched (queuedCapture order).elements.table order.params { tuning with lanes := Vector.replicate 4 ⟨0, 0, false⟩ } = false ∧
    streamBusy (queuedCapture order).orders = false ∧ transportBusy (queuedCapture order).orders = false ∧
    (let refused := { queued with orders := { queued.orders with ends := [⟨5, .refused, .badProfile, false⟩] } }
     goesTo (exec .startStreamOrder refused) refused) ∧
    after (exec .startStreamOrder (queuedCapture order)) (fun t => t.capture = some armed ∧ (t.orders.slot 0).state = .running) := by decide +kernel

theorem witness_FinishActsOnEnd :
    let s := { capturing armed with orders := { (capturing armed).orders with ends := [⟨0, .complete, .none, false⟩] } }
    Working s ∧ MemoryCanonical s ∧ (s.orders.slot 0).state.isLive = true ∧ (s.orders.slot 1).state.isLive = false ∧
    after (exec .finishOrder s) (fun t => t.port.mem = [(0x0C, 1)] ∧ (t.orders.slot 0).state = .done ∧ t.orders.summary = 1 ∧ t.capture = none) := by decide +kernel

theorem witness_NewsFollowsMask : (ready.orders.slot 0).state = .free ∧ ((withSlot ready 0 .done none).orders.slot 0).state ≠ .free ∧
    ((withSlot ready 0 .done none).orders.slot 0).state ≠ .posted ∧
    ((withSlot ready 0 .done none).orders.setNews 0 .done).summary = 1 ∧
    ((withSlot ready 0 .done none).orders.setNews 0 .slip).summary = 0 := by decide +kernel

/-! ## The transport counter unit -/

/-- READY with debounce off at CAPSTAN and PINCH engaged. -/
def rolling : State :=
  { ready with transport := { ready.transport with
      capstan := { ready.transport.capstan with settings := ⟨.x4, 0, none⟩ }, pinch := ⟨true, true, none⟩ } }

theorem witness_InputsAreFiltered : Working rolling ∧ (inputLines rolling.transport)[0]?.map (·.2) = some 0 ∧
    State.reset.port.phase = .coldInit ∧ ready.transport.nextExpiry = none ∧
    after (exec (.inputChange 0 0x008) ready) (fun t => t.transport.nextExpiry = some 24576 ∧ t.transport.supply.lineA = ⟨true, false, some 0⟩ ∧
        after (exec .debounceExpiry t) (fun u =>
          u.transport.supply.lineA = ⟨true, true, none⟩ ∧ u.transport.supplyReel.counter = 1) ∧
        after (exec (.inputChange 5 0x008) t) (fun u => u.transport.supply.lineA = ⟨true, false, some 5000⟩) ∧
        after (exec (.inputChange 5 0x000) t) (fun u => u.transport.supply.lineA = ⟨false, false, none⟩)) ∧
    after (exec (.inputChange 9 0x3FF) State.reset) (fun t => t.transport.clock = State.reset.transport.clock) := by decide +kernel

theorem witness_CapstanEdgeCounts : Working rolling ∧ InputsQuiet rolling.transport ∧
    rolling.transport.capstan.settings.debounce = 0 ∧ rolling.transport.capstan.lineI.raw = false ∧
    (inputLines rolling.transport).map (fun l => l.1.raw) =
      [false, false] ++ ((List.range 10).drop 2).map (0x201#10).getLsbD ∧
    after (exec (.inputChange 5 0x201) rolling) (fun t => t.transport.position = 1 ∧ t.transport.motion = .forward ∧ t.transport.capstan.errors = 0) ∧
    after (exec (.inputChange 5 0x203) rolling) (fun t => t.transport.position = 0 ∧ t.transport.capstan.errors = 1) := by decide +kernel

/-- What CAPSTAN counts, CAPSTAN decode errors and PINCH do to the open block record and the reels' intervals. -/
theorem witness_CapstanEdgeCounts_record :
    let u := { rolling.transport with
      stillRun := 4, current := some ⟨1, 40, 10, true, false, false, false, 5⟩
      supplyReel := ⟨5, some 100, 1000, true, true, 3⟩, takeupReel := ⟨5, some 100, 1000, true, true, 3⟩ }
    let s := { rolling with transport := u }
    let go := fun (v : BitVec 10) => exec (.inputChange 5 v) s
    let soiled := fun (t : State) => !t.transport.supplyReel.runClean && !t.transport.takeupReel.runClean
    let t0 := { s with transport := { u with pinch := ⟨false, false, none⟩ } }
    (Working s ∧ InputsQuiet s.transport ∧ InputsQuiet t0.transport ∧ ((inputLines u).map (·.1.raw)).zipIdx.all fun x =>
      (0x000#10).getLsbD x.2 = (x.1 ^^ decide (x.2 = 9))) ∧
    after (go 0x202) (fun t => t.transport.current = some ⟨1, 40, 9, true, true, false, false, 5⟩ ∧ t.transport.stillRun = 0 ∧
      t.transport.counted = true ∧ t.transport.motion = .reverse ∧ !soiled t) ∧
    after (go 0x203) (fun t => t.transport.current = some ⟨1, 40, 10, true, false, true, false, 5⟩ ∧ t.transport.stillRun = 4 ∧ soiled t) ∧
    after (go 0x000) (fun t => t.transport.current = some ⟨1, 40, 10, false, false, false, false, 5⟩ ∧ soiled t) ∧
    after (exec (.inputChange 5 0x200) t0) (fun t => t.transport.pinch = ⟨true, true, none⟩ ∧ t.transport.current = u.current ∧
      !soiled t) := by decide +kernel

/-- Edges of the reels' decoders and of the index inputs, with PINCH engaged. -/
theorem witness_CapstanEdgeCounts_reels :
    let off := fun (d : Decoder) => { d with settings := { d.settings with debounce := 0 } }
    let s := { rolling with transport := { rolling.transport with
      position := 1121, supply := off rolling.transport.supply, takeup := off rolling.transport.takeup
      supplyReel := ⟨5, some 100, 1000, true, true, 3⟩, current := some ⟨1, 40, 10, true, false, false, false, 5⟩ } }
    let go := fun (v : BitVec 10) => exec (.inputChange 5 v) s
    let flips := fun (v : BitVec 10) (bits : List Nat) => ((inputLines s.transport).map (·.1.raw)).zipIdx.all fun x =>
      v.getLsbD x.2 = (x.1 ^^ decide (x.2 ∈ bits))
    Working s ∧ InputsQuiet s.transport ∧ s.transport.supply.settings.debounce = 0 ∧
    flips 0x208 [3] ∧ flips 0x300 [8] ∧ flips 0x220 [5] ∧ flips 0x204 [2] ∧ flips 0x218 [3, 4] ∧
    after (go 0x208) (fun t => t.transport.supplyReel.counter = 6 ∧ t.transport.position = 1121) ∧
    after (go 0x300) (fun t => t.transport.takeupReel = ⟨0, some 1121, 0, false, true, 0⟩ ∧ t.orders = s.orders) ∧
    after (go 0x220) (fun t => t.transport.supplyReel = ⟨0, some 1121, 1021, true, true, 4⟩ ∧
      t.transport.current.map (·.slip) = some true) ∧
    (let running := fun (st : SlotState) => { withSlot s 4 st (some .capture) with transport := s.transport }
     let news := fun (s : State) => after (exec (.inputChange 5 0x220) s) fun t =>
       (t.orders.slot 4).news = 0x1000 ∧ t.orders.summary = 16
     let asks := fun (s : State) => { s with orders := s.orders.setSlot 4 { s.orders.slot 4 with mask := 0x1000 } }
     news (asks (running .running)) ∧ news (asks (running .stopping)) ∧ !news (asks (running .taken)) ∧ !news (asks s) ∧
     !news { asks (running .running) with port := resetting.port }) ∧
    after (go 0x204) (fun t => t.transport.capstanStamp = 1121 ∧ t.transport.supplyReel.counter = 5) ∧
    after (go 0x218) (fun t => t.transport.supplyReel = ⟨5, some 100, 1000, true, false, 3⟩ ∧ t.transport.supply.errors = 1 ∧
      t.transport.current.map (·.decodeError) = some true) := by decide +kernel

theorem witness_ReelIndexEventJudgesSlip :
    let r : Reel := ⟨5, some 100, 1000, true, true, 65535⟩
    (r.indexEvent 1121 true 20).2 = true ∧ (r.indexEvent 1120 true 20).2 = false ∧ (r.indexEvent 1121 true 20).1.slips = 65535 ∧
    (Reel.cold.indexEvent 50 false 20).1.stamp = some 50 := by decide +kernel

theorem witness_TenStillBlocksStopMotion : ({ Transport.cold with counted := true } : Transport).counted = true ∧
    Transport.cold.counted = false ∧
    ({ Transport.cold with stillRun := 9, motion := .forward } : Transport).closeMotion.motion = .stopped ∧
    ({ Transport.cold with stillRun := 8, motion := .forward } : Transport).closeMotion.motion = .forward ∧ Working ready := by
  decide +kernel

theorem witness_BlockBoundaryFramesBlocks : Working ready ∧ MemoryCanonical ready ∧ wellFormedBlock silence = true ∧
    wellFormedBlock [] = false ∧ ready.capture = none ∧ (capturing armed).capture ≠ none ∧
    (boundTransport.orders.pendingTransport.map (·.block)) = some (boundTransport.elements.block + 1) ∧
    ready.orders.reachedTransport = none ∧ Working boundTransport :=
  ⟨by decide, by decide, silence_wellFormed, by decide, rfl, by decide +kernel, by decide, rfl, by decide⟩

/-- The block that a reached TRANSPORT was bound to ends: its position words and its end. -/
theorem test_boundary_ends_transport :
    let s := { boundTransport with
      orders := { boundTransport.orders with pendingTransport := none, reachedTransport := some 9 }
      transport := { boundTransport.transport with position := 50, current := some ⟨1, 40, 10, true, false, false, false, 5⟩ } }
    (s.deck.boundary 2).2.hub.orders.ends = [⟨9, .complete, .none, false⟩] ∧ readMemWord (s.deck.boundary 2).2.hub.port.mem 0x924 = 40 ∧
    readMemWord (s.deck.boundary 2).2.hub.port.mem 0x928 = 50 := by decide +kernel

/-- With every input quiet the closed record is the open one, closed, and the snapshot shows what stands after it. -/
theorem test_boundary_closes_record :
    let u := { rolling.transport with
      position := 50, stillRun := 3, counted := true, motion := .forward, current := some ⟨1, 40, 10, true, false, false, false, 5⟩
      supplyReel := ⟨5, some 100, 1000, true, true, 7⟩ }
    let d := ({ rolling with transport := u }.deck.boundary 2).2
    InputsQuiet u ∧ d.unit.records = [⟨1, 40, 50, 10, true, false, false, false, .forward, true, 5⟩] ∧
    d.unit.current = some ⟨2, 50, 0, true, false, false, false, 0⟩ ∧ d.unit.position = 50 ∧ d.unit.stillRun = 3 ∧
    d.unit.motion = .forward ∧ d.unit.supplyReel = u.supplyReel ∧
    (({ rolling with transport := { u with stillRun := 9, counted := false } }.deck.boundary 2).2.unit.motion = .stopped) ∧
    d.hub.port.mem = [(0x2100, 2), (0x2104, 50), (0x2108, 1), (0x2109, 1), (0x210C, 5), (0x2110, 232), (0x2111, 3), (0x2124, 7),
      (0x213C, 2)] := by decide +kernel

/-- What the transport counter unit does at the first boundary of all. -/
theorem test_boundary_opens_record : (ready.deck.boundary 1).2.unit.current.map (fun r => (r.num, r.nc, r.start)) = some (1, 0, 0) ∧
    (ready.deck.boundary 1).2.hub.port.mem = [(0x2100, 1), (0x213C, 1)] ∧ (ready.deck.boundary 1).1 = none := by decide +kernel

/-- A TRANSPORT binds at the block it is stamped with. -/
theorem test_boundary_binds_transport : InputsQuiet boundTransport.transport ∧ (boundTransport.deck.boundary 1).2.unit.position = 77 ∧
    (let clean := { boundTransport with transport := { boundTransport.transport with supplyReel := ⟨5, some 100, 1000, true, true, 7⟩ } }
     (clean.deck.boundary 1).2.unit.supplyReel = ⟨5, some 100, 1000, true, false, 7⟩ ∧
     (clean.deck.boundary 2).2.unit.supplyReel.runClean = true) ∧
    (boundTransport.deck.boundary 1).2.hub.orders.reachedTransport = some 9 ∧
    (boundTransport.deck.boundary 2).2.hub.orders.reachedTransport = none := by decide +kernel

/-! ## CALIBRATE -/

theorem witness_CalibrateBlockMovesTheRun :
    let s := fun (r : CalRun) (b : StreamBlock) => { calibrating r with reports := [b] }
    Working (s (calRun id) undriven) ∧ MemoryCanonical (s (calRun id) undriven) ∧ (calRun id).state = .armed ∧
    (calRun fun r => { r with state := .stopping }).state = .stopping ∧
    (calRun fun r => { r with state := .running }).fixOffsets.measureLast ready.elements true =
      .ok (calRun fun r => { r with state := .running }) ∧
    findBlock (withHistory ready held).elements 0 = some held ∧
    (calRun id).fixOffsets.measureLast (withHistory ready held).elements false = .ok (calRun id) ∧
    goesTo (exec .calibrateBlock (s (calRun id) undriven)) (calibrating (calRun id)) ∧
    after (exec .calibrateBlock (s (calRun fun r => { r with state := .running }) undriven)) (fun t => t.port.mem = [(0x320, 2), (0x322, 1)]) ∧
    after (exec .calibrateBlock { withHistory (calibrating (calRun id)) held with reports := [drivenBlock 10 110] }) (fun t => t.port.mem = [(0x320, 1), (0x324, 1), (0x328, 110)]) := by decide +kernel

/-- The sums of a settle block, of a measure block and of the first block of a run. -/
theorem witness_CalibrateBlockMovesTheRun_sums :
    let h : HistBlock := ⟨0, [0x5, 0xFFFFFD] :: List.replicate 15 [], 2 :: List.replicate 15 0⟩
    let step := fun (r : CalRun) => runOf (exec .calibrateBlock { withHistory (calibrating r) h with reports := [drivenBlock 10 110] })
    let sums := fun (r : CalRun) => (step r).map fun r => (r.offsetSums.head?, r.levelSums.head?, r.clipTotals.head?)
    let settle := calRun fun r => { r with processed := 9, state := .running }
    let measure := calRun fun r => { r with processed := 10, state := .running, offsets := some (List.replicate 16 1) }
    sums settle = some (some 2, some 0, some 2) ∧ sums measure = some (some 0, some 8, some 2) ∧
    (step settle).map (·.last) = some (some ⟨0, false, false⟩) ∧ (step measure).map (·.last) = some (some ⟨0, false, true⟩) ∧
    (step (calRun id)).map (·.startPos) = some 10 ∧ (step (calRun id)).map (·.last) = some (some ⟨0, true, false⟩) := by decide +kernel

theorem witness_WindowCompleteWritesResults :
    let r := calRun fun r => { r with state := .stopping, processed := 10, offsets := some (List.replicate 16 0) }
    Working (calibrating r) ∧ MemoryCanonical (calibrating r) ∧ r.finished = false ∧
    r.fixOffsets.measureLast (calibrating r).elements true = .ok r ∧
    (calRun fun r => { r with processed := 10 }).offsets = none ∧ (calRun fun r => { r with processed := 9 }).processed < 10 ∧
    after (exec .offsetsFixed (calibrating (calRun fun r => { r with processed := 10 }))) (fun t => t.calibration.bind (·.offsets) = some (List.replicate 16 0)) ∧
    (let m := (calRun fun r => { r with levelSums := (List.range 16).map fun e => 38400 * (80 + e), offsets := some (List.replicate 16 3) }).results
     let n := (calRun fun r => { r with levelSums := [38400 * 80, 38400 * 9] ++ List.replicate 14 (38400 * 10) }).results
     (m.amax, m.live, m.aref, m.noSignal, m.anchorDead) = (95, 16, 87, false, false) ∧
     (m.entries.map (·.level)).take 2 = [80, 81] ∧ (m.entries.map (·.offset)).head? = some 3 ∧
     (n.amax, n.live, n.aref) = (80, 15, 14) ∧ (n.entries.map (·.dead)).take 3 = [false, true, false]) ∧
    after (exec .windowComplete (calibrating r)) (fun t => t.elements.generation = 1 ∧ t.orders.ends = [⟨3, .complete, .none, false⟩]) := by decide +kernel

theorem witness_TrimAndCalibrationArithmetic : roundDiv 5 2 = 3 ∧ roundDiv (-5) 2 = -3 ∧
    trim ⟨32768, 0, 0, false⟩ 8388607 = 8388607 ∧ trim ⟨16385, 1, 0, false⟩ 8193 = 8193 ∧ trim CalEntry.identity (-8388608) = -8388608 ∧
    gainOf 100 200 false = (8192, false) ∧ gainOf 100 201 false = (8192, true) ∧
    gainOf 100 50 false = (32768, false) ∧ gainOf 100 49 false = (32768, true) ∧ gainOf 100 0 false = (32768, true) ∧
    gainOf 100 100 true = (16384, false) ∧ staticSkew false false false (-7) 2 = (-4, false) := by decide +kernel

/-! ## The capture controller -/

theorem witness_JudgeBlockMovesTheCapture :
    let s := fun (c : Capture) (b : StreamBlock) => { capturing c with reports := [b] }
    let r := begun fun k => { k with candidate := some (request (drivenBlock 10 110)) }
    Capturing (s armed undriven) armed ∧ MemoryCanonical (s armed undriven) ∧ armed.control.state = .armed ∧
    r.control.state = .running ∧ stopReached params (drivenBlock 110 210) = false ∧ stopReached params (drivenBlock 900 1000) = true ∧
    stopReached params (drivenBlock 899 999) = false ∧ params.start = some 10 ∧ ((10#32) - 10#32).toInt = 0 ∧ ((9#32) - 10#32).toInt < 0 ∧
    after (exec .judgeBlock (s armed (drivenBlock 10 110))) (fun t => t.port.mem = [(0x20, 1), (0x34, 10), (0x38, 110), (0x3C, 10)] ∧
        t.capture.bind (·.control.candidate) = some (request (drivenBlock 10 110))) ∧
    after (exec .judgeBlock (s r (drivenBlock 900 1000))) (fun t => readMemWord t.port.mem 0x20 = 3 ∧ t.capture.map (·.control.endReason) = some .stopPosition) ∧
    after (exec .judgeBlock (s r undriven)) (fun t => readMemWord t.port.mem 0x20 = 2 ∧ readMemWord t.port.mem 0x58 = 1) := by decide +kernel

/-- Cues below the start position, a start and a resume block past the stop position, the blocks a cancel leaves, the units. -/
theorem witness_JudgeBlockMovesTheCapture_cases :
    let judge := fun (c : Capture) (b : StreamBlock) => exec .judgeBlock { capturing c with reports := [b] }
    let control := fun (r : Result) => (capOf r).map (·.control)
    let first := request (drivenBlock 10 110)
    let next := drivenBlock 110 210
    let left := fun (n : Nat) => begun fun k => { k with state := .stopping, cancelLeft := n, candidate := some first }
    let paused := begun fun k => { k with state := .paused, highWater := 110 }
    let other := { tuning with groups := ⟨{ speech with prefs := [.hum] }, speech⟩ }
    let retuned : Capture := { armed with control := { armed.control with pending := some ⟨7, 0, other⟩ } }
    (control (judge armed (drivenBlock 100 150))).map (fun k => (k.cuesSkipped, k.cueCursor)) = some (1, 2) ∧
    (control (judge armed (drivenBlock 99 150))).map (fun k => (k.cuesSkipped, k.cueCursor)) = some (0, 1) ∧
    (control (judge armed (drivenBlock 10 1000))).map (fun k => (k.state, k.toTake, k.candidate)) =
      some (.stopping, [{ request (drivenBlock 10 1000) with final := some .capture }], none) ∧
    (control (judge paused (drivenBlock 110 1000))).map (fun k => (k.state, k.toTake)) =
      some (.stopping, [⟨drivenBlock 110 1000, true, true, some .capture⟩]) ∧
    (control (judge (left 2) next)).map (fun k => (k.toTake, k.candidate, k.cancelLeft)) =
      some ([first], some ⟨next, false, false, none⟩, 1) ∧
    (control (judge (left 1) next)).map (fun k => (k.toTake, k.candidate, k.cancelLeft)) =
      some ([first, ⟨next, false, false, some .capture⟩], none, 0) ∧
    (control (judge (left 2) undriven)).map (fun k => (k.toTake, k.candidate, k.cancelLeft)) =
      some ([{ first with final := some .capture }], none, 0) ∧
    after (judge retuned (drivenBlock 10 110)) (fun t => t.capture.bind (·.speed) = some (SpeedUnit.start params other 0) ∧
      t.capture.bind (·.monitor) = some (LaneMonitor.start params)) := by decide +kernel

theorem witness_TakeBlockGivesIndexAndTuning :
    let c := begun fun k => { k with toTake := [request (drivenBlock 10 110)], pending := some ⟨7, 0, tuning⟩ }
    Capturing (capturing c) c ∧ MemoryCanonical (capturing c) ∧ c.control.peak = none ∧ c.control.inFlight = [] ∧
    (begun id).control.toTake = [] ∧
    after (exec .takeBlock (capturing c)) (fun t => t.capture.map (·.control.nextIdx) = some 1 ∧ t.port.mem = [(0x55, 1)] ∧
        t.capture.map (·.control.reached) = some [(7, 0)]) ∧
    (let cues := fun (stop : Word) => let c := begun fun k => { k with toTake := [request (drivenBlock 10 stop)] }
      match exec .takeBlock (capturing c) with
      | .next t => t.capture.map fun c => c.control.inFlight.map (·.cues)
      | _ => none
     cues 99 = some [[]] ∧ cues 100 = some [[1]] ∧ cues 199 = some [[1]] ∧ cues 200 = some [[1, 2]]) ∧
    (let c := begun fun k => { k with toTake := [request { drivenBlock 10 20 with clips := 1 :: List.replicate 15 0 }] }
     after (exec .takeBlock (capturing c)) (fun t => (t.capture.map fun c => c.control.inFlight.map (·.clipped)) = some [[0]])) := by
  decide +kernel

theorem witness_LeaderRunEndsTheCapture :
    let c := fun (run peak : Nat) => begun fun k => { k with inFlight := [taken], peak := some (0, peak), leaderRun := run }
    Capturing (capturing (c 9 49)) (c 9 49) ∧ MemoryCanonical (capturing (c 9 49)) ∧
    (c 9 49).control.inFlight.find? (fun y => y.idx == taken.idx) = some taken ∧ (begun id).control.peak = none ∧
    after (exec .leader (capturing (c 9 49))) (fun t => t.port.mem = [(0x20, 3)] ∧ t.capture.map (·.control.endReason) = some .leader) ∧
    after (exec .leader (capturing (c 8 49))) (fun t => t.port.mem = [] ∧ t.capture.map (·.control.leaderRun) = some 9) ∧
    after (exec .leader (capturing (c 9 50))) (fun t => t.port.mem = [] ∧ t.capture.map (·.control.leaderRun) = some 0) := by decide +kernel

/-- A leader end at a block that was not final cuts the open dropouts; a CAPTURE_STOP that finds work left changes nothing. -/
theorem witness_LeaderRunEndsTheCapture_cut :
    let c := { begun fun k => { k with inFlight := [taken], peak := some (0, 49), leaderRun := 9 } with
      monitor := some { monitorWith (voidLane 3 3 false) with seq := 6 } }
    taken.final = none ∧
    after (exec .leader (capturing c)) (fun t => t.capture.bind (·.monitor) = some
      { monitorWith ⟨[0], none, none, none⟩ with
        seq := 7, finalIdx := some 0
        closed := [⟨6, 0, { dropout with kind := .weak, longest := 3 }, true, none, 0, none⟩] } ∧
      goesTo (exec .captureStop t) t) ∧
    goesTo (exec .captureStop (capturing c)) (capturing c) := by decide +kernel

theorem witness_BlockProcessedRaisesHighWater :
    let c := fun (x : Taken) => begun fun k => { k with inFlight := [x], reached := [(7, 0)] }
    Capturing (capturing (c done)) (c done) ∧ MemoryCanonical (capturing (c done)) ∧ (c done).control.peak = none ∧
    (c done).control.inFlight.find? (fun y => !y.processed) = some done ∧ done.block.record = some (driven 10 110) ∧
    done.done params = true ∧ taken.done params = false ∧
    after (exec .blockProcessed (capturing (c done))) (fun t => t.port.mem = [(0x2C, 1), (0x3C, 110), (0x40, 1), (0x44, 1)] ∧ t.orders.ends = [⟨7, .complete, .none, false⟩]) := by decide +kernel

/-- The counts of the block processed last stand at the end, and are kept where a group reports none (R169, R178). -/
theorem test_final_counts :
    let c := begun fun k => { k with inFlight := [done], counts := ⟨some (9, 9), some (8, 7)⟩ }
    let ending := begun fun k => { k with state := .stopping, endReason := .leader, counts := ⟨some (9, 6), some (8, 7)⟩ }
    after (exec .blockProcessed (capturing c)) (fun t => t.capture.map (·.control.counts) = some ⟨some (1, 1), some (8, 7)⟩) ∧
    after (exec .captureStop (capturing ending)) (fun t => [0x40, 0x44, 0x48, 0x4C].map (readMemWord t.port.mem) = [9, 6, 8, 7]) := by
  decide +kernel

theorem witness_CaptureStopReportsTheEnd :
    let c := begun fun k => { k with state := .stopping, endReason := .leader }
    Capturing (capturing c) c ∧ MemoryCanonical (capturing c) ∧ settled (capturing c) = capturing c ∧ c.writer.closeDue = none ∧
    c.idle = true ∧ (begun id).control.state ≠ .stopping ∧ settled (capturing (begun id)) = capturing (begun id) ∧
    after (exec .captureStop (capturing c)) (fun t => readMemWord t.port.mem 0x24 = 2 ∧ t.orders.ends = [⟨0, .complete, .none, false⟩]) := by decide +kernel

/-- What the end of a capture does, part by part: orders of the speed reference unit, spans, spill store, record lists. -/
theorem witness_CaptureStopReportsTheEnd_work :
    let ending := fun (f : Capture → Capture) => f (begun fun k => { k with state := .stopping, endReason := .leader })
    let stop := exec .captureStop
    let orders := ending fun c => { c with control := { c.control with
      pending := some ⟨7, 5, tuning⟩, sources := ⟨some ⟨8, .tach, 9, .waiting 2, false⟩, none⟩ } }
    let filling := ending fun c => withOut c fun o => { o with filling := some ⟨8, 2, false⟩ }
    let spilled := ending fun c => withOut c fun o => { o with queue := [.page [frame]] }
    let gathered := ending fun c => withWriter c fun w => { w with map := some mapRec }
    let held := ending fun c => withWriter c fun w => { w with holding := [repair] }
    orders.idle = true ∧ settled (capturing orders) = capturing orders ∧
    after (stop (capturing orders)) (fun t =>
      t.orders.ends = [⟨8, .captureEnded, .none, false⟩, ⟨7, .captureEnded, .none, false⟩, ⟨0, .complete, .none, false⟩]) ∧
    (filling.idle = true ∧ NothingOpen filling ∧ SpansQuiet filling .b) ∧
    after (stop (withWord (capturing filling) 0x3100 1)) (fun t => readMemWord t.port.mem 0x3100 = 2 ∧ (t.orders.slot 0).news = 2) ∧
    (spilled.idle = true ∧ NothingOpen spilled) ∧
    after (stop (withWord (capturing spilled) 0x3100 2)) (fun t => readMemWord t.port.mem 0x68 = 1 ∧ readMemWord t.port.mem 0x3100 = 2) ∧
    (gathered.idle = true ∧ NothingOpen { gathered with writer := { gathered.writer with map := none } }) ∧
    after (stop (capturing gathered)) (fun t => readMemWord t.port.mem 0x4004 = 1 ∧ (t.orders.slot 0).news = 0x20) ∧
    after (stop (withWord (capturing gathered) 0x4008 (-4))) (fun t => readMemWord t.port.mem 0x28 = 4 ∧ (t.orders.slot 0).news = 0) ∧
    (held.idle = true ∧ NothingOpen { held with writer := { held.writer with holding := [] } }) ∧
    after (stop (capturing held)) (fun t => readMemWord t.port.mem 0x5004 = 1 ∧ (t.orders.slot 0).news = 0x10) ∧
    after (stop (withWord (capturing held) 0x5008 (-4))) (fun t => readMemWord t.port.mem 0x64 = 1 ∧ (t.orders.slot 0).news = 0) := by
  refine ⟨?_, ?_, ?_, ⟨?_, nothingOpen_spec ?_, spansQuiet_spec ?_⟩, ?_, ⟨?_, nothingOpen_spec ?_⟩, ?_, ⟨?_, nothingOpen_spec ?_⟩, ?_, ?_,
    ⟨?_, nothingOpen_spec ?_⟩, ?_, ?_⟩ <;> decide +kernel

/-- The end work with LOST records open, more than one held record, and spilled frames that find room. -/
theorem witness_CaptureStopReportsTheEnd_together :
    let ending := fun (f : Capture → Capture) => f (begun fun k => { k with state := .stopping, endReason := .leader })
    let stop := exec .captureStop
    let lost : LostRec := ⟨9, 4, 2, 30⟩
    let several := ending fun c => withWriter c fun w => { w with
      holding := [repair, { repair with seq := 1 }], map := some mapRec
      groups := ⟨{ w.groups.a with lost := some lost, filling := some ⟨8, 2, false⟩ }, { w.groups.b with lost := some lost }⟩ }
    let several := { several with monitor := some { LaneMonitor.start params with seq := 2 } }
    let s := withWord (capturing several) 0x3100 1
    let drained := ending fun c => withOut c fun o => { o with
      spans := [⟨0x3100, 0, 0x10000, 8⟩, ⟨0x3120, 0, 0x11000, 8⟩], queue := [.page [frame, frame], .page [frame]] }
    let s2 := capturing drained
    (several.idle = true ∧ settled s = s ∧ MemoryCanonical s ∧ Outstanding s several.writer.repairList 0 ∧
      Outstanding (withWord s 0x5008 (-2)) several.writer.repairList 2 ∧ Outstanding s several.writer.mapList 0 ∧ Stored s 0x3100 1 ∧
      [((0x5000, 80) : Nat × Nat), (0x4000, 272), (0x3100, 32)].Pairwise Apart) ∧
    after (stop s) (fun t => (readMemWord t.port.mem 0x5004, readMemWord t.port.mem 0x60) = (4, 4) ∧
      (readMemWord t.port.mem 0x5030, readMemWord t.port.mem 0x5050, readMemWord t.port.mem 0x5070) = (1, 2, 3) ∧
      (readMemWord t.port.mem 0x5054, readMemWord t.port.mem 0x5074) = (0x1004, 0x1014) ∧ readMemWord t.port.mem 0x3100 = 2 ∧
      readMemWord t.port.mem 0x4004 = 1 ∧ (t.orders.slot 0).news = 0x32) ∧
    after (stop (withWord s 0x5008 (-2))) (fun t => (readMemWord t.port.mem 0x5004, readMemWord t.port.mem 0x64) = (2, 2)) ∧
    (drained.idle = true ∧ NothingOpen drained ∧ SpansQuiet drained .b ∧ Stored s2 0x3100 0 ∧ Stored s2 0x3120 0) ∧
    after (stop s2) (fun t => (readMemWord t.port.mem 0x3100, readMemWord t.port.mem 0x310C) = (2, 8) ∧
      (readMemWord t.port.mem 0x3120, readMemWord t.port.mem 0x312C) = (2, 4) ∧ readMemWord t.port.mem 0x68 = 0 ∧
      (t.orders.slot 0).news = 2) ∧
    after (stop (withWord s2 0x3120 2)) (fun t => (readMemWord t.port.mem 0x3100, readMemWord t.port.mem 0x68) = (2, 1)) := by
  refine ⟨?_, ?_, ?_, ⟨?_, nothingOpen_spec ?_, spansQuiet_spec ?_, ?_, ?_⟩, ?_, ?_⟩ <;> decide +kernel

/-! ## Lanes, skew, speed -/

theorem witness_LanesAreJudgedBlockByBlock :
    let c := begun fun k => { k with inFlight := [taken] }
    let w := fun (l : LaneState) => { begun id with monitor := some (monitorWith l) }
    Capturing (capturing c) c ∧ c.monitor = some (LaneMonitor.start params) ∧
    c.control.inFlight.find? (fun y => y.lanes.isNone) = some taken ∧
    findBlock (withHistory (capturing c) held).elements taken.block.num = some held ∧
    (∀ l, (getAt params.lanes l).active = (getAt (LaneMonitor.start params).lanes l).isSome) ∧
    getAt (monitorWith (voidLane 3 2 false)).lanes 0 = some (voidLane 3 2 false) ∧
    goesTo (exec (.weak 0) (capturing (w (voidLane 2 2 false)))) (capturing (w (voidLane 2 2 false))) ∧
    after (exec (.weak 0) (capturing (w (voidLane 3 2 false)))) (fun t => (t.capture.bind (·.monitor)).bind (fun m => (getAt m.lanes 0).bind (·.dropout)) =
          some { dropout with kind := .weak, longest := 3 }) ∧
    after (exec .judgeLanes (withHistory (capturing c) held)) (fun t => t.capture.bind (·.control.peak) = some (0, 0) ∧
      (t.capture.bind fun c => (c.control.inFlight.head?.bind (·.lanes)).bind fun js => (getAt js 0).map (·.full)) = some [0]) := by decide +kernel

/-- An open dropout closed by a quiet block's first segment, and one that a final block cuts: nothing matches before it ends. -/
theorem witness_LanesAreJudgedBlockByBlock_closings :
    let c := fun (x : Taken) => { begun fun k => { k with inFlight := [x] } with
      monitor := some { monitorWith (voidLane 2 3 false) with seq := 6 } }
    let closed := ({ dropout with kind := .bridged, longest := 2, bridged := 1 } : Dropout)
    let go := fun (x : Taken) => exec .judgeLanes (withHistory (capturing (c x)) held)
    after (go { taken with first := false }) (fun t => t.capture.bind (fun c => c.monitor.map fun m => (m.seq, m.closed)) =
      some (7, [⟨6, 0, closed, false, some 0, 0, none⟩])) ∧
    (((c taken).monitor.map fun m => { m with last := none }).map fun m => (m.lanes.toList.filterMap id).map LaneState.endNotice) =
      some [⟨[0], none, some { dropout with kind := .weak, longest := 2 }, none⟩] ∧
    after (go { taken with first := false, final := some .pause }) (fun t => t.capture.bind (fun c => c.monitor.bind (·.finalIdx)) =
      some 0) := by decide +kernel

/-- A segment of a lane of two elements, reference 800, presence limit 100. -/
def segment (a b : Nat) : SegmentInput :=
  { first := 4, watched := [0, 1], sp := 3, qf := 100, bl := 2, block := 5, position := 10, segment := 80, env := [a, b] }

def steady (d : Option Dropout) (r : Option VoidRun) : LaneState := ⟨[800, 640], none, d, r⟩

theorem witness_SegmentJudgement : (segment 100 100).watched ≠ [] ∧
    ((steady none none).judge (segment 100 100)).info.cls = .clean ∧
    ((steady none none).judge (segment 100 99)).info = ⟨.spare, [4], none⟩ ∧
    ((steady none none).judge (segment 99 99)).info.cls = .void false ∧
    ((steady (some dropout) (some ⟨2, 2, false⟩)).judge (segment 99 99)).info = ⟨.void true, [4, 5], some .weak⟩ ∧
    ((steady (some dropout) (some ⟨2, 2, false⟩)).judge (segment 100 100)).info.settles = some .bridged ∧
    ((steady none none).judge (segment 864 576)).state.smooth = [801, 639] ∧
    ((steady none none).judge (segment 863 577)).state.smooth = [800, 640] ∧
    ((steady none none).judge (segment 100 99)).state.dropout.map (fun d => (d.kind, d.absent, d.minPresent, d.voidRuns)) =
      some (.spare, 0x20, 1, 0) ∧
    ((steady none none).judge (segment 100 99)).state.pattern = some ⟨false, [0]⟩ ∧
    ((steady none none).judge (segment 100 100)).state.pattern = some ⟨true, [0, 1]⟩ ∧
    ((steady (some dropout) (some ⟨2, 2, false⟩)).judge (segment 100 99)).info = ⟨.spare, [4], some .bridged⟩ ∧
    ((steady (some dropout) (some ⟨2, 2, false⟩)).judge (segment 100 99)).state.dropout.map (fun d => (d.kind, d.longest, d.bridged)) =
      some (.bridged, 2, 1) ∧
    ((steady (some dropout) (some ⟨2, 2, false⟩)).judge (segment 99 99)).state.dropout.map (fun d => (d.kind, d.longest)) =
      some (.weak, 3) ∧
    ((steady (some dropout) (some ⟨1, 2, false⟩)).judge (segment 99 99)).info.settles = none ∧
    ((steady (some dropout) none).judge (segment 99 99)).state.run = some ⟨1, 2, false⟩ ∧
    ((steady (some dropout) (some ⟨3, 2, true⟩)).judge (segment 100 100)).info.settles = none := by decide +kernel

theorem witness_SkewsAreMeasuredWithinRange :
    let x := { taken with lanes := some judged }
    let c := begun fun k => { k with inFlight := [x] }
    Capturing (capturing c) c ∧ c.control.peak = none ∧ c.control.inFlight.find? (fun y => y.skew.isNone) = some x ∧
    skewInput (capturing c).elements x (anyTried (capturing c).elements.table c.params x.tuning judged) = .ok none ∧
    getAt c.skew 0 = some ⟨[0], 0⟩ ∧ (getAt judged 0).isSome = true ∧
    after (exec .measureSkew (capturing c)) (fun t => t.capture.bind (fun c => c.control.inFlight.head?.bind (·.skew)) = some skewed) ∧
    skewInput { ElementCapture.cold with history := [⟨1, [], []⟩, held] } x true =
      .ok (some ⟨{ ElementCapture.cold with history := [⟨1, [], []⟩, held] }, none, held, some ⟨1, [], []⟩⟩) := by decide +kernel

/-- A lane of three elements: seeded again against a changed anchor; a measurement that is rejected, and one that moves its skew. -/
theorem witness_SkewsAreMeasuredWithinRange_lane :
    let entry : LaneEntry := ⟨4, 3, .a, true⟩
    let table := Vector.ofFn fun (e : Fin 16) => ({ CalEntry.identity with skew := 700 * (e : Nat) } : CalEntry)
    let t : LaneTuning := ⟨7, 0, true⟩
    let block : HistBlock := ⟨0, List.replicate 4 [] ++ [[0, 0, 9, 0, 0], [0, 0, 0, 9, 0], [0, 0, 0, 0, 0]] ++ List.replicate 9 [], []⟩
    let i : SkewInput := ⟨ElementCapture.cold, none, block, none⟩
    let full : LaneJudgement := ⟨[], false, [4, 5, 6]⟩
    let k : LaneSkew := ⟨[0, 10, 20], 4⟩
    (⟨[0, 0, 0], 5⟩ : LaneSkew).reseed table entry t = ⟨[0, 700, 1400], 4⟩ ∧ k.reseed table entry t = k ∧
    triedElements table entry t full = [5, 6] ∧ triedElements table entry t { full with quiet := true } = [] ∧
    triedElements table entry t { full with full := [5, 6] } = [] ∧ triedElements table entry { t with measure := false } full = [] ∧
    i.measure 4 5 = some 64 ∧ i.measure 4 6 = none ∧
    k.work table entry t 1 full (some i) = (⟨[0, 37, 20], 4⟩, ⟨[0, 37, 20], true, 20⟩) := by decide +kernel

theorem witness_SkewMeasurementArithmetic : bestLag (fun j => if j = 24 ∨ j = -24 then 1 else 0) = -24 ∧ bestLag (fun _ => 5) = 0 ∧
    accepted (fun _ => 5) 23 10 10 = true ∧ accepted (fun _ => 5) 24 10 10 = false ∧ accepted (fun _ => 5) 0 10 11 = false ∧
    refine (fun _ => 5) 3 = 192 ∧ correlation [1, 2, 3] (edgeWindow none [4, 5, 6] none) 0 = 32 ∧
    correlation [1, 2, 3] (edgeWindow none [4, 5, 6] none) 1 = 35 ∧ correlation [1, 2, 3] (edgeWindow none [4, 5, 6] none) (-24) = 24 ∧
    measureSkew [0, 0, 9, 0, 0] [0, 0, 0, 0, 0] (edgeWindow none [0, 0, 0, 0, 0] none) = none ∧ moveSkew 1536 4000 0 = 1536 ∧ moveSkew 0 (-7) 1 = -3 := by decide +kernel

theorem witness_SpeedReportsStayInClampRange :
    let c := begun fun k => { k with inFlight := [taken] }
    Capturing (capturing c) c ∧ settled (capturing c) = capturing c ∧ c.speed = some (SpeedUnit.start params tuning 0) ∧
    c.control.inFlight.find? (fun y => y.speed.isNone) = some taken ∧
    speedInput (capturing c).elements (SpeedUnit.start params tuning 0) taken = .ok ⟨(capturing c).elements, none, none⟩ ∧
    (let x := fun (a : Option Source) => { begun fun k => { k with inFlight := [taken] } with
       speed := some { SpeedUnit.start params tuning 0 with groups := ⟨some { GroupSpeed.start speech with nextActive := a }, none⟩ } }
     after (exec .speedBlock (capturing (x (some .hum)))) (fun t => (t.orders.slot 0).news = 0x40) ∧
     after (exec .speedBlock (capturing (x none))) fun t => (t.orders.slot 0).news = 0) ∧
    c.control.sources = ⟨none, none⟩ ∧ clampRatio 3670015 = 3670016 ∧ clampRatio 4718593 = 4718592 ∧
    after (exec .speedBlock (capturing c)) (fun t => t.capture.bind (fun c => c.control.inFlight.head?.bind (·.speed)) = some ⟨some report, none⟩) := by decide +kernel

/-- What the trackers read: nothing while they are OFF, else the block and, inside a continuity, the one before it. -/
theorem test_speed_input :
    let before : HistBlock := ⟨0, [[1, 2, 3]], []⟩
    let block : HistBlock := ⟨1, [[4, -5]], []⟩
    let ec := { ElementCapture.cold with history := [block, before], table := Vector.replicate 16 ⟨8192, 0, 0, false⟩ }
    let start := SpeedUnit.start params tuning 0
    let u := { start with groups := ⟨some (GroupSpeed.start { speech with prefs := [.hum] }), none⟩ }
    let x := { taken with block := ⟨1, some (driven 10 110), []⟩ }
    let i : SpeedInput := ⟨ec, some before, some block⟩
    speedInput ec start x = .ok ⟨ec, none, none⟩ ∧ speedInput ec u x = .ok ⟨ec, none, some block⟩ ∧
    speedInput ec u { x with first := false } = .ok i ∧
    i.samples 0 = [2, -3] ∧ lastTwo i 0 = (some 1, some 2) ∧ lastTwo { i with before := none } 0 = (none, none) := by decide +kernel

/-- A LOCKED tracker without a crossing for three nominal periods, and for one sixteenth of a sample more. -/
theorem test_hum_timeout :
    let h := { Hum.fresh .locked 0 with periods := [7], lastCross := some 50, begun := 100, timePrev := 400 }
    h.checkTimeout 100 = h ∧ ({ h with timePrev := 401 }).checkTimeout 100 = { h with timePrev := 401, state := .acquiring, periods := [] } := by
  decide +kernel

/-- A block of a HUM tracker: sixty values, from a cleared filter at the first block of a continuity. -/
theorem test_hum_block :
    let h := { Hum.fresh .acquiring 0 with stages := [9, 9, 9, 9], xPrev := 9, yPrev := -9, hasPrev := true, lastCross := some 5 }
    (h.take speech true 61440 (List.replicate 3840 0)).timePrev = 61440 + 1024 * 59 ∧
    (h.take speech true 61440 (List.replicate 3840 0)).stages = [0, 0, 0, 0] ∧
    (h.take speech true 61440 (List.replicate 3840 0)).lastCross = none := by decide +kernel

/-- The trackers at the values where their clauses meet: the examples of R122, R125 and R126, and the limits beside them. -/
theorem witness_trackers :
    let good : BlockRecord := { driven 0 302 with nc := 305 }
    let seven : Tach := ⟨.acquiring, List.replicate 7 good, 0⟩
    let run : List Int := [124100, 124300, 124150, 124200, 124050, 124250, 124180]
    let hum := fun (st : TrackState) (l : List Int) (misses : Nat) => { Hum.fresh st 0 with periods := l, misses := misses }
    let full := run ++ [124130]
    let bias := fun (st : TrackState) (l : List Nat) (v : Nat) => { Bias.fresh st with run := l, value := v }
    (seven.take good).state = .locked ∧ (seven.take { good with slip := true }).state = .acquiring ∧
    (seven.take { good with nc := 0 }).state = .off ∧ (seven.take { good with stop := 0, net := 0 }).state = .acquiring ∧
    (seven.take good).value = 4235969 ∧
    (hum .acquiring run 0).acquire 122880 124130 = hum .locked full 0 ∧
    (hum .acquiring run 0).acquire 122880 141313 = hum .acquiring [] 0 ∧ (hum .acquiring [] 0).acquire 122880 141312 = hum .acquiring [141312] 0 ∧
    (hum .acquiring [] 0).acquire 122880 104448 = hum .acquiring [104448] 0 ∧
    (hum .locked full 0).ratio speech = 4238336 ∧ (hum .locked full 2).follow 124220 = hum .locked (full.drop 1 ++ [124220]) 0 ∧
    (hum .locked full 0).follow 130000 = hum .locked full 1 ∧ (hum .locked full 2).follow 130000 = hum .acquiring [] 0 ∧
    humCrossing 1024 (-1) 0 = 2048 ∧ humCrossing 1024 (-1) 1 = 1536 ∧
    biasCrossings 3 (some 5) (some 3) 10 [4] ⟨0, 0, 0⟩ = ⟨1, 154, 154⟩ ∧ biasCrossings 4 (some 5) (some 3) 10 [4] ⟨0, 0, 0⟩ = ⟨0, 0, 0⟩ ∧
    biasCrossings 0 none (some 3) 10 [4] ⟨0, 0, 0⟩ = ⟨0, 0, 0⟩ ∧
    biasValue ⟨3962, 0, 245800⟩ 100000 = 4236290 ∧ biasWindow [⟨0, 0, 0⟩, ⟨2, 5, 9⟩, ⟨0, 0, 0⟩] = ⟨2, 5, 9⟩ ∧
    ((bias .locked [] 4236290).give 4290000).state = .acquiring ∧ ((bias .locked [] 100).give 101).state = .locked ∧
    ((bias .locked [] 100).give 102).state = .acquiring ∧ ((bias .acquiring [1000, 1000, 1005] 0).give 1005).state = .locked ∧
    ((bias .acquiring [1000, 1000, 1006] 0).give 1005).state = .acquiring ∧
    (Hum.fresh .locked 0).retune params tuning tuning .a 9 = Hum.fresh .off 9 ∧
    ((Hum.fresh .locked 0).retune params { tuning with groups := ⟨{ speech with prefs := [.hum] }, speech⟩ }
      { tuning with groups := ⟨{ speech with prefs := [.hum], hum60 := true }, speech⟩ } .a 9).state = .acquiring := by decide +kernel

/-- The running capture with group A's speed state changed. -/
def speeding (f : GroupSpeed → GroupSpeed) : Capture :=
  let u := SpeedUnit.start params tuning 0
  { begun id with speed := some { u with groups := ⟨u.groups.a.map f, none⟩ } }

/-- The speed state of group A after a step. -/
def speedOf : Host.Outcome State Fault Refusal → Option GroupSpeed
  | .next t => (t.capture.bind (·.speed)).bind (·.groups.a)
  | _ => none

theorem witness_DueSpeedDecisions :
    let g := GroupSpeed.start speech
    let locked := fun (misses : Nat) (time : Int) => { g with hum := { g.hum with state := .locked, misses := misses, timePrev := time } }
    Capturing (capturing (speeding id)) (speeding id) ∧ g.due = none ∧
    (speedOf (exec (.holdoverExpiry .a) (capturing (speeding fun x => { x with due := some .expiry })))) = some g ∧
    (speedOf (exec (.sourceReturn .a) (capturing (speeding fun x => { x with due := some .sourceReturn })))) =
      some { g with nextState := .tracking } ∧
    (speedOf (exec (.humMissLimit .a) (capturing (speeding fun _ => locked 3 0)))).map (·.hum.state) = some .acquiring ∧
    (speedOf (exec (.humMissLimit .a) (capturing (speeding fun _ => locked 2 0)))).map (·.hum.state) = some .locked ∧
    (speedOf (exec (.humTimeout .a) (capturing (speeding fun _ => locked 0 368641)))).map (·.hum.state) = some .acquiring ∧
    (speedOf (exec (.humTimeout .a) (capturing (speeding fun _ => locked 0 368640)))).map (·.hum.state) = some .locked := by
  decide +kernel

/-- Whether a group decides so for the next block. -/
def decides (x : GroupSpeed) (t : Tach) (st : SpeedState) (a : Option Source) (d : Option DueDecision) (n : Nat) : Bool :=
  let y := x.decide t
  y.nextState = st ∧ y.nextActive = a ∧ y.due = d ∧ y.counter = n

/-- A group's states and decisions, each where its clause begins to hold (R130 to R135, R137). -/
theorem witness_groupSpeed :
    let g := { GroupSpeed.start { speech with prefs := [.tach, .hum] } with held := 4235969, active := some .hum, nextActive := some .hum }
    let acquiring : Tach := ⟨.acquiring, [], 0⟩
    let locked := fun (n : Nat) => (⟨.locked, [], n⟩ : Tach)
    let tracking := { g with state := .tracking, nextState := .tracking }
    let holding := fun (n : Nat) => { g with state := .holdover, counter := n }
    (tracking.settle acquiring speech).state = .holdover ∧ (tracking.settle acquiring speech).counter = 4 ∧
    ({ tracking with nextActive := some .tach }.settle (locked 1) speech).state = .tracking ∧
    (g.settle acquiring speech).state = .freeRun ∧ g.ratio acquiring speech = (4235969, false) ∧
    ({ tracking with active := some .tach }.ratio (locked 1) speech) = (4194304, false) ∧
    decides tracking (locked 15) .tracking (some .hum) none 0 ∧
    decides tracking (locked 16) .tracking (some .hum) (some .sourceReturn) 0 ∧
    decides { tracking with prefs := [.bias, .tach] } (locked 16) .tracking (some .hum) (some .sourceReturn) 0 ∧
    decides { tracking with prefs := [.bias, .tach] } (locked 15) .tracking (some .hum) none 0 ∧
    decides (holding 1) acquiring .holdover (some .hum) none 0 ∧ decides (holding 0) acquiring .holdover (some .hum) (some .expiry) 0 ∧
    decides { holding 1 with active := some .tach } (locked 1) .tracking (some .tach) none 1 ∧
    decides { g with active := none } (locked 1) .tracking (some .tach) none 0 ∧
    decides { g with active := none } acquiring .freeRun none none 0 ∧
    (tracking.retune params tuning tuning .a 0).nextState = .freeRun ∧
    ({ tracking with active := some .tach, nextActive := some .tach }.retune params tuning tuning .a 0).nextState = .tracking := by decide +kernel

/-- The running capture with a SOURCE order of slot 8 whose end is due. -/
def dueSource (phase : SourcePhase) : State := capturing (begun fun k => { k with sources := ⟨some ⟨8, .tach, 9, phase, true⟩, none⟩ })

theorem witness_SourceOrdersEnd : Working (dueSource (.waiting 9)) ∧ MemoryCanonical (dueSource (.waiting 9)) ∧
    after (exec (.notLocked .a) (dueSource (.waiting 9))) (fun t => t.port.mem = [(0x820, 9)] ∧ t.orders.ends = [⟨8, .notLocked, .none, false⟩]) ∧
    after (exec (.probationComplete .a) (dueSource (.probation 8 [.tach] none))) (fun t => t.port.mem = [(0x82C, 8)] ∧ t.orders.ends = [⟨8, .complete, .none, false⟩]) ∧
    goesTo (exec (.probationComplete .a) (dueSource (.waiting 9))) (dueSource (.waiting 9)) := by decide +kernel

/-- A warm reset drops an end that has come due: no count in the slot and no end reported, where the row before it leaves the
count (R141, R142; the model's choice, log 71). -/
theorem test_warm_reset_drops_due_source_end :
    after (exec (.warmReset false false) (dueSource (.waiting 9))) (fun t => t.port.mem = [(0x24, 4)] ∧ t.orders.ends = []) ∧
    after (exec (.notLocked .a) (dueSource (.waiting 9))) (fun t =>
      after (exec (.warmReset false false) t) fun u => readMemWord u.port.mem 0x820 = 9 ∧ u.orders.ends = []) := by decide +kernel

/-- A SOURCE order judged in SPEED_BLOCK: the switch, the wait and its timeout, the probation and its revert (R139, R140). -/
theorem witness_SourceOrdersEnd_judged :
    let u := SpeedUnit.start params tuning 305
    let run := fun (phase : SourcePhase) => (⟨8, .tach, 9, phase, false⟩ : SourceRun)
    let at7 := fun (st : TrackState) (phase : SourcePhase) (slot : SlotState) =>
      let good : BlockRecord := { driven 10 110 with nc := 305, slip := decide (st ≠ .locked) }
      let c := begun fun k => { k with
        inFlight := [{ taken with idx := 7, block := ⟨7, some good, []⟩ }], sources := ⟨some (run phase), none⟩ }
      withSlot (capturing { c with speed := some { u with tach := ⟨.acquiring, List.replicate 7 good, 0⟩ } }) 8 slot (some .source)
    let source := fun (t : State) => t.capture.bind (·.control.sources.a)
    let group := fun (t : State) => (t.capture.bind (·.speed)).bind (·.groups.a)
    settled (at7 .locked (.waiting 2) .taken) = at7 .locked (.waiting 2) .taken ∧ MemoryCanonical (at7 .locked (.waiting 2) .taken) ∧
    after (exec .speedBlock (at7 .locked (.waiting 2) .taken)) (fun t => t.port.mem = [(0x820, 2), (0x824, 8)] ∧
      source t = some (run (.probation 0 [.tach] none)) ∧ (t.orders.slot 8).state = .running ∧
      (group t).map (fun x => (x.nextState, x.nextActive, x.prefs)) = some (.tracking, some .tach, [.tach])) ∧
    after (exec .speedBlock (at7 .locked (.waiting 2) .stopping)) (fun t => t.port.mem = [] ∧ source t = none ∧
      t.orders.ends = [⟨8, .cancelled, .none, true⟩]) ∧
    after (exec .speedBlock (at7 .acquiring (.waiting 7) .taken)) (fun t => source t = some (run (.waiting 8))) ∧
    after (exec .speedBlock (at7 .acquiring (.waiting 8) .taken)) (fun t => source t = some { run (.waiting 9) with due := true }) ∧
    after (exec .speedBlock (at7 .locked (.probation 7 [.hum] none) .running)) (fun t =>
      source t = some { run (.probation 8 [.hum] none) with due := true }) ∧
    after (exec .speedBlock (at7 .acquiring (.probation 3 [.hum] none) .running)) (fun t => t.port.mem = [(0x82C, 4)] ∧
      source t = none ∧ t.orders.ends = [⟨8, .reverted, .none, false⟩] ∧ (group t).map (·.prefs) = some [.hum]) := by decide +kernel

/-! ## The resampler and the output writer -/

theorem witness_ResampleBlockPlacesSamples :
    let x := { taken with lanes := some judged, skew := some skewed, speed := some ⟨some report, none⟩ }
    let c := begun fun k => { k with inFlight := [x] }
    Capturing (capturing c) c ∧ c.control.peak = none ∧
    c.control.inFlight.find? (fun y => (y.resampled.get .a).isNone) = some x ∧ c.resamplers.get .a = some Resampler.start ∧
    x.lanes = some judged ∧ x.skew = some skewed ∧ x.speed = some ⟨some report, none⟩ ∧
    (let ec : ElementCapture := { ElementCapture.cold with history := [⟨1, [], []⟩, held] }
     skewInput { capturing c with elements := ec }.elements x true = .ok (some ⟨ec, none, held, some ⟨1, [], []⟩⟩)) ∧
    Resampler.start.next = Resampler.start.released + Resampler.start.buffer.length ∧
    3670016 ≤ report.q ∧ Resampler.start.lastQ = none ∧ 3840 * Resampler.start.blocks * 4194304 ≤ Resampler.start.pos := by decide +kernel

/-- The last block of a capture flushed: the resampler is gone, its counts are reported, a record is completed and handed over; a
block of a pause leaves it, until a cancel in PAUSED makes it the capture's last (R100, R143, R160; log 64). -/
theorem test_final_flush :
    let x := { taken with final := some .capture }
    let closed : ClosedDropout := ⟨3, 0, { dropout with opening := 2 }, true, none, 0, none⟩
    let c := fun (st : RunState) => { begun fun k => { k with state := st, inFlight := [x] } with
      monitor := some { LaneMonitor.start params with closed := [closed] } }
    let flushed := fun (c : Capture) => ((⟨(capturing c).hub, c⟩ : Cx).finishResample .a x
      ⟨{ Resampler.start with next := 9, released := 9 }, [frame], [(0, 0), (2, 4)]⟩).cap
    let paused := begun fun k => { k with state := .paused, inFlight := [done] }
    (flushed (c .stopping)).resamplers.a = none ∧ (flushed (c .running)).resamplers.a.isSome = true ∧
    (flushed (c .stopping)).control.inFlight.map (·.resampled.a) = [some (9, 9)] ∧
    (flushed (c .stopping)).writer.handed = [{ repair with seq := 3, cut := true, first := 4, voidRuns := 1 }] ∧
    (flushed (c .stopping)).monitor.map (·.closed) = some [] ∧ (flushed (c .stopping)).writer.groups.a.arriving = [frame] ∧
    after (exec (.cancel 0) (capturing paused)) (fun t => t.capture.map (·.resamplers) = some ⟨none, none⟩) ∧
    after (exec (.cancel 0) (capturing (begun fun k => { k with state := .paused, inFlight := [taken] }))) (fun t =>
      t.capture.bind (·.resamplers.a) = some Resampler.start) := by decide +kernel

/-- A first block needs its successor: with both held, the blocks its samples are read from are there. -/
theorem test_resample_reads_neighbour :
    let ec : ElementCapture := { ElementCapture.cold with history := [⟨1, [], []⟩, held] }
    skewInput ec taken true = .ok (some ⟨ec, none, held, some ⟨1, [], []⟩⟩) ∧
    skewInput { ec with history := [held] } taken true = .error (.blockNotHeld 1) := by decide +kernel

theorem test_sample_of_silence :
    let ec : ElementCapture := { ElementCapture.cold with history := [⟨1, [], []⟩, held] }
    let i : GroupInput :=
      { reads := ⟨ec, none, held, some ⟨1, [], []⟩⟩, lanes := [⟨0, ⟨0, 1, .a, true⟩, List.replicate 16 ⟨.clean, [0], none⟩, [0]⟩], idx := 0
        position := 10, q := Config.unity, last := Config.unity, step := 4, format := ⟨false, false⟩ }
    let x := Resampling.place i ⟨Resampler.start, [], []⟩ 0 0 true
    x.out = [⟨0, 0, 10, [0]⟩] ∧ x.unit.next = 1 ∧ x.unit.released = 1 ∧ x.unit.pos = 16777216 ∧ x.firsts = [(0, 0)] := by
  decide +kernel

/-- Taps at the edges of a continuity, a verdict of each kind with the first sample of a segment, a sample in a void segment. -/
theorem witness_verdicts :
    let block : HistBlock := ⟨0, [[7, 8]], []⟩
    let i : SkewInput := ⟨ElementCapture.cold, none, block, some ⟨1, [[9]], []⟩⟩
    let reads := { i with after := none }
    let lane := fun (c : SegClass) (v : Option Verdict) => (⟨0, ⟨0, 1, .a, true⟩, [⟨c, [0], v⟩], [0]⟩ : LaneInput)
    let group := fun (l : LaneInput) => (⟨reads, [l], 3, 10, Config.unity, Config.unity, 4, ⟨false, false⟩⟩ : GroupInput)
    let wait : BufFrame := ⟨5, 2, 10, [⟨0, 40, .weak, false⟩]⟩
    let x := fun (start : Option BridgeStart) => (⟨⟨0, none, 6, 5, 0, [wait], #v[start, none, none, none]⟩, [], []⟩ : Resampling)
    let frames := fun (y : Resampling) => y.out.map (·.words)
    i.tap 0 (-1) = 7 ∧ i.tap 0 1 = 8 ∧ i.tap 0 3840 = 9 ∧ { i with before := some ⟨1, [List.replicate 3839 0 ++ [5]], []⟩ }.tap 0 (-1) = 5 ∧
    reads.tap 0 3840 = 0 ∧ reads.read 0 0 0 = 7 ∧ reads.read 0 0 64 = 8 ∧
    frames ((x none).place (group (lane .clean (some .weak))) 0 0 true) = [[0x2803], [0x700]] ∧
    frames ((x (some ⟨4, 1⟩)).place (group (lane .clean (some .bridged))) 0 0 true) = [[0x402], [0x700]] ∧
    ((x none).place (group (lane (.void false) none)) 0 0 true).unit.buffer = [wait, ⟨6, 3, 10, [⟨0, 7, .weak, false⟩]⟩] ∧
    getAt ((x none).place (group (lane .clean none)) 0 0 true).unit.starts 0 = some ⟨6, 7⟩ ∧
    getAt ((x none).place (group (lane (.void true) none)) 0 0 true).unit.starts 0 = none := by decide +kernel

theorem witness_InterpolationBridgingAndFormats : sampleAndPhase (-1) = (0, 0) ∧ sampleAndPhase 4161535 = (0, 63) ∧
    sampleAndPhase 4161536 = (1, 0) ∧ segmentRatio 3670016 4718592 0 = 3735552 ∧ segmentRatio 3670016 4718592 15 = 4718592 ∧
    bridgeValue ⟨2, -100⟩ 100 4 3 = 0 ∧ (LaneVal.wide ⟨0, -8388608, .weak, true⟩) = 0x80000003 ∧
    (LaneVal.wide ⟨0, 8388607, .clean, true⟩) = 0x7FFFFF00 ∧
    frameWords ⟨true, false⟩ [⟨0, 8388607, .clean, true⟩, ⟨1, -128, .clean, true⟩] = [0xFFFF7FFF] ∧
    frameWords ⟨true, true⟩ [⟨0, 8388607, .clean, true⟩, ⟨1, -128, .clean, true⟩] = [0x7FFFFFFF] := by decide +kernel

theorem witness_PlaceFrameByRoom :
    let c := fun (f : GroupOut → GroupOut) => withOut (begun id) fun o => f { o with arriving := [frame] }
    let full := fun (o : GroupOut) => o
    let d : SpanDesc := ⟨0x3100, 0, 0x10000, 4096⟩
    Capturing (capturing (c full)) (c full) ∧ MemoryCanonical (capturing (c full)) ∧ (c full).writer.groups.a.span = d ∧
    Apart (d.addr, 32) (d.buffer, d.capacity) ∧ Stored (capturing (c full)) d.addr 0 ∧
    Stored (withWord (capturing (c full)) d.addr 2) d.addr 2 ∧ PageFree (c full).writer ∧
    ¬ PageFree (withOut (begun id) fun o => { o with queue := List.replicate 96 (.page []) }).writer ∧
    after (exec (.placeFrame .a) (capturing (c full))) (fun t => t.port.mem = [(0x3100, 1), (0x310C, 4), (0x3110, 7), (0x3114, 1), (0x3118, 10), (0x10001, 1)]) ∧
    after (exec (.placeFrame .a) (withWord (capturing (c full)) d.addr 2)) (fun t => t.port.mem = [(0x3100, 2)] ∧ (t.orders.slot 0).news = 0x100) ∧
    after (exec (.placeFrame .a) (capturing (c fun o => { o with filling := some ⟨4088, 1022, false⟩ }))) (fun t => t.capture.bind (·.writer.groups.a.filling) = some ⟨4092, 1023, false⟩) ∧
    after (exec (.placeFrame .a) (withWord (capturing (c fun o => { o with filling := some ⟨4092, 1023, false⟩ })) d.addr 1)) (fun t => readMemWord t.port.mem d.addr = 2 ∧ t.capture.map (·.writer.groups.a.cursor) = some 1) := by decide +kernel

/-- No page is free: group B holds them all. -/
def crowded : Capture :=
  let c := withOut (begun id) fun o => { o with arriving := [frame] }
  { c with writer := { c.writer with groups := { c.writer.groups with b := { c.writer.groups.b with
      queue := List.replicate 96 (.page [frame]) } } } }

theorem test_place_frame_lost : ¬ PageFree crowded.writer ∧
    after (exec (.placeFrame .a) (withWord (capturing crowded) 0x3100 2)) (fun t => t.port.mem = [(0x68, 1), (0x3100, 2)] ∧ (t.orders.slot 0).news = 0x200 ∧
        t.capture.bind (·.writer.groups.a.lost) = some ⟨7, 1, 0, 10⟩) := by decide +kernel

/-- Group A's part of the writer after a step. -/
def outOf : Host.Outcome State Fault Refusal → Option GroupOut
  | .next t => t.capture.map (·.writer.groups.a)
  | _ => none

/-- The other cases of R187 and R190: a frame behind the queue, a frame while a LOST record is open, an unreadable span word. -/
theorem witness_PlaceFrameByRoom_cases :
    let c := fun (f : GroupOut → GroupOut) => withOut (begun id) fun o => f { o with arriving := [frame] }
    let place := fun (c : Capture) (w : Word) => exec (.placeFrame .a) (withWord (capturing c) 0x3100 w)
    let page := fun (n : Nat) => SpillItem.page (List.replicate n frame)
    let lost : LostRec := ⟨5, 2, 0, 10⟩
    (frameSize params .a = 4 ∧ 4096 / frameSize params .a = 1024) ∧
    (outOf (place (c fun o => { o with queue := [page 1023] }) 2)).map (·.queue) = some [page 1024] ∧
    (outOf (place (c fun o => { o with queue := [page 1024] }) 2)).map (·.queue) = some [page 1024, page 1] ∧
    (outOf (place (c fun o => { o with queue := [.lossMark] }) 2)).map (·.queue) = some [.lossMark, page 1] ∧
    after (place (c fun o => { o with lost := some lost }) 0) (fun t => t.capture.map (·.writer.handed) = some [lostRepair 0 .a lost false] ∧
      t.capture.bind (·.writer.groups.a.filling) = some ⟨4, 1, true⟩ ∧ readMemWord t.port.mem 0x311C = 2) ∧
    (outOf (place (c fun o => { o with lost := some lost }) 2)).map (fun o => (o.queue, o.lost)) = some ([.lossMark, page 1], none) ∧
    (outOf (place (c fun o => { o with lost := some lost, queue := List.replicate 96 (page 1) }) 2)).map (fun o => (o.lost, o.samplesLost)) =
      some (some { lost with length := 3 }, 1) ∧
    after (exec (.placeFrame .a) (disturbed (capturing (c id)) 0x3100 .uncorrectable)) (fun t => t.port.uncorrected = true ∧
      (t.orders.slot 0).news = 0x900 ∧ t.capture.map (·.writer.groups.a.queue) = some [page 1]) := by decide +kernel

theorem witness_NoticesAndRepairRecords :
    let spilled := withOut (begun id) fun o => { o with queue := [.page [frame]] }
    let noticed := fun (c : Capture) (n : Notice) => withWord { capturing c with port := { ready.port with notices := [n] } } 0x3100 2
    let c := withWriter (begun id) fun w => { w with handed := [repair] }
    Working ready ∧ ready.port.notices = [] ∧ goesTo (exec .watchNotice ready) ready ∧
    Capturing (noticed spilled ⟨0x3100, [0]⟩) spilled ∧ (0 : SlotNo) ∈ (⟨0x3100, [0]⟩ : Notice).slots ∧
    spilled.writer.groups.a.filling = none ∧ spilled.writer.groups.a.span.addr = 0x3100 ∧ spilled.writer.groups.b.queue = [] ∧
    0x3100 ≠ spilled.writer.repairList.header + 8 ∧ 0x3100 ≠ spilled.writer.mapList.header + 8 ∧
    Stored (noticed spilled ⟨0x3100, [0]⟩) 0x3100 2 ∧ (∀ cap, ready.capture = some cap → cap.slot ∉ ([] : List SlotNo)) ∧
    Capturing (capturing c) c ∧ MemoryCanonical (capturing c) ∧ c.writer.holding = [] ∧
    Outstanding (capturing c) c.writer.repairList 0 ∧
    Outstanding (withWord (capturing c) 0x5008 (-4)) c.writer.repairList 4 ∧ c.writer.repairList.capacity = 4 ∧
    after (exec .placeRepair (capturing c)) (fun t => readMemWord t.port.mem 0x5004 = 1 ∧ readMemWord t.port.mem 0x60 = 1 ∧ readMemWord t.port.mem 0x501C = 5 ∧
        readMemWord t.port.mem 0x5014 = 0x10001 ∧ (t.orders.slot 0).news = 0x10) ∧
    after (exec .placeRepair (withWord (capturing c) 0x5008 (-4))) (fun t => t.capture.map (·.writer.holding) = some [repair] ∧ (t.orders.slot 0).news = 0x400) := by
  refine ⟨?_, ?_, ?_, ?_, ?_, ?_, ?_, ?_, ?_, ?_, ?_, (fun _ h => nomatch h), ?_, ?_, ?_, ?_, ?_, ?_, ?_, ?_⟩ <;> decide +kernel

/-- The words of a repair record at the ends of its fields' ranges, and a record told its indices. -/
theorem witness_NoticesAndRepairRecords_layout :
    let r : RepairRec := ⟨9, .weak, 3, 7, true, true, 0x8001, 5, 6, 7, 8, 65535, 65535, 65535⟩
    let d : ClosedDropout := ⟨2, 1, { dropout with opening := 3 }, false, some 5, 0, none⟩
    let m := { LaneMonitor.start params with closed := [d] }
    let told := [(2, 10), (3, 20), (5, 40)].foldl (LaneMonitor.note [1]) m
    r.words = [9, 0x80017733, 5, 6, 7, 8, 0xFFFFFFFF, 65535] ∧ repair.words = [0, 0x10001, 0, 5, 0, 10, 0, 0] ∧
    told.closed.map (fun d => (d.drop.firstOut, d.length)) = [(some 20, some 20)] ∧
    splitComplete (told.closed ++ [d, { d with length := some 1 }]) =
      ([{ repair with seq := 2, place := 1, first := 20, length := 20, voidRuns := 1 }], [d, { d with length := some 1 }]) ∧
    (m.noteEnd [1] 0 30).closed = [d] ∧
    (({ m with closed := [{ d with closing := none }] } : LaneMonitor).noteEnd [1] 0 30).closed.map (·.length) = [some 0] := by decide +kernel

/-- Whether group A's part of the writer is so after a step. -/
def leaves (r : Host.Outcome State Fault Refusal) (q : List SpillItem) (f : Option OpenSpan) (l : Bool) (n : Nat) : Bool :=
  (outOf r).any fun o => o.queue = q ∧ o.filling = f ∧ o.afterLoss = l ∧ o.cursor = n

/-- What WATCH_NOTICE does for a waiting group and for the two record lists, each case on a small capture of spans of eight bytes. -/
theorem witness_NoticesAndRepairRecords_drain :
    let small : List SpanDesc := [⟨0x3100, 0, 0x10000, 8⟩, ⟨0x3120, 0, 0x11000, 8⟩]
    let c := fun (q : List SpillItem) (l : Option LostRec) => withOut (begun id) fun o => { o with spans := small, queue := q, lost := l }
    let noticed := fun (c : Capture) (a : Nat) (l : List (Nat × Word)) =>
      withWords { capturing c with port := { ready.port with notices := [⟨a, [0]⟩], guard := [⟨0x3120, 0, .spanState, false⟩] } } l
    let go := fun (c : Capture) (l : List (Nat × Word)) => exec .watchNotice (noticed c 0x3100 l)
    let f := frame
    let held := fun (l : List RepairRec) => withWriter (begun id) fun w => { w with holding := l }
    let waiting := withWriter (begun id) fun w => { w with map := some mapRec, mapPending := true }
    leaves (go (c [.page [f]] none) []) [] (some ⟨4, 1, false⟩) false 0 ∧
    leaves (go (c [.page [f]] (some ⟨5, 2, 0, 10⟩)) []) [] none true 1 ∧
    leaves (go (c [.page [f, f]] none) []) [] none false 1 ∧
    leaves (go (c [.page [f, f, f]] none) [(0x3120, 2)]) [.page [f]] none false 1 ∧
    after (go (c [.page [f, f, f]] none) [(0x3120, 2)]) (fun t => t.port.guard = [⟨0x3120, 0, .spanState, true⟩] ∧
      (t.orders.slot 0).news = 2 ∧ readMemWord t.port.mem 0x3100 = 2 ∧ readMemWord t.port.mem 0x310C = 8) ∧
    leaves (go (c [.page [f, f, f]] none) []) [] (some ⟨4, 1, false⟩) false 1 ∧
    leaves (go (c [.lossMark, .page [f]] none) []) [] (some ⟨4, 1, true⟩) false 0 ∧
    leaves (go (c [.page [f], .lossMark, .page [f]] none) [(0x3120, 2)]) [.page [f]] none true 1 ∧
    (Outstanding (noticed (held [repair, repair]) 0x5008 [(0x5008, -3)]) (held []).writer.repairList 3 ∧
      (held []).writer.repairList.header = 0x5000 ∧ waiting.writer.mapList.header = 0x4000) ∧
    after (exec .watchNotice (noticed (held [repair, repair]) 0x5008 [(0x5008, -3)])) (fun t =>
      t.capture.map (·.writer.holding) = some [repair] ∧ readMemWord t.port.mem 0x5004 = 1 ∧ (t.orders.slot 0).news = 0x10) ∧
    after (exec .watchNotice (noticed (held [repair]) 0x5008 [])) (fun t => t.capture.map (·.writer.holding) = some []) ∧
    (Outstanding (noticed (held [repair, repair, repair]) 0x5008 [(0x5008, -2)]) (held []).writer.repairList 2 ∧
      (held []).writer.repairList.capacity = 4) ∧
    after (exec .watchNotice (noticed (held [repair, repair, repair]) 0x5008 [(0x5008, -2)])) (fun t =>
      t.capture.map (·.writer.holding) = some [repair] ∧ readMemWord t.port.mem 0x5004 = 2 ∧ readMemWord t.port.mem 0x60 = 2) ∧
    leaves (go (c [.page [f], .page [f]] none) []) [] none false 1 ∧
    leaves (go (c [.page [f, f], .page [f], .page [f]] none) [(0x3120, 2)]) [.page [f], .page [f]] none false 1 ∧
    goesTo (exec .watchNotice (noticed (held [repair]) 0x3200 [])) (let s := noticed (held [repair]) 0x3200 []
      { s with port := { s.port with notices := [] } }) ∧
    after (exec .watchNotice (noticed waiting 0x4008 [])) (fun t => t.capture.map (·.writer.mapPending) = some false ∧
      readMemWord t.port.mem 0x4004 = 1 ∧ (t.orders.slot 0).news = 0x20) ∧
    (let handed := withWriter (begun id) fun w => { w with handed := [repair] }
     Outstanding (withWord (capturing handed) 0x5008 1) handed.writer.repairList 0xFFFFFFFF ∧
     after (exec .placeRepair (withWord (capturing handed) 0x5008 1)) (fun t => readMemWord t.port.mem 0x28 = 2 ∧
       readMemWord t.port.mem 0x5004 = 1 ∧ (t.orders.slot 0).news = 0x410)) ∧
    after (exec .watchNotice (disturbed (noticed (held [repair]) 0x5008 []) 0x5008 .uncorrectable)) (fun t =>
      t.port.uncorrected = true ∧ (t.orders.slot 0).news = 0x800 ∧ t.capture.map (·.writer.holding) = some [repair]) ∧
    after (exec .watchNotice (disturbed (noticed waiting 0x4008 []) 0x4008 .uncorrectable)) (fun t =>
      t.port.uncorrected = true ∧ (t.orders.slot 0).news = 0x800 ∧ t.capture.map (·.writer.mapPending) = some true) := by
  decide +kernel

/-- A repair record handed over while others are held, or while the released count cannot be read. -/
theorem witness_NoticesAndRepairRecords_held :
    let c := fun (n : Nat) => withWriter (begun id) fun w => { w with handed := [repair], holding := List.replicate n repair }
    let s := fun (n : Nat) (released : Word) => withWord { capturing (c n) with port := { ready.port with
      guard := [⟨0x5008, 0, .released, false⟩] } } 0x5008 released
    let place := fun (s : State) (held : Nat) (news : BitVec 13) => after (exec .placeRepair s) fun t =>
      t.capture.map (fun c => (c.writer.holding, c.writer.handed)) = some (List.replicate held repair, []) ∧
      (t.orders.slot 0).news = news ∧ t.port.guard = [⟨0x5008, 0, .released, true⟩]
    Outstanding (s 1 (-4)) (c 1).writer.repairList 4 ∧ Outstanding (s 1 (-3)) (c 1).writer.repairList 3 ∧
    place (s 7 (-4)) 8 0x400 ∧ place (s 8 (-4)) 8 0x400 ∧ place (s 1 (-3)) 1 0x410 ∧
    place (disturbed (s 0 0) 0x5008 .uncorrectable) 1 0xC00 ∧
    after (exec .placeRepair (s 8 (-4))) (fun t => readMemWord t.port.mem 0x64 = 1) ∧
    place (s 3 (-2)) 2 0x410 ∧
    after (exec .placeRepair (s 2 0)) (fun t => t.capture.map (·.writer.holding) = some [] ∧ readMemWord t.port.mem 0x5004 = 3 ∧
      (t.orders.slot 0).news = 0x10) := by decide +kernel

theorem witness_SpeedMapRecords :
    let c := begun fun k => { k with inFlight := [done] }
    let closing := withWriter c fun w => { w with map := some mapRec, closeDue := some true }
    Capturing (capturing c) c ∧ c.control.peak = none ∧ c.writer.closeDue = none ∧ c.writer.mapPending = false ∧
    c.writer.holding = [] ∧ c.control.inFlight.find? (fun y => !y.folded) = some done ∧ c.writer.map = none ∧
    Capturing (capturing closing) closing ∧ MemoryCanonical (capturing closing) ∧ Outstanding (capturing closing) closing.writer.mapList 0 ∧
    Outstanding (withWord (capturing closing) 0x4008 (-4)) closing.writer.mapList 4 ∧
    after (exec .foldBlock (capturing c)) (fun t => t.capture.map (fun c => c.writer.map.map (·.blocks)) = some (some 1) ∧ t.capture.bind (·.writer.closeDue) = none) ∧
    after (exec .speedmapClose (capturing closing)) (fun t => readMemWord t.port.mem 0x4004 = 1 ∧ readMemWord t.port.mem 0x5C = 1 ∧ readMemWord t.port.mem 0x401C = 10 ∧
        (t.orders.slot 0).news = 0xA0) ∧
    after (exec .speedmapClose (withWord (capturing closing) 0x4008 (-4))) (fun t => t.capture.map (·.writer.mapPending) = some true ∧ (t.orders.slot 0).news = 0x480) := by decide +kernel

/-- What a fold gathers, and a fold into a pending record with and without room. -/
theorem witness_SpeedMapRecords_folds :
    let x := { done with
      lanes := some (#v[some ⟨[], true, []⟩, none, none, none]), skew := some (#v[some ⟨[], true, -3⟩, none, none, none])
      speed := some ⟨some ⟨4000000, some .hum, .holdover, true, true⟩, none⟩, clipped := [0], cues := [1, 2]
      block := ⟨0, some { driven 10 110 with slip := true }, []⟩ }
    let first := withWriter (begun fun k => { k with inFlight := [x] }) id
    let pending := withWriter first fun w => { w with map := some mapRec, mapPending := true }
    let m : MapRec := { mapRec with
      blocks := 1, groups := ⟨some ⟨4000000, 4000000, 4000000, some .hum, true, false, true, true⟩, none⟩
      lanes := #v[some ⟨-3, true, true, true⟩, none, none, none], cue := 1, cueMerged := true, slip := true }
    after (exec .foldBlock (capturing first)) (fun t => t.capture.bind (·.writer.map) = some m ∧
      t.capture.bind (·.writer.closeDue) = some true ∧ (t.orders.slot 0).news = 0) ∧
    Outstanding (withWord (capturing pending) 0x4008 (-4)) pending.writer.mapList 4 ∧
    after (exec .foldBlock (withWord (capturing pending) 0x4008 (-4))) (fun t => t.capture.bind (·.writer.map) = some m ∧
      (t.orders.slot 0).news = 0x80) ∧
    after (exec .foldBlock (capturing pending)) (fun t => t.capture.map (fun c => (c.writer.map, c.writer.mapPending)) = some (none, false) ∧
      readMemWord t.port.mem 0x4004 = 1 ∧ (t.orders.slot 0).news = 0xA0) := by decide +kernel

/-- At a pause the close waits until the excerpt has stored the final block; at a warm reset the record goes with it (R200, R202). -/
theorem witness_SpeedMapRecords_waits :
    let x := { done with final := some .pause, cues := [1] }
    let folding := capturing { excerpting 0 with control := (begun fun k => { k with state := .paused, inFlight := [x] }).control }
    let waits := fun (t : State) => t.capture.map (fun c => (c.writer.closeDue, c.writer.closeAfter)) = some (some true, some 0)
    let stored := fun (s : State) => { s with capture := s.capture.map fun c => { c with writer := { c.writer with excerpt := none } } }
    after (exec .foldBlock folding) (fun t => waits t ∧ goesTo (exec .speedmapClose t) t ∧ goesTo (exec .foldBlock t) t ∧
      after (exec .speedmapClose (stored t)) (fun u => (u.orders.slot 0).news = 0xA0 ∧
        u.capture.map (fun c => (c.writer.closeDue, c.writer.closeAfter)) = some (none, none)) ∧
      after (exec (.warmReset false false) (withWord t 0x3200 1)) (fun u => (u.orders.slot 0).news = 0xA8)) := by decide +kernel

/-- The words of a speed map record, held repair records at a fold, and a released count out of range. -/
theorem witness_SpeedMapRecords_layout :
    let m : MapRec := ⟨1, 2, 3, ⟨none, some ⟨5, 6, 7, some .bias, true, true, true, true⟩⟩,
      #v[none, none, none, some ⟨-4096, true, true, true⟩], 15, true, true, true, true⟩
    let fold := fun (n : Nat) => withWriter (begun fun k => { k with inFlight := [done] }) fun w => { w with
      holding := List.replicate n repair }
    let s := fun (n : Nat) (v : Word) => withWord { capturing (fold n) with port := { ready.port with
      guard := [⟨0x5008, 0, .released, false⟩] } } 0x5008 v
    let folded := fun (s : State) (n : Nat) (watch : Bool) (news : BitVec 13) => after (exec .foldBlock s) fun t =>
      t.capture.map (fun c => (c.writer.holding.length, c.writer.map.map (·.blocks))) = some (n, some 1) ∧
      t.port.guard = [⟨0x5008, 0, .released, watch⟩] ∧ (t.orders.slot 0).news = news
    let closing := withWriter (begun id) fun w => { w with map := some mapRec, closeDue := some false }
    let ahead := fun (c : Capture) => withWord (capturing c) 0x4008 1
    let pending := withWriter (begun fun k => { k with inFlight := [done] }) fun w => { w with map := some mapRec, mapPending := true }
    m.words 4 = [4, 1, 2, 3, 0x0F0F3F00, 0, 0, 0, 5, 6, 7, 0, 0, 0, 0, 0x71000] ∧
    Outstanding (s 2 (-4)) (fold 2).writer.repairList 4 ∧ Outstanding (s 2 (-3)) (fold 2).writer.repairList 3 ∧
    folded (s 2 (-4)) 2 true 0 ∧ folded (s 2 (-3)) 1 true 0x10 ∧ folded (s 1 0) 0 false 0x10 ∧
    Outstanding (ahead closing) closing.writer.mapList 0xFFFFFFFF ∧ closing.writer.mapList.capacity = 4 ∧
    after (exec .speedmapClose (ahead closing)) (fun t => readMemWord t.port.mem 0x28 = 1 ∧ readMemWord t.port.mem 0x4004 = 1 ∧
      (t.orders.slot 0).news = 0x420) ∧
    after (exec .foldBlock (ahead pending)) (fun t => readMemWord t.port.mem 0x28 = 1 ∧ readMemWord t.port.mem 0x5C = 1 ∧
      (t.orders.slot 0).news = 0x420) := by
  decide +kernel

theorem witness_StoreExcerptCopiesRawSamples : Capturing (capturing (excerpting 0)) (excerpting 0) ∧
    MemoryCanonical (capturing (excerpting 0)) ∧ (excerpting 0).control.peak = none ∧
    ((excerpting 0).monitor.map (·.judged 0)) = some true ∧ ((excerpting 1).monitor.map (·.judged 1)) = some false ∧
    findBlock (withHistory (capturing (excerpting 0)) ⟨0, silence, []⟩).elements 0 = some ⟨0, silence, []⟩ ∧
    wellFormedBlock silence = true ∧ 64 + 15360 * 3 ≤ 46144 ∧ (getAt params.lanes 0).first + (getAt params.lanes 0).count ≤ 16 ∧
    goesTo (exec .storeExcerpt (capturing (excerpting 1))) (capturing (excerpting 1)) :=
  ⟨by decide +kernel, by decide +kernel, by decide +kernel, by decide +kernel, by decide +kernel, rfl, silence_wellFormed, by decide,
    by decide +kernel, by decide +kernel⟩

/-- The closings of an excerpt and the answers to an opening (R197 to R200). -/
theorem witness_StoreExcerptCopiesRawSamples_closings :
    let e : Excerpt := ⟨0, ⟨0x3200, 1, 0x20000, 46144⟩, 0, 10, 0, 0, 0, 0, none, [3, 4, 5, 6, 7]⟩
    let capWith := fun (e : Option Excerpt) (m : LaneMonitor → LaneMonitor) =>
      let c := excerpting 0
      withWriter { c with monitor := c.monitor.map m } fun w => { w with excerpt := e }
    let store := fun (c : Capture) => exec .storeExcerpt (withHistory (withWord (capturing c) 0x3200 1) held)
    let closed := fun (r : Result) (first blocks fill cut : Word) => after r fun t =>
      readMemWord t.port.mem 0x3200 = 2 ∧ readMemWord t.port.mem 0x20000 = first ∧ readMemWord t.port.mem 0x20008 = blocks ∧
      readMemWord t.port.mem 0x320C = fill ∧ readMemWord t.port.mem 0x321C = cut ∧ (t.orders.slot 0).news = 8 ∧
      t.capture.bind (·.writer.excerpt) = none
    let cx := fun (c : Capture) (w : Word) => (⟨(withWord (capturing c) 0x3200 w).hub, c⟩ : Cx)
    let now : JudgedMark := ⟨5, 105, 70⟩
    let last : JudgedMark := ⟨4, 104, 60⟩
    closed (store (capWith (some { e with span := ⟨0x3200, 1, 0x20000, 64⟩ }) id)) 0x45010000 0 64 0 ∧
    closed (store (capWith (some e) fun m => { m with finalIdx := some 0 })) 0x46010000 1 15424 1 ∧
    closed (store (capWith (some { e with endIdx := some 0, seqs := [3] }) id)) 0x10010000 1 15424 0 ∧
    ((cx (begun id) 0).excerptAnswer 0 (some last) now).1 = false ∧
    (((cx (begun id) 0).excerptAnswer 0 (some last) now).2.cap.writer.excerpt.map fun e => (e.firstIdx, e.nextNum, e.position)) =
      some (4, 104, 60) ∧
    (((cx (begun id) 0).excerptAnswer 0 none now).2.cap.writer.excerpt.map (·.firstIdx)) = some 5 ∧
    ((cx (begun id) 2).excerptAnswer 0 none now).1 = true ∧ ((cx (begun id) 2).excerptAnswer 0 none now).2.cap.writer.skipped = 1 ∧
    ((cx (capWith (some { e with endIdx := some 9 }) id) 1).excerptAnswer 0 none now).2.cap.writer.excerpt = some e ∧
    ((cx (capWith (some e) id) 1).excerptAnswer 1 none now).1 = true ∧
    ((cx (capWith (some e) id) 1).excerptClosing 0 6 8).cap.writer.excerpt = some { e with endIdx := some 7, seqs := e.seqs ++ [8] } := by
  decide +kernel

end Sys2Proof.Tests
end

section
/-! PROOFS. Transfer memory (01): what every command keeps of the port, and what acts in COLD_INIT. -/

namespace Sys2Proof.TransferMemory

open Machine Safety Laws

/-! ## What every command but RESET_LOW keeps of the port -/

/-- A port after a command: memory stays canonical, a working phase stays one, and RESET does not go low. -/
structure PortKept (p q : Port) : Prop where
  wf : Memory.wf p.mem = true → Memory.wf q.mem = true
  working : p.phase ≠ .coldInit → q.phase ≠ .coldInit
  resetHigh : q.resetLow = true → p.resetLow = true

theorem PortKept.refl (p : Port) : PortKept p p := ⟨id, id, id⟩

theorem PortKept.trans {p q r : Port} (a : PortKept p q) (b : PortKept q r) : PortKept p r :=
  ⟨fun h => b.wf (a.wf h), fun h => b.working (a.working h), fun h => a.resetHigh (b.resetHigh h)⟩

/-- A port of which neither phase nor RESET level changes. -/
theorem PortKept.ofFrame {p q : Port} (wf : Memory.wf p.mem = true → Memory.wf q.mem = true) (phase : q.phase = p.phase)
    (resetLow : q.resetLow = p.resetLow) : PortKept p q :=
  ⟨wf, fun h => by rwa [phase], fun h => by rwa [resetLow] at h⟩

theorem portKept_store (p : Port) (a : Nat) (w : Word) : PortKept p (p.store a w) :=
  .ofFrame (fun h => portWf_store h a w) rfl rfl

theorem portKept_storeWords (p : Port) (a : Nat) (ws : List Word) : PortKept p (p.storeWords a ws) :=
  .ofFrame (fun h => portWf_storeWords h a ws) rfl rfl

theorem portKept_onlyRead {p q : Port} (h : OnlyRead p q) : PortKept p q :=
  .ofFrame (fun w => by rwa [h.mem]) (by rw [h.rest]) (by rw [h.rest])

theorem portKept_endWatches (p : Port) (a : Nat) : PortKept p (p.endWatches a) :=
  .ofFrame (fun h => portWf_endWatches h a) (by rw [endWatches_frame p a]) (by rw [endWatches_frame p a])

theorem portKept_ofHub {h k : Hub} (kept : HubKept h k) : PortKept h.port k.port :=
  .ofFrame kept.wf (by rw [kept.port]) (by rw [kept.port])

theorem portKept_ofCapture {s t : State} (h : CaptureKept s t) : PortKept s.port t.port := portKept_ofHub h.frame.2.1

/-- A function on the capture, where there is one, keeps of the port what it keeps of the capture's. -/
theorem portKept_onCapture {s : State} {f : Cx → Cx} (hf : ∀ c, CxKept c (f c)) : PortKept s.port (s.onCapture f).port := by
  unfold State.onCapture
  split
  · exact .refl _
  · rename_i cap _
    exact portKept_ofHub (hf ⟨s.hub, cap⟩).hub

/-- An engine's step leaves the state as it is, or is the unit's own work in a working phase. -/
theorem engineStep_next {s t : State} {f : State → Result} (h : engineStep s f = .next t) :
    t = s ∨ (s.port.phase ≠ .coldInit ∧ f s = .next t) := by
  unfold engineStep at h
  split at h
  · exact .inl (Host.Outcome.next.inj h).symm
  · rename_i hp; exact .inr ⟨hp, h⟩

/-! ## The host's reads and writes -/

theorem portKept_judgingRead (p : Port) (a : Nat) : PortKept p (p.judgingRead a).2 := by
  have h := portKept_onlyRead (onlyRead_checkedRead p a)
  unfold Port.judgingRead
  split <;> rename_i hq <;> rw [hq] at h <;> exact h

theorem portKept_guardedWrite (p : Port) (a : Nat) (v : Word) : PortKept p (p.guardedWrite a v) := by
  have h := portKept_judgingRead p a
  unfold Port.guardedWrite
  split
  · exact .refl p
  · dsimp only
    split
    · exact (h.trans (portKept_store _ a v)).trans (portKept_endWatches _ a)
    · exact h

theorem portKept_memoryWrite (p : Port) (a : Nat) (v : Word) : PortKept p (p.memoryWrite a v) := by
  unfold Port.memoryWrite
  split
  · exact portKept_guardedWrite p a v
  · exact (portKept_store p a v).trans (portKept_endWatches _ a)

theorem portKept_narrowWrite (p : Port) (a : Nat) (en : BitVec 4) (v : Word) : PortKept p (p.narrowWrite a en v) := by
  have h := portKept_onlyRead (onlyRead_checkedRead p a)
  unfold Port.narrowWrite
  split
  · exact .refl p
  · exact (h.trans (portKept_store _ a _)).trans (portKept_endWatches _ a)

theorem portKept_disturb (p : Port) (a : Nat) (d : Disturbance) : PortKept p (p.disturb a d) := by
  refine .ofFrame (fun h => portWf_disturb h a d) ?_ ?_ <;>
  · unfold Port.disturb
    split
    · split <;> rfl
    · rfl

theorem portKept_hostRead (p : Port) (a : Nat) : PortKept p (p.hostRead a).2 := by
  have h := portKept_onlyRead (onlyRead_checkedRead p a)
  unfold Port.hostRead
  split <;> rename_i hq <;> rw [hq] at h <;> exact h

theorem portKept_readTarget (s : State) (t : Target) : PortKept s.port (readTarget s t).2 := by
  unfold readTarget
  split
  · exact .refl _
  · cases t with
    | memory a => exact portKept_hostRead s.port a
    | _ => exact .refl _

/-! ## Finishing and cancelling an order -/

theorem portKept_conclude (h : Hub) (n : SlotNo) (out : OrderOutcome) (code : RefusalCode) (late : Bool) :
    PortKept h.port (h.conclude n out code late).port := by
  rw [(conclude_spec h n out code late).1]
  exact portKept_store _ _ _

theorem portKept_finish (h : Hub) (n : SlotNo) (out : OrderOutcome) (code : RefusalCode) (late : Bool) :
    PortKept h.port (h.finish n out code late).port :=
  (portKept_conclude h n out code late).trans (.ofFrame id rfl rfl)

theorem portKept_cancelLive (s : State) (n : SlotNo) : PortKept s.port (s.cancelLive n).port := by
  unfold State.cancelLive
  split
  · exact .refl _
  · exact portKept_onCapture (kept_cancelOwn n _)
  · unfold State.cancelCalibration
    split
    · exact .refl _
    · split <;> exact .refl _
  · exact portKept_onCapture fun c => kept_cancelRetune c _ n
  · exact portKept_onCapture fun c => kept_foldl (Cx.cancelSource n) (kept_cancelSource n) c groupList
  · unfold Hub.cancelTransport
    split
    · exact .refl _
    · split <;> exact .refl _

theorem portKept_cancelSlot (s : State) (n : SlotNo) : PortKept s.port (s.cancelSlot n).port := by
  have h : PortKept s.port (s.onCapture Cx.settleSpeed).port := portKept_onCapture kept_settleSpeed
  unfold State.cancelSlot
  dsimp only
  split
  · exact h.trans (portKept_finish { (s.onCapture Cx.settleSpeed).hub with orders := _ } n _ _ _)
  · exact h.trans (portKept_cancelLive { s.onCapture Cx.settleSpeed with
      orders := (s.onCapture Cx.settleSpeed).orders.setState n .stopping } n)

theorem portKept_writeSlotState (s : State) (n : SlotNo) (v : Word) : PortKept s.port (s.writeSlotState n v).port := by
  have h := portKept_cancelSlot s n
  unfold State.writeSlotState
  split
  · exact .refl _
  · split
    · split <;> exact .refl _
    · split <;> exact .refl _
    · split
      · exact h
      · exact .refl _
    · split
      · exact h
      · exact .refl _
    · exact .refl _
    · split <;> exact .refl _

/-! ## CONTROL and the warm reset -/

theorem portKept_beginWarmReset (s : State) : PortKept s.port s.beginWarmReset.port := by
  have h : PortKept s.port { s.port with phase := .warmReset, lastWarm := true } := ⟨id, fun _ => by simp, id⟩
  unfold State.beginWarmReset
  dsimp only
  refine (h.trans (portKept_onCapture (s := { s with port := _ }) kept_resetCapture)).trans ?_
  exact .ofFrame id rfl rfl

theorem portKept_writeControl (s : State) (v : Word) : PortKept s.port (s.writeControl v).port := by
  have h : PortKept s.port (if bit v 2 then ({ s.port with attnEn := bit v 0 } : Port).clearErrors
      else { s.port with attnEn := bit v 0 }) := by
    split <;> exact .ofFrame id rfl rfl
  unfold State.writeControl
  dsimp only
  split
  · exact h.trans (portKept_beginWarmReset { s with port := _ })
  · exact h

theorem portKept_hostWriteWord (addr : Addr) (v : Word) (s : State) : PortKept s.port (hostWriteWord addr v s).port := by
  unfold hostWriteWord
  split
  · exact .refl _
  · cases targetOf addr with
    | slotState n => exact portKept_writeSlotState s n v
    | memory a => exact portKept_memoryWrite s.port a v
    | control => exact portKept_writeControl s v
    | news n => exact .refl _
    | summary => exact .refl _
    | ident => exact .refl _
    | status => exact .refl _
    | unassigned => exact .refl _

theorem portKept_hostWriteBytes (addr : Addr) (en : BitVec 4) (v : Word) (s : State) :
    PortKept s.port (hostWriteBytes addr en v s).port := by
  unfold hostWriteBytes
  split
  · exact portKept_hostWriteWord addr v s
  · split
    · exact .refl _
    · cases targetOf addr with
      | memory a => exact portKept_narrowWrite s.port a en v
      | _ => exact .refl _

/-! ## The order unit -/

theorem portKept_resetSlots (h : Hub) (l : List SlotNo) : PortKept h.port (l.foldl Hub.resetSlot h).port := by
  induction l generalizing h with
  | nil => exact .refl _
  | cons n l ih =>
    refine PortKept.trans ?_ (ih _)
    unfold Hub.resetSlot
    split
    · exact portKept_conclude _ _ _ _ _
    · exact .refl _

theorem portKept_takeOrder {s t : State} (h : execTakeOrder s = .next t) : PortKept s.port t.port := by
  unfold execTakeOrder at h
  split at h
  · cases h; exact .refl _
  · split at h
    · cases h
      refine PortKept.trans ?_ (portKept_onlyRead (onlyRead_copyOrder _ _))
      exact (portKept_store _ _ _).trans (portKept_storeWords _ _ _)
    · cases h; exact .refl _

theorem portKept_acceptOrder (s : State) (n : SlotNo) (c : Checked) : PortKept s.port (acceptOrder s n c).port := by
  cases c with
  | capture o => exact .ofFrame id rfl rfl
  | calibrate o => exact .refl _
  | retune t =>
    exact portKept_onCapture (s := { s with orders := { (s.orders.setLive n .retune) with taking := none } })
      fun c => kept_acceptRetune c s.elements.table n t
  | source g target k =>
    exact portKept_onCapture (s := { s with orders := { (s.orders.setLive n .source) with taking := none } })
      fun c => kept_acceptSource c n g target k
  | transport o =>
    unfold acceptOrder Hub.acceptTransport
    dsimp only
    split <;> exact portKept_store _ _ _

theorem portKept_validateSlot (s : State) (n : SlotNo) (k : CopyResult) : PortKept s.port (validateSlot s n k).port := by
  have finishes : ∀ out code late, PortKept s.port (s.hub.finish n out code late).port :=
    fun out code late => portKept_finish s.hub n out code late
  unfold validateSlot
  split
  · exact finishes _ _ _
  · split
    · exact finishes _ _ _
    · split
      · exact finishes _ _ _
      · exact portKept_acceptOrder s n _

theorem portKept_validate {s t : State} (h : execValidate s = .next t) : PortKept s.port t.port := by
  unfold execValidate at h
  split at h
  · cases h; exact .refl _
  · dsimp only at h
    split at h
    · cases h; exact (portKept_onCapture kept_settleSpeed).trans (portKept_validateSlot _ _ _)
    · cases h; exact .refl _

theorem portKept_prepareLists (p : Port) (o : CaptureOrder) : PortKept p (p.prepareLists o) :=
  (((portKept_store _ _ _).trans (portKept_store _ _ _)).trans (portKept_store _ _ _)).trans (portKept_store _ _ _)

theorem portKept_startStreamOrder {s t : State} (h : execStartStreamOrder s = .next t) : PortKept s.port t.port := by
  unfold execStartStreamOrder at h
  split at h
  · cases h; exact .refl _
  · split at h
    · split at h
      · split at h
        · cases h; exact portKept_prepareLists _ _
        · cases h; exact .refl _
      · cases h; exact .refl _
    · cases h; exact .refl _

theorem portKept_finishReport (h : Hub) (r : EndReport) : PortKept h.port (h.finishReport r).port := by
  unfold Hub.finishReport
  split
  · exact portKept_finish _ _ _ _ _
  · exact portKept_finish _ _ _ _ _
  · exact portKept_finish _ _ _ _ _
  · exact .refl _
  · exact .refl _
  · exact .refl _

theorem portKept_finishOrder {s t : State} (h : execFinishOrder s = .next t) : PortKept s.port t.port := by
  rcases engineStep_next h with rfl | ⟨-, h⟩
  · exact .refl _
  · split at h
    · cases h; exact .refl _
    · rename_i r rest _
      cases h
      exact portKept_finishReport ⟨s.port, { s.orders with ends := rest }⟩ r

/-! ## The transport counter unit and the block boundary -/

theorem instant_port (k : Deck) (v : BitVec 10) (free : Nat) : (k.instant v free).1.hub.port = k.hub.port :=
  (instant_kept k v free).1

theorem pass_port (k : Deck) (dt free fuel : Nat) : (k.pass dt free fuel).1.hub.port = k.hub.port :=
  (pass_kept k dt free fuel).1

theorem portKept_boundary (k : Deck) (num : Word) : PortKept k.hub.port (k.boundary num).2.hub.port := by
  unfold Deck.boundary
  dsimp only
  refine PortKept.trans ?_ (portKept_storeWords _ _ _)
  have completes : ∀ r, PortKept k.hub.port (k.hub.completeTransport r).port := fun r => by
    unfold Hub.completeTransport
    split
    · exact (portKept_store _ _ _).trans (portKept_store _ _ _)
    · exact .refl _
  unfold Deck.bindTransport
  dsimp only
  split
  · exact completes _
  · split <;> exact completes _

theorem portKept_blockBoundary {samples : List (List Sample)} {s t : State} (h : execBlockBoundary samples s = .next t) :
    PortKept s.port t.port := by
  rcases engineStep_next h with rfl | ⟨-, h⟩
  · exact .refl _
  · split at h
    · cases h
    · cases h
      change PortKept s.port (Deck.instant _ _ _).1.hub.port
      rw [instant_port]
      have k := portKept_boundary (s.deck.pass (Config.blockTime - s.transport.clock) s.freeCount 10).1 (s.elements.block + 1)
      rwa [pass_port] at k

theorem portKept_inputChange {periods : Nat} {levels : BitVec 10} {s t : State} (h : execInputChange periods levels s = .next t) :
    PortKept s.port t.port := by
  unfold execInputChange at h
  split at h
  · cases h; exact .refl _
  · have kept : PortKept s.port (s.deck.pass (1000 * periods) s.freeCount 10).1.hub.port := by
      rw [pass_port]; exact .refl _
    generalize s.deck.pass (1000 * periods) s.freeCount 10 = passed at h kept
    cases h
    rw [State.setDeck_port, instant_port]
    exact kept

theorem portKept_debounceExpiry {s t : State} (h : execDebounceExpiry s = .next t) : PortKept s.port t.port := by
  rcases engineStep_next h with rfl | ⟨-, h⟩
  · exact .refl _
  · split at h
    · cases h; exact .refl _
    · cases h
      rw [State.setDeck_port, instant_port]
      exact .refl _

/-! ## CALIBRATE, judging, notices -/

theorem portKept_calibrateBlock {s t : State} (h : execCalibrateBlock s = .next t) : PortKept s.port t.port := by
  rcases engineStep_next h with rfl | ⟨-, h⟩
  · exact .refl _
  · split at h
    · split at h
      · cases h
      · cases h; exact .refl _
      · cases h
        dsimp only
        split
        · exact ((portKept_store _ _ _).trans (portKept_store _ _ _)).trans (portKept_store _ _ _)
        · exact portKept_store _ _ _
    · cases h; exact .refl _

theorem portKept_windowComplete {s t : State} (h : execWindowComplete s = .next t) : PortKept s.port t.port := by
  rcases engineStep_next h with rfl | ⟨-, h⟩
  · exact .refl _
  · split at h
    · cases h; exact .refl _
    · split at h
      · cases h; exact .refl _
      · split at h
        · cases h
        · cases h; exact (portKept_storeWords _ _ _).trans (portKept_storeWords _ _ _)

theorem portKept_judgeBlock {s t : State} (h : execJudgeBlock s = .next t) : PortKept s.port t.port := by
  rcases engineStep_next h with rfl | ⟨-, h⟩
  · exact .refl _
  · split at h
    · rename_i cap b rest _ _
      cases h
      exact portKept_ofHub ((kept_judge ⟨s.hub, cap⟩ s.elements b).trans (kept_writePosition _ b)).hub
    · cases h; exact .refl _

theorem portKept_watchNotice {s t : State} (h : execWatchNotice s = .next t) : PortKept s.port t.port := by
  rcases engineStep_next h with rfl | ⟨-, h⟩
  · exact .refl _
  · split at h
    · cases h; exact .refl _
    · rename_i n rest _
      have taken : PortKept s.port { s.port with notices := rest } := .ofFrame id rfl rfl
      dsimp only at h
      split at h
      · cases h; exact taken
      · rename_i cap _
        cases h
        exact taken.trans (portKept_ofHub (kept_notice ⟨⟨{ s.port with notices := rest }, s.orders⟩, cap⟩ n).hub)

/-! ## Every command -/

/-- No command but RESET_LOW takes RESET low or the part back into COLD_INIT, and each keeps memory canonical. -/
theorem exec_portKept {c : Instr} {s t : State} (hc : c ≠ .resetLow) (h : exec c s = .next t) : PortKept s.port t.port := by
  cases c with
  | resetLow => exact absurd rfl hc
  | resetRelease => cases h; exact ⟨id, id, fun h => by simp at h⟩
  | clearingDone =>
    replace h : execClearingDone s = .next t := h
    unfold execClearingDone at h
    split at h
    · cases h; exact ⟨fun _ => rfl, fun _ => by simp, id⟩
    · cases h; exact .refl _
  | hostRead addr en =>
    replace h : execHostRead addr en s = .next t := h
    have kept := portKept_readTarget s (targetOf addr)
    unfold execHostRead at h
    generalize readTarget s (targetOf addr) = found at h kept
    cases h
    exact kept.trans (.ofFrame id rfl rfl)
  | hostWrite addr v => exact Host.Outcome.next.inj h ▸ portKept_hostWriteWord _ _ s
  | hostNarrowWrite addr en v => exact Host.Outcome.next.inj h ▸ portKept_hostWriteBytes _ _ _ s
  | post n => exact Host.Outcome.next.inj h ▸ portKept_hostWriteWord _ _ s
  | withdraw n => exact Host.Outcome.next.inj h ▸ portKept_hostWriteWord _ _ s
  | cancel n => exact Host.Outcome.next.inj h ▸ portKept_hostWriteWord _ _ s
  | release n => exact Host.Outcome.next.inj h ▸ portKept_hostWriteWord _ _ s
  | handBackSpan addr => exact Host.Outcome.next.inj h ▸ portKept_hostWriteWord _ _ s
  | clearNews n ones => exact Host.Outcome.next.inj h ▸ portKept_hostWriteWord _ _ s
  | clearSummary ones => exact Host.Outcome.next.inj h ▸ portKept_hostWriteWord _ _ s
  | attnEn e => exact Host.Outcome.next.inj h ▸ portKept_hostWriteWord _ _ s
  | warmReset e c => exact Host.Outcome.next.inj h ▸ portKept_hostWriteWord _ _ s
  | clearMemerr e r => exact Host.Outcome.next.inj h ▸ portKept_hostWriteWord _ _ s
  | discardedWrite addr en v => exact Host.Outcome.next.inj h ▸ portKept_hostWriteBytes _ _ _ s
  | orderReset =>
    replace h : execOrderReset s = .next t := h
    have kept := portKept_resetSlots s.hub slotNos
    unfold execOrderReset at h
    generalize slotNos.foldl Hub.resetSlot s.hub = reset at h kept
    split at h
    · cases h; exact kept
    · cases h; exact .refl _
  | warmResetEnd =>
    replace h : execWarmResetEnd s = .next t := h
    unfold execWarmResetEnd at h
    split at h
    · cases h; exact ⟨id, fun _ => by simp, id⟩
    · cases h; exact .refl _
  | takeOrder => exact portKept_takeOrder h
  | validate => exact portKept_validate h
  | startStreamOrder => exact portKept_startStreamOrder h
  | finishOrder => exact portKept_finishOrder h
  | inputChange periods levels => exact portKept_inputChange h
  | debounceExpiry => exact portKept_debounceExpiry h
  | blockBoundary samples => exact portKept_blockBoundary h
  | motionStopped =>
    replace h : execMotionStopped s = .next t := h
    rcases engineStep_next h with rfl | ⟨-, h⟩
    · exact .refl _
    · cases h; exact .refl _
  | judgeBlock => exact portKept_judgeBlock h
  | takeBlock => exact portKept_ofCapture (execTakeBlock_kept h)
  | leader => exact portKept_ofCapture (execLeader_kept h)
  | blockProcessed => exact portKept_ofCapture (execBlockProcessed_kept h)
  | captureStop => exact portKept_ofCapture (execCaptureStop_kept h)
  | calibrateBlock => exact portKept_calibrateBlock h
  | offsetsFixed =>
    replace h : execOffsetsFixed s = .next t := h
    rcases engineStep_next h with rfl | ⟨-, h⟩
    · exact .refl _
    · cases h; exact .refl _
  | windowComplete => exact portKept_windowComplete h
  | judgeLanes => exact portKept_ofCapture (execJudgeLanes_kept h)
  | weak lane => exact portKept_ofCapture (execWeak_kept h)
  | measureSkew => exact portKept_ofCapture (execMeasureSkew_kept h)
  | speedBlock => exact portKept_ofCapture (execSpeedBlock_kept h)
  | holdoverExpiry g => exact portKept_ofCapture (execHoldoverExpiry_kept h)
  | humTimeout g => exact portKept_ofCapture (execHumTimeout_kept h)
  | humMissLimit g => exact portKept_ofCapture (execHumMissLimit_kept h)
  | notLocked g => exact portKept_ofCapture (execNotLocked_kept h)
  | probationComplete g => exact portKept_ofCapture (execProbationComplete_kept h)
  | sourceReturn g => exact portKept_ofCapture (execSourceReturn_kept h)
  | resampleBlock g => exact portKept_ofCapture (execResampleBlock_kept h)
  | placeFrame g => exact portKept_ofCapture (execPlaceFrame_kept h)
  | watchNotice => exact portKept_watchNotice h
  | foldBlock => exact portKept_ofCapture (execFoldBlock_kept h)
  | speedmapClose => exact portKept_ofCapture (execSpeedmapClose_kept h)
  | placeRepair => exact portKept_ofCapture (execPlaceRepair_kept h)
  | storeExcerpt => exact portKept_ofCapture (execStoreExcerpt_kept h)
  | memoryWordDisturbed addr d =>
    replace h : execMemoryWordDisturbed addr d s = .next t := h
    unfold execMemoryWordDisturbed at h
    split at h
    · cases h; exact portKept_disturb _ _ _
    all_goals cases h; exact .refl _

/-- A step is idle or one command on the state with the queue's rest. -/
theorem step_cases {s t : State} (h : step s = .next t) :
    t = s ∨ ∃ c rest, s.pending = c :: rest ∧ exec c { s with pending := rest } = .next t := by
  unfold step at h
  split at h
  · exact .inl (Host.Outcome.next.inj h).symm
  · rename_i c rest hq; exact .inr ⟨c, rest, hq, h⟩

/-- Settles O4: every command but RESET_LOW keeps `PortKept`, and RESET_LOW leaves the memory cells. -/
theorem stepKeepsMemoryCanonical : Obligations.StepKeepsMemoryCanonical := by
  intro s t hs h
  rcases step_cases h with rfl | ⟨c, rest, -, h⟩
  · exact hs
  · by_cases hc : c = .resetLow
    · subst hc; cases h; exact hs
    · exact (exec_portKept hc h).wf hs

end Sys2Proof.TransferMemory
end

section
/-! PROOFS. COLD_INIT (R19): which commands act in it, and that it stays at the cold-start values. -/

namespace Sys2Proof.TransferMemory

open Machine Safety Laws

/-! ## Commands in COLD_INIT -/

/-- The commands that act in COLD_INIT: the RESET pin and the clearing, reads, input levels, disturbances (log 33). -/
def actsInCold : Instr → Bool
  | .resetLow | .resetRelease | .clearingDone | .hostRead _ _ | .inputChange _ _ | .memoryWordDisturbed _ _ => true
  | _ => false

theorem hostWriteWord_cold {s : State} (h : s.port.phase = .coldInit) (addr : Addr) (v : Word) : hostWriteWord addr v s = s := by
  simp only [hostWriteWord, if_pos h]

theorem hostWriteBytes_cold {s : State} (h : s.port.phase = .coldInit) (addr : Addr) (en : BitVec 4) (v : Word) :
    hostWriteBytes addr en v s = s := by
  simp only [hostWriteBytes, hostWriteWord_cold h, if_pos h, ite_self]

/-- A command that does not act in COLD_INIT leaves the state as it is there. -/
theorem exec_cold {c : Instr} {s : State} (h : s.port.phase = .coldInit) (hc : actsInCold c = false) : exec c s = .next s := by
  have word : ∀ addr v, Host.Outcome.next (hostWriteWord addr v s) = (.next s : Result) := fun addr v => by
    rw [hostWriteWord_cold h]
  have bytes : ∀ addr en v, Host.Outcome.next (hostWriteBytes addr en v s) = (.next s : Result) := fun addr en v => by
    rw [hostWriteBytes_cold h]
  cases c with
  | resetLow => cases hc
  | resetRelease => cases hc
  | clearingDone => cases hc
  | hostRead addr en => cases hc
  | inputChange periods levels => cases hc
  | memoryWordDisturbed addr d => cases hc
  | hostWrite addr v => exact word _ _
  | hostNarrowWrite addr en v => exact bytes _ _ _
  | discardedWrite addr en v => exact bytes _ _ _
  | post n => exact word _ _
  | withdraw n => exact word _ _
  | cancel n => exact word _ _
  | release n => exact word _ _
  | handBackSpan addr => exact word _ _
  | clearNews n ones => exact word _ _
  | clearSummary ones => exact word _ _
  | attnEn e => exact word _ _
  | warmReset e c => exact word _ _
  | clearMemerr e r => exact word _ _
  | orderReset => show execOrderReset s = _; simp [execOrderReset, h]
  | warmResetEnd => show execWarmResetEnd s = _; simp [execWarmResetEnd, h]
  | takeOrder => show execTakeOrder s = _; unfold execTakeOrder; split <;> simp [h]
  | validate => show execValidate s = _; unfold execValidate; split <;> simp [h]
  | startStreamOrder => show execStartStreamOrder s = _; unfold execStartStreamOrder; split <;> simp [h]
  | _ => exact if_pos h

/-! ## The transport inputs at cold start -/

theorem keepRaw_keepRaw (t : Transport) : t.keepRaw.keepRaw = t.keepRaw := rfl

/-- In COLD_INIT only the raw levels change (R61). -/
theorem holdRaw_keepRaw (t : Transport) (v : BitVec 10) : t.keepRaw.holdRaw v = (t.keepRaw.holdRaw v).keepRaw := rfl

/-! ## The invariant -/

theorem coldQuiet_resetLow (s : State) :
    ∃ t, exec .resetLow s = .next t ∧ ColdQuiet t := ⟨_, rfl, fun _ => rfl, fun _ => ⟨rfl, rfl, rfl, rfl, rfl, rfl, rfl⟩⟩

/-- A command outside COLD_INIT, RESET_LOW apart, leaves a working phase with RESET high. -/
theorem coldQuiet_of_working {c : Instr} {s t : State} (hc : c ≠ .resetLow) (hs : ColdQuiet s) (hp : s.port.phase ≠ .coldInit)
    (h : exec c s = .next t) : ColdQuiet t := by
  have kept := exec_portKept hc h
  exact ⟨fun r => absurd (hs.1 (kept.resetHigh r)) hp, fun e => absurd e (kept.working hp)⟩

/-- A command that acts in COLD_INIT keeps the part quiet, or CLEARING_DONE takes it to READY. -/
theorem coldQuiet_of_cold {c : Instr} {s t : State} (hs : ColdQuiet s) (hp : s.port.phase = .coldInit)
    (hc : actsInCold c = true) (h : exec c s = .next t) : ColdQuiet t := by
  obtain ⟨hport, horders, htransport, helements, hreports, hcapture, hcalibration⟩ := hs.2 hp
  cases c with
  | resetLow =>
    obtain ⟨u, hu, quiet⟩ := coldQuiet_resetLow s
    cases hu.symm.trans h
    exact quiet
  | resetRelease =>
    cases h
    exact ⟨fun _ => hp, fun _ => ⟨by rw [hport], horders, htransport, helements, hreports, hcapture, hcalibration⟩⟩
  | clearingDone =>
    replace h : execClearingDone s = .next t := h
    unfold execClearingDone at h
    split at h
    · rename_i hd
      cases h
      exact ⟨fun r => by simp [hd.2] at r, fun e => by simp at e⟩
    · cases h; exact hs
  | hostRead addr en =>
    replace h : execHostRead addr en s = .next t := h
    have found : (readTarget s (targetOf addr)).2 = s.port := by simp only [readTarget, if_pos hp]
    unfold execHostRead at h
    generalize readTarget s (targetOf addr) = read at h found
    obtain ⟨w, p⟩ := read
    subst found
    cases h
    exact ⟨fun _ => hp, fun _ => ⟨by rw [hport], horders, htransport, helements, hreports, hcapture, hcalibration⟩⟩
  | inputChange periods levels =>
    replace h : execInputChange periods levels s = .next t := h
    unfold execInputChange at h
    rw [if_pos hp] at h
    cases h
    refine ⟨hs.1, fun _ => ⟨hport, horders, ?_, helements, hreports, hcapture, hcalibration⟩⟩
    change s.transport.holdRaw levels = (s.transport.holdRaw levels).keepRaw
    rw [htransport]
    exact holdRaw_keepRaw _ _
  | memoryWordDisturbed addr d =>
    replace h : execMemoryWordDisturbed addr d s = .next t := h
    unfold execMemoryWordDisturbed at h
    split at h
    · rename_i a _
      cases h
      have frame : s.port.disturb a d = { s.port with mem := (s.port.disturb a d).mem, ecc := (s.port.disturb a d).ecc } := by
        unfold Port.disturb
        split
        · split <;> rfl
        · rfl
      refine ⟨fun _ => by rw [frame]; exact hp, fun _ =>
        ⟨?_, horders, htransport, helements, hreports, hcapture, hcalibration⟩⟩
      change s.port.disturb a d = _
      rw [frame, hport]
    all_goals cases h; exact hs
  | _ => cases hc

/-- Settles O6: in COLD_INIT only `actsInCold` commands act, and outside it only RESET_LOW leads back there. -/
theorem stepKeepsColdStartQuiet : Obligations.StepKeepsColdStartQuiet := by
  intro s t hs h
  rcases step_cases h with rfl | ⟨c, rest, -, h⟩
  · exact hs
  replace hs : ColdQuiet { s with pending := rest } := hs
  by_cases hc : c = .resetLow
  · subst hc
    obtain ⟨u, hu, quiet⟩ := coldQuiet_resetLow { s with pending := rest }
    cases hu.symm.trans h
    exact quiet
  · by_cases hp : s.port.phase = .coldInit
    · by_cases ha : actsInCold c = true
      · exact coldQuiet_of_cold hs hp ha h
      · cases (exec_cold (s := { s with pending := rest }) hp (by simpa using ha)).symm.trans h
        exact hs
    · exact coldQuiet_of_working hc hs hp h

end Sys2Proof.TransferMemory
end

section
/-! PROOFS. The memory port (01, R4 to R19): cold start, host reads, discarded writes, host writes to memory. -/

namespace Sys2Proof.TransferMemory

open Machine Safety Laws

/-! ## Reset and cold start (R19) -/

/-- Settles O3: every value is read off the state after reset. -/
theorem resetLeavesColdStartValues : Obligations.ResetLeavesColdStartValues := by
  have slot : ∀ n, State.reset.orders.slot n = SlotRec.cold := by decide
  have entry : ∀ e : Fin 16, getAt State.reset.elements.table e = ⟨16384, 0, 0, false⟩ := by decide
  have quiet : ColdQuiet State.reset := ⟨fun _ => rfl, fun _ => ⟨rfl, rfl, rfl, rfl, rfl, rfl, rfl⟩⟩
  have posting : PostingExact State.reset := ⟨List.nodup_nil, fun n => by rw [slot n]; simp [State.reset, OrderUnit.cold, SlotRec.cold]⟩
  have within : WithinCapacities State.reset := by
    refine ⟨?_, ?_, ?_, fun cap h => ?_⟩
    · exact Nat.zero_le _
    · exact Nat.zero_le _
    · exact Nat.zero_le _
    · cases h
  refine ⟨⟨rfl, rfl, rfl, rfl, rfl, rfl, rfl, rfl, rfl, ?_, rfl, rfl, rfl, rfl, rfl, rfl, rfl, rfl, rfl, rfl, rfl, rfl, rfl, rfl,
    rfl, rfl, rfl, rfl, entry, rfl, rfl, rfl⟩, rfl, posting, quiet, within⟩
  intro n
  rw [slot n]
  exact ⟨rfl, rfl, rfl⟩

/-- Settles O8: RESET_LOW and RESET_RELEASE by their effect, CLEARING_DONE by its condition. -/
theorem coldStartClearsMemory : Obligations.ColdStartClearsMemory := by
  refine ⟨fun s => rfl, fun s => rfl, fun s hp hr => ?_, fun s h => ?_⟩
  · refine ⟨_, if_pos ⟨hp, hr⟩, rfl, fun a => rfl, fun a => rfl, rfl, rfl, rfl, rfl, rfl, rfl, rfl, rfl, rfl, rfl, rfl, rfl, rfl⟩
  · refine if_neg fun ⟨hp, hr⟩ => ?_
    rcases h with h | h
    · exact h hp
    · simp [hr] at h

/-! ## Which word an address reaches -/

/-- Only the word address matters: the two low bits are ignored (R4). -/
theorem targetOf_congr {a b : Addr} (h : wordAddress a = wordAddress b) : targetOf a = targetOf b := by
  simp only [targetOf, h]

theorem targetOf_memory_iff {addr : Addr} {a : Nat} :
    targetOf addr = .memory a ↔ isOrdinary addr = true ∧ a = wordAddress addr :=
  ⟨isOrdinary_of_target, fun ⟨h, e⟩ => e ▸ targetOf_ordinary h⟩

/-! ## Checked reads -/

/-- A correction raises STATUS.CORRECTED to 255 at most, an uncorrectable word sets UNCORRECTED (R9). -/
theorem checkedRead_counts (p : Port) (a : Nat) :
    (p.checkedRead a).2.corrected =
      (if eccAt p.ecc a = some .single ∧ p.corrected ≠ 255 then p.corrected + 1 else p.corrected) ∧
    (p.checkedRead a).2.uncorrected = (p.uncorrected || decide (eccAt p.ecc a = some .uncorrectable)) := by
  cases h : eccAt p.ecc a with
  | none => rw [checkedRead_clean h]; simp
  | some k =>
    cases k with
    | single =>
      rw [checkedRead_single h]
      by_cases hc : p.corrected = 255 <;> simp [inc8, hc]
    | uncorrectable => rw [checkedRead_uncorrectable h]; simp

/-- A checked read touches the check bits of its own word only, and leaves none on a word it can read. -/
theorem checkedRead_ecc (p : Port) (a : Nat) :
    (∀ b, b ≠ a → eccAt (p.checkedRead a).2.ecc b = eccAt p.ecc b) ∧
    eccAt (p.checkedRead a).2.ecc a = if eccAt p.ecc a = some .uncorrectable then some .uncorrectable else none := by
  cases h : eccAt p.ecc a with
  | none => rw [checkedRead_clean h]; exact ⟨fun _ _ => rfl, by simpa using h⟩
  | some k =>
    cases k with
    | single => rw [checkedRead_single h]; exact ⟨fun b hb => eccAt_clearEcc_of_ne _ hb, by simp⟩
    | uncorrectable => rw [checkedRead_uncorrectable h]; exact ⟨fun _ _ => rfl, by simpa using h⟩

/-- What a checked read gives: the word as it is held, but for an uncorrectable one (R7, R8). -/
theorem checkedRead_fst (p : Port) (a : Nat) :
    (p.checkedRead a).1 = if eccAt p.ecc a = some .uncorrectable then none else some (readMemWord p.mem a) := by
  cases h : eccAt p.ecc a with
  | none => rw [checkedRead_clean h]; simp
  | some k =>
    cases k with
    | single => rw [checkedRead_single h]; simp
    | uncorrectable => rw [checkedRead_uncorrectable h]; simp

/-! ## Host reads (R4, R7) -/

theorem byteOf_zero (i : Nat) : byteOf 0 i = 0 := by
  simp [byteOf]

theorem readTarget_cold {s : State} (h : s.port.phase = .coldInit) (t : Target) : readTarget s t = (coldWord s t, s.port) := by
  simp only [readTarget, if_pos h]

/-- Outside COLD_INIT a read of a word that is not memory finds the held word and leaves the port (R2, R16 to R18). -/
theorem readTarget_held {s : State} (h : Working s) {t : Target} {w : Word} (ht : heldWord s t = some w) :
    readTarget s t = (w, s.port) := by
  cases t with
  | memory a => cases ht
  | _ => simp only [readTarget, if_neg h, ht, Option.getD_some]

/-- A host read of a memory word returns it as held, raw where it is uncorrectable, and checks it (R7). -/
theorem readTarget_memory {s : State} (h : Working s) (a : Nat) :
    readTarget s (.memory a) = (readMemWord s.port.mem a, (s.port.checkedRead a).2) := by
  have first := checkedRead_fst s.port a
  simp only [readTarget, if_neg h, Port.hostRead]
  split
  · rename_i p1 hq; rw [hq]
  · rename_i w p1 hq
    rw [hq] at first ⊢
    split at first <;> simp_all

theorem exec_hostRead {s : State} {addr : Addr} {w : Word} {p : Port} (h : readTarget s (targetOf addr) = (w, p))
    (enables : BitVec 4) :
    exec (.hostRead addr enables) s = .next { s with port := { p with readData := selectBytes enables w } } := by
  show execHostRead addr enables s = _
  simp only [execHostRead, h]

/-- Settles O9: a host read is a checked read, whose three outcomes are the lemmas above. -/
theorem hostReadChecksMemoryWord : Obligations.HostReadChecksMemoryWord := by
  refine ⟨fun enables w i hi => ?_, fun s addr enables a hw ht => ?_⟩
  · rw [selectBytes, byteOf_mergeWord enables 0 w hi, byteOf_zero]
  · have found := readTarget_memory hw a
    have frame := checkedRead_frame s.port a
    obtain ⟨keptEcc, ownEcc⟩ := checkedRead_ecc s.port a
    obtain ⟨corrected, uncorrected⟩ := checkedRead_counts s.port a
    rw [← ht] at found
    refine ⟨_, exec_hostRead found enables, rfl, fun x => ?_, fun x hx => ?_, ?_, fun h => ?_, fun h => ?_, fun h => ?_⟩
    · exact congrArg (readByte · x) (checkedRead_mem s.port a)
    · exact keptEcc x (by simpa using hx)
    · dsimp only at frame ⊢
      rw [frame]
    · exact ⟨ownEcc.trans (by simp [h]), corrected.trans (by simp [h]), uncorrected.trans (by simp [h])⟩
    · refine ⟨ownEcc.trans (by simp [h]), uncorrected.trans (by simp [h]), corrected.trans ?_⟩
      by_cases hc : s.port.corrected = 255
      · rw [if_neg fun x => x.2 hc, if_pos hc, hc]
      · rw [if_pos ⟨h, hc⟩, if_neg hc]
    · exact ⟨ownEcc.trans (by simp [h]), corrected.trans (by simp [h]), uncorrected.trans (by simp [h])⟩

/-- Settles O10: outside COLD_INIT by the held word of each target, in it by the word served there. -/
theorem hostReadFindsHeldWords : Obligations.HostReadFindsHeldWords := by
  refine ⟨fun s addr enables hw => ?_, fun s addr enables hp => ?_⟩
  · have held : ∀ t w, targetOf addr = t → heldWord s t = some w →
        exec (.hostRead addr enables) s = .next { s with port := { s.port with readData := selectBytes enables w } } :=
      fun t w ht h => exec_hostRead (ht ▸ readTarget_held hw h) enables
    refine ⟨fun n ht => held _ _ ht rfl, fun n ht => held _ _ ht rfl, fun ht => held _ _ ht rfl, fun ht => held _ _ ht rfl,
      fun ht => held _ _ ht ?_, fun ht => held _ _ ht rfl⟩
    cases h : s.port.attnEn <;> simp [heldWord, controlRead, h, flagBit, word]
  · refine (exec_hostRead (readTarget_cold hp _) enables).trans ?_
    cases targetOf addr <;> simp [coldWord, Config.ident]

/-- Settles O12: IDENT is served in every phase, and its address takes no write. -/
theorem identIsReadOnly : Obligations.IdentIsReadOnly := by
  intro s addr h
  have ht := targetOf_ident h
  refine ⟨?_, fun enables v => ?_⟩
  · have found : readTarget s (targetOf addr) = (Config.ident, s.port) := by
      rw [ht]
      by_cases hp : s.port.phase = .coldInit
      · exact readTarget_cold hp _
      · exact readTarget_held hp rfl
    have served := exec_hostRead found 0xF#4
    rwa [selectBytes_all] at served
  · show Host.Outcome.next (hostWriteBytes addr enables v s) = _
    simp only [hostWriteBytes, hostWriteWord, ht, ite_self]

/-! ## STATUS and ATTN (R15, R17) -/

theorem field_word {n : Nat} (h : n < 4294967296) (lo k : Nat) : field (word n) lo k = n / 2 ^ lo % 2 ^ k := by
  simp only [field, word, BitVec.toNat_ofNat]
  rw [Nat.mod_eq_of_lt (a := n) h]

theorem bit_word {n : Nat} (h : n < 4294967296) (i : Nat) : bit (word n) i = decide (n / 2 ^ i % 2 = 1) := by
  simp only [bit, word, BitVec.getLsbD, BitVec.toNat_ofNat]
  rw [Nat.mod_eq_of_lt (a := n) h, Nat.testBit_eq_decide_div_mod_eq]

theorem flagBit_le (b : Bool) : flagBit b ≤ 1 := by cases b <;> decide

theorem flagBit_eq_one (b : Bool) : decide (flagBit b = 1) = b := by cases b <;> rfl

theorem phaseCode_le (p : Phase) : phaseCode p ≤ 2 := by cases p <;> decide

/-- The fields of STATUS (R17; 11, "Registers"). -/
theorem statusWord_fields (p : Port) (o : OrderUnit) :
    field (statusWord p o) 0 4 = phaseCode p.phase ∧ bit (statusWord p o) 4 = p.lastWarm ∧
    bit (statusWord p o) 8 = p.uncorrected ∧ bit (statusWord p o) 9 = attnLevel p o ∧
    field (statusWord p o) 16 8 = p.corrected.toNat := by
  have hp := phaseCode_le p.phase
  have hw := flagBit_le p.lastWarm
  have hu := flagBit_le p.uncorrected
  have ha := flagBit_le (attnLevel p o)
  have hc : p.corrected.toNat < 256 := p.corrected.isLt
  have small : phaseCode p.phase + 16 * flagBit p.lastWarm + 256 * flagBit p.uncorrected + 512 * flagBit (attnLevel p o)
      + 65536 * p.corrected.toNat < 4294967296 := by omega
  unfold statusWord
  simp only [field_word small, bit_word small]
  rw [← flagBit_eq_one p.lastWarm, ← flagBit_eq_one p.uncorrected, ← flagBit_eq_one (attnLevel p o)]
  simp only [flagBit_eq_one]
  refine ⟨by omega, ?_, ?_, ?_, by omega⟩
  · rw [show _ / 2 ^ 4 % 2 = flagBit p.lastWarm by omega, flagBit_eq_one]
  · rw [show _ / 2 ^ 8 % 2 = flagBit p.uncorrected by omega, flagBit_eq_one]
  · rw [show _ / 2 ^ 9 % 2 = flagBit (attnLevel p o) by omega, flagBit_eq_one]

/-- Settles O11: the ATTN level is a conjunction, bit 9 of STATUS shows it, and at cold start ATTN_EN is clear. -/
theorem attnFollowsSummaryAndEnable : Obligations.AttnFollowsSummaryAndEnable := by
  refine ⟨⟨fun s => ?_, fun s addr h => ?_, fun s hq hp => ?_⟩, statusWord_fields⟩
  · simp [attnLevel, and_comm]
  · have found : readTarget s (targetOf addr) = (statusWord s.port s.orders, s.port) := by
      rw [targetOf_status h]
      by_cases hp : s.port.phase = .coldInit
      · exact readTarget_cold hp _
      · exact readTarget_held hp rfl
    refine ⟨_, exec_hostRead found 0xF#4, ?_, rfl⟩
    obtain ⟨-, -, -, shown, -⟩ := statusWord_fields s.port s.orders
    dsimp only
    rw [selectBytes_all]
    exact shown
  · obtain ⟨hport, -⟩ := hq.2 hp
    rw [hport]
    rfl

end Sys2Proof.TransferMemory
end

section
/-! PROOFS. Host writes (01, R3 to R14) and disturbances (R6). -/

namespace Sys2Proof.TransferMemory

open Machine Safety Laws

/-! ## Where a host write goes (R4) -/

theorem hostWriteWord_congr {a b : Addr} (h : targetOf a = targetOf b) (v : Word) (s : State) :
    hostWriteWord a v s = hostWriteWord b v s := by
  simp only [hostWriteWord, h]

theorem hostWriteWord_memory {s : State} (hw : Working s) {addr : Addr} {a : Nat} (ht : targetOf addr = .memory a) (v : Word) :
    hostWriteWord addr v s = { s with port := s.port.memoryWrite a v } := by
  simp only [hostWriteWord, if_neg hw, ht]

theorem hostWriteBytes_memory {s : State} (hw : Working s) {addr : Addr} {a : Nat} (ht : targetOf addr = .memory a)
    {enables : BitVec 4} (he : enables ≠ 0xF#4) (v : Word) :
    hostWriteBytes addr enables v s = { s with port := s.port.narrowWrite a enables v } := by
  simp only [hostWriteBytes, if_neg he, if_neg hw, ht]

/-- A read-only register and an unassigned address take no write (R4). -/
theorem hostWriteBytes_readOnly {addr : Addr} (ht : targetOf addr = .ident ∨ targetOf addr = .status ∨ targetOf addr = .unassigned)
    (enables : BitVec 4) (v : Word) (s : State) : hostWriteBytes addr enables v s = s := by
  rcases ht with ht | ht | ht <;> simp only [hostWriteBytes, hostWriteWord, ht, ite_self]

/-- A narrower write reaches only memory that is not guarded (R4). -/
theorem hostWriteBytes_narrow {addr : Addr} {enables : BitVec 4} {s : State} (he : enables ≠ 0xF#4)
    (hg : ∀ a, targetOf addr = .memory a → s.port.isGuarded a = true) (v : Word) : hostWriteBytes addr enables v s = s := by
  simp only [hostWriteBytes, if_neg he]
  split
  · rfl
  · split
    · rename_i a ht
      simp only [Port.narrowWrite, hg a ht, if_true]
    all_goals rfl

/-! ## Guarded words (R10) -/

/-- The value a guarded write is judged against, and the port after the judging read (R10; log 16). -/
theorem judgingRead_eq (p : Port) (a : Nat) :
    p.judgingRead a =
      (if eccAt p.ecc a = some .uncorrectable then spanFull else readMemWord p.mem a, (p.checkedRead a).2) := by
  have first := checkedRead_fst p a
  unfold Port.judgingRead
  split
  · rename_i p1 hq
    rw [hq] at first ⊢
    split at first <;> simp_all
  · rename_i w p1 hq
    rw [hq] at first ⊢
    split at first <;> simp_all

theorem memoryWrite_guarded_warm {p : Port} {a : Nat} (hg : p.isGuarded a = true) (hp : p.phase = .warmReset) (v : Word) :
    p.memoryWrite a v = p := by
  simp only [Port.memoryWrite, hg, if_true, Port.guardedWrite, if_pos hp]

theorem memoryWrite_guarded {p : Port} {a : Nat} (hg : p.isGuarded a = true) (hp : p.phase ≠ .warmReset) (v : Word) :
    p.memoryWrite a v =
      if (eccAt p.ecc a = some .uncorrectable ∨ readMemWord p.mem a = spanFull) ∧ v = spanEmpty
      then ((p.checkedRead a).2.store a v).endWatches a else (p.checkedRead a).2 := by
  simp only [Port.memoryWrite, hg, if_true, Port.guardedWrite, if_neg hp, judgingRead_eq]
  by_cases he : eccAt p.ecc a = some .uncorrectable <;> simp [he]

theorem memoryWrite_free {p : Port} {a : Nat} (hg : p.isGuarded a = false) (v : Word) :
    p.memoryWrite a v = (p.store a v).endWatches a := by
  simp only [Port.memoryWrite, hg, Bool.false_eq_true, if_false]

theorem narrowWrite_free {p : Port} {a : Nat} (hg : p.isGuarded a = false) (enables : BitVec 4) (v : Word) :
    p.narrowWrite a enables v = ((p.checkedRead a).2.store a (mergeWord enables (readMemWord p.mem a) v)).endWatches a := by
  simp only [Port.narrowWrite, hg, Bool.false_eq_true, if_false]

/-- Settles O13: by the target of the address, the guard and the phase. -/
theorem discardedWritesChangeNothing : Obligations.DiscardedWritesChangeNothing := by
  refine ⟨fun s addr enables v h => ?_, fun s addr enables v he hg => ?_, fun s addr v ho hg h => ?_⟩
  · refine congrArg Host.Outcome.next (hostWriteBytes_readOnly ?_ enables v s)
    rcases h with h | h | h
    · exact .inl (targetOf_ident h)
    · exact .inr (.inl (targetOf_status h))
    · exact .inr (.inr (targetOf_unassigned h))
  · refine congrArg Host.Outcome.next (hostWriteBytes_narrow he (fun a ht => ?_) v)
    obtain ⟨ho, rfl⟩ := targetOf_memory_iff.1 ht
    exact hg ho
  · refine congrArg Host.Outcome.next ?_
    by_cases hp : s.port.phase = .coldInit
    · exact hostWriteWord_cold hp addr v
    · rw [hostWriteWord_memory hp (targetOf_ordinary ho)]
      by_cases hw : s.port.phase = .warmReset
      · rw [memoryWrite_guarded_warm hg hw]
      · obtain ⟨hclean, hnot⟩ := h.resolve_left fun hr => by
          cases h' : s.port.phase <;> simp_all
        rw [memoryWrite_guarded hg hw, if_neg, checkedRead_clean hclean]
        rintro ⟨hf | hf, hv⟩
        · rw [hclean] at hf; cases hf
        · exact hnot ⟨hf, hv⟩

/-! ## Applied writes (R3, R6, R13) -/

/-- A word stored and its watches ended, after at most a checked read of it. -/
theorem appliedWrite_spec {s : State} (hc : MemoryCanonical s) {p : Port} {a : Nat} {w : Word}
    (frame : p = { s.port with ecc := p.ecc, corrected := p.corrected, uncorrected := p.uncorrected })
    (others : ∀ b, b ≠ a → eccAt p.ecc b = eccAt s.port.ecc b) :
    let t := { s with port := (p.store a w).endWatches a }
    Stored t a w ∧ MemoryKeptOutside s t [(a, 4)] ∧ CheckBitsKeptOutside s t [a] ∧ WatchesEnded s t a ∧
    t.port.corrected = p.corrected ∧ t.port.uncorrected = p.uncorrected ∧
    t = { s with port := { s.port with
      mem := t.port.mem, ecc := t.port.ecc, guard := t.port.guard, notices := t.port.notices
      corrected := t.port.corrected, uncorrected := t.port.uncorrected } } := by
  have hmem : p.mem = s.port.mem := by rw [frame]
  have hguard : p.guard = s.port.guard := by rw [frame]
  have hnotices : p.notices = s.port.notices := by rw [frame]
  have hcp : Memory.wf p.mem = true := by rw [hmem]; exact hc
  have ended := endWatches_frame (p.store a w) a
  have mem : ((p.store a w).endWatches a).mem = (p.store a w).mem := by rw [ended]
  have ecc : ((p.store a w).endWatches a).ecc = (p.store a w).ecc := by rw [ended]
  obtain ⟨word, fresh, bytes, marks⟩ := store_spec hcp a w
  obtain ⟨guard, notices⟩ := endWatches_spec (p.store a w) a
  dsimp only
  refine ⟨⟨?_, ?_⟩, fun x hx => ?_, fun x hx => ?_, ⟨?_, ?_⟩, ?_, ?_, ?_⟩
  · exact mem ▸ word
  · exact ecc ▸ fresh
  · dsimp only
    rw [mem, bytes x (hx (a, 4) (by simp)), hmem]
  · have hne : x ≠ a := by simpa using hx
    dsimp only
    rw [ecc, marks x hne, others x hne]
  · dsimp only
    rw [guard, Port.store_guard, hguard]
  · dsimp only
    rw [notices, Port.store_notices, Port.store_guard, hguard, hnotices]
    rfl
  · rw [ended]; rfl
  · rw [ended]; rfl
  · rw [ended]
    dsimp only [Port.store]
    rw [frame]

/-- Settles O14: the write is applied as it stands. -/
theorem hostWriteStoresWord : Obligations.HostWriteStoresWord := by
  intro s addr v hw hc ho hg
  obtain ⟨stored, memory, marks, watches, corrected, uncorrected, frame⟩ :=
    appliedWrite_spec hc (p := s.port) (a := wordAddress addr) (w := v) rfl fun _ _ => rfl
  have eq : exec (.hostWrite addr v) s = .next { s with port := (s.port.store (wordAddress addr) v).endWatches (wordAddress addr) } := by
    refine congrArg Host.Outcome.next ?_
    rw [hostWriteWord_memory hw (targetOf_ordinary ho), memoryWrite_free hg]
  refine ⟨_, eq, stored, memory, marks, watches, frame.trans ?_⟩
  rw [corrected, uncorrected]

/-- Settles O15: the write is applied with the word merged after a checked read. -/
theorem narrowWriteMergesBytes : Obligations.NarrowWriteMergesBytes := by
  intro s addr enables v hw hc he ho hg a
  obtain ⟨keptEcc, -⟩ := checkedRead_ecc s.port a
  obtain ⟨corrected, uncorrected⟩ := checkedRead_counts s.port a
  obtain ⟨⟨word, fresh⟩, memory, marks, watches, hcorrected, huncorrected, frame⟩ :=
    appliedWrite_spec hc (w := mergeWord enables (readMemWord s.port.mem a) v) (checkedRead_frame s.port a) keptEcc
  have eq : exec (.hostNarrowWrite addr enables v) s = .next { s with port :=
      ((s.port.checkedRead a).2.store a (mergeWord enables (readMemWord s.port.mem a) v)).endWatches a } := by
    refine congrArg Host.Outcome.next ?_
    rw [hostWriteBytes_memory hw (targetOf_ordinary ho) he, narrowWrite_free hg]
  refine ⟨_, eq, fun i hi => ?_, fresh, memory, marks, watches, hcorrected.trans corrected, huncorrected.trans uncorrected, frame⟩
  rw [word, byteOf_mergeWord enables _ v hi]

/-- Settles O16: FULL and an unreadable word take EMPTY, any other word is only judged. -/
theorem handBackMovesFullToEmpty : Obligations.HandBackMovesFullToEmpty := by
  intro s addr hr hc ho hg a held
  have hw : Working s := by rw [Working, hr]; decide
  have hp : s.port.phase ≠ .warmReset := by rw [hr]; decide
  obtain ⟨keptEcc, ownEcc⟩ := checkedRead_ecc s.port a
  obtain ⟨corrected, uncorrected⟩ := checkedRead_counts s.port a
  have readFrame := checkedRead_frame s.port a
  have eq : exec (.handBackSpan addr) s = .next { s with port := s.port.memoryWrite a spanEmpty } :=
    congrArg Host.Outcome.next (hostWriteWord_memory hw (targetOf_ordinary ho) spanEmpty)
  rw [memoryWrite_guarded hg hp] at eq
  by_cases full : eccAt s.port.ecc a = some .uncorrectable ∨ held = spanFull
  · obtain ⟨stored, memory, marks, watches, hcorrected, huncorrected, frame⟩ :=
      appliedWrite_spec hc (w := spanEmpty) readFrame keptEcc
    rw [if_pos ⟨full, rfl⟩] at eq
    refine ⟨_, eq, memory, marks, hcorrected.trans corrected, huncorrected.trans uncorrected, fun _ => ⟨stored, watches⟩,
      fun h1 h2 => ?_, frame⟩
    exact absurd full (by rintro (h | h); exacts [h2 h, h1 h])
  · rw [if_neg fun h => full h.1] at eq
    have hread : eccAt s.port.ecc a ≠ some .uncorrectable := fun h => full (.inl h)
    have mem := checkedRead_mem s.port a
    dsimp only at readFrame
    refine ⟨_, eq, fun x _ => congrArg (readByte · x) mem, fun x hx => keptEcc x (by simpa using hx), corrected, uncorrected,
      fun h => absurd h.symm full, fun _ _ => ⟨⟨congrArg (readMemWord · a) mem, ownEcc.trans (if_neg hread)⟩, ?_, ?_⟩, ?_⟩
    · dsimp only; rw [readFrame]
    · dsimp only; rw [readFrame]
    · dsimp only; rw [readFrame]

/-! ## News and summary (R14, R43) -/

/-- The bit of a slot in the summary word. -/
theorem getLsbD_slotMask (n : SlotNo) (i : Nat) : (slotMask n).getLsbD i = decide (i = n.val) := by
  have hn := n.isLt
  simp only [slotMask, word, BitVec.getLsbD_ofNat, Nat.testBit_two_pow]
  by_cases h : i = n.val
  · subst h; simp [hn]
  · simp [h, Ne.symm h]

theorem hostWriteWord_slotState {s : State} (hw : Working s) (n : SlotNo) (v : Word) :
    hostWriteWord (stateAddr n) v s = s.writeSlotState n v := by
  simp only [hostWriteWord, if_neg hw, targetOf_stateAddr]

/-- The writes that the state of a slot allows: POSTED over FREE, FREE over POSTED or DONE, STOPPING over TAKEN or RUNNING; any
other, and any outside READY, is discarded (R10, R20). -/
theorem writeSlotState_eq {s : State} (hp : s.port.phase ≠ .warmReset) (n : SlotNo) (v : Word) :
    s.writeSlotState n v =
      let st := (s.orders.slot n).state
      if st = .free ∧ v = 1 then { s with orders := s.orders.post n }
      else if st = .posted ∧ v = 0 then { s with orders := s.orders.withdraw n }
      else if (st = .taken ∨ st = .running) ∧ v = 4 then s.cancelSlot n
      else if st = .done ∧ v = 0 then { s with orders := s.orders.release n }
      else s := by
  simp only [State.writeSlotState, if_neg hp]
  cases (s.orders.slot n).state <;> simp [slotCode, word] <;> rfl

theorem writeSlotState_warm {s : State} (hp : s.port.phase = .warmReset) (n : SlotNo) (v : Word) : s.writeSlotState n v = s := by
  simp only [State.writeSlotState, if_pos hp]

/-- A write to a slot's state word outside READY is discarded (R10, R20). -/
theorem hostWriteWord_slotState_idle {s : State} (hp : s.port.phase ≠ .ready) (n : SlotNo) (v : Word) :
    hostWriteWord (stateAddr n) v s = s := by
  by_cases hcold : s.port.phase = .coldInit
  · exact hostWriteWord_cold hcold _ v
  · rw [hostWriteWord_slotState hcold]
    refine writeSlotState_warm ?_ n v
    cases h : s.port.phase <;> simp_all

theorem hostWriteWord_slotState_ready {s : State} (hr : Ready s) (n : SlotNo) (v : Word) :
    hostWriteWord (stateAddr n) v s =
      let st := (s.orders.slot n).state
      if st = .free ∧ v = 1 then { s with orders := s.orders.post n }
      else if st = .posted ∧ v = 0 then { s with orders := s.orders.withdraw n }
      else if (st = .taken ∨ st = .running) ∧ v = 4 then s.cancelSlot n
      else if st = .done ∧ v = 0 then { s with orders := s.orders.release n }
      else s := by
  rw [hostWriteWord_slotState (by rw [Working, hr]; decide), writeSlotState_eq (by rw [hr]; decide)]

/-- Settles O17: clearing is the conjunction with the complement of the ones written. -/
theorem onesClearNewsAndSummary : Obligations.OnesClearNewsAndSummary := by
  refine ⟨fun s n v hw => ?_, fun s v hw => ?_, fun s n hr hd => ?_, fun s n v hp => ?_, fun s addr enables v he ht => ?_⟩
  · have eq : exec (.clearNews n v) s = .next { s with orders := s.orders.clearNews n v } := by
      refine congrArg Host.Outcome.next ?_
      simp only [hostWriteWord, if_neg hw, targetOf_newsAddr]
    have own : (s.orders.clearNews n v).slot n =
        { s.orders.slot n with news := (s.orders.slot n).news &&& ~~~ v.setWidth 13 } := OrderUnit.setSlot_slot_self _ _ _
    refine ⟨_, eq, fun i hi => ?_, ?_, fun m hm => OrderUnit.setSlot_slot_of_ne _ _ hm, rfl⟩
    · dsimp only
      rw [own]
      simp [hi]
    · dsimp only
      rw [own]
  · have eq : exec (.clearSummary v) s = .next { s with orders := s.orders.clearSummary v } := by
      refine congrArg Host.Outcome.next ?_
      simp only [hostWriteWord, if_neg hw, targetOf_summaryAddr]
    refine ⟨_, eq, fun i hi => ?_, rfl⟩
    simp [hi]
  · have eq : exec (.release n) s = .next { s with orders := s.orders.release n } := by
      refine congrArg Host.Outcome.next ?_
      rw [hostWriteWord_slotState_ready hr]
      simp [hd, slotCode, word]
    refine ⟨_, eq, OrderUnit.setSlot_slot_self _ _ _, fun m hm => OrderUnit.setSlot_slot_of_ne _ _ hm, fun i hi => ?_, rfl⟩
    change (s.orders.summary &&& ~~~ slotMask n).getLsbD i = _
    rw [BitVec.getLsbD_and, BitVec.getLsbD_not, getLsbD_slotMask]
    simp [hi]
  · exact ⟨exec_cold hp rfl, exec_cold hp rfl⟩
  · refine congrArg Host.Outcome.next (hostWriteBytes_narrow he (fun a hm => ?_) v)
    rcases ht with ⟨n, ht⟩ | ht <;> (rw [ht] at hm; cases hm)

/-! ## Disturbances (R6) -/

theorem exec_disturbed {s : State} {addr : Addr} {a : Nat} (ht : targetOf addr = .memory a) (d : Disturbance) :
    exec (.memoryWordDisturbed addr d) s = .next { s with port := s.port.disturb a d } := by
  show execMemoryWordDisturbed addr d s = _
  simp only [execMemoryWordDisturbed, ht]

/-- Settles O19: by the two kinds of disturbance. -/
theorem disturbanceMarksWord : Obligations.DisturbanceMarksWord := by
  intro s addr raw hc
  refine ⟨fun a ht => ⟨?_, ?_⟩, fun ht d => ?_⟩
  · refine ⟨_, exec_disturbed ht .singleBit, ?_⟩
    by_cases hu : eccAt s.port.ecc a = some .uncorrectable
    · have same : s.port.disturb a .singleBit = s.port := if_pos hu
      rw [same, if_pos hu]
      exact ⟨fun _ => rfl, fun _ _ => rfl, hu, rfl⟩
    · have marked : s.port.disturb a .singleBit = { s.port with ecc := markEcc s.port.ecc a .single } := if_neg hu
      rw [marked, if_neg hu]
      exact ⟨fun _ => rfl, fun b hb => eccAt_markEcc_of_ne _ _ (by simpa using hb), eccAt_markEcc_self _ _ _, rfl⟩
  · exact ⟨_, exec_disturbed ht (.uncorrectable raw), readMemWord_writeMemWord hc a raw,
      fun x hx => readByte_writeMemWord_outside hc raw (hx (a, 4) (by simp)),
      fun b hb => eccAt_markEcc_of_ne _ _ (by simpa using hb), eccAt_markEcc_self _ _ _, rfl⟩
  · show execMemoryWordDisturbed addr d s = _
    unfold execMemoryWordDisturbed
    split
    · rename_i a hm; exact absurd hm (ht a)
    all_goals rfl

/-! ## Posting and withdrawing (R25, R26) -/

/-- Settles O22: posting and withdrawing are two of the allowed writes of a slot's state word. -/
theorem postAndWithdraw : Obligations.PostAndWithdraw := by
  refine ⟨fun s n => ⟨fun hr hf => ?_, fun h => ?_⟩, fun s n => ⟨fun hr hf => ?_, fun h => ?_⟩⟩
  · have eq : exec (.post n) s = .next { s with orders := s.orders.post n } := by
      refine congrArg Host.Outcome.next ?_
      rw [hostWriteWord_slotState_ready hr]
      simp [hf, slotCode, word]
    exact ⟨_, eq, ⟨OrderUnit.setState_slot_self _ _ _, fun m hm => OrderUnit.setState_slot_of_ne _ _ hm⟩, rfl⟩
  · refine congrArg Host.Outcome.next ?_
    by_cases hr : s.port.phase = .ready
    · rw [hostWriteWord_slotState_ready hr]
      have hf : (s.orders.slot n).state ≠ .free := fun hf => h ⟨hr, hf⟩
      simp [hf, slotCode, word]
    · exact hostWriteWord_slotState_idle hr n _
  · have eq : exec (.withdraw n) s = .next { s with orders := s.orders.withdraw n } := by
      refine congrArg Host.Outcome.next ?_
      rw [hostWriteWord_slotState_ready hr]
      simp [hf, slotCode, word]
    refine ⟨_, eq, ⟨OrderUnit.setState_slot_self _ _ _, fun m hm => OrderUnit.setState_slot_of_ne _ _ hm⟩, ?_, fun m hm => ?_,
      List.filter_sublist, fun m => ?_, rfl⟩
    · simp
    · simp [hm]
    · dsimp only [OrderUnit.withdraw_named]
      split
      · rename_i head
        by_cases hm : m = n <;> simp [hm, head]
      · rename_i head
        exact ⟨.inl, fun h => h.resolve_right fun x => head x.2⟩
  · refine congrArg Host.Outcome.next ?_
    by_cases hr : s.port.phase = .ready
    · rw [hostWriteWord_slotState_ready hr]
      have hf : (s.orders.slot n).state ≠ .posted := fun hf => h ⟨hr, .inl hf⟩
      have hd : (s.orders.slot n).state ≠ .done := fun hd => h ⟨hr, .inr hd⟩
      simp [hf, hd, slotCode, word]
    · exact hostWriteWord_slotState_idle hr n _

end Sys2Proof.TransferMemory
end

section
/-! PROOFS. The order unit's warm-reset work (02, R44) and the end of the warm reset (01, R20). -/

namespace Sys2Proof.TransferMemory

open Machine Safety Laws

/-! ## Memory and check bits over several writes -/

/-- Memory and check bits outside some ranges, and nothing else of the port, may differ. -/
structure WritesOnly (p q : Port) (words : Nat → Prop) : Prop where
  frame : q = { p with mem := q.mem, ecc := q.ecc }
  wf : Memory.wf p.mem = true → Memory.wf q.mem = true
  bytes : Memory.wf p.mem = true → ∀ x, (∀ a, words a → x < a ∨ a + 4 ≤ x) → readByte q.mem x = readByte p.mem x
  marks : ∀ x, ¬ words x → eccAt q.ecc x = eccAt p.ecc x

theorem WritesOnly.refl (p : Port) (words : Nat → Prop) : WritesOnly p p words := ⟨rfl, id, fun _ _ _ => rfl, fun _ _ => rfl⟩

theorem WritesOnly.trans {p q r : Port} {words : Nat → Prop} (a : WritesOnly p q words) (b : WritesOnly q r words) :
    WritesOnly p r words :=
  ⟨by rw [b.frame, a.frame], fun h => b.wf (a.wf h), fun h x hx => (b.bytes (a.wf h) x hx).trans (a.bytes h x hx),
    fun x hx => (b.marks x hx).trans (a.marks x hx)⟩

theorem WritesOnly.mono {p q : Port} {v w : Nat → Prop} (h : WritesOnly p q v) (hv : ∀ a, v a → w a) : WritesOnly p q w :=
  ⟨h.frame, h.wf, fun c x hx => h.bytes c x fun a ha => hx a (hv a ha), fun x hx => h.marks x fun a => hx (hv x a)⟩

theorem writesOnly_store (p : Port) (a : Nat) (w : Word) : WritesOnly p (p.store a w) (· = a) :=
  ⟨rfl, fun h => portWf_store h a w, fun h _ hx => readByte_writeMemWord_outside h w (hx a rfl), fun _ hx => eccAt_clearEcc_of_ne _ hx⟩

/-- A word that no write touches reads as before. -/
theorem WritesOnly.readMemWord {p q : Port} {words : Nat → Prop} (h : WritesOnly p q words) (hc : Memory.wf p.mem = true) {b : Nat}
    (hb : ∀ a, words a → b + 4 ≤ a ∨ a + 4 ≤ b) : readMemWord q.mem b = Machine.readMemWord p.mem b := by
  have byte : ∀ i < 4, readByte q.mem (b + i) = readByte p.mem (b + i) := fun i hi =>
    h.bytes hc _ fun a ha => by have := hb a ha; omega
  have first := byte 0 (by omega)
  rw [Nat.add_zero] at first
  unfold Machine.readMemWord
  rw [first, byte 1 (by omega), byte 2 (by omega), byte 3 (by omega)]

/-! ## One slot -/

/-- A live slot after ORDER_RESET: DONE, no live copy, DONE news (R44). -/
def afterReset (r : SlotRec) : SlotRec := { r with state := .done, live := none, news := r.news ||| 1 }

theorem mask_done (m : BitVec 13) : m &&& causeMask .done ≠ 0 ↔ m.getLsbD 0 = true := by
  have bit : ∀ i, (m &&& causeMask .done).getLsbD i = (m.getLsbD i && decide (i = 0)) := fun i => by
    rw [BitVec.getLsbD_and]
    cases i <;> simp [causeMask, causeBit]
  refine ⟨fun h => ?_, fun h e => ?_⟩
  · by_contra hb
    refine h (BitVec.eq_of_getLsbD_eq fun i _ => ?_)
    rw [bit i]
    by_cases hi : i = 0
    · subst hi; simpa using hb
    · simp [hi]
  · have := bit 0
    rw [e, h] at this
    simp at this

theorem resetSlot_idle {h : Hub} {n : SlotNo} (hn : (h.orders.slot n).state.isLive = false) : h.resetSlot n = h := by
  simp only [Hub.resetSlot, hn, Bool.false_eq_true, if_false]

theorem resetSlot_live {h : Hub} {n : SlotNo} (hn : (h.orders.slot n).state.isLive = true) :
    h.resetSlot n = h.conclude n .reset .none false := by
  simp only [Hub.resetSlot, hn, if_true]

/-- The outcome word of a slot. -/
def outcomeAddr (n : SlotNo) : Nat := slotBase n + 0x0C

theorem outcomeAddr_apart {n m : SlotNo} (h : n ≠ m) : outcomeAddr n + 4 ≤ outcomeAddr m ∨ outcomeAddr m + 4 ≤ outcomeAddr n := by
  have : n.val ≠ m.val := fun e => h (Fin.ext e)
  unfold outcomeAddr slotBase
  omega

/-- A port and order unit after some slots have been reset (R44). -/
structure SlotsReset (l : List SlotNo) (h k : Hub) : Prop where
  port : WritesOnly h.port k.port fun a => ∃ n, (h.orders.slot n).state.isLive = true ∧ a = outcomeAddr n
  outcome : Memory.wf h.port.mem = true → ∀ n ∈ l, (h.orders.slot n).state.isLive = true →
    readMemWord k.port.mem (outcomeAddr n) = 8 ∧ eccAt k.port.ecc (outcomeAddr n) = none
  slot : ∀ n, k.orders.slot n =
    if n ∈ l ∧ (h.orders.slot n).state.isLive = true then afterReset (h.orders.slot n) else h.orders.slot n
  summary : ∀ n : SlotNo, k.orders.summary.getLsbD n.val =
    (h.orders.summary.getLsbD n.val || (decide (n ∈ l) && (h.orders.slot n).state.isLive && (h.orders.slot n).mask.getLsbD 0))
  orders : k.orders = { h.orders with slots := k.orders.slots, summary := k.orders.summary }

theorem slotsReset_nil (h : Hub) : SlotsReset [] h h :=
  ⟨.refl _ _, fun _ n hn => by simp at hn, fun n => by simp, fun n => by simp, rfl⟩

/-- The reset of one slot. -/
theorem slotsReset_one (h : Hub) (n : SlotNo) : SlotsReset [n] h (h.resetSlot n) := by
  by_cases hn : (h.orders.slot n).state.isLive = true
  · obtain ⟨port, own, others, orders, summary⟩ := conclude_spec h n .reset .none false
    rw [resetSlot_live hn]
    refine ⟨?_, fun hc m hm hl => ?_, fun m => ?_, fun m => ?_, orders⟩
    · rw [port]
      exact (writesOnly_store _ _ _).mono fun a ha => ⟨n, hn, ha⟩
    · obtain rfl : m = n := by simpa using hm
      obtain ⟨word, fresh, -, -⟩ := store_spec hc (outcomeAddr m) (outcomeWord .reset .none false)
      rw [port]
      exact ⟨word, fresh⟩
    · by_cases hm : m = n
      · subst hm
        rw [own, if_pos ⟨by simp, hn⟩]
        rfl
      · rw [others m hm, if_neg (by simp [hm])]
    · rw [summary]
      have mask := mask_done (h.orders.slot n).mask
      by_cases hm : m = n
      · subst hm
        by_cases hb : (h.orders.slot m).mask.getLsbD 0 = true
        · rw [if_pos (mask.2 hb), BitVec.getLsbD_or, getLsbD_slotMask]
          simp [hn, hb]
        · rw [if_neg fun x => hb (mask.1 x)]
          rw [(Bool.not_eq_true _).mp hb]
          simp
      · have : m.val ≠ n.val := fun e => hm (Fin.ext e)
        split
        · rw [BitVec.getLsbD_or, getLsbD_slotMask]; simp [hm, this]
        · simp [hm]
  · have hn : (h.orders.slot n).state.isLive = false := by simpa using hn
    rw [resetSlot_idle hn]
    refine ⟨.refl _ _, fun _ m hm hl => ?_, fun m => ?_, fun m => ?_, rfl⟩
    · obtain rfl : m = n := by simpa using hm
      rw [hn] at hl; cases hl
    · rw [if_neg]
      rintro ⟨hm, hl⟩
      obtain rfl : m = n := by simpa using hm
      rw [hn] at hl; cases hl
    · by_cases hm : m = n
      · subst hm; simp [hn]
      · simp [hm]

/-- The reset of one slot and then of others. -/
theorem slotsReset_cons {h k g : Hub} {n : SlotNo} {l : List SlotNo} (a : SlotsReset [n] h k) (b : SlotsReset l k g) :
    SlotsReset (n :: l) h g := by
  have dead : (k.orders.slot n).state.isLive = false := by
    rw [a.slot n]
    by_cases hn : (h.orders.slot n).state.isLive = true
    · rw [if_pos ⟨by simp, hn⟩]; rfl
    · rw [if_neg fun x => hn x.2]; simpa using hn
  have other : ∀ m, m ≠ n → k.orders.slot m = h.orders.slot m := fun m hm => by
    rw [a.slot m, if_neg (by simp [hm])]
  have live : ∀ m, (k.orders.slot m).state.isLive = true → m ≠ n ∧ (h.orders.slot m).state.isLive = true := fun m hm => by
    have hne : m ≠ n := by rintro rfl; rw [dead] at hm; cases hm
    exact ⟨hne, by rwa [other m hne] at hm⟩
  refine ⟨a.port.trans (b.port.mono ?_), fun hc m hm hl => ?_, fun m => ?_, fun m => ?_, by rw [b.orders, a.orders]⟩
  · rintro x ⟨m, hm, rfl⟩
    exact ⟨m, (live m hm).2, rfl⟩
  · by_cases hmn : m = n
    · subst hmn
      obtain ⟨word, fresh⟩ := a.outcome hc m (by simp) hl
      refine ⟨(b.port.readMemWord (a.port.wf hc) ?_).trans word, (b.port.marks _ ?_).trans fresh⟩
      · rintro x ⟨j, hj, rfl⟩
        exact outcomeAddr_apart (live j hj).1.symm
      · rintro ⟨j, hj, e⟩
        have := outcomeAddr_apart (live j hj).1
        omega
    · exact b.outcome (a.port.wf hc) m ((List.mem_cons.1 hm).resolve_left hmn) (by rwa [other m hmn])
  · rw [b.slot m]
    by_cases hmn : m = n
    · subst hmn
      rw [if_neg fun x => by rw [dead] at x; cases x.2]
      rw [a.slot m]
      simp
    · rw [other m hmn]
      simp [hmn]
  · rw [b.summary m, a.summary m]
    by_cases hmn : m = n
    · subst hmn; simp [dead]
    · rw [other m hmn]; simp [hmn]

theorem slotsReset_foldl (l : List SlotNo) (h : Hub) : SlotsReset l h (l.foldl Hub.resetSlot h) := by
  induction l generalizing h with
  | nil => exact slotsReset_nil h
  | cons n l ih => exact slotsReset_cons (slotsReset_one h n) (ih _)

theorem mem_slotNos (n : SlotNo) : n ∈ slotNos := by revert n; decide

theorem slotNos_eq_finRange : slotNos = List.finRange 32 := by decide

theorem isLive_iff (st : SlotState) : st.isLive = true ↔ st = .taken ∨ st = .running ∨ st = .stopping := by
  cases st <;> simp [SlotState.isLive]

/-- Settles O21: the fold over the 32 slots by `slotsReset_foldl`, the rest by the conditions of the two commands. -/
theorem warmResetEndsOrders : Obligations.WarmResetEndsOrders := by
  refine ⟨fun s hp hd hc => ?_, fun s h => ?_, fun s hp hd => ?_, fun s h => ?_⟩
  · have reset := slotsReset_foldl slotNos s.hub
    have eq : exec .orderReset s = .next (s.setHub { slotNos.foldl Hub.resetSlot s.hub with
        orders := (slotNos.foldl Hub.resetSlot s.hub).orders.rebuild }) := if_pos ⟨hp, hd⟩
    generalize slotNos.foldl Hub.resetSlot s.hub = k at reset eq
    have slot : ∀ n, k.orders.slot n =
        if (s.orders.slot n).state.isLive = true then afterReset (s.orders.slot n) else s.orders.slot n := fun n => by
      rw [reset.slot n]; simp [mem_slotNos]
    have posted : ∀ n, (k.orders.slot n).state = .posted ↔ (s.orders.slot n).state = .posted := fun n => by
      rw [slot n]
      split
      · rename_i hl
        rw [isLive_iff] at hl
        constructor
        · intro h; cases h
        · intro h; rw [h] at hl; simp at hl
      · rfl
    refine ⟨_, eq, fun n hn => ⟨reset.outcome hc n (mem_slotNos n) hn, (slot n).trans (if_pos hn)⟩, fun n hn => ?_, fun n => ?_, ?_,
      reset.port.frame, fun a ha => reset.port.marks a ?_, fun a ha => reset.port.bytes hc a ?_, rfl⟩
    · exact (slot n).trans (if_neg (by simp [hn]))
    · exact (reset.summary n).trans (by simp [mem_slotNos])
    · change k.orders.rebuild = _
      simp only [OrderUnit.rebuild, posted, slotNos_eq_finRange]
      rfl
    · rintro ⟨n, hn, e⟩
      exact ha n hn e
    · rintro x ⟨n, hn, rfl⟩
      exact ha n hn
  · exact if_neg fun ⟨hp, hd⟩ => h.elim (fun x => x hp) fun x => by rw [hd] at x; cases x
  · exact if_pos ⟨hp, hd⟩
  · exact if_neg fun ⟨hp, hd⟩ => h.elim (fun x => x hp) fun x => by rw [hd] at x; cases x

end Sys2Proof.TransferMemory
end

section
/-! PROOFS. The warm reset begins (01, R20), CONTROL (R18): what the units' work sets of the order unit is news only. -/

namespace Sys2Proof.TransferMemory

open Machine Safety Laws

/-! ## Steps of a capture that only set news -/

/-- A step of a capture that touches nothing of the order unit but news of its own slot. -/
def NewsOnly (c d : Cx) : Prop :=
  d.cap.slot = c.cap.slot ∧ ∃ ks : List Cause, d.hub.orders = ks.foldl (fun o k => o.setNews c.cap.slot k) c.hub.orders

theorem NewsOnly.refl (c : Cx) : NewsOnly c c := ⟨rfl, [], rfl⟩

theorem NewsOnly.trans {c d e : Cx} (a : NewsOnly c d) (b : NewsOnly d e) : NewsOnly c e := by
  obtain ⟨ha, ks, hks⟩ := a
  obtain ⟨hb, ls, hls⟩ := b
  refine ⟨hb.trans ha, ks ++ ls, ?_⟩
  rw [hls, hks, ha, List.foldl_append]

/-- A step that leaves slot and order unit as they are. -/
theorem NewsOnly.ofEq {c d : Cx} (slot : d.cap.slot = c.cap.slot) (orders : d.hub.orders = c.hub.orders) : NewsOnly c d :=
  ⟨slot, [], orders⟩

theorem newsOnly_news (c : Cx) (k : Cause) : NewsOnly c (c.news k) := ⟨rfl, [k], rfl⟩

theorem newsOnly_foldl {α : Type} (f : Cx → α → Cx) (h : ∀ c a, NewsOnly c (f c a)) (c : Cx) (l : List α) :
    NewsOnly c (l.foldl f c) := by
  induction l generalizing c with
  | nil => exact .refl c
  | cons a l ih => exact (h c a).trans (ih _)

/-! ### Record lists -/

theorem newsOnly_room (c : Cx) (id : ListId) : NewsOnly c (c.room id).2 := by
  unfold Cx.room
  dsimp only
  split
  · exact NewsOnly.trans (.ofEq rfl rfl) (newsOnly_news _ _)
  · split
    · exact .ofEq rfl rfl
    · exact NewsOnly.trans (.ofEq rfl rfl) (newsOnly_news _ _)

theorem newsOnly_writeRepair (c : Cx) (r : RepairRec) : NewsOnly c (c.writeRepair r) :=
  NewsOnly.trans (.ofEq rfl rfl) (newsOnly_news _ _)

theorem newsOnly_placeRepairs (c : Cx) (rs : List RepairRec) : NewsOnly c (c.placeRepairs rs).2 := by
  induction rs generalizing c with
  | nil => exact .refl c
  | cons r rest ih =>
    unfold Cx.placeRepairs
    dsimp only
    split
    · exact newsOnly_room c .repair
    · exact ((newsOnly_room c .repair).trans (newsOnly_writeRepair _ r)).trans (ih _)

theorem newsOnly_suppress (c : Cx) (k : Nat) : NewsOnly c (c.suppress k) := by
  unfold Cx.suppress
  split
  · exact .refl c
  · exact .ofEq rfl rfl

theorem newsOnly_endRepairs (c : Cx) (rs : List RepairRec) : NewsOnly c (c.endRepairs rs) :=
  ((newsOnly_placeRepairs c rs).trans (.ofEq rfl rfl)).trans (newsOnly_suppress _ _)

theorem newsOnly_writeMap (c : Cx) (m : MapRec) : NewsOnly c (c.writeMap m) := NewsOnly.trans (.ofEq rfl rfl) (newsOnly_news _ _)

theorem newsOnly_closeRecord (c : Cx) (cue : Bool) : NewsOnly c (c.closeRecord cue) := by
  have written : ∀ (d : Cx) (m : MapRec), NewsOnly d (if (d.room .map).1 = 0 then
      ((d.room .map).2.mapWriter fun w => { w with map := some { m with extended := true }, mapPending := true }).news .listFull
    else (d.room .map).2.writeMap m) := fun d m => by
    split
    · exact ((newsOnly_room d .map).trans (.ofEq rfl rfl)).trans (newsOnly_news _ _)
    · exact (newsOnly_room d .map).trans (newsOnly_writeMap _ m)
  have cleared : NewsOnly c (c.mapWriter fun w => { w with closeDue := none, closeAfter := none }) := .ofEq rfl rfl
  have closed := fun m => cleared.trans (written (c.mapWriter fun w => { w with closeDue := none, closeAfter := none }) m)
  unfold Cx.closeRecord
  dsimp only
  split
  · refine NewsOnly.trans ?_ (newsOnly_news _ _)
    split
    · exact cleared
    · exact closed _
  · split
    · exact cleared
    · exact closed _

theorem newsOnly_closeMap (c : Cx) : NewsOnly c c.closeMap := by
  unfold Cx.closeMap
  split
  · exact .refl c
  · split
    · exact .refl c
    · exact newsOnly_closeRecord _ _

theorem newsOnly_endMap (c : Cx) : NewsOnly c c.endMap := by
  have read := newsOnly_room c .map
  unfold Cx.endMap
  split
  · exact .refl c
  · dsimp only
    split
    · exact read.trans (.ofEq rfl rfl)
    · split
      · exact (read.trans (newsOnly_writeMap _ _)).trans (newsOnly_news _ _)
      · exact read.trans (newsOnly_writeMap _ _)

/-! ### Spans, losses, excerpts, lanes -/

theorem newsOnly_request (c : Cx) (a : Nat) (e w : Word) (b : Bool) : NewsOnly c (c.request a e w b).2 := by
  unfold Cx.request
  dsimp only
  split
  · exact NewsOnly.trans (.ofEq rfl rfl) (newsOnly_news _ _)
  · exact .ofEq rfl rfl

theorem newsOnly_closeSpan (c : Cx) (g : Group) : NewsOnly c (c.closeSpan g) := by
  have asked := newsOnly_request c (c.out g).span.addr spanFilling spanFull false
  unfold Cx.closeSpan
  dsimp only
  split
  · exact (asked.trans (newsOnly_news _ _)).trans (.ofEq rfl rfl)
  · exact asked.trans (.ofEq rfl rfl)

theorem newsOnly_writeFrame (c : Cx) (g : Group) (f : Frame) : NewsOnly c (c.writeFrame g f) := by
  unfold Cx.writeFrame
  split
  · exact .refl c
  · dsimp only
    split
    · exact NewsOnly.trans (.ofEq rfl rfl) (newsOnly_closeSpan _ g)
    · exact .ofEq rfl rfl

theorem newsOnly_fillReleased (c : Cx) (g : Group) (fs : List Frame) : NewsOnly c (c.fillReleased g fs) := by
  induction fs generalizing c with
  | nil => exact .refl c
  | cons f rest ih =>
    unfold Cx.fillReleased
    split
    · refine NewsOnly.trans ?_ (ih _)
      refine NewsOnly.trans ?_ (newsOnly_writeFrame _ g f)
      exact .ofEq rfl rfl
    · exact .refl c

theorem newsOnly_closeCut (c : Cx) (g : Group) : NewsOnly c (c.closeCut g) := by
  unfold Cx.closeCut
  split
  · exact .refl c
  · exact NewsOnly.trans (.ofEq rfl rfl) (newsOnly_closeSpan _ g)

theorem newsOnly_discardFrames (c : Cx) (g : Group) : NewsOnly c (c.discardFrames g) := by
  unfold Cx.discardFrames Cx.countLost
  dsimp only
  split <;> exact .ofEq rfl rfl

theorem newsOnly_takeSeq (c : Cx) : NewsOnly c c.takeSeq.2 := by
  unfold Cx.takeSeq
  split
  · exact .refl c
  · exact .ofEq rfl rfl

theorem newsOnly_closeLost (c : Cx) (g : Group) (cut : Bool) : NewsOnly c (c.closeLost g cut) := by
  unfold Cx.closeLost
  split
  · exact .refl c
  · exact (newsOnly_takeSeq c).trans (.ofEq rfl rfl)

theorem newsOnly_excerptWrite (c : Cx) (x : Excerpt) (off : Nat) (v : Word) : NewsOnly c (c.excerptWrite x off v) := .ofEq rfl rfl

theorem newsOnly_closeExcerpt (c : Cx) (x : Excerpt) (cut full : Bool) : NewsOnly c (c.closeExcerpt x cut full) := by
  unfold Cx.closeExcerpt
  dsimp only
  generalize asked : Cx.request _ _ _ _ _ = answer
  have news : NewsOnly c answer.2 := by
    rw [← asked]
    refine NewsOnly.trans ?_ (newsOnly_request _ _ _ _ _)
    iterate 5 refine NewsOnly.trans ?_ (newsOnly_excerptWrite _ _ _ _)
    exact .ofEq rfl rfl
  obtain ⟨t, d⟩ := answer
  have finished : NewsOnly c (if t = .applied then d.news .excerpt else d) := by
    split
    · exact news.trans (newsOnly_news _ _)
    · exact news
  exact finished.trans (.ofEq rfl rfl)

theorem newsOnly_cutExcerpt (c : Cx) : NewsOnly c c.cutExcerpt := by
  unfold Cx.cutExcerpt
  split
  · exact .refl c
  · refine NewsOnly.trans ?_ (newsOnly_closeExcerpt _ _ _ _)
    exact .ofEq rfl rfl

theorem newsOnly_writerReset (c : Cx) : NewsOnly c c.writerReset := by
  unfold Cx.writerReset
  dsimp only
  refine NewsOnly.trans ?_ (newsOnly_endMap _)
  refine NewsOnly.trans ?_ (newsOnly_endRepairs _ _)
  refine NewsOnly.trans ?_ (newsOnly_closeLost _ _ _)
  refine NewsOnly.trans ?_ (newsOnly_closeLost _ _ _)
  refine NewsOnly.trans ?_ (newsOnly_cutExcerpt _)
  refine NewsOnly.trans ?_ (newsOnly_discardFrames _ _)
  refine NewsOnly.trans ?_ (newsOnly_discardFrames _ _)
  exact (newsOnly_closeCut _ _).trans (newsOnly_closeCut _ _)

theorem newsOnly_closeDropout (c : Cx) (lane : LaneNo) (d : Dropout) (cut : Bool) (closing : Option Nat) (block : Nat) :
    NewsOnly c (c.closeDropout lane d cut closing block) := by
  unfold Cx.closeDropout Cx.excerptClosing
  dsimp only
  refine (newsOnly_takeSeq c).trans ?_
  split
  · exact .ofEq rfl rfl
  · split <;> exact .ofEq rfl rfl

theorem newsOnly_laneReset (c : Cx) (lane : LaneNo) : NewsOnly c (c.laneReset lane) := by
  unfold Cx.laneReset
  split
  · exact .refl c
  · dsimp only
    split
    · exact .ofEq rfl rfl
    · exact NewsOnly.trans (.ofEq rfl rfl) (newsOnly_closeDropout _ _ _ _ _ _)

theorem newsOnly_handComplete (c : Cx) : NewsOnly c c.handComplete := by
  unfold Cx.handComplete
  split
  · exact .refl c
  · exact .ofEq rfl rfl

theorem newsOnly_lanesReset (c : Cx) : NewsOnly c c.lanesReset :=
  ((newsOnly_foldl _ newsOnly_laneReset c laneNos).trans (.ofEq rfl rfl)).trans (newsOnly_handComplete _)

theorem newsOnly_resetCapture (c : Cx) : NewsOnly c c.resetCapture := by
  unfold Cx.resetCapture
  dsimp only
  refine NewsOnly.trans ?_ (newsOnly_writerReset _)
  refine NewsOnly.trans ?_ (newsOnly_lanesReset _)
  refine NewsOnly.trans ?_ (newsOnly_fillReleased _ _ _)
  refine NewsOnly.trans ?_ (newsOnly_fillReleased _ _ _)
  exact NewsOnly.trans (.ofEq rfl rfl) (newsOnly_closeMap _)

theorem onlyNewsDiffers_setNews (o : OrderUnit) (n : SlotNo) (k : Cause) : OnlyNewsDiffers o (o.setNews n k) := by
  obtain ⟨frame, kept, -⟩ := setNews_frame o n k
  refine ⟨frame, fun m => ?_⟩
  obtain ⟨state, mask, live⟩ := kept m
  rw [show (o.setNews n k).slot m = ⟨((o.setNews n k).slot m).state, ((o.setNews n k).slot m).news,
    ((o.setNews n k).slot m).mask, ((o.setNews n k).slot m).live⟩ from rfl, state, mask, live]

theorem onlyNewsDiffers_foldl_setNews (o : OrderUnit) (n : SlotNo) (ks : List Cause) :
    OnlyNewsDiffers o (ks.foldl (fun o k => o.setNews n k) o) := by
  induction ks generalizing o with
  | nil => exact onlyNewsDiffers_refl o
  | cons k ks ih => exact onlyNewsDiffers_trans (onlyNewsDiffers_setNews o n k) (ih _)

theorem NewsOnly.differs {c d : Cx} (h : NewsOnly c d) : OnlyNewsDiffers c.hub.orders d.hub.orders := by
  obtain ⟨-, ks, hks⟩ := h
  rw [hks]
  exact onlyNewsDiffers_foldl_setNews _ _ ks

/-! ## The warm reset as one action -/

/-- The state in which the units do their warm-reset work: in WARM_RESET, last reset WARM. -/
def warmed (s : State) : State := { s with port := { s.port with phase := .warmReset, lastWarm := true } }

/-- What is left of the order unit and the port once the units' work is done (R20). -/
def resetEnd (s : State) (p : Port) (o : OrderUnit) : State := { s with
  port := { p with notices := [] }
  orders := { o with ends := [], pendingTransport := none, reachedTransport := none, resetDone := false }
  reports := [], capture := none, calibration := none }

theorem beginWarmReset_none {s : State} (h : s.capture = none) :
    s.beginWarmReset = resetEnd s (warmed s).port s.orders := by
  simp only [State.beginWarmReset, State.onCapture, h]
  rfl

theorem resetEnd_setCx (s : State) (d : Cx) : (let s2 := (warmed s).setCx d
    ({ s2 with
      port := { s2.port with notices := [] }
      orders := { s2.orders with ends := [], pendingTransport := none, reachedTransport := none, resetDone := false }
      reports := [], capture := none, calibration := none } : State)) = resetEnd s d.hub.port d.hub.orders := rfl

theorem beginWarmReset_some {s : State} {cap : Capture} (h : s.capture = some cap) : s.beginWarmReset =
    resetEnd s (Cx.resetCapture ⟨(warmed s).hub, cap⟩).hub.port (Cx.resetCapture ⟨(warmed s).hub, cap⟩).hub.orders := by
  have begun : (warmed s).onCapture Cx.resetCapture = (warmed s).setCx (Cx.resetCapture ⟨(warmed s).hub, cap⟩) := by
    unfold State.onCapture
    rw [show (warmed s).capture = some cap from h]
  unfold State.beginWarmReset
  dsimp only
  rw [show ({ s with port := { s.port with phase := .warmReset, lastWarm := true } } : State) = warmed s from rfl, begun]
  exact resetEnd_setCx s _

/-- A warm reset is `resetEnd` of a port in WARM_RESET and an order unit of which only news changed (R20). -/
theorem beginWarmReset_spec (s : State) : ∃ p o, s.beginWarmReset = resetEnd s p o ∧ OnlyNewsDiffers s.orders o ∧
    p = { (warmed s).port with
      mem := p.mem, ecc := p.ecc, corrected := p.corrected, uncorrected := p.uncorrected, guard := p.guard } ∧
    (s.capture = none → p = (warmed s).port ∧ o = s.orders) := by
  cases hc : s.capture with
  | none => exact ⟨_, _, beginWarmReset_none hc, onlyNewsDiffers_refl _, rfl, fun _ => ⟨rfl, rfl⟩⟩
  | some cap =>
    exact ⟨_, _, beginWarmReset_some hc, (newsOnly_resetCapture ⟨(warmed s).hub, cap⟩).differs,
      (kept_resetCapture ⟨(warmed s).hub, cap⟩).hub.port, nofun⟩

/-! ## CONTROL (R18) -/

theorem bit_controlWord (e r c : Bool) :
    bit (controlWord e r c) 0 = e ∧ bit (controlWord e r c) 1 = r ∧ bit (controlWord e r c) 2 = c := by
  revert e r c; decide

/-- The port after the fields of a CONTROL write: ATTN_EN stored, errors cleared where asked (R9, R18). -/
def controlPort (p : Port) (enable clear : Bool) : Port :=
  { p with attnEn := enable, uncorrected := p.uncorrected && !clear, corrected := if clear then 0 else p.corrected }

theorem writeControl_eq (s : State) (v : Word) : s.writeControl v =
    let s1 := { s with port := controlPort s.port (bit v 0) (bit v 2) }
    if bit v 1 = true ∧ s.port.phase = .ready then s1.beginWarmReset else s1 := by
  have port : (if bit v 2 then ({ s.port with attnEn := bit v 0 } : Port).clearErrors else { s.port with attnEn := bit v 0 })
      = controlPort s.port (bit v 0) (bit v 2) := by
    cases bit v 2 <;> simp [controlPort, Port.clearErrors]
  simp only [State.writeControl, port]

theorem hostWriteWord_control {s : State} (hw : Working s) (v : Word) : hostWriteWord controlAddr v s = s.writeControl v := by
  simp only [hostWriteWord, if_neg hw, targetOf_controlAddr]

/-- A CONTROL write that begins no warm reset (R18). -/
theorem control_stores {s : State} (hw : Working s) (e r c : Bool) (h : r = false ∨ s.port.phase ≠ .ready) :
    hostWriteWord controlAddr (controlWord e r c) s = { s with port := controlPort s.port e c } := by
  obtain ⟨b0, b1, b2⟩ := bit_controlWord e r c
  rw [hostWriteWord_control hw, writeControl_eq, b0, b1, b2]
  refine if_neg fun ⟨hr, hp⟩ => ?_
  rcases h with h | h
  · rw [h] at hr; cases hr
  · exact h hp

/-- A CONTROL write with WARM_RESET set in READY (R18, R20). -/
theorem control_resets {s : State} (hr : Ready s) (e c : Bool) :
    hostWriteWord controlAddr (controlWord e true c) s = State.beginWarmReset { s with port := controlPort s.port e c } := by
  obtain ⟨b0, b1, b2⟩ := bit_controlWord e true c
  rw [hostWriteWord_control (by rw [Working, hr]; decide), writeControl_eq, b0, b1, b2]
  exact if_pos ⟨rfl, hr⟩

theorem wordAddress_stateAddr (n : SlotNo) : wordAddress (stateAddr n) = slotBase n := by revert n; decide

theorem wordAddress_newsAddr (n : SlotNo) : wordAddress (newsAddr n) = slotBase n + 4 := by revert n; decide

/-- A CONTROL write is the write of its three fields. -/
theorem writeControl_fields (s : State) (v : Word) : s.writeControl v = s.writeControl (controlWord (bit v 0) (bit v 1) (bit v 2)) := by
  obtain ⟨b0, b1, b2⟩ := bit_controlWord (bit v 0) (bit v 1) (bit v 2)
  rw [writeControl_eq, writeControl_eq, b0, b1, b2]

theorem hostWriteWord_control_fields (s : State) (v : Word) :
    hostWriteWord controlAddr v s = hostWriteWord controlAddr (controlWord (bit v 0) (bit v 1) (bit v 2)) s := by
  by_cases hp : s.port.phase = .coldInit
  · rw [hostWriteWord_cold hp, hostWriteWord_cold hp]
  · rw [hostWriteWord_control hp, hostWriteWord_control hp, ← writeControl_fields]

/-- A write to a slot's state word is the command of its pair of state and value, or nothing (R10). -/
theorem slotState_routes (s : State) (n : SlotNo) (v : Word) : (.next (hostWriteWord (stateAddr n) v s) : Result) =
    let st := (s.orders.slot n).state
    if st = .free ∧ v = 1 then exec (.post n) s
    else if st = .posted ∧ v = 0 then exec (.withdraw n) s
    else if (st = .taken ∨ st = .running) ∧ v = 4 then exec (.cancel n) s
    else if st = .done ∧ v = 0 then exec (.release n) s
    else .next s := by
  dsimp only
  split
  · rename_i h; rw [h.2]; rfl
  · split
    · rename_i h; rw [h.2]; rfl
    · split
      · rename_i h; rw [h.2]; rfl
      · split
        · rename_i h; rw [h.2]; rfl
        · rename_i h1 h2 h3 h4
          refine congrArg Host.Outcome.next ?_
          by_cases hr : s.port.phase = .ready
          · rw [hostWriteWord_slotState_ready hr]
            dsimp only
            rw [if_neg h1, if_neg h2, if_neg h3, if_neg h4]
          · exact hostWriteWord_slotState_idle hr n v

/-- Settles O18: a CONTROL write is the write of its fields, and a HOST_WRITE goes where the rows' own writes go. -/
theorem controlWriteStoresAndClears : Obligations.ControlWriteStoresAndClears := by
  have kept : ∀ p : Port, ∀ e, controlPort p e false = { p with attnEn := e } := fun p e => by simp [controlPort]
  have cleared : ∀ p : Port, ∀ e, controlPort p e true = { p with attnEn := e, uncorrected := false, corrected := 0 } :=
    fun p e => by simp [controlPort]
  refine ⟨fun s e hw => ?_, fun s e r hw h => ?_, fun s e c hp => ?_, fun s e b hp => ?_, fun s e => ⟨rfl, fun hr => ?_⟩,
    fun s addr v => ⟨fun n ha => ?_, fun n ha => ?_, fun ha => ?_, fun ha => ?_⟩⟩
  · refine congrArg Host.Outcome.next ?_
    rw [control_stores hw e false false (.inl rfl), kept]
  · refine congrArg Host.Outcome.next ?_
    rw [control_stores hw e r true (h.imp_right fun x => by rw [x]; decide), cleared]
  · refine congrArg Host.Outcome.next ?_
    rw [control_stores (by rw [Working, hp]; decide) e true c (.inr (by rw [hp]; decide))]
    rfl
  · exact ⟨exec_cold hp rfl, exec_cold hp rfl, exec_cold hp rfl⟩
  · have eq : exec (.clearMemerr e true) s = .next (State.beginWarmReset { s with port := controlPort s.port e true }) :=
      congrArg Host.Outcome.next (control_resets hr e true)
    obtain ⟨p, o, begun, -, port, idle⟩ := beginWarmReset_spec { s with port := controlPort s.port e true }
    rw [begun] at eq
    refine ⟨_, eq, ?_, ?_, ?_, fun hc => ?_⟩
    · exact (congrArg Port.phase port :)
    · exact (congrArg Port.lastWarm port :)
    · exact (congrArg Port.attnEn port :)
    · obtain ⟨rfl, rfl⟩ := idle hc
      rw [cleared]
      exact ⟨rfl, rfl⟩
  · have goes : hostWriteWord addr v s = hostWriteWord (stateAddr n) v s :=
      hostWriteWord_congr (targetOf_congr (ha.trans (wordAddress_stateAddr n).symm)) v s
    exact (congrArg Host.Outcome.next goes).trans (slotState_routes s n v)
  · exact congrArg Host.Outcome.next (hostWriteWord_congr (targetOf_congr (ha.trans (wordAddress_newsAddr n).symm)) v s)
  · exact congrArg Host.Outcome.next (hostWriteWord_congr (targetOf_congr (ha.trans (by decide))) v s)
  · have goes : hostWriteWord addr v s = hostWriteWord controlAddr (controlWord (v.getLsbD 0) (v.getLsbD 1) (v.getLsbD 2)) s :=
      (hostWriteWord_congr (targetOf_congr (ha.trans (by decide))) v s).trans (hostWriteWord_control_fields s v)
    refine (congrArg Host.Outcome.next goes).trans ?_
    cases v.getLsbD 1
    · cases v.getLsbD 2 <;> rfl
    · rfl

end Sys2Proof.TransferMemory
end

section
/-! PROOFS. The output writer's stores (10, R184 to R191): what a run of engine stores leaves of the memory, and what each
operation of the writer on a span, the spill store and the LOST record does. -/

namespace Sys2Proof.TransferMemory

open Machine Safety Laws

/-! ## Runs of engine stores (R3, R6) -/

/-- A word of a port's memory holds a value with fresh check bits. -/
def Holds (p : Port) (a : Nat) (w : Word) : Prop := readMemWord p.mem a = w ∧ eccAt p.ecc a = none

theorem holds_iff_stored {s : State} {a : Nat} {w : Word} : Holds s.port a w ↔ Stored s a w := Iff.rfl

/-- A byte that lies in none of the ranges. -/
def Outside (a : Nat) (ranges : List (Nat × Nat)) : Prop := ∀ r ∈ ranges, a < r.1 ∨ r.1 + r.2 ≤ a

theorem outside_append {a : Nat} {R S : List (Nat × Nat)} : Outside a (R ++ S) ↔ Outside a R ∧ Outside a S :=
  List.forall_mem_append

theorem outside_cons {a : Nat} {r : Nat × Nat} {R : List (Nat × Nat)} :
    Outside a (r :: R) ↔ (a < r.1 ∨ r.1 + r.2 ≤ a) ∧ Outside a R := List.forall_mem_cons

theorem outside_nil (a : Nat) : Outside a [] := nofun

/-- One port follows from another by engine stores into the given ranges. -/
structure Wrote (p q : Port) (ranges : List (Nat × Nat)) : Prop where
  guard : q.guard = p.guard
  wf : Memory.wf p.mem = true → Memory.wf q.mem = true
  bytes : Memory.wf p.mem = true → ∀ a, Outside a ranges → readByte q.mem a = readByte p.mem a
  clean : ∀ a, eccAt p.ecc a = none → eccAt q.ecc a = none

theorem Wrote.refl (p : Port) : Wrote p p [] := ⟨rfl, id, fun _ _ _ => rfl, fun _ h => h⟩

theorem Wrote.trans {p q r : Port} {R S : List (Nat × Nat)} (h : Wrote p q R) (k : Wrote q r S) : Wrote p r (R ++ S) :=
  ⟨k.guard.trans h.guard, fun w => k.wf (h.wf w),
    fun w a ha => (k.bytes (h.wf w) a (outside_append.1 ha).2).trans (h.bytes w a (outside_append.1 ha).1),
    fun a ha => k.clean a (h.clean a ha)⟩

theorem Wrote.cover {p q : Port} {R S : List (Nat × Nat)} (h : Wrote p q R) (c : ∀ a, Outside a S → Outside a R) : Wrote p q S :=
  ⟨h.guard, h.wf, fun w a ha => h.bytes w a (c a ha), h.clean⟩

/-- A word that shares no byte with the ranges written stays. -/
theorem Wrote.holds {p q : Port} {R : List (Nat × Nat)} (h : Wrote p q R) (w : Memory.wf p.mem = true) {a : Nat} {v : Word}
    (ha : Holds p a v) (apart : ∀ r ∈ R, Apart (a, 4) r) : Holds q a v := by
  have byte : ∀ i < 4, readByte q.mem (a + i) = readByte p.mem (a + i) := fun i hi =>
    h.bytes w _ fun r hr => by have := apart r hr; simp only [Apart] at this; omega
  have b0 := byte 0 (by omega)
  rw [Nat.add_zero] at b0
  refine ⟨?_, h.clean a ha.2⟩
  rw [← ha.1, readMemWord, readMemWord, b0, byte 1 (by omega), byte 2 (by omega), byte 3 (by omega)]

theorem Wrote.keepsOutside {s t : State} {R S : List (Nat × Nat)} (h : Wrote s.port t.port R) (w : MemoryCanonical s)
    (c : ∀ a, Outside a S → Outside a R) : MemoryKeptOutside s t S := fun a ha => h.bytes w a (c a ha)

theorem eccAt_clearEcc_clean {l : List (Nat × EccMark)} {a b : Nat} (h : eccAt l b = none) : eccAt (clearEcc l a) b = none := by
  by_cases e : b = a
  · rw [e, eccAt_clearEcc_self]
  · rw [eccAt_clearEcc_of_ne l e, h]

theorem wrote_store (p : Port) (a : Nat) (w : Word) : Wrote p (p.store a w) [(a, 4)] :=
  ⟨rfl, fun h => portWf_store h a w,
    fun h _ hx => (store_spec h a w).2.2.1 _ (hx _ (List.mem_singleton.2 rfl)), fun _ h => eccAt_clearEcc_clean h⟩

theorem eccAt_filter_clean {l : List (Nat × EccMark)} (f : Nat → Bool) {a : Nat} (h : eccAt l a = none) :
    eccAt (l.filter fun k => f k.1) a = none := by
  cases e : f a with
  | true => rw [eccAt_filter_of_pos e, h]
  | false => exact eccAt_filter_of_neg e

theorem wrote_storeWords (p : Port) (a : Nat) (ws : List Word) : Wrote p (p.storeWords a ws) [(a, 4 * ws.length)] :=
  ⟨rfl, fun h => portWf_storeWords h a ws,
    fun h _ hx => (storeWords_spec h a ws).2.1 _ (hx _ (List.mem_singleton.2 rfl)),
    fun _ h => eccAt_filter_clean (fun k => decide (k < a ∨ a + 4 * ws.length ≤ k)) h⟩

theorem holds_store {p : Port} (h : Memory.wf p.mem = true) (a : Nat) (w : Word) : Holds (p.store a w) a w :=
  ⟨(store_spec h a w).1, (store_spec h a w).2.1⟩

theorem holds_storeWords {p : Port} (h : Memory.wf p.mem = true) (a : Nat) {ws : List Word} {i : Nat} {w : Word}
    (hw : ws[i]? = some w) : Holds (p.storeWords a ws) (a + 4 * i) w := (storeWords_spec h a ws).1 i w hw

theorem Wrote.store {p q : Port} {R : List (Nat × Nat)} (h : Wrote p q R) (a : Nat) (w : Word) :
    Wrote p (q.store a w) (R ++ [(a, 4)]) := h.trans (wrote_store q a w)

/-- A word stays over one store elsewhere. -/
theorem Holds.store {p : Port} (h : Memory.wf p.mem = true) {a b : Nat} {v w : Word} (ha : Holds p a v) (apart : Apart (a, 4) (b, 4)) :
    Holds (p.store b w) a v := (wrote_store p b w).holds h ha (by simpa using apart)

/-! ## The words of a span (R184, R185) -/

/-- The port after a frame has been written into a FILLING span: its words, the fill, the frame count (R185). -/
def framePort (p : Port) (d : SpanDesc) (sp : OpenSpan) (f : Frame) : Port :=
  ((p.storeWords (d.buffer + sp.fill) f.words).store (d.addr + 0x0C) (word (sp.fill + 4 * f.words.length))).store
    (d.addr + 0x14) (word (sp.frames + 1))

/-- The port after the words of an opened span but its state have been written (R185). -/
def openPort (p : Port) (d : SpanDesc) (loss : Bool) (f : Frame) : Port :=
  ((((p.store (d.addr + 0x10) f.index).store (d.addr + 0x18) f.position).store (d.addr + 0x1C) (word (2 * flagBit loss))).store
    (d.addr + 0x0C) 0).store (d.addr + 0x14) 0

theorem framePort_wrote (p : Port) (d : SpanDesc) (sp : OpenSpan) (f : Frame) : Wrote p (framePort p d sp f)
    [(d.buffer + sp.fill, 4 * f.words.length), (d.addr + 0x0C, 4), (d.addr + 0x14, 4)] :=
  ((wrote_storeWords p _ f.words).store _ _).store _ _

theorem openPort_wrote (p : Port) (d : SpanDesc) (loss : Bool) (f : Frame) :
    Wrote p (openPort p d loss f) [(d.addr + 0x0C, 20)] := by
  refine (((((wrote_store p _ _).store _ _).store _ _).store _ _).store _ _).cover fun a ha => ?_
  simp only [outside_append, outside_cons, outside_nil, and_true] at ha ⊢
  omega

/-- What a frame written shows: its words, the fill and the frame count (R185). -/
theorem framePort_shows {p : Port} (h : Memory.wf p.mem = true) {d : SpanDesc} {sp : OpenSpan} {f : Frame}
    (apart : Apart (d.addr, 32) (d.buffer + sp.fill, 4 * f.words.length)) :
    (∀ (i : Nat) (w : Word), f.words[i]? = some w → Holds (framePort p d sp f) (d.buffer + sp.fill + 4 * i) w) ∧
    Holds (framePort p d sp f) (d.addr + 0x0C) (word (sp.fill + 4 * f.words.length)) ∧
    Holds (framePort p d sp f) (d.addr + 0x14) (word (sp.frames + 1)) := by
  have w1 := portWf_storeWords h (d.buffer + sp.fill) f.words
  have w2 := portWf_store w1 (d.addr + 0x0C) (word (sp.fill + 4 * f.words.length))
  simp only [Apart] at apart
  refine ⟨fun i w hi => ?_, ?_, holds_store w2 _ _⟩
  · have bound : i < f.words.length := (List.getElem?_eq_some_iff.1 hi).1
    have stored := holds_storeWords h (d.buffer + sp.fill) hi
    refine (stored.store w1 ?_).store w2 ?_ <;> simp only [Apart] <;> omega
  · exact (holds_store w1 _ _).store w2 (by simp only [Apart]; omega)

/-- The descriptor of a span in a port's memory shows state, fill, frame count, first index, position and flags (R184). -/
def Shows (p : Port) (d : SpanDesc) (st : Word) (fill frames : Nat) (first pos flags : Word) : Prop :=
  Holds p d.addr st ∧ Holds p (d.addr + 0x0C) (word fill) ∧ Holds p (d.addr + 0x10) first ∧
  Holds p (d.addr + 0x14) (word frames) ∧ Holds p (d.addr + 0x18) pos ∧ Holds p (d.addr + 0x1C) flags

/-- Frames of one length one behind the other in a port's memory (R185). -/
def FramesIn (p : Port) (a len : Nat) (fs : List Frame) : Prop :=
  ∀ (k : Nat) (f : Frame) (i : Nat) (w : Word), fs[k]? = some f → f.words[i]? = some w → Holds p (a + len * k + 4 * i) w

theorem shows_iff_showsSpan {t : State} {d : SpanDesc} {st : Word} {fill frames : Nat} {first pos flags : Word} :
    Shows t.port d st fill frames first pos flags ↔ ShowsSpan t d st fill frames first pos flags := Iff.rfl

theorem framesIn_iff_framesAt {t : State} {a len : Nat} {fs : List Frame} : FramesIn t.port a len fs ↔ FramesAt t a len fs := Iff.rfl

/-- The flags word of an opened span. -/
def lossFlag (loss : Bool) : Word := if loss then 2 else 0

theorem word_lossFlag (loss : Bool) : word (2 * flagBit loss) = lossFlag loss := by cases loss <;> rfl

/-- What opening a span shows (R185). -/
theorem openPort_shows {p : Port} (h : Memory.wf p.mem = true) (d : SpanDesc) (loss : Bool) (f : Frame) (st : Word) :
    Shows (openPort (p.store d.addr st) d loss f) d st 0 0 f.index f.position (lossFlag loss) := by
  have w0 := portWf_store h d.addr st
  have w1 := portWf_store w0 (d.addr + 0x10) f.index
  have w2 := portWf_store w1 (d.addr + 0x18) f.position
  have w3 := portWf_store w2 (d.addr + 0x1C) (word (2 * flagBit loss))
  have w4 := portWf_store w3 (d.addr + 0x0C) 0
  rw [← word_lossFlag]
  refine ⟨(openPort_wrote _ d loss f).holds w0 (holds_store h _ _) ?_, ?_, ?_, holds_store w4 _ _, ?_, ?_⟩
  · intro r hr
    rw [List.mem_singleton.1 hr]
    simp only [Apart]; omega
  · refine (holds_store w3 _ _).store w4 ?_; simp only [Apart]; omega
  · refine ((((holds_store w0 _ _).store w1 ?_).store w2 ?_).store w3 ?_).store w4 ?_ <;> simp only [Apart] <;> omega
  · refine (((holds_store w1 _ _).store w2 ?_).store w3 ?_).store w4 ?_ <;> simp only [Apart] <;> omega
  · refine ((holds_store w2 _ _).store w3 ?_).store w4 ?_ <;> simp only [Apart] <;> omega

/-- A frame more in a span (R185). -/
theorem Shows.frame {p : Port} (h : Memory.wf p.mem = true) {d : SpanDesc} {sp : OpenSpan} {f : Frame} {st first pos flags : Word}
    (shown : Shows p d st sp.fill sp.frames first pos flags)
    (apart : Apart (d.addr, 32) (d.buffer + sp.fill, 4 * f.words.length)) :
    Shows (framePort p d sp f) d st (sp.fill + 4 * f.words.length) (sp.frames + 1) first pos flags := by
  obtain ⟨state, -, index, -, position, flag⟩ := shown
  obtain ⟨-, fill, frames⟩ := framePort_shows h apart
  have kept : ∀ {x : Nat} {v : Word}, Holds p (d.addr + x) v → x = 0 ∨ x = 0x10 ∨ x = 0x18 ∨ x = 0x1C →
      Holds (framePort p d sp f) (d.addr + x) v := fun hx hs => by
    refine (framePort_wrote p d sp f).holds h hx fun r hr => ?_
    simp only [List.mem_cons, List.not_mem_nil, or_false] at hr
    rcases hr with rfl | rfl | rfl <;> simp only [Apart] at apart ⊢ <;> omega
  exact ⟨kept (x := 0) state (by simp), fill, kept index (by simp), frames, kept position (by simp), kept flag (by simp)⟩

theorem Wrote.framesIn {p q : Port} {R : List (Nat × Nat)} (h : Wrote p q R) (w : Memory.wf p.mem = true) {a len : Nat}
    {fs : List Frame} (fsIn : FramesIn p a len fs) (lengths : ∀ f ∈ fs, 4 * f.words.length = len)
    (apart : ∀ r ∈ R, Apart (a, len * fs.length) r) : FramesIn q a len fs := by
  intro k f i v hk hi
  have bound : i < f.words.length := (List.getElem?_eq_some_iff.1 hi).1
  have size := lengths f (List.mem_of_getElem? hk)
  have last : len * (k + 1) ≤ len * fs.length := Nat.mul_le_mul_left _ (List.getElem?_eq_some_iff.1 hk).1
  rw [Nat.mul_succ] at last
  refine h.holds w (fsIn k f i v hk hi) fun r hr => ?_
  have := apart r hr
  simp only [Apart] at this ⊢
  omega

/-- A frame behind those of a span (R185). -/
theorem FramesIn.frame {p : Port} (h : Memory.wf p.mem = true) {d : SpanDesc} {sp : OpenSpan} {f : Frame} {a len : Nat}
    {fs : List Frame} (fsIn : FramesIn p a len fs) (lengths : ∀ x ∈ fs ++ [f], 4 * x.words.length = len)
    (place : a + len * fs.length = d.buffer + sp.fill)
    (apart : Apart (d.addr, 32) (a, len * (fs.length + 1))) : FramesIn (framePort p d sp f) a len (fs ++ [f]) := by
  have size : 4 * f.words.length = len := lengths f (by simp)
  rw [Nat.mul_succ] at apart
  simp only [Apart] at apart
  have before := (framePort_wrote p d sp f).framesIn h fsIn (fun x hx => lengths x (List.mem_append_left _ hx)) (fun r hr => by
    simp only [List.mem_cons, List.not_mem_nil, or_false] at hr
    rcases hr with rfl | rfl | rfl <;> simp only [Apart] <;> omega)
  have written := (framePort_shows h (d := d) (sp := sp) (f := f) (by simp only [Apart]; omega)).1
  intro k x i v hk hi
  rcases Nat.lt_or_ge k fs.length with lt | ge
  · exact before k x i v (by rwa [List.getElem?_append_left lt] at hk) hi
  · obtain ⟨bound, at_⟩ := List.getElem?_eq_some_iff.1 hk
    obtain rfl : k = fs.length := by simp at bound; omega
    rw [List.getElem?_append_right ge, Nat.sub_self, List.getElem?_cons_zero] at hk
    obtain rfl := Option.some.inj hk
    rw [place]
    exact written i v hi

theorem framesIn_nil (p : Port) (a len : Nat) : FramesIn p a len [] := fun _ _ _ _ hk => by simp at hk

/-! ## A group's part of the writer -/

/-- A capture with one group's part of the writer replaced. -/
def putOut (cap : Capture) (g : Group) (o : GroupOut) : Capture :=
  { cap with writer := { cap.writer with groups := cap.writer.groups.put g o } }

theorem put_put {α : Type} (p : PerGroup α) (g : Group) (x y : α) : (p.put g x).put g y = p.put g y := by cases g <;> rfl

theorem put_get {α : Type} (p : PerGroup α) (g : Group) : p.put g (p.get g) = p := by cases g <;> rfl

@[simp] theorem putOut_putOut (cap : Capture) (g : Group) (x y : GroupOut) : putOut (putOut cap g x) g y = putOut cap g y := by
  simp only [putOut, put_put]

theorem putOut_out (c : Cx) (g : Group) : putOut c.cap g (c.out g) = c.cap := by
  simp only [putOut, Cx.out, put_get]

@[simp] theorem out_putOut (h : Hub) (cap : Capture) (g : Group) (o : GroupOut) : Cx.out ⟨h, putOut cap g o⟩ g = o :=
  PerGroup.get_put_self _ _ _

theorem out_putOut_of_ne (h : Hub) (cap : Capture) {g k : Group} (o : GroupOut) (e : k ≠ g) :
    Cx.out ⟨h, putOut cap g o⟩ k = cap.writer.groups.get k := PerGroup.get_put_of_ne _ _ e

theorem mapOut_eq (c : Cx) (g : Group) (f : GroupOut → GroupOut) : c.mapOut g f = ⟨c.hub, putOut c.cap g (f (c.out g))⟩ := rfl

/-! ## Transition requests (R12, R8) -/

theorem request_applied {c : Cx} {a : Nat} {e w : Word} {b : Bool} (h : Holds c.hub.port a e) :
    c.request a e w b = (.applied, ⟨⟨c.hub.port.store a w, c.hub.orders⟩, c.cap⟩) := by
  simp only [Cx.request, spanRequest_clean h.2, h.1, if_true]
  rfl

theorem request_found {c : Cx} {a : Nat} {v e w : Word} (b : Bool) (h : Holds c.hub.port a v) (ne : v ≠ e) :
    c.request a e w b =
      (.found v, ⟨⟨if b then c.hub.port.setWatch c.cap.slot a else c.hub.port, c.hub.orders⟩, c.cap⟩) := by
  simp only [Cx.request, spanRequest_clean h.2, h.1, if_neg ne]
  rfl

theorem request_fault {c : Cx} {a : Nat} {e w : Word} (b : Bool) (h : eccAt c.hub.port.ecc a = some .uncorrectable) :
    c.request a e w b = (.fault, ⟨⟨if b then ({ c.hub.port with uncorrected := true } : Port).setWatch c.cap.slot a
      else { c.hub.port with uncorrected := true }, c.hub.orders.setNews c.cap.slot .memoryFault⟩, c.cap⟩) := by
  simp only [Cx.request, spanRequest_uncorrectable h, if_true]
  rfl

/-! ## Opening, filling and closing a span (R185, R186) -/

theorem spanWrite_eq (c : Cx) (g : Group) (off : Nat) (w : Word) : c.spanWrite g off w =
    ⟨⟨c.hub.port.store ((cursorSpan (c.out g)).addr + off) w, c.hub.orders⟩, c.cap⟩ := rfl

theorem openSpan_eq (c : Cx) (g : Group) (f : Frame) : c.openSpan g f =
    ⟨⟨openPort c.hub.port (cursorSpan (c.out g)) (c.out g).afterLoss f, c.hub.orders⟩,
      putOut c.cap g { c.out g with filling := some ⟨0, 0, (c.out g).afterLoss⟩, afterLoss := false }⟩ := by
  simp only [Cx.openSpan, spanWrite_eq, mapOut_eq, openPort, Cx.out]

/-- A span closed whose word is FILLING (R186). -/
theorem closeSpan_applied {c : Cx} {g : Group} (h : Holds c.hub.port (cursorSpan (c.out g)).addr 1) : c.closeSpan g =
    ⟨⟨c.hub.port.store (cursorSpan (c.out g)).addr 2, c.hub.orders.setNews c.cap.slot (spanCause g)⟩,
      putOut c.cap g { c.out g with filling := none, cursor := ((c.out g).cursor + 1) % (c.out g).spans.length }⟩ := by
  have answer := request_applied (b := false) (w := spanFull) h
  unfold Cx.closeSpan
  dsimp only
  rw [show (c.out g).span = cursorSpan (c.out g) from rfl, show spanFilling = 1 from rfl, answer]
  rfl

/-- The FILLING span with one frame more. -/
def moreFrames (sp : OpenSpan) (f : Frame) : OpenSpan :=
  { sp with fill := sp.fill + 4 * f.words.length, frames := sp.frames + 1 }

/-- What a frame written leaves before the span is closed, if it fills it. -/
def framed (c : Cx) (g : Group) (sp : OpenSpan) (f : Frame) : Cx :=
  ⟨⟨framePort c.hub.port (cursorSpan (c.out g)) sp f, c.hub.orders⟩, putOut c.cap g { c.out g with filling := some (moreFrames sp f) }⟩

theorem writeFrame_some {c : Cx} {g : Group} {sp : OpenSpan} (h : (c.out g).filling = some sp) (f : Frame) : c.writeFrame g f =
    if (cursorSpan (c.out g)).capacity ≤ sp.fill + 4 * f.words.length then (framed c g sp f).closeSpan g else framed c g sp f := by
  unfold Cx.writeFrame
  rw [h]
  rfl

theorem writeFrame_fits {c : Cx} {g : Group} {sp : OpenSpan} (h : (c.out g).filling = some sp) {f : Frame}
    (fits : sp.fill + 4 * f.words.length < (cursorSpan (c.out g)).capacity) : c.writeFrame g f = framed c g sp f := by
  rw [writeFrame_some h, if_neg (by omega)]

@[simp] theorem out_framed (c : Cx) (g : Group) (sp : OpenSpan) (f : Frame) :
    (framed c g sp f).out g = { c.out g with filling := some (moreFrames sp f) } := out_putOut _ _ _ _

/-- A frame that fills a span whose word is FILLING (R186). -/
theorem writeFrame_fills {c : Cx} {g : Group} {sp : OpenSpan} (h : (c.out g).filling = some sp) {f : Frame}
    (wf : Memory.wf c.hub.port.mem = true) (fills : (cursorSpan (c.out g)).capacity ≤ sp.fill + 4 * f.words.length)
    (apart : Apart ((cursorSpan (c.out g)).addr, 32) ((cursorSpan (c.out g)).buffer + sp.fill, 4 * f.words.length))
    (state : Holds c.hub.port (cursorSpan (c.out g)).addr 1) :
    c.writeFrame g f =
      ⟨⟨(framePort c.hub.port (cursorSpan (c.out g)) sp f).store (cursorSpan (c.out g)).addr 2,
        c.hub.orders.setNews c.cap.slot (spanCause g)⟩,
        putOut c.cap g { c.out g with filling := none, cursor := ((c.out g).cursor + 1) % (c.out g).spans.length }⟩ := by
  have kept : Holds (framePort c.hub.port (cursorSpan (c.out g)) sp f) (cursorSpan (c.out g)).addr 1 := by
    refine (framePort_wrote _ _ _ _).holds wf state fun r hr => ?_
    simp only [List.mem_cons, List.not_mem_nil, or_false] at hr
    rcases hr with rfl | rfl | rfl <;> simp only [Apart] at apart ⊢ <;> omega
  have same : cursorSpan ((framed c g sp f).out g) = cursorSpan (c.out g) := by rw [out_framed]; rfl
  rw [writeFrame_some h, if_pos fills, closeSpan_applied (by rw [same]; exact kept), same, out_framed]
  simp only [framed, putOut_putOut]
  rfl

/-- The state of a group's part once its span is opened for a frame. -/
def opened (c : Cx) (g : Group) (f : Frame) : Cx :=
  ⟨⟨openPort (c.hub.port.store (cursorSpan (c.out g)).addr 1) (cursorSpan (c.out g)) (c.out g).afterLoss f, c.hub.orders⟩,
    putOut c.cap g { c.out g with filling := some ⟨0, 0, (c.out g).afterLoss⟩, afterLoss := false }⟩

/-- The request for an EMPTY span is applied, and the frame goes in (R185, R187). -/
theorem openAndWrite_given {c : Cx} {g : Group} (h : Holds c.hub.port (cursorSpan (c.out g)).addr 0) (f : Frame) (b : Bool) :
    c.openAndWrite g f b = (true, (opened c g f).writeFrame g f) := by
  have answer := request_applied (b := b) (w := spanFilling) h
  unfold Cx.openAndWrite
  dsimp only
  rw [show (c.out g).span = cursorSpan (c.out g) from rfl, show spanEmpty = 0 from rfl, answer]
  dsimp only
  rw [if_pos rfl, openSpan_eq]
  rfl

theorem openAndWrite_refused {c : Cx} {g : Group} {v : Word} (h : Holds c.hub.port (cursorSpan (c.out g)).addr v) (ne : v ≠ 0)
    (f : Frame) (b : Bool) : c.openAndWrite g f b = (false, ⟨⟨if b then c.hub.port.setWatch c.cap.slot (cursorSpan (c.out g)).addr
      else c.hub.port, c.hub.orders⟩, c.cap⟩) := by
  have answer := request_found (w := spanFilling) b h ne
  unfold Cx.openAndWrite
  dsimp only
  rw [show (c.out g).span = cursorSpan (c.out g) from rfl, show spanEmpty = 0 from rfl, answer]
  rfl

theorem openAndWrite_fault {c : Cx} {g : Group} (h : eccAt c.hub.port.ecc (cursorSpan (c.out g)).addr = some .uncorrectable)
    (f : Frame) : c.openAndWrite g f true = (false,
      ⟨⟨({ c.hub.port with uncorrected := true } : Port).setWatch c.cap.slot (cursorSpan (c.out g)).addr,
        c.hub.orders.setNews c.cap.slot .memoryFault⟩, c.cap⟩) := by
  have answer := request_fault (e := spanEmpty) (w := spanFilling) true h
  unfold Cx.openAndWrite
  dsimp only
  rw [show (c.out g).span = cursorSpan (c.out g) from rfl, answer]
  rfl

@[simp] theorem out_opened (c : Cx) (g : Group) (f : Frame) : (opened c g f).out g =
    { c.out g with filling := some ⟨0, 0, (c.out g).afterLoss⟩, afterLoss := false } := out_putOut _ _ _ _

/-- A span opened for a frame that does not fill it (R185). -/
theorem opened_writeFrame_fits {c : Cx} {g : Group} {f : Frame} (fits : 4 * f.words.length < (cursorSpan (c.out g)).capacity) :
    (opened c g f).writeFrame g f =
      ⟨⟨framePort (openPort (c.hub.port.store (cursorSpan (c.out g)).addr 1) (cursorSpan (c.out g)) (c.out g).afterLoss f)
        (cursorSpan (c.out g)) ⟨0, 0, (c.out g).afterLoss⟩ f, c.hub.orders⟩,
        putOut c.cap g { c.out g with filling := some ⟨4 * f.words.length, 1, (c.out g).afterLoss⟩, afterLoss := false }⟩ := by
  have same : cursorSpan ((opened c g f).out g) = cursorSpan (c.out g) := by rw [out_opened]; rfl
  rw [writeFrame_fits (sp := ⟨0, 0, (c.out g).afterLoss⟩) (by rw [out_opened]) (by rw [same]; simpa using fits), framed, same,
    out_opened, moreFrames, Nat.zero_add]
  unfold opened
  rw [putOut_putOut]

/-! ## The spill store (R188) -/

theorem appendLast_cons {room : Nat} {f : Frame} (i : SpillItem) {q : List SpillItem} (h : q ≠ []) :
    appendLast room f (i :: q) = (appendLast room f q).map (i :: ·) := by
  cases q with
  | nil => exact absurd rfl h
  | cons j q => cases i <;> rw [appendLast]

theorem appendLast_page {room : Nat} (f : Frame) (pre : List SpillItem) {fs : List Frame} (h : fs.length < room) :
    appendLast room f (pre ++ [.page fs]) = some (pre ++ [.page (fs ++ [f])]) := by
  induction pre with
  | nil => simp only [List.nil_append, appendLast, if_pos h]
  | cons i pre ih =>
    rw [List.cons_append, appendLast_cons i (by simp), ih]
    rfl

theorem appendLast_closed {room : Nat} (f : Frame) (pre : List SpillItem) {i : SpillItem}
    (h : i = .lossMark ∨ ∃ fs, i = .page fs ∧ room ≤ fs.length) : appendLast room f (pre ++ [i]) = none := by
  induction pre with
  | nil =>
    rcases h with rfl | ⟨fs, rfl, h⟩
    · rfl
    · simp only [List.nil_append, appendLast, if_neg (Nat.not_lt.2 h)]
  | cons j pre ih =>
    rw [List.cons_append, appendLast_cons j (by simp), ih]
    rfl

theorem freePages_pos {w : Writer} : 0 < w.freePages ↔ PageFree w := by
  unfold Writer.freePages PageFree
  omega

theorem spillInto_eq (c : Cx) (g : Group) (q : List SpillItem) : c.spillInto g q =
    ⟨⟨c.hub.port, if framesIn (c.out g).queue = 0 then c.hub.orders.setNews c.cap.slot .spill else c.hub.orders⟩,
      putOut c.cap g { c.out g with queue := q }⟩ := by
  unfold Cx.spillInto
  dsimp only
  split <;> rfl

theorem spillOrDrop_joins {c : Cx} {g : Group} {f : Frame} {q : List SpillItem}
    (h : appendLast (4096 / frameSize c.cap.params g) f (c.out g).queue = some q) : c.spillOrDrop g f = c.spillInto g q := by
  unfold Cx.spillOrDrop Cx.spill framesPerPage
  rw [h]
  rfl

theorem spillOrDrop_page {c : Cx} {g : Group} {f : Frame}
    (h : appendLast (4096 / frameSize c.cap.params g) f (c.out g).queue = none) (free : PageFree c.cap.writer) :
    c.spillOrDrop g f = c.spillInto g ((c.out g).queue ++ [.page [f]]) := by
  unfold Cx.spillOrDrop Cx.spill framesPerPage
  rw [h]
  dsimp only
  rw [if_pos (freePages_pos.2 free)]
  rfl

theorem spillOrDrop_drops {c : Cx} {g : Group} {f : Frame}
    (h : appendLast (4096 / frameSize c.cap.params g) f (c.out g).queue = none) (full : ¬ PageFree c.cap.writer) :
    c.spillOrDrop g f = c.dropFrame g f := by
  unfold Cx.spillOrDrop Cx.spill framesPerPage
  rw [h]
  dsimp only
  rw [if_neg (mt freePages_pos.1 full)]
  rfl

/-! ## Loss (R190) -/

theorem slotBase_lostOffset (cap : Capture) (g : Group) : slotBase cap.slot + lostOffset g = lostWord cap g := by cases g <;> rfl

theorem countLost_eq {k : Nat} (hk : k ≠ 0) (c : Cx) (g : Group) : c.countLost g k =
    ⟨⟨c.hub.port.store (lostWord c.cap g) (word (min 4294967295 ((c.out g).samplesLost + k))), c.hub.orders⟩,
      putOut c.cap g { c.out g with samplesLost := min 4294967295 ((c.out g).samplesLost + k) }⟩ := by
  unfold Cx.countLost
  rw [if_neg hk, ← slotBase_lostOffset]
  rfl

theorem countLost_zero (c : Cx) (g : Group) : c.countLost g 0 = c := rfl

/-- The part of a group that has lost one frame more. -/
def loseOne (o : GroupOut) (r : LostRec) : GroupOut :=
  { o with lost := some r, samplesLost := min 4294967295 (o.samplesLost + 1) }

theorem dropFrame_opens {c : Cx} {g : Group} (h : (c.out g).lost = none) (f : Frame) : c.dropFrame g f =
    ⟨⟨c.hub.port.store (lostWord c.cap g) (word (min 4294967295 ((c.out g).samplesLost + 1))), c.hub.orders.setNews c.cap.slot .lost⟩,
      putOut c.cap g (loseOne (c.out g) ⟨f.index, 1, f.block, f.position⟩)⟩ := by
  unfold Cx.dropFrame
  rw [h]
  dsimp only
  rw [countLost_eq Nat.one_ne_zero, mapOut_eq, out_putOut]
  simp only [putOut_putOut]
  rfl

theorem dropFrame_grows {c : Cx} {g : Group} {r : LostRec} (h : (c.out g).lost = some r) (f : Frame) : c.dropFrame g f =
    ⟨⟨c.hub.port.store (lostWord c.cap g) (word (min 4294967295 ((c.out g).samplesLost + 1))), c.hub.orders⟩,
      putOut c.cap g (loseOne (c.out g) { r with length := upTo 4294967295 r.length })⟩ := by
  unfold Cx.dropFrame
  rw [h]
  dsimp only
  rw [countLost_eq Nat.one_ne_zero, mapOut_eq, out_putOut]
  simp only [putOut_putOut]
  rfl

/-- A capture whose monitor has given a number to a closed LOST record, which is handed over, with its group's part replaced. -/
def lossClosed (cap : Capture) (g : Group) (m : LaneMonitor) (r : LostRec) (cut : Bool) (x : GroupOut) : Capture :=
  { putOut cap g x with
    monitor := some { m with seq := m.seq + 1 }
    writer := { (putOut cap g x).writer with handed := cap.writer.handed ++ [lostRepair m.seq g r cut] } }

@[simp] theorem putOut_lossClosed (cap : Capture) (g : Group) (m : LaneMonitor) (r : LostRec) (cut : Bool) (x y : GroupOut) :
    putOut (lossClosed cap g m r cut x) g y = lossClosed cap g m r cut y := by
  simp only [putOut, lossClosed, put_put]

@[simp] theorem lossClosed_putOut (cap : Capture) (g : Group) (m : LaneMonitor) (r : LostRec) (cut : Bool) (x y : GroupOut) :
    lossClosed (putOut cap g x) g m r cut y = lossClosed cap g m r cut y := by
  simp only [putOut, lossClosed, put_put]

@[simp] theorem out_lossClosed (h : Hub) (cap : Capture) (g : Group) (m : LaneMonitor) (r : LostRec) (cut : Bool) (x : GroupOut) :
    Cx.out ⟨h, lossClosed cap g m r cut x⟩ g = x := PerGroup.get_put_self _ _ _

/-- A LOST record closed: its number taken, the record handed over (R190, R102). -/
theorem closeLost_some {c : Cx} {g : Group} {r : LostRec} {m : LaneMonitor} (h : (c.out g).lost = some r)
    (hm : c.cap.monitor = some m) (cut : Bool) :
    c.closeLost g cut = ⟨c.hub, lossClosed c.cap g m r cut { c.out g with lost := none }⟩ := by
  unfold Cx.closeLost Cx.takeSeq
  rw [h, hm]
  rfl

theorem closeLost_none {c : Cx} {g : Group} (h : (c.out g).lost = none) (cut : Bool) : c.closeLost g cut = c := by
  unfold Cx.closeLost
  rw [h]

end Sys2Proof.TransferMemory
end

section
/-! PROOFS. PLACE_FRAME (10, R187, R188, R190). -/

namespace Sys2Proof.TransferMemory

open Machine Safety Laws

/-! ## A step of a capture that always answers -/

theorem captureFrame_of_kept {s : State} {cap : Capture} {d : Cx} (h : CxKept ⟨s.hub, cap⟩ d) : CaptureFrame s (s.setCx d) :=
  ⟨rfl, h.hub.port⟩

theorem captureStep_ok {s : State} {cap : Capture} (h : Capturing s cap) (f : Cx → Cx) :
    captureStep s (fun c => .ok (f c)) = .next (s.setCx (f ⟨s.hub, cap⟩)) := captureStep_some h.1 h.2

/-! ## The cases of R187 -/

section

variable {c : Cx} {g : Group} {f : Frame}

theorem placeOne_writes (lost : (c.out g).lost = none) (queue : (c.out g).queue = []) {sp : OpenSpan}
    (filling : (c.out g).filling = some sp) : c.placeOne g f = c.writeFrame g f := by
  simp [Cx.placeOne, lost, queue, filling]

theorem placeOne_opens (lost : (c.out g).lost = none) (queue : (c.out g).queue = []) (filling : (c.out g).filling = none)
    (state : Holds c.hub.port (cursorSpan (c.out g)).addr 0) : c.placeOne g f = (opened c g f).writeFrame g f := by
  simp [Cx.placeOne, lost, queue, filling, openAndWrite_given state]

theorem placeOne_waits (lost : (c.out g).lost = none) (queue : (c.out g).queue = []) (filling : (c.out g).filling = none)
    {v : Word} (state : Holds c.hub.port (cursorSpan (c.out g)).addr v) (ne : v ≠ 0) : c.placeOne g f =
      Cx.spillOrDrop ⟨⟨c.hub.port.setWatch c.cap.slot (cursorSpan (c.out g)).addr, c.hub.orders⟩, c.cap⟩ g f := by
  simp [Cx.placeOne, lost, queue, filling, openAndWrite_refused state ne]

theorem placeOne_unread (lost : (c.out g).lost = none) (queue : (c.out g).queue = []) (filling : (c.out g).filling = none)
    (state : eccAt c.hub.port.ecc (cursorSpan (c.out g)).addr = some .uncorrectable) : c.placeOne g f =
      Cx.spillOrDrop ⟨⟨({ c.hub.port with uncorrected := true } : Port).setWatch c.cap.slot (cursorSpan (c.out g)).addr,
        c.hub.orders.setNews c.cap.slot .memoryFault⟩, c.cap⟩ g f := by
  simp [Cx.placeOne, lost, queue, filling, openAndWrite_fault state]

theorem placeOne_queued (lost : (c.out g).lost = none) (queue : (c.out g).queue ≠ []) :
    c.placeOne g f = c.spillOrDrop g f := by
  simp [Cx.placeOne, lost, queue]

theorem placeOne_lost {r : LostRec} (lost : (c.out g).lost = some r) : c.placeOne g f = c.placeAfterLoss g f := by
  simp [Cx.placeOne, lost]

/-! ## A frame while a LOST record is open (R190) -/

variable {r : LostRec} {m : LaneMonitor}

/-- The span is given: the record closes, and the frame opens the span with AFTER_LOSS. -/
theorem placeAfterLoss_opens (lost : (c.out g).lost = some r) (monitor : c.cap.monitor = some m) (queue : (c.out g).queue = [])
    (state : Holds c.hub.port (cursorSpan (c.out g)).addr 0) : c.placeAfterLoss g f =
      (opened ⟨c.hub, lossClosed c.cap g m r false { c.out g with lost := none, afterLoss := true }⟩ g f).writeFrame g f := by
  have answer := request_applied (b := true) (w := spanFilling) state
  unfold Cx.placeAfterLoss
  dsimp only
  rw [if_pos queue, show (c.out g).span = cursorSpan (c.out g) from rfl, show spanEmpty = 0 from rfl, answer]
  dsimp only
  rw [if_pos rfl, closeLost_some (c := ⟨⟨c.hub.port.store (cursorSpan (c.out g)).addr spanFilling, c.hub.orders⟩, c.cap⟩) lost monitor,
    mapOut_eq, out_lossClosed, putOut_lossClosed, openSpan_eq, out_lossClosed, putOut_lossClosed]
  simp only [opened, out_lossClosed, putOut_lossClosed]
  rfl

/-- A page is free: the record closes, and the frame is spilled behind a loss mark. -/
theorem spillAfterLoss (lost : (c.out g).lost = some r) (monitor : c.cap.monitor = some m) :
    (let c1 := c.closeLost g false
     c1.spillInto g ((c1.out g).queue ++ [.lossMark, .page [f]])) =
      ⟨⟨c.hub.port, if framesIn (c.out g).queue = 0 then c.hub.orders.setNews c.cap.slot .spill else c.hub.orders⟩,
        lossClosed c.cap g m r false { c.out g with lost := none, queue := (c.out g).queue ++ [.lossMark, .page [f]] }⟩ := by
  dsimp only
  rw [closeLost_some lost monitor, spillInto_eq, out_lossClosed, putOut_lossClosed]
  rfl

theorem placeAfterLoss_spills (lost : (c.out g).lost = some r) (monitor : c.cap.monitor = some m) (queue : (c.out g).queue ≠ [])
    (free : PageFree c.cap.writer) : c.placeAfterLoss g f =
      ⟨⟨c.hub.port, if framesIn (c.out g).queue = 0 then c.hub.orders.setNews c.cap.slot .spill else c.hub.orders⟩,
        lossClosed c.cap g m r false { c.out g with lost := none, queue := (c.out g).queue ++ [.lossMark, .page [f]] }⟩ := by
  unfold Cx.placeAfterLoss
  dsimp only
  rw [if_neg queue, if_pos (freePages_pos.2 free)]
  exact spillAfterLoss lost monitor

theorem placeAfterLoss_drops (queue : (c.out g).queue ≠ []) (full : ¬ PageFree c.cap.writer) :
    c.placeAfterLoss g f = c.dropFrame g f := by
  unfold Cx.placeAfterLoss
  dsimp only
  rw [if_neg queue, if_neg (mt freePages_pos.1 full)]

/-- The capture with the watch of a refused request set. -/
def watching (c : Cx) (g : Group) : Cx :=
  ⟨⟨c.hub.port.setWatch c.cap.slot (cursorSpan (c.out g)).addr, c.hub.orders⟩, c.cap⟩

theorem placeAfterLoss_waits (queue : (c.out g).queue = []) {v : Word} (state : Holds c.hub.port (cursorSpan (c.out g)).addr v)
    (ne : v ≠ 0) : c.placeAfterLoss g f =
      if 0 < c.cap.writer.freePages then
        let c1 := (watching c g).closeLost g false
        c1.spillInto g ((c1.out g).queue ++ [.lossMark, .page [f]])
      else (watching c g).dropFrame g f := by
  have answer := request_found (w := spanFilling) true state ne
  unfold Cx.placeAfterLoss
  dsimp only
  rw [if_pos queue, show (c.out g).span = cursorSpan (c.out g) from rfl, show spanEmpty = 0 from rfl, answer]
  rfl

theorem placeAfterLoss_waits_spills (lost : (c.out g).lost = some r) (monitor : c.cap.monitor = some m)
    (queue : (c.out g).queue = []) {v : Word} (state : Holds c.hub.port (cursorSpan (c.out g)).addr v) (ne : v ≠ 0)
    (free : PageFree c.cap.writer) : c.placeAfterLoss g f =
      ⟨⟨c.hub.port.setWatch c.cap.slot (cursorSpan (c.out g)).addr,
          if framesIn (c.out g).queue = 0 then c.hub.orders.setNews c.cap.slot .spill else c.hub.orders⟩,
        lossClosed c.cap g m r false { c.out g with lost := none, queue := (c.out g).queue ++ [.lossMark, .page [f]] }⟩ := by
  rw [placeAfterLoss_waits queue state ne, if_pos (freePages_pos.2 free)]
  exact spillAfterLoss (c := watching c g) lost monitor

theorem placeAfterLoss_waits_drops (queue : (c.out g).queue = []) {v : Word}
    (state : Holds c.hub.port (cursorSpan (c.out g)).addr v) (ne : v ≠ 0) (full : ¬ PageFree c.cap.writer) :
    c.placeAfterLoss g f = (watching c g).dropFrame g f := by
  rw [placeAfterLoss_waits queue state ne, if_neg (mt freePages_pos.1 full)]

end

/-! ## A span opened for one frame -/

/-- The port after a span has been given and opened for a frame that does not fill it. -/
def firstFramePort (p : Port) (d : SpanDesc) (loss : Bool) (f : Frame) : Port :=
  framePort (openPort (p.store d.addr 1) d loss f) d ⟨0, 0, loss⟩ f

/-- What it shows, and what else of the memory it leaves (R185). -/
theorem firstFramePort_spec {p : Port} (h : Memory.wf p.mem = true) {d : SpanDesc} (loss : Bool) {f : Frame}
    (apart : Apart (d.addr, 32) (d.buffer, 4 * f.words.length)) :
    let q := firstFramePort p d loss f
    Shows q d 1 (4 * f.words.length) 1 f.index f.position (lossFlag loss) ∧ FramesIn q d.buffer (4 * f.words.length) [f] ∧
    Wrote p q [(d.buffer, 4 * f.words.length), (d.addr, 4), (d.addr + 0x0C, 20)] := by
  have w0 := portWf_store h d.addr 1
  have started := openPort_wrote (p.store d.addr 1) d loss f
  have w1 := started.wf w0
  have shown := (openPort_shows h d loss f 1).frame (sp := ⟨0, 0, loss⟩) (f := f) w1 apart
  have frames := (framesIn_nil (openPort (p.store d.addr 1) d loss f) d.buffer (4 * f.words.length)).frame w1 (d := d)
    (sp := ⟨0, 0, loss⟩) (f := f) (by simp) (by simp) (by simpa using apart)
  refine ⟨by simpa [firstFramePort] using shown, frames, ?_⟩
  refine (((wrote_store p d.addr 1).trans started).trans (framePort_wrote _ d ⟨0, 0, loss⟩ f)).cover fun a ha => ?_
  simp only [outside_append, outside_cons, outside_nil, and_true] at ha ⊢
  omega

theorem opened_fits {c : Cx} {g : Group} {f : Frame} (fits : 4 * f.words.length < (cursorSpan (c.out g)).capacity) :
    (opened c g f).writeFrame g f =
      ⟨⟨firstFramePort c.hub.port (cursorSpan (c.out g)) (c.out g).afterLoss f, c.hub.orders⟩,
        putOut c.cap g { c.out g with filling := some ⟨4 * f.words.length, 1, (c.out g).afterLoss⟩, afterLoss := false }⟩ :=
  opened_writeFrame_fits fits

/-! ## PLACE_FRAME -/

/-- The capture of a state with the oldest released frame of a group taken. -/
def released (s : State) (cap : Capture) (g : Group) (rest : List Frame) : Cx :=
  ⟨s.hub, putOut cap g { cap.writer.groups.get g with arriving := rest }⟩

@[simp] theorem out_released (s : State) (cap : Capture) (g : Group) (rest : List Frame) :
    (released s cap g rest).out g = { cap.writer.groups.get g with arriving := rest } := out_putOut _ _ _ _

theorem placeFrame_idle {s : State} {cap : Capture} {g : Group} (h : Capturing s cap)
    (none : (cap.writer.groups.get g).arriving = []) : exec (.placeFrame g) s = .next s := by
  have idle : Cx.placeNext ⟨s.hub, cap⟩ g = ⟨s.hub, cap⟩ := by
    unfold Cx.placeNext
    rw [show (Cx.out ⟨s.hub, cap⟩ g).arriving = [] from none]
  exact (captureStep_ok h (·.placeNext g)).trans (by rw [idle, setCx_self h.2])

/-- PLACE_FRAME places the oldest released frame, and changes what a step of a capture may change. -/
theorem placeFrame_places {s : State} {cap : Capture} {g : Group} (h : Capturing s cap) {f : Frame} {rest : List Frame}
    (arriving : (cap.writer.groups.get g).arriving = f :: rest) :
    exec (.placeFrame g) s = .next (s.setCx ((released s cap g rest).placeOne g f)) ∧
    CaptureFrame s (s.setCx ((released s cap g rest).placeOne g f)) := by
  have next : Cx.placeNext ⟨s.hub, cap⟩ g = (released s cap g rest).placeOne g f := by
    unfold Cx.placeNext
    rw [show (Cx.out ⟨s.hub, cap⟩ g).arriving = f :: rest from arriving]
    rfl
  refine ⟨(captureStep_ok h (·.placeNext g)).trans (by rw [next]), captureFrame_of_kept (cap := cap) ?_⟩
  rw [← next]
  exact kept_placeNext _ g

/-- What a placing leaves, read off the capture it ends in. -/
theorem placeFrame_exact {s : State} {cap : Capture} {g : Group} (h : Capturing s cap) {f : Frame} {rest : List Frame}
    (arriving : (cap.writer.groups.get g).arriving = f :: rest) {p : Port} {u : OrderUnit} {x : Capture}
    (placed : (released s cap g rest).placeOne g f = ⟨⟨p, u⟩, x⟩) :
    exec (.placeFrame g) s = .next { s with port := p, orders := u, capture := some x } := by
  rw [(placeFrame_places h arriving).1, placed]
  rfl

theorem placeFrame_next {s : State} {cap : Capture} {g : Group} (h : Capturing s cap) {f : Frame} {rest : List Frame}
    (arriving : (cap.writer.groups.get g).arriving = f :: rest) {p : Port} {u : OrderUnit} {x : Capture}
    (placed : (released s cap g rest).placeOne g f = ⟨⟨p, u⟩, x⟩) :
    ∃ t, exec (.placeFrame g) s = .next t ∧ CaptureFrame s t ∧ t.port = p ∧ t.orders = u ∧ t.capture = some x := by
  obtain ⟨step, frame⟩ := placeFrame_places h arriving
  refine ⟨_, step, frame, ?_, ?_, ?_⟩ <;> rw [placed] <;> rfl

theorem pageFree_putOut {cap : Capture} {g : Group} {o : GroupOut} (h : o.queue = (cap.writer.groups.get g).queue) :
    PageFree (putOut cap g o).writer ↔ PageFree cap.writer := by
  cases g with
  | a => change pagesIn o.queue + _ < _ ↔ _; rw [h]; rfl
  | b => change _ + pagesIn o.queue < _ ↔ _; rw [h]; rfl

/-- The news of a frame spilled: SPILL where the queue held no frame (R188). -/
def spillNews (orders : OrderUnit) (n : SlotNo) (q : List SpillItem) : OrderUnit :=
  if framesIn q = 0 then orders.setNews n .spill else orders

section

variable {s : State} {cap : Capture} {g : Group} {f : Frame} {rest : List Frame} {o : GroupOut} {d : SpanDesc}
  (same : cap.writer.groups.get g = o) (span : cursorSpan o = d)

include same span

theorem span_released : cursorSpan ((released s cap g rest).out g) = d := by rw [out_released, same]; exact span

omit span in
theorem lost_released : ((released s cap g rest).out g).lost = o.lost := by rw [out_released, same]

omit span in
theorem queue_released : ((released s cap g rest).out g).queue = o.queue := by rw [out_released, same]

omit span in
theorem filling_released : ((released s cap g rest).out g).filling = o.filling := by rw [out_released, same]

/-! ### No LOST record is open -/

section

variable (lost : o.lost = none)

include lost

theorem released_fits (queue : o.queue = []) {sp : OpenSpan} (filling : o.filling = some sp)
    (fits : sp.fill + 4 * f.words.length < d.capacity) : (released s cap g rest).placeOne g f =
      ⟨⟨framePort s.port d sp f, s.orders⟩, putOut cap g { o with arriving := rest, filling := some (moreFrames sp f) }⟩ := by
  have filling' := (filling_released same (s := s) (rest := rest)).trans filling
  rw [placeOne_writes ((lost_released same).trans lost) ((queue_released same).trans queue) filling',
    writeFrame_fits filling' (by rw [span_released same span]; exact fits), framed, span_released same span, out_released, same]
  simp only [released, putOut_putOut]
  rfl

theorem released_fills (mem : MemoryCanonical s) (queue : o.queue = []) {sp : OpenSpan} (filling : o.filling = some sp)
    (fills : d.capacity ≤ sp.fill + 4 * f.words.length)
    (apart : Apart (d.addr, 32) (d.buffer + sp.fill, 4 * f.words.length)) (state : Stored s d.addr 1) :
    (released s cap g rest).placeOne g f =
      ⟨⟨(framePort s.port d sp f).store d.addr 2, s.orders.setNews cap.slot (spanCause g)⟩,
        putOut cap g { o with arriving := rest, filling := none, cursor := (o.cursor + 1) % o.spans.length }⟩ := by
  have filling' := (filling_released same (s := s) (rest := rest)).trans filling
  have span' := span_released same span (s := s) (rest := rest)
  rw [placeOne_writes ((lost_released same).trans lost) ((queue_released same).trans queue) filling',
    writeFrame_fills filling' mem (by rw [span']; exact fills) (by rw [span']; exact apart) (by rw [span']; exact state),
    span', out_released, same]
  simp only [released, putOut_putOut]
  rfl

theorem released_opens (queue : o.queue = []) (filling : o.filling = none) (state : Stored s d.addr 0)
    (fits : 4 * f.words.length < d.capacity) : (released s cap g rest).placeOne g f =
      ⟨⟨firstFramePort s.port d o.afterLoss f, s.orders⟩, putOut cap g { o with
        arriving := rest, filling := some ⟨4 * f.words.length, 1, o.afterLoss⟩, afterLoss := false }⟩ := by
  have span' := span_released same span (s := s) (rest := rest)
  rw [placeOne_opens ((lost_released same).trans lost) ((queue_released same).trans queue) ((filling_released same).trans filling)
    (by rw [span']; exact state), opened_fits (by rw [span']; exact fits), span', out_released, same]
  simp only [released, putOut_putOut]
  rfl

omit same span in
/-- A frame spilled behind an empty queue, whatever the port (R188). -/
theorem spills_first {h : Hub} (queue : o.queue = []) : 
    (PageFree (putOut cap g o).writer → Cx.spillOrDrop ⟨h, putOut cap g o⟩ g f =
      ⟨⟨h.port, h.orders.setNews cap.slot .spill⟩, putOut cap g { o with queue := [.page [f]] }⟩) ∧
    (¬ PageFree (putOut cap g o).writer → Cx.spillOrDrop ⟨h, putOut cap g o⟩ g f =
      ⟨⟨h.port.store (lostWord cap g) (word (min 4294967295 (o.samplesLost + 1))), h.orders.setNews cap.slot .lost⟩,
        putOut cap g (loseOne o ⟨f.index, 1, f.block, f.position⟩)⟩) := by
  have out := out_putOut h cap g o
  have noPage : appendLast (4096 / frameSize cap.params g) f (Cx.out ⟨h, putOut cap g o⟩ g).queue = none := by rw [out, queue]; rfl
  refine ⟨fun free => ?_, fun full => ?_⟩
  · rw [spillOrDrop_page noPage free, spillInto_eq, out, queue, if_pos (show framesIn [] = 0 from rfl), List.nil_append, putOut_putOut]
    rfl
  · rw [spillOrDrop_drops noPage full, dropFrame_opens (by rw [out]; exact lost), out, putOut_putOut]
    rfl

theorem released_waits (queue : o.queue = []) (filling : o.filling = none) {v : Word} (state : Stored s d.addr v) (ne : v ≠ 0) :
    (PageFree cap.writer → (released s cap g rest).placeOne g f =
      ⟨⟨s.port.setWatch cap.slot d.addr, s.orders.setNews cap.slot .spill⟩,
        putOut cap g { o with arriving := rest, queue := [.page [f]] }⟩) ∧
    (¬ PageFree cap.writer → (released s cap g rest).placeOne g f =
      ⟨⟨(s.port.setWatch cap.slot d.addr).store (lostWord cap g) (word (min 4294967295 (o.samplesLost + 1))),
        s.orders.setNews cap.slot .lost⟩,
        putOut cap g (loseOne { o with arriving := rest } ⟨f.index, 1, f.block, f.position⟩)⟩) := by
  have span' := span_released same span (s := s) (rest := rest)
  rw [placeOne_waits ((lost_released same).trans lost) ((queue_released same).trans queue) ((filling_released same).trans filling)
    (by rw [span']; exact state) ne, span', ← pageFree_putOut (o := { o with arriving := rest }) (g := g) (by rw [same])]
  subst same
  exact spills_first (o := { cap.writer.groups.get g with arriving := rest }) lost queue

theorem released_unread (queue : o.queue = []) (filling : o.filling = none)
    (state : eccAt s.port.ecc d.addr = some .uncorrectable) (free : PageFree cap.writer) :
    (released s cap g rest).placeOne g f =
      ⟨⟨({ s.port with uncorrected := true } : Port).setWatch cap.slot d.addr,
        (s.orders.setNews cap.slot .memoryFault).setNews cap.slot .spill⟩,
        putOut cap g { o with arriving := rest, queue := [.page [f]] }⟩ := by
  have span' := span_released same span (s := s) (rest := rest)
  rw [placeOne_unread ((lost_released same).trans lost) ((queue_released same).trans queue) ((filling_released same).trans filling)
    (by rw [span']; exact state), span']
  rw [← pageFree_putOut (o := { o with arriving := rest }) (g := g) (by rw [same])] at free
  subst same
  exact (spills_first (o := { cap.writer.groups.get g with arriving := rest }) lost queue).1 free

omit span in
theorem released_joins {pre : List SpillItem} {fs : List Frame} (queue : o.queue = pre ++ [.page fs])
    (room : fs.length < 4096 / frameSize cap.params g) : (released s cap g rest).placeOne g f =
      ⟨⟨s.port, spillNews s.orders cap.slot o.queue⟩,
        putOut cap g { o with arriving := rest, queue := pre ++ [.page (fs ++ [f])] }⟩ := by
  have queue' := (queue_released same (s := s) (rest := rest)).trans queue
  rw [placeOne_queued ((lost_released same).trans lost) (by rw [queue']; simp),
    spillOrDrop_joins (by rw [queue']; exact appendLast_page f pre room), spillInto_eq, out_released, same]
  simp only [released, putOut_putOut]
  rfl

omit span in
theorem released_queued {pre : List SpillItem} {i : SpillItem} (queue : o.queue = pre ++ [i])
    (closed : i = .lossMark ∨ ∃ fs, i = .page fs ∧ 4096 / frameSize cap.params g ≤ fs.length) :
    (PageFree cap.writer → (released s cap g rest).placeOne g f =
      ⟨⟨s.port, spillNews s.orders cap.slot o.queue⟩, putOut cap g { o with arriving := rest, queue := pre ++ [i, .page [f]] }⟩) ∧
    (¬ PageFree cap.writer → (released s cap g rest).placeOne g f =
      ⟨⟨s.port.store (lostWord cap g) (word (min 4294967295 (o.samplesLost + 1))), s.orders.setNews cap.slot .lost⟩,
        putOut cap g (loseOne { o with arriving := rest } ⟨f.index, 1, f.block, f.position⟩)⟩) := by
  have queue' := (queue_released same (s := s) (rest := rest)).trans queue
  have noPage : appendLast (4096 / frameSize cap.params g) f ((released s cap g rest).out g).queue = none := by
    rw [queue']; exact appendLast_closed f pre closed
  rw [placeOne_queued ((lost_released same).trans lost) (by rw [queue']; simp),
    ← pageFree_putOut (o := { o with arriving := rest }) (g := g) (by rw [same])]
  rw [show pre ++ [i, .page [f]] = o.queue ++ [.page [f]] by rw [queue, List.append_assoc]; rfl]
  subst same
  refine ⟨fun free => ?_, fun full => ?_⟩
  · rw [spillOrDrop_page noPage free, spillInto_eq, out_released]
    simp only [released, putOut_putOut]
    rfl
  · rw [spillOrDrop_drops noPage full, dropFrame_opens ((lost_released rfl).trans lost), out_released]
    simp only [released, putOut_putOut]
    rfl

end

/-! ### A LOST record is open (R190) -/

section

variable {r : LostRec} {m : LaneMonitor} (lost : o.lost = some r) (monitor : cap.monitor = some m)

include lost

theorem lost_opens (monitor : cap.monitor = some m) (queue : o.queue = []) (state : Stored s d.addr 0)
    (fits : 4 * f.words.length < d.capacity) :
    (released s cap g rest).placeOne g f = ⟨⟨firstFramePort s.port d true f, s.orders⟩, lossClosed cap g m r false { o with
      arriving := rest, lost := none, filling := some ⟨4 * f.words.length, 1, true⟩, afterLoss := false }⟩ := by
  have lost' := (lost_released same (s := s) (rest := rest)).trans lost
  have span' := span_released same span (s := s) (rest := rest)
  rw [placeOne_lost lost', placeAfterLoss_opens lost' monitor ((queue_released same).trans queue) (by rw [span']; exact state),
    opened_fits (by rw [out_lossClosed]; exact (congrArg SpanDesc.capacity span').symm ▸ fits), out_lossClosed, out_released, same,
    putOut_lossClosed]
  subst span
  simp only [released, lossClosed_putOut]
  rfl

omit span in
/-- A free page: the record closes and the frame is spilled behind a loss mark. -/
theorem lost_queued (queue : o.queue ≠ []) :
    (∀ m, cap.monitor = some m → PageFree cap.writer → (released s cap g rest).placeOne g f =
      ⟨⟨s.port, spillNews s.orders cap.slot o.queue⟩,
        lossClosed cap g m r false { o with arriving := rest, lost := none, queue := o.queue ++ [.lossMark, .page [f]] }⟩) ∧
    (¬ PageFree cap.writer → (released s cap g rest).placeOne g f =
      ⟨⟨s.port.store (lostWord cap g) (word (min 4294967295 (o.samplesLost + 1))), s.orders⟩,
        putOut cap g (loseOne { o with arriving := rest } { r with length := upTo 4294967295 r.length })⟩) := by
  have lost' := (lost_released same (s := s) (rest := rest)).trans lost
  have queue' : ((released s cap g rest).out g).queue ≠ [] := by rw [queue_released same]; exact queue
  rw [placeOne_lost lost', ← pageFree_putOut (o := { o with arriving := rest }) (g := g) (by rw [same])]
  subst same
  refine ⟨fun m monitor free => ?_, fun full => ?_⟩
  · rw [placeAfterLoss_spills lost' monitor queue' free, out_released]
    simp only [released, lossClosed_putOut]
    rfl
  · rw [placeAfterLoss_drops queue' full, dropFrame_grows lost', out_released]
    simp only [released, putOut_putOut]
    rfl

theorem lost_waits (queue : o.queue = []) {v : Word} (state : Stored s d.addr v) (ne : v ≠ 0) :
    (∀ m, cap.monitor = some m → PageFree cap.writer → (released s cap g rest).placeOne g f =
      ⟨⟨s.port.setWatch cap.slot d.addr, spillNews s.orders cap.slot o.queue⟩,
        lossClosed cap g m r false { o with arriving := rest, lost := none, queue := o.queue ++ [.lossMark, .page [f]] }⟩) ∧
    (¬ PageFree cap.writer → (released s cap g rest).placeOne g f =
      ⟨⟨(s.port.setWatch cap.slot d.addr).store (lostWord cap g) (word (min 4294967295 (o.samplesLost + 1))), s.orders⟩,
        putOut cap g (loseOne { o with arriving := rest } { r with length := upTo 4294967295 r.length })⟩) := by
  have lost' := (lost_released same (s := s) (rest := rest)).trans lost
  have queue' := (queue_released same (s := s) (rest := rest)).trans queue
  have span' := span_released same span (s := s) (rest := rest)
  have state' : Holds (released s cap g rest).hub.port (cursorSpan ((released s cap g rest).out g)).addr v := by
    rw [span']; exact state
  rw [placeOne_lost lost', ← pageFree_putOut (o := { o with arriving := rest }) (g := g) (by rw [same])]
  subst same
  refine ⟨fun m monitor free => ?_, fun full => ?_⟩
  · rw [placeAfterLoss_waits_spills lost' monitor queue' state' ne free, span', out_released]
    simp only [released, lossClosed_putOut]
    rfl
  · rw [placeAfterLoss_waits_drops queue' state' ne full, dropFrame_grows (c := watching (released s cap g rest) g) lost',
      show (watching (released s cap g rest) g).out g = (released s cap g rest).out g from rfl, watching, span', out_released]
    simp only [released, putOut_putOut]
    rfl

end

end

/-- Settles O57, by the case of R187 and R190 that applies. -/
theorem placeFrameByRoom : Obligations.PlaceFrameByRoom := by
  intro s cap g f rest h mem o d len room watched spanNews spillNews lost withOut
  refine ⟨placeFrame_idle h, fun arriving lost0 queue => ⟨?_, ?_, ?_, ?_⟩, fun arriving lost0 pre i queue => ⟨?_, ?_⟩, ?_⟩
  · intro sp filling inSpan apart wrote
    have inside : Apart (d.addr, 32) (d.buffer + sp.fill, 4 * f.words.length) := by
      simp only [Apart] at apart ⊢; omega
    have shown := framePort_shows mem (sp := sp) inside
    have writes := framePort_wrote s.port d sp f
    refine ⟨fun fits => ?_, fun fills full => ?_⟩
    · obtain ⟨t, step, frame, port, orders, capture⟩ :=
        placeFrame_next h arriving (released_fits (d := d) rfl rfl lost0 queue filling fits)
      rw [← port] at shown writes
      exact ⟨t, step, frame, orders, shown, capture, writes.keepsOutside mem fun _ h => h⟩
    · obtain ⟨t, step, frame, port, orders, capture⟩ :=
        placeFrame_next h arriving (released_fills (d := d) rfl rfl lost0 mem queue filling fills.ge inside full)
      have wf := writes.wf mem
      have closes := writes.trans (wrote_store _ d.addr 2)
      have state := holds_store wf d.addr 2
      obtain ⟨words, fill, frames⟩ := shown
      simp only [Apart] at inside
      have words' : ∀ (i : Nat) (w : Word), f.words[i]? = some w → Holds t.port (d.buffer + sp.fill + 4 * i) w := fun i w hi => by
        have bound : i < f.words.length := (List.getElem?_eq_some_iff.1 hi).1
        rw [port]
        exact (words i w hi).store wf (by simp only [Apart]; omega)
      have fill' := fill.store wf (b := d.addr) (w := 2) (by simp only [Apart]; omega)
      have frames' := frames.store wf (b := d.addr) (w := 2) (by simp only [Apart]; omega)
      rw [← port] at fill' frames' closes state
      refine ⟨t, step, frame, ⟨words', fill', frames'⟩, orders.trans (by cases g <;> rfl), state, capture, ?_⟩
      refine closes.keepsOutside mem fun a ha => ?_
      simp only [outside_append, outside_cons, outside_nil, and_true] at ha ⊢
      omega
  · intro filling empty fits apart
    obtain ⟨t, step, frame, port, orders, capture⟩ :=
      placeFrame_next h arriving (released_opens (d := d) rfl rfl lost0 queue filling empty fits)
    obtain ⟨shown, frames, writes⟩ := firstFramePort_spec mem o.afterLoss (f := f) (d := d) (by
      simp only [Apart] at apart ⊢; omega)
    rw [← port] at shown frames writes
    exact ⟨t, step, frame, orders, capture, shown, frames, writes.keepsOutside mem fun _ h => h⟩
  · intro w filling state ne
    obtain ⟨spills, drops⟩ := released_waits (o := o) (d := d) (f := f) (rest := rest) rfl rfl lost0 queue filling state ne
    refine ⟨fun free => ?_, fun full => ?_⟩
    · obtain ⟨t, step, frame, port, orders, capture⟩ := placeFrame_next h arriving (spills free)
      exact ⟨t, step, frame, by rw [port]; rfl, capture, congrArg Port.guard port, orders⟩
    · obtain ⟨t, step, frame, port, orders, capture⟩ := placeFrame_next h arriving (drops full)
      have counted := holds_store (p := s.port.setWatch cap.slot d.addr) mem (lostWord cap g) (word (min 4294967295 (o.samplesLost + 1)))
      have writes := wrote_store (s.port.setWatch cap.slot d.addr) (lostWord cap g) (word (min 4294967295 (o.samplesLost + 1)))
      rw [← port] at counted writes
      exact ⟨t, step, frame, writes.guard, capture, counted, writes.bytes mem, orders⟩
  · intro filling unread free
    exact placeFrame_exact h arriving (released_unread (d := d) rfl rfl lost0 queue filling unread free)
  · rintro fs rfl fits
    exact placeFrame_exact h arriving (released_joins rfl lost0 queue fits)
  · intro closed
    obtain ⟨spills, drops⟩ := released_queued (f := f) (rest := rest) rfl lost0 queue closed
    exact ⟨fun free => placeFrame_exact h arriving (spills free), fun full => placeFrame_exact h arriving (drops full)⟩
  · intro r m arriving lost1 monitor closed grown behind
    refine ⟨fun queue empty fits apart => ?_, fun w queue state ne => ?_, fun queue => ?_⟩
    · obtain ⟨t, step, frame, port, orders, capture⟩ :=
        placeFrame_next h arriving (lost_opens (d := d) rfl rfl lost1 monitor queue empty fits)
      obtain ⟨shown, frames, writes⟩ := firstFramePort_spec mem true (f := f) (d := d) (by
        simp only [Apart] at apart ⊢; omega)
      rw [← port] at shown frames writes
      exact ⟨t, step, frame, orders, capture, shown, frames, writes.keepsOutside mem fun _ h => h⟩
    · obtain ⟨spills, drops⟩ := lost_waits (d := d) (f := f) (rest := rest) rfl rfl lost1 queue state ne
      exact ⟨fun free => placeFrame_exact h arriving (spills m monitor free),
        fun full => placeFrame_exact h arriving (drops full)⟩
    · obtain ⟨spills, drops⟩ := lost_queued (f := f) (rest := rest) rfl lost1 queue
      exact ⟨fun free => placeFrame_exact h arriving (spills m monitor free),
        fun full => placeFrame_exact h arriving (drops full)⟩

end Sys2Proof.TransferMemory
end

section
/-! PROOFS. The record lists (10, R192, R193, R196): the room of a list, a record placed, repair records placed while there
is room. -/

namespace Sys2Proof.TransferMemory

open Machine Safety Laws

/-! ## News set twice (R42) -/

theorem setNews_setNews (o : OrderUnit) (n : SlotNo) (k : Cause) : (o.setNews n k).setNews n k = o.setNews n k := by
  by_cases idle : (o.slot n).state = .free ∨ (o.slot n).state = .posted
  · rw [setNews_idle idle, setNews_idle idle]
  · rw [not_or] at idle
    have once := setNews_live (c := k) idle.1 idle.2
    have slot : (o.setNews n k).slot n = { o.slot n with news := (o.slot n).news ||| causeMask k } := by
      rw [once]
      exact OrderUnit.setSlot_slot_self _ _ _
    rw [setNews_live (by rw [slot]; exact idle.1) (by rw [slot]; exact idle.2), slot, once]
    have news : (o.slot n).news ||| causeMask k ||| causeMask k = (o.slot n).news ||| causeMask k := by
      rw [BitVec.or_assoc, BitVec.or_self]
    have slots : ∀ (v : Vector SlotRec 32) (r : SlotRec), setAt (setAt v n r) n r = setAt v n r := fun v r => by
      simp [setAt]
    have summary : o.summary ||| slotMask n ||| slotMask n = o.summary ||| slotMask n := by
      rw [BitVec.or_assoc, BitVec.or_self]
    simp only [OrderUnit.setSlot, slots, news]
    split
    · rw [summary]
    · rfl

/-! ## The room of a list (R192) -/

/-- A list past the order table, with a clean released count and so many records not yet released (R192). -/
def RoomAt (p : Port) (l : RecList) (k : Nat) : Prop :=
  0x2000 ≤ l.header ∧ eccAt p.ecc (l.header + 8) = none ∧ (l.written - readMemWord p.mem (l.header + 8)).toNat = k

theorem outstanding_iff {s : State} {l : RecList} {k : Nat} : Outstanding s l k ↔ RoomAt s.port l k := Iff.rfl

theorem Wrote.roomAt {p q : Port} {R : List (Nat × Nat)} (h : Wrote p q R) (w : Memory.wf p.mem = true) {l : RecList} {k : Nat}
    (room : RoomAt p l k) (apart : ∀ r ∈ R, Apart (l.header + 8, 4) r) : RoomAt q l k := by
  obtain ⟨past, clean, count⟩ := room
  obtain ⟨same, clean'⟩ := h.holds w ⟨rfl, clean⟩ apart
  exact ⟨past, clean', by rw [same]; exact count⟩

theorem toNat_sub_succ {a b : Word} {k : Nat} (h : (a - b).toNat = k) (bound : k + 1 < 4294967296) : (a + 1 - b).toNat = k + 1 := by
  bv_omega

theorem RoomAt.advance {p : Port} {l : RecList} {k : Nat} (h : RoomAt p l k) (bound : k + 1 < 4294967296) :
    RoomAt p l.advance (k + 1) := ⟨h.1, h.2.1, toNat_sub_succ h.2.2 bound⟩

/-- A list whose released count is in order (R192). -/
theorem room_within {c : Cx} {id : ListId} {k : Nat} (h : RoomAt c.hub.port (c.cap.writer.list id) k)
    (within : k ≤ (c.cap.writer.list id).capacity) : c.room id = ((c.cap.writer.list id).capacity - k, c) := by
  obtain ⟨-, clean, count⟩ := h
  unfold Cx.room
  dsimp only
  rw [checkedRead_clean clean]
  dsimp only
  rw [count, if_pos within]

/-- More records outstanding than the list holds: full room, LIST_FULL, the fault flag (R192). -/
theorem room_over {c : Cx} {id : ListId} {k : Nat} (h : RoomAt c.hub.port (c.cap.writer.list id) k)
    (more : (c.cap.writer.list id).capacity < k) : c.room id = ((c.cap.writer.list id).capacity,
      ⟨⟨c.hub.port.store (slotBase c.cap.slot + 0x28) (c.cap.writer.setFault id).flagsWord, c.hub.orders.setNews c.cap.slot .listFull⟩,
        { c.cap with writer := c.cap.writer.setFault id }⟩) := by
  obtain ⟨-, clean, count⟩ := h
  unfold Cx.room
  dsimp only
  rw [checkedRead_clean clean]
  dsimp only
  rw [count, if_neg (Nat.not_le.2 more)]
  rfl

/-- An unreadable released count: no room, MEMORY_FAULT and a watch (R8, R192). -/
theorem room_unread {c : Cx} {id : ListId} (h : eccAt c.hub.port.ecc ((c.cap.writer.list id).header + 8) = some .uncorrectable) :
    c.room id = (0, ⟨⟨({ c.hub.port with uncorrected := true } : Port).setWatch c.cap.slot ((c.cap.writer.list id).header + 8),
      c.hub.orders.setNews c.cap.slot .memoryFault⟩, c.cap⟩) := by
  unfold Cx.room
  dsimp only
  rw [checkedRead_uncorrectable h]
  rfl

theorem setWatch_setWatch (p : Port) (n : SlotNo) (a : Nat) : (p.setWatch n a).setWatch n a = p.setWatch n a := by
  have same : ∀ l : List GuardEntry, (l.map fun e => if e.slot = n ∧ e.addr = a then { e with watch := true } else e).map
      (fun e => if e.slot = n ∧ e.addr = a then { e with watch := true } else e) =
      l.map fun e => if e.slot = n ∧ e.addr = a then { e with watch := true } else e := fun l => by
    rw [List.map_map]
    refine List.map_congr_left fun e _ => ?_
    by_cases he : e.slot = n ∧ e.addr = a <;> simp [he]
  simp only [Port.setWatch, same]

/-! ## A record placed (R193) -/

/-- The place of the next record of a list. -/
def nextPlace (l : RecList) (size : Nat) : Nat := l.header + 16 + size * (l.written.toNat % l.capacity)

/-- The port after a record has been placed and its progress word written (R193, R180). -/
def recordPort (p : Port) (l : RecList) (ws : List Word) (a : Nat) (v : Word) : Port := (p.placeRecord l ws).store a v

/-- What a placed record shows, and what else of the memory it leaves (R193). -/
theorem recordPort_spec {p : Port} (h : Memory.wf p.mem = true) {l : RecList} (past : 0x2000 ≤ l.header) (ws : List Word) {a : Nat}
    (below : a + 4 ≤ 0x2000) (v : Word) :
    let q := recordPort p l ws a v
    (∀ (i : Nat) (w : Word), ws[i]? = some w → Holds q (nextPlace l (4 * ws.length) + 4 * i) w) ∧
    Holds q (l.header + 4) (l.written + 1) ∧ Holds q a v ∧
    Wrote p q [(nextPlace l (4 * ws.length), 4 * ws.length), (l.header + 4, 4), (a, 4)] := by
  have place : l.header + 16 ≤ nextPlace l (4 * ws.length) := Nat.le_add_right _ _
  have w1 := portWf_storeWords h (nextPlace l (4 * ws.length)) ws
  have w2 := portWf_store w1 (l.header + 4) (l.written + 1)
  refine ⟨fun i w hi => ?_, ?_, holds_store w2 a v, ((wrote_storeWords p _ ws).store _ _).store _ _⟩
  · refine ((holds_storeWords h _ hi).store w1 ?_).store w2 ?_ <;> simp only [Apart] <;> omega
  · exact (holds_store w1 _ _).store w2 (by simp only [Apart]; omega)

/-- A repair record placed: the port (R193, R196). -/
def repairPort (p : Port) (n : SlotNo) (w : Writer) (r : RepairRec) : Port :=
  recordPort p w.repairList r.words (slotBase n + 0x60) (word (upTo 4294967295 w.repairWritten))

/-- A repair record placed: the writer. -/
def Repaired (w : Writer) : Writer :=
  { w with repairList := w.repairList.advance, repairWritten := upTo 4294967295 w.repairWritten }

theorem writeRepair_eq (c : Cx) (r : RepairRec) : c.writeRepair r =
    ⟨⟨repairPort c.hub.port c.cap.slot c.cap.writer r, c.hub.orders.setNews c.cap.slot .repair⟩,
      { c.cap with writer := Repaired c.cap.writer }⟩ := rfl

theorem slotBase_lt (n : SlotNo) : slotBase n + 0x100 ≤ 0x2000 := by
  have := n.isLt
  unfold slotBase
  omega

theorem length_words (r : RepairRec) : r.words.length = 8 := rfl

theorem repairPort_spec {p : Port} (h : Memory.wf p.mem = true) (n : SlotNo) {w : Writer} (past : 0x2000 ≤ w.repairList.header)
    (r : RepairRec) :
    let q := repairPort p n w r
    (∀ (i : Nat) (v : Word), r.words[i]? = some v → Holds q (nextPlace w.repairList 32 + 4 * i) v) ∧
    Holds q (w.repairList.header + 4) (w.repairList.written + 1) ∧
    Holds q (slotBase n + 0x60) (word (upTo 4294967295 w.repairWritten)) ∧
    Wrote p q [(nextPlace w.repairList 32, 32), (w.repairList.header + 4, 4), (slotBase n + 0x60, 4)] :=
  recordPort_spec h past r.words (by have := slotBase_lt n; omega) _

theorem length_mapWords (m : MapRec) (k : Nat) : (m.words k).length = 16 := by
  have ratios : ∀ g, (mapRatios g).length = 3 := fun g => by cases g <;> rfl
  simp [MapRec.words, ratios]

/-- A speed map record placed: the port (R193, R195). -/
def mapPort (p : Port) (n : SlotNo) (w : Writer) (m : MapRec) : Port :=
  recordPort p w.mapList (m.words w.mapWritten) (slotBase n + 0x5C) (word (upTo 4294967295 w.mapWritten))

/-- A speed map record placed: the writer. -/
def Mapped (w : Writer) : Writer :=
  { w with mapList := w.mapList.advance, mapWritten := upTo 4294967295 w.mapWritten, map := none, mapPending := false }

theorem writeMap_eq (c : Cx) (m : MapRec) : c.writeMap m =
    ⟨⟨mapPort c.hub.port c.cap.slot c.cap.writer m, c.hub.orders.setNews c.cap.slot .speedMap⟩,
      { c.cap with writer := Mapped c.cap.writer }⟩ := rfl

theorem mapPort_spec {p : Port} (h : Memory.wf p.mem = true) (n : SlotNo) {w : Writer} (past : 0x2000 ≤ w.mapList.header)
    (m : MapRec) :
    let q := mapPort p n w m
    (∀ (i : Nat) (v : Word), (m.words w.mapWritten)[i]? = some v → Holds q (nextPlace w.mapList 64 + 4 * i) v) ∧
    Holds q (w.mapList.header + 4) (w.mapList.written + 1) ∧
    Holds q (slotBase n + 0x5C) (word (upTo 4294967295 w.mapWritten)) ∧
    Wrote p q [(nextPlace w.mapList 64, 64), (w.mapList.header + 4, 4), (slotBase n + 0x5C, 4)] := by
  have spec := recordPort_spec h past (m.words w.mapWritten) (a := slotBase n + 0x5C) (by have := slotBase_lt n; omega)
    (word (upTo 4294967295 w.mapWritten))
  rw [length_mapWords] at spec
  exact spec

/-! ## Repair records placed while there is room (R196) -/

theorem placeRepairs_stops {c d : Cx} {r : RepairRec} {rest : List RepairRec} (h : c.room .repair = (0, d)) :
    c.placeRepairs (r :: rest) = (r :: rest, d) := by
  unfold Cx.placeRepairs
  rw [h]
  rfl

theorem placeRepairs_places {c d : Cx} {k : Nat} (r : RepairRec) (rest : List RepairRec) (h : c.room .repair = (k, d)) (ne : k ≠ 0) :
    c.placeRepairs (r :: rest) = (d.writeRepair r).placeRepairs rest := by
  rw [Cx.placeRepairs, h]
  exact if_neg ne

/-- The writer after so many repair records have been placed. -/
def repairedBy (w : Writer) (count : Nat) : Writer :=
  { w with
    repairList := { w.repairList with written := w.repairList.written + BitVec.ofNat 32 count }
    repairWritten := min 4294967295 (w.repairWritten + count) }

/-- Repair records placed one behind the other, the written count after them, in a port's memory (R193). -/
def RepairsIn (p : Port) (l : RecList) (rs : List RepairRec) : Prop :=
  (∀ (i j : Nat) (r : RepairRec) (v : Word), rs[i]? = some r → r.words[j]? = some v → Holds p (repairPlace l i + 4 * j) v) ∧
  (rs ≠ [] → Holds p (l.header + 4) (l.written + BitVec.ofNat 32 rs.length))

theorem repairsIn_iff {t : State} {l : RecList} {rs : List RepairRec} : RepairsIn t.port l rs ↔ RepairsPlaced t l rs := Iff.rfl

theorem repairPlace_zero (l : RecList) : repairPlace l 0 = nextPlace l 32 := rfl

theorem repairPlace_advance {l : RecList} (bound : l.written.toNat + 1 < 4294967296) (i : Nat) :
    repairPlace l.advance i = repairPlace l (i + 1) := by
  have next : (l.written + 1).toNat = l.written.toNat + 1 := by bv_omega
  change l.header + 16 + 32 * (((l.written + 1).toNat + i) % l.capacity) = _
  rw [next, repairPlace, Nat.add_assoc l.written.toNat 1 i, Nat.add_comm 1 i]

theorem repairPlace_le (l : RecList) (i : Nat) : l.header + 16 ≤ repairPlace l i := Nat.le_add_right _ _

/-- Two places less than a capacity apart share no byte. -/
theorem repairPlace_apart {l : RecList} {i : Nat} (hi : 0 < i) (lt : i < l.capacity) :
    Apart (repairPlace l 0, 32) (repairPlace l i, 32) := by
  have differ : (l.written.toNat + 0) % l.capacity ≠ (l.written.toNat + i) % l.capacity := fun e => by
    have zero : 0 ≡ i [MOD l.capacity] := Nat.ModEq.add_left_cancel' l.written.toNat e
    rw [Nat.ModEq, Nat.zero_mod, Nat.mod_eq_of_lt lt] at zero
    omega
  simp only [Apart, repairPlace]
  omega

theorem mem_repairRanges {n : SlotNo} {l : RecList} {count : Nat} {r : Nat × Nat} (h : r ∈ repairRanges n l count) :
    r = (slotBase n + 0x60, 4) ∨ r = (l.header + 4, 4) ∨ ∃ i < count, r = (repairPlace l i, 32) := by
  unfold repairRanges at h
  split at h
  · simp at h
  · simp only [List.cons_append, List.nil_append, List.mem_cons, List.mem_map, List.mem_range] at h
    rcases h with h | h | ⟨i, hi, h⟩
    · exact .inl h
    · exact .inr (.inl h)
    · exact .inr (.inr ⟨i, hi, h.symm⟩)

theorem upTo_min {k n : Nat} (h : n ≤ 4294967295) : min 4294967295 (upTo 4294967295 n + k) = min 4294967295 (n + (k + 1)) := by
  unfold upTo
  split <;> omega

theorem upTo_le {n : Nat} (h : n ≤ 4294967295) : upTo 4294967295 n ≤ 4294967295 := by
  unfold upTo
  split <;> omega

theorem repairedBy_zero {w : Writer} (h : w.repairWritten ≤ 4294967295) : repairedBy w 0 = w := by
  have sum : w.repairList.written + BitVec.ofNat 32 0 = w.repairList.written := BitVec.add_zero _
  simp only [repairedBy, sum, Nat.add_zero, Nat.min_eq_right h]

theorem repairedBy_repaired {w : Writer} (h : w.repairWritten ≤ 4294967295) (count : Nat) :
    repairedBy (Repaired w) count = repairedBy w (count + 1) := by
  have sum : w.repairList.written + 1 + BitVec.ofNat 32 count = w.repairList.written + BitVec.ofNat 32 (count + 1) := by
    rw [BitVec.ofNat_add, BitVec.add_assoc, BitVec.add_comm 1]
    rfl
  simp only [repairedBy, Repaired, RecList.advance, upTo_min h, sum]

/-- A record placed and then so many more: the ranges of all of them. -/
theorem outside_repairRanges_succ {n : SlotNo} {l : RecList} (bound : l.written.toNat + 1 < 4294967296) {count a : Nat}
    (h : Outside a (repairRanges n l (count + 1))) :
    Outside a [(nextPlace l 32, 32), (l.header + 4, 4), (slotBase n + 0x60, 4)] ∧ Outside a (repairRanges n l.advance count) := by
  have all : ∀ i < count + 1, a < repairPlace l i ∨ repairPlace l i + 32 ≤ a := fun i hi =>
    h (repairPlace l i, 32) (by
      rw [repairRanges, if_neg (Nat.succ_ne_zero count)]
      exact List.mem_append_right _ (List.mem_map.2 ⟨i, List.mem_range.2 hi, rfl⟩))
  have list := h (l.header + 4, 4) (by simp [repairRanges])
  have count0 := h (slotBase n + 0x60, 4) (by simp [repairRanges])
  constructor
  · simp only [outside_cons, outside_nil, and_true]
    exact ⟨all 0 (by omega), list, count0⟩
  · intro x hx
    rcases mem_repairRanges hx with rfl | rfl | ⟨i, hi, rfl⟩
    · exact count0
    · exact list
    · rw [repairPlace_advance bound]
      exact all (i + 1) (by omega)

/-- So many of the records given are placed, and nothing else happens (R193, R196). -/
def PlacesRepairs (c : Cx) (rs : List RepairRec) (count : Nat) : Prop :=
  ∃ p, c.placeRepairs rs = (rs.drop count,
      ⟨⟨p, if 0 < count then c.hub.orders.setNews c.cap.slot .repair else c.hub.orders⟩,
        { c.cap with writer := repairedBy c.cap.writer count }⟩) ∧
    Wrote c.hub.port p (repairRanges c.cap.slot c.cap.writer.repairList count) ∧
    RepairsIn p c.cap.writer.repairList (rs.take count) ∧
    (0 < count → Holds p (slotBase c.cap.slot + 0x60) (BitVec.ofNat 32 (min 4294967295 (c.cap.writer.repairWritten + count))))

theorem placesRepairs_none {c : Cx} {rs : List RepairRec} (written : c.cap.writer.repairWritten ≤ 4294967295)
    (h : c.placeRepairs rs = (rs, c)) : PlacesRepairs c rs 0 := by
  refine ⟨c.hub.port, ?_, .refl _, ⟨by simp, by simp⟩, by simp⟩
  simp only [h, Nat.lt_irrefl, if_false, repairedBy_zero written]
  rfl

theorem repairPort_apart {n : SlotNo} {l : RecList} (past : 0x2000 ≤ l.header) {r : Nat × Nat}
    (h : r ∈ [(nextPlace l 32, 32), (l.header + 4, 4), (slotBase n + 0x60, 4)]) : Apart (l.header + 8, 4) r := by
  have low := slotBase_lt n
  have place : l.header + 16 ≤ nextPlace l 32 := Nat.le_add_right _ _
  simp only [List.mem_cons, List.not_mem_nil, or_false] at h
  rcases h with rfl | rfl | rfl <;> simp only [Apart] <;> omega

/-- One record more, in front. -/
theorem placesRepairs_cons {c : Cx} {r : RepairRec} {rest : List RepairRec} {count : Nat} (mem : Memory.wf c.hub.port.mem = true)
    (past : 0x2000 ≤ c.cap.writer.repairList.header) (bound : c.cap.writer.repairList.written.toNat + 1 < 4294967296)
    (holds : count < c.cap.writer.repairList.capacity) (enough : count ≤ rest.length) (written : c.cap.writer.repairWritten ≤ 4294967295)
    (first : c.placeRepairs (r :: rest) = (c.writeRepair r).placeRepairs rest)
    (others : PlacesRepairs (c.writeRepair r) rest count) : PlacesRepairs c (r :: rest) (count + 1) := by
  obtain ⟨words, list, total, writes⟩ := repairPort_spec mem c.cap.slot past r
  obtain ⟨p, placed, wrote, ⟨records, last⟩, progress⟩ := others
  rw [writeRepair_eq] at placed wrote records last progress first
  dsimp only at placed wrote records last progress
  have mem' := writes.wf mem
  have low := slotBase_lt c.cap.slot
  refine ⟨p, ?_, ?_, ⟨?_, fun _ => ?_⟩, fun _ => ?_⟩
  · rw [first, placed, repairedBy_repaired written, if_pos (Nat.succ_pos count), setNews_setNews, ite_self]
    rfl
  · exact (writes.trans wrote).cover fun a ha => by
      rw [outside_append]
      exact outside_repairRanges_succ bound ha
  · rintro (_ | i) j x v hx hv
    · rw [List.take_succ_cons, List.getElem?_cons_zero] at hx
      obtain rfl := Option.some.inj hx
      have hj : j < 8 := (List.getElem?_eq_some_iff.1 hv).1
      rw [repairPlace_zero]
      refine wrote.holds mem' (words j v hv) fun y hy => ?_
      have place := repairPlace_le c.cap.writer.repairList 0
      rw [repairPlace_zero] at place
      rcases mem_repairRanges hy with rfl | rfl | ⟨k, hk, rfl⟩
      · simp only [Apart]; omega
      · change Apart _ (c.cap.writer.repairList.header + 4, 4)
        simp only [Apart]; omega
      · have apart := repairPlace_apart (l := c.cap.writer.repairList) (i := k + 1) (by omega) (by omega)
        rw [repairPlace_zero] at apart
        change Apart _ (repairPlace c.cap.writer.repairList.advance k, 32)
        rw [repairPlace_advance bound]
        simp only [Apart] at apart ⊢
        omega
    · rw [List.take_succ_cons, List.getElem?_cons_succ] at hx
      rw [← repairPlace_advance bound]
      exact records i j x v hx hv
  · rw [List.take_succ_cons, List.length_cons, List.length_take, Nat.min_eq_left enough]
    rcases Nat.eq_zero_or_pos count with rfl | pos
    · exact wrote.holds mem' list (by simp [repairRanges])
    · have sum := last fun none => by
        have := congrArg List.length none
        rw [List.length_take, Nat.min_eq_left enough, List.length_nil] at this
        omega
      rw [List.length_take, Nat.min_eq_left enough] at sum
      rw [BitVec.ofNat_add, BitVec.add_comm (BitVec.ofNat 32 count), ← BitVec.add_assoc]
      exact sum
  · rcases Nat.eq_zero_or_pos count with rfl | pos
    · have same := upTo_min (k := 0) written
      rw [Nat.add_zero, Nat.min_eq_right (upTo_le written)] at same
      rw [← same]
      exact wrote.holds mem' total (by simp [repairRanges])
    · have sum := progress pos
      rwa [Repaired, upTo_min written] at sum

/-- Held or handed records placed from the head while there is room (R196). -/
theorem placeRepairs_spec (rs : List RepairRec) {c : Cx} {k : Nat} (mem : Memory.wf c.hub.port.mem = true)
    (room : RoomAt c.hub.port c.cap.writer.repairList k) (within : k ≤ c.cap.writer.repairList.capacity)
    (small : c.cap.writer.repairList.capacity ≤ 4096)
    (noWrap : c.cap.writer.repairList.written.toNat + min rs.length (c.cap.writer.repairList.capacity - k) < 4294967296)
    (written : c.cap.writer.repairWritten ≤ 4294967295) :
    PlacesRepairs c rs (min rs.length (c.cap.writer.repairList.capacity - k)) := by
  induction rs generalizing c k with
  | nil => rw [List.length_nil, Nat.zero_min]; exact placesRepairs_none written rfl
  | cons r rest ih =>
    have asked := room_within (id := .repair) room within
    rw [show c.cap.writer.list .repair = c.cap.writer.repairList from rfl] at asked
    rw [List.length_cons] at noWrap ⊢
    rcases Nat.lt_or_ge k c.cap.writer.repairList.capacity with lt | ge
    · rw [show min (rest.length + 1) (c.cap.writer.repairList.capacity - k) =
        min rest.length (c.cap.writer.repairList.capacity - (k + 1)) + 1 by omega] at noWrap ⊢
      have writes := (repairPort_spec mem c.cap.slot room.1 r).2.2.2
      have next : c.cap.writer.repairList.advance.written.toNat = c.cap.writer.repairList.written.toNat + 1 := by
        have : (c.cap.writer.repairList.written + 1).toNat = c.cap.writer.repairList.written.toNat + 1 := by
          have : c.cap.writer.repairList.written.toNat + 1 < 4294967296 := by omega
          bv_omega
        exact this
      refine placesRepairs_cons mem room.1 (by omega) (by omega) (by omega) written (placeRepairs_places r rest asked (by omega)) ?_
      refine ih (k := k + 1) (c := c.writeRepair r) (writes.wf mem) ?_ lt small ?_ (upTo_le written)
      · exact (writes.roomAt mem room fun x hx => repairPort_apart room.1 hx).advance (by omega)
      · change c.cap.writer.repairList.advance.written.toNat + min rest.length (c.cap.writer.repairList.capacity - (k + 1)) < _
        omega
    · rw [show c.cap.writer.repairList.capacity - k = 0 by omega] at asked ⊢
      rw [Nat.min_zero]
      exact placesRepairs_none written (placeRepairs_stops asked)

end Sys2Proof.TransferMemory
end

section
/-! PROOFS. The drain (10, R189, R191): frames written one behind the other into a span, pages moved from the spill queue. -/

namespace Sys2Proof.TransferMemory

open Machine Safety Laws

/-! ## Frames of one length written into a span (R185, R186) -/

/-- The port after frames have been written one behind the other into a FILLING span. -/
def framesPort (p : Port) (d : SpanDesc) (sp : OpenSpan) : List Frame → Port
  | [] => p
  | f :: fs => framesPort (framePort p d sp f) d (moreFrames sp f) fs

@[simp] theorem framesPort_nil (p : Port) (d : SpanDesc) (sp : OpenSpan) : framesPort p d sp [] = p := rfl

@[simp] theorem framesPort_cons (p : Port) (d : SpanDesc) (sp : OpenSpan) (f : Frame) (fs : List Frame) :
    framesPort p d sp (f :: fs) = framesPort (framePort p d sp f) d (moreFrames sp f) fs := rfl

@[simp] theorem putOut_slot (cap : Capture) (g : Group) (o : GroupOut) : (putOut cap g o).slot = cap.slot := rfl

/-- The FILLING span with those frames. -/
def withFrames (sp : OpenSpan) (fs : List Frame) : OpenSpan := fs.foldl moreFrames sp

/-- Every frame of a list has the same length in bytes. -/
def SameLength (len : Nat) (fs : List Frame) : Prop := ∀ f ∈ fs, 4 * f.words.length = len

theorem withFrames_eq {len : Nat} {fs : List Frame} (h : SameLength len fs) (sp : OpenSpan) :
    withFrames sp fs = ⟨sp.fill + len * fs.length, sp.frames + fs.length, sp.afterLoss⟩ := by
  induction fs generalizing sp with
  | nil => rfl
  | cons f fs ih =>
    have size : 4 * f.words.length = len := h f List.mem_cons_self
    change withFrames (moreFrames sp f) fs = _
    rw [ih fun x hx => h x (List.mem_cons_of_mem _ hx)]
    simp only [moreFrames, size, List.length_cons, Nat.mul_succ, OpenSpan.mk.injEq, and_true]
    omega

/-- What the frames written show, behind those already there (R185). -/
theorem framesPort_spec {len : Nat} {fs : List Frame} (lengths : SameLength len fs) {d : SpanDesc} {a : Nat} {done : List Frame}
    {p : Port} {sp : OpenSpan} (mem : Memory.wf p.mem = true) (before : SameLength len done) (place : a + len * done.length = d.buffer + sp.fill)
    (apart : Apart (d.addr, 32) (a, len * (done.length + fs.length))) (there : FramesIn p a len done) :
    let q := framesPort p d sp fs
    Wrote p q [(d.buffer + sp.fill, len * fs.length), (d.addr + 0x0C, 4), (d.addr + 0x14, 4)] ∧ FramesIn q a len (done ++ fs) ∧
    (∀ st first pos flags, Shows p d st sp.fill sp.frames first pos flags →
      Shows q d st (sp.fill + len * fs.length) (sp.frames + fs.length) first pos flags) ∧
    (fs ≠ [] → Holds q (d.addr + 0x0C) (word (sp.fill + len * fs.length)) ∧ Holds q (d.addr + 0x14) (word (sp.frames + fs.length))) := by
  induction fs generalizing p sp done with
  | nil =>
    refine ⟨(Wrote.refl p).cover fun _ _ => outside_nil _, by rw [List.append_nil]; exact there, fun _ _ _ _ h => h, nofun⟩
  | cons f fs ih =>
    have size : 4 * f.words.length = len := lengths f List.mem_cons_self
    have room : len * (done.length + (fs.length + 1)) = len * done.length + len * fs.length + len := by ring
    rw [List.length_cons, room] at apart
    simp only [Apart] at apart
    have one := framePort_wrote p d sp f
    have mem' := one.wf mem
    have here : Apart (d.addr, 32) (d.buffer + sp.fill, 4 * f.words.length) := by simp only [Apart]; omega
    have lengths' : SameLength len (done ++ [f]) := fun x hx => by
      rcases List.mem_append.1 hx with hx | hx
      · exact before x hx
      · rw [List.mem_singleton.1 hx]; exact size
    have added := there.frame mem (d := d) (sp := sp) (f := f) lengths' place (by rw [Nat.mul_succ]; simp only [Apart]; omega)
    obtain ⟨wrote, frames, shows_, counts⟩ := ih (fun x hx => lengths x (List.mem_cons_of_mem _ hx)) (p := framePort p d sp f)
      (sp := moreFrames sp f) (done := done ++ [f]) mem' lengths'
      (by simp only [moreFrames, List.length_append, List.length_singleton, Nat.mul_succ]; omega)
      (by
        rw [List.length_append, List.length_singleton,
          show len * (done.length + 1 + fs.length) = len * done.length + len * fs.length + len by ring]
        exact apart) added
    have fill : (moreFrames sp f).fill + len * fs.length = sp.fill + len * (fs.length + 1) := by
      simp only [moreFrames, Nat.mul_succ]; omega
    have count : (moreFrames sp f).frames + fs.length = sp.frames + (fs.length + 1) := by simp only [moreFrames]; omega
    rw [framesPort_cons]
    refine ⟨(one.trans wrote).cover fun x hx => ?_, ?_, fun st first pos flags h => ?_, fun _ => ?_⟩
    · simp only [outside_append, outside_cons, outside_nil, and_true, moreFrames, List.length_cons, Nat.mul_succ] at hx ⊢
      omega
    · rw [List.append_assoc] at frames
      exact frames
    · rw [List.length_cons, ← fill, ← count]
      exact shows_ _ _ _ _ (h.frame mem here)
    · rw [List.length_cons, ← fill, ← count]
      cases fs with
      | nil =>
        obtain ⟨-, fill', frames'⟩ := framePort_shows mem (sp := sp) here
        rw [List.length_nil, Nat.mul_zero, Nat.add_zero, Nat.add_zero, framesPort_nil]
        exact ⟨fill', frames'⟩
      | cons x xs => exact counts (List.cons_ne_nil _ _)

/-- The frames of a list written by the writer. -/
def writeFrames (c : Cx) (g : Group) (fs : List Frame) : Cx := fs.foldl (fun c f => c.writeFrame g f) c

theorem writeFrames_append (c : Cx) (g : Group) (fs gs : List Frame) :
    writeFrames c g (fs ++ gs) = writeFrames (writeFrames c g fs) g gs := List.foldl_append

/-- Frames that leave room in the span (R185). -/
theorem writeFrames_fit {len : Nat} {fs : List Frame} (lengths : SameLength len fs) {c : Cx} {g : Group} {sp : OpenSpan}
    (filling : (c.out g).filling = some sp) (fits : sp.fill + len * fs.length < (cursorSpan (c.out g)).capacity) :
    writeFrames c g fs = ⟨⟨framesPort c.hub.port (cursorSpan (c.out g)) sp fs, c.hub.orders⟩,
      putOut c.cap g { c.out g with filling := some (withFrames sp fs) }⟩ := by
  induction fs generalizing c sp with
  | nil =>
    have same : { c.out g with filling := some (withFrames sp []) } = c.out g := by
      change { c.out g with filling := some sp } = _
      rw [← filling]
    rw [same, putOut_out]
    rfl
  | cons f fs ih =>
    have size : 4 * f.words.length = len := lengths f List.mem_cons_self
    rw [List.length_cons, Nat.mul_succ] at fits
    change writeFrames (c.writeFrame g f) g fs = _
    have span : cursorSpan ((framed c g sp f).out g) = cursorSpan (c.out g) := by rw [out_framed]; rfl
    rw [writeFrame_fits filling (by omega), ih (fun x hx => lengths x (List.mem_cons_of_mem _ hx)) (c := framed c g sp f)
      (sp := moreFrames sp f) (by rw [out_framed]) (by rw [span]; simp only [moreFrames]; omega), span, out_framed,
      framesPort_cons]
    simp only [framed, putOut_putOut]
    rfl

/-- While frames leave room, the span stays FILLING. -/
theorem writeFrames_filling {len : Nat} {fs : List Frame} (lengths : SameLength len fs) {c : Cx} {g : Group} {sp : OpenSpan}
    (filling : (c.out g).filling = some sp) (fits : sp.fill + len * fs.length < (cursorSpan (c.out g)).capacity) :
    ((writeFrames c g fs).out g).filling = some (withFrames sp fs) := by
  rw [writeFrames_fit lengths filling fits, out_putOut]

/-- Frames of which the last fills the span, whose word is FILLING (R186). -/
theorem writeFrames_fill {len : Nat} (pos : 0 < len) {fs : List Frame} (some_ : fs ≠ []) (lengths : SameLength len fs) {c : Cx}
    {g : Group} {sp : OpenSpan} (filling : (c.out g).filling = some sp) (mem : Memory.wf c.hub.port.mem = true)
    (fills : sp.fill + len * fs.length = (cursorSpan (c.out g)).capacity)
    (apart : Apart ((cursorSpan (c.out g)).addr, 32) ((cursorSpan (c.out g)).buffer + sp.fill, len * fs.length))
    (state : Holds c.hub.port (cursorSpan (c.out g)).addr 1) :
    writeFrames c g fs =
      ⟨⟨(framesPort c.hub.port (cursorSpan (c.out g)) sp fs).store (cursorSpan (c.out g)).addr 2,
        c.hub.orders.setNews c.cap.slot (spanCause g)⟩,
        putOut c.cap g { c.out g with filling := none, cursor := ((c.out g).cursor + 1) % (c.out g).spans.length }⟩ := by
  induction fs generalizing c sp with
  | nil => exact absurd rfl some_
  | cons f fs ih =>
    have size : 4 * f.words.length = len := lengths f List.mem_cons_self
    rw [List.length_cons, Nat.mul_succ] at fills apart
    simp only [Apart] at apart
    have span : cursorSpan ((framed c g sp f).out g) = cursorSpan (c.out g) := by rw [out_framed]; rfl
    change writeFrames (c.writeFrame g f) g fs = _
    cases fs with
    | nil =>
      rw [List.length_nil, Nat.mul_zero] at fills apart
      rw [writeFrame_fills filling mem (by omega) (by simp only [Apart]; omega) state, framesPort_cons, framesPort_nil]
      rfl
    | cons x xs =>
      have more : 0 < len * (x :: xs).length := Nat.mul_pos pos (Nat.succ_pos _)
      have kept : Holds (framed c g sp f).hub.port (cursorSpan (c.out g)).addr 1 :=
        (framePort_wrote _ _ _ _).holds mem state fun r hr => by
          simp only [List.mem_cons, List.not_mem_nil, or_false] at hr
          rcases hr with rfl | rfl | rfl <;> simp only [Apart] <;> omega
      rw [writeFrame_fits filling (by omega), ih (List.cons_ne_nil _ _) (fun y hy => lengths y (List.mem_cons_of_mem _ hy))
        (c := framed c g sp f) (sp := moreFrames sp f) (by rw [out_framed]) ((framePort_wrote _ _ _ _).wf mem)
        (by rw [span]; simp only [moreFrames]; omega) (by rw [span]; simp only [moreFrames, Apart]; omega)
        (by rw [span]; exact kept), span, out_framed]
      simp only [framed, putOut_putOut, putOut_slot, framesPort_cons]

/-! ## The spill queue aside -/

/-- The capture with a group's spill queue replaced. -/
def withQueue (c : Cx) (g : Group) (q : List SpillItem) : Cx := ⟨c.hub, putOut c.cap g { c.out g with queue := q }⟩

@[simp] theorem out_withQueue (c : Cx) (g : Group) (q : List SpillItem) : (withQueue c g q).out g = { c.out g with queue := q } :=
  out_putOut _ _ _ _

@[simp] theorem withQueue_withQueue (c : Cx) (g : Group) (q r : List SpillItem) :
    withQueue (withQueue c g q) g r = withQueue c g r := by
  rw [withQueue, out_withQueue]
  simp only [withQueue, putOut_putOut]

theorem withQueue_self {c : Cx} {g : Group} {q : List SpillItem} (h : (c.out g).queue = q) : withQueue c g q = c := by
  subst h
  exact congrArg (Cx.mk c.hub) (putOut_out c g)

theorem mapOut_queue_eq (c : Cx) (g : Group) (q : List SpillItem) : (c.mapOut g fun o => { o with queue := q }) = withQueue c g q := rfl

theorem request_putOut (h : Hub) (cap : Capture) (g : Group) (o : GroupOut) (a : Nat) (e w : Word) (b : Bool) :
    Cx.request ⟨h, putOut cap g o⟩ a e w b =
      ((Cx.request ⟨h, cap⟩ a e w b).1, ⟨(Cx.request ⟨h, cap⟩ a e w b).2.hub, putOut cap g o⟩) := by
  unfold Cx.request
  dsimp only [putOut]
  split <;> rfl

theorem closeSpan_withQueue (c : Cx) (g : Group) (q : List SpillItem) :
    (withQueue c g q).closeSpan g = withQueue (c.closeSpan g) g q := by
  obtain ⟨h, cap⟩ := c
  have kept := request_cap ⟨h, cap⟩ (cursorSpan (Cx.out ⟨h, cap⟩ g)).addr spanFilling spanFull false
  unfold Cx.closeSpan
  rw [out_withQueue]
  dsimp only [withQueue]
  rw [show ({ Cx.out ⟨h, cap⟩ g with queue := q } : GroupOut).span = cursorSpan (Cx.out ⟨h, cap⟩ g) from rfl,
    show (Cx.out ⟨h, cap⟩ g).span = cursorSpan (Cx.out ⟨h, cap⟩ g) from rfl, request_putOut]
  generalize Cx.request ⟨h, cap⟩ _ _ _ _ = answer at kept ⊢
  obtain ⟨t, hub, cap'⟩ := answer
  obtain rfl : cap' = cap := kept
  by_cases ht : t = .applied
  · simp only [if_pos ht, mapOut_eq, Cx.news, out_putOut, putOut_putOut]
    rfl
  · simp only [if_neg ht, mapOut_eq, out_putOut, putOut_putOut]
    rfl

theorem writeFrame_withQueue (c : Cx) (g : Group) (f : Frame) (q : List SpillItem) :
    (withQueue c g q).writeFrame g f = withQueue (c.writeFrame g f) g q := by
  cases filling : (c.out g).filling with
  | none =>
    have none_ : ∀ d : Cx, (d.out g).filling = none → d.writeFrame g f = d := fun d hd => by unfold Cx.writeFrame; rw [hd]
    rw [none_ c filling, none_ _ (by rw [out_withQueue]; exact filling)]
  | some sp =>
    have framed_ : framed (withQueue c g q) g sp f = withQueue (framed c g sp f) g q := by
      unfold framed
      rw [out_withQueue]
      simp only [withQueue, out_putOut, putOut_putOut]
      rfl
    rw [writeFrame_some filling, writeFrame_some (c := withQueue c g q) (by rw [out_withQueue]; exact filling), framed_,
      closeSpan_withQueue, out_withQueue]
    exact (apply_ite (fun x => withQueue x g q) _ _ _).symm

theorem writeFrames_withQueue (c : Cx) (g : Group) (fs : List Frame) (q : List SpillItem) :
    writeFrames (withQueue c g q) g fs = withQueue (writeFrames c g fs) g q := by
  induction fs generalizing c with
  | nil => rfl
  | cons f fs ih =>
    change writeFrames ((withQueue c g q).writeFrame g f) g fs = withQueue (writeFrames (c.writeFrame g f) g fs) g q
    rw [writeFrame_withQueue, ih]

/-! ## The drain without its bound -/

/-- What bounds the length of a drain: one for each frame and each item of the queue. -/
def drainSize (q : List SpillItem) : Nat := framesIn q + q.length

theorem sumNat_cons (n : Nat) (l : List Nat) : sumNat (n :: l) = n + sumNat l := by
  unfold sumNat
  rw [← List.sum_eq_foldl, ← List.sum_eq_foldl, List.sum_cons]

theorem framesIn_cons (i : SpillItem) (q : List SpillItem) : framesIn (i :: q) = i.frames.length + framesIn q := by
  rw [framesIn, List.map_cons, sumNat_cons]
  rfl

theorem drainSize_afterHead (f : Frame) (fs : List Frame) (rest : List SpillItem) :
    drainSize (afterHead fs rest) < drainSize (.page (f :: fs) :: rest) := by
  unfold afterHead
  split
  · simp only [drainSize, framesIn_cons, SpillItem.frames, List.length_cons]; omega
  · simp only [drainSize, framesIn_cons, SpillItem.frames, List.length_cons]; omega

theorem queue_of_closeEarly (c : Cx) (g : Group) : ((c.closeEarly g).out g).queue = (c.out g).queue := by
  unfold Cx.closeEarly
  split
  · exact closeSpan_queue c g g
  · rfl

theorem queue_of_takeLossMark (c : Cx) (g : Group) : ((c.takeLossMark g).out g).queue = (c.out g).queue := by
  unfold Cx.takeLossMark
  rw [mapOut_eq, out_putOut]
  exact queue_of_closeEarly c g

/-- A drain does not depend on its bound, where it is long enough. -/
theorem drain_bound (g : Group) (watch : Bool) (n m : Nat) (c : Cx) (hn : drainSize (c.out g).queue < n)
    (hm : drainSize (c.out g).queue < m) : c.drain g watch n = c.drain g watch m := by
  induction n generalizing c m with
  | zero => omega
  | succ n ih =>
    cases m with
    | zero => omega
    | succ m =>
      unfold Cx.drain
      cases queue : (c.out g).queue with
      | nil => rfl
      | cons i rest =>
        rw [queue] at hn hm
        cases i with
        | lossMark =>
          simp only [drainSize, framesIn_cons, SpillItem.frames, List.length_cons, List.length_nil] at hn hm
          refine ih m _ ?_ ?_ <;> rw [queue_of_takeLossMark, mapOut_eq, out_putOut] <;> simp only [drainSize] <;> omega
        | page fs =>
          cases fs with
          | nil =>
            simp only [drainSize, framesIn_cons, SpillItem.frames, List.length_cons, List.length_nil] at hn hm
            refine ih m _ ?_ ?_ <;> rw [mapOut_eq, out_putOut] <;> simp only [drainSize] <;> omega
          | cons f fs =>
            have less := drainSize_afterHead f fs rest
            dsimp only
            split
            · refine ih m _ ?_ ?_ <;> rw [writeFrame_queue, mapOut_eq, out_putOut] <;> dsimp only <;> omega
            · split
              · refine ih m _ ?_ ?_ <;> rw [mapOut_eq, out_putOut] <;> dsimp only <;> omega
              · rfl

/-- The drain of a group, as long as it takes (R189). -/
def drained (c : Cx) (g : Group) (watch : Bool) : Cx := c.drain g watch (c.drainFuel g)

theorem drained_eq {c : Cx} {g : Group} {watch : Bool} {n : Nat} (h : drainSize (c.out g).queue < n) :
    c.drain g watch n = drained c g watch := drain_bound g watch _ _ c h (Nat.lt_succ_self _)

section

variable {c : Cx} {g : Group} {watch : Bool} {rest : List SpillItem}

/-- The queue is empty: a FILLING span is closed early while a LOST record is open (R191). -/
theorem drained_nil (queue : (c.out g).queue = []) : drained c g watch =
    if (c.out g).lost.isSome ∧ (c.out g).filling.isSome then c.takeLossMark g else c := by
  unfold drained Cx.drainFuel
  rw [Cx.drain, queue]

theorem drained_lossMark : drained (withQueue c g (.lossMark :: rest)) g watch = drained ((withQueue c g rest).takeLossMark g) g watch := by
  have step : drained (withQueue c g (.lossMark :: rest)) g watch =
      ((withQueue (withQueue c g (.lossMark :: rest)) g rest).takeLossMark g).drain g watch (drainSize (.lossMark :: rest)) := by
    unfold drained Cx.drainFuel
    rw [Cx.drain, out_withQueue]
    rfl
  rw [step, withQueue_withQueue]
  refine drained_eq ?_
  rw [queue_of_takeLossMark, out_withQueue]
  simp only [drainSize, framesIn_cons, SpillItem.frames, List.length_cons, List.length_nil]
  omega

theorem drained_empty : drained (withQueue c g (.page [] :: rest)) g watch = drained (withQueue c g rest) g watch := by
  have step : drained (withQueue c g (.page [] :: rest)) g watch =
      (withQueue (withQueue c g (.page [] :: rest)) g rest).drain g watch (drainSize (.page [] :: rest)) := by
    unfold drained Cx.drainFuel
    rw [Cx.drain, out_withQueue]
    rfl
  rw [step, withQueue_withQueue]
  refine drained_eq ?_
  rw [out_withQueue]
  simp only [drainSize, framesIn_cons, SpillItem.frames, List.length_cons, List.length_nil]
  omega

theorem drained_afterHead (fs : List Frame) :
    drained (withQueue c g (afterHead fs rest)) g watch = drained (withQueue c g (.page fs :: rest)) g watch := by
  unfold afterHead
  split
  · rename_i none_; rw [none_, drained_empty]
  · rfl

/-- A frame into the FILLING span (R189). -/
theorem drained_frame {f : Frame} {fs : List Frame} (filling : (c.out g).filling.isSome = true) :
    drained (withQueue c g (.page (f :: fs) :: rest)) g watch = drained (withQueue (c.writeFrame g f) g (.page fs :: rest)) g watch := by
  have step : drained (withQueue c g (.page (f :: fs) :: rest)) g watch =
      ((withQueue (withQueue c g (.page (f :: fs) :: rest)) g (afterHead fs rest)).writeFrame g f).drain g watch
        (drainSize (.page (f :: fs) :: rest)) := by
    unfold drained Cx.drainFuel
    rw [Cx.drain, out_withQueue]
    dsimp only
    rw [if_pos filling]
    rfl
  rw [step, withQueue_withQueue, writeFrame_withQueue, ← drained_afterHead]
  refine drained_eq ?_
  rw [out_withQueue]
  exact drainSize_afterHead f fs rest

/-- A span given for the frame at the head (R189, R191). -/
theorem drained_opens {f : Frame} {fs : List Frame} (filling : (c.out g).filling = none)
    (state : Holds c.hub.port (cursorSpan (c.out g)).addr 0) :
    drained (withQueue c g (.page (f :: fs) :: rest)) g watch =
      drained (withQueue ((opened c g f).writeFrame g f) g (.page fs :: rest)) g watch := by
  have opens : opened (withQueue c g (.page (f :: fs) :: rest)) g f = withQueue (opened c g f) g (.page (f :: fs) :: rest) := by
    unfold opened
    rw [out_withQueue]
    simp only [withQueue, out_putOut, putOut_putOut]
    rfl
  have step : drained (withQueue c g (.page (f :: fs) :: rest)) g watch =
      (withQueue ((opened (withQueue c g (.page (f :: fs) :: rest)) g f).writeFrame g f) g (afterHead fs rest)).drain g watch
        (drainSize (.page (f :: fs) :: rest)) := by
    unfold drained Cx.drainFuel
    rw [Cx.drain, out_withQueue]
    dsimp only
    rw [if_neg (by rw [filling]; simp), openAndWrite_given (by rw [out_withQueue]; exact state)]
    rfl
  rw [step, opens, writeFrame_withQueue, withQueue_withQueue, ← drained_afterHead]
  refine drained_eq ?_
  rw [out_withQueue]
  exact drainSize_afterHead f fs rest

/-- A span not given for the frame at the head: the drain ends, with a watch where one is asked for (R189). -/
theorem drained_waits {f : Frame} {fs : List Frame} (filling : (c.out g).filling = none) {v : Word}
    (state : Holds c.hub.port (cursorSpan (c.out g)).addr v) (ne : v ≠ 0) :
    drained (withQueue c g (.page (f :: fs) :: rest)) g watch =
      withQueue ⟨⟨if watch then c.hub.port.setWatch c.cap.slot (cursorSpan (c.out g)).addr else c.hub.port, c.hub.orders⟩, c.cap⟩ g
        (.page (f :: fs) :: rest) := by
  unfold drained Cx.drainFuel
  rw [Cx.drain, out_withQueue]
  dsimp only
  rw [if_neg (by rw [filling]; simp), openAndWrite_refused (c := withQueue c g _) (v := v) (by rw [out_withQueue]; exact state) ne,
    out_withQueue]
  rfl

end

/-! ## Pages into spans -/

/-- As long as a span is FILLING before each of them, the frames of a page are written one behind the other. -/
theorem drained_page {g : Group} {watch : Bool} (fs more : List Frame) (tail : List SpillItem) {c : Cx}
    (filling : ∀ pre f post, fs = pre ++ f :: post → ((writeFrames c g pre).out g).filling.isSome = true) :
    drained (withQueue c g (.page (fs ++ more) :: tail)) g watch = drained (withQueue (writeFrames c g fs) g (.page more :: tail)) g watch := by
  induction fs generalizing c with
  | nil => rfl
  | cons f fs ih =>
    have first : (c.out g).filling.isSome = true := filling [] f fs rfl
    rw [List.cons_append, drained_frame first]
    refine ih fun pre x post h => ?_
    exact filling (f :: pre) x post (by rw [h]; rfl)

theorem drained_pages {g : Group} {watch : Bool} (pages : List (List Frame)) (tail : List SpillItem) {c : Cx}
    (filling : ∀ pre f post, pages.flatten = pre ++ f :: post → ((writeFrames c g pre).out g).filling.isSome = true) :
    drained (withQueue c g (pages.map .page ++ tail)) g watch = drained (withQueue (writeFrames c g pages.flatten) g tail) g watch := by
  induction pages generalizing c with
  | nil => rfl
  | cons fs pages ih =>
    have first := drained_page (watch := watch) fs [] (pages.map .page ++ tail) (c := c) (g := g) fun pre f post h =>
      filling pre f (post ++ pages.flatten) (by rw [List.flatten_cons, h]; simp)
    rw [List.append_nil, drained_empty] at first
    rw [List.map_cons, List.cons_append, first, List.flatten_cons, writeFrames_append]
    refine ih fun pre f post h => ?_
    rw [← writeFrames_append]
    exact filling (fs ++ pre) f post (by rw [List.flatten_cons, h, List.append_assoc])

end Sys2Proof.TransferMemory
end

section
/-! PROOFS. What a drain leaves (10, R189, R191): the spill queue moved into one span, into two, or up to one that is not given. -/

namespace Sys2Proof.TransferMemory

open Machine Safety Laws

/-! ## A span opened for frames -/

/-- The port after a span has been given, opened for a frame, and that frame and others written into it (R185). -/
def spanPort (p : Port) (d : SpanDesc) (loss : Bool) (f : Frame) (fs : List Frame) : Port :=
  framesPort (openPort (p.store d.addr 1) d loss f) d ⟨0, 0, loss⟩ (f :: fs)

/-- What it shows, and what else of the memory it leaves (R185). -/
theorem spanPort_spec {p : Port} (mem : Memory.wf p.mem = true) {d : SpanDesc} (loss : Bool) {f : Frame} {fs : List Frame} {len : Nat}
    (lengths : SameLength len (f :: fs)) (apart : Apart (d.addr, 32) (d.buffer, len * (fs.length + 1))) :
    let q := spanPort p d loss f fs
    Shows q d 1 (len * (fs.length + 1)) (fs.length + 1) f.index f.position (lossFlag loss) ∧ FramesIn q d.buffer len (f :: fs) ∧
    Wrote p q [(d.buffer, len * (fs.length + 1)), (d.addr, 4), (d.addr + 0x0C, 20)] := by
  have w0 := portWf_store mem d.addr 1
  have started := openPort_wrote (p.store d.addr 1) d loss f
  obtain ⟨wrote, frames, shows_, -⟩ := framesPort_spec lengths (d := d) (a := d.buffer) (done := [])
    (p := openPort (p.store d.addr 1) d loss f) (sp := ⟨0, 0, loss⟩) (started.wf w0) (fun x hx => by simp at hx) (by simp)
    (by rw [List.length_nil, Nat.zero_add]; exact apart) (framesIn_nil _ _ _)
  have shown := shows_ _ _ _ _ (openPort_shows mem d loss f 1)
  rw [List.length_cons, Nat.zero_add, Nat.zero_add] at shown
  refine ⟨shown, frames, (((wrote_store p d.addr 1).trans started).trans wrote).cover fun a ha => ?_⟩
  simp only [outside_append, outside_cons, outside_nil, and_true, List.length_cons] at ha ⊢
  omega

section

variable {c : Cx} {g : Group} {watch : Bool} {f : Frame} {fs : List Frame} {len : Nat}

theorem cursorSpan_opened : cursorSpan ((opened c g f).out g) = cursorSpan (c.out g) := by rw [out_opened]; rfl

theorem filling_opened : ((opened c g f).out g).filling = some ⟨0, 0, (c.out g).afterLoss⟩ := by rw [out_opened]

theorem opened_writeFrames_fit (lengths : SameLength len (f :: fs)) (fits : len * (fs.length + 1) < (cursorSpan (c.out g)).capacity) :
    writeFrames (opened c g f) g (f :: fs) =
      ⟨⟨spanPort c.hub.port (cursorSpan (c.out g)) (c.out g).afterLoss f fs, c.hub.orders⟩, putOut c.cap g { c.out g with
        filling := some ⟨len * (fs.length + 1), fs.length + 1, (c.out g).afterLoss⟩, afterLoss := false }⟩ := by
  rw [writeFrames_fit lengths filling_opened (by rw [cursorSpan_opened, Nat.zero_add]; exact fits), cursorSpan_opened,
    withFrames_eq lengths, out_opened, Nat.zero_add, Nat.zero_add]
  simp only [opened, putOut_putOut]
  rfl

theorem opened_writeFrames_fill (mem : Memory.wf c.hub.port.mem = true) (pos : 0 < len) (lengths : SameLength len (f :: fs))
    (fills : len * (fs.length + 1) = (cursorSpan (c.out g)).capacity)
    (apart : Apart ((cursorSpan (c.out g)).addr, 32) ((cursorSpan (c.out g)).buffer, len * (fs.length + 1))) :
    writeFrames (opened c g f) g (f :: fs) =
      ⟨⟨(spanPort c.hub.port (cursorSpan (c.out g)) (c.out g).afterLoss f fs).store (cursorSpan (c.out g)).addr 2,
        c.hub.orders.setNews c.cap.slot (spanCause g)⟩, putOut c.cap g { c.out g with
          filling := none, afterLoss := false, cursor := ((c.out g).cursor + 1) % (c.out g).spans.length }⟩ := by
  have w0 := portWf_store mem (cursorSpan (c.out g)).addr 1
  have shown := openPort_shows mem (cursorSpan (c.out g)) (c.out g).afterLoss f 1
  rw [writeFrames_fill pos (List.cons_ne_nil _ _) lengths filling_opened ((openPort_wrote _ _ _ _).wf w0)
    (by rw [cursorSpan_opened, Nat.zero_add]; exact fills) (by rw [cursorSpan_opened]; exact apart)
    (by rw [cursorSpan_opened]; exact shown.1), cursorSpan_opened, out_opened]
  simp only [opened, putOut_putOut, putOut_slot]
  rfl

theorem withQueue_putOut (h : Hub) (cap : Capture) (g : Group) (o : GroupOut) (q : List SpillItem) :
    withQueue ⟨h, putOut cap g o⟩ g q = ⟨h, putOut cap g { o with queue := q }⟩ := by
  simp only [withQueue, out_putOut, putOut_putOut]

/-- The capture with a span given and frames in it, the rest of the queue behind it. -/
def inSpan (c : Cx) (g : Group) (len : Nat) (f : Frame) (fs : List Frame) (q : List SpillItem) : Cx :=
  ⟨⟨spanPort c.hub.port (cursorSpan (c.out g)) (c.out g).afterLoss f fs, c.hub.orders⟩, putOut c.cap g { c.out g with
    queue := q, filling := some ⟨len * (fs.length + 1), fs.length + 1, (c.out g).afterLoss⟩, afterLoss := false }⟩

@[simp] theorem out_inSpan (c : Cx) (g : Group) (len : Nat) (f : Frame) (fs : List Frame) (q : List SpillItem) :
    (inSpan c g len f fs q).out g = { c.out g with
      queue := q, filling := some ⟨len * (fs.length + 1), fs.length + 1, (c.out g).afterLoss⟩, afterLoss := false } :=
  out_putOut _ _ _ _

theorem opened_fit_queue (lengths : SameLength len (f :: fs)) (fits : len * (fs.length + 1) < (cursorSpan (c.out g)).capacity)
    (q : List SpillItem) : withQueue (writeFrames (opened c g f) g (f :: fs)) g q = inSpan c g len f fs q := by
  rw [opened_writeFrames_fit lengths fits]
  exact withQueue_putOut _ _ _ _ _

/-- The capture once a span is filled and closed, the rest of the queue behind it. -/
def afterSpan (c : Cx) (g : Group) (f : Frame) (fs : List Frame) (q : List SpillItem) : Cx :=
  ⟨⟨(spanPort c.hub.port (cursorSpan (c.out g)) (c.out g).afterLoss f fs).store (cursorSpan (c.out g)).addr 2,
    c.hub.orders.setNews c.cap.slot (spanCause g)⟩, putOut c.cap g { c.out g with
      queue := q, afterLoss := false, cursor := ((c.out g).cursor + 1) % (c.out g).spans.length }⟩

@[simp] theorem out_afterSpan (c : Cx) (g : Group) (f : Frame) (fs : List Frame) (q : List SpillItem) :
    (afterSpan c g f fs q).out g = { c.out g with
      queue := q, afterLoss := false, cursor := ((c.out g).cursor + 1) % (c.out g).spans.length } := out_putOut _ _ _ _

theorem withQueue_afterSpan (c : Cx) (g : Group) (f : Frame) (fs : List Frame) (q r : List SpillItem) :
    withQueue (afterSpan c g f fs q) g r = afterSpan c g f fs r := withQueue_putOut _ _ _ _ _

theorem opened_fill_queue (filling : (c.out g).filling = none) (mem : Memory.wf c.hub.port.mem = true) (pos : 0 < len)
    (lengths : SameLength len (f :: fs)) (fills : len * (fs.length + 1) = (cursorSpan (c.out g)).capacity)
    (apart : Apart ((cursorSpan (c.out g)).addr, 32) ((cursorSpan (c.out g)).buffer, len * (fs.length + 1))) (q : List SpillItem) :
    withQueue (writeFrames (opened c g f) g (f :: fs)) g q = afterSpan c g f fs q := by
  rw [opened_writeFrames_fill mem pos lengths fills apart]
  refine (withQueue_putOut _ _ _ _ _).trans ?_
  simp only [afterSpan, filling]

/-- Before each but the first of the frames, the span is still FILLING. -/
theorem opened_filling (pos : 0 < len) (lengths : SameLength len (f :: fs))
    (fits : len * (fs.length + 1) ≤ (cursorSpan (c.out g)).capacity) {pre : List Frame} {x : Frame} {post : List Frame}
    (split : fs = pre ++ x :: post) : ((writeFrames (opened c g f) g (f :: pre)).out g).filling.isSome = true := by
  have less : len * (pre.length + 1) + len ≤ len * (fs.length + 1) := by
    rw [split, List.length_append, List.length_cons, ← Nat.mul_succ]
    exact Nat.mul_le_mul_left _ (by omega)
  have short : SameLength len (f :: pre) := fun y hy => lengths y (by
    rw [split]
    rcases List.mem_cons.1 hy with rfl | hy
    · exact List.mem_cons_self
    · exact List.mem_cons_of_mem _ (List.mem_append_left _ hy))
  rw [writeFrames_filling short filling_opened (by rw [cursorSpan_opened, List.length_cons, Nat.zero_add]; omega)]
  rfl

/-! ## Pages moved into a span that is given -/

/-- The frames at the head of the head page, as long as the span stays FILLING before each. -/
theorem drained_span_page (filling : (c.out g).filling = none) (state : Holds c.hub.port (cursorSpan (c.out g)).addr 0)
    (stays : ∀ pre x post, fs = pre ++ x :: post → ((writeFrames (opened c g f) g (f :: pre)).out g).filling.isSome = true)
    (more : List Frame) (tail : List SpillItem) :
    drained (withQueue c g (.page (f :: (fs ++ more)) :: tail)) g watch =
      drained (withQueue (writeFrames (opened c g f) g (f :: fs)) g (.page more :: tail)) g watch := by
  rw [drained_opens filling state, drained_page fs more tail stays]
  rfl

/-- All frames of the pages at the head. -/
theorem drained_span_pages (filling : (c.out g).filling = none) (state : Holds c.hub.port (cursorSpan (c.out g)).addr 0)
    (stays : ∀ pre x post, fs = pre ++ x :: post → ((writeFrames (opened c g f) g (f :: pre)).out g).filling.isSome = true)
    {pages : List (List Frame)} (all : pages.flatten = f :: fs) (tail : List SpillItem) :
    drained (withQueue c g (pages.map .page ++ tail)) g watch =
      drained (withQueue (writeFrames (opened c g f) g (f :: fs)) g tail) g watch := by
  induction pages with
  | nil => simp at all
  | cons page pages ih =>
    cases page with
    | nil => exact drained_empty.trans (ih all)
    | cons x xs =>
      rw [List.flatten_cons, List.cons_append] at all
      obtain ⟨rfl, rfl⟩ := List.cons.inj all
      rw [List.map_cons, List.cons_append, drained_opens filling state]
      have others := drained_pages (watch := watch) (xs :: pages) tail (c := (opened c g x).writeFrame g x) (g := g) stays
      rw [List.map_cons, List.cons_append] at others
      exact others

theorem drained_skip {pages : List (List Frame)} (none_ : pages.flatten = []) (tail : List SpillItem) :
    drained (withQueue c g (pages.map .page ++ tail)) g watch = drained (withQueue c g tail) g watch := by
  rw [drained_pages pages tail fun pre x post h => by rw [none_] at h; simp at h, none_]
  rfl

/-- The frames of whole pages and of the head of the next one. -/
theorem drained_span_split (filling : (c.out g).filling = none) (state : Holds c.hub.port (cursorSpan (c.out g)).addr 0)
    (stays : ∀ pre x post, fs = pre ++ x :: post → ((writeFrames (opened c g f) g (f :: pre)).out g).filling.isSome = true)
    {before : List (List Frame)} {start : List Frame} (all : before.flatten ++ start = f :: fs) (more : List Frame)
    (tail : List SpillItem) :
    drained (withQueue c g (before.map .page ++ .page (start ++ more) :: tail)) g watch =
      drained (withQueue (writeFrames (opened c g f) g (f :: fs)) g (.page more :: tail)) g watch := by
  cases flat : before.flatten with
  | nil =>
    rw [flat, List.nil_append] at all
    rw [drained_skip flat, all]
    exact drained_span_page filling state stays more tail
  | cons x xs =>
    rw [flat, List.cons_append] at all
    obtain ⟨rfl, rfl⟩ := List.cons.inj all
    rw [drained_span_pages filling state (fun pre y post h => stays pre y (post ++ start) (by rw [h]; simp)) flat,
      drained_page start more tail fun pre y post h => ?_, ← writeFrames_append]
    · rfl
    · rw [← writeFrames_append]
      exact stays (xs ++ pre) y post (by rw [h, List.append_assoc])

/-! ## What is left -/

theorem cursorSpan_congr {o q : GroupOut} (spans : o.spans = q.spans) (cursor : o.cursor = q.cursor) : cursorSpan o = cursorSpan q := by
  rw [cursorSpan, cursorSpan, spans, cursor]

theorem takeLossMark_closes {p : Port} {u : OrderUnit} {cap : Capture} {o : GroupOut} {d : SpanDesc}
    (span : cursorSpan o = d) (filling : o.filling.isSome = true) (state : Holds p d.addr 1) :
    Cx.takeLossMark ⟨⟨p, u⟩, putOut cap g o⟩ g =
      ⟨⟨p.store d.addr 2, u.setNews cap.slot (spanCause g)⟩, putOut cap g { o with
        filling := none, afterLoss := true, cursor := (o.cursor + 1) % o.spans.length }⟩ := by
  have out := out_putOut ⟨p, u⟩ cap g o
  have closed := closeSpan_applied (c := ⟨⟨p, u⟩, putOut cap g o⟩) (g := g) (by rw [out, span]; exact state)
  rw [out, span, putOut_putOut] at closed
  unfold Cx.takeLossMark Cx.closeEarly
  rw [if_pos (by rw [out, filling]), closed, mapOut_eq, out_putOut]
  simp only [putOut_putOut, putOut_slot]

theorem takeLossMark_idle (filling : (c.out g).filling = none) :
    c.takeLossMark g = ⟨c.hub, putOut c.cap g { c.out g with afterLoss := true }⟩ := by
  unfold Cx.takeLossMark Cx.closeEarly
  rw [if_neg (by rw [filling]; simp)]
  rfl

/-- The queue fits into the span, no LOST record is open. -/
theorem drained_fits (filling : (c.out g).filling = none) (lost : (c.out g).lost = none)
    (state : Holds c.hub.port (cursorSpan (c.out g)).addr 0) (lengths : SameLength len (f :: fs)) (pos : fs ≠ [] → 0 < len)
    (fits : len * (fs.length + 1) < (cursorSpan (c.out g)).capacity) {pages : List (List Frame)} (all : pages.flatten = f :: fs) :
    drained (withQueue c g (pages.map .page)) g watch = inSpan c g len f fs [] := by
  have moved := drained_span_pages (watch := watch) filling state
    (fun _ _ _ h => opened_filling (pos (by rw [h]; simp)) lengths fits.le h) all []
  rw [List.append_nil, opened_fit_queue lengths fits] at moved
  rw [moved, drained_nil (by rw [out_inSpan]), out_inSpan, if_neg (by simp [lost])]

/-- A LOST record is open: the span is closed early (R191). -/
theorem drained_lost (filling : (c.out g).filling = none) (lost : (c.out g).lost ≠ none) (mem : Memory.wf c.hub.port.mem = true)
    (state : Holds c.hub.port (cursorSpan (c.out g)).addr 0) (lengths : SameLength len (f :: fs)) (pos : 0 < len)
    (apart : Apart ((cursorSpan (c.out g)).addr, 32) ((cursorSpan (c.out g)).buffer, len * (fs.length + 1)))
    (fits : len * (fs.length + 1) < (cursorSpan (c.out g)).capacity) {pages : List (List Frame)} (all : pages.flatten = f :: fs) :
    drained (withQueue c g (pages.map .page)) g watch =
      ⟨⟨(spanPort c.hub.port (cursorSpan (c.out g)) (c.out g).afterLoss f fs).store (cursorSpan (c.out g)).addr 2,
        c.hub.orders.setNews c.cap.slot (spanCause g)⟩, putOut c.cap g { c.out g with
          queue := [], afterLoss := true, cursor := ((c.out g).cursor + 1) % (c.out g).spans.length }⟩ := by
  have moved := drained_span_pages (watch := watch) filling state (fun _ _ _ h => opened_filling pos lengths fits.le h) all []
  rw [List.append_nil, opened_fit_queue lengths fits] at moved
  obtain ⟨shown, -, -⟩ := spanPort_spec mem (c.out g).afterLoss lengths apart
  rw [moved, drained_nil (by rw [out_inSpan]), out_inSpan, if_pos ⟨Option.isSome_iff_ne_none.2 lost, rfl⟩, inSpan]
  refine (takeLossMark_closes (d := cursorSpan (c.out g)) ?_ ?_ shown.1).trans ?_
  · exact cursorSpan_congr rfl rfl
  · rfl
  · simp only [filling]

/-- The queue fills the span exactly (R186; log 51). -/
theorem drained_fills (filling : (c.out g).filling = none) (mem : Memory.wf c.hub.port.mem = true)
    (state : Holds c.hub.port (cursorSpan (c.out g)).addr 0) (lengths : SameLength len (f :: fs)) (pos : 0 < len)
    (apart : Apart ((cursorSpan (c.out g)).addr, 32) ((cursorSpan (c.out g)).buffer, len * (fs.length + 1)))
    (fills : len * (fs.length + 1) = (cursorSpan (c.out g)).capacity) {pages : List (List Frame)} (all : pages.flatten = f :: fs) :
    drained (withQueue c g (pages.map .page)) g watch = afterSpan c g f fs [] := by
  have moved := drained_span_pages (watch := watch) filling state (fun _ _ _ h => opened_filling pos lengths fills.le h) all []
  rw [List.append_nil, opened_fill_queue filling mem pos lengths fills apart] at moved
  rw [moved, drained_nil (by rw [out_afterSpan]), out_afterSpan, if_neg (by simp [filling])]

/-- The head of the queue fills the span exactly, and frames are left. -/
theorem drained_over (filling : (c.out g).filling = none) (mem : Memory.wf c.hub.port.mem = true)
    (state : Holds c.hub.port (cursorSpan (c.out g)).addr 0) (lengths : SameLength len (f :: fs)) (pos : 0 < len)
    (apart : Apart ((cursorSpan (c.out g)).addr, 32) ((cursorSpan (c.out g)).buffer, len * (fs.length + 1)))
    (fills : len * (fs.length + 1) = (cursorSpan (c.out g)).capacity) {before : List (List Frame)} {start : List Frame}
    (all : before.flatten ++ start = f :: fs) (more : List Frame) (tail : List SpillItem) :
    drained (withQueue c g (before.map .page ++ .page (start ++ more) :: tail)) g watch =
      drained (afterSpan c g f fs (.page more :: tail)) g watch := by
  rw [drained_span_split filling state (fun _ _ _ h => opened_filling pos lengths fills.le h) all,
    opened_fill_queue filling mem pos lengths fills apart]

/-- What a filled and closed span shows, and what else of the memory it leaves. -/
theorem closedSpan_spec {p : Port} (mem : Memory.wf p.mem = true) {d : SpanDesc} (loss : Bool) (lengths : SameLength len (f :: fs))
    (apart : Apart (d.addr, 32) (d.buffer, len * (fs.length + 1))) :
    let q := (spanPort p d loss f fs).store d.addr 2
    Shows q d 2 (len * (fs.length + 1)) (fs.length + 1) f.index f.position (lossFlag loss) ∧ FramesIn q d.buffer len (f :: fs) ∧
    Wrote p q [(d.buffer, len * (fs.length + 1)), (d.addr, 4), (d.addr + 0x0C, 20)] := by
  obtain ⟨⟨-, fill, index, count, position, flag⟩, frames, wrote⟩ := spanPort_spec mem loss lengths apart
  have wf := wrote.wf mem
  have closes := wrote_store (spanPort p d loss f fs) d.addr 2
  have kept : ∀ {x : Nat} {v : Word}, Holds (spanPort p d loss f fs) (d.addr + x) v → 4 ≤ x →
      Holds ((spanPort p d loss f fs).store d.addr 2) (d.addr + x) v := fun hx le =>
    hx.store wf (by simp only [Apart]; omega)
  refine ⟨⟨holds_store wf _ _, kept fill (by omega), kept index (by omega), kept count (by omega), kept position (by omega),
    kept flag (by omega)⟩, closes.framesIn wf frames lengths ?_, (wrote.trans closes).cover fun a ha => ?_⟩
  · intro r hr
    rw [List.mem_singleton.1 hr]
    simp only [Apart, List.length_cons] at apart ⊢
    omega
  · simp only [outside_append, outside_cons, outside_nil, and_true] at ha ⊢
    omega

end

end Sys2Proof.TransferMemory
end

section
/-! PROOFS. Watch-end notices and PLACE_REPAIR, operation by operation (10, R189, R193, R195, R196); the words of a repair record (11);
what the lane monitor learns of samples (R99 to R102). -/

namespace Sys2Proof.TransferMemory

open Machine Safety Laws

/-! ## The words of a repair record (11, "Repair record") -/

theorem toNat_word (n : Nat) : (word n).toNat = n % 4294967296 := BitVec.toNat_ofNat _ _

theorem repairKindCode_lt (k : RepairKind) : repairKindCode k < 8 := by cases k <;> decide

theorem flagBit_lt (b : Bool) : flagBit b < 2 := by cases b <;> decide

/-- The fields of the second word of a repair record. -/
theorem repairFlags_fields {kind place present cut without voids absent : Nat} (hk : kind < 8) (hp : place < 4) (hm : present < 8)
    (hc : cut < 2) (hw : without < 2) (hv : voids < 2) (ha : absent < 65536) :
    let n := (kind + 16 * place + 256 * present + 4096 * cut + 8192 * without + 16384 * voids + 65536 * absent) % 4294967296
    n / 1 % 8 = kind ∧ n / 16 % 4 = place ∧ n / 256 % 8 = present ∧ n / 4096 % 2 = cut ∧ n / 8192 % 2 = without ∧
    n / 16384 % 2 = voids ∧ n / 65536 % 65536 = absent ∧ n / 8 % 2 = 0 ∧ n / 64 % 4 = 0 ∧ n / 2048 % 2 = 0 ∧ n / 32768 % 2 = 0 := by
  intro n
  simp only [n]
  refine ⟨?_, ?_, ?_, ?_, ?_, ?_, ?_, ?_, ?_, ?_, ?_⟩ <;> omega

/-! ## What the lane monitor learns (R100, R156) -/

theorem Dropout_note_eq (d : Dropout) (segment index : Nat) : d.note segment index =
    { d with firstOut := if d.firstOut = none ∧ d.opening ≤ segment then some index else d.firstOut } := by
  unfold Dropout.note
  split <;> rfl

theorem closedDropout_note_eq (d : ClosedDropout) (segment index : Nat) : d.note segment index = { d with
    drop := d.drop.note segment index
    length := if d.length = none ∧ d.closing.any (fun c => decide (c ≤ segment)) = true
      then some (min 4294967295 (index - (d.drop.note segment index).firstOut.getD index)) else d.length } := by
  unfold ClosedDropout.note
  cases length : d.length with
  | some n => simp
  | none =>
    cases closing : d.closing with
    | none => simp
    | some c =>
      by_cases le : c ≤ segment
      · simp [le, dropoutLength, max32]
      · simp [le]

theorem note_lanes (lanes : List LaneNo) (m : LaneMonitor) (segment index : Nat) (l : LaneNo) :
    getAt (LaneMonitor.note lanes m (segment, index)).lanes l =
      if l ∈ lanes then (getAt m.lanes l).map (LaneState.note segment index) else getAt m.lanes l := by
  simp [LaneMonitor.note, getAt]

/-- The complete records at the head of the closed ones (R102). -/
theorem splitComplete_spec (l : List ClosedDropout) : ∃ n, (splitComplete l).2 = l.drop n ∧ (∀ d ∈ l.take n, d.length ≠ none) ∧
    (∀ d, (l.drop n).head? = some d → d.length = none) ∧
    (splitComplete l).1 = (l.take n).filterMap fun d => d.length.map d.record := by
  induction l with
  | nil => exact ⟨0, rfl, by simp, by simp, rfl⟩
  | cons d rest ih =>
    cases length : d.length with
    | none =>
      refine ⟨0, ?_, by simp, fun x hx => ?_, ?_⟩
      · simp [splitComplete, length]
      · simp only [List.drop_zero, List.head?_cons, Option.some.injEq] at hx
        rw [← hx]; exact length
      · simp [splitComplete, length]
    | some k =>
      obtain ⟨n, left, complete, next, done⟩ := ih
      refine ⟨n + 1, ?_, fun x hx => ?_, next, ?_⟩
      · simpa [splitComplete, length] using left
      · rcases List.mem_cons.1 hx with rfl | hx
        · rw [length]; simp
        · exact complete x hx
      · simp [splitComplete, length, done]

/-! ## A notice served (R13, R189) -/

/-- The port, the order unit and the capture when the oldest notice is taken. -/
def noticed (s : State) (rest : List Notice) (cap : Capture) : Cx := ⟨⟨{ s.port with notices := rest }, s.orders⟩, cap⟩

theorem watchNotice_exact {s : State} {cap : Capture} (h : Capturing s cap) {n : Notice} {rest : List Notice}
    (notices : s.port.notices = n :: rest) {p : Port} {u : OrderUnit} {x : Capture}
    (served : (noticed s rest cap).notice n = ⟨⟨p, u⟩, x⟩) :
    exec .watchNotice s = .next { s with port := p, orders := u, capture := some x } := by
  have step : execWatchNotice s = .next ({ s with port := { s.port with notices := rest } }.setCx ((noticed s rest cap).notice n)) := by
    unfold execWatchNotice
    rw [engineStep_warm h.1, notices]
    dsimp only
    rw [h.2]
    rfl
  refine step.trans ?_
  rw [served]
  rfl

theorem watchNotice_next {s : State} {cap : Capture} (h : Capturing s cap) {n : Notice} {rest : List Notice}
    (notices : s.port.notices = n :: rest) {p : Port} {u : OrderUnit} {x : Capture}
    (served : (noticed s rest cap).notice n = ⟨⟨p, u⟩, x⟩) :
    ∃ t, exec .watchNotice s = .next t ∧ CaptureFrame { s with port := { s.port with notices := rest } } t ∧
      t.port = p ∧ t.orders = u ∧ t.capture = some x := by
  refine ⟨_, watchNotice_exact h notices served, ⟨rfl, ?_⟩, rfl, rfl, rfl⟩
  have kept := (kept_notice (noticed s rest cap) n).hub.port
  rw [served] at kept
  exact kept

theorem notice_foreign {c : Cx} {n : Notice} (h : c.cap.slot ∉ n.slots) : c.notice n = c := by
  unfold Cx.notice
  rw [if_neg h]

/-- A group that waits for another word, or for none. -/
def Idle (o : GroupOut) (a : Nat) : Prop := o.queue = [] ∨ o.filling ≠ none ∨ (cursorSpan o).addr ≠ a

theorem noticeGroup_idle {c : Cx} {a : Nat} {g : Group} (h : Idle (c.out g) a) : c.noticeGroup a g = c := by
  unfold Cx.noticeGroup
  dsimp only
  refine if_neg fun ⟨queue, filling, addr⟩ => ?_
  rcases h with h | h | h
  · exact queue h
  · exact h filling
  · exact h addr

theorem noticeGroup_drains {c : Cx} {a : Nat} {g : Group} (queue : (c.out g).queue ≠ []) (filling : (c.out g).filling = none)
    (addr : (cursorSpan (c.out g)).addr = a) : c.noticeGroup a g = drained c g true := by
  unfold Cx.noticeGroup
  dsimp only
  exact if_pos ⟨queue, filling, addr⟩

/-- A notice for the word a group waits for, and for no other list or group (R189). -/
theorem notice_drains {c : Cx} {n : Notice} {g : Group} {h : Hub} {o : GroupOut} (mine : c.cap.slot ∈ n.slots)
    (repair : n.addr ≠ c.cap.writer.repairList.header + 8) (map : n.addr ≠ c.cap.writer.mapList.header + 8)
    (others : ∀ k, k ≠ g → Idle (c.out k) n.addr) (queue : (c.out g).queue ≠ []) (filling : (c.out g).filling = none)
    (addr : (cursorSpan (c.out g)).addr = n.addr) (ends : drained c g true = ⟨h, putOut c.cap g o⟩) :
    c.notice n = ⟨h, putOut c.cap g o⟩ := by
  have groups : (c.noticeGroup n.addr .a).noticeGroup n.addr .b = ⟨h, putOut c.cap g o⟩ := by
    cases g with
    | a =>
      rw [noticeGroup_drains queue filling addr, ends]
      exact noticeGroup_idle (others .b (by decide))
    | b => rw [noticeGroup_idle (others .a (by decide)), noticeGroup_drains queue filling addr, ends]
  unfold Cx.notice
  rw [if_pos mine, groups]
  have first : (if n.addr = (putOut c.cap g o).writer.repairList.header + 8 then Cx.retryHeld ⟨h, putOut c.cap g o⟩
    else ⟨h, putOut c.cap g o⟩) = ⟨h, putOut c.cap g o⟩ := if_neg repair
  dsimp only
  rw [first]
  exact if_neg map

/-- A notice no group waits for (R195, R196). -/
theorem notice_lists {c : Cx} {n : Notice} (mine : c.cap.slot ∈ n.slots) (idle : ∀ g, Idle (c.out g) n.addr) : c.notice n =
    let c1 := if n.addr = c.cap.writer.repairList.header + 8 then c.retryHeld else c
    if n.addr = c1.cap.writer.mapList.header + 8 then c1.retryMap else c1 := by
  unfold Cx.notice
  rw [if_pos mine, noticeGroup_idle (idle .a), noticeGroup_idle (idle .b)]

/-! ## Held records (R196) -/

/-- The capture with its holding queue replaced. -/
def withHolding (cap : Capture) (l : List RepairRec) : Capture := { cap with writer := { cap.writer with holding := l } }

theorem retryHeld_done {c : Cx} {p : Port} {u : OrderUnit} {cap : Capture}
    (h : c.placeRepairs c.cap.writer.holding = ([], ⟨⟨p, u⟩, cap⟩)) : c.retryHeld = ⟨⟨p, u⟩, withHolding cap []⟩ := by
  unfold Cx.retryHeld
  rw [h]
  rfl

theorem retryHeld_left {c : Cx} {p : Port} {u : OrderUnit} {cap : Capture} {r : RepairRec} {rest : List RepairRec}
    (h : c.placeRepairs c.cap.writer.holding = (r :: rest, ⟨⟨p, u⟩, cap⟩)) : c.retryHeld =
      ⟨⟨p.setWatch cap.slot (cap.writer.repairList.header + 8), u⟩, withHolding cap (r :: rest)⟩ := by
  unfold Cx.retryHeld
  rw [h]
  rfl

theorem retryHeld_none {c : Cx} (h : c.cap.writer.holding = []) : c.retryHeld = c := by
  have placed : c.placeRepairs c.cap.writer.holding = ([], ⟨⟨c.hub.port, c.hub.orders⟩, c.cap⟩) := by rw [h]; rfl
  rw [retryHeld_done placed, withHolding, ← h]

theorem retryMap_none {c : Cx} (h : c.cap.writer.map = none ∨ c.cap.writer.mapPending = false) : c.retryMap = c := by
  unfold Cx.retryMap
  split
  · rfl
  · rename_i m hm
    rcases h with h | h
    · rw [h] at hm; cases hm
    · rw [h]; rfl

theorem retryMap_some {c : Cx} {m : MapRec} (h : c.cap.writer.map = some m) (pending : c.cap.writer.mapPending = true) :
    c.retryMap = if (c.room .map).1 = 0 then (c.room .map).2 else (c.room .map).2.writeMap m := by
  unfold Cx.retryMap
  rw [h]
  dsimp only
  rw [if_pos pending]

/-- An arriving record with nothing held, once the held ones are placed. -/
theorem arriveRepair_first {c : Cx} {r : RepairRec} (free : c.retryHeld.cap.writer.holding = []) : c.arriveRepair r =
    let x := c.retryHeld.placeRepairs [r]
    if x.1 = [] then x.2
    else ((x.2.watch (x.2.cap.writer.repairList.header + 8)).mapWriter fun w => { w with holding := [r] }).news .listFull := by
  unfold Cx.arriveRepair
  dsimp only
  rw [free, if_pos rfl]
  rfl

/-- An arriving record with others held before it. -/
theorem arriveRepair_behind {c : Cx} {r : RepairRec} {p : Port} {u : OrderUnit} {cap : Capture}
    (retried : c.retryHeld = ⟨⟨p, u⟩, cap⟩) (held : cap.writer.holding ≠ []) : c.arriveRepair r =
      if cap.writer.holding.length < 8 then
        ⟨⟨p.setWatch cap.slot (cap.writer.repairList.header + 8), u.setNews cap.slot .listFull⟩, withHolding cap (cap.writer.holding ++ [r])⟩
      else (Cx.suppress ⟨⟨p.setWatch cap.slot (cap.writer.repairList.header + 8), u⟩, cap⟩ 1).news .listFull := by
  unfold Cx.arriveRepair
  rw [retried]
  dsimp only
  rw [if_neg held]
  dsimp only
  rw [if_neg (List.cons_ne_nil _ _)]
  rfl

theorem suppress_eq {k : Nat} (hk : k ≠ 0) (p : Port) (u : OrderUnit) (cap : Capture) : Cx.suppress ⟨⟨p, u⟩, cap⟩ k =
    ⟨⟨p.store (slotBase cap.slot + 0x64) (word (min 4294967295 (cap.writer.suppressed + k))), u⟩,
      { cap with writer := { cap.writer with suppressed := min 4294967295 (cap.writer.suppressed + k) } }⟩ := by
  unfold Cx.suppress
  rw [if_neg hk]
  rfl

/-! ## PLACE_REPAIR -/

/-- The capture with its oldest handed record taken. -/
def handing (s : State) (cap : Capture) (rest : List RepairRec) : Cx := ⟨s.hub, { cap with writer := { cap.writer with handed := rest } }⟩

theorem placeRepair_exact {s : State} {cap : Capture} (h : Capturing s cap) {r : RepairRec} {rest : List RepairRec}
    (handed : cap.writer.handed = r :: rest) {p : Port} {u : OrderUnit} {x : Capture}
    (placed : (handing s cap rest).arriveRepair r = ⟨⟨p, u⟩, x⟩) :
    exec .placeRepair s = .next { s with port := p, orders := u, capture := some x } := by
  change execPlaceRepair s = _
  unfold execPlaceRepair
  rw [captureStep_some h.1 h.2]
  dsimp only
  rw [show (⟨s.hub, cap⟩ : Cx).cap.writer.handed = r :: rest from handed]
  change Host.Outcome.next (s.setCx ((handing s cap rest).arriveRepair r)) = _
  rw [placed]
  rfl

theorem placeRepair_next {s : State} {cap : Capture} (h : Capturing s cap) {r : RepairRec} {rest : List RepairRec}
    (handed : cap.writer.handed = r :: rest) {p : Port} {u : OrderUnit} {x : Capture}
    (placed : (handing s cap rest).arriveRepair r = ⟨⟨p, u⟩, x⟩) :
    ∃ t, exec .placeRepair s = .next t ∧ CaptureFrame s t ∧ t.port = p ∧ t.orders = u ∧ t.capture = some x := by
  refine ⟨_, placeRepair_exact h handed placed, ⟨rfl, ?_⟩, rfl, rfl, rfl⟩
  have kept := (kept_arriveRepair (handing s cap rest) r).hub.port
  rw [placed] at kept
  exact kept

end Sys2Proof.TransferMemory
end

section
/-! PROOFS. Watch-end notices for a group that waits (10, R189, R191). -/

namespace Sys2Proof.TransferMemory

open Machine Safety Laws

/-- A descriptor that shares no byte with the ranges written shows the same. -/
theorem Wrote.shows {p q : Port} {R : List (Nat × Nat)} (h : Wrote p q R) (mem : Memory.wf p.mem = true) {d : SpanDesc}
    {st first pos flags : Word} {fill frames : Nat} (shown : Shows p d st fill frames first pos flags)
    (apart : ∀ r ∈ R, Apart (d.addr, 32) r) : Shows q d st fill frames first pos flags := by
  obtain ⟨state, fill', index, count, position, flag⟩ := shown
  have kept : ∀ {x : Nat} {v : Word}, Holds p (d.addr + x) v → x + 4 ≤ 32 → Holds q (d.addr + x) v := fun hx le =>
    h.holds mem hx fun r hr => by
      have := apart r hr
      simp only [Apart] at this ⊢
      omega
  exact ⟨kept (x := 0) state (by omega), kept fill' (by omega), kept index (by omega), kept count (by omega),
    kept position (by omega), kept flag (by omega)⟩

/-- The page in which a frame lies, and what lies before and behind it. -/
theorem split_pages {pages : List (List Frame)} {fit left : List Frame} {h : Frame} (all : pages.flatten = fit ++ h :: left) :
    ∃ before start l behind, pages = before ++ (start ++ h :: l) :: behind ∧ before.flatten ++ start = fit ∧
      l ++ behind.flatten = left := by
  induction pages generalizing fit with
  | nil => simp at all
  | cons page pages ih =>
    rw [List.flatten_cons] at all
    rcases List.append_eq_append_iff.1 all with ⟨x, hfit, hrest⟩ | ⟨x, hpage, hleft⟩
    · obtain ⟨before, start, l, behind, hp, hf, hl⟩ := ih hrest
      exact ⟨page :: before, start, l, behind, by rw [hp]; rfl, by rw [List.flatten_cons, List.append_assoc, hf, hfit], hl⟩
    · cases x with
      | nil =>
        rw [List.append_nil] at hpage
        rw [List.nil_append] at hleft
        obtain ⟨before, start, l, behind, hp, hf, hl⟩ := ih (fit := []) hleft.symm
        exact ⟨page :: before, start, l, behind, by rw [hp]; rfl, by rw [List.flatten_cons, List.append_assoc, hf, hpage,
          List.append_nil], hl⟩
      | cons y ys =>
        rw [List.cons_append] at hleft
        obtain ⟨rfl, rfl⟩ := List.cons.inj hleft
        exact ⟨[], fit, ys, pages, by rw [hpage]; rfl, rfl, rfl⟩

/-- The oldest notice is one for the word that a group of the capture waits for, and for no other list or group (R189). -/
structure Serves (s : State) (cap : Capture) (n : Notice) (rest : List Notice) (g : Group) (o : GroupOut) (d : SpanDesc) : Prop where
  running : Capturing s cap
  mem : MemoryCanonical s
  notices : s.port.notices = n :: rest
  mine : cap.slot ∈ n.slots
  repair : n.addr ≠ cap.writer.repairList.header + 8
  map : n.addr ≠ cap.writer.mapList.header + 8
  others : ∀ k, k ≠ g → Idle (cap.writer.groups.get k) n.addr
  group : cap.writer.groups.get g = o
  span : cursorSpan o = d
  addr : d.addr = n.addr
  filling : o.filling = none

section

variable {s : State} {cap : Capture} {n : Notice} {rest : List Notice} {g : Group} {o : GroupOut} {d : SpanDesc}

theorem Serves.out (w : Serves s cap n rest g o d) : (noticed s rest cap).out g = o := w.group

theorem Serves.cursor (w : Serves s cap n rest g o d) : cursorSpan ((noticed s rest cap).out g) = d := by rw [w.out, w.span]

/-- The notice is acted on by a drain. -/
theorem Serves.drains (w : Serves s cap n rest g o d) (queue : o.queue ≠ []) {p : Port} {u : OrderUnit} {x : GroupOut}
    (ends : drained (withQueue (noticed s rest cap) g o.queue) g true = ⟨⟨p, u⟩, putOut cap g x⟩) :
    (noticed s rest cap).notice n = ⟨⟨p, u⟩, putOut cap g x⟩ := by
  rw [withQueue_self (congrArg GroupOut.queue w.out)] at ends
  exact notice_drains w.mine w.repair w.map w.others (by rw [w.out]; exact queue) (by rw [w.out]; exact w.filling)
    (by rw [w.cursor]; exact w.addr) ends

theorem Serves.next (w : Serves s cap n rest g o d) (queue : o.queue ≠ []) {p : Port} {u : OrderUnit} {x : GroupOut}
    (ends : drained (withQueue (noticed s rest cap) g o.queue) g true = ⟨⟨p, u⟩, putOut cap g x⟩) :
    ∃ t, exec .watchNotice s = .next t ∧ CaptureFrame { s with port := { s.port with notices := rest } } t ∧
      t.port = p ∧ t.orders = u ∧ t.capture = some (putOut cap g x) :=
  watchNotice_next w.running w.notices (w.drains queue ends)

theorem queue_ne_nil {q : List SpillItem} {pages : List (List Frame)} (queue : q = pages.map .page) {f : Frame} {fs : List Frame}
    (all : pages.flatten = f :: fs) : q ≠ [] := fun none_ => by
  rw [queue, List.map_eq_nil_iff] at none_
  rw [none_] at all
  cases all

/-- The port with the notice taken. -/
def noticePort (s : State) (rest : List Notice) : Port := { s.port with notices := rest }

section

variable {f : Frame} {fs : List Frame} {len : Nat} {pages : List (List Frame)} (w : Serves s cap n rest g o d)

include w

theorem Serves.waits {v : Word} {tail : List SpillItem} (queue : o.queue = .page (f :: fs) :: tail) (state : Stored s d.addr v)
    (ne : v ≠ 0) : (noticed s rest cap).notice n = ⟨⟨(noticePort s rest).setWatch cap.slot d.addr, s.orders⟩, cap⟩ := by
  have ends := drained_waits (c := noticed s rest cap) (watch := true) (f := f) (fs := fs) (rest := tail)
    (by rw [w.out]; exact w.filling) (by rw [w.cursor]; exact state) ne
  rw [w.cursor] at ends
  have same : putOut cap g { o with queue := .page (f :: fs) :: tail } = cap := by
    rw [← queue, ← w.group]
    exact putOut_out (noticed s rest cap) g
  have served := w.drains (by rw [queue]; exact List.cons_ne_nil _ _) (p := (noticePort s rest).setWatch cap.slot d.addr)
    (u := s.orders) (x := { o with queue := .page (f :: fs) :: tail }) (by
      have kept : ∀ hub, Cx.out ⟨hub, (noticed s rest cap).cap⟩ g = o := fun _ => w.out
      rw [queue, ends]
      dsimp only [withQueue]
      rw [kept, if_pos rfl]
      rfl)
  rwa [same] at served

/-- The queue fits. -/
theorem Serves.fits (queue : o.queue = pages.map .page) (all : pages.flatten = f :: fs) (lengths : SameLength len (f :: fs))
    (pos : 0 < len) (lost : o.lost = none) (state : Stored s d.addr 0) (apart : Apart (d.addr, 32) (d.buffer, d.capacity))
    (fits : len * (fs.length + 1) < d.capacity) :
    ∃ t, exec .watchNotice s = .next t ∧ CaptureFrame { s with port := { s.port with notices := rest } } t ∧ t.orders = s.orders ∧
      ShowsSpan t d 1 (len * (fs.length + 1)) (fs.length + 1) f.index f.position (lossFlag o.afterLoss) ∧
      FramesAt t d.buffer len (f :: fs) ∧
      t.capture = some (putOut cap g { o with
        queue := [], filling := some ⟨len * (fs.length + 1), fs.length + 1, o.afterLoss⟩, afterLoss := false }) ∧
      MemoryKeptOutside s t [(d.buffer, len * (fs.length + 1)), (d.addr, 4), (d.addr + 0x0C, 20)] := by
  have ends := drained_fits (c := noticed s rest cap) (g := g) (watch := true) (by rw [w.out]; exact w.filling)
    (by rw [w.out]; exact lost) (by rw [w.cursor]; exact state) lengths (fun _ => pos) (by rw [w.cursor]; exact fits) all
  rw [inSpan, w.cursor, w.out, ← queue] at ends
  obtain ⟨t, step, frame, port, orders, capture⟩ := w.next (queue_ne_nil queue all) ends
  obtain ⟨shown, frames, wrote⟩ := spanPort_spec (p := noticePort s rest) w.mem o.afterLoss lengths (d := d) (by
    simp only [Apart] at apart ⊢; omega)
  change t.port = spanPort (noticePort s rest) d o.afterLoss f fs at port
  rw [← port] at shown frames wrote
  exact ⟨t, step, frame, orders, shown, frames, capture, wrote.bytes w.mem⟩

/-- The queue fits, and a LOST record is open. -/
theorem Serves.fitsLost (queue : o.queue = pages.map .page) (all : pages.flatten = f :: fs) (lengths : SameLength len (f :: fs))
    (pos : 0 < len) (lost : o.lost ≠ none) (state : Stored s d.addr 0) (apart : Apart (d.addr, 32) (d.buffer, d.capacity))
    (fits : len * (fs.length + 1) < d.capacity) :
    ∃ t, exec .watchNotice s = .next t ∧ CaptureFrame { s with port := { s.port with notices := rest } } t ∧
      t.orders = s.orders.setNews cap.slot (spanCause g) ∧
      ShowsSpan t d 2 (len * (fs.length + 1)) (fs.length + 1) f.index f.position (lossFlag o.afterLoss) ∧
      FramesAt t d.buffer len (f :: fs) ∧
      t.capture = some (putOut cap g { o with queue := [], afterLoss := true, cursor := (o.cursor + 1) % o.spans.length }) ∧
      MemoryKeptOutside s t [(d.buffer, len * (fs.length + 1)), (d.addr, 4), (d.addr + 0x0C, 20)] := by
  have inside : Apart (d.addr, 32) (d.buffer, len * (fs.length + 1)) := by simp only [Apart] at apart ⊢; omega
  have ends := drained_lost (c := noticed s rest cap) (g := g) (watch := true) (by rw [w.out]; exact w.filling)
    (by rw [w.out]; exact lost) w.mem (by rw [w.cursor]; exact state) lengths pos (by rw [w.cursor]; exact inside)
    (by rw [w.cursor]; exact fits) all
  rw [w.cursor, w.out, ← queue] at ends
  obtain ⟨t, step, frame, port, orders, capture⟩ := w.next (queue_ne_nil queue all) ends
  obtain ⟨shown, frames, wrote⟩ := closedSpan_spec (p := noticePort s rest) w.mem o.afterLoss lengths inside
  change t.port = (spanPort (noticePort s rest) d o.afterLoss f fs).store d.addr 2 at port
  rw [← port] at shown frames wrote
  exact ⟨t, step, frame, orders, shown, frames, capture, wrote.bytes w.mem⟩

/-- The queue fills the span exactly. -/
theorem Serves.fills (queue : o.queue = pages.map .page) (all : pages.flatten = f :: fs) (lengths : SameLength len (f :: fs))
    (pos : 0 < len) (state : Stored s d.addr 0) (apart : Apart (d.addr, 32) (d.buffer, d.capacity))
    (fills : len * (fs.length + 1) = d.capacity) :
    ∃ t, exec .watchNotice s = .next t ∧ CaptureFrame { s with port := { s.port with notices := rest } } t ∧
      t.orders = s.orders.setNews cap.slot (spanCause g) ∧
      ShowsSpan t d 2 (len * (fs.length + 1)) (fs.length + 1) f.index f.position (lossFlag o.afterLoss) ∧
      FramesAt t d.buffer len (f :: fs) ∧
      t.capture = some (putOut cap g { o with queue := [], afterLoss := false, cursor := (o.cursor + 1) % o.spans.length }) ∧
      MemoryKeptOutside s t [(d.buffer, len * (fs.length + 1)), (d.addr, 4), (d.addr + 0x0C, 20)] := by
  rw [← fills] at apart
  have ends := drained_fills (c := noticed s rest cap) (g := g) (watch := true) (by rw [w.out]; exact w.filling)
    w.mem (by rw [w.cursor]; exact state) lengths pos (by rw [w.cursor]; exact apart) (by rw [w.cursor]; exact fills) all
  rw [afterSpan, w.cursor, w.out, ← queue] at ends
  obtain ⟨t, step, frame, port, orders, capture⟩ := w.next (queue_ne_nil queue all) ends
  obtain ⟨shown, frames, wrote⟩ := closedSpan_spec (p := noticePort s rest) w.mem o.afterLoss lengths apart
  change t.port = (spanPort (noticePort s rest) d o.afterLoss f fs).store d.addr 2 at port
  rw [← port] at shown frames wrote
  exact ⟨t, step, frame, orders, shown, frames, capture, wrote.bytes w.mem⟩

/-- The head of the queue fills the span exactly; what is left waits for the next one, or goes into it. -/
theorem Serves.over {before : List (List Frame)} {start : List Frame} {h : Frame} {l : List Frame} {behind : List (List Frame)}
    (queue : o.queue = (before ++ (start ++ h :: l) :: behind).map .page) (all : before.flatten ++ start = f :: fs)
    (lengths : SameLength len (f :: fs)) (pos : 0 < len) (state : Stored s d.addr 0) (fills : len * (fs.length + 1) = d.capacity)
    (apart : Apart (d.addr, 32) (d.buffer, d.capacity)) :
    drained (withQueue (noticed s rest cap) g o.queue) g true =
      drained (afterSpan (noticed s rest cap) g f fs (((h :: l) :: behind).map .page)) g true := by
  rw [← fills] at apart
  rw [queue, List.map_append, List.map_cons]
  exact drained_over (by rw [w.out]; exact w.filling) w.mem (by rw [w.cursor]; exact state) lengths pos
    (by rw [w.cursor]; exact apart) (by rw [w.cursor]; exact fills) all (h :: l) (behind.map .page)

end

end

end Sys2Proof.TransferMemory
end

section
/-! PROOFS. Two spans, and loss marks in the queue, served by one watch-end notice (10, R189, R191). -/

namespace Sys2Proof.TransferMemory

open Machine Safety Laws

/-! ## The drain from a port and a capture that already stand apart -/

section

variable {p : Port} {u : OrderUnit} {cap : Capture} {g : Group} {o : GroupOut} {d : SpanDesc} {f : Frame} {fs : List Frame} {len : Nat}

theorem drained_fits_put (span : cursorSpan o = d) (filling : o.filling = none) (lost : o.lost = none) (state : Holds p d.addr 0)
    (lengths : SameLength len (f :: fs)) (pos : fs ≠ [] → 0 < len) (fits : len * (fs.length + 1) < d.capacity)
    {pages : List (List Frame)} (queue : o.queue = pages.map .page) (all : pages.flatten = f :: fs) :
    drained ⟨⟨p, u⟩, putOut cap g o⟩ g true = ⟨⟨spanPort p d o.afterLoss f fs, u⟩, putOut cap g { o with
      queue := [], filling := some ⟨len * (fs.length + 1), fs.length + 1, o.afterLoss⟩, afterLoss := false }⟩ := by
  have out := out_putOut ⟨p, u⟩ cap g o
  have ends := drained_fits (c := ⟨⟨p, u⟩, putOut cap g o⟩) (g := g) (watch := true) (by rw [out, filling]) (by rw [out, lost])
    (by rw [out, span]; exact state) lengths pos (by rw [out, span]; exact fits) all
  rwa [withQueue_self (by rw [out, queue]), inSpan, out, span, putOut_putOut] at ends

theorem drained_waits_put {tail : List SpillItem} (span : cursorSpan o = d) (filling : o.filling = none) {v : Word}
    (state : Holds p d.addr v) (ne : v ≠ 0) (queue : o.queue = .page (f :: fs) :: tail) :
    drained ⟨⟨p, u⟩, putOut cap g o⟩ g true = ⟨⟨p.setWatch cap.slot d.addr, u⟩, putOut cap g o⟩ := by
  have out : ∀ hub, Cx.out ⟨hub, putOut cap g o⟩ g = o := fun hub => out_putOut hub cap g o
  have ends := drained_waits (c := ⟨⟨p, u⟩, putOut cap g o⟩) (g := g) (watch := true) (f := f) (fs := fs) (rest := tail)
    (by rw [out, filling]) (by rw [out, span]; exact state) ne
  rw [withQueue_self (by rw [out, queue]), out, span, if_pos rfl, putOut_slot, withQueue_self (by rw [out, queue])] at ends
  exact ends

/-- A loss mark before the group's page of one frame: the span tells the loss (R191). -/
theorem drained_mark_fits (span : cursorSpan o = d) (filling : o.filling = none) (lost : o.lost = none) (state : Holds p d.addr 0)
    (fits : 4 * f.words.length < d.capacity) (queue : o.queue = [.lossMark, .page [f]]) :
    drained ⟨⟨p, u⟩, putOut cap g o⟩ g true = ⟨⟨spanPort p d true f [], u⟩, putOut cap g { o with
      queue := [], filling := some ⟨4 * f.words.length, 1, true⟩, afterLoss := false }⟩ := by
  have out := out_putOut ⟨p, u⟩ cap g o
  have marked : drained ⟨⟨p, u⟩, putOut cap g o⟩ g true =
      drained ⟨⟨p, u⟩, putOut cap g { o with queue := [.page [f]], afterLoss := true }⟩ g true := by
    have first := drained_lossMark (c := ⟨⟨p, u⟩, putOut cap g o⟩) (g := g) (watch := true) (rest := [.page [f]])
    rw [withQueue_self (by rw [out, queue]), withQueue, out, putOut_putOut, takeLossMark_idle (by rw [out_putOut]; exact filling),
      out_putOut, putOut_putOut] at first
    exact first
  rw [marked]
  have ends := drained_fits_put (p := p) (u := u) (cap := cap) (g := g) (d := d) (f := f) (fs := []) (len := 4 * f.words.length)
    (pages := [[f]]) (o := { o with queue := [.page [f]], afterLoss := true }) span filling lost state
    (fun x hx => by rw [List.mem_singleton.1 hx]) (fun h => absurd rfl h)
    (by rw [List.length_nil, Nat.zero_add, Nat.mul_one]; exact fits) rfl rfl
  rw [List.length_nil, Nat.zero_add, Nat.mul_one] at ends
  exact ends

/-- A loss mark behind the group's page of one frame closes the span early (R191). -/
theorem drained_fits_mark (mem : Memory.wf p.mem = true) (span : cursorSpan o = d) (filling : o.filling = none)
    (state : Holds p d.addr 0) (apart : Apart (d.addr, 32) (d.buffer, 4 * f.words.length))
    (fits : 4 * f.words.length < d.capacity) {tail : List SpillItem} (queue : o.queue = .page [f] :: .lossMark :: tail) :
    drained ⟨⟨p, u⟩, putOut cap g o⟩ g true =
      drained ⟨⟨(spanPort p d o.afterLoss f []).store d.addr 2, u.setNews cap.slot (spanCause g)⟩, putOut cap g { o with
        queue := tail, afterLoss := true, cursor := (o.cursor + 1) % o.spans.length }⟩ g true := by
  have out := out_putOut ⟨p, u⟩ cap g o
  have lengths : SameLength (4 * f.words.length) [f] := fun x hx => by rw [List.mem_singleton.1 hx]
  have moved := drained_span_pages (c := ⟨⟨p, u⟩, putOut cap g o⟩) (g := g) (watch := true) (f := f) (fs := []) (pages := [[f]])
    (by rw [out, filling]) (by rw [out, span]; exact state) (fun pre x post h => by simp at h) rfl (.lossMark :: tail)
  rw [List.map_singleton, List.singleton_append, withQueue_self (by rw [out, queue]),
    opened_fit_queue lengths (by rw [out, span]; simpa using fits), inSpan, out, span, putOut_putOut] at moved
  rw [moved]
  obtain ⟨⟨given, -⟩, -⟩ := spanPort_spec mem o.afterLoss lengths (d := d) (by
    rw [List.length_nil, Nat.zero_add, Nat.mul_one]; exact apart)
  obtain ⟨q, hq⟩ : ∃ q, q = spanPort p d o.afterLoss f [] := ⟨_, rfl⟩
  rw [← hq] at given
  dsimp only
  rw [← hq]
  have last := drained_lossMark (g := g) (watch := true) (rest := tail)
    (c := ⟨⟨q, u⟩, putOut cap g { o with
      queue := .lossMark :: tail, filling := some ⟨4 * f.words.length * (0 + 1), 0 + 1, o.afterLoss⟩, afterLoss := false }⟩)
  rw [withQueue_self (by rw [out_putOut]), withQueue, out_putOut, putOut_putOut] at last
  dsimp only at last
  rw [takeLossMark_closes (d := d) (o := { o with
    queue := tail, filling := some ⟨4 * f.words.length * (0 + 1), 0 + 1, o.afterLoss⟩, afterLoss := false }) span rfl given] at last
  rw [filling]
  exact last

end

/-! ## The notice served -/

section

variable {s : State} {cap : Capture} {n : Notice} {rest : List Notice} {g : Group} {o : GroupOut} {d e : SpanDesc} {f : Frame}
  {fs : List Frame} {len : Nat}

/-- The group's output once its span is closed. -/
def movedOn (o : GroupOut) (q : List SpillItem) (loss : Bool) : GroupOut :=
  { o with queue := q, afterLoss := loss, cursor := (o.cursor + 1) % o.spans.length }

theorem Serves.closes (w : Serves s cap n rest g o d) {before : List (List Frame)} {start : List Frame} {h : Frame} {l : List Frame}
    {behind : List (List Frame)} (queue : o.queue = (before ++ (start ++ h :: l) :: behind).map .page)
    (all : before.flatten ++ start = f :: fs) (lengths : SameLength len (f :: fs)) (pos : 0 < len) (state : Stored s d.addr 0)
    (fills : len * (fs.length + 1) = d.capacity) (apart : Apart (d.addr, 32) (d.buffer, d.capacity)) :
    ∃ q, drained (withQueue (noticed s rest cap) g o.queue) g true =
        drained ⟨⟨q, s.orders.setNews cap.slot (spanCause g)⟩, putOut cap g (movedOn o (((h :: l) :: behind).map .page) false)⟩ g true ∧
      Shows q d 2 d.capacity (fs.length + 1) f.index f.position (lossFlag o.afterLoss) ∧ FramesIn q d.buffer len (f :: fs) ∧
      Wrote (noticePort s rest) q [(d.buffer, d.capacity), (d.addr, 4), (d.addr + 0x0C, 20)] := by
  have ends := w.over queue all lengths pos state fills apart
  rw [← fills] at apart
  obtain ⟨shown, frames, wrote⟩ := closedSpan_spec (p := noticePort s rest) w.mem o.afterLoss lengths apart
  rw [afterSpan, w.cursor, w.out] at ends
  rw [fills] at shown wrote
  exact ⟨_, ends, shown, frames, wrote⟩

/-- The queue fills the span and goes on into the next one. -/
theorem Serves.spills (w : Serves s cap n rest g o d) {pages : List (List Frame)} (queue : o.queue = pages.map .page)
    (all : pages.flatten = f :: fs) (lengths : SameLength len (f :: fs)) (pos : 0 < len) {fit : List Frame} {h : Frame}
    {left : List Frame} (split : f :: fs = fit ++ h :: left) (lost : o.lost = none) (fills : len * fit.length = d.capacity)
    (positive : 0 < d.capacity) (state : Stored s d.addr 0) (next : Stored s e.addr 0)
    (span : cursorSpan (movedOn o [] false) = e) (fits : len * (left.length + 1) < e.capacity)
    (apart : [(d.addr, 32), (d.buffer, d.capacity), (e.addr, 32), (e.buffer, e.capacity)].Pairwise Apart) :
    ∃ t, exec .watchNotice s = .next t ∧ CaptureFrame { s with port := { s.port with notices := rest } } t ∧
      t.orders = s.orders.setNews cap.slot (spanCause g) ∧
      ShowsSpan t d 2 d.capacity fit.length f.index f.position (lossFlag o.afterLoss) ∧ FramesAt t d.buffer len fit ∧
      ShowsSpan t e 1 (len * (left.length + 1)) (left.length + 1) h.index h.position 0 ∧ FramesAt t e.buffer len (h :: left) ∧
      t.capture = some (putOut cap g { movedOn o [] false with
        filling := some ⟨len * (left.length + 1), left.length + 1, false⟩ }) ∧
      MemoryKeptOutside s t [(d.buffer, d.capacity), (d.addr, 4), (d.addr + 0x0C, 20), (e.buffer, len * (left.length + 1)),
        (e.addr, 4), (e.addr + 0x0C, 20)] := by
  cases fit with
  | nil => rw [List.length_nil, Nat.mul_zero] at fills; omega
  | cons f' fit =>
  rw [List.cons_append] at split
  obtain ⟨rfl, rfl⟩ := List.cons.inj split
  obtain ⟨before, start, l, behind, rfl, hfit, hleft⟩ := split_pages (fit := f :: fit) all
  simp only [List.pairwise_cons, List.mem_cons, forall_eq_or_imp, List.not_mem_nil, or_false, forall_eq, Apart] at apart
  obtain ⟨⟨dd, de, deb⟩, ⟨bd, bdb⟩, eb, -⟩ := apart
  obtain ⟨q, ends, shown, frames, wrote⟩ := w.closes queue hfit (fun x hx => lengths x (by
    rw [← List.cons_append]; exact List.mem_append_left _ hx)) pos state fills dd
  have mem := wrote.wf w.mem
  have given : Holds q e.addr 0 := wrote.holds w.mem next (by
    simp only [List.mem_cons, forall_eq_or_imp, List.not_mem_nil, or_false, forall_eq, Apart]
    omega)
  have second := drained_fits_put (u := s.orders.setNews cap.slot (spanCause g)) (cap := cap) (g := g) (f := h) (fs := left)
    (len := len) (pages := (h :: l) :: behind) (o := movedOn o (((h :: l) :: behind).map .page) false) span w.filling lost given
    (fun x hx => lengths x (by rw [← List.cons_append]; exact List.mem_append_right _ hx)) (fun _ => pos) fits rfl
    (by rw [List.flatten_cons, List.cons_append, hleft])
  obtain ⟨t, step, frame, port, orders, capture⟩ := w.next (queue_ne_nil queue all) (ends.trans second)
  obtain ⟨shown', frames', wrote'⟩ := spanPort_spec (p := q) mem false (d := e) (f := h) (fs := left) (len := len)
    (fun x hx => lengths x (by rw [← List.cons_append]; exact List.mem_append_right _ hx)) (by
      simp only [Apart]; omega)
  change t.port = spanPort q e false h left at port
  rw [← port] at shown' frames' wrote'
  refine ⟨t, step, frame, orders, wrote'.shows mem shown ?_, wrote'.framesIn mem frames ?_ ?_, shown', frames', capture, ?_⟩
  · simp only [List.mem_cons, forall_eq_or_imp, List.not_mem_nil, or_false, forall_eq, Apart]
    omega
  · exact fun x hx => lengths x (by rw [← List.cons_append]; exact List.mem_append_left _ hx)
  · rw [fills]
    simp only [List.mem_cons, forall_eq_or_imp, List.not_mem_nil, or_false, forall_eq, Apart]
    omega
  · exact (wrote.trans wrote').bytes w.mem

/-- The head of the queue fills the span; the next one is not given, and the rest waits for it. -/
theorem Serves.refused (w : Serves s cap n rest g o d) {before : List (List Frame)} {start : List Frame} {h : Frame} {l : List Frame}
    {behind : List (List Frame)} (queue : o.queue = (before ++ (start ++ h :: l) :: behind).map .page)
    (all : before.flatten ++ start = f :: fs) (lengths : SameLength len (f :: fs)) (pos : 0 < len) (state : Stored s d.addr 0)
    (fills : len * (fs.length + 1) = d.capacity) (apart : Apart (d.addr, 32) (d.buffer, d.capacity))
    (span : cursorSpan (movedOn o [] false) = e) {v : Word} (next : Stored s e.addr v) (ne : v ≠ 0)
    (apartAddr : Apart (e.addr, 4) (d.addr, 32)) (apartBuffer : Apart (e.addr, 4) (d.buffer, d.capacity)) :
    ∃ t, exec .watchNotice s = .next t ∧ CaptureFrame { s with port := { s.port with notices := rest } } t ∧
      t.orders = s.orders.setNews cap.slot (spanCause g) ∧
      ShowsSpan t d 2 d.capacity (fs.length + 1) f.index f.position (lossFlag o.afterLoss) ∧ FramesAt t d.buffer len (f :: fs) ∧
      t.capture = some (putOut cap g (movedOn o (((h :: l) :: behind).map .page) false)) ∧
      t.port.guard = ((noticePort s rest).setWatch cap.slot e.addr).guard ∧
      MemoryKeptOutside s t [(d.buffer, d.capacity), (d.addr, 4), (d.addr + 0x0C, 20)] := by
  obtain ⟨q, ends, shown, frames, wrote⟩ := w.closes queue all lengths pos state fills apart
  have taken : Holds q e.addr v := wrote.holds w.mem next (by
    simp only [List.mem_cons, forall_eq_or_imp, List.not_mem_nil, or_false, forall_eq, Apart] at apartAddr apartBuffer ⊢
    omega)
  have second := drained_waits_put (u := s.orders.setNews cap.slot (spanCause g)) (cap := cap) (g := g)
    (o := movedOn o (((h :: l) :: behind).map .page) false) (f := h) (fs := l) (tail := behind.map .page) span w.filling taken ne rfl
  obtain ⟨t, step, frame, port, orders, capture⟩ := w.next (by rw [queue]; simp) (ends.trans second)
  refine ⟨t, step, frame, orders, ?_, ?_, capture, ?_, ?_⟩
  · exact shows_iff_showsSpan.1 (by rw [port]; exact shown)
  · change FramesIn t.port _ _ _
    rw [port]; exact frames
  · rw [port, Port.setWatch, Port.setWatch, wrote.guard]
  · intro a ha
    rw [port]
    exact wrote.bytes w.mem a ha

/-- One page of one frame behind a loss mark. -/
theorem Serves.markFits (w : Serves s cap n rest g o d) (queue : o.queue = [.lossMark, .page [f]]) (lost : o.lost = none)
    (state : Stored s d.addr 0) (fits : 4 * f.words.length < d.capacity) (apart : Apart (d.addr, 32) (d.buffer, d.capacity)) :
    ∃ t, exec .watchNotice s = .next t ∧ CaptureFrame { s with port := { s.port with notices := rest } } t ∧ t.orders = s.orders ∧
      ShowsSpan t d 1 (4 * f.words.length) 1 f.index f.position 2 ∧ FramesAt t d.buffer (4 * f.words.length) [f] ∧
      t.capture = some (putOut cap g { o with queue := [], filling := some ⟨4 * f.words.length, 1, true⟩, afterLoss := false }) ∧
      MemoryKeptOutside s t [(d.buffer, 4 * f.words.length), (d.addr, 4), (d.addr + 0x0C, 20)] := by
  have same : putOut cap g o = cap := by
    rw [← w.group]
    exact putOut_out (noticed s rest cap) g
  have ends := drained_mark_fits (p := noticePort s rest) (u := s.orders) (cap := cap) (g := g) w.span w.filling lost state fits queue
  rw [same] at ends
  obtain ⟨t, step, frame, port, orders, capture⟩ := w.next (by rw [queue]; simp) (by
    rw [withQueue_self (congrArg GroupOut.queue w.out)]
    exact ends)
  obtain ⟨shown, frames, wrote⟩ := spanPort_spec (p := noticePort s rest) w.mem true (d := d) (f := f) (fs := [])
    (len := 4 * f.words.length) (fun x hx => by rw [List.mem_singleton.1 hx]) (by
      rw [List.length_nil]; simp only [Apart] at apart ⊢; omega)
  rw [List.length_nil, Nat.zero_add, Nat.mul_one] at shown wrote
  rw [← port] at shown frames wrote
  exact ⟨t, step, frame, orders, shown, frames, capture, wrote.bytes w.mem⟩

/-- A loss mark between two pages of one frame, and the next span is not given. -/
theorem Serves.markRefused (w : Serves s cap n rest g o d) {h : Frame} (queue : o.queue = [.page [f], .lossMark, .page [h]])
    (state : Stored s d.addr 0) (fits : 4 * f.words.length < d.capacity) (apart : Apart (d.addr, 32) (d.buffer, d.capacity))
    (span : cursorSpan (movedOn o [] false) = e) {v : Word} (next : Stored s e.addr v) (ne : v ≠ 0)
    (apartAddr : Apart (e.addr, 4) (d.addr, 32)) (apartBuffer : Apart (e.addr, 4) (d.buffer, d.capacity)) :
    ∃ t, exec .watchNotice s = .next t ∧ CaptureFrame { s with port := { s.port with notices := rest } } t ∧
      t.orders = s.orders.setNews cap.slot (spanCause g) ∧
      ShowsSpan t d 2 (4 * f.words.length) 1 f.index f.position (lossFlag o.afterLoss) ∧
      FramesAt t d.buffer (4 * f.words.length) [f] ∧ t.capture = some (putOut cap g (movedOn o [.page [h]] true)) ∧
      t.port.guard = ((noticePort s rest).setWatch cap.slot e.addr).guard ∧
      MemoryKeptOutside s t [(d.buffer, 4 * f.words.length), (d.addr, 4), (d.addr + 0x0C, 20)] := by
  have same : putOut cap g o = cap := by
    rw [← w.group]
    exact putOut_out (noticed s rest cap) g
  have inside : Apart (d.addr, 32) (d.buffer, 4 * f.words.length) := by simp only [Apart] at apart ⊢; omega
  have ends := drained_fits_mark (p := noticePort s rest) (u := s.orders) (cap := cap) (g := g) w.mem w.span w.filling state inside fits queue
  rw [same] at ends
  obtain ⟨shown, frames, wrote⟩ := closedSpan_spec (p := noticePort s rest) w.mem o.afterLoss (d := d) (f := f) (fs := [])
    (len := 4 * f.words.length) (fun x hx => by rw [List.mem_singleton.1 hx]) (by
      rw [List.length_nil, Nat.zero_add, Nat.mul_one]; exact inside)
  rw [List.length_nil, Nat.zero_add, Nat.mul_one] at shown wrote
  obtain ⟨q, hq⟩ : ∃ q, q = (spanPort (noticePort s rest) d o.afterLoss f []).store d.addr 2 := ⟨_, rfl⟩
  rw [← hq] at ends shown frames wrote
  have taken : Holds q e.addr v := wrote.holds w.mem next (by
    simp only [List.mem_cons, forall_eq_or_imp, List.not_mem_nil, or_false, forall_eq, Apart] at apartAddr apartBuffer ⊢
    omega)
  have second := drained_waits_put (u := s.orders.setNews cap.slot (spanCause g)) (cap := cap) (g := g)
    (o := movedOn o [.page [h]] true) (f := h) (fs := []) (tail := []) span w.filling taken ne rfl
  obtain ⟨t, step, frame, port, orders, capture⟩ := w.next (by rw [queue]; simp) (by
    rw [withQueue_self (congrArg GroupOut.queue w.out)]
    exact ends.trans second)
  refine ⟨t, step, frame, orders, ?_, ?_, capture, ?_, ?_⟩
  · exact shows_iff_showsSpan.1 (by rw [port]; exact shown)
  · change FramesIn t.port _ _ _
    rw [port]; exact frames
  · rw [port, Port.setWatch, Port.setWatch, wrote.guard]
  · intro a ha
    rw [port]
    exact wrote.bytes w.mem a ha

end

end Sys2Proof.TransferMemory
end

section
/-! PROOFS. Watch-end notices for the record lists (10, R189, R195, R196). -/

namespace Sys2Proof.TransferMemory

open Machine Safety Laws

/-! ## Held records and a pending speed map record tried again -/

/-- One record goes into the last place that is free, or there is no other record. -/
theorem placeRepairs_one {c : Cx} {r : RepairRec} {held : List RepairRec} {k : Nat} (mem : Memory.wf c.hub.port.mem = true)
    (room : RoomAt c.hub.port c.cap.writer.repairList k) (lt : k < c.cap.writer.repairList.capacity)
    (small : c.cap.writer.repairList.capacity ≤ 4096) (last : held = [] ∨ k + 1 = c.cap.writer.repairList.capacity) :
    c.placeRepairs (r :: held) = (held, c.writeRepair r) := by
  rw [placeRepairs_places r held (room_within (id := .repair) room lt.le) (Nat.sub_ne_zero_of_lt lt)]
  cases held with
  | nil => rfl
  | cons x held =>
    obtain none_ | last := last
    · cases none_
    have writes := (repairPort_spec mem c.cap.slot room.1 r).2.2.2
    have after : RoomAt (c.writeRepair r).hub.port (c.writeRepair r).cap.writer.repairList (k + 1) :=
      (writes.roomAt mem room fun y hy => repairPort_apart room.1 hy).advance (by omega)
    have asked := room_within (id := .repair) after (Nat.le_of_eq last)
    rw [show ((c.writeRepair r).cap.writer.list .repair).capacity - (k + 1) = 0 from Nat.sub_eq_zero_of_le (Nat.le_of_eq last.symm)]
      at asked
    exact placeRepairs_stops asked

theorem retryHeld_unread {c : Cx} (held : c.cap.writer.holding ≠ [])
    (unread : eccAt c.hub.port.ecc (c.cap.writer.repairList.header + 8) = some .uncorrectable) : c.retryHeld =
      ⟨⟨({ c.hub.port with uncorrected := true } : Port).setWatch c.cap.slot (c.cap.writer.repairList.header + 8),
        c.hub.orders.setNews c.cap.slot .memoryFault⟩, c.cap⟩ := by
  cases holding : c.cap.writer.holding with
  | nil => exact absurd holding held
  | cons r rest =>
    have stops := placeRepairs_stops (r := r) (rest := rest) (room_unread (c := c) (id := .repair) unread)
    rw [← holding] at stops
    rw [retryHeld_left (stops.trans (by rw [holding]))]
    change (⟨⟨Port.setWatch (Port.setWatch _ _ _) _ _, _⟩, withHolding c.cap (r :: rest)⟩ : Cx) = _
    rw [← holding]
    exact congrArg (fun p => (⟨⟨p, _⟩, _⟩ : Cx)) (setWatch_setWatch _ _ _)

theorem retryMap_unread {c : Cx} {m : MapRec} (map : c.cap.writer.map = some m) (pending : c.cap.writer.mapPending = true)
    (unread : eccAt c.hub.port.ecc (c.cap.writer.mapList.header + 8) = some .uncorrectable) : c.retryMap =
      ⟨⟨({ c.hub.port with uncorrected := true } : Port).setWatch c.cap.slot (c.cap.writer.mapList.header + 8),
        c.hub.orders.setNews c.cap.slot .memoryFault⟩, c.cap⟩ := by
  rw [retryMap_some map pending, room_unread (id := .map) unread]
  rfl

theorem retryMap_places {c : Cx} {m : MapRec} {k : Nat} (map : c.cap.writer.map = some m) (pending : c.cap.writer.mapPending = true)
    (room : RoomAt c.hub.port c.cap.writer.mapList k) (lt : k < c.cap.writer.mapList.capacity) : c.retryMap =
      ⟨⟨mapPort c.hub.port c.cap.slot c.cap.writer m, c.hub.orders.setNews c.cap.slot .speedMap⟩,
        { c.cap with writer := Mapped c.cap.writer }⟩ := by
  rw [retryMap_some map pending, room_within (id := .map) room lt.le]
  exact (if_neg (Nat.sub_ne_zero_of_lt lt)).trans (writeMap_eq c m)

/-! ## The notices -/

section

variable {s : State} {cap : Capture} {n : Notice} {rest : List Notice}

theorem noticed_out (g : Group) : (noticed s rest cap).out g = cap.writer.groups.get g := rfl

/-- A notice that no group, and neither list, waits for. -/
theorem notice_nothing (mine : cap.slot ∈ n.slots) (idle : ∀ g, Idle (cap.writer.groups.get g) n.addr)
    (repair : n.addr = cap.writer.repairList.header + 8 → cap.writer.holding = [])
    (map : n.addr = cap.writer.mapList.header + 8 → cap.writer.map = none ∨ cap.writer.mapPending = false) :
    (noticed s rest cap).notice n = noticed s rest cap := by
  have first : (if n.addr = (noticed s rest cap).cap.writer.repairList.header + 8 then (noticed s rest cap).retryHeld
      else noticed s rest cap) = noticed s rest cap := by
    split
    · rename_i e
      exact retryHeld_none (repair e)
    · rfl
  rw [notice_lists (c := noticed s rest cap) mine idle]
  dsimp only
  rw [first]
  split
  · rename_i e
    exact retryMap_none (map e)
  · rfl

/-- A notice for the repair list's released count alone. -/
theorem notice_repair (mine : cap.slot ∈ n.slots) (idle : ∀ g, Idle (cap.writer.groups.get g) n.addr)
    (repair : n.addr = cap.writer.repairList.header + 8) (other : cap.writer.repairList.header + 8 ≠ cap.writer.mapList.header + 8)
    {p : Port} {u : OrderUnit} {x : Capture} (retried : (noticed s rest cap).retryHeld = ⟨⟨p, u⟩, x⟩)
    (same : x.writer.mapList = cap.writer.mapList) : (noticed s rest cap).notice n = ⟨⟨p, u⟩, x⟩ := by
  have first : (if n.addr = (noticed s rest cap).cap.writer.repairList.header + 8 then (noticed s rest cap).retryHeld
      else noticed s rest cap) = ⟨⟨p, u⟩, x⟩ := (if_pos repair).trans retried
  rw [notice_lists (c := noticed s rest cap) mine idle]
  dsimp only
  rw [first]
  refine if_neg ?_
  change ¬ n.addr = x.writer.mapList.header + 8
  rw [same, repair]
  exact other

/-- A notice for the speed map list's released count alone. -/
theorem notice_map (mine : cap.slot ∈ n.slots) (idle : ∀ g, Idle (cap.writer.groups.get g) n.addr)
    (map : n.addr = cap.writer.mapList.header + 8) (other : cap.writer.repairList.header + 8 ≠ cap.writer.mapList.header + 8) :
    (noticed s rest cap).notice n = (noticed s rest cap).retryMap := by
  have first : (if n.addr = (noticed s rest cap).cap.writer.repairList.header + 8 then (noticed s rest cap).retryHeld
      else noticed s rest cap) = noticed s rest cap := if_neg (fun e => other (e.symm.trans map))
  rw [notice_lists (c := noticed s rest cap) mine idle]
  dsimp only
  rw [first]
  exact if_pos map

variable (running : Capturing s cap) (mem : MemoryCanonical s) (notices : s.port.notices = n :: rest) (mine : cap.slot ∈ n.slots)
  (idle : ∀ g, Idle (cap.writer.groups.get g) n.addr)

include running notices mine idle

theorem watchNotice_nothing (repair : n.addr = cap.writer.repairList.header + 8 → cap.writer.holding = [])
    (map : n.addr = cap.writer.mapList.header + 8 → cap.writer.map = none ∨ cap.writer.mapPending = false) :
    exec .watchNotice s = .next { s with port := { s.port with notices := rest } } := by
  rw [watchNotice_exact running notices (notice_nothing mine idle repair map), ← running.2]

variable (other : cap.writer.repairList.header + 8 ≠ cap.writer.mapList.header + 8)

include other

/-- An unreadable released count (R8, R192). -/
theorem watchNotice_unread (unread : eccAt s.port.ecc n.addr = some .uncorrectable)
    (waits : n.addr = cap.writer.repairList.header + 8 ∧ cap.writer.holding ≠ [] ∨
      n.addr = cap.writer.mapList.header + 8 ∧ cap.writer.map ≠ none ∧ cap.writer.mapPending = true) :
    exec .watchNotice s = .next { s with
      port := ({ s.port with notices := rest, uncorrected := true } : Port).setWatch cap.slot n.addr
      orders := s.orders.setNews cap.slot .memoryFault } := by
  have served : (noticed s rest cap).notice n =
      ⟨⟨({ s.port with notices := rest, uncorrected := true } : Port).setWatch cap.slot n.addr,
        s.orders.setNews cap.slot .memoryFault⟩, cap⟩ := by
    rcases waits with ⟨repair, held⟩ | ⟨map, open_, pending⟩
    · rw [repair] at unread
      rw [notice_repair mine idle repair other (retryHeld_unread (c := noticed s rest cap) held unread) rfl, repair]
      rfl
    · obtain ⟨m, hm⟩ := Option.ne_none_iff_exists'.1 open_
      rw [map] at unread
      rw [notice_map mine idle map other, retryMap_unread (c := noticed s rest cap) hm pending unread, map]
      rfl
  rw [watchNotice_exact running notices served, ← running.2]

/-- The pending speed map record is placed. -/
theorem watchNotice_map (map : n.addr = cap.writer.mapList.header + 8) {m : MapRec} (open_ : cap.writer.map = some m)
    (pending : cap.writer.mapPending = true) {k : Nat} (room : Outstanding s cap.writer.mapList k)
    (lt : k < cap.writer.mapList.capacity) :
    ∃ t, exec .watchNotice s = .next t ∧ CaptureFrame { s with port := { s.port with notices := rest } } t ∧
      t.port = mapPort (noticePort s rest) cap.slot cap.writer m ∧ t.orders = s.orders.setNews cap.slot .speedMap ∧
      t.capture = some { cap with writer := Mapped cap.writer } :=
  watchNotice_next running notices ((notice_map mine idle map other).trans
    (retryMap_places (c := noticed s rest cap) open_ pending room lt))

include mem

/-- One held record is placed. -/
theorem watchNotice_one (repair : n.addr = cap.writer.repairList.header + 8) {r : RepairRec} {held : List RepairRec}
    (holding : cap.writer.holding = r :: held) {k : Nat} (room : Outstanding s cap.writer.repairList k)
    (lt : k < cap.writer.repairList.capacity) (small : cap.writer.repairList.capacity ≤ 4096)
    (last : held = [] ∨ k + 1 = cap.writer.repairList.capacity) :
    ∃ t, exec .watchNotice s = .next t ∧ CaptureFrame { s with port := { s.port with notices := rest } } t ∧
      t.port = (if held = [] then repairPort (noticePort s rest) cap.slot cap.writer r
        else (repairPort (noticePort s rest) cap.slot cap.writer r).setWatch cap.slot (cap.writer.repairList.header + 8)) ∧
      t.orders = s.orders.setNews cap.slot .repair ∧
      t.capture = some (withHolding { cap with writer := Repaired cap.writer } held) := by
  have placed := placeRepairs_one (c := noticed s rest cap) (r := r) mem room lt small last
  rw [← show (noticed s rest cap).cap.writer.holding = r :: held from holding, writeRepair_eq] at placed
  cases held with
  | nil => exact watchNotice_next running notices (notice_repair mine idle repair other (retryHeld_done placed) rfl)
  | cons x held => exact watchNotice_next running notices (notice_repair mine idle repair other (retryHeld_left placed) rfl)

/-- Held records are placed while there is room. -/
theorem watchNotice_held (repair : n.addr = cap.writer.repairList.header + 8) {k count : Nat}
    (counted : min cap.writer.holding.length (cap.writer.repairList.capacity - k) = count)
    (takes : ListTakes s cap.writer k count) :
    ∃ t p, exec .watchNotice s = .next t ∧ CaptureFrame { s with port := { s.port with notices := rest } } t ∧
      t.port = (if count = cap.writer.holding.length then p else p.setWatch cap.slot (cap.writer.repairList.header + 8)) ∧
      Wrote (noticePort s rest) p (repairRanges cap.slot cap.writer.repairList count) ∧
      RepairsIn p cap.writer.repairList (cap.writer.holding.take count) ∧
      (0 < count → Holds p (slotBase cap.slot + 0x60) (BitVec.ofNat 32 (min 4294967295 (cap.writer.repairWritten + count)))) ∧
      t.orders = (if 0 < count then s.orders.setNews cap.slot .repair else s.orders) ∧
      t.capture = some (withHolding { cap with writer := repairedBy cap.writer count } (cap.writer.holding.drop count)) := by
  obtain ⟨room, within, -, small, noWrap, written⟩ := takes
  have spec : PlacesRepairs (noticed s rest cap) cap.writer.holding count := counted ▸
    placeRepairs_spec cap.writer.holding (c := noticed s rest cap) mem room within small (by rw [← counted] at noWrap; exact noWrap)
      written
  obtain ⟨p, placed, wrote, records, progress⟩ := spec
  cases left : cap.writer.holding.drop count with
  | nil =>
    rw [left] at placed
    obtain ⟨t, step, frame, port, orders, capture⟩ := watchNotice_next running notices
      (notice_repair mine idle repair other (retryHeld_done placed) rfl)
    have all : count = cap.writer.holding.length := by
      have := List.drop_eq_nil_iff.1 left
      omega
    exact ⟨t, p, step, frame, by rw [if_pos all, port], wrote, records, progress, orders, capture⟩
  | cons x more =>
    rw [left] at placed
    obtain ⟨t, step, frame, port, orders, capture⟩ := watchNotice_next running notices
      (notice_repair mine idle repair other (retryHeld_left placed) rfl)
    have some_ : count ≠ cap.writer.holding.length := fun e => by
      rw [e, List.drop_length] at left
      cases left
    exact ⟨t, p, step, frame, by rw [if_neg some_, port]; rfl, wrote, records, progress, orders, capture⟩

end

end Sys2Proof.TransferMemory
end

section
/-! PROOFS. PLACE_REPAIR: an arriving repair record with those held before it (10, R196). -/

namespace Sys2Proof.TransferMemory

open Machine Safety Laws

/-- A list with as many records outstanding as it holds has no room (R192). -/
theorem room_full {c : Cx} {id : ListId} (h : RoomAt c.hub.port (c.cap.writer.list id) (c.cap.writer.list id).capacity) :
    c.room id = (0, c) := by
  rw [room_within h (Nat.le_refl _), Nat.sub_self]

/-! ## Arriving is placing behind the held ones -/

theorem placeRepairs_append {c : Cx} (xs ys : List RepairRec) : c.placeRepairs (xs ++ ys) =
    if (c.placeRepairs xs).1 = [] then (c.placeRepairs xs).2.placeRepairs ys
    else ((c.placeRepairs xs).1 ++ ys, (c.placeRepairs xs).2) := by
  induction xs generalizing c with
  | nil => rfl
  | cons r rest ih =>
    by_cases full : (c.room .repair).1 = 0
    · rw [List.cons_append, placeRepairs_stops (d := (c.room .repair).2) (Prod.ext full rfl),
        placeRepairs_stops (d := (c.room .repair).2) (Prod.ext full rfl), if_neg (List.cons_ne_nil _ _), List.cons_append]
    · rw [List.cons_append, placeRepairs_places r _ rfl full, placeRepairs_places r rest rfl full, ih]

/-- A capture in a hub, with its holding queue replaced. -/
def heldBy (c : Cx) (q : List RepairRec) : Cx := ⟨c.hub, withHolding c.cap q⟩

theorem room_heldBy (c : Cx) (q : List RepairRec) : (heldBy c q).room .repair = ((c.room .repair).1, heldBy (c.room .repair).2 q) := by
  rcases read : c.hub.port.checkedRead (c.cap.writer.repairList.header + 8) with ⟨v, p⟩
  have read₁ : c.hub.port.checkedRead ((c.cap.writer.list .repair).header + 8) = (v, p) := read
  have read₂ : (heldBy c q).hub.port.checkedRead (((heldBy c q).cap.writer.list .repair).header + 8) = (v, p) := read
  unfold Cx.room
  dsimp only
  rw [read₁, read₂]
  cases v with
  | none => rfl
  | some released =>
    dsimp only
    rw [show (heldBy c q).cap.writer.list .repair = c.cap.writer.list .repair from rfl]
    by_cases within : ((c.cap.writer.list .repair).written - released).toNat ≤ (c.cap.writer.list .repair).capacity
    · simp only [if_pos within]
      rfl
    · simp only [if_neg within]
      rfl

theorem placeRepairs_heldBy (q rs : List RepairRec) {c : Cx} :
    (heldBy c q).placeRepairs rs = ((c.placeRepairs rs).1, heldBy (c.placeRepairs rs).2 q) := by
  induction rs generalizing c with
  | nil => rfl
  | cons r rest ih =>
    by_cases full : (c.room .repair).1 = 0
    · rw [placeRepairs_stops (d := (c.room .repair).2) (Prod.ext full rfl),
        placeRepairs_stops (d := heldBy (c.room .repair).2 q) ((room_heldBy c q).trans (by rw [full]))]
    · rw [placeRepairs_places r rest rfl full, placeRepairs_places r rest (room_heldBy c q) full]
      exact ih (c := (c.room .repair).2.writeRepair r)

section

variable {c : Cx} {r : RepairRec} {p : Port} {u : OrderUnit} {cap : Capture}

theorem arriveRepair_places (h : c.placeRepairs (c.cap.writer.holding ++ [r]) = ([], ⟨⟨p, u⟩, cap⟩)) :
    c.arriveRepair r = ⟨⟨p, u⟩, withHolding cap []⟩ := by
  rcases held : c.placeRepairs c.cap.writer.holding with ⟨_ | ⟨x, left⟩, ⟨⟨p', u'⟩, cap'⟩⟩
  · rw [placeRepairs_append, held, if_pos rfl] at h
    have retried := retryHeld_done held
    have placed := placeRepairs_heldBy (c := ⟨⟨p', u'⟩, cap'⟩) [] [r]
    rw [h] at placed
    rw [arriveRepair_first (by rw [retried]; rfl), retried]
    dsimp only
    rw [show (⟨⟨p', u'⟩, withHolding cap' []⟩ : Cx) = heldBy ⟨⟨p', u'⟩, cap'⟩ [] from rfl, placed]
    rfl
  · rw [placeRepairs_append, held, if_neg (List.cons_ne_nil _ _)] at h
    simp at h

/-- Records are left, and the holding queue takes them (R196). -/
theorem arriveRepair_holds {l : List RepairRec} (h : c.placeRepairs (c.cap.writer.holding ++ [r]) = (l, ⟨⟨p, u⟩, cap⟩)) (ne : l ≠ [])
    (short : l.length ≤ 8) : c.arriveRepair r =
      ⟨⟨p.setWatch cap.slot (cap.writer.repairList.header + 8), u.setNews cap.slot .listFull⟩, withHolding cap l⟩ := by
  rcases held : c.placeRepairs c.cap.writer.holding with ⟨_ | ⟨x, left⟩, ⟨⟨p', u'⟩, cap'⟩⟩
  · rw [placeRepairs_append, held, if_pos rfl] at h
    have retried := retryHeld_done held
    have placed := placeRepairs_heldBy (c := ⟨⟨p', u'⟩, cap'⟩) [] [r]
    have whole : l = [r] := by
      have one : (⟨⟨p', u'⟩, cap'⟩ : Cx).placeRepairs [r] = _ := h
      by_cases full : ((⟨⟨p', u'⟩, cap'⟩ : Cx).room .repair).1 = 0
      · rw [placeRepairs_stops (d := ((⟨⟨p', u'⟩, cap'⟩ : Cx).room .repair).2) (Prod.ext full rfl)] at one
        exact (Prod.mk.inj one).1.symm
      · rw [placeRepairs_places r [] rfl full] at one
        exact absurd (Prod.mk.inj one).1.symm ne
    rw [h] at placed
    rw [arriveRepair_first (by rw [retried]; rfl), retried]
    dsimp only
    rw [show (⟨⟨p', u'⟩, withHolding cap' []⟩ : Cx) = heldBy ⟨⟨p', u'⟩, cap'⟩ [] from rfl, placed, if_neg ne, whole]
    rfl
  · rw [placeRepairs_append, held, if_neg (List.cons_ne_nil _ _)] at h
    obtain ⟨rfl, rest⟩ := Prod.mk.inj h
    obtain ⟨hub, rfl⟩ := Cx.mk.inj rest
    obtain ⟨rfl, rfl⟩ := Hub.mk.inj hub
    have room : (x :: left).length < 8 := by
      simp only [List.length_append, List.length_singleton] at short
      omega
    rw [arriveRepair_behind (retryHeld_left held) (List.cons_ne_nil _ _)]
    change (if (x :: left).length < 8 then _ else _) = _
    rw [if_pos room]
    exact congrArg (fun q => (⟨⟨q, _⟩, _⟩ : Cx)) (setWatch_setWatch _ _ _)

/-- Records are left, and the holding queue is full: the arriving one is suppressed (R196, R201). -/
theorem arriveRepair_suppressed {l : List RepairRec} (h : c.placeRepairs c.cap.writer.holding = (l, ⟨⟨p, u⟩, cap⟩))
    (long : 8 ≤ l.length) : c.arriveRepair r =
      ⟨⟨(p.setWatch cap.slot (cap.writer.repairList.header + 8)).store (slotBase cap.slot + 0x64)
          (word (min 4294967295 (cap.writer.suppressed + 1))), u.setNews cap.slot .listFull⟩,
        { cap with writer := { cap.writer with holding := l, suppressed := min 4294967295 (cap.writer.suppressed + 1) } }⟩ := by
  cases l with
  | nil => simp at long
  | cons x left =>
    rw [arriveRepair_behind (retryHeld_left h) (List.cons_ne_nil _ _)]
    change (if (x :: left).length < 8 then _ else _) = _
    rw [if_neg (Nat.not_lt.2 long), suppress_eq Nat.one_ne_zero]
    exact congrArg (fun q => (⟨⟨Port.store q _ _, _⟩, _⟩ : Cx)) (setWatch_setWatch _ _ _)

end

/-! ## PLACE_REPAIR -/

section

variable {s : State} {cap : Capture} {r : RepairRec} {rest : List RepairRec}

/-- The capture with its oldest handed record taken and its holding queue replaced. -/
def handedOn (cap : Capture) (rest l : List RepairRec) : Capture :=
  { cap with writer := { cap.writer with handed := rest, holding := l } }

theorem handedOn_holding (cap : Capture) (rest l q : List RepairRec) : withHolding (handedOn cap rest l) q = handedOn cap rest q := rfl

variable (running : Capturing s cap) (handed : cap.writer.handed = r :: rest)

include running handed

/-- An unreadable released count, nothing held (R8, R192). -/
theorem placeRepair_unread (held : cap.writer.holding = [])
    (unread : eccAt s.port.ecc (cap.writer.repairList.header + 8) = some .uncorrectable) :
    exec .placeRepair s = .next { s with
      port := ({ s.port with uncorrected := true } : Port).setWatch cap.slot (cap.writer.repairList.header + 8)
      orders := (s.orders.setNews cap.slot .memoryFault).setNews cap.slot .listFull
      capture := some (handedOn cap rest [r]) } := by
  have stops := placeRepairs_stops (r := r) (rest := []) (room_unread (c := handing s cap rest) (id := .repair) unread)
  refine (placeRepair_exact running handed (arriveRepair_holds
    (by rw [show (handing s cap rest).cap.writer.holding = [] from held]; exact stops) (List.cons_ne_nil _ _) (by simp))).trans ?_
  exact congrArg (fun p : Port => Host.Outcome.next { s with
    port := p, orders := (s.orders.setNews cap.slot .memoryFault).setNews cap.slot .listFull
    capture := some (handedOn cap rest [r]) }) (setWatch_setWatch _ _ _)

/-- The list has no room, and the holding queue has (R196). -/
theorem placeRepair_held (room : Outstanding s cap.writer.repairList cap.writer.repairList.capacity)
    (short : cap.writer.holding.length < 8) :
    exec .placeRepair s = .next { s with
      port := s.port.setWatch cap.slot (cap.writer.repairList.header + 8), orders := s.orders.setNews cap.slot .listFull
      capture := some (handedOn cap rest (cap.writer.holding ++ [r])) } := by
  have asked := room_full (c := handing s cap rest) (id := .repair) room
  obtain ⟨x, l, split⟩ := List.exists_cons_of_ne_nil (List.append_ne_nil_of_right_ne_nil cap.writer.holding (List.cons_ne_nil r []))
  have stops := placeRepairs_stops (r := x) (rest := l) asked
  rw [← split] at stops
  exact placeRepair_exact running handed (arriveRepair_holds stops (by simp) (by simp; omega))

/-- The list has no room, and the holding queue has none (R196). -/
theorem placeRepair_suppressed (room : Outstanding s cap.writer.repairList cap.writer.repairList.capacity)
    (long : 8 ≤ cap.writer.holding.length) :
    ∃ t, exec .placeRepair s = .next t ∧ CaptureFrame s t ∧
      t.port = (s.port.setWatch cap.slot (cap.writer.repairList.header + 8)).store (slotBase cap.slot + 0x64)
        (word (min 4294967295 (cap.writer.suppressed + 1))) ∧ t.orders = s.orders.setNews cap.slot .listFull ∧
      t.capture = some { cap with writer := { cap.writer with
        handed := rest, suppressed := min 4294967295 (cap.writer.suppressed + 1) } } := by
  have asked := room_full (c := handing s cap rest) (id := .repair) room
  have stops : (handing s cap rest).placeRepairs (handing s cap rest).cap.writer.holding =
      (cap.writer.holding, handing s cap rest) := by
    change (handing s cap rest).placeRepairs cap.writer.holding = _
    cases cap.writer.holding with
    | nil => rfl
    | cons x l => exact placeRepairs_stops asked
  exact placeRepair_next running handed (arriveRepair_suppressed stops long)

/-- The one record held goes into the last free place, the arriving one is held (R196). -/
theorem placeRepair_last (mem : MemoryCanonical s) {h : RepairRec} {k : Nat} (held : cap.writer.holding = [h]) (room : Outstanding s cap.writer.repairList k)
    (last : k + 1 = cap.writer.repairList.capacity) (small : cap.writer.repairList.capacity ≤ 4096) :
    ∃ t, exec .placeRepair s = .next t ∧ CaptureFrame s t ∧
      t.port = (repairPort s.port cap.slot cap.writer h).setWatch cap.slot (cap.writer.repairList.header + 8) ∧
      t.orders = (s.orders.setNews cap.slot .repair).setNews cap.slot .listFull ∧
      t.capture = some (handedOn { cap with writer := Repaired cap.writer } rest [r]) := by
  have placed := placeRepairs_one (c := handing s cap rest) (r := h) (held := [r]) mem room
    (show k < cap.writer.repairList.capacity by omega) small (.inr last)
  rw [writeRepair_eq] at placed
  exact placeRepair_next running handed (arriveRepair_holds
    (by rw [show (handing s cap rest).cap.writer.holding = [h] from held]; exact placed) (List.cons_ne_nil _ _) (by simp))

/-- The arriving record is placed. -/
theorem placeRepair_places {k : Nat} (held : cap.writer.holding = []) (room : Outstanding s cap.writer.repairList k)
    (lt : k < cap.writer.repairList.capacity) :
    ∃ t, exec .placeRepair s = .next t ∧ CaptureFrame s t ∧ t.port = repairPort s.port cap.slot cap.writer r ∧
      t.orders = s.orders.setNews cap.slot .repair ∧
      t.capture = some (handedOn { cap with writer := Repaired cap.writer } rest []) := by
  have placed : (handing s cap rest).placeRepairs [r] = ([], (handing s cap rest).writeRepair r) := by
    rw [placeRepairs_places r [] (room_within (c := handing s cap rest) (id := .repair) room lt.le) (Nat.sub_ne_zero_of_lt lt)]
    rfl
  rw [writeRepair_eq] at placed
  exact placeRepair_next running handed (arriveRepair_places
    (by rw [show (handing s cap rest).cap.writer.holding = [] from held]; exact placed))

end

end Sys2Proof.TransferMemory
end

section
/-! PROOFS. The notices and repair records together (10, 11, R100, R102, R189 to R196). -/

namespace Sys2Proof.TransferMemory

open Machine Safety Laws

/-! ## PLACE_REPAIR with any room -/

section

variable {s : State} {cap : Capture} {r : RepairRec} {rest : List RepairRec} (running : Capturing s cap)
  (handed : cap.writer.handed = r :: rest) (mem : MemoryCanonical s)

include running handed mem

/-- The held records and the arriving one are placed while there is room; the rest is held. -/
theorem placeRepair_room {k count : Nat}
    (counted : min (cap.writer.holding ++ [r]).length (cap.writer.repairList.capacity - k) = count)
    (takes : ListTakes s cap.writer k count) (short : cap.writer.holding.length < 8 + (cap.writer.repairList.capacity - k)) :
    ∃ t p, exec .placeRepair s = .next t ∧ CaptureFrame s t ∧
      t.port = (if (cap.writer.holding ++ [r]).drop count = [] then p
        else p.setWatch cap.slot (cap.writer.repairList.header + 8)) ∧
      Wrote s.port p (repairRanges cap.slot cap.writer.repairList count) ∧
      RepairsIn p cap.writer.repairList ((cap.writer.holding ++ [r]).take count) ∧
      (0 < count → Holds p (slotBase cap.slot + 0x60) (BitVec.ofNat 32 (min 4294967295 (cap.writer.repairWritten + count)))) ∧
      t.orders = (if (cap.writer.holding ++ [r]).drop count = []
        then (if 0 < count then s.orders.setNews cap.slot .repair else s.orders)
        else (if 0 < count then s.orders.setNews cap.slot .repair else s.orders).setNews cap.slot .listFull) ∧
      t.capture = some (handedOn { cap with writer := repairedBy cap.writer count } rest ((cap.writer.holding ++ [r]).drop count)) := by
  obtain ⟨room, within, -, small, noWrap, written⟩ := takes
  have spec : PlacesRepairs (handing s cap rest) (cap.writer.holding ++ [r]) count := counted ▸
    placeRepairs_spec (cap.writer.holding ++ [r]) (c := handing s cap rest) mem room within small
      (by rw [← counted] at noWrap; exact noWrap) written
  obtain ⟨p, placed, wrote, records, progress⟩ := spec
  rw [List.length_append, List.length_singleton] at counted
  cases left : (cap.writer.holding ++ [r]).drop count with
  | nil =>
    rw [left] at placed
    obtain ⟨t, step, frame, port, orders, capture⟩ := placeRepair_next running handed (arriveRepair_places placed)
    exact ⟨t, p, step, frame, by rw [if_pos rfl, port], wrote, records, progress, by rw [if_pos rfl]; exact orders, capture⟩
  | cons x more =>
    have few : (x :: more).length ≤ 8 := by
      rw [← left, List.length_drop, List.length_append, List.length_singleton]
      omega
    rw [left] at placed
    obtain ⟨t, step, frame, port, orders, capture⟩ := placeRepair_next running handed
      (arriveRepair_holds placed (List.cons_ne_nil _ _) few)
    exact ⟨t, p, step, frame, by rw [if_neg (List.cons_ne_nil _ _), port]; rfl, wrote, records, progress,
      by rw [if_neg (List.cons_ne_nil _ _)]; exact orders, capture⟩

omit mem in
/-- More records are outstanding than the list holds: full room, LIST_FULL and the fault flag (R192). -/
theorem placeRepair_over {k : Nat} (held : cap.writer.holding = []) (room : Outstanding s cap.writer.repairList k)
    (more : cap.writer.repairList.capacity < k) (pos : 0 < cap.writer.repairList.capacity) :
    ∃ t, exec .placeRepair s = .next t ∧ CaptureFrame s t ∧
      t.port = repairPort (s.port.store (slotBase cap.slot + 0x28) (cap.writer.setFault .repair).flagsWord) cap.slot
        (cap.writer.setFault .repair) r ∧
      t.orders = (s.orders.setNews cap.slot .listFull).setNews cap.slot .repair ∧
      t.capture = some (handedOn { cap with writer := Repaired (cap.writer.setFault .repair) } rest []) := by
  have placed := placeRepairs_places (c := handing s cap rest) r [] (room_over (id := .repair) room more) (Nat.pos_iff_ne_zero.1 pos)
  rw [writeRepair_eq] at placed
  exact placeRepair_next running handed (arriveRepair_places
    (by rw [show (handing s cap rest).cap.writer.holding = [] from held]; exact placed))

end

/-! ## The fields of a repair record (11, "Repair record") -/

theorem repairWords_fields (r : RepairRec) (hp : r.place < 4) (hm : r.minPresent < 8) (hv : r.voidRuns < 65536) (hl : r.longest < 65536)
    (hb : r.bridged < 65536) :
    let w := fun (i : Nat) => r.words.getD i 0
    let bits := fun (i high low : Nat) => (w i).toNat / 2 ^ low % 2 ^ (high + 1 - low)
    r.words.length = 8 ∧ w 0 = BitVec.ofNat 32 r.seq ∧
    bits 1 2 0 = (match r.kind with | .spare => 1 | .bridged => 2 | .weak => 3 | .lost => 4) ∧ bits 1 5 4 = r.place ∧
    bits 1 10 8 = r.minPresent ∧ bits 1 12 12 = flagBit r.cut ∧ bits 1 13 13 = flagBit r.noExcerpt ∧
    bits 1 14 14 = (if 0 < r.voidRuns then 1 else 0) ∧ bits 1 31 16 = r.absent.toNat ∧
    (∀ k ∈ [(3, 3), (7, 6), (11, 11), (15, 15)], bits 1 k.1 k.2 = 0) ∧
    w 2 = r.first ∧ w 3 = BitVec.ofNat 32 r.length ∧ w 4 = BitVec.ofNat 32 r.block ∧ w 5 = r.position ∧
    bits 6 15 0 = r.voidRuns ∧ bits 6 31 16 = r.longest ∧ bits 7 31 0 = r.bridged := by
  obtain ⟨kind, place, present, cut, without, voids, absent, zero3, zero6, zero11, zero15⟩ := repairFlags_fields
    (repairKindCode_lt r.kind) hp hm (flagBit_lt r.cut) (flagBit_lt r.noExcerpt) (flagBit_lt (decide (0 < r.voidRuns))) r.absent.isLt
  rw [← toNat_word] at kind place present cut without voids absent zero3 zero6 zero11 zero15
  have code : repairKindCode r.kind = (match r.kind with | .spare => 1 | .bridged => 2 | .weak => 3 | .lost => 4) := by
    cases r.kind <;> rfl
  have flag : flagBit (decide (0 < r.voidRuns)) = (if 0 < r.voidRuns then 1 else 0) := by
    by_cases h : 0 < r.voidRuns <;> simp [h, flagBit]
  refine ⟨rfl, rfl, kind.trans code, place, present, cut, without, voids.trans flag, absent, ?_, rfl, rfl, rfl, rfl, ?_, ?_, ?_⟩
  · simp only [List.mem_cons, List.not_mem_nil, or_false, forall_eq_or_imp, forall_eq]
    exact ⟨zero3, zero6, zero11, zero15⟩
  · change (word (r.voidRuns + 65536 * r.longest)).toNat / 1 % 65536 = _
    rw [toNat_word]
    omega
  · change (word (r.voidRuns + 65536 * r.longest)).toNat / 65536 % 65536 = _
    rw [toNat_word]
    omega
  · change (word r.bridged).toNat / 1 % 4294967296 = _
    rw [toNat_word]
    omega

/-! ## What the lane monitor learns (R100, R102, R156) -/

theorem laneNote_spec (lanes : List LaneNo) (m : LaneMonitor) (segment index : Nat) :
    let y := LaneMonitor.note lanes m (segment, index)
    let told := fun (d : Dropout) =>
      { d with firstOut := if d.firstOut = none ∧ d.opening ≤ segment then some index else d.firstOut }
    y = { m with lanes := y.lanes, closed := y.closed } ∧
    (∀ l, getAt y.lanes l = if l ∈ lanes then (getAt m.lanes l).map fun x => { x with dropout := x.dropout.map told }
      else getAt m.lanes l) ∧
    y.closed = m.closed.map fun d => if d.lane ∈ lanes then { d with
      drop := told d.drop
      length := if d.length = none ∧ d.closing.any (fun c => decide (c ≤ segment)) = true
        then some (min 4294967295 (index - (told d.drop).firstOut.getD index)) else d.length } else d := by
  dsimp only
  refine ⟨rfl, fun l => ?_, ?_⟩
  · rw [note_lanes]
    have told : LaneState.note segment index = fun x => { x with dropout := x.dropout.map fun d => { d with
        firstOut := if d.firstOut = none ∧ d.opening ≤ segment then some index else d.firstOut } } := by
      funext x
      simp only [LaneState.note, Dropout_note_eq]
    rw [told]
  · simp only [LaneMonitor.note, closedDropout_note_eq, Dropout_note_eq]

theorem laneNoteEnd_spec (lanes : List LaneNo) (m : LaneMonitor) (block next : Nat) : m.noteEnd lanes block next = { m with
    closed := m.closed.map fun d => if d.lane ∈ lanes ∧ d.length = none ∧ d.closing = none ∧ d.finalBlock = block
      then { d with length := some (min 4294967295 (next - d.drop.firstOut.getD next)) } else d } := by
  simp only [LaneMonitor.noteEnd, ClosedDropout.noteEnd, dropoutLength, max32, ite_and]

end Sys2Proof.TransferMemory
end

section
/-! PROOFS. The statement about notices and repair records. -/

namespace Sys2Proof.TransferMemory

open Machine Safety Laws

/-! ## A group's notice -/

section

variable {s : State} {cap : Capture} {n : Notice} {rest : List Notice} {g : Group} {o : GroupOut} {d : SpanDesc}

theorem Serves.waits_exec (w : Serves s cap n rest g o d) {v : Word} (some_ : o.queue ≠ [])
    (page : ∀ i ∈ o.queue.head?, ∃ f fs, i = SpillItem.page (f :: fs)) (state : Stored s d.addr v) (ne : v ≠ 0) :
    exec .watchNotice s = .next { s with port := (noticePort s rest).setWatch cap.slot d.addr } := by
  obtain ⟨i, tail, queue⟩ := List.exists_cons_of_ne_nil some_
  obtain ⟨f, fs, rfl⟩ := page i (by rw [queue]; rfl)
  rw [watchNotice_exact w.running w.notices (w.waits queue state ne), ← w.running.2]

/-- The head of the queue fills the span; the next one is not given, and the rest waits for it: in the statement's words. -/
theorem Serves.refuses (w : Serves s cap n rest g o d) {f : Frame} {fs : List Frame} {len : Nat} {e : SpanDesc}
    {pages : List (List Frame)} (queue : o.queue = pages.map .page) (flat : pages.flatten = f :: fs)
    (lengths : SameLength len (f :: fs)) (pos : 0 < len) {before : List (List Frame)} {start : List Frame} {h : Frame}
    {l : List Frame} {behind : List (List Frame)} (split : pages = before ++ (start ++ h :: l) :: behind)
    (fills : len * (before.flatten ++ start).length = d.capacity) (positive : 0 < d.capacity) (state : Stored s d.addr 0)
    {v : Word} (next : Stored s e.addr v) (ne : v ≠ 0) (span : cursorSpan (movedOn o [] false) = e)
    (apart : Apart (d.addr, 32) (d.buffer, d.capacity))
    (apartAddr : Apart (e.addr, 4) (d.addr, 32)) (apartBuffer : Apart (e.addr, 4) (d.buffer, d.capacity)) :
    ∃ t, exec .watchNotice s = .next t ∧ CaptureFrame { s with port := { s.port with notices := rest } } t ∧
      t.orders = s.orders.setNews cap.slot (spanCause g) ∧
      ShowsSpan t d 2 d.capacity (before.flatten ++ start).length f.index f.position (lossFlag o.afterLoss) ∧
      FramesAt t d.buffer len (before.flatten ++ start) ∧
      t.capture = some (putOut cap g (movedOn o (((h :: l) :: behind).map .page) false)) ∧
      t.port.guard = ((noticePort s rest).setWatch cap.slot e.addr).guard ∧
      MemoryKeptOutside s t [(d.buffer, d.capacity), (d.addr, 4), (d.addr + 0x0C, 20)] := by
  have whole : before.flatten ++ start ++ (h :: l ++ behind.flatten) = f :: fs := by
    rw [← flat, split]
    simp
  cases head : before.flatten ++ start with
  | nil =>
    rw [head, List.length_nil, Nat.mul_zero] at fills
    omega
  | cons x fit =>
    rw [head, List.cons_append] at whole
    obtain ⟨rfl, rest⟩ := List.cons.inj whole
    rw [head] at fills
    exact w.refused (split ▸ queue) head (fun y hy => lengths y (by
      rw [← whole, ← List.cons_append]; exact List.mem_append_left _ hy)) pos state fills apart span next ne apartAddr apartBuffer

end

/-! ## The lists' notices and PLACE_REPAIR, in the statement's words -/

theorem watchNotice_empty {s : State} (working : Working s) (none_ : s.port.notices = []) : exec .watchNotice s = .next s := by
  change execWatchNotice s = _
  unfold execWatchNotice
  rw [engineStep_warm working, none_]

theorem watchNotice_foreign {s : State} {n : Notice} {rest : List Notice} (working : Working s) (notices : s.port.notices = n :: rest)
    (foreign : ∀ cap, s.capture = some cap → cap.slot ∉ n.slots) :
    exec .watchNotice s = .next { s with port := { s.port with notices := rest } } := by
  cases capture : s.capture with
  | none =>
    change execWatchNotice s = _
    unfold execWatchNotice
    rw [engineStep_warm working, notices]
    dsimp only
    rw [capture]
  | some cap =>
    rw [watchNotice_exact ⟨working, capture⟩ notices (notice_foreign (foreign cap capture)), ← capture]

section

variable {s : State} {cap : Capture} {n : Notice} {rest : List Notice} (running : Capturing s cap)
  (notices : s.port.notices = n :: rest) (mine : cap.slot ∈ n.slots) (idle : ∀ g, Idle (cap.writer.groups.get g) n.addr)
  (other : cap.writer.repairList.header + 8 ≠ cap.writer.mapList.header + 8) (mem : MemoryCanonical s)

include running notices mine idle other mem

theorem watchNotice_held_spec (repair : n.addr = cap.writer.repairList.header + 8) {k count : Nat}
    (counted : min cap.writer.holding.length (cap.writer.repairList.capacity - k) = count)
    (takes : ListTakes s cap.writer k count) :
    ∃ t, exec .watchNotice s = .next t ∧ CaptureFrame { s with port := { s.port with notices := rest } } t ∧
      RepairsPlaced t cap.writer.repairList (cap.writer.holding.take count) ∧
      (0 < count → Stored t (slotBase cap.slot + 0x60) (BitVec.ofNat 32 (min 4294967295 (cap.writer.repairWritten + count)))) ∧
      MemoryKeptOutside s t (repairRanges cap.slot cap.writer.repairList count) ∧
      t.orders = (if 0 < count then s.orders.setNews cap.slot .repair else s.orders) ∧
      t.port.guard = (if count = cap.writer.holding.length then s.port.guard
        else (s.port.setWatch cap.slot (cap.writer.repairList.header + 8)).guard) ∧
      t.capture = some (withHolding { cap with writer := repairedBy cap.writer count } (cap.writer.holding.drop count)) := by
  obtain ⟨t, p, step, frame, port, wrote, records, progress, orders, capture⟩ :=
    watchNotice_held running mem notices mine idle other repair counted takes
  split at port
  case isTrue all =>
    rw [← port] at wrote records progress
    exact ⟨t, step, frame, records, progress, wrote.bytes mem, orders, by rw [if_pos all]; exact wrote.guard, capture⟩
  case isFalse some_ =>
    refine ⟨t, step, frame, ?_, ?_, fun a ha => ?_, orders, ?_, capture⟩
    · rw [← repairsIn_iff, port]; exact records
    · intro pos
      rw [← holds_iff_stored, port]; exact progress pos
    · rw [port]; exact wrote.bytes mem a ha
    · rw [if_neg some_, port, Port.setWatch, wrote.guard]; rfl

theorem watchNotice_one_spec (repair : n.addr = cap.writer.repairList.header + 8) {r : RepairRec} {held : List RepairRec}
    (holding : cap.writer.holding = r :: held) {k : Nat} (room : Outstanding s cap.writer.repairList k)
    (lt : k < cap.writer.repairList.capacity) (small : cap.writer.repairList.capacity ≤ 4096)
    (last : held = [] ∨ k + 1 = cap.writer.repairList.capacity) :
    ∃ t, exec .watchNotice s = .next t ∧ CaptureFrame { s with port := { s.port with notices := rest } } t ∧
      (∀ (i : Nat) (v : Word), r.words[i]? = some v → Stored t (nextPlace cap.writer.repairList 32 + 4 * i) v) ∧
      Stored t (cap.writer.repairList.header + 4) (cap.writer.repairList.written + 1) ∧
      Stored t (slotBase cap.slot + 0x60) (BitVec.ofNat 32 (upTo 4294967295 cap.writer.repairWritten)) ∧
      MemoryKeptOutside s t [(nextPlace cap.writer.repairList 32, 32), (cap.writer.repairList.header + 4, 4),
        (slotBase cap.slot + 0x60, 4)] ∧
      t.orders = s.orders.setNews cap.slot .repair ∧
      t.port.guard = (if held = [] then s.port.guard else (s.port.setWatch cap.slot (cap.writer.repairList.header + 8)).guard) ∧
      t.capture = some (withHolding { cap with writer := Repaired cap.writer } held) := by
  obtain ⟨t, step, frame, port, orders, capture⟩ :=
    watchNotice_one running mem notices mine idle other repair holding room lt small last
  obtain ⟨words, list, progress, wrote⟩ := repairPort_spec (p := noticePort s rest) mem cap.slot room.1 r
  obtain ⟨q, hq⟩ : ∃ q, q = repairPort (noticePort s rest) cap.slot cap.writer r := ⟨_, rfl⟩
  rw [← hq] at port words list progress wrote
  split at port
  case isTrue all =>
    rw [← port] at words list progress wrote
    exact ⟨t, step, frame, words, list, progress, wrote.bytes mem, orders, by rw [if_pos all]; exact wrote.guard, capture⟩
  case isFalse some_ =>
    refine ⟨t, step, frame, fun i v hv => ?_, ?_, ?_, fun a ha => ?_, orders, ?_, capture⟩
    · rw [← holds_iff_stored, port]; exact words i v hv
    · rw [← holds_iff_stored, port]; exact list
    · rw [← holds_iff_stored, port]; exact progress
    · rw [port]; exact wrote.bytes mem a ha
    · rw [if_neg some_, port, Port.setWatch, wrote.guard]; rfl

theorem watchNotice_map_spec (map : n.addr = cap.writer.mapList.header + 8) {m : MapRec} (open_ : cap.writer.map = some m)
    (pending : cap.writer.mapPending = true) {k : Nat} (room : Outstanding s cap.writer.mapList k)
    (lt : k < cap.writer.mapList.capacity) :
    ∃ t, exec .watchNotice s = .next t ∧ CaptureFrame { s with port := { s.port with notices := rest } } t ∧
      (∀ (i : Nat) (v : Word), (m.words cap.writer.mapWritten)[i]? = some v → Stored t (nextPlace cap.writer.mapList 64 + 4 * i) v) ∧
      Stored t (cap.writer.mapList.header + 4) (cap.writer.mapList.written + 1) ∧
      Stored t (slotBase cap.slot + 0x5C) (BitVec.ofNat 32 (upTo 4294967295 cap.writer.mapWritten)) ∧
      MemoryKeptOutside s t [(nextPlace cap.writer.mapList 64, 64), (cap.writer.mapList.header + 4, 4),
        (slotBase cap.slot + 0x5C, 4)] ∧
      t.orders = s.orders.setNews cap.slot .speedMap ∧ t.capture = some { cap with writer := Mapped cap.writer } := by
  obtain ⟨t, step, frame, port, orders, capture⟩ := watchNotice_map running notices mine idle other map open_ pending room lt
  obtain ⟨words, list, progress, wrote⟩ := mapPort_spec (p := noticePort s rest) mem cap.slot room.1 m
  rw [← port] at words list progress wrote
  exact ⟨t, step, frame, words, list, progress, wrote.bytes mem, orders, capture⟩

end

section

variable {s : State} {cap : Capture} {r : RepairRec} {rest : List RepairRec} (running : Capturing s cap)
  (handed : cap.writer.handed = r :: rest)

include running handed

theorem placeRepair_full_spec (none_ : cap.writer.holding = [])
    (room : Outstanding s cap.writer.repairList cap.writer.repairList.capacity) :
    ∃ t, exec .placeRepair s = .next t ∧ CaptureFrame s t ∧ t.port.mem = s.port.mem ∧
      t.port.guard = (s.port.setWatch cap.slot (cap.writer.repairList.header + 8)).guard ∧
      t.orders = s.orders.setNews cap.slot .listFull ∧ t.capture = some (handedOn cap rest [r]) := by
  have step := placeRepair_held running handed room (by rw [none_]; simp)
  rw [none_] at step
  exact ⟨_, step, ⟨rfl, rfl⟩, rfl, rfl, rfl, rfl⟩

variable (mem : MemoryCanonical s)

include mem

theorem placeRepair_suppressed_spec (room : Outstanding s cap.writer.repairList cap.writer.repairList.capacity)
    (long : 8 ≤ cap.writer.holding.length) :
    ∃ t, exec .placeRepair s = .next t ∧ CaptureFrame s t ∧
      Stored t (slotBase cap.slot + 0x64) (BitVec.ofNat 32 (min 4294967295 (cap.writer.suppressed + 1))) ∧
      MemoryKeptOutside s t [(slotBase cap.slot + 0x64, 4)] ∧
      t.port.guard = (s.port.setWatch cap.slot (cap.writer.repairList.header + 8)).guard ∧
      t.orders = s.orders.setNews cap.slot .listFull ∧
      t.capture = some { cap with writer := { cap.writer with
        handed := rest, suppressed := min 4294967295 (cap.writer.suppressed + 1) } } := by
  obtain ⟨t, step, frame, port, orders, capture⟩ := placeRepair_suppressed running handed room long
  have mem' : Memory.wf (s.port.setWatch cap.slot (cap.writer.repairList.header + 8)).mem = true := mem
  have holds := holds_store mem' (slotBase cap.slot + 0x64) (word (min 4294967295 (cap.writer.suppressed + 1)))
  have wrote := wrote_store (s.port.setWatch cap.slot (cap.writer.repairList.header + 8)) (slotBase cap.slot + 0x64)
    (word (min 4294967295 (cap.writer.suppressed + 1)))
  rw [← port] at holds wrote
  exact ⟨t, step, frame, holds, wrote.bytes mem', wrote.guard, orders, capture⟩

theorem placeRepair_last_spec {h : RepairRec} {k : Nat} (held : cap.writer.holding = [h]) (room : Outstanding s cap.writer.repairList k)
    (last : k + 1 = cap.writer.repairList.capacity) (small : cap.writer.repairList.capacity ≤ 4096) :
    ∃ t, exec .placeRepair s = .next t ∧ CaptureFrame s t ∧
      (∀ (i : Nat) (v : Word), h.words[i]? = some v → Stored t (nextPlace cap.writer.repairList 32 + 4 * i) v) ∧
      Stored t (cap.writer.repairList.header + 4) (cap.writer.repairList.written + 1) ∧
      Stored t (slotBase cap.slot + 0x60) (BitVec.ofNat 32 (upTo 4294967295 cap.writer.repairWritten)) ∧
      MemoryKeptOutside s t [(nextPlace cap.writer.repairList 32, 32), (cap.writer.repairList.header + 4, 4),
        (slotBase cap.slot + 0x60, 4)] ∧
      t.port.guard = (s.port.setWatch cap.slot (cap.writer.repairList.header + 8)).guard ∧
      t.orders = (s.orders.setNews cap.slot .repair).setNews cap.slot .listFull ∧
      t.capture = some (handedOn { cap with writer := Repaired cap.writer } rest [r]) := by
  obtain ⟨t, step, frame, port, orders, capture⟩ := placeRepair_last running handed mem held room last small
  obtain ⟨words, list, progress, wrote⟩ := repairPort_spec mem cap.slot room.1 h
  obtain ⟨q, hq⟩ : ∃ q, q = repairPort s.port cap.slot cap.writer h := ⟨_, rfl⟩
  rw [← hq] at port words list progress wrote
  refine ⟨t, step, frame, fun i v hv => ?_, ?_, ?_, fun a ha => ?_, ?_, orders, capture⟩
  · rw [← holds_iff_stored, port]; exact words i v hv
  · rw [← holds_iff_stored, port]; exact list
  · rw [← holds_iff_stored, port]; exact progress
  · rw [port]; exact wrote.bytes mem a ha
  · rw [port, Port.setWatch, wrote.guard]; rfl

theorem placeRepair_room_spec {k count : Nat}
    (counted : min (cap.writer.holding ++ [r]).length (cap.writer.repairList.capacity - k) = count)
    (takes : ListTakes s cap.writer k count) (short : cap.writer.holding.length < 8 + (cap.writer.repairList.capacity - k)) :
    ∃ t, exec .placeRepair s = .next t ∧ CaptureFrame s t ∧
      RepairsPlaced t cap.writer.repairList ((cap.writer.holding ++ [r]).take count) ∧
      (0 < count → Stored t (slotBase cap.slot + 0x60) (BitVec.ofNat 32 (min 4294967295 (cap.writer.repairWritten + count)))) ∧
      MemoryKeptOutside s t (repairRanges cap.slot cap.writer.repairList count) ∧
      t.port.guard = (if (cap.writer.holding ++ [r]).drop count = [] then s.port.guard
        else (s.port.setWatch cap.slot (cap.writer.repairList.header + 8)).guard) ∧
      t.orders = (if (cap.writer.holding ++ [r]).drop count = []
        then (if 0 < count then s.orders.setNews cap.slot .repair else s.orders)
        else (if 0 < count then s.orders.setNews cap.slot .repair else s.orders).setNews cap.slot .listFull) ∧
      t.capture = some (handedOn { cap with writer := repairedBy cap.writer count } rest ((cap.writer.holding ++ [r]).drop count)) := by
  obtain ⟨t, p, step, frame, port, wrote, records, progress, orders, capture⟩ :=
    placeRepair_room running handed mem counted takes short
  refine ⟨t, step, frame, ?_⟩
  split at port
  case isTrue all =>
    rw [← port] at wrote records progress
    exact ⟨records, progress, wrote.bytes mem, by rw [if_pos all]; exact wrote.guard, orders, capture⟩
  case isFalse some_ =>
    refine ⟨?_, ?_, fun a ha => ?_, ?_, orders, capture⟩
    · rw [← repairsIn_iff, port]; exact records
    · intro pos
      rw [← holds_iff_stored, port]; exact progress pos
    · rw [port]; exact wrote.bytes mem a ha
    · rw [if_neg some_, port, Port.setWatch, wrote.guard]; rfl

theorem placeRepair_places_spec {k : Nat} (none_ : cap.writer.holding = []) (room : Outstanding s cap.writer.repairList k)
    (lt : k < cap.writer.repairList.capacity) :
    ∃ t, exec .placeRepair s = .next t ∧ (CaptureFrame s t ∧
      (∀ (i : Nat) (v : Word), r.words[i]? = some v → Stored t (nextPlace cap.writer.repairList 32 + 4 * i) v) ∧
      Stored t (cap.writer.repairList.header + 4) (cap.writer.repairList.written + 1) ∧
      Stored t (slotBase cap.slot + 0x60) (BitVec.ofNat 32 (upTo 4294967295 cap.writer.repairWritten)) ∧
      MemoryKeptOutside s t [(nextPlace cap.writer.repairList 32, 32), (cap.writer.repairList.header + 4, 4),
        (slotBase cap.slot + 0x60, 4)]) ∧
      t.orders = s.orders.setNews cap.slot .repair ∧
      t.capture = some { cap with writer := { Repaired cap.writer with handed := rest } } := by
  obtain ⟨t, step, frame, port, orders, capture⟩ := placeRepair_places running handed none_ room lt
  obtain ⟨words, list, progress, wrote⟩ := repairPort_spec mem cap.slot room.1 r
  rw [← port] at words list progress wrote
  rw [handedOn, ← none_] at capture
  exact ⟨t, step, ⟨frame, words, list, progress, wrote.bytes mem⟩, orders, capture⟩

theorem placeRepair_over_spec {k : Nat} (none_ : cap.writer.holding = []) (room : Outstanding s cap.writer.repairList k)
    (more : cap.writer.repairList.capacity < k) (pos : 0 < cap.writer.repairList.capacity) :
    ∃ t, exec .placeRepair s = .next t ∧ (CaptureFrame s t ∧
      (∀ (i : Nat) (v : Word), r.words[i]? = some v → Stored t (nextPlace cap.writer.repairList 32 + 4 * i) v) ∧
      Stored t (cap.writer.repairList.header + 4) (cap.writer.repairList.written + 1) ∧
      Stored t (slotBase cap.slot + 0x60) (BitVec.ofNat 32 (upTo 4294967295 cap.writer.repairWritten)) ∧
      MemoryKeptOutside s t [(nextPlace cap.writer.repairList 32, 32), (cap.writer.repairList.header + 4, 4),
        (slotBase cap.slot + 0x60, 4), (slotBase cap.slot + 0x28, 4)]) ∧
      Stored t (slotBase cap.slot + 0x28) (BitVec.ofNat 32 (flagBit cap.writer.faultMap + 2 + 4 * flagBit cap.writer.mapDropped)) ∧
      t.orders = (s.orders.setNews cap.slot .listFull).setNews cap.slot .repair ∧
      t.capture = some { cap with writer := { Repaired cap.writer with handed := rest, faultRepair := true } } := by
  obtain ⟨t, step, frame, port, orders, capture⟩ := placeRepair_over running handed none_ room more pos
  have marked := wrote_store s.port (slotBase cap.slot + 0x28) (cap.writer.setFault .repair).flagsWord
  have flags := holds_store (p := s.port) mem (slotBase cap.slot + 0x28) (cap.writer.setFault .repair).flagsWord
  obtain ⟨words, list, progress, wrote⟩ := repairPort_spec (marked.wf mem) cap.slot
    (w := cap.writer.setFault .repair) room.1 r
  have kept := wrote.holds (marked.wf mem) flags (fun x hx => by
    have low := slotBase_lt cap.slot
    have past := room.1
    have place : cap.writer.repairList.header + 16 ≤ nextPlace cap.writer.repairList 32 := Nat.le_add_right _ _
    simp only [List.mem_cons, List.not_mem_nil, or_false] at hx
    rcases hx with rfl | rfl | rfl
    · change Apart _ (nextPlace cap.writer.repairList 32, 32)
      simp only [Apart]; omega
    · change Apart _ (cap.writer.repairList.header + 4, 4)
      simp only [Apart]; omega
    · simp only [Apart]; omega)
  have writes := marked.trans wrote
  rw [← port] at words list progress kept writes
  rw [handedOn, ← none_] at capture
  exact ⟨t, step, ⟨frame, words, list, progress, (writes.cover fun a ha => by
    simp only [outside_append, outside_cons, outside_nil, and_true] at ha ⊢
    exact ⟨ha.2.2.2, ha.1, ha.2.1, ha.2.2.1⟩).bytes mem⟩, kept, orders, capture⟩

end

end Sys2Proof.TransferMemory

namespace Sys2Proof

open Machine Safety Laws TransferMemory

/-- Settles O58: a notice drains one group's queue or tries the held records again, PLACE_REPAIR places the records behind those
held; each is computed on the port and the capture alone. -/
theorem noticesAndRepairRecords : Obligations.NoticesAndRepairRecords := by
  unfold Obligations.NoticesAndRepairRecords
  refine ⟨repairWords_fields, ⟨laneNote_spec, laneNoteEnd_spec, splitComplete_spec⟩, ?_, ?_, ?_, ?_, ?_⟩
  · exact fun s working none_ => watchNotice_empty working none_
  · exact fun s n rest working notices foreign => watchNotice_foreign working notices foreign
  · intro s cap n rest running mem notices mine w watched repairWord mapWord frame
    refine ⟨?_, ?_, ?_⟩
    · intro g repair map others o d next e withOut spanNews flags addr filling
      have serves : Serves s cap n rest g o d := ⟨running, mem, notices, mine, repair, map, others, rfl, rfl, addr, filling⟩
      refine ⟨fun v some_ page state ne => serves.waits_exec some_ page state ne, fun state apart positive => ⟨?_, ?_, ?_⟩⟩
      · intro pages f fs len queue flat lengths pos all
        refine ⟨fun fits lost => serves.fits queue flat lengths pos lost state apart fits,
          fun fits lost => serves.fitsLost queue flat lengths pos lost state apart fits,
          fun fills => serves.fills queue flat lengths pos state apart fills,
          fun fit h left split lost fills given fits apart' =>
            serves.spills queue flat lengths pos split lost fills positive state given rfl fits apart',
          fun before start h left behind v split fills taken ne apartAddr apartBuffer => ?_⟩
        exact serves.refuses queue flat lengths pos split fills positive state taken ne rfl apart apartAddr apartBuffer
      · exact fun f queue lost fits => serves.markFits queue lost state fits apart
      · exact fun f h v queue fits taken ne apartAddr apartBuffer =>
          serves.markRefused queue state fits apart rfl taken ne apartAddr apartBuffer
    · exact fun idle repair map => watchNotice_nothing running notices mine idle repair map
    · intro empty
      have idle : ∀ g, Idle (cap.writer.groups.get g) n.addr := fun g => .inl (empty g)
      refine ⟨?_, ?_, ?_, ?_⟩
      · intro k repair other some_ l count takes
        exact watchNotice_held_spec running notices mine idle other mem repair rfl takes
      · intro a addr other unread waits
        subst addr
        exact watchNotice_unread running notices mine idle other unread waits
      · intro r held k repair other holding small room lt last l
        exact watchNotice_one_spec running notices mine idle other mem repair holding room lt small last
      · intro m k map other open_ pending room lt l
        exact watchNotice_map_spec running notices mine idle other mem map open_ pending room lt
  · intro s cap r rest running mem handed w l held watched full
    exact ⟨fun none_ unread => placeRepair_unread running handed none_ unread,
      fun _ room short => placeRepair_held running handed room short,
      fun _ room long => placeRepair_suppressed_spec running handed mem room long,
      fun h k held room last small => placeRepair_last_spec running handed mem held room last small,
      fun k takes short => placeRepair_room_spec running handed mem rfl takes short⟩
  · intro s cap r rest n running mem handed none_ w l placed after room
    exact ⟨fun lt => placeRepair_places_spec running handed mem none_ room lt,
      fun full => placeRepair_full_spec running handed none_ (full ▸ room),
      fun more pos => placeRepair_over_spec running handed mem none_ room more pos⟩

end Sys2Proof
end

section
/-! PROOFS. Validation: what has come due first, refusal, cancelling and acceptance (02, R27, R32, R33, R36 to R38). -/

namespace Sys2Proof.TransferMemory

open Machine Safety Laws

/-! ## What has come due in the speed reference unit (log 20) -/

/-- Of the order unit only the end reports differ. -/
def OnlyEndsDiffer (o p : OrderUnit) : Prop := p = { o with ends := p.ends }

theorem OnlyEndsDiffer.trans {o p q : OrderUnit} (h : OnlyEndsDiffer o p) (k : OnlyEndsDiffer p q) : OnlyEndsDiffer o q := by
  unfold OnlyEndsDiffer at *
  rw [k, h]

theorem endsDiffer_settleSource (c : Cx) (g : Group) : OnlyEndsDiffer c.hub.orders (c.settleSource g).hub.orders := by
  unfold Cx.settleSource
  split
  · rfl
  · split
    · split
      · rfl
      · unfold Cx.writeProbation
        split <;> rfl
    · rfl

theorem settled_orders (s : State) : OnlyEndsDiffer s.orders (settled s).orders := by
  unfold settled State.onCapture
  split
  · rfl
  · rename_i cap _
    exact (endsDiffer_settleSource ⟨s.hub, cap⟩ .a).trans (endsDiffer_settleSource _ .b)

theorem settled_slot (s : State) (n : SlotNo) : (settled s).orders.slot n = s.orders.slot n := by
  rw [settled_orders s]
  rfl

/-! ## VALIDATE -/

theorem exec_validate {s : State} {n : SlotNo} {copy : CopyResult} (ready : Ready s) (taking : s.orders.taking = some ⟨n, copy⟩)
    (live : (s.orders.slot n).state = .taken ∨ (s.orders.slot n).state = .stopping) :
    exec .validate s = .next (validateSlot (settled s) n copy) := by
  change execValidate s = _
  unfold execValidate
  rw [taking]
  exact if_pos ⟨ready, live⟩

/-- An order taken out of the validation with its slot finished. -/
def endTaken (s : State) (n : SlotNo) (out : OrderOutcome) (code : RefusalCode) (late : Bool) : State :=
  s.setHub { s.hub.finish n out code late with orders := { (s.hub.finish n out code late).orders with taking := none } }

theorem refuseOrder_eq (s : State) (n : SlotNo) (e : RefusalCode) :
    refuseOrder s n e = endTaken s n .refused e (decide ((s.orders.slot n).state = .stopping)) := rfl

theorem cancelTaken_eq (s : State) (n : SlotNo) : cancelTaken s n = endTaken s n .cancelled .none false := rfl

theorem finished_endTaken {s : State} (mem : MemoryCanonical s) (n : SlotNo) (out : OrderOutcome) (code : RefusalCode) (late : Bool) :
    Finished s (endTaken s n out code late) n out code late ∧ endTaken s n out code late = { s with
      port := (endTaken s n out code late).port
      orders := { s.orders with
        slots := (endTaken s n out code late).orders.slots, summary := (endTaken s n out code late).orders.summary, taking := none } } := by
  obtain ⟨port, own, others, orders, summary⟩ := conclude_spec s.hub n out code late
  obtain ⟨word, fresh, outside, checks⟩ := store_spec (p := s.port) mem (slotBase n + 0x0C) (outcomeWord out code late)
  have same : (endTaken s n out code late).port = (s.port.store (slotBase n + 0x0C) (outcomeWord out code late)).dropEntries n := by
    rw [← show s.hub.port = s.port from rfl, ← port]
    rfl
  refine ⟨⟨?_, ?_, ?_, ?_, own, others, ?_⟩, ?_⟩
  · rw [← holds_iff_stored, same]
    exact ⟨word, fresh⟩
  · intro a ha
    rw [same]
    exact outside a (by simpa using ha)
  · intro a ha
    rw [same]
    exact checks a (by simpa using ha)
  · rw [same]
    rfl
  · refine summary.trans ?_
    have asks := mask_done (s.orders.slot n).mask
    by_cases hb : (s.orders.slot n).mask.getLsbD 0 = true
    · rw [if_pos hb]
      exact if_pos (asks.2 hb)
    · rw [if_neg hb]
      exact if_neg fun x => hb (asks.1 x)
  · have whole : (endTaken s n out code late).orders = { s.orders with
        slots := (endTaken s n out code late).orders.slots, summary := (endTaken s n out code late).orders.summary, taking := none } := by
      change ({ ((s.hub.conclude n out code late).orders) with taking := none } : OrderUnit) = _
      rw [orders]
      rfl
    rw [← whole]
    rfl

/-! ## The copy checked, and what comes of it -/

section

variable {s : State} {n : SlotNo} {c : Copied}

theorem validateSlot_refused (e : RefusalCode) : validateSlot s n (.refused e) = refuseOrder s n e := rfl

theorem validateSlot_error {e : RefusalCode} (check : checkOrder s c = .error e) : validateSlot s n (.copied c) = refuseOrder s n e := by
  unfold validateSlot
  dsimp only
  rw [check]

theorem validateSlot_cancelled {o : Checked} (check : checkOrder s c = .ok o) (stopping : (s.orders.slot n).state = .stopping) :
    validateSlot s n (.copied c) = cancelTaken s n := by
  unfold validateSlot
  dsimp only
  rw [check]
  exact if_pos stopping

theorem validateSlot_accepted {o : Checked} (check : checkOrder s c = .ok o) (taken : (s.orders.slot n).state = .taken) :
    validateSlot s n (.copied c) = acceptOrder s n o := by
  unfold validateSlot
  dsimp only
  rw [check]
  exact if_neg (by rw [taken]; decide)

end

/-! ## Acceptance (R33, R36 to R38) -/

/-- The order unit with a slot's order accepted. -/
def acceptedOrders (s : State) (n : SlotNo) (k : Kind) : OrderUnit :=
  { s.orders.setSlot n { s.orders.slot n with live := some k } with taking := none }

/-- The port, the order unit and the capture as an order is accepted. -/
def accepting (s : State) (n : SlotNo) (k : Kind) (cap : Capture) : Cx := ⟨⟨s.port, acceptedOrders s n k⟩, cap⟩

theorem acceptOrder_retune {s : State} {n : SlotNo} {t : Tuning} {cap : Capture} (capture : s.capture = some cap) :
    acceptOrder s n (.retune t) = s.setCx ((accepting s n .retune cap).acceptRetune s.elements.table n t) := by
  unfold acceptOrder State.onCapture
  dsimp only
  rw [capture]
  rfl

theorem acceptOrder_source {s : State} {n : SlotNo} {g : Group} {target : Source} {timeout : Nat} {cap : Capture}
    (capture : s.capture = some cap) :
    acceptOrder s n (.source g target timeout) = s.setCx ((accepting s n .source cap).acceptSource n g target timeout) := by
  unfold acceptOrder State.onCapture
  dsimp only
  rw [capture]
  rfl

theorem acceptTransport_eq (h : Hub) (n : SlotNo) (o : TransportOrder) (block : Word) : h.acceptTransport n o block =
    ⟨h.port.store (slotBase n + 0x20) block, { h.orders with
      ends := h.orders.ends ++ h.orders.pendingTransport.toList.map fun q => ⟨q.slot, .superseded, .none, false⟩
      pendingTransport := some ⟨n, block, o⟩ }⟩ := by
  unfold Hub.acceptTransport
  split
  · rename_i none_
    simp only [none_, Option.toList_none, List.map_nil, List.append_nil]
    rfl
  · rename_i p pending
    simp only [pending, Option.toList_some, List.map_singleton]
    rfl

theorem acceptOrder_transport (s : State) (n : SlotNo) (o : TransportOrder) :
    acceptOrder s n (.transport o) = { s with
      port := s.port.store (slotBase n + 0x20) (s.elements.block + 1)
      orders := { acceptedOrders s n .transport with
        ends := s.orders.ends ++ s.orders.pendingTransport.toList.map fun q => ⟨q.slot, .superseded, .none, false⟩
        pendingTransport := some ⟨n, s.elements.block + 1, o⟩ } } :=
  congrArg (fun h => State.setHub { s with orders := acceptedOrders s n .transport } h)
    (acceptTransport_eq ⟨s.port, acceptedOrders s n .transport⟩ n o (s.elements.block + 1))

/-! ### A SOURCE (R138, R141) -/

/-- The port with the count of a SOURCE order in probation written (R140; log 31). -/
def countedPort (r : SourceRun) (p : Port) : Port :=
  match r.phase with
  | .waiting _ => p
  | .probation count _ _ => p.store (slotBase r.slot + 0x2C) (word count)

theorem countedPort_waiting {r : SourceRun} {count : Nat} (h : r.phase = .waiting count) (p : Port) : countedPort r p = p := by
  unfold countedPort
  rw [h]

theorem countedPort_probation {r : SourceRun} {count : Nat} {list : List Source} {source : Option Source}
    (h : r.phase = .probation count list source) (p : Port) : countedPort r p = p.store (slotBase r.slot + 0x2C) (word count) := by
  unfold countedPort
  rw [h]

/-- The capture with a group's SOURCE order replaced. -/
def withSource (cap : Capture) (g : Group) (r : Option SourceRun) : Capture :=
  { cap with control := { cap.control with sources := cap.control.sources.put g r } }

/-- The order unit with an order reported superseded. -/
def supersededBy (u : OrderUnit) (m : SlotNo) : OrderUnit := { u with ends := u.ends ++ [⟨m, .superseded, .none, false⟩] }

theorem supersedeSource_none {c : Cx} {g : Group} (h : c.cap.control.sources.get g = none) : c.supersedeSource g = c := by
  unfold Cx.supersedeSource
  rw [h]

theorem supersedeSource_some {c : Cx} {g : Group} {r : SourceRun} (h : c.cap.control.sources.get g = some r) :
    c.supersedeSource g = ⟨⟨countedPort r c.hub.port, supersededBy c.hub.orders r.slot⟩, withSource c.cap g none⟩ := by
  unfold Cx.supersedeSource
  rw [h]
  dsimp only
  unfold Cx.writeProbation countedPort
  cases r.phase <;> rfl

theorem acceptSource_none {c : Cx} {g : Group} (h : c.cap.control.sources.get g = none) (n : SlotNo) (target : Source) (timeout : Nat) :
    c.acceptSource n g target timeout = ⟨c.hub, withSource c.cap g (some ⟨n, target, timeout, .waiting 0, false⟩)⟩ := by
  unfold Cx.acceptSource
  rw [supersedeSource_none h]
  rfl

theorem acceptSource_some {c : Cx} {g : Group} {r : SourceRun} (h : c.cap.control.sources.get g = some r) (n : SlotNo)
    (target : Source) (timeout : Nat) : c.acceptSource n g target timeout =
      ⟨⟨countedPort r c.hub.port, supersededBy c.hub.orders r.slot⟩,
        withSource c.cap g (some ⟨n, target, timeout, .waiting 0, false⟩)⟩ := by
  unfold Cx.acceptSource
  rw [supersedeSource_some h]
  change (⟨_, withSource (withSource c.cap g none) g _⟩ : Cx) = _
  simp only [withSource, put_put]

/-! ### A RETUNE (R36, R37, R141, R165) -/

/-- The SOURCE order of a group that a tuning supersedes by another list (R141). -/
def supersededSource (cap : Capture) (t : Tuning) (g : Group) : Option SourceRun :=
  if heldPrefs cap g = (t.groups.get g).prefs then none else cap.control.sources.get g

/-- The SOURCE order that a group keeps. -/
def keptSource (cap : Capture) (t : Tuning) (g : Group) : Option SourceRun :=
  if (supersededSource cap t g).isSome then none else cap.control.sources.get g

/-- The port with the count of the SOURCE order written that a group loses, if it is in probation. -/
def lostPort (r : Option SourceRun) (p : Port) : Port := r.elim p fun r => countedPort r p

/-- The end of the SOURCE order that a group loses. -/
def lostEnd (r : Option SourceRun) : List EndReport := r.toList.map fun r => ⟨r.slot, .superseded, .none, false⟩

/-- The order unit with more end reports. -/
def withEnds (u : OrderUnit) (l : List EndReport) : OrderUnit := { u with ends := u.ends ++ l }

theorem withEnds_withEnds (u : OrderUnit) (l m : List EndReport) : withEnds (withEnds u l) m = withEnds u (l ++ m) := by
  simp only [withEnds, List.append_assoc]

theorem withEnds_nil (u : OrderUnit) : withEnds u [] = u := by
  simp only [withEnds, List.append_nil]

theorem withSource_self (cap : Capture) (g : Group) : withSource cap g (cap.control.sources.get g) = cap := by
  simp only [withSource, put_get]

theorem supersedeByList_eq (c : Cx) (t : Tuning) (g : Group) : c.supersedeByList t g =
    ⟨⟨lostPort (supersededSource c.cap t g) c.hub.port, withEnds c.hub.orders (lostEnd (supersededSource c.cap t g))⟩,
      withSource c.cap g (keptSource c.cap t g)⟩ := by
  unfold Cx.supersedeByList keptSource supersededSource
  by_cases same : heldPrefs c.cap g = (t.groups.get g).prefs
  · rw [if_pos same]
    simp only [if_pos same, Option.isSome_none, Bool.false_eq_true, if_false, lostEnd, Option.toList_none, List.map_nil, withEnds_nil,
      withSource_self]
    rfl
  · rw [if_neg same]
    simp only [if_neg same]
    cases source : c.cap.control.sources.get g with
    | none =>
      rw [supersedeSource_none source]
      simp only [Option.isSome_none, Bool.false_eq_true, if_false, lostEnd, Option.toList_none, List.map_nil, withEnds_nil]
      rw [show withSource c.cap g none = c.cap by rw [← source, withSource_self]]
      rfl
    | some r => rw [supersedeSource_some source]; rfl

theorem supersedeTuning_eq (c : Cx) : c.supersedeTuning = ⟨⟨c.hub.port, withEnds c.hub.orders
    (c.cap.control.pending.toList.map fun q => ⟨q.slot, .superseded, .none, false⟩)⟩, c.cap⟩ := by
  unfold Cx.supersedeTuning
  cases pending : c.cap.control.pending with
  | none => rw [Option.toList_none, List.map_nil, withEnds_nil]
  | some p => rfl

/-- The list held for a group does not turn on the SOURCE orders. -/
theorem heldPrefs_withSource (cap : Capture) (g k : Group) (r : Option SourceRun) : heldPrefs (withSource cap g r) k = heldPrefs cap k := rfl

theorem supersededSource_withSource (cap : Capture) (t : Tuning) (r : Option SourceRun) :
    supersededSource (withSource cap .a r) t .b = supersededSource cap t .b := rfl

theorem keptSource_withSource (cap : Capture) (t : Tuning) (r : Option SourceRun) :
    keptSource (withSource cap .a r) t .b = keptSource cap t .b := rfl

theorem followTuning_eq_unitsFor {cap : Capture} {t : Tuning} (h : cap.control.nextIdx = 0 → cap.control.nextTuning = t)
    (table : Vector CalEntry 16) : cap.followTuning table = unitsFor table t cap := by
  cases speed : cap.speed with
  | none =>
    rw [followTuning_armed speed]
    unfold unitsFor
    rw [speed]
  | some u =>
    cases idx : cap.control.nextIdx with
    | zero =>
      unfold Capture.followTuning unitsFor
      rw [speed, idx]
      dsimp only
      rw [if_pos rfl, h idx]
      rfl
    | succ k =>
      rw [followTuning_taken (by rw [idx]; exact Nat.succ_ne_zero k)]
      unfold unitsFor
      rw [speed, idx]
      rfl

theorem nextTuning_bound {k : Control} {p : PendingTuning} (h : k.pending = some p) (idx : p.idx = k.nextIdx) :
    k.nextTuning = p.tuning := by
  unfold Control.nextTuning Control.bindTuning
  rw [h]
  dsimp only
  rw [if_pos idx]

/-- The capture with a tuning pending and the SOURCE orders it leaves. -/
def retuned (cap : Capture) (n : SlotNo) (t : Tuning) : Capture :=
  { cap with control := { cap.control with
    pending := some ⟨n, cap.control.nextIdx, t⟩, sources := ⟨keptSource cap t .a, keptSource cap t .b⟩ } }

theorem acceptRetune_eq (c : Cx) (table : Vector CalEntry 16) (n : SlotNo) (t : Tuning) : c.acceptRetune table n t =
    ⟨⟨(lostPort (supersededSource c.cap t .b) (lostPort (supersededSource c.cap t .a) c.hub.port)).store (slotBase n + 0x20)
        (word c.cap.control.nextIdx),
      withEnds c.hub.orders (c.cap.control.pending.toList.map (fun q => ⟨q.slot, .superseded, .none, false⟩) ++
        (lostEnd (supersededSource c.cap t .a) ++ lostEnd (supersededSource c.cap t .b)))⟩,
      unitsFor table t (retuned c.cap n t)⟩ := by
  have freed : (c.supersedeTuning.supersedeByList t .a).supersedeByList t .b =
      ⟨⟨lostPort (supersededSource c.cap t .b) (lostPort (supersededSource c.cap t .a) c.hub.port),
        withEnds c.hub.orders (c.cap.control.pending.toList.map (fun q => ⟨q.slot, .superseded, .none, false⟩) ++
          (lostEnd (supersededSource c.cap t .a) ++ lostEnd (supersededSource c.cap t .b)))⟩,
        withSource (withSource c.cap .a (keptSource c.cap t .a)) .b (keptSource c.cap t .b)⟩ := by
    rw [supersedeTuning_eq, supersedeByList_eq, supersedeByList_eq]
    dsimp only
    rw [supersededSource_withSource, keptSource_withSource, withEnds_withEnds, withEnds_withEnds]
  unfold Cx.acceptRetune
  rw [freed]
  have follows := followTuning_eq_unitsFor (cap := retuned c.cap n t) (t := t) (fun _ =>
    nextTuning_bound (k := (retuned c.cap n t).control) (p := ⟨n, c.cap.control.nextIdx, t⟩) rfl rfl) table
  rw [← follows]
  rfl

theorem acceptOrder_retune_eq {s : State} {n : SlotNo} {t : Tuning} {cap : Capture} (capture : s.capture = some cap) :
    acceptOrder s n (.retune t) = { s with
      port := (lostPort (supersededSource cap t .b) (lostPort (supersededSource cap t .a) s.port)).store (slotBase n + 0x20)
        (word cap.control.nextIdx)
      orders := withEnds (acceptedOrders s n .retune)
        (cap.control.pending.toList.map (fun q => ⟨q.slot, .superseded, .none, false⟩) ++
          (lostEnd (supersededSource cap t .a) ++ lostEnd (supersededSource cap t .b)))
      capture := some (unitsFor s.elements.table t (retuned cap n t)) } := by
  rw [acceptOrder_retune capture, acceptRetune_eq]
  rfl

theorem lostPort_phase (r : Option SourceRun) (p : Port) : lostPort r p =
    match r.map SourceRun.phase, r with
    | some (.probation count _ _), some q => p.store (slotBase q.slot + 0x2C) (word count)
    | _, _ => p := by
  rcases r with _ | ⟨slot, target, timeout, phase, due⟩
  · rfl
  · cases phase <;> rfl

end Sys2Proof.TransferMemory
end

section
/-! PROOFS. What R28 to R31 ask of an order, check by check (02). -/

namespace Sys2Proof.TransferMemory

open Machine Safety Laws

/-! ## Lists -/

theorem allPairs_iff {α : Type} (test : α → α → Bool) (l : List α) :
    allPairs test l = true ↔ l.Pairwise fun a b => test a b = true := by
  induction l with
  | nil => simp [allPairs]
  | cons x rest ih => rw [allPairs, Bool.and_eq_true, ih, List.pairwise_cons, List.all_eq_true]

theorem adjacent_iff {α : Type} (test : α → α → Bool) (l : List α) : (List.zipWith test l (l.drop 1)).all id = true ↔
    ∀ (i : Nat) (x y : α), l[i]? = some x → l[i + 1]? = some y → test x y = true := by
  induction l with
  | nil => simp
  | cons a rest ih =>
    cases rest with
    | nil => simp
    | cons b rest =>
      have first : (List.zipWith test (a :: b :: rest) ((a :: b :: rest).drop 1)).all id = true ↔
          test a b = true ∧ (List.zipWith test (b :: rest) ((b :: rest).drop 1)).all id = true := by
        simp [List.zipWith_cons_cons]
      rw [first, ih]
      constructor
      · rintro ⟨head, others⟩ (_ | i) x y hx hy
        · simp only [List.getElem?_cons_zero, Option.some.injEq, Nat.zero_add, List.getElem?_cons_succ] at hx hy
          rw [← hx, ← hy]
          exact head
        · exact others i x y (by simpa using hx) (by simpa using hy)
      · exact fun all => ⟨all 0 a b rfl rfl, fun i x y hx hy => all (i + 1) x y (by simpa using hx) (by simpa using hy)⟩

theorem distinct_iff (l : List Source) : distinct l = true ↔ l.Nodup := by
  induction l with
  | nil => simp [distinct]
  | cons s rest ih => rw [distinct, Bool.and_eq_true, ih, List.nodup_cons]; simp

theorem mem_laneNos (l : LaneNo) : l ∈ laneNos := by revert l; decide

theorem nodup_laneNos : laneNos.Nodup := by decide

theorem mem_activeLanes {p : CaptureParams} {l : LaneNo} : l ∈ activeLanes p ↔ (getAt p.lanes l).active = true := by
  rw [activeLanes, List.mem_filter]
  exact and_iff_right (mem_laneNos l)

/-! ## Layout (R28) -/

/-- Of lanes that hold an element each, two share one just when their ranges overlap. -/
theorem lanesOverlap_iff {a b : LaneEntry} (ha : 1 ≤ a.count) (hb : 1 ≤ b.count) : lanesOverlap a b = false ↔
    ∀ e, a.first ≤ e → e < a.first + a.count → ¬ (b.first ≤ e ∧ e < b.first + b.count) := by
  rw [lanesOverlap, decide_eq_false_iff_not]
  constructor
  · rintro apart e h1 h2 ⟨h3, h4⟩
    omega
  · rintro none_ ⟨h1, h2⟩
    exact none_ (max a.first b.first) (by omega) (by omega) (by omega)

theorem lanesOverlap_comm (a b : LaneEntry) : lanesOverlap a b = lanesOverlap b a := by
  rw [lanesOverlap, lanesOverlap]
  exact decide_eq_decide.2 and_comm

theorem lanesApart_iff {p : CaptureParams} (counts : ∀ l, (getAt p.lanes l).active = true → 1 ≤ (getAt p.lanes l).count) :
    allPairs (fun a b => !lanesOverlap a b) ((activeLanes p).map (getAt p.lanes ·)) = true ↔
    ∀ l m e, l ≠ m → (getAt p.lanes l).active = true → (getAt p.lanes m).active = true → (getAt p.lanes l).first ≤ e →
      e < (getAt p.lanes l).first + (getAt p.lanes l).count →
      ¬ ((getAt p.lanes m).first ≤ e ∧ e < (getAt p.lanes m).first + (getAt p.lanes m).count) := by
  rw [allPairs_iff, List.pairwise_map]
  simp only [Bool.not_eq_true']
  constructor
  · intro all l m e ne hl hm
    have symm : Std.Symm fun l m => lanesOverlap (getAt p.lanes l) (getAt p.lanes m) = false :=
      ⟨fun x y h => by rwa [lanesOverlap_comm]⟩
    have apart := all.forall (mem_activeLanes.2 hl) (mem_activeLanes.2 hm) ne
    exact (lanesOverlap_iff (counts l hl) (counts m hm)).1 apart e
  · intro all
    refine (nodup_laneNos.filter _).pairwise_of_forall_ne fun l hl m hm ne => ?_
    have hl := mem_activeLanes.1 hl
    have hm := mem_activeLanes.1 hm
    exact (lanesOverlap_iff (counts l hl) (counts m hm)).2 fun e => all l m e ne hl hm

theorem isAfter_iff {p q : Word} : isAfter p q = true ↔ 0 < (p - q).toInt := decide_eq_true_iff

theorem formatOk_iff {p : CaptureParams} {g : Group} : formatOk p g = true ↔
    ((p.formats.get g).paired = true → groupActive p g = true → (groupLanes p g).length = 2) := by
  unfold formatOk
  cases (p.formats.get g).paired <;> cases groupActive p g <;> simp

theorem forall_group {P : Group → Prop} : (∀ g, P g) ↔ P .a ∧ P .b :=
  ⟨fun h => ⟨h .a, h .b⟩, fun h g => by cases g; exacts [h.1, h.2]⟩

theorem laneRangesOk_iff {p : CaptureParams} :
    ((activeLanes p).map (getAt p.lanes ·)).all (fun l => decide (1 ≤ l.count ∧ l.count ≤ 6 ∧ l.first + l.count ≤ 16)) = true ↔
    ∀ l, (getAt p.lanes l).active = true → 1 ≤ (getAt p.lanes l).count ∧ (getAt p.lanes l).count ≤ 6 ∧
      (getAt p.lanes l).first + (getAt p.lanes l).count ≤ 16 := by
  simp only [List.all_map, List.all_eq_true, mem_activeLanes, Function.comp_apply, decide_eq_true_eq]

theorem someLane_iff {p : CaptureParams} :
    (!((activeLanes p).map (getAt p.lanes ·)).isEmpty) = true ↔ ∃ l, (getAt p.lanes l).active = true := by
  rw [Bool.not_eq_true', List.isEmpty_eq_false_iff_exists_mem]
  simp [mem_activeLanes]

theorem startBeforeStop_iff {p : CaptureParams} :
    (match p.start, p.stop with | some s, some e => isAfter e s | _, _ => true) = true ↔
    ∀ a b, p.start = some a → p.stop = some b → 0 < (b - a).toInt := by
  cases p.start <;> cases p.stop <;> simp [isAfter]

theorem cuesOk_iff {p : CaptureParams} : cuesOk p = true ↔ p.cueCount ≤ 8 ∧
    (∀ (i : Nat) (x y : Word), p.cues[i]? = some x → p.cues[i + 1]? = some y → 0 < (y - x).toInt) ∧
    ∀ x ∈ p.cues, (∀ a, p.start = some a → 0 < (x - a).toInt) ∧ ∀ b, p.stop = some b → 0 < (b - x).toInt := by
  have starts : (p.cues.all fun q => match p.start with | none => true | some s => isAfter q s) = true ↔
      ∀ x ∈ p.cues, ∀ a, p.start = some a → 0 < (x - a).toInt := by
    rw [List.all_eq_true]
    cases p.start <;> simp [isAfter]
  have stops : (p.cues.all fun q => match p.stop with | none => true | some e => isAfter e q) = true ↔
      ∀ x ∈ p.cues, ∀ b, p.stop = some b → 0 < (b - x).toInt := by
    rw [List.all_eq_true]
    cases p.stop <;> simp [isAfter]
  have ascending := adjacent_iff (fun a b => isAfter b a) p.cues
  simp only [isAfter_iff] at ascending
  have whole : cuesOk p = true ↔ ((p.cueCount ≤ 8 ∧
      ∀ (i : Nat) (x y : Word), p.cues[i]? = some x → p.cues[i + 1]? = some y → 0 < (y - x).toInt) ∧
      ∀ x ∈ p.cues, ∀ a, p.start = some a → 0 < (x - a).toInt) ∧ ∀ x ∈ p.cues, ∀ b, p.stop = some b → 0 < (b - x).toInt := by
    unfold cuesOk
    rw [Bool.and_eq_true, Bool.and_eq_true, Bool.and_eq_true]
    exact and_congr (and_congr (and_congr decide_eq_true_iff ascending) starts) stops
  rw [whole]
  constructor
  · rintro ⟨⟨⟨few, ascends⟩, start⟩, stop⟩
    exact ⟨few, ascends, fun x hx => ⟨start x hx, stop x hx⟩⟩
  · rintro ⟨few, ascends, ends⟩
    exact ⟨⟨⟨few, ascends⟩, fun x hx => (ends x hx).1⟩, fun x hx => (ends x hx).2⟩

theorem layoutOk_iff {p : CaptureParams} : layoutOk p = true ↔ LayoutRule p := by
  unfold layoutOk LayoutRule
  simp only [Bool.and_eq_true, decide_eq_true_eq]
  rw [someLane_iff, laneRangesOk_iff, formatOk_iff, formatOk_iff, cuesOk_iff, forall_group]
  constructor
  · rintro ⟨⟨⟨⟨⟨⟨⟨rate, some_⟩, ranges⟩, apart⟩, a⟩, b⟩, ends⟩, cues⟩
    exact ⟨by omega, some_, ranges, (lanesApart_iff fun l hl => (ranges l hl).1).1 apart, ⟨a, b⟩, startBeforeStop_iff.1 ends, cues⟩
  · rintro ⟨rate, some_, ranges, apart, ⟨a, b⟩, ends, cues⟩
    exact ⟨⟨⟨⟨⟨⟨⟨by omega, some_⟩, ranges⟩, (lanesApart_iff fun l hl => (ranges l hl).1).2 apart⟩, a⟩, b⟩, startBeforeStop_iff.2 ends⟩, cues⟩

/-! ## Profile (R29) -/

theorem commonTuningOk_iff {t : Tuning} : commonTuningOk t = true ↔ CommonProfileRule t := decide_eq_true_iff

theorem watchMask_lt_iff (m : BitVec 6) (k : Nat) : m.toNat < 2 ^ k ↔ ∀ i, k ≤ i → m.getLsbD i = false := by
  constructor
  · intro lt i le
    rw [BitVec.getLsbD]
    exact Nat.testBit_lt_two_pow (Nat.lt_of_lt_of_le lt (Nat.pow_le_pow_right (by decide) le))
  · exact fun clear => Nat.lt_pow_two_of_testBit _ fun i le => clear i le

theorem mem_watchedElements {table : Vector CalEntry 16} {lane : LaneEntry} {t : LaneTuning} {e : Nat} :
    e ∈ watchedElements table lane t ↔
      ∃ i < lane.count, t.watch.getLsbD i = true ∧ (tableEntry table (lane.first + i)).dead = false ∧ lane.first + i = e := by
  unfold watchedElements
  rw [List.mem_filterMap]
  simp only [List.mem_range, Option.ite_none_right_eq_some, Bool.and_eq_true, Bool.not_eq_true', Option.some.injEq, and_assoc]

theorem laneWatched_iff {table : Vector CalEntry 16} {lane : LaneEntry} {t : LaneTuning} (inside : t.anchor < lane.count)
    (watched : t.watch.getLsbD t.anchor = true) :
    laneWatched table lane t = true ↔ (tableEntry table (lane.first + t.anchor)).dead = false := by
  unfold laneWatched
  rw [Bool.and_eq_true, List.contains_iff_mem, mem_watchedElements]
  constructor
  · rintro ⟨-, i, -, -, alive, same⟩
    obtain rfl : i = t.anchor := Nat.add_left_cancel same
    exact alive
  · intro alive
    have mem : anchorElement lane t ∈ watchedElements table lane t := mem_watchedElements.2 ⟨_, inside, watched, alive, rfl⟩
    refine ⟨?_, t.anchor, inside, watched, alive, rfl⟩
    rw [Bool.not_eq_true', List.isEmpty_eq_false_iff_exists_mem]
    exact ⟨_, mem⟩

theorem laneTuningOk_iff {table : Vector CalEntry 16} {lane : LaneEntry} {t : LaneTuning} : laneTuningOk table lane t = true ↔
    (∀ i, lane.count ≤ i → t.watch.getLsbD i = false) ∧ t.anchor < lane.count ∧ t.watch.getLsbD t.anchor = true ∧
    (tableEntry table (lane.first + t.anchor)).dead = false := by
  unfold laneTuningOk
  simp only [Bool.and_eq_true, decide_eq_true_eq, watchMask_lt_iff]
  constructor
  · rintro ⟨⟨⟨mask, inside⟩, watched⟩, alive⟩
    exact ⟨mask, inside, watched, (laneWatched_iff inside watched).1 alive⟩
  · rintro ⟨mask, inside, watched, alive⟩
    exact ⟨⟨⟨mask, inside⟩, watched⟩, (laneWatched_iff inside watched).2 alive⟩

theorem isLaneOf_iff {p : CaptureParams} {g : Group} {l : LaneNo} :
    isLaneOf p g l = true ↔ (getAt p.lanes l).active = true ∧ (getAt p.lanes l).group = g := by
  rw [isLaneOf, Bool.and_eq_true, decide_eq_true_iff]

theorem listed_imp_iff {l : List Source} {s : Source} {b : Bool} : (!l.contains s || b) = true ↔ (s ∈ l → b = true) := by
  by_cases h : s ∈ l <;> simp [h]

theorem groupTuningOk_iff {p : CaptureParams} {g : Group} {t : GroupTuning} : groupTuningOk p g t = true ↔
    t.prefs ≠ [] ∧ t.prefs.Nodup ∧ t.holdover ≤ 255 ∧
    (.hum ∈ t.prefs → (getAt p.lanes t.humLane).active = true ∧ (getAt p.lanes t.humLane).group = g) ∧
    (.bias ∈ t.prefs → 40000 ≤ t.biasNominal ∧ t.biasNominal ≤ 160000 ∧
      (getAt p.lanes t.biasLane).active = true ∧ (getAt p.lanes t.biasLane).group = g) := by
  have nonempty : (!t.prefs.isEmpty) = true ↔ t.prefs ≠ [] := by cases t.prefs <;> simp
  unfold groupTuningOk
  rw [Bool.and_eq_true, Bool.and_eq_true, Bool.and_eq_true, Bool.and_eq_true, listed_imp_iff, listed_imp_iff, distinct_iff,
    nonempty, decide_eq_true_iff, isLaneOf_iff, Bool.and_eq_true, decide_eq_true_iff, isLaneOf_iff]
  simp only [and_assoc]

theorem profileOk_none {table : Vector CalEntry 16} {t : Tuning} : profileOk table none t = true ↔ CommonProfileRule t := by
  unfold profileOk
  rw [Bool.and_eq_true, commonTuningOk_iff]
  exact and_iff_left rfl

theorem profileOk_some {table : Vector CalEntry 16} {p : CaptureParams} {t : Tuning} :
    profileOk table (some p) t = true ↔ ProfileRule table p t := by
  have lanes : ((activeLanes p).all fun l => laneTuningOk table (getAt p.lanes l) (getAt t.lanes l)) = true ↔
      ∀ l, (getAt p.lanes l).active = true → laneTuningOk table (getAt p.lanes l) (getAt t.lanes l) = true := by
    simp only [List.all_eq_true, mem_activeLanes]
  have groups : (groupList.all fun g => !groupActive p g || groupTuningOk p g (t.groups.get g)) = true ↔
      ∀ g, groupActive p g = true → groupTuningOk p g (t.groups.get g) = true := by
    have implies : ∀ a b : Bool, (!a || b) = true ↔ (a = true → b = true) := by decide
    rw [forall_group]
    simp only [groupList, List.all_cons, List.all_nil, Bool.and_true, Bool.and_eq_true, implies]
  unfold profileOk ProfileRule
  rw [Bool.and_eq_true, commonTuningOk_iff]
  dsimp only
  rw [Bool.and_eq_true, lanes, groups]
  simp only [laneTuningOk_iff, groupTuningOk_iff]

/-! ## Lists (R30) -/

theorem inGeneral_iff {a size : Nat} : inGeneral a size = true ↔ 0x3000 ≤ a ∧ a + size ≤ 0x400000 := by
  unfold inGeneral
  rw [Bool.and_eq_true, decide_eq_true_iff, decide_eq_true_iff]
  rfl

theorem audioSpanOk_iff {size : Nat} {d : SpanDesc} : audioSpanOk size d = true ↔
    (0x3000 ≤ d.buffer ∧ d.buffer + d.capacity ≤ 0x400000) ∧ 4096 ≤ d.capacity ∧ d.capacity ≤ 1048576 ∧ size ∣ d.capacity := by
  unfold audioSpanOk
  rw [Bool.and_eq_true, inGeneral_iff, decide_eq_true_iff, Nat.dvd_iff_mod_eq_zero]

theorem excerptSpanOk_iff {d : SpanDesc} : excerptSpanOk d = true ↔
    (0x3000 ≤ d.buffer ∧ d.buffer + d.capacity ≤ 0x400000) ∧ 15424 ≤ d.capacity ∧ 4 ∣ d.capacity := by
  unfold excerptSpanOk
  rw [Bool.and_eq_true, inGeneral_iff, decide_eq_true_iff, Nat.dvd_iff_mod_eq_zero]

theorem stateOk_iff {d : SpanDesc} : stateOk d = true ↔ d.held = 0 ∨ d.held = 2 := decide_eq_true_iff

theorem recordListOk_iff {addr size capacity : Nat} : recordListOk addr size capacity = true ↔
    4 ≤ capacity ∧ capacity ≤ 4096 ∧ 0x3000 ≤ addr ∧ addr + (16 + size * capacity) ≤ 0x400000 := by
  unfold recordListOk
  rw [Bool.and_eq_true, inGeneral_iff, decide_eq_true_iff, and_assoc]

theorem spanCountOk_iff {p : CaptureParams} {g : Group} : spanCountOk p g = true ↔
    (groupActive p g = true → 2 ≤ p.spanCount.get g ∧ p.spanCount.get g ≤ 64) := by
  unfold spanCountOk
  cases groupActive p g <;> simp

theorem apartRanges_iff {l : List (Nat × Nat)} : allPairs apart l = true ↔ l.Pairwise Apart := by
  rw [allPairs_iff]
  simp only [apart, decide_eq_true_eq]

/-- The list check on lists that have been copied whole. -/
def listsOk (p : CaptureParams) (a b e : List SpanDesc) (m r : Nat) : Bool :=
  spanCountOk p .a && spanCountOk p .b && decide (p.excerptCount ≤ 16)
    && a.all (audioSpanOk (frameSize p .a)) && b.all (audioSpanOk (frameSize p .b)) && e.all excerptSpanOk
    && (a ++ b ++ e).all stateOk && recordListOk p.mapAddr 64 m && recordListOk p.repairAddr 32 r
    && allPairs apart (captureRanges p m r a b e)

theorem listsOk_iff {p : CaptureParams} {a b e : List SpanDesc} {m r : Nat} : listsOk p a b e m r = true ↔ ListRule p a b e m r := by
  unfold listsOk ListRule
  rw [Bool.and_eq_true, Bool.and_eq_true, Bool.and_eq_true, Bool.and_eq_true, Bool.and_eq_true, Bool.and_eq_true, Bool.and_eq_true,
    Bool.and_eq_true, Bool.and_eq_true, spanCountOk_iff, spanCountOk_iff, apartRanges_iff, recordListOk_iff, recordListOk_iff,
    decide_eq_true_iff, List.all_eq_true, List.all_eq_true, List.all_eq_true, List.all_eq_true, forall_group]
  simp only [audioSpanOk_iff, excerptSpanOk_iff, stateOk_iff, and_assoc]

theorem checkLists_copied {c : CaptureCopy} {t : Tuning} {a b e : List SpanDesc} {m r : Nat} (spans : c.spans = ⟨some a, some b⟩)
    (excerpts : c.excerpts = some e) (map : c.mapCapacity = some m) (repair : c.repairCapacity = some r) :
    checkLists c t = if listsOk c.params a b e m r = true
      then some { params := c.params, tuning := t, mapCapacity := m, repairCapacity := r, spans := ⟨a, b⟩, excerpts := e }
      else none := by
  unfold checkLists
  rw [spans, excerpts, map, repair]
  rfl

theorem checkLists_missing {c : CaptureCopy} {t : Tuning}
    (h : c.spans.a = none ∨ c.spans.b = none ∨ c.excerpts = none ∨ c.mapCapacity = none ∨ c.repairCapacity = none) :
    checkLists c t = none := by
  unfold checkLists
  split
  · rename_i a b e m r
    rcases h with h | h | h | h | h <;> simp_all
  · rfl

end Sys2Proof.TransferMemory
end

section
/-! PROOFS. The checks of an order in order (R28 to R31), and the statement about validation in general. -/

namespace Sys2Proof.TransferMemory

open Machine Safety Laws

/-! ## The checks in order -/

section

variable {s : State}

theorem checkOrder_error {k : Copied} {e : RefusalCode} (h : checkCopy s k = .error e) : checkOrder s k = .error e := by
  unfold checkOrder
  rw [h]

theorem checkOrder_ok {k : Copied} {c : Checked} (h : checkCopy s k = .ok c) (context : contextCode s c = .none) :
    checkOrder s k = .ok c := by
  unfold checkOrder
  rw [h]
  exact if_pos context

theorem checkOrder_context {k : Copied} {c : Checked} {e : RefusalCode} (h : checkCopy s k = .ok c) (context : contextCode s c = e)
    (ne : e ≠ .none) : checkOrder s k = .error e := by
  unfold checkOrder
  rw [h]
  dsimp only
  rw [context, if_neg ne]

/-! ### CAPTURE -/

theorem checkCapture_layout {c : CaptureCopy} (h : ¬ LayoutRule c.params) : checkOrder s (.capture c) = .error .badLayout := by
  refine checkOrder_error ?_
  unfold checkCopy
  exact if_pos ((Bool.not_eq_true _).mp fun ok => h (layoutOk_iff.1 ok))

theorem checkCopy_capture {c : CaptureCopy} (layout : LayoutRule c.params) : checkCopy s (.capture c) =
    match c.tuning with
    | none => .error .badProfile
    | some t =>
      if profileOk s.elements.table (some c.params) t = false then .error .badProfile
      else
        match checkLists c t with
        | none => .error .badList
        | some o => .ok (.capture o) := by
  unfold checkCopy
  exact if_neg fun h => by rw [layoutOk_iff.2 layout] at h; cases h

theorem checkCapture_noProfile {c : CaptureCopy} (layout : LayoutRule c.params) (h : c.tuning = none) :
    checkOrder s (.capture c) = .error .badProfile := by
  refine checkOrder_error ((checkCopy_capture layout).trans ?_)
  rw [h]

theorem checkCapture_profile {c : CaptureCopy} (layout : LayoutRule c.params) {t : Tuning} (tuning : c.tuning = some t)
    (h : ¬ ProfileRule s.elements.table c.params t) : checkOrder s (.capture c) = .error .badProfile := by
  refine checkOrder_error ((checkCopy_capture layout).trans ?_)
  rw [tuning]
  exact if_pos ((Bool.not_eq_true _).mp fun ok => h (profileOk_some.1 ok))

section

variable {c : CaptureCopy} (layout : LayoutRule c.params) {t : Tuning} (tuning : c.tuning = some t)
  (profile : ProfileRule s.elements.table c.params t)

include layout tuning profile

theorem checkCapture_lists (lists : checkLists c t = none) : checkOrder s (.capture c) = .error .badList := by
  have passes : ¬ profileOk s.elements.table (some c.params) t = false := fun h => by
    rw [profileOk_some.2 profile] at h
    cases h
  refine checkOrder_error ((checkCopy_capture layout).trans ?_)
  rw [tuning]
  dsimp only
  rw [if_neg passes, lists]

theorem checkCopy_listed {o : CaptureOrder} (lists : checkLists c t = some o) : checkCopy s (.capture c) = .ok (.capture o) := by
  have passes : ¬ profileOk s.elements.table (some c.params) t = false := fun h => by
    rw [profileOk_some.2 profile] at h
    cases h
  rw [checkCopy_capture layout, tuning]
  dsimp only
  rw [if_neg passes, lists]

end

theorem contextCode_capture (o : CaptureOrder) :
    contextCode s (.capture o) = if 4 ≤ s.orders.runQueue.length then .queueFull else .none := rfl

theorem checkCapture_copied {c : CaptureCopy} (layout : LayoutRule c.params) {t : Tuning} (tuning : c.tuning = some t)
    (profile : ProfileRule s.elements.table c.params t) {a b e : List SpanDesc} {m r : Nat} (spans : c.spans = ⟨some a, some b⟩)
    (excerpts : c.excerpts = some e) (map : c.mapCapacity = some m) (repair : c.repairCapacity = some r) :
    (¬ ListRule c.params a b e m r → checkOrder s (.capture c) = .error .badList) ∧
    (ListRule c.params a b e m r → 4 ≤ s.orders.runQueue.length → checkOrder s (.capture c) = .error .queueFull) ∧
    (ListRule c.params a b e m r → s.orders.runQueue.length < 4 →
      checkOrder s (.capture c) = .ok (.capture { params := c.params, tuning := t, mapCapacity := m, repairCapacity := r
                                                  spans := ⟨a, b⟩, excerpts := e })) := by
  have lists := checkLists_copied (t := t) spans excerpts map repair
  refine ⟨fun bad => ?_, fun good full => ?_, fun good free => ?_⟩
  · rw [if_neg fun ok => bad (listsOk_iff.1 ok)] at lists
    exact checkCapture_lists layout tuning profile lists
  · rw [if_pos (listsOk_iff.2 good)] at lists
    exact checkOrder_context (checkCopy_listed layout tuning profile lists) (by rw [contextCode_capture, if_pos full]) (by decide)
  · rw [if_pos (listsOk_iff.2 good)] at lists
    exact checkOrder_ok (checkCopy_listed layout tuning profile lists) (by rw [contextCode_capture, if_neg (by omega)])

/-! ### RETUNE -/

theorem checkRetune_profile {t : Tuning} (h : ¬ profileOk s.elements.table (s.capture.map Capture.params) t = true) :
    checkOrder s (.retune (some t)) = .error .badProfile := by
  refine checkOrder_error ?_
  unfold checkCopy
  exact if_neg h

theorem checkCopy_retune {t : Tuning} (h : profileOk s.elements.table (s.capture.map Capture.params) t = true) :
    checkCopy s (.retune (some t)) = .ok (.retune t) := by
  unfold checkCopy
  exact if_pos h

theorem openCapture_stopping {o : Option Capture} (h : ∀ cap, o = some cap → cap.control.state = .stopping) :
    openCapture o = none := by
  cases o with
  | none => rfl
  | some cap => simp [openCapture, h cap rfl]

theorem openCapture_open {cap : Capture} (h : cap.control.state ≠ .stopping) : openCapture (some cap) = some cap := by
  simp [openCapture, h]

theorem contextCode_retune_none {t : Tuning} (h : openCapture s.capture = none) : contextCode s (.retune t) = .noCapture := by
  unfold contextCode
  dsimp only
  rw [h]
  rfl

theorem contextCode_retune_some {t : Tuning} {cap : Capture} (h : openCapture s.capture = some cap) :
    contextCode s (.retune t) = .none := by
  unfold contextCode
  dsimp only
  rw [h]
  rfl

/-! ### SOURCE -/

theorem checkSource_layout {o : SourceParams} (h : o.target = none ∨ o.timeout = 0 ∨ 255 < o.timeout) :
    checkOrder s (.source o) = .error .badLayout := by
  refine checkOrder_error ?_
  unfold checkCopy
  cases target : o.target with
  | none => simp [target]
  | some x =>
    have late : ¬ (1 ≤ o.timeout ∧ o.timeout ≤ 255) := by
      rw [target] at h
      rcases h with h | h | h
      · cases h
      · omega
      · omega
    simp [target, sourceOk, late]

theorem checkCopy_source {g : Group} {x : Source} {timeout : Nat} (low : 1 ≤ timeout) (high : timeout ≤ 255) :
    checkCopy s (.source ⟨g, some x, timeout⟩) = .ok (.source g x timeout) := by
  simp [checkCopy, sourceOk, low, high]

theorem contextCode_source_none {g : Group} {x : Source} {timeout : Nat} (h : openCapture s.capture = none) :
    contextCode s (.source g x timeout) = .noCapture := by
  unfold contextCode
  dsimp only
  rw [h]

theorem contextCode_source_some {g : Group} {x : Source} {timeout : Nat} {cap : Capture} (h : openCapture s.capture = some cap) :
    contextCode s (.source g x timeout) = if groupActive cap.params g = true ∧ x ∈ nextPrefs cap g then .none else .notTracked := by
  unfold contextCode
  dsimp only
  rw [h]
  dsimp only
  simp only [Bool.and_eq_true, List.contains_iff_mem]

/-! ### TRANSPORT -/

theorem transportOk_iff {o : TransportOrder} : transportOk o = true ↔ o.nc ≤ 4095 ∧ 5 ≤ o.slipThreshold ∧ o.slipThreshold ≤ 200 :=
  decide_eq_true_iff

theorem checkTransport_layout {o : TransportOrder} (h : 4095 < o.nc ∨ o.slipThreshold < 5 ∨ 200 < o.slipThreshold) :
    checkOrder s (.transport (some o)) = .error .badLayout := by
  refine checkOrder_error ?_
  unfold checkCopy
  exact if_neg fun ok => by
    have := transportOk_iff.1 ok
    omega

theorem checkCopy_transport {o : TransportOrder} (nc : o.nc ≤ 4095) (low : 5 ≤ o.slipThreshold) (high : o.slipThreshold ≤ 200) :
    checkCopy s (.transport (some o)) = .ok (.transport o) := by
  unfold checkCopy
  exact if_pos (transportOk_iff.2 ⟨nc, low, high⟩)

theorem contextCode_transport (o : TransportOrder) :
    contextCode s (.transport o) = if streamBusy s.orders = true then .streamBusy else .none := rfl

end

/-! ## The list a SOURCE is checked against (R31, R141; log 43) -/

theorem nextPrefs_pending {cap : Capture} {p : PendingTuning} (h : cap.control.pending = some p) (g : Group) :
    nextPrefs cap g = (p.tuning.groups.get g).prefs := by
  unfold nextPrefs
  rw [h]

/-- A reached RETUNE on whose binding block the speed reference unit has not worked. -/
def waitsForSpeed (t : Taken) : Bool := t.binding && t.speed.isNone

theorem waitsForSpeed_false {t : Taken} : waitsForSpeed t = false ↔ (t.binding = true → t.speed ≠ none) := by
  unfold waitsForSpeed
  cases t.binding <;> cases t.speed <;> simp

theorem nextPrefs_newest {cap : Capture} (none_ : cap.control.pending = none) {t : Taken}
    (h : (cap.control.inFlight.filter waitsForSpeed).getLast? = some t) (g : Group) :
    nextPrefs cap g = (t.tuning.groups.get g).prefs := by
  unfold nextPrefs
  rw [none_]
  dsimp only
  rw [show (cap.control.inFlight.filter fun t => t.binding && t.speed.isNone).getLast? = some t from h]

theorem nextPrefs_held {cap : Capture} (none_ : cap.control.pending = none) (h : cap.control.inFlight.filter waitsForSpeed = [])
    (g : Group) : nextPrefs cap g = heldPrefs cap g := by
  unfold nextPrefs
  rw [none_]
  dsimp only
  rw [show (cap.control.inFlight.filter fun t => t.binding && t.speed.isNone) = [] from h]
  rfl

theorem nextPrefs_split {cap : Capture} (none_ : cap.control.pending = none) {before : List Taken} {x : Taken} {after : List Taken}
    (split : cap.control.inFlight = before ++ x :: after) (binding : x.binding = true) (speed : x.speed = none)
    (worked : ∀ y ∈ after, y.binding = true → y.speed ≠ none) (g : Group) : nextPrefs cap g = (x.tuning.groups.get g).prefs := by
  refine nextPrefs_newest none_ ?_ g
  have rest : after.filter waitsForSpeed = [] := List.filter_eq_nil_iff.2 fun y hy => by
    rw [waitsForSpeed_false.2 (worked y hy)]
    exact Bool.false_ne_true
  have waits : waitsForSpeed x = true := by simp [waitsForSpeed, binding, speed]
  rw [split, List.filter_append, List.filter_cons_of_pos waits, rest]
  exact List.getLast?_concat

theorem nextPrefs_worked {cap : Capture} (none_ : cap.control.pending = none)
    (worked : ∀ y ∈ cap.control.inFlight, y.binding = true → y.speed ≠ none) (g : Group) : nextPrefs cap g = heldPrefs cap g :=
  nextPrefs_held none_ (List.filter_eq_nil_iff.2 fun y hy => by
    rw [waitsForSpeed_false.2 (worked y hy)]
    exact Bool.false_ne_true) g

theorem heldPrefs_armed {cap : Capture} (h : cap.speed = none) (g : Group) :
    heldPrefs cap g = (cap.control.tuning.groups.get g).prefs := by
  unfold heldPrefs
  rw [h]

theorem heldPrefs_unit {cap : Capture} {u : SpeedUnit} (h : cap.speed = some u) (g : Group) : heldPrefs cap g =
    match u.groups.get g with
    | none => []
    | some y => y.prefs := by
  unfold heldPrefs
  rw [h] <;> rfl

/-! ## Guard entries (R11) -/

theorem length_guardEntries (n : SlotNo) (o : CaptureOrder) :
    (guardEntries n o).length = (o.spans.a ++ o.spans.b ++ o.excerpts).length + 2 := by
  rw [guardEntries, List.length_append, List.length_map]
  rfl

theorem mem_guardEntries {n : SlotNo} {o : CaptureOrder} {e : GuardEntry} : e ∈ guardEntries n o ↔ e.slot = n ∧ e.watch = false ∧
    ((e.cls = .spanState ∧ ∃ d ∈ o.spans.a ++ o.spans.b ++ o.excerpts, e.addr = d.addr) ∨
      (e.cls = .released ∧ (e.addr = o.params.mapAddr + 8 ∨ e.addr = o.params.repairAddr + 8))) := by
  obtain ⟨addr, slot, cls, watch⟩ := e
  unfold guardEntries
  rw [List.mem_append, List.mem_map]
  simp only [List.mem_cons, List.not_mem_nil, or_false, GuardEntry.mk.injEq]
  constructor
  · rintro (⟨d, hd, rfl, rfl, rfl, rfl⟩ | ⟨rfl, rfl, rfl, rfl⟩ | ⟨rfl, rfl, rfl, rfl⟩)
    · exact ⟨rfl, rfl, .inl ⟨rfl, d, hd, rfl⟩⟩
    · exact ⟨rfl, rfl, .inr ⟨rfl, .inl rfl⟩⟩
    · exact ⟨rfl, rfl, .inr ⟨rfl, .inr rfl⟩⟩
  · rintro ⟨rfl, rfl, ⟨rfl, d, hd, rfl⟩ | ⟨rfl, rfl | rfl⟩⟩
    · exact .inl ⟨d, hd, rfl, rfl, rfl, rfl⟩
    · exact .inr (.inl ⟨rfl, rfl, rfl, rfl⟩)
    · exact .inr (.inr ⟨rfl, rfl, rfl, rfl⟩)

end Sys2Proof.TransferMemory

namespace Sys2Proof

open Machine Safety Laws TransferMemory

/-- Settles O29: VALIDATE on the engine's copy, once what has come due in the speed reference unit is carried out. -/
theorem validateRefusesOrBinds : Obligations.ValidateRefusesOrBinds := by
  unfold Obligations.ValidateRefusesOrBinds
  refine ⟨?_, ?_, ?_, ?_⟩
  · intro s n copy ready mem taking live s1 late finishes accepted ended
    have step : exec .validate s = .next (validateSlot s1 n copy) := exec_validate ready taking live
    have slot : s1.orders.slot n = s.orders.slot n := settled_slot s n
    have finishesBy : ∀ out code late, validateSlot s1 n copy = endTaken s1 n out code late → finishes out code late :=
      fun out code late h => ⟨_, step.trans (congrArg _ h), finished_endTaken mem n out code late⟩
    refine ⟨?_, ?_, ?_, ?_⟩
    · rintro e rfl
      exact finishesBy _ _ _ (by rw [validateSlot_refused, refuseOrder_eq, slot])
    · rintro c e rfl check
      exact finishesBy _ _ _ (by rw [validateSlot_error check, refuseOrder_eq, slot])
    · rintro c o rfl check stopping
      exact finishesBy _ _ _ (by rw [validateSlot_cancelled check (by rw [slot]; exact stopping), cancelTaken_eq])
    · rintro taken c checked rfl check
      have accepts : exec .validate s = .next (acceptOrder s1 n checked) := by
        rw [step, validateSlot_accepted check (by rw [slot]; exact taken)]
      refine ⟨?_, ?_, ?_, ?_⟩
      · rintro o rfl
        exact accepts
      · rintro t cap rfl capture k out kept counted
        rw [accepts, acceptOrder_retune_eq capture]
        have port : ∀ g p, lostPort (supersededSource cap t g) p = counted g p := fun g p => lostPort_phase (out g) p
        have ends : lostEnd (supersededSource cap t .a) ++ lostEnd (supersededSource cap t .b) =
            ((out .a).toList ++ (out .b).toList).map fun q => ended q.slot := (List.map_append).symm
        rw [port, port, ends, withEnds, ← List.append_assoc]
        rfl
      · rintro g target timeout cap rfl capture k waits
        rw [accepts, acceptOrder_source capture]
        refine ⟨fun none_ => ?_, fun r count some_ phase => ?_, fun r count list source some_ phase => ?_⟩
        · rw [acceptSource_none none_]
          rfl
        · rw [acceptSource_some some_, countedPort_waiting phase]
          rfl
        · rw [acceptSource_some some_, countedPort_probation phase]
          rfl
      · rintro o rfl
        rw [accepts, acceptOrder_transport]
        rfl
  · intro cap g k
    exact ⟨fun p h => nextPrefs_pending h g, fun none_ => ⟨fun before x after split binding speed worked =>
      nextPrefs_split none_ split binding speed worked g, fun worked => nextPrefs_worked none_ worked g⟩,
      fun h => heldPrefs_armed h g, fun u h => heldPrefs_unit h g⟩
  · intro n o descs
    exact ⟨length_guardEntries n o, fun e => mem_guardEntries⟩
  · refine ⟨fun s c => ⟨checkCapture_layout, fun layout => ⟨checkCapture_noProfile layout, fun t tuning =>
      ⟨checkCapture_profile layout tuning, fun profile => ⟨fun missing =>
        checkCapture_lists layout tuning profile (checkLists_missing missing), fun a b e m r spans excerpts map repair => ?_⟩⟩⟩⟩,
      fun s => rfl, ?_, ?_, fun s o h => checkSource_layout h, ?_, fun s => rfl, ?_⟩
    · exact checkCapture_copied layout tuning profile spans excerpts map repair
    · exact fun s t none_ => ⟨fun bad => checkRetune_profile (by rw [none_]; exact fun ok => bad (profileOk_none.1 ok)),
        fun good => checkOrder_context (checkCopy_retune (by rw [none_]; exact profileOk_none.2 good))
          (contextCode_retune_none (by rw [none_]; rfl)) (by decide)⟩
    · intro s t cap some_
      have profiled : ProfileRule s.elements.table cap.params t → checkCopy s (.retune (some t)) = .ok (.retune t) :=
        fun good => checkCopy_retune (by rw [some_]; exact profileOk_some.2 good)
      refine ⟨fun bad => checkRetune_profile (by rw [some_]; exact fun ok => bad (profileOk_some.1 ok)),
        fun good stopping => checkOrder_context (profiled good) (contextCode_retune_none (openCapture_stopping fun x hx => ?_)) (by decide),
        fun good open_ => checkOrder_ok (profiled good) (contextCode_retune_some (by rw [some_]; exact openCapture_open open_))⟩
      rw [some_] at hx
      rw [← Option.some.inj hx]
      exact stopping
    · intro s g x timeout low high
      have ok : checkCopy s (.source ⟨g, some x, timeout⟩) = .ok (.source g x timeout) := checkCopy_source low high
      refine ⟨fun stopping => checkOrder_context ok (contextCode_source_none (openCapture_stopping stopping)) (by decide),
        fun cap some_ open_ tracked => checkOrder_ok ok ?_, fun cap some_ open_ untracked => checkOrder_context ok ?_ (by decide)⟩
      · rw [contextCode_source_some (by rw [some_]; exact openCapture_open open_), if_pos tracked]
      · rw [contextCode_source_some (by rw [some_]; exact openCapture_open open_), if_neg ?_]
        rintro ⟨active, listed⟩
        rcases untracked with idle | missing
        · rw [active] at idle
          cases idle
        · exact missing listed
    · exact fun s o => ⟨checkTransport_layout,
        fun nc low high busy => checkOrder_context (checkCopy_transport nc low high) (by rw [contextCode_transport, if_pos busy]) (by decide),
        fun nc low high free => checkOrder_ok (checkCopy_transport nc low high)
          (by rw [contextCode_transport, if_neg (by rw [free]; exact Bool.false_ne_true)])⟩

end Sys2Proof
end

section
/-! PROOFS. What a warm reset does to a capture, stage by stage (R104, R162, R181, R182, R202). -/

namespace Sys2Proof.TransferMemory

open Machine Safety Laws

/-! ## The port and the capture as the stages see them -/

theorem Wrote.mono {p q : Port} {R S : List (Nat × Nat)} (h : Wrote p q R) (sub : R ⊆ S) : Wrote p q S :=
  h.cover fun _ out r hr => out r (sub hr)

theorem Wrote.nil_trans {p q r : Port} {R : List (Nat × Nat)} (h : Wrote p q []) (k : Wrote q r R) : Wrote p r R := h.trans k

/-- The port as the units find it at a warm reset (R18, R20). -/
def begunPort (s : State) (e c : Bool) : Port := { controlPort s.port e c with phase := .warmReset, lastWarm := true }

/-- What a warm reset of a capture comes to, once the units' work is known (R20). -/
theorem warmReset_ends {s : State} {cap : Capture} (ready : Ready s) (capture : s.capture = some cap) (e c : Bool) {p : Port}
    {u : OrderUnit} {x : Capture} (mem : MemoryCanonical s)
    (ends : Cx.resetCapture ⟨⟨begunPort s e c, s.orders⟩, cap⟩ = ⟨⟨p, u⟩, x⟩) :
    ∃ t, exec (.warmReset e c) s = .next t ∧ (∀ a v, Holds p a v → Stored t a v) ∧
      (∀ R, Wrote (begunPort s e c) p R → MemoryKeptOutside s t R) ∧
      t.orders.slots = u.slots ∧ t.orders.summary = u.summary := by
  have eq : exec (.warmReset e c) s = .next (State.beginWarmReset { s with port := controlPort s.port e c }) :=
    congrArg Host.Outcome.next (control_resets ready e c)
  rw [beginWarmReset_some (s := { s with port := controlPort s.port e c }) capture] at eq
  have hub : (Cx.resetCapture ⟨(warmed { s with port := controlPort s.port e c }).hub, cap⟩).hub = ⟨p, u⟩ := congrArg Cx.hub ends
  rw [hub] at eq
  exact ⟨_, eq, fun a v h => h, fun R h => h.bytes mem, rfl, rfl⟩

/-- The capture with what the stages of a warm reset change. -/
def capAt (cap : Capture) (os : PerGroup GroupOut) (x : Option Excerpt) (m : Option LaneMonitor) (handed : List RepairRec) : Capture :=
  { cap with monitor := m, writer := { cap.writer with groups := os, excerpt := x, handed := handed } }

theorem capAt_self (cap : Capture) : capAt cap cap.writer.groups cap.writer.excerpt cap.monitor cap.writer.handed = cap := rfl

section

variable {p : Port} {u : OrderUnit} {cap : Capture} {os : PerGroup GroupOut} {x : Option Excerpt} {m : Option LaneMonitor}
  {handed : List RepairRec} {g : Group}

theorem out_capAt (h : Hub) : Cx.out ⟨h, capAt cap os x m handed⟩ g = os.get g := rfl

theorem putOut_capAt (o : GroupOut) : putOut (capAt cap os x m handed) g o = capAt cap (os.put g o) x m handed := rfl

/-! ## A FILLING span closed with CUT (R182) -/

/-- A group's part once its FILLING span is closed. -/
def cutOut (o : GroupOut) : GroupOut :=
  if o.filling.isSome then { o with filling := none, cursor := (o.cursor + 1) % o.spans.length } else o

theorem cutOut_kept (o : GroupOut) : (cutOut o).filling = none ∧ (cutOut o).queue = o.queue ∧ (cutOut o).arriving = o.arriving ∧
    (cutOut o).samplesLost = o.samplesLost ∧ (cutOut o).lost = o.lost := by
  unfold cutOut
  split
  · exact ⟨rfl, rfl, rfl, rfl, rfl⟩
  · rename_i none_
    exact ⟨Option.not_isSome_iff_eq_none.1 none_, rfl, rfl, rfl, rfl⟩

/-- The bytes that closing a FILLING span with CUT writes. -/
def cutRanges (o : GroupOut) : List (Nat × Nat) :=
  if o.filling = none then [] else [((cursorSpan o).addr, 4), ((cursorSpan o).addr + 0x1C, 4)]

/-- The flags of a span closed with CUT. -/
def cutFlags (sp : OpenSpan) : Word := if sp.afterLoss then 3 else 1

theorem word_cutFlags (sp : OpenSpan) : word (1 + 2 * flagBit sp.afterLoss) = cutFlags sp := by
  unfold cutFlags
  cases sp.afterLoss <;> rfl

theorem closeCut_none (h : (os.get g).filling = none) :
    Cx.closeCut ⟨⟨p, u⟩, capAt cap os x m handed⟩ g = ⟨⟨p, u⟩, capAt cap (os.put g (cutOut (os.get g))) x m handed⟩ := by
  have same : cutOut (os.get g) = os.get g := if_neg (by rw [h]; simp)
  unfold Cx.closeCut
  rw [out_capAt, h, same, put_get]

theorem closeCut_some {sp : OpenSpan} (h : (os.get g).filling = some sp)
    (given : Holds (p.store ((cursorSpan (os.get g)).addr + 0x1C) (cutFlags sp)) (cursorSpan (os.get g)).addr 1) :
    Cx.closeCut ⟨⟨p, u⟩, capAt cap os x m handed⟩ g =
      ⟨⟨(p.store ((cursorSpan (os.get g)).addr + 0x1C) (cutFlags sp)).store (cursorSpan (os.get g)).addr 2,
        u.setNews cap.slot (spanCause g)⟩, capAt cap (os.put g (cutOut (os.get g))) x m handed⟩ := by
  have closed := closeSpan_applied (g := g)
    (c := ⟨⟨p.store ((cursorSpan (os.get g)).addr + 0x1C) (cutFlags sp), u⟩, capAt cap os x m handed⟩) given
  have next : cutOut (os.get g) =
      { os.get g with filling := none, cursor := ((os.get g).cursor + 1) % (os.get g).spans.length } := if_pos (by rw [h]; rfl)
  unfold Cx.closeCut
  rw [out_capAt, h, next]
  dsimp only
  rw [spanWrite_eq, out_capAt, word_cutFlags]
  exact closed

/-- What closing the FILLING span of a group, if there is one, shows. -/
theorem closeCut_spec (mem : Memory.wf p.mem = true)
    (given : (os.get g).filling ≠ none → Holds p (cursorSpan (os.get g)).addr 1) :
    ∃ q, Cx.closeCut ⟨⟨p, u⟩, capAt cap os x m handed⟩ g =
        ⟨⟨q, if (os.get g).filling = none then u else u.setNews cap.slot (spanCause g)⟩,
          capAt cap (os.put g (cutOut (os.get g))) x m handed⟩ ∧
      Wrote p q (cutRanges (os.get g)) ∧
      ∀ sp, (os.get g).filling = some sp →
        Holds q (cursorSpan (os.get g)).addr 2 ∧ Holds q ((cursorSpan (os.get g)).addr + 0x1C) (cutFlags sp) := by
  cases filling : (os.get g).filling with
  | none =>
    refine ⟨p, by rw [closeCut_none filling, if_pos rfl], ?_, nofun⟩
    rw [cutRanges, if_pos filling]
    exact .refl p
  | some sp =>
    have marked := wrote_store p ((cursorSpan (os.get g)).addr + 0x1C) (cutFlags sp)
    have mem' := marked.wf mem
    have state : Holds (p.store ((cursorSpan (os.get g)).addr + 0x1C) (cutFlags sp)) (cursorSpan (os.get g)).addr 1 :=
      (given (by rw [filling]; simp)).store mem (by simp only [Apart]; omega)
    refine ⟨_, by rw [closeCut_some filling state, if_neg (by simp)], ?_, ?_⟩
    · rw [cutRanges, if_neg (by rw [filling]; simp)]
      exact (marked.store (cursorSpan (os.get g)).addr 2).mono (by simp)
    · rintro sp' rfl'
      obtain rfl := Option.some.inj rfl'
      exact ⟨holds_store mem' _ _, (holds_store mem _ _).store mem' (by simp only [Apart]; omega)⟩

theorem closeSpan_cap (c : Cx) (g : Group) : (c.closeSpan g).cap =
    putOut c.cap g { c.out g with filling := none, cursor := ((c.out g).cursor + 1) % (c.out g).spans.length } := by
  have kept := request_cap c (c.out g).span.addr spanFilling spanFull false
  unfold Cx.closeSpan
  rcases asked : c.request (c.out g).span.addr spanFilling spanFull false with ⟨t, d⟩
  rw [asked] at kept
  dsimp only at kept ⊢
  have same : (if t = .applied then d.news (spanCause g) else d).cap = c.cap := by
    split
    · exact kept
    · exact kept
  rw [mapOut_eq]
  dsimp only
  rw [same, show Cx.out (if t = .applied then d.news (spanCause g) else d) g = c.out g from
    congrArg (fun cap : Capture => cap.writer.groups.get g) same]

/-- A FILLING span is closed whatever its word holds. -/
theorem closeCut_closes (mem : Memory.wf p.mem = true) :
    ∃ q v, Cx.closeCut ⟨⟨p, u⟩, capAt cap os x m handed⟩ g = ⟨⟨q, v⟩, capAt cap (os.put g (cutOut (os.get g))) x m handed⟩ ∧
      Memory.wf q.mem = true := by
  suffices caps : (Cx.closeCut ⟨⟨p, u⟩, capAt cap os x m handed⟩ g).cap = capAt cap (os.put g (cutOut (os.get g))) x m handed from
    ⟨_, _, congrArg (Cx.mk (Cx.closeCut ⟨⟨p, u⟩, capAt cap os x m handed⟩ g).hub) caps,
      (kept_closeCut ⟨⟨p, u⟩, capAt cap os x m handed⟩ g).hub.wf mem⟩
  cases filling : (os.get g).filling with
  | none => rw [closeCut_none filling]
  | some sp =>
    have next : cutOut (os.get g) =
        { os.get g with filling := none, cursor := ((os.get g).cursor + 1) % (os.get g).spans.length } := if_pos (by rw [filling]; rfl)
    unfold Cx.closeCut
    rw [out_capAt, filling, next]
    dsimp only
    rw [spanWrite_eq, closeSpan_cap]
    rfl

/-! ## Frames discarded and counted (R182; log 32) -/

/-- A group's part once its frames are discarded and so many are counted as lost. -/
def discardOut (o : GroupOut) (k : Nat) : GroupOut :=
  { o with queue := [], arriving := [], samplesLost := if k = 0 then o.samplesLost else min 4294967295 (o.samplesLost + k) }

/-- The frames that a group loses at a warm reset. -/
def lostFrames (cap : Capture) (g : Group) (o : GroupOut) : Nat :=
  framesIn o.queue + o.arriving.length + bridgeFrames (cap.resamplers.get g)

theorem lostFrames_capAt (o : GroupOut) : lostFrames (capAt cap os x m handed) g o = lostFrames cap g o := rfl

/-- The bytes that counting lost frames writes. -/
def lostRanges (cap : Capture) (g : Group) (k : Nat) : List (Nat × Nat) := if k = 0 then [] else [(lostWord cap g, 4)]

theorem discardFrames_spec (mem : Memory.wf p.mem = true) {k : Nat} (count : lostFrames cap g (os.get g) = k) :
    ∃ q, Cx.discardFrames ⟨⟨p, u⟩, capAt cap os x m handed⟩ g =
        ⟨⟨q, u⟩, capAt cap (os.put g (discardOut (os.get g) k)) x m handed⟩ ∧
      Wrote p q (lostRanges cap g k) ∧
      (0 < k → Holds q (lostWord cap g) (word (min 4294967295 ((os.get g).samplesLost + k)))) := by
  have emptied : Cx.discardFrames ⟨⟨p, u⟩, capAt cap os x m handed⟩ g =
      Cx.countLost ⟨⟨p, u⟩, capAt cap (os.put g { os.get g with queue := [], arriving := [] }) x m handed⟩ g k := by
    rw [← count]
    rfl
  rw [emptied]
  by_cases none_ : k = 0
  · subst none_
    exact ⟨p, rfl, .refl p, nofun⟩
  · rw [countLost_eq none_, out_capAt, PerGroup.get_put_self]
    refine ⟨_, ?_, ?_, fun _ => holds_store mem _ _⟩
    · rw [putOut_capAt, put_put, discardOut, if_neg none_]
      rfl
    · rw [lostRanges, if_neg none_]
      exact wrote_store _ _ _

/-! ## An open excerpt closed with CUT (R202) -/

theorem length_header (e : Excerpt) (lane : LaneEntry) (a b : Bool) : (e.header lane a b).length = 16 := by
  have listed : ((e.seqs.take 4).map word).length ≤ 4 := by
    rw [List.length_map, List.length_take]
    omega
  simp only [Excerpt.header, List.length_append, List.length_replicate, List.length_cons, List.length_nil]
  omega

/-- The port with an excerpt's header and descriptor written, CUT among the flags. -/
def excerptPort (p : Port) (lane : LaneEntry) (e : Excerpt) : Port :=
  (((((p.storeWords e.span.buffer (e.header lane false true)).store (e.span.addr + 0x0C) (word (64 + 15360 * e.stored))).store
    (e.span.addr + 0x10) (word e.firstIdx)).store (e.span.addr + 0x14) (word e.stored)).store (e.span.addr + 0x18) e.position).store
    (e.span.addr + 0x1C) 1

/-- The port once an excerpt is closed with CUT. -/
def cutExcerptPort (p : Port) (lane : LaneEntry) (e : Excerpt) : Port := (excerptPort p lane e).store e.span.addr 2

/-- The bytes that closing an excerpt writes. -/
def excerptRanges (e : Excerpt) : List (Nat × Nat) := [(e.span.addr, 4), (e.span.addr + 0x0C, 20), (e.span.buffer, 64)]

theorem cutExcerpt_none : Cx.cutExcerpt ⟨⟨p, u⟩, capAt cap os none m handed⟩ = ⟨⟨p, u⟩, capAt cap os none m handed⟩ := rfl

theorem excerptPort_wrote (p : Port) (lane : LaneEntry) (e : Excerpt) :
    Wrote p (excerptPort p lane e) [(e.span.addr + 0x0C, 20), (e.span.buffer, 64)] := by
  have size : 4 * (e.header lane false true).length = 64 := by rw [length_header]
  refine ((((((wrote_storeWords p e.span.buffer (e.header lane false true)).store (e.span.addr + 0x0C)
    (word (64 + 15360 * e.stored))).store (e.span.addr + 0x10) (word e.firstIdx)).store (e.span.addr + 0x14) (word e.stored)).store
    (e.span.addr + 0x18) e.position).store (e.span.addr + 0x1C) 1).cover fun a ha => ?_
  simp only [outside_append, outside_cons, outside_nil, and_true, size] at ha ⊢
  omega

theorem cutExcerptPort_spec (mem : Memory.wf p.mem = true) (lane : LaneEntry) {e : Excerpt}
    (apart : Apart (e.span.addr, 32) (e.span.buffer, 64)) :
    let q := cutExcerptPort p lane e
    Wrote p q (excerptRanges e) ∧ Holds q e.span.addr 2 ∧ Holds q (e.span.addr + 0x0C) (word (64 + 15360 * e.stored)) ∧
    Holds q (e.span.addr + 0x1C) 1 ∧
    ∀ (i : Nat) (v : Word), (e.header lane false true)[i]? = some v → Holds q (e.span.buffer + 4 * i) v := by
  have w1 := portWf_storeWords mem e.span.buffer (e.header lane false true)
  have w2 := portWf_store w1 (e.span.addr + 0x0C) (word (64 + 15360 * e.stored))
  have w3 := portWf_store w2 (e.span.addr + 0x10) (word e.firstIdx)
  have w4 := portWf_store w3 (e.span.addr + 0x14) (word e.stored)
  have w5 := portWf_store w4 (e.span.addr + 0x18) e.position
  have w6 := portWf_store w5 (e.span.addr + 0x1C) 1
  refine ⟨((excerptPort_wrote p lane e).store e.span.addr 2).mono ?_, holds_store w6 _ _, ?_, ?_, fun i v hi => ?_⟩
  · simp [excerptRanges]
  · refine (((((holds_store w1 _ _).store w2 ?_).store w3 ?_).store w4 ?_).store w5 ?_).store w6 ?_ <;>
      simp only [Apart] <;> omega
  · exact (holds_store w5 _ _).store w6 (by simp only [Apart]; omega)
  · have bound := (List.getElem?_eq_some_iff.1 hi).1
    rw [length_header] at bound
    simp only [Apart] at apart
    refine ((((((holds_storeWords mem e.span.buffer hi).store w1 ?_).store w2 ?_).store w3 ?_).store w4 ?_).store w5 ?_).store w6 ?_ <;>
      simp only [Apart] <;> omega

theorem cutExcerpt_some {e : Excerpt} (mem : Memory.wf p.mem = true) (apart : Apart (e.span.addr, 32) (e.span.buffer, 64))
    (given : Holds p e.span.addr 1) :
    Cx.cutExcerpt ⟨⟨p, u⟩, capAt cap os (some e) m handed⟩ = ⟨⟨cutExcerptPort p (getAt cap.params.lanes e.lane) e,
      u.setNews cap.slot .excerpt⟩, capAt cap os none m handed⟩ := by
  have state : Holds (excerptPort p (getAt cap.params.lanes e.lane) e) e.span.addr 1 :=
    (excerptPort_wrote p _ e).holds mem given fun r hr => by
      simp only [List.mem_cons, List.not_mem_nil, or_false] at hr
      rcases hr with rfl | rfl <;> simp only [Apart] at apart ⊢ <;> omega
  have answer := request_applied (b := false) (w := 2)
    (c := ⟨⟨excerptPort p (getAt cap.params.lanes e.lane) e, u⟩, capAt cap os (some e) m handed⟩) state
  have closes : ∀ r, Cx.request ⟨⟨excerptPort p (getAt cap.params.lanes e.lane) e, u⟩, capAt cap os (some e) m handed⟩
      e.span.addr 1 2 false = r → Cx.closeExcerpt ⟨⟨p, u⟩, capAt cap os (some e) m handed⟩ e false true =
        (if r.1 = .applied then r.2.news .excerpt else r.2).setExcerpt none := by
    rintro _ rfl
    rfl
  exact closes _ answer

/-- What closing the open excerpt, if there is one, shows. -/
theorem cutExcerpt_spec (mem : Memory.wf p.mem = true)
    (given : ∀ e, x = some e → Apart (e.span.addr, 32) (e.span.buffer, 64) ∧ Holds p e.span.addr 1) :
    ∃ q, Cx.cutExcerpt ⟨⟨p, u⟩, capAt cap os x m handed⟩ =
        ⟨⟨q, if x = none then u else u.setNews cap.slot .excerpt⟩, capAt cap os none m handed⟩ ∧
      Wrote p q (x.toList.flatMap excerptRanges) ∧
      ∀ e, x = some e → Holds q e.span.addr 2 ∧ Holds q (e.span.addr + 0x0C) (word (64 + 15360 * e.stored)) ∧
        Holds q (e.span.addr + 0x1C) 1 ∧
        ∀ (i : Nat) (v : Word), (e.header (getAt cap.params.lanes e.lane) false true)[i]? = some v →
          Holds q (e.span.buffer + 4 * i) v := by
  cases x with
  | none => exact ⟨p, rfl, .refl p, nofun⟩
  | some e =>
    obtain ⟨apart, state⟩ := given e rfl
    obtain ⟨wrote, facts⟩ := cutExcerptPort_spec mem (getAt cap.params.lanes e.lane) apart
    refine ⟨_, cutExcerpt_some mem apart state, ?_, fun e' he => ?_⟩
    · simpa using wrote
    · obtain rfl := Option.some.inj he
      exact facts

/-! ## LOST records closed with CUT (R190, R202; log 62) -/

/-- A group's part once its LOST record is closed. -/
def withoutLost (o : GroupOut) : GroupOut := { o with lost := none }

theorem closeLost_capAt {n : LaneMonitor} : Cx.closeLost ⟨⟨p, u⟩, capAt cap os x (some n) handed⟩ g true =
    ⟨⟨p, u⟩, capAt cap (os.put g (withoutLost (os.get g))) x (some { n with seq := n.seq + (os.get g).lost.toList.length })
      (handed ++ (os.get g).lost.toList.map fun r => lostRepair n.seq g r true)⟩ := by
  cases lost : (os.get g).lost with
  | none =>
    have same : withoutLost (os.get g) = os.get g := by rw [withoutLost, ← lost]
    rw [closeLost_none (by rw [out_capAt]; exact lost), same, put_get, Option.toList_none, List.map_nil, List.append_nil]
    rfl
  | some r => rw [closeLost_some (r := r) (m := n) (by rw [out_capAt]; exact lost) rfl]; rfl

theorem closeLost_idle (lost : (os.get g).lost = none) :
    Cx.closeLost ⟨⟨p, u⟩, capAt cap os x m handed⟩ g true = ⟨⟨p, u⟩, capAt cap os x m handed⟩ :=
  closeLost_none (by rw [out_capAt]; exact lost) true

/-! ## Repair records (R202) -/

theorem insertSeq_first {r : RepairRec} {l : List RepairRec} (h : ∀ y ∈ l, r.seq < y.seq) : insertSeq r l = r :: l := by
  cases l with
  | nil => rfl
  | cons y l => exact if_pos (h y List.mem_cons_self).le

/-- Records in ascending order stay in their order. -/
theorem sortSeq_sorted {l : List RepairRec} (h : (l.map (·.seq)).Pairwise (· < ·)) : sortSeq l = l := by
  induction l with
  | nil => rfl
  | cons r l ih =>
    rw [List.map_cons, List.pairwise_cons] at h
    change insertSeq r (sortSeq l) = _
    rw [ih h.2]
    exact insertSeq_first fun y hy => h.1 y.seq (List.mem_map_of_mem hy)

/-- The writer with no repair record left and so many suppressed. -/
def suppressedBy (w : Writer) (k : Nat) : Writer :=
  { w with holding := [], handed := [], suppressed := if k = 0 then w.suppressed else min 4294967295 (w.suppressed + k) }

theorem endRepairs_of {c : Cx} {rs left : List RepairRec} (h : c.placeRepairs rs = (left, ⟨⟨p, u⟩, cap⟩)) : c.endRepairs rs =
    ⟨⟨if left = [] then p else p.store (slotBase cap.slot + 0x64) (word (min 4294967295 (cap.writer.suppressed + left.length))), u⟩,
      { cap with writer := suppressedBy cap.writer left.length }⟩ := by
  unfold Cx.endRepairs
  rw [h]
  cases left with
  | nil => rfl
  | cons r left =>
    rw [if_neg (List.cons_ne_nil _ _)]
    exact suppress_eq (Nat.succ_ne_zero left.length) p u { cap with writer := { cap.writer with holding := [], handed := [] } }

/-! ## The speed map record (R195, R202) -/

theorem endMap_none {c : Cx} (h : c.cap.writer.map = none) : c.endMap = c := by
  unfold Cx.endMap
  rw [h]

/-- There is no room: the record is dropped. -/
theorem endMap_drops {c : Cx} {n : MapRec} (h : c.cap.writer.map = some n)
    (full : RoomAt c.hub.port c.cap.writer.mapList c.cap.writer.mapList.capacity) : c.endMap =
      ⟨⟨c.hub.port.store (slotBase c.cap.slot + 0x28)
        (word (flagBit c.cap.writer.faultMap + 2 * flagBit c.cap.writer.faultRepair + 4)), c.hub.orders⟩,
        { c.cap with writer := { c.cap.writer with map := none, mapPending := false, mapDropped := true } }⟩ := by
  unfold Cx.endMap
  rw [h, room_full (c := c) (id := .map) full]
  rfl

/-- The record is written, and CUE told where its close was still waiting with a cue. -/
theorem endMap_writes {c d : Cx} {n : MapRec} {k : Nat} (h : c.cap.writer.map = some n) (room : c.room .map = (k, d)) (pos : k ≠ 0) :
    c.endMap = if d.cap.writer.closeDue = some true then (d.writeMap n).news .cue else d.writeMap n := by
  unfold Cx.endMap
  rw [h, room]
  exact if_neg pos

end

end Sys2Proof.TransferMemory
end

section
/-! PROOFS. The lanes at a warm reset: open dropouts closed with CUT, records completed and handed over (R100, R102, R104). -/

namespace Sys2Proof.TransferMemory

open Machine Safety Laws

/-! ## One lane -/

/-- A lane's open dropout. -/
def openedIn (m : LaneMonitor) (lane : LaneNo) : Option Dropout := (getAt m.lanes lane).bind (·.dropout)

/-- No run is unsettled in a lane with an open dropout. -/
def Unrun (m : LaneMonitor) : Prop := ∀ lane l, getAt m.lanes lane = some l → l.dropout ≠ none → l.run = none

/-- The block a dropout closed at a reset is put down to. -/
def lastBlock (m : LaneMonitor) : Nat := (m.last.map JudgedMark.idx).getD 0

/-- A lane's dropout as it is closed at a reset. -/
def closedAt (m : LaneMonitor) (lane : LaneNo) (d : Dropout) : ClosedDropout := ⟨m.seq, lane, d, true, none, lastBlock m, none⟩

/-- The monitor after a lane's reset. -/
def afterLane (m : LaneMonitor) (lane : LaneNo) : LaneMonitor := { m with
  lanes := ((getAt m.lanes lane).elim m.lanes fun l => setAt m.lanes lane (some { l.endNotice with dropout := none }))
  seq := m.seq + (openedIn m lane).toList.length
  closed := m.closed ++ (openedIn m lane).toList.map (closedAt m lane) }

/-- The open excerpt after a lane's reset: a dropout closed in its lane joins it (R198). -/
def markExcerpt (m : LaneMonitor) (lane : LaneNo) (e : Excerpt) : Excerpt :=
  if e.lane = lane ∧ (openedIn m lane).isSome then { e with endIdx := some (lastBlock m + 1), seqs := e.seqs ++ [m.seq] } else e

section

variable {h : Hub} {cap : Capture} {os : PerGroup GroupOut} {x : Option Excerpt} {m : LaneMonitor} {handed : List RepairRec}
  {lane : LaneNo}

theorem endNotice_dropout {l : LaneState} (h : l.dropout ≠ none → l.run = none) : l.endNotice.dropout = l.dropout := by
  unfold LaneState.endNotice
  cases run : l.run with
  | none => rfl
  | some r =>
    have none_ : l.dropout = none := Classical.byContradiction fun some_ => by
      rw [h some_] at run
      cases run
    simp [none_]

theorem markExcerpt_none (none_ : openedIn m lane = none) (e : Excerpt) : markExcerpt m lane e = e :=
  if_neg (by rw [none_]; simp)

theorem laneReset_eq (unrun : Unrun m) : Cx.laneReset ⟨h, capAt cap os x (some m) handed⟩ lane =
    ⟨h, capAt cap os (x.map (markExcerpt m lane)) (some (afterLane m lane)) handed⟩ := by
  cases state : getAt m.lanes lane with
  | none =>
    have none_ : openedIn m lane = none := by rw [openedIn, state]; rfl
    have idle : afterLane m lane = m := by simp [afterLane, none_, state]
    have same : x.map (markExcerpt m lane) = x := by cases x <;> simp [markExcerpt_none none_]
    unfold Cx.laneReset
    rw [show Cx.laneState ⟨h, capAt cap os x (some m) handed⟩ lane = none from state, idle, same]
  | some l =>
    have dropout := endNotice_dropout (unrun lane l state)
    have opened : openedIn m lane = l.dropout := by rw [openedIn, state]; rfl
    unfold Cx.laneReset
    rw [show Cx.laneState ⟨h, capAt cap os x (some m) handed⟩ lane = some l from state]
    dsimp only
    rw [dropout]
    cases drop : l.dropout with
    | none =>
      rw [drop] at opened
      have same : x.map (markExcerpt m lane) = x := by cases x <;> simp [markExcerpt_none opened]
      have after : afterLane m lane = { m with lanes := setAt m.lanes lane (some { l.endNotice with dropout := none }) } := by
        simp [afterLane, opened, state]
      rw [same, after]
      rfl
    | some d =>
      rw [drop] at opened
      have after : afterLane m lane = { m with
          lanes := setAt m.lanes lane (some { l.endNotice with dropout := none }), seq := m.seq + 1
          closed := m.closed ++ [closedAt m lane d] } := by
        simp [afterLane, opened, state]
      rw [after]
      dsimp only
      unfold Cx.closeDropout Cx.excerptClosing
      cases x with
      | none => rfl
      | some e =>
        by_cases mine : e.lane = lane
        · have marked : markExcerpt m lane e = { e with endIdx := some (lastBlock m + 1), seqs := e.seqs ++ [m.seq] } :=
            if_pos ⟨mine, by rw [opened]; rfl⟩
          rw [Option.map_some, marked]
          exact if_pos mine
        · have marked : markExcerpt m lane e = e := if_neg fun both => mine both.1
          rw [Option.map_some, marked]
          exact if_neg mine

end

/-! ## All lanes -/

/-- The open excerpt after the reset of the lanes given. -/
def markExcerpts : LaneMonitor → List LaneNo → Excerpt → Excerpt
  | _, [], e => e
  | m, lane :: rest, e => markExcerpts (afterLane m lane) rest (markExcerpt m lane e)

theorem getAt_setAt_of_ne {α : Type} {n : Nat} (v : Vector α n) {i j : Fin n} (x : α) (ne : j ≠ i) :
    getAt (setAt v i x) j = getAt v j := by
  unfold getAt setAt
  exact Vector.getElem_set_ne _ _ fun e => ne (Fin.ext e.symm)

theorem getAt_afterLane_of_ne (m : LaneMonitor) {lane k : LaneNo} (ne : k ≠ lane) :
    getAt (afterLane m lane).lanes k = getAt m.lanes k := by
  unfold afterLane
  cases getAt m.lanes lane with
  | none => rfl
  | some l => exact getAt_setAt_of_ne _ _ ne

theorem openedIn_afterLane_of_ne (m : LaneMonitor) {lane k : LaneNo} (ne : k ≠ lane) :
    openedIn (afterLane m lane) k = openedIn m k := by
  rw [openedIn, getAt_afterLane_of_ne m ne, openedIn]

theorem getAt_setAt_self {α : Type} {n : Nat} (v : Vector α n) (i : Fin n) (x : α) : getAt (setAt v i x) i = x := by
  unfold getAt setAt
  exact Vector.getElem_set_self _

theorem unrun_afterLane {m : LaneMonitor} (unrun : Unrun m) (lane : LaneNo) : Unrun (afterLane m lane) := by
  intro k l state some_
  by_cases same : k = lane
  · subst same
    unfold afterLane at state
    cases before : getAt m.lanes k with
    | none =>
      simp only [before, Option.elim_none] at state
      cases state
    | some l' =>
      simp only [before, Option.elim_some, getAt_setAt_self, Option.some.injEq] at state
      rw [← state] at some_
      exact absurd rfl some_
  · rw [getAt_afterLane_of_ne m same] at state
    exact unrun k l state some_

theorem foldl_laneReset {h : Hub} {cap : Capture} {os : PerGroup GroupOut} {handed : List RepairRec} (ls : List LaneNo)
    {x : Option Excerpt} {m : LaneMonitor} (unrun : Unrun m) :
    ls.foldl Cx.laneReset ⟨h, capAt cap os x (some m) handed⟩ =
      ⟨h, capAt cap os (x.map (markExcerpts m ls)) (some (ls.foldl afterLane m)) handed⟩ := by
  induction ls generalizing x m with
  | nil => cases x <;> rfl
  | cons lane rest ih =>
    rw [List.foldl_cons, laneReset_eq unrun, ih (unrun_afterLane unrun lane), Option.map_map]
    rfl

/-! ## Numbers -/

/-- Records that take the numbers from the given one on. -/
def numbered : List (Nat → RepairRec) → Nat → List RepairRec
  | [], _ => []
  | f :: fs, n => f n :: numbered fs (n + 1)

theorem numbered_append (fs gs : List (Nat → RepairRec)) (n : Nat) :
    numbered (fs ++ gs) n = numbered fs n ++ numbered gs (n + fs.length) := by
  induction fs generalizing n with
  | nil => rfl
  | cons f fs ih =>
    rw [List.cons_append, numbered, ih, numbered, List.length_cons, List.cons_append, Nat.add_right_comm, Nat.add_assoc]

theorem zipIdx_numbered (fs : List (Nat → RepairRec)) (n k : Nat) :
    ((fs.zipIdx k).map fun x => x.1 (n + x.2)) = numbered fs (n + k) := by
  induction fs generalizing k with
  | nil => rfl
  | cons f fs ih => rw [List.zipIdx_cons, List.map_cons, ih, numbered, Nat.add_assoc]

/-- The next output index of a lane's group. -/
def nextIndex (cap : Capture) (lane : LaneNo) : Nat :=
  ((cap.resamplers.get (getAt cap.params.lanes lane).group).map (·.next)).getD 0

/-- The record of a dropout closed at a reset (R100, R104). -/
def resetRecord (next : LaneNo → Nat) (lane : LaneNo) (d : Dropout) (seq : Nat) : RepairRec :=
  { seq := seq, kind := d.kind, place := lane.val, minPresent := d.minPresent, cut := true, noExcerpt := d.noExcerpt
    absent := d.absent, first := BitVec.ofNat 32 (d.firstOut.getD (next lane))
    length := min 4294967295 (next lane - d.firstOut.getD (next lane)), block := d.block
    position := d.position, voidRuns := d.voidRuns, longest := d.longest, bridged := d.bridged }

/-- The record of a closed dropout, completed at a reset where it is not complete (R104). -/
def closedRecord (next : LaneNo → Nat) (x : ClosedDropout) : RepairRec :=
  x.length.elim (resetRecord next x.lane x.drop x.seq) x.record

theorem cutShort_record (next : LaneNo → Nat) (x : ClosedDropout) :
    (x.cutShort (next x.lane)).length.map (x.cutShort (next x.lane)).record = some (closedRecord next x) := by
  unfold ClosedDropout.cutShort closedRecord
  cases length : x.length with
  | some k => simp [length]
  | none => rfl

theorem cutShort_complete (x : ClosedDropout) (n : Nat) : (x.cutShort n).length ≠ none := by
  unfold ClosedDropout.cutShort
  cases length : x.length with
  | some k => simp [length]
  | none => simp

theorem splitComplete_all {l : List ClosedDropout} (complete : ∀ x ∈ l, x.length ≠ none) :
    splitComplete l = (l.filterMap fun d => d.length.map d.record, []) := by
  obtain ⟨n, left, -, next, done⟩ := splitComplete_spec l
  have none_ : l.drop n = [] := by
    cases rest : l.drop n with
    | nil => rfl
    | cons y ys =>
      have mem : y ∈ l := List.mem_of_mem_drop (by rw [rest]; exact List.mem_cons_self)
      exact absurd (next y (by rw [rest]; rfl)) (complete y mem)
  have all : l.take n = l := by
    rw [← List.append_nil (l.take n), ← none_, List.take_append_drop]
  refine Prod.ext ?_ (left.trans none_)
  rw [done, all]

theorem splitComplete_cutShort (next : LaneNo → Nat) (l : List ClosedDropout) :
    splitComplete (l.map fun d => d.cutShort (next d.lane)) = (l.map (closedRecord next), []) := by
  rw [splitComplete_all fun x hx => by
    obtain ⟨y, -, rfl⟩ := List.mem_map.1 hx
    exact cutShort_complete y _, List.filterMap_map]
  have records : ((fun d : ClosedDropout => d.length.map d.record) ∘ fun d => d.cutShort (next d.lane)) = some ∘ closedRecord next :=
    funext (cutShort_record next)
  rw [records, List.filterMap_eq_map]

/-! ## What the lanes leave -/

section

variable (m : LaneMonitor) (next : LaneNo → Nat)

/-- The records, numbers aside, of the dropouts open in the lanes given. -/
def openRecords (ls : List LaneNo) : List (Nat → RepairRec) :=
  ls.filterMap fun lane => (openedIn m lane).map (resetRecord next lane)

theorem openRecords_congr {m n : LaneMonitor} {ls : List LaneNo} (h : ∀ l ∈ ls, openedIn n l = openedIn m l) :
    openRecords n next ls = openRecords m next ls :=
  List.filterMap_congr fun l hl => by rw [h l hl]

theorem afterLanes_spec {ls : List LaneNo} (nodup : ls.Nodup) :
    (ls.foldl afterLane m).seq = m.seq + (openRecords m next ls).length ∧
    (ls.foldl afterLane m).closed.map (closedRecord next) =
      m.closed.map (closedRecord next) ++ numbered (openRecords m next ls) m.seq := by
  induction ls generalizing m with
  | nil => exact ⟨rfl, (List.append_nil _).symm⟩
  | cons lane rest ih =>
    obtain ⟨fresh, nodup⟩ := List.nodup_cons.1 nodup
    have same : openRecords (afterLane m lane) next rest = openRecords m next rest :=
      openRecords_congr next fun l hl => openedIn_afterLane_of_ne m fun e => fresh (e ▸ hl)
    obtain ⟨seq, closed⟩ := ih (afterLane m lane) nodup
    rw [same] at seq closed
    rw [List.foldl_cons]
    have first : openRecords m next (lane :: rest) =
        (openedIn m lane).toList.map (resetRecord next lane) ++ openRecords m next rest := by
      unfold openRecords
      cases opened : openedIn m lane with
      | none => rw [List.filterMap_cons, opened]; rfl
      | some d => rw [List.filterMap_cons, opened]; rfl
    refine ⟨?_, ?_⟩
    · rw [seq, first, List.length_append, List.length_map, ← Nat.add_assoc]
      rfl
    · rw [closed, first, numbered_append, List.length_map, ← List.append_assoc]
      refine congrArg₂ (· ++ ·) ?_ rfl
      unfold afterLane
      rw [List.map_append]
      cases openedIn m lane <;> rfl

/-- How many dropouts are open in the lanes given before a lane. -/
def openBefore (ls : List LaneNo) (lane : LaneNo) : Nat := (ls.filter fun y => decide (y < lane) && (openedIn m y).isSome).length

theorem markExcerpts_other {ls : List LaneNo} {e : Excerpt} (other : e.lane ∉ ls) : markExcerpts m ls e = e := by
  induction ls generalizing m with
  | nil => rfl
  | cons lane rest ih =>
    obtain ⟨ne, other⟩ := not_or.1 (fun h => other (List.mem_cons.2 h))
    rw [markExcerpts, markExcerpt, if_neg fun both => ne both.1]
    exact ih _ other

/-- The open excerpt lists the number that the dropout of its lane takes (R198). -/
theorem markExcerpts_spec {ls : List LaneNo} (sorted : ls.Pairwise (· < ·)) {e : Excerpt} (mem : e.lane ∈ ls) :
    ∃ b, markExcerpts m ls e = { e with endIdx := b, seqs := e.seqs ++
      (if (openedIn m e.lane).isSome then [m.seq + openBefore m ls e.lane] else []) } := by
  induction ls generalizing m with
  | nil => cases mem
  | cons lane rest ih =>
    obtain ⟨first, sorted⟩ := List.pairwise_cons.1 sorted
    by_cases mine : e.lane = lane
    · have none_ : openBefore m (lane :: rest) e.lane = 0 := by
        rw [openBefore, List.length_eq_zero_iff, List.filter_eq_nil_iff]
        intro y hy
        have le : ¬ y < e.lane := by
          rcases List.mem_cons.1 hy with rfl | hy
          · rw [mine]; exact lt_irrefl _
          · rw [mine]; exact not_lt_of_gt (first y hy)
        simp [le]
      have others : (markExcerpt m lane e).lane ∉ rest := by
        have same : (markExcerpt m lane e).lane = e.lane := by
          unfold markExcerpt
          split <;> rfl
        rw [same, mine]
        exact fun h => lt_irrefl _ (first lane h)
      rw [markExcerpts, markExcerpts_other _ others, none_, Nat.add_zero]
      by_cases opened : (openedIn m lane).isSome = true
      · exact ⟨_, by rw [markExcerpt, if_pos ⟨mine, opened⟩, mine, if_pos opened]⟩
      · have closed : ¬ (openedIn m e.lane).isSome = true := by rw [mine]; exact opened
        exact ⟨e.endIdx, by rw [markExcerpt, if_neg fun both => opened both.2, if_neg closed, List.append_nil]⟩
    · have mem : e.lane ∈ rest := (List.mem_cons.1 mem).resolve_left mine
      have less : lane < e.lane := first _ mem
      have same : ∀ l ∈ rest, openedIn (afterLane m lane) l = openedIn m l := fun l hl =>
        openedIn_afterLane_of_ne m (ne_of_gt (first l hl))
      obtain ⟨b, marked⟩ := ih (afterLane m lane) sorted mem
      have count : (afterLane m lane).seq + openBefore (afterLane m lane) rest e.lane = m.seq + openBefore m (lane :: rest) e.lane := by
        have rest_ : openBefore (afterLane m lane) rest e.lane = openBefore m rest e.lane :=
          congrArg List.length (List.filter_congr fun l hl => by rw [same l hl])
        rw [rest_]
        unfold afterLane openBefore
        rw [List.filter_cons]
        cases openedIn m lane with
        | none => simp
        | some d => simp [less]; omega
      refine ⟨b, ?_⟩
      rw [markExcerpts, markExcerpt, if_neg fun both => mine both.1, marked, same _ mem, count]

end

/-! ## The lanes at a reset -/

section

variable {h : Hub} {cap : Capture} {os : PerGroup GroupOut} {x : Option Excerpt} {handed : List RepairRec}

theorem nextOut_capAt (m : Option LaneMonitor) (lane : LaneNo) :
    Cx.nextOut ⟨h, capAt cap os x m handed⟩ lane = nextIndex cap lane := by
  unfold Cx.nextOut nextIndex
  change (match cap.resamplers.get (getAt cap.params.lanes lane).group with | none => 0 | some r => r.next) = _
  cases cap.resamplers.get (getAt cap.params.lanes lane).group <;> rfl

/-- The monitor once the lanes are done and every record is handed over. -/
def resetMonitor (m : LaneMonitor) : LaneMonitor := { laneNos.foldl afterLane m with closed := [] }

theorem lanesReset_eq {m : LaneMonitor} (unrun : Unrun m) : Cx.lanesReset ⟨h, capAt cap os x (some m) handed⟩ =
    ⟨h, capAt cap os (x.map (markExcerpts m laneNos)) (some (resetMonitor m))
      (handed ++ (m.closed.map (closedRecord (nextIndex cap)) ++ numbered (openRecords m (nextIndex cap) laneNos) m.seq))⟩ := by
  obtain ⟨-, closed⟩ := afterLanes_spec m (nextIndex cap) nodup_laneNos
  have split := splitComplete_cutShort (nextIndex cap) (laneNos.foldl afterLane m).closed
  unfold Cx.lanesReset
  dsimp only
  rw [foldl_laneReset laneNos unrun]
  simp only [nextOut_capAt]
  unfold Cx.handComplete
  change (let y := splitComplete ((laneNos.foldl afterLane m).closed.map fun d => d.cutShort (nextIndex cap d.lane))
    (⟨h, capAt cap os (x.map (markExcerpts m laneNos)) (some { laneNos.foldl afterLane m with closed := y.2 }) (handed ++ y.1)⟩ : Cx)) = _
  rw [split, closed]
  rfl

theorem lanesReset_none : Cx.lanesReset ⟨h, capAt cap os x none handed⟩ = ⟨h, capAt cap os x none handed⟩ := rfl

/-- No dropout is open, and none is waiting for its record to be complete. -/
def LanesQuiet (m : Option LaneMonitor) : Prop :=
  ∀ n, m = some n → n.closed = [] ∧ ∀ l x, getAt n.lanes l = some x → x.dropout = none

theorem openedIn_quiet {m : LaneMonitor} (quiet : ∀ l x, getAt m.lanes l = some x → x.dropout = none) (lane : LaneNo) :
    openedIn m lane = none := by
  unfold openedIn
  cases state : getAt m.lanes lane with
  | none => rfl
  | some l => exact quiet lane l state

theorem openedIn_afterLane_quiet {m : LaneMonitor} (quiet : ∀ l, openedIn m l = none) (lane k : LaneNo) :
    openedIn (afterLane m lane) k = none := by
  by_cases same : k = lane
  · subst same
    unfold openedIn afterLane
    cases state : getAt m.lanes k with
    | none => simp only [Option.elim_none, state, Option.bind_none]
    | some l => simp only [Option.elim_some, getAt_setAt_self, Option.bind_some]
  · rw [openedIn_afterLane_of_ne m same]
    exact quiet k

theorem markExcerpts_quiet (ls : List LaneNo) {m : LaneMonitor} (quiet : ∀ l, openedIn m l = none) (e : Excerpt) :
    markExcerpts m ls e = e := by
  induction ls generalizing m with
  | nil => rfl
  | cons lane rest ih =>
    rw [markExcerpts, markExcerpt_none (quiet lane)]
    exact ih (openedIn_afterLane_quiet quiet lane)

theorem openRecords_quiet {m : LaneMonitor} (quiet : ∀ l, openedIn m l = none) (next : LaneNo → Nat) (ls : List LaneNo) :
    openRecords m next ls = [] := by
  unfold openRecords
  rw [List.filterMap_eq_nil_iff]
  intro l _
  rw [quiet l]
  rfl

/-- With no dropout open or waiting nothing comes of the lanes. -/
theorem lanesReset_quiet {m : Option LaneMonitor} (quiet : LanesQuiet m) :
    ∃ n, Cx.lanesReset ⟨h, capAt cap os x m handed⟩ = ⟨h, capAt cap os x n handed⟩ ∧ n.map (·.seq) = m.map (·.seq) := by
  cases m with
  | none => exact ⟨none, rfl, rfl⟩
  | some m =>
    obtain ⟨closed, lanes⟩ := quiet m rfl
    have opened := openedIn_quiet lanes
    have unrun : Unrun m := fun l y state some_ => absurd (lanes l y state) some_
    have same : x.map (markExcerpts m laneNos) = x := by cases x <;> simp [markExcerpts_quiet laneNos opened]
    refine ⟨some (resetMonitor m), ?_, congrArg some ?_⟩
    · rw [lanesReset_eq unrun, same, closed, openRecords_quiet opened, numbered, List.map_nil, List.append_nil, List.append_nil]
    · change (laneNos.foldl afterLane m).seq = m.seq
      rw [(afterLanes_spec m (nextIndex cap) nodup_laneNos).1, openRecords_quiet opened, List.length_nil, Nat.add_zero]

end

end Sys2Proof.TransferMemory
end

section
/-! PROOFS. The spans, the frames and the excerpt at a warm reset together (R182, R202). -/

namespace Sys2Proof.TransferMemory

open Machine Safety Laws

/-! ## The work of a warm reset in parts -/

/-- The capture with its end reason set. -/
def endedCap (cap : Capture) : Capture := { cap with control := { cap.control with endReason := .reset } }

/-- The frames released before the reset, on their way into the FILLING spans. -/
def fillSpans (c : Cx) : Cx := (c.fillReleased .a (c.out .a).arriving).fillReleased .b (c.out .b).arriving

/-- The spans and the excerpt closed, the frames left discarded. -/
def closeSpans (c : Cx) : Cx := ((((c.closeCut .a).closeCut .b).discardFrames .a).discardFrames .b).cutExcerpt

/-- The LOST records closed. -/
def closeLosts (c : Cx) : Cx := (c.closeLost .a true).closeLost .b true

/-- The records placed or suppressed, the speed map record written or dropped. -/
def endRecords (c : Cx) : Cx := (c.endRepairs (sortSeq (c.cap.writer.holding ++ c.cap.writer.handed))).endMap

theorem resetCapture_parts (c : Cx) : c.resetCapture = endRecords (closeLosts (closeSpans (fillSpans
    (Cx.closeMap ((c.mapControl fun k => { k with endReason := .reset }).progress 0x24 (word (endReasonCode .reset))))).lanesReset)) := by
  unfold Cx.resetCapture Cx.writerReset endRecords closeLosts closeSpans fillSpans
  dsimp only

theorem resetCapture_eq (p : Port) (u : OrderUnit) (cap : Capture) : Cx.resetCapture ⟨⟨p, u⟩, cap⟩ =
    endRecords (closeLosts (closeSpans (fillSpans
      (Cx.closeMap ⟨⟨p.store (slotBase cap.slot + 0x24) 4, u⟩, endedCap cap⟩)).lanesReset)) := by
  have first : (Cx.mapControl ⟨⟨p, u⟩, cap⟩ fun k => { k with endReason := .reset }).progress 0x24 (word (endReasonCode .reset)) =
      ⟨⟨p.store (slotBase cap.slot + 0x24) 4, u⟩, endedCap cap⟩ := rfl
  rw [resetCapture_parts, first]

/-! ## Where the stages write -/

section

variable {cap : Capture} {o : GroupOut} {g : Group} {k : Nat} {r : Nat × Nat}

theorem lostWord_bounds (cap : Capture) (g : Group) :
    slotBase cap.slot + 0x68 ≤ lostWord cap g ∧ lostWord cap g + 4 ≤ slotBase cap.slot + 0x70 ∧ lostWord cap g + 4 ≤ 0x2000 := by
  have low := slotBase_lt cap.slot
  cases g <;> simp only [lostWord] <;> omega

theorem lostWord_apart (cap : Capture) : Apart (lostWord cap .a, 4) (lostWord cap .b, 4) := by
  simp only [lostWord, Apart]
  omega

theorem mem_cutRanges (h : r ∈ cutRanges o) : o.filling ≠ none ∧ (cursorSpan o).addr ≤ r.1 ∧ r.1 + r.2 ≤ (cursorSpan o).addr + 32 := by
  unfold cutRanges at h
  split at h
  · cases h
  · rename_i some_
    simp only [List.mem_cons, List.not_mem_nil, or_false] at h
    rcases h with rfl | rfl <;> exact ⟨some_, by omega, by omega⟩

theorem mem_lostRanges (h : r ∈ lostRanges cap g k) : k ≠ 0 ∧ r = (lostWord cap g, 4) := by
  unfold lostRanges at h
  split at h
  · cases h
  · rename_i some_
    exact ⟨some_, List.mem_singleton.1 h⟩

theorem mem_excerptRanges {x : Option Excerpt} (h : r ∈ x.toList.flatMap excerptRanges) : ∃ e, x = some e ∧
    ((e.span.addr ≤ r.1 ∧ r.1 + r.2 ≤ e.span.addr + 32) ∨ (e.span.buffer ≤ r.1 ∧ r.1 + r.2 ≤ e.span.buffer + 64)) := by
  obtain ⟨e, he, hr⟩ := List.mem_flatMap.1 h
  refine ⟨e, Option.mem_toList.1 he, ?_⟩
  simp only [excerptRanges, List.mem_cons, List.not_mem_nil, or_false] at hr
  rcases hr with rfl | rfl | rfl <;> simp only <;> omega

end

/-! ## The spans, the frames and the excerpt -/

/-- The bytes that closing spans and excerpt and counting lost frames writes. -/
def closeRanges (cap : Capture) (os : PerGroup GroupOut) (x : Option Excerpt) : List (Nat × Nat) :=
  cutRanges os.a ++ (cutRanges os.b ++ (lostRanges cap .a (lostFrames cap .a os.a) ++
    (lostRanges cap .b (lostFrames cap .b os.b) ++ x.toList.flatMap excerptRanges)))

/-- The news of the spans and the excerpt closed. -/
def closeNews (u : OrderUnit) (n : SlotNo) (os : PerGroup GroupOut) (x : Option Excerpt) : OrderUnit :=
  let a := if os.a.filling = none then u else u.setNews n .spanA
  let b := if os.b.filling = none then a else a.setNews n .spanB
  if x = none then b else b.setNews n .excerpt

/-- A group's part once its span is closed and its frames are discarded. -/
def endedOut (cap : Capture) (g : Group) (o : GroupOut) : GroupOut := discardOut (cutOut o) (lostFrames cap g o)

theorem endedOut_lost (cap : Capture) (g : Group) (o : GroupOut) : (endedOut cap g o).lost = o.lost := (cutOut_kept o).2.2.2.2

/-- The FILLING spans and the open excerpt are in place, apart from each other and from the order table, and FILLING. -/
structure Closable (p : Port) (os : PerGroup GroupOut) (x : Option Excerpt) : Prop where
  span : ∀ g, (os.get g).filling ≠ none → 0x2000 ≤ (cursorSpan (os.get g)).addr ∧ Holds p (cursorSpan (os.get g)).addr 1
  spans : os.a.filling ≠ none → os.b.filling ≠ none → Apart ((cursorSpan os.a).addr, 32) ((cursorSpan os.b).addr, 32)
  excerpt : ∀ e, x = some e → 0x2000 ≤ e.span.addr ∧ 0x2000 ≤ e.span.buffer ∧ Holds p e.span.addr 1 ∧
    Apart (e.span.addr, 32) (e.span.buffer, 64)
  both : ∀ g e, (os.get g).filling ≠ none → x = some e →
    Apart ((cursorSpan (os.get g)).addr, 32) (e.span.addr, 32) ∧ Apart ((cursorSpan (os.get g)).addr, 32) (e.span.buffer, 64)

/-- What the port shows once spans and excerpt are closed and the lost frames are counted. -/
structure Closed (q : Port) (cap : Capture) (os : PerGroup GroupOut) (x : Option Excerpt) : Prop where
  span : ∀ g sp, (os.get g).filling = some sp →
    Holds q (cursorSpan (os.get g)).addr 2 ∧ Holds q ((cursorSpan (os.get g)).addr + 0x1C) (cutFlags sp)
  lost : ∀ g, 0 < lostFrames cap g (os.get g) → Holds q (lostWord cap g)
    (word (min 4294967295 ((os.get g).samplesLost + lostFrames cap g (os.get g))))
  excerpt : ∀ e, x = some e → Holds q e.span.addr 2 ∧ Holds q (e.span.addr + 0x0C) (word (64 + 15360 * e.stored)) ∧
    Holds q (e.span.addr + 0x1C) 1 ∧
    ∀ (i : Nat) (v : Word), (e.header (getAt cap.params.lanes e.lane) false true)[i]? = some v → Holds q (e.span.buffer + 4 * i) v

theorem lostFrames_cutOut (cap : Capture) (g : Group) (o : GroupOut) : lostFrames cap g (cutOut o) = lostFrames cap g o := by
  obtain ⟨-, queue, arriving, -, -⟩ := cutOut_kept o
  rw [lostFrames, queue, arriving, lostFrames]

section

variable {p : Port} {u : OrderUnit} {cap : Capture} {os : PerGroup GroupOut} {x : Option Excerpt} {m : Option LaneMonitor}
  {handed : List RepairRec}

/-- A word of a span stays while other spans, the excerpt and the counts of lost frames are written. -/
theorem closable_apart (h : Closable p os x) {g k : Group} (filling : (os.get g).filling ≠ none) (ne : g ≠ k) {a : Nat}
    (inside : (cursorSpan (os.get g)).addr ≤ a ∧ a + 4 ≤ (cursorSpan (os.get g)).addr + 32) :
    ∀ r ∈ cutRanges (os.get k), Apart (a, 4) r := by
  intro r hr
  obtain ⟨filling', low, high⟩ := mem_cutRanges hr
  have spans : Apart ((cursorSpan (os.get g)).addr, 32) ((cursorSpan (os.get k)).addr, 32) := by
    cases g <;> cases k
    · exact absurd rfl ne
    · exact h.spans filling filling'
    · exact (h.spans filling' filling).symm
    · exact absurd rfl ne
  simp only [Apart] at spans ⊢
  omega

theorem closable_apart_lost (cap : Capture) (h : Closable p os x) {g k : Group} {n : Nat} (filling : (os.get g).filling ≠ none) {a : Nat}
    (inside : (cursorSpan (os.get g)).addr ≤ a ∧ a + 4 ≤ (cursorSpan (os.get g)).addr + 32) :
    ∀ r ∈ lostRanges cap k n, Apart (a, 4) r := by
  intro r hr
  obtain ⟨-, rfl⟩ := mem_lostRanges hr
  have low := lostWord_bounds cap k
  have high := (h.span g filling).1
  simp only [Apart]
  omega

theorem closable_apart_excerpt (h : Closable p os x) {g : Group} (filling : (os.get g).filling ≠ none) {a : Nat}
    (inside : (cursorSpan (os.get g)).addr ≤ a ∧ a + 4 ≤ (cursorSpan (os.get g)).addr + 32) :
    ∀ r ∈ x.toList.flatMap excerptRanges, Apart (a, 4) r := by
  intro r hr
  obtain ⟨e, he, place⟩ := mem_excerptRanges hr
  have both := h.both g e filling he
  simp only [Apart] at both ⊢
  omega

theorem lost_apart_excerpt (cap : Capture) (h : Closable p os x) (g : Group) :
    ∀ r ∈ x.toList.flatMap excerptRanges, Apart (lostWord cap g, 4) r := by
  intro r hr
  obtain ⟨e, he, place⟩ := mem_excerptRanges hr
  obtain ⟨high, high', -, -⟩ := h.excerpt e he
  have low := lostWord_bounds cap g
  simp only [Apart]
  omega

/-- The spans and the excerpt closed, the frames left discarded and counted. -/
theorem closeSpans_spec (mem : Memory.wf p.mem = true) (h : Closable p os x) :
    ∃ q, closeSpans ⟨⟨p, u⟩, capAt cap os x m handed⟩ = ⟨⟨q, closeNews u cap.slot os x⟩,
        capAt cap ⟨endedOut cap .a os.a, endedOut cap .b os.b⟩ none m handed⟩ ∧
      Wrote p q (closeRanges cap os x) ∧ Closed q cap os x := by
  obtain ⟨q₁, cutA, wroteA, spanA⟩ := closeCut_spec (u := u) (cap := cap) (os := os) (x := x) (m := m) (handed := handed) (g := .a) mem
    fun some_ => (h.span .a some_).2
  have mem₁ := wroteA.wf mem
  obtain ⟨q₂, cutB, wroteB, spanB⟩ := closeCut_spec (u := if os.a.filling = none then u else u.setNews cap.slot .spanA) (cap := cap)
    (os := os.put .a (cutOut os.a)) (x := x) (m := m) (handed := handed) (g := .b) mem₁
    fun some_ => wroteA.holds mem (h.span .b some_).2 (closable_apart h (g := .b) (k := .a) some_ (by decide)
      ⟨Nat.le_refl _, Nat.add_le_add_left (by decide) _⟩)
  have mem₂ := wroteB.wf mem₁
  obtain ⟨q₃, discardA, wroteC, lostA⟩ := discardFrames_spec (cap := cap) (g := .a) (x := x) (m := m) (handed := handed)
    (u := if os.b.filling = none then (if os.a.filling = none then u else u.setNews cap.slot .spanA)
      else (if os.a.filling = none then u else u.setNews cap.slot .spanA).setNews cap.slot .spanB)
    (os := ⟨cutOut os.a, cutOut os.b⟩) mem₂ (lostFrames_cutOut cap .a os.a)
  have mem₃ := wroteC.wf mem₂
  obtain ⟨q₄, discardB, wroteD, lostB⟩ := discardFrames_spec (cap := cap) (g := .b) (x := x) (m := m) (handed := handed)
    (u := if os.b.filling = none then (if os.a.filling = none then u else u.setNews cap.slot .spanA)
      else (if os.a.filling = none then u else u.setNews cap.slot .spanA).setNews cap.slot .spanB)
    (os := ⟨endedOut cap .a os.a, cutOut os.b⟩) mem₃ (lostFrames_cutOut cap .b os.b)
  have mem₄ := wroteD.wf mem₃
  have wroteBD := wroteB.trans (wroteC.trans wroteD)
  have wroteCD := wroteC.trans wroteD
  obtain ⟨q₅, cutE, wroteE, shownE⟩ := cutExcerpt_spec (u := if os.b.filling = none then (if os.a.filling = none then u
      else u.setNews cap.slot .spanA) else (if os.a.filling = none then u else u.setNews cap.slot .spanA).setNews cap.slot .spanB)
    (cap := cap) (os := ⟨endedOut cap .a os.a, endedOut cap .b os.b⟩) (x := x) (m := m) (handed := handed) mem₄ fun e he => by
      obtain ⟨high, high', state, apart⟩ := h.excerpt e he
      refine ⟨apart, (wroteA.trans wroteBD).holds mem state fun r hr => ?_⟩
      have cut : ∀ g, r ∈ cutRanges (os.get g) → Apart (e.span.addr, 4) r := fun g hr => by
        obtain ⟨filling, low, top⟩ := mem_cutRanges hr
        have both := (h.both g e filling he).1
        simp only [Apart] at both ⊢
        omega
      have lost : ∀ g, r = (lostWord cap g, 4) → Apart (e.span.addr, 4) r := fun g hr => by
        have low := lostWord_bounds cap g
        rw [hr]
        simp only [Apart]
        omega
      simp only [List.mem_append] at hr
      rcases hr with hr | hr | hr | hr
      · exact cut .a hr
      · exact cut .b hr
      · exact lost .a (mem_lostRanges hr).2
      · exact lost .b (mem_lostRanges hr).2
  have wroteCDE := wroteC.trans (wroteD.trans wroteE)
  have keeps : ∀ g, (os.get g).filling ≠ none → ∀ a, (cursorSpan (os.get g)).addr ≤ a ∧ a + 4 ≤ (cursorSpan (os.get g)).addr + 32 →
      ∀ v, Holds q₂ a v → Holds q₅ a v := fun g some_ a inside v ha => wroteCDE.holds mem₂ ha fun r hr => by
    rcases List.mem_append.1 hr with hr | hr
    · exact closable_apart_lost cap h some_ inside r hr
    · rcases List.mem_append.1 hr with hr | hr
      · exact closable_apart_lost cap h some_ inside r hr
      · exact closable_apart_excerpt h some_ inside r hr
  refine ⟨q₅, ?_, wroteA.trans (wroteB.trans (wroteC.trans (wroteD.trans wroteE))), ⟨fun g sp filling => ?_, fun g some_ => ?_, shownE⟩⟩
  · have cuts := (congrArg (fun c => Cx.closeCut c .b) cutA).trans cutB
    have one := (congrArg (fun c => Cx.discardFrames c .a) cuts).trans discardA
    have two := (congrArg (fun c => Cx.discardFrames c .b) one).trans discardB
    exact (congrArg Cx.cutExcerpt two).trans cutE
  · have some_ : (os.get g).filling ≠ none := by rw [filling]; exact Option.some_ne_none sp
    have ends : ∀ n, n + 4 ≤ 32 → (cursorSpan (os.get g)).addr ≤ (cursorSpan (os.get g)).addr + n ∧
        (cursorSpan (os.get g)).addr + n + 4 ≤ (cursorSpan (os.get g)).addr + 32 := fun n hn => by omega
    have shown : Holds q₂ (cursorSpan (os.get g)).addr 2 ∧ Holds q₂ ((cursorSpan (os.get g)).addr + 0x1C) (cutFlags sp) := by
      cases g with
      | a =>
        obtain ⟨state, flags⟩ := spanA sp filling
        exact ⟨wroteB.holds mem₁ state (closable_apart h (g := .a) (k := .b) some_ (by decide) (ends 0 (by decide))),
          wroteB.holds mem₁ flags (closable_apart h (g := .a) (k := .b) some_ (by decide) (ends 0x1C (by decide)))⟩
      | b => exact spanB sp filling
    exact ⟨keeps g some_ _ (ends 0 (by decide)) _ shown.1, keeps g some_ _ (ends 0x1C (by decide)) _ shown.2⟩
  · have same : ∀ o, (cutOut o).samplesLost = o.samplesLost := fun o => (cutOut_kept o).2.2.2.1
    cases g with
    | a =>
      have counted := lostA some_
      rw [show ((⟨cutOut os.a, cutOut os.b⟩ : PerGroup GroupOut).get .a).samplesLost = os.a.samplesLost from same _] at counted
      refine (wroteD.trans wroteE).holds mem₃ counted fun r hr => ?_
      rcases List.mem_append.1 hr with hr | hr
      · rw [(mem_lostRanges hr).2]
        exact lostWord_apart cap
      · exact lost_apart_excerpt cap h .a r hr
    | b =>
      have counted := lostB some_
      rw [show ((⟨endedOut cap .a os.a, cutOut os.b⟩ : PerGroup GroupOut).get .b).samplesLost = os.b.samplesLost from same _] at counted
      exact wroteE.holds mem₄ counted (lost_apart_excerpt cap h .b)

end

end Sys2Proof.TransferMemory
end

section
/-! PROOFS. A warm reset of a capture with no record open (R181, R182, R202). -/

namespace Sys2Proof.TransferMemory

open Machine Safety Laws

/-! ## Released frames that find no FILLING span -/

/-- No released frame of a group is on its way, or it finds no FILLING span, or others wait before it. -/
def Still (o : GroupOut) : Prop := o.arriving = [] ∨ o.filling = none ∨ o.queue ≠ []

theorem fillReleased_still {c : Cx} {g : Group} (h : Still (c.out g)) : c.fillReleased g (c.out g).arriving = c := by
  cases arriving : (c.out g).arriving with
  | nil => rfl
  | cons f rest =>
    unfold Cx.fillReleased
    refine if_neg fun ⟨queue, _, filling⟩ => ?_
    rcases h with h | h | h
    · rw [arriving] at h
      cases h
    · rw [h] at filling
      cases filling
    · exact h queue

theorem fillSpans_still {c : Cx} (h : ∀ g, Still (c.out g)) : fillSpans c = c := by
  unfold fillSpans
  rw [fillReleased_still (h .a), fillReleased_still (h .b)]

/-! ## Nothing to record -/

theorem endRepairs_nil {p : Port} {u : OrderUnit} {cap : Capture} :
    Cx.endRepairs ⟨⟨p, u⟩, cap⟩ [] = ⟨⟨p, u⟩, { cap with writer := suppressedBy cap.writer 0 }⟩ :=
  endRepairs_of (c := ⟨⟨p, u⟩, cap⟩) (left := []) rfl

/-- What the last stage reads of a capture. -/
structure KeepsMap (cap x : Capture) : Prop where
  slot : x.slot = cap.slot
  map : x.writer.map = cap.writer.map
  mapList : x.writer.mapList = cap.writer.mapList
  mapWritten : x.writer.mapWritten = cap.writer.mapWritten
  closeDue : x.writer.closeDue = cap.writer.closeDue
  faultMap : x.writer.faultMap = cap.writer.faultMap
  faultRepair : x.writer.faultRepair = cap.writer.faultRepair
  mapDropped : x.writer.mapDropped = cap.writer.mapDropped

/-- The capture holds no record for the repair list, and none is open. -/
structure NoRecords (cap : Capture) : Prop where
  lanes : LanesQuiet cap.monitor
  lost : ∀ g, (cap.writer.groups.get g).lost = none
  handed : cap.writer.handed = []
  holding : cap.writer.holding = []

section

variable {p : Port} {u : OrderUnit} {cap : Capture}

/-- With no record open the reset ends with the speed map record. -/
theorem endRecords_noRecords (h : NoRecords cap) (n : Option LaneMonitor) : ∃ x,
    endRecords (closeLosts ⟨⟨p, u⟩, capAt cap ⟨endedOut cap .a cap.writer.groups.a, endedOut cap .b cap.writer.groups.b⟩ none n
      cap.writer.handed⟩) = Cx.endMap ⟨⟨p, u⟩, x⟩ ∧ KeepsMap cap x := by
  have lost : ∀ g, ((⟨endedOut cap .a cap.writer.groups.a, endedOut cap .b cap.writer.groups.b⟩ : PerGroup GroupOut).get g).lost =
      none := fun g => match g with
    | .a => (endedOut_lost cap .a cap.writer.groups.a).trans (h.lost .a)
    | .b => (endedOut_lost cap .b cap.writer.groups.b).trans (h.lost .b)
  refine ⟨{ capAt cap ⟨endedOut cap .a cap.writer.groups.a, endedOut cap .b cap.writer.groups.b⟩ none n cap.writer.handed with
    writer := suppressedBy (capAt cap ⟨endedOut cap .a cap.writer.groups.a, endedOut cap .b cap.writer.groups.b⟩ none n
      cap.writer.handed).writer 0 }, ?_, ⟨rfl, rfl, rfl, rfl, rfl, rfl, rfl, rfl⟩⟩
  rw [closeLosts, closeLost_idle (lost .a), closeLost_idle (lost .b), endRecords]
  have sorted : sortSeq (cap.writer.holding ++ cap.writer.handed) = [] := by rw [h.holding, h.handed]; rfl
  change Cx.endMap (Cx.endRepairs _ (sortSeq (cap.writer.holding ++ cap.writer.handed))) = _
  rw [sorted, endRepairs_nil]

/-- The lanes, the spans, the frames and the excerpt at a reset with no record open. -/
theorem closeSpans_noRecords (mem : Memory.wf p.mem = true) (h : NoRecords cap)
    (closable : Closable p cap.writer.groups cap.writer.excerpt) :
    ∃ q x, endRecords (closeLosts (closeSpans (Cx.lanesReset ⟨⟨p, u⟩, cap⟩))) =
        Cx.endMap ⟨⟨q, closeNews u cap.slot cap.writer.groups cap.writer.excerpt⟩, x⟩ ∧ KeepsMap cap x ∧
      Wrote p q (closeRanges cap cap.writer.groups cap.writer.excerpt) ∧ Closed q cap cap.writer.groups cap.writer.excerpt := by
  obtain ⟨n, lanes, -⟩ := lanesReset_quiet (h := ⟨p, u⟩) (cap := cap) (os := cap.writer.groups) (x := cap.writer.excerpt)
    (handed := cap.writer.handed) h.lanes
  rw [capAt_self] at lanes
  obtain ⟨q, closed, wrote, shown⟩ := closeSpans_spec (u := u) (cap := cap) (m := n) (handed := cap.writer.handed) mem closable
  obtain ⟨x, ended, keeps⟩ := endRecords_noRecords (p := q)
    (u := closeNews u cap.slot cap.writer.groups cap.writer.excerpt) h n
  exact ⟨q, x, by rw [lanes, closed, ended], keeps, wrote, shown⟩

/-- The lost frames are counted whatever the words of the spans hold, with no record and no excerpt open. -/
theorem closeSpans_counts (mem : Memory.wf p.mem = true) (h : NoRecords cap) (excerpt : cap.writer.excerpt = none) :
    ∃ q v x, endRecords (closeLosts (closeSpans (Cx.lanesReset ⟨⟨p, u⟩, cap⟩))) = Cx.endMap ⟨⟨q, v⟩, x⟩ ∧ KeepsMap cap x ∧
      ∀ g, 0 < lostFrames cap g (cap.writer.groups.get g) → Holds q (lostWord cap g)
        (word (min 4294967295 ((cap.writer.groups.get g).samplesLost + lostFrames cap g (cap.writer.groups.get g)))) := by
  obtain ⟨n, lanes, -⟩ := lanesReset_quiet (h := ⟨p, u⟩) (cap := cap) (os := cap.writer.groups) (x := none)
    (handed := cap.writer.handed) h.lanes
  rw [← excerpt, capAt_self, excerpt] at lanes
  obtain ⟨q₁, v₁, cutA, mem₁⟩ := closeCut_closes (u := u) (cap := cap) (os := cap.writer.groups) (x := none) (m := n)
    (handed := cap.writer.handed) (g := .a) mem
  obtain ⟨q₂, v, cutB, mem₂⟩ := closeCut_closes (u := v₁) (cap := cap) (os := cap.writer.groups.put .a (cutOut cap.writer.groups.a))
    (x := none) (m := n) (handed := cap.writer.handed) (g := .b) mem₁
  obtain ⟨q₃, discardA, wroteA, lostA⟩ := discardFrames_spec (u := v) (cap := cap) (g := .a) (x := none) (m := n)
    (handed := cap.writer.handed) (os := ⟨cutOut cap.writer.groups.a, cutOut cap.writer.groups.b⟩) mem₂
    (lostFrames_cutOut cap .a cap.writer.groups.a)
  have mem₃ := wroteA.wf mem₂
  obtain ⟨q, discardB, wroteB, lostB⟩ := discardFrames_spec (u := v) (cap := cap) (g := .b) (x := none) (m := n)
    (handed := cap.writer.handed) (os := ⟨endedOut cap .a cap.writer.groups.a, cutOut cap.writer.groups.b⟩) mem₃
    (lostFrames_cutOut cap .b cap.writer.groups.b)
  obtain ⟨x, ended, keeps⟩ := endRecords_noRecords (p := q) (u := v) h n
  refine ⟨q, v, x, ?_, keeps, fun g some_ => ?_⟩
  · have cuts := (congrArg (fun c => Cx.closeCut c .b) cutA).trans cutB
    have one := (congrArg (fun c => Cx.discardFrames c .a) cuts).trans discardA
    have two := (congrArg (fun c => Cx.discardFrames c .b) one).trans discardB
    have closed := congrArg Cx.cutExcerpt two
    rw [lanes]
    exact (congrArg (fun c => endRecords (closeLosts c)) closed).trans ended
  · have same : ∀ o, (cutOut o).samplesLost = o.samplesLost := fun o => (cutOut_kept o).2.2.2.1
    cases g with
    | a =>
      have counted := lostA some_
      rw [show ((⟨cutOut cap.writer.groups.a, cutOut cap.writer.groups.b⟩ : PerGroup GroupOut).get .a).samplesLost =
        cap.writer.groups.a.samplesLost from same _] at counted
      refine wroteB.holds mem₃ counted fun r hr => ?_
      rw [(mem_lostRanges hr).2]
      exact lostWord_apart cap
    | b =>
      have counted := lostB some_
      rw [show ((⟨endedOut cap .a cap.writer.groups.a, cutOut cap.writer.groups.b⟩ : PerGroup GroupOut).get .b).samplesLost =
        cap.writer.groups.b.samplesLost from same _] at counted
      exact counted

end

end Sys2Proof.TransferMemory
end

section
/-! PROOFS. A warm reset of a capture with no record open, as one action (R181, R182, R202). -/

namespace Sys2Proof.TransferMemory

open Machine Safety Laws

/-! ## The work of a warm reset as one action -/

/-- A state's slots and summary are those of an order unit. -/
def NewsOf (t : State) (o : OrderUnit) : Prop := t.orders.slots = o.slots ∧ t.orders.summary = o.summary

/-- The port with the end reason RESET in its progress word (R181). -/
def endedPort (s : State) (e c : Bool) (cap : Capture) : Port := (begunPort s e c).store (slotBase cap.slot + 0x24) 4

/-- The work that follows the speed map's close. -/
def endWriter (c : Cx) : Cx := endRecords (closeLosts (closeSpans (fillSpans c).lanesReset))

theorem keptOutside_mono {s t : State} {R S : List (Nat × Nat)} (h : MemoryKeptOutside s t R) (sub : ∀ r ∈ R, r ∈ S) :
    MemoryKeptOutside s t S := fun a ha => h a fun r hr => ha r (sub r hr)

section

variable {s : State} {e c : Bool} {cap : Capture} {p : Port} {u : OrderUnit} {x : Capture} {R : List (Nat × Nat)}

theorem endedPort_wf (mem : MemoryCanonical s) : Memory.wf (endedPort s e c cap).mem = true :=
  portWf_store (p := begunPort s e c) mem _ _

theorem endedPort_holds (mem : MemoryCanonical s) {a : Nat} {v : Word} (h : Holds s.port a v) (past : 0x2000 ≤ a) :
    Holds (endedPort s e c cap) a v := by
  have low := slotBase_lt cap.slot
  have before : Holds (begunPort s e c) a v := h
  exact before.store mem (by simp only [Apart]; omega)

/-- What a warm reset comes to where the work after its first store is known. -/
theorem warmReset_of (ready : Ready s) (mem : MemoryCanonical s) (capture : s.capture = some cap)
    (ends : endWriter (Cx.closeMap ⟨⟨endedPort s e c cap, s.orders⟩, endedCap cap⟩) = ⟨⟨p, u⟩, x⟩)
    (wrote : Wrote (endedPort s e c cap) p R) (apart : ∀ r ∈ R, Apart (slotBase cap.slot + 0x24, 4) r) :
    ∃ t, exec (.warmReset e c) s = .next t ∧ Stored t (slotBase cap.slot + 0x24) 4 ∧ (∀ a v, Holds p a v → Stored t a v) ∧
      MemoryKeptOutside s t ((slotBase cap.slot + 0x24, 4) :: R) ∧ NewsOf t u := by
  obtain ⟨t, eq, shows_, kept, slots, summary⟩ := warmReset_ends ready capture e c mem ((resetCapture_eq _ _ _).trans ends)
  exact ⟨t, eq, shows_ _ _ (wrote.holds (endedPort_wf mem) (holds_store (p := begunPort s e c) mem _ _) apart), shows_,
    kept _ ((wrote_store (begunPort s e c) _ _).trans wrote), slots, summary⟩

theorem closeMap_of_none {k : Cx} (due : k.cap.writer.closeDue = none) : k.closeMap = k := by
  unfold Cx.closeMap
  rw [due]

end

/-! ## Spans and excerpt that the first store leaves -/

theorem Closable.ended {s : State} {os : PerGroup GroupOut} {x : Option Excerpt} (h : Closable s.port os x) (mem : MemoryCanonical s)
    (e c : Bool) (cap : Capture) : Closable (endedPort s e c cap) os x :=
  ⟨fun g some_ => ⟨(h.span g some_).1, endedPort_holds mem (h.span g some_).2 (h.span g some_).1⟩, h.spans,
    fun y hy => by
      obtain ⟨past, past', state, apart⟩ := h.excerpt y hy
      exact ⟨past, past', endedPort_holds mem state past, apart⟩, h.both⟩

theorem Closed.mono {p q : Port} {cap : Capture} {os : PerGroup GroupOut} {x : Option Excerpt} (h : Closed p cap os x)
    (keeps : ∀ a v, Holds p a v → Holds q a v) : Closed q cap os x :=
  ⟨fun g sp hg => (h.span g sp hg).imp (keeps _ _) (keeps _ _), fun g hg => keeps _ _ (h.lost g hg), fun y hy => by
    obtain ⟨state, fill, flags, header⟩ := h.excerpt y hy
    exact ⟨keeps _ _ state, keeps _ _ fill, keeps _ _ flags, fun i v hv => keeps _ _ (header i v hv)⟩⟩

/-- Where the spans, the lost frames and the excerpt are written. -/
theorem mem_closeRanges {cap : Capture} {os : PerGroup GroupOut} {x : Option Excerpt} {r : Nat × Nat}
    (h : r ∈ closeRanges cap os x) : (∃ g, r ∈ cutRanges (os.get g)) ∨
      (∃ g, r ∈ lostRanges cap g (lostFrames cap g (os.get g))) ∨ r ∈ x.toList.flatMap excerptRanges := by
  unfold closeRanges at h
  simp only [List.mem_append] at h
  rcases h with h | h | h | h | h
  · exact .inl ⟨.a, h⟩
  · exact .inl ⟨.b, h⟩
  · exact .inr (.inl ⟨.a, h⟩)
  · exact .inr (.inl ⟨.b, h⟩)
  · exact .inr (.inr h)

/-- None of those bytes is in the order table's words before the counts of lost frames. -/
theorem closeRanges_apart {p : Port} {os : PerGroup GroupOut} {x : Option Excerpt} (h : Closable p os x) (cap : Capture) {a : Nat}
    (high : a + 4 ≤ slotBase cap.slot + 0x68) : ∀ r ∈ closeRanges cap os x, Apart (a, 4) r := by
  intro r hr
  have low := slotBase_lt cap.slot
  rcases mem_closeRanges hr with ⟨g, hg⟩ | ⟨g, hg⟩ | he
  · obtain ⟨filling, inside, -⟩ := mem_cutRanges hg
    have past := (h.span g filling).1
    simp only [Apart]
    omega
  · have bounds := lostWord_bounds cap g
    rw [(mem_lostRanges hg).2]
    simp only [Apart]
    omega
  · obtain ⟨y, hy, place⟩ := mem_excerptRanges he
    obtain ⟨past, past', -, -⟩ := h.excerpt y hy
    simp only [Apart]
    omega

/-! ## No record and no close open -/

section

variable {s : State} {e c : Bool} {cap : Capture}

/-- A warm reset with no record and no close of the speed map open, once the released frames are placed (R181, R182, R202). -/
theorem warmReset_filled (ready : Ready s) (mem : MemoryCanonical s) (capture : s.capture = some cap)
    (due : cap.writer.closeDue = none) {p : Port} {u : OrderUnit} {x : Capture} {R : List (Nat × Nat)}
    (filled : fillSpans ⟨⟨endedPort s e c cap, s.orders⟩, endedCap cap⟩ = ⟨⟨p, u⟩, x⟩) (slot : x.slot = cap.slot)
    (wrote : Wrote (endedPort s e c cap) p R) (apart : ∀ r ∈ R, Apart (slotBase cap.slot + 0x24, 4) r)
    (h : NoRecords x) (map : x.writer.map = none) (closable : Closable p x.writer.groups x.writer.excerpt) :
    ∃ t q, exec (.warmReset e c) s = .next t ∧ Stored t (slotBase cap.slot + 0x24) 4 ∧
      Closed t.port x x.writer.groups x.writer.excerpt ∧ Wrote p q (closeRanges x x.writer.groups x.writer.excerpt) ∧
      (∀ a v, Holds q a v → Stored t a v) ∧
      MemoryKeptOutside s t ((slotBase cap.slot + 0x24, 4) :: (R ++ closeRanges x x.writer.groups x.writer.excerpt)) ∧
      NewsOf t (closeNews u x.slot x.writer.groups x.writer.excerpt) := by
  obtain ⟨q, y, ended, keeps, closes, shown⟩ := closeSpans_noRecords (u := u) (cap := x) (wrote.wf (endedPort_wf mem)) h closable
  have idle : Cx.closeMap ⟨⟨endedPort s e c cap, s.orders⟩, endedCap cap⟩ = ⟨⟨endedPort s e c cap, s.orders⟩, endedCap cap⟩ :=
    closeMap_of_none due
  obtain ⟨t, eq, reason, shows_, kept, news⟩ := warmReset_of (e := e) (c := c) ready mem capture
    (by rw [idle, endWriter, filled, ended]; exact endMap_none (keeps.map.trans map)) (wrote.trans closes) fun r hr => by
      rcases List.mem_append.1 hr with hr | hr
      · exact apart r hr
      · exact closeRanges_apart closable x (by rw [slot]; omega) r hr
  exact ⟨t, q, eq, reason, shown.mono shows_, closes, shows_, kept, news⟩

/-- A warm reset of a capture with no record and no close of the speed map open, and no frame to place (R181, R182, R202). -/
theorem warmReset_quiet (ready : Ready s) (mem : MemoryCanonical s) (capture : s.capture = some cap)
    (still : ∀ g, Still (cap.writer.groups.get g)) (h : NoRecords cap) (map : cap.writer.map = none)
    (due : cap.writer.closeDue = none) (closable : Closable s.port cap.writer.groups cap.writer.excerpt) :
    ∃ t, exec (.warmReset e c) s = .next t ∧ Stored t (slotBase cap.slot + 0x24) 4 ∧
      Closed t.port cap cap.writer.groups cap.writer.excerpt ∧
      MemoryKeptOutside s t ((slotBase cap.slot + 0x24, 4) :: closeRanges cap cap.writer.groups cap.writer.excerpt) ∧
      NewsOf t (closeNews s.orders cap.slot cap.writer.groups cap.writer.excerpt) := by
  have filled : fillSpans ⟨⟨endedPort s e c cap, s.orders⟩, endedCap cap⟩ = ⟨⟨endedPort s e c cap, s.orders⟩, endedCap cap⟩ :=
    fillSpans_still still
  obtain ⟨t, q, eq, reason, shown, -, -, kept, news⟩ := warmReset_filled ready mem capture due filled rfl (.refl _) nofun
    ⟨h.lanes, h.lost, h.handed, h.holding⟩ map (closable.ended mem e c cap)
  exact ⟨t, eq, reason, ⟨shown.span, shown.lost, shown.excerpt⟩, kept, news⟩

/-- The lost frames are counted whatever the words of the spans hold. -/
theorem warmReset_counts (ready : Ready s) (mem : MemoryCanonical s) (capture : s.capture = some cap)
    (still : ∀ g, Still (cap.writer.groups.get g)) (h : NoRecords cap) (map : cap.writer.map = none)
    (due : cap.writer.closeDue = none) (excerpt : cap.writer.excerpt = none) :
    ∃ t, exec (.warmReset e c) s = .next t ∧ ∀ g, 0 < lostFrames cap g (cap.writer.groups.get g) → Stored t (lostWord cap g)
      (word (min 4294967295 ((cap.writer.groups.get g).samplesLost + lostFrames cap g (cap.writer.groups.get g)))) := by
  have records : NoRecords (endedCap cap) := ⟨h.lanes, h.lost, h.handed, h.holding⟩
  obtain ⟨q, v, x, ended, keeps, counted⟩ := closeSpans_counts (u := s.orders) (cap := endedCap cap)
    (endedPort_wf (e := e) (c := c) (cap := cap) mem) records excerpt
  have idle : Cx.closeMap ⟨⟨endedPort s e c cap, s.orders⟩, endedCap cap⟩ = ⟨⟨endedPort s e c cap, s.orders⟩, endedCap cap⟩ :=
    closeMap_of_none due
  have filled : fillSpans ⟨⟨endedPort s e c cap, s.orders⟩, endedCap cap⟩ = ⟨⟨endedPort s e c cap, s.orders⟩, endedCap cap⟩ :=
    fillSpans_still still
  have ends : endWriter (Cx.closeMap ⟨⟨endedPort s e c cap, s.orders⟩, endedCap cap⟩) = ⟨⟨q, v⟩, x⟩ := by
    rw [idle, endWriter, filled, ended]
    exact endMap_none (keeps.map.trans map)
  obtain ⟨t, eq, shows_, -⟩ := warmReset_ends ready capture e c mem ((resetCapture_eq _ _ _).trans ends)
  exact ⟨t, eq, fun g some_ => shows_ _ _ (counted g some_)⟩

end

/-! ## What NothingOpen and SpansQuiet say -/

/-- The capture with another part of a group. -/
def withOut (cap : Capture) (g : Group) (o : GroupOut) : Capture :=
  { cap with writer := { cap.writer with groups := cap.writer.groups.put g o } }

section

variable {cap : Capture}

theorem get_put_of_ne {α : Type} (p : PerGroup α) {g h : Group} (ne : h ≠ g) (x : α) : (p.put g x).get h = p.get h := by
  cases g <;> cases h
  · exact absurd rfl ne
  · rfl
  · rfl
  · exact absurd rfl ne

/-- Nothing is open but frames released to one group's spans. -/
theorem nothingOpen_arriving {g : Group} (h : NothingOpen (withOut cap g { cap.writer.groups.get g with arriving := [] })) :
    NoRecords cap ∧ cap.writer.map = none ∧ cap.writer.excerpt = none ∧ ∀ k, k ≠ g → (cap.writer.groups.get k).arriving = [] := by
  obtain ⟨lanes, map, excerpt, handed, holding, groups⟩ := h
  refine ⟨⟨lanes, fun k => ?_, handed, holding⟩, map, excerpt, fun k ne => ?_⟩
  · have lost := (groups k).2
    by_cases same : k = g
    · subst same
      rw [withOut, PerGroup.get_put_self] at lost
      exact lost
    · rw [withOut, get_put_of_ne _ same] at lost
      exact lost
  · have arriving := (groups k).1
    rw [withOut, get_put_of_ne _ ne] at arriving
    exact arriving

theorem bridgeFrames_eq (r : Option Resampler) : bridgeFrames r = (r.map (·.buffer.length)).getD 0 := by cases r <;> rfl

/-- A quiet group loses no frame. -/
theorem spansQuiet_lost {g : Group} (quiet : SpansQuiet cap g) (arriving : (cap.writer.groups.get g).arriving = []) :
    lostFrames cap g (cap.writer.groups.get g) = 0 := by
  obtain ⟨-, queue, buffer⟩ := quiet
  rw [lostFrames, queue, arriving, bridgeFrames_eq]
  cases held : cap.resamplers.get g with
  | none => rfl
  | some r =>
    rw [Option.map_some, buffer r held]
    rfl

theorem spansQuiet_cut {g : Group} (quiet : SpansQuiet cap g) : cutRanges (cap.writer.groups.get g) = [] := if_pos quiet.1

/-- The news of one group's span, where the other group is quiet. -/
theorem closeNews_one {u : OrderUnit} {n : SlotNo} {os : PerGroup GroupOut} {g : Group} (others : ∀ k, k ≠ g → (os.get k).filling = none) :
    closeNews u n os none = if (os.get g).filling = none then u else u.setNews n (spanCause g) := by
  unfold closeNews
  cases g with
  | a =>
    rw [show os.b.filling = none from others .b (by decide)]
    rfl
  | b =>
    rw [show os.a.filling = none from others .a (by decide)]
    rfl

/-- One group's FILLING span is in place, and nothing else is open. -/
theorem closable_one {p : Port} {os : PerGroup GroupOut} {g : Group} (others : ∀ k, k ≠ g → (os.get k).filling = none)
    (given : (os.get g).filling ≠ none → 0x2000 ≤ (cursorSpan (os.get g)).addr ∧ Holds p (cursorSpan (os.get g)).addr 1) :
    Closable p os none := by
  refine ⟨fun k some_ => ?_, fun a b => ?_, nofun, fun _ _ _ => nofun⟩
  · by_cases same : k = g
    · subst same
      exact given some_
    · exact absurd (others k same) some_
  · cases g
    · exact absurd (others .b (by decide)) b
    · exact absurd (others .a (by decide)) a

/-- The bytes written where all groups but one are quiet. -/
theorem closeRanges_one {g : Group} (arriving : ∀ k, k ≠ g → (cap.writer.groups.get k).arriving = [])
    (others : ∀ k, k ≠ g → SpansQuiet cap k) {r : Nat × Nat} (h : r ∈ closeRanges cap cap.writer.groups none) :
    r ∈ cutRanges (cap.writer.groups.get g) ∨ r ∈ lostRanges cap g (lostFrames cap g (cap.writer.groups.get g)) := by
  rcases mem_closeRanges h with ⟨k, hk⟩ | ⟨k, hk⟩ | he
  · by_cases same : k = g
    · exact .inl (same ▸ hk)
    · rw [spansQuiet_cut (others k same)] at hk
      cases hk
  · by_cases same : k = g
    · exact .inr (same ▸ hk)
    · rw [spansQuiet_lost (others k same) (arriving k same)] at hk
      cases hk
  · cases he

end

end Sys2Proof.TransferMemory
end

section
/-! PROOFS. The first clauses of a warm reset: without records, spans alone, an excerpt alone (R20, R181, R182, R202). -/

namespace Sys2Proof.TransferMemory

open Machine Safety Laws

section

variable {s : State} {e c : Bool} {cap : Capture}

/-- What a warm reset leaves of the state, whatever the capture (R20). -/
theorem warmReset_frame (ready : Ready s) : ∃ t, exec (.warmReset e c) s = .next t ∧
    t.port.phase = .warmReset ∧ t.port.lastWarm = true ∧ t.port.attnEn = e ∧ t.port.notices = [] ∧
    t.capture = none ∧ t.calibration = none ∧ t.reports = [] ∧
    (∀ n, (t.orders.slot n).state = (s.orders.slot n).state ∧ (t.orders.slot n).mask = (s.orders.slot n).mask ∧
      (t.orders.slot n).live = (s.orders.slot n).live) ∧
    t.orders = { s.orders with
      slots := t.orders.slots, summary := t.orders.summary, ends := [], pendingTransport := none, reachedTransport := none
      resetDone := false } ∧
    t.transport = s.transport ∧ t.elements = s.elements ∧ t.pending = s.pending ∧ t.freeCount = s.freeCount ∧
    (s.capture = none → t.port = { s.port with
      phase := .warmReset, lastWarm := true, attnEn := e, notices := [], uncorrected := s.port.uncorrected && !c
      corrected := if c then 0 else s.port.corrected } ∧ t.orders.slots = s.orders.slots ∧ t.orders.summary = s.orders.summary) := by
  have eq : exec (.warmReset e c) s = .next (State.beginWarmReset { s with port := controlPort s.port e c }) :=
    congrArg Host.Outcome.next (control_resets ready e c)
  obtain ⟨p, o, begun, ⟨frame, news⟩, port, idle⟩ := beginWarmReset_spec { s with port := controlPort s.port e c }
  rw [begun] at eq
  have slots : ∀ n, (o.slot n).state = (s.orders.slot n).state ∧ (o.slot n).mask = (s.orders.slot n).mask ∧
      (o.slot n).live = (s.orders.slot n).live := fun n =>
    ⟨(congrArg SlotRec.state (news n) :), (congrArg SlotRec.mask (news n) :), (congrArg SlotRec.live (news n) :)⟩
  refine ⟨_, eq, (congrArg Port.phase port :), (congrArg Port.lastWarm port :), (congrArg Port.attnEn port :), rfl, rfl, rfl, rfl,
    slots, ?_, rfl, rfl, rfl, rfl, fun none_ => ?_⟩
  · exact congrArg (fun o : OrderUnit => { o with ends := [], pendingTransport := none, reachedTransport := none
                                                  resetDone := false }) frame
  · obtain ⟨rfl, rfl⟩ := idle none_
    exact ⟨rfl, rfl, rfl⟩

/-- A capture that has only been started (R163, R181). -/
theorem warmReset_start {n : SlotNo} {o : CaptureOrder} {k : Control} (ready : Ready s) (mem : MemoryCanonical s)
    (capture : s.capture = some { Capture.start n o with control := k }) :
    ∃ t, exec (.warmReset e c) s = .next t ∧ Stored t (slotBase n + 0x24) 4 ∧ MemoryKeptOutside s t [(slotBase n + 0x24, 4)] ∧
      NewsOf t s.orders := by
  have out : ∀ g, ∃ l, ((Writer.start o).groups.get g) = ⟨l, 0, none, false, [], none, 0, []⟩ := fun g => by
    cases g <;> exact ⟨_, rfl⟩
  obtain ⟨t, eq, reason, -, kept, news⟩ := warmReset_quiet (e := e) (c := c) ready mem capture
    (fun g => .inl (by obtain ⟨l, hl⟩ := out g; exact (congrArg GroupOut.arriving hl :)))
    ⟨nofun, fun g => (by obtain ⟨l, hl⟩ := out g; exact (congrArg GroupOut.lost hl :)), rfl, rfl⟩ rfl rfl
    ⟨fun g some_ => absurd (by obtain ⟨l, hl⟩ := out g; exact (congrArg GroupOut.filling hl :)) some_, fun some_ => absurd rfl some_,
      nofun, nofun⟩
  exact ⟨t, eq, reason, kept, news⟩

section

variable {g : Group}

/-- One group's span closed and its frames counted, whatever the words of the span hold. -/
theorem warmReset_span (ready : Ready s) (mem : MemoryCanonical s) (capture : s.capture = some cap)
    (open_ : NothingOpen (withOut cap g { cap.writer.groups.get g with arriving := [] })) (due : cap.writer.closeDue = none)
    (others : ∀ k, k ≠ g → SpansQuiet cap k) (still : Still (cap.writer.groups.get g)) :
    let o := cap.writer.groups.get g
    let d := cursorSpan o
    let k := lostFrames cap g o
    ∃ t, exec (.warmReset e c) s = .next t ∧
      (0 < k → Stored t (lostWord cap g) (word (min 4294967295 (o.samplesLost + k)))) ∧
      (o.filling = none → Stored t (slotBase cap.slot + 0x24) 4 ∧
        MemoryKeptOutside s t [(slotBase cap.slot + 0x24, 4), (lostWord cap g, 4)] ∧ NewsOf t s.orders) ∧
      (∀ sp, o.filling = some sp → 0x2000 ≤ d.addr → Stored s d.addr 1 →
        Stored t (slotBase cap.slot + 0x24) 4 ∧ Stored t d.addr 2 ∧ Stored t (d.addr + 0x1C) (cutFlags sp) ∧
        MemoryKeptOutside s t [(slotBase cap.slot + 0x24, 4), (lostWord cap g, 4), (d.addr, 4), (d.addr + 0x1C, 4)] ∧
        NewsOf t (s.orders.setNews cap.slot (spanCause g))) := by
  intro o d k
  obtain ⟨records, map, excerpt, arriving⟩ := nothingOpen_arriving open_
  have stills : ∀ k, Still (cap.writer.groups.get k) := fun k => by
    by_cases same : k = g
    · exact same ▸ still
    · exact .inl (arriving k same)
  have quiet : ∀ k, k ≠ g → (cap.writer.groups.get k).filling = none := fun k ne => (others k ne).1
  by_cases given : o.filling ≠ none → 0x2000 ≤ d.addr ∧ Stored s d.addr 1
  · have closable : Closable s.port cap.writer.groups cap.writer.excerpt := by
      rw [excerpt]
      exact closable_one quiet given
    obtain ⟨t, eq, reason, shown, kept, news⟩ := warmReset_quiet (e := e) (c := c) ready mem capture stills records map due closable
    rw [excerpt] at kept news
    rw [closeNews_one quiet] at news
    refine ⟨t, eq, shown.lost g, fun none_ => ⟨reason, keptOutside_mono kept fun r hr => ?_, ?_⟩, fun sp filling past state => ?_⟩
    · rcases List.mem_cons.1 hr with rfl | hr
      · exact List.mem_cons_self
      · rcases closeRanges_one arriving others hr with hr | hr
        · rw [cutRanges, if_pos none_] at hr
          cases hr
        · rw [(mem_lostRanges hr).2]
          simp
    · rwa [if_pos none_] at news
    · obtain ⟨full, flags⟩ := shown.span g sp filling
      have some_ : o.filling ≠ none := by rw [filling]; exact Option.some_ne_none sp
      rw [if_neg some_] at news
      refine ⟨reason, full, flags, keptOutside_mono kept fun r hr => ?_, news⟩
      rcases List.mem_cons.1 hr with rfl | hr
      · exact List.mem_cons_self
      · rcases closeRanges_one arriving others hr with hr | hr
        · rw [cutRanges, if_neg some_] at hr
          simp only [List.mem_cons, List.not_mem_nil, or_false] at hr ⊢
          exact .inr (.inr hr)
        · rw [(mem_lostRanges hr).2]
          simp
  · obtain ⟨t, eq, counted⟩ := warmReset_counts (e := e) (c := c) ready mem capture stills records map due excerpt
    refine ⟨t, eq, counted g, fun none_ => absurd (fun some_ => absurd none_ some_) given, fun sp _ past state => ?_⟩
    exact absurd (fun _ => ⟨past, state⟩) given

end

/-- An open excerpt closed with CUT, and nothing else open (R202). -/
theorem warmReset_excerpt (ready : Ready s) (mem : MemoryCanonical s) (capture : s.capture = some cap)
    (quiet : ∀ g, SpansQuiet cap g) {x : Excerpt} (excerpt : cap.writer.excerpt = some x)
    (open_ : NothingOpen { cap with writer := { cap.writer with excerpt := none } }) (due : cap.writer.closeDue = none)
    (past : 0x2000 ≤ x.span.addr) (past' : 0x2000 ≤ x.span.buffer) (apart : Apart (x.span.addr, 32) (x.span.buffer, 64))
    (state : Stored s x.span.addr 1) :
    ∃ t, exec (.warmReset e c) s = .next t ∧ Stored t (slotBase cap.slot + 0x24) 4 ∧ Stored t x.span.addr 2 ∧
      Stored t (x.span.addr + 0x0C) (BitVec.ofNat 32 (64 + 15360 * x.stored)) ∧ Stored t (x.span.addr + 0x1C) 1 ∧
      (∀ (i : Nat) (v : Word), (x.header (getAt cap.params.lanes x.lane) false true)[i]? = some v →
        Stored t (x.span.buffer + 4 * i) v) ∧
      MemoryKeptOutside s t [(slotBase cap.slot + 0x24, 4), (x.span.addr, 4), (x.span.addr + 0x0C, 20), (x.span.buffer, 64)] ∧
      NewsOf t (s.orders.setNews cap.slot .excerpt) := by
  obtain ⟨lanes, map, -, handed, holding, groups⟩ := open_
  have arriving : ∀ g, (cap.writer.groups.get g).arriving = [] := fun g => (groups g).1
  have closable : Closable s.port cap.writer.groups cap.writer.excerpt := by
    refine ⟨fun g some_ => absurd (quiet g).1 some_, fun some_ => absurd (quiet .a).1 some_, fun y hy => ?_,
      fun g y some_ => absurd (quiet g).1 some_⟩
    rw [excerpt] at hy
    obtain rfl := Option.some.inj hy
    exact ⟨past, past', state, apart⟩
  obtain ⟨t, eq, reason, shown, kept, news⟩ := warmReset_quiet (e := e) (c := c) ready mem capture (fun g => .inl (arriving g))
    ⟨lanes, fun g => (groups g).2, handed, holding⟩ map due closable
  obtain ⟨full, fill, flags, header⟩ := shown.excerpt x excerpt
  refine ⟨t, eq, reason, full, fill, flags, header, keptOutside_mono kept fun r hr => ?_, ?_⟩
  · rcases List.mem_cons.1 hr with rfl | hr
    · exact List.mem_cons_self
    · rcases mem_closeRanges hr with ⟨g, hg⟩ | ⟨g, hg⟩ | he
      · rw [spansQuiet_cut (quiet g)] at hg
        cases hg
      · rw [spansQuiet_lost (quiet g) (arriving g)] at hg
        cases hg
      · rw [excerpt] at he
        exact List.mem_cons_of_mem _ (by simpa [excerptRanges] using he)
  · rw [excerpt] at news
    have spans : closeNews s.orders cap.slot cap.writer.groups (some x) = s.orders.setNews cap.slot .excerpt := by
      unfold closeNews
      rw [show cap.writer.groups.a.filling = none from (quiet .a).1, show cap.writer.groups.b.filling = none from (quiet .b).1]
      rfl
    rwa [spans] at news

end

end Sys2Proof.TransferMemory
end

section
/-! PROOFS. Released frames placed in the FILLING span at a warm reset (R162, R182, R185, R186; log 32). -/

namespace Sys2Proof.TransferMemory

open Machine Safety Laws

/-! ## Frames placed before the reset -/

section

variable {c : Cx} {g : Group} {sp : OpenSpan} {len : Nat} {fs rest : List Frame}

theorem framesPort_append (p : Port) (d : SpanDesc) (sp : OpenSpan) (fs gs : List Frame) :
    framesPort p d sp (fs ++ gs) = framesPort (framesPort p d sp fs) d (withFrames sp fs) gs := by
  induction fs generalizing p sp with
  | nil => rfl
  | cons f fs ih => exact ih _ _

/-- A released frame placed while its group's span is FILLING with nothing before it. -/
theorem fillReleased_cons {f : Frame} (queue : (c.out g).queue = []) (lost : (c.out g).lost = none)
    (filling : (c.out g).filling = some sp) : c.fillReleased g (f :: rest) =
      Cx.fillReleased (Cx.writeFrame ⟨c.hub, putOut c.cap g { c.out g with arriving := rest }⟩ g f) g rest := by
  rw [Cx.fillReleased, if_pos ⟨queue, lost, by rw [filling]; rfl⟩]
  rfl

/-- Released frames that leave room in the span. -/
theorem fillReleased_fit (lengths : SameLength len fs) (queue : (c.out g).queue = []) (lost : (c.out g).lost = none)
    (filling : (c.out g).filling = some sp) (arriving : (c.out g).arriving = fs ++ rest)
    (fits : sp.fill + len * fs.length < (cursorSpan (c.out g)).capacity) : c.fillReleased g (fs ++ rest) =
      Cx.fillReleased ⟨⟨framesPort c.hub.port (cursorSpan (c.out g)) sp fs, c.hub.orders⟩,
        putOut c.cap g { c.out g with filling := some (withFrames sp fs), arriving := rest }⟩ g rest := by
  induction fs generalizing c sp with
  | nil =>
    have same : { c.out g with filling := some (withFrames sp []), arriving := rest } = c.out g := by
      change { c.out g with filling := some sp, arriving := rest } = _
      rw [← filling, ← (show (c.out g).arriving = rest from arriving)]
    rw [same, putOut_out]
    rfl
  | cons f fs ih =>
    have size : 4 * f.words.length = len := lengths f List.mem_cons_self
    rw [List.length_cons, Nat.mul_succ] at fits
    have out : Cx.out ⟨c.hub, putOut c.cap g { c.out g with arriving := fs ++ rest }⟩ g = { c.out g with arriving := fs ++ rest } :=
      out_putOut _ _ _ _
    have span : cursorSpan ({ c.out g with arriving := fs ++ rest } : GroupOut) = cursorSpan (c.out g) := rfl
    have written : Cx.writeFrame ⟨c.hub, putOut c.cap g { c.out g with arriving := fs ++ rest }⟩ g f =
        ⟨⟨framePort c.hub.port (cursorSpan (c.out g)) sp f, c.hub.orders⟩,
          putOut c.cap g { c.out g with filling := some (moreFrames sp f), arriving := fs ++ rest }⟩ := by
      rw [writeFrame_fits (sp := sp) (by rw [out]; exact filling) (by rw [out, span]; omega), framed, out, span, putOut_putOut]
    have out' : Cx.out ⟨⟨framePort c.hub.port (cursorSpan (c.out g)) sp f, c.hub.orders⟩,
        putOut c.cap g { c.out g with filling := some (moreFrames sp f), arriving := fs ++ rest }⟩ g =
          { c.out g with filling := some (moreFrames sp f), arriving := fs ++ rest } := out_putOut _ _ _ _
    have span' : cursorSpan ({ c.out g with filling := some (moreFrames sp f), arriving := fs ++ rest } : GroupOut) =
        cursorSpan (c.out g) := rfl
    rw [List.cons_append, fillReleased_cons queue lost filling, written,
      ih (fun y hy => lengths y (List.mem_cons_of_mem _ hy)) (sp := moreFrames sp f) (by rw [out']; exact queue)
        (by rw [out']; exact lost) (by rw [out']) (by rw [out']) (by rw [out', span']; simp only [moreFrames]; omega), out', span',
      putOut_putOut]
    rfl

/-- Released frames of which one fills the span, whose word is FILLING: those behind it find no FILLING span. -/
theorem fillReleased_fill {f : Frame} (lengths : SameLength len (fs ++ [f])) (queue : (c.out g).queue = [])
    (lost : (c.out g).lost = none) (filling : (c.out g).filling = some sp) (arriving : (c.out g).arriving = fs ++ f :: rest)
    (pos : 0 < len) (fills : sp.fill + len * (fs.length + 1) = (cursorSpan (c.out g)).capacity)
    (mem : Memory.wf c.hub.port.mem = true)
    (apart : Apart ((cursorSpan (c.out g)).addr, 32) ((cursorSpan (c.out g)).buffer + sp.fill, len * (fs.length + 1)))
    (state : Holds c.hub.port (cursorSpan (c.out g)).addr 1) : c.fillReleased g (fs ++ f :: rest) =
      ⟨⟨(framesPort c.hub.port (cursorSpan (c.out g)) sp (fs ++ [f])).store (cursorSpan (c.out g)).addr 2,
        c.hub.orders.setNews c.cap.slot (spanCause g)⟩,
        putOut c.cap g { c.out g with
          filling := none, arriving := rest, cursor := ((c.out g).cursor + 1) % (c.out g).spans.length }⟩ := by
  have before : SameLength len fs := fun y hy => lengths y (List.mem_append_left _ hy)
  have size : 4 * f.words.length = len := lengths f (by simp)
  rw [Nat.mul_succ] at fills apart
  obtain ⟨wrote, -, -, -⟩ := framesPort_spec before (d := cursorSpan (c.out g)) (a := (cursorSpan (c.out g)).buffer + sp.fill) (done := [])
    (p := c.hub.port) (sp := sp) mem nofun (by simp) (by
      rw [List.length_nil, Nat.zero_add]
      simp only [Apart] at apart ⊢
      omega) (by intro k y i w hk; cases hk)
  have mem' := wrote.wf mem
  have state' : Holds (framesPort c.hub.port (cursorSpan (c.out g)) sp fs) (cursorSpan (c.out g)).addr 1 :=
    wrote.holds mem state fun r hr => by
      simp only [List.mem_cons, List.not_mem_nil, or_false] at hr
      rcases hr with rfl | rfl | rfl <;> simp only [Apart] at apart ⊢ <;> omega
  have spans := withFrames_eq before sp
  have fill : (withFrames sp fs).fill = sp.fill + len * fs.length := by rw [spans]
  have out : Cx.out ⟨⟨framesPort c.hub.port (cursorSpan (c.out g)) sp fs, c.hub.orders⟩,
      putOut c.cap g { c.out g with filling := some (withFrames sp fs), arriving := f :: rest }⟩ g =
        { c.out g with filling := some (withFrames sp fs), arriving := f :: rest } := out_putOut _ _ _ _
  have out' : Cx.out ⟨⟨framesPort c.hub.port (cursorSpan (c.out g)) sp fs, c.hub.orders⟩,
      putOut c.cap g { c.out g with filling := some (withFrames sp fs), arriving := rest }⟩ g =
        { c.out g with filling := some (withFrames sp fs), arriving := rest } := out_putOut _ _ _ _
  have span : cursorSpan ({ c.out g with filling := some (withFrames sp fs), arriving := rest } : GroupOut) = cursorSpan (c.out g) := rfl
  rw [fillReleased_fit before queue lost filling arriving (by omega),
    fillReleased_cons (sp := withFrames sp fs) (by rw [out]; exact queue) (by rw [out]; exact lost) (by rw [out]), out, putOut_putOut,
    writeFrame_fills (sp := withFrames sp fs) (by rw [out']) mem' (by rw [out', span, fill, size]; omega)
      (by rw [out', span, fill, size]; simp only [Apart] at apart ⊢; omega) (by rw [out', span]; exact state'), out', span,
    putOut_putOut, framesPort_append]
  cases rest with
  | nil => rfl
  | cons y ys =>
    refine if_neg fun ⟨_, _, some_⟩ => ?_
    rw [Cx.out, show (putOut c.cap g { c.out g with
      filling := none, arriving := y :: ys, cursor := ((c.out g).cursor + 1) % (c.out g).spans.length }).writer.groups.get g = _ from
      PerGroup.get_put_self _ _ _] at some_
    cases some_

theorem fillReleased_nil (c : Cx) (g : Group) : c.fillReleased g [] = c := rfl

/-- Only one group has frames released. -/
theorem fillSpans_one (others : ∀ k, k ≠ g → (c.out k).arriving = []) : fillSpans c = c.fillReleased g (c.out g).arriving := by
  unfold fillSpans
  cases g with
  | a => rw [others .b (by decide), fillReleased_nil]
  | b => rw [others .a (by decide), fillReleased_nil]

end

end Sys2Proof.TransferMemory
end

section
/-! PROOFS. A warm reset with frames on their way into a FILLING span (R162, R182; log 32). -/

namespace Sys2Proof.TransferMemory

open Machine Safety Laws

section

variable {s : State} {e c : Bool} {cap : Capture} {g : Group}

theorem noRecords_putOut {o : GroupOut} (h : NoRecords cap) (lost : o.lost = none) : NoRecords (putOut cap g o) := by
  refine ⟨h.lanes, fun k => ?_, h.handed, h.holding⟩
  by_cases same : k = g
  · subst same
    exact (congrArg GroupOut.lost (PerGroup.get_put_self _ _ _)).trans lost
  · exact (congrArg GroupOut.lost (get_put_of_ne _ same _)).trans (h.lost k)

theorem spansQuiet_putOut {o : GroupOut} {k : Group} (ne : k ≠ g) (h : SpansQuiet cap k) : SpansQuiet (putOut cap g o) k := by
  obtain ⟨filling, queue, buffer⟩ := h
  have same : (putOut cap g o).writer.groups.get k = cap.writer.groups.get k := get_put_of_ne _ ne _
  exact ⟨by rw [same]; exact filling, by rw [same]; exact queue, buffer⟩

/-- A warm reset with nothing open but one group's span, once the group's released frames are placed. -/
theorem warmReset_placed (ready : Ready s) (mem : MemoryCanonical s) (capture : s.capture = some cap)
    (open_ : NothingOpen (withOut cap g { cap.writer.groups.get g with arriving := [] })) (due : cap.writer.closeDue = none)
    (others : ∀ k, k ≠ g → SpansQuiet cap k) {p : Port} {u : OrderUnit} {o : GroupOut} {R : List (Nat × Nat)}
    (filled : Cx.fillReleased ⟨⟨endedPort s e c cap, s.orders⟩, endedCap cap⟩ g (cap.writer.groups.get g).arriving =
      ⟨⟨p, u⟩, putOut (endedCap cap) g o⟩) (lost : o.lost = none)
    (wrote : Wrote (endedPort s e c cap) p R) (apart : ∀ r ∈ R, Apart (slotBase cap.slot + 0x24, 4) r)
    (given : o.filling ≠ none → 0x2000 ≤ (cursorSpan o).addr ∧ Holds p (cursorSpan o).addr 1) :
    let ranges := cutRanges o ++ lostRanges cap g (lostFrames cap g o)
    ∃ t q, exec (.warmReset e c) s = .next t ∧ Stored t (slotBase cap.slot + 0x24) 4 ∧
      (∀ x, o.filling = some x → Stored t (cursorSpan o).addr 2 ∧ Stored t ((cursorSpan o).addr + 0x1C) (cutFlags x)) ∧
      (0 < lostFrames cap g o → Stored t (lostWord cap g) (word (min 4294967295 (o.samplesLost + lostFrames cap g o)))) ∧
      Wrote p q ranges ∧ (∀ a v, Holds q a v → Stored t a v) ∧
      MemoryKeptOutside s t ((slotBase cap.slot + 0x24, 4) :: (R ++ ranges)) ∧
      NewsOf t (if o.filling = none then u else u.setNews cap.slot (spanCause g)) := by
  intro ranges
  obtain ⟨records, map, excerpt, arriving⟩ := nothingOpen_arriving open_
  have records' : NoRecords (endedCap cap) := ⟨records.lanes, records.lost, records.handed, records.holding⟩
  have out : (putOut (endedCap cap) g o).writer.groups.get g = o := PerGroup.get_put_self _ _ _
  have other : ∀ k, k ≠ g → (putOut (endedCap cap) g o).writer.groups.get k = cap.writer.groups.get k := fun k ne =>
    get_put_of_ne _ ne _
  have quiet : ∀ k, k ≠ g → ((putOut (endedCap cap) g o).writer.groups.get k).filling = none := fun k ne => by
    rw [other k ne]
    exact (others k ne).1
  have closable : Closable p (putOut (endedCap cap) g o).writer.groups none := closable_one quiet (by rw [out]; exact given)
  have empty : (putOut (endedCap cap) g o).writer.excerpt = none := excerpt
  obtain ⟨t, q, eq, reason, shown, closes, shows_, kept, news⟩ := warmReset_filled (e := e) (c := c) ready mem capture due
    (x := putOut (endedCap cap) g o) ((fillSpans_one arriving).trans filled) rfl wrote apart (noRecords_putOut records' lost) map
    (by rw [empty]; exact closable)
  have spans := shown.span g
  have counts := shown.lost g
  rw [out] at spans counts
  have inside : ∀ r ∈ closeRanges (putOut (endedCap cap) g o) (putOut (endedCap cap) g o).writer.groups none, r ∈ ranges := fun r hr => by
    have one := closeRanges_one (cap := putOut (endedCap cap) g o) (g := g) (fun k ne => by rw [other k ne]; exact arriving k ne)
      (fun k ne => spansQuiet_putOut (cap := endedCap cap) ne (others k ne)) hr
    rw [out] at one
    exact List.mem_append.2 one
  rw [empty] at closes kept news
  rw [closeNews_one quiet, out] at news
  refine ⟨t, q, eq, reason, spans, counts, closes.mono inside, shows_, keptOutside_mono kept fun r hr => ?_, news⟩
  rcases List.mem_cons.1 hr with rfl | hr
  · exact List.mem_cons_self
  · refine List.mem_cons_of_mem _ (List.mem_append.2 ?_)
    exact (List.mem_append.1 hr).imp_right (inside r)

end

/-! ## How many frames fill the span -/

/-- A list split at the element of a given number. -/
theorem exists_split {α : Type} {l : List α} {n : Nat} (pos : 0 < n) (le : n ≤ l.length) :
    ∃ xs x ys, l = xs ++ x :: ys ∧ xs.length + 1 = n ∧ l.take n = xs ++ [x] := by
  obtain ⟨k, rfl⟩ := Nat.exists_eq_succ_of_ne_zero (Nat.pos_iff_ne_zero.1 pos)
  have lt : k < l.length := le
  refine ⟨l.take k, l[k], l.drop (k + 1), ?_, ?_, List.take_succ_eq_append_getElem lt⟩
  · rw [← List.drop_eq_getElem_cons lt, List.take_append_drop]
  · rw [List.length_take, Nat.min_eq_left lt.le]

section

variable {s : State} {e c : Bool} {cap : Capture} {g : Group}

/-- The frames placed in a span with room for so many. -/
theorem framesPlaced_spec {p : Port} {d : SpanDesc} {sp : OpenSpan} {len room : Nat} {fs : List Frame} (mem : Memory.wf p.mem = true)
    (lengths : SameLength len fs) (whole : len * room ≤ d.capacity - sp.fill) (fill : sp.fill ≤ d.capacity)
    (apart : Apart (d.addr, 32) (d.buffer, d.capacity)) :
    let placed := min room fs.length
    let q := framesPort p d sp (fs.take room)
    (fs.take room).length = placed ∧ Apart (d.addr, 32) (d.buffer + sp.fill, len * placed) ∧
    Wrote p q [(d.buffer + sp.fill, len * placed), (d.addr + 0x0C, 4), (d.addr + 0x14, 4)] ∧
    FramesIn q (d.buffer + sp.fill) len (fs.take room) ∧
    (0 < placed → Holds q (d.addr + 0x0C) (word (sp.fill + len * placed)) ∧ Holds q (d.addr + 0x14) (word (sp.frames + placed))) := by
  intro placed q
  have count : (fs.take room).length = placed := List.length_take
  have within : len * placed ≤ d.capacity - sp.fill := (Nat.mul_le_mul_left len (Nat.min_le_left _ _)).trans whole
  have apart' : Apart (d.addr, 32) (d.buffer + sp.fill, len * placed) := by
    simp only [Apart] at apart ⊢
    omega
  obtain ⟨wrote, frames, -, counts⟩ := framesPort_spec (fs := fs.take room) (fun f hf => lengths f (List.mem_of_mem_take hf)) (d := d)
    (a := d.buffer + sp.fill) (done := []) (sp := sp) mem nofun (by simp) (by rw [List.length_nil, Nat.zero_add, count]; exact apart')
    (fun _ _ _ _ hk => by cases hk)
  rw [List.nil_append] at frames
  rw [count] at wrote counts
  exact ⟨count, apart', wrote, frames, fun some_ => counts fun none_ => by
    rw [none_] at count
    rw [← count] at some_
    exact absurd some_ (lt_irrefl 0)⟩

/-- What a warm reset comes to that places the frames there is room for: a word of the frames is as they are placed, unless the
closing of the span or the count of lost frames writes it. -/
def PlacesFrames (s : State) (e c : Bool) (cap : Capture) (g : Group) (sp : OpenSpan) (len room : Nat) : Prop :=
  let o := cap.writer.groups.get g
  let d := cursorSpan o
  let placed := min room o.arriving.length
  let k := o.arriving.length - placed + bridgeFrames (cap.resamplers.get g)
  ∃ t q, exec (.warmReset e c) s = .next t ∧ Stored t (slotBase cap.slot + 0x24) 4 ∧ Stored t d.addr 2 ∧
    (o.arriving.length < room → Stored t (d.addr + 0x1C) (cutFlags sp)) ∧
    (0 < k → Stored t (lostWord cap g) (word (min 4294967295 (o.samplesLost + k)))) ∧
    Wrote (framesPort (endedPort s e c cap) d sp (o.arriving.take room)) q [(d.addr, 4), (d.addr + 0x1C, 4), (lostWord cap g, 4)] ∧
    (∀ a v, Holds q a v → Stored t a v) ∧
    MemoryKeptOutside s t ([(slotBase cap.slot + 0x24, 4), (d.addr, 4), (d.addr + 0x0C, 4), (d.addr + 0x14, 4),
      (d.buffer + sp.fill, len * placed)] ++ (if o.arriving.length < room then [(d.addr + 0x1C, 4)] else []) ++
      (if k = 0 then [] else [(lostWord cap g, 4)])) ∧
    NewsOf t (s.orders.setNews cap.slot (spanCause g))

/-- Nothing is open but one group's span, into which frames of one length go that are released and not yet placed. -/
structure Arrives (s : State) (cap : Capture) (g : Group) (sp : OpenSpan) (len room : Nat) : Prop where
  ready : Ready s
  mem : MemoryCanonical s
  capture : s.capture = some cap
  open_ : NothingOpen (withOut cap g { cap.writer.groups.get g with arriving := [] })
  due : cap.writer.closeDue = none
  others : ∀ k, k ≠ g → SpansQuiet cap k
  queue : (cap.writer.groups.get g).queue = []
  filling : (cap.writer.groups.get g).filling = some sp
  pos : 0 < len
  lengths : SameLength len (cap.writer.groups.get g).arriving
  whole : len * room = (cursorSpan (cap.writer.groups.get g)).capacity - sp.fill
  less : sp.fill < (cursorSpan (cap.writer.groups.get g)).capacity
  past : 0x2000 ≤ (cursorSpan (cap.writer.groups.get g)).addr
  past' : 0x2000 ≤ (cursorSpan (cap.writer.groups.get g)).buffer
  apart : Apart ((cursorSpan (cap.writer.groups.get g)).addr, 32)
    ((cursorSpan (cap.writer.groups.get g)).buffer, (cursorSpan (cap.writer.groups.get g)).capacity)
  state : Stored s (cursorSpan (cap.writer.groups.get g)).addr 1

section

variable {sp : OpenSpan} {len room : Nat}

theorem Arrives.lost (h : Arrives s cap g sp len room) : (cap.writer.groups.get g).lost = none := by
  obtain ⟨records, -, -, -⟩ := nothingOpen_arriving h.open_
  exact records.lost g

theorem Arrives.positive (h : Arrives s cap g sp len room) : 0 < room := Nat.pos_of_ne_zero fun zero => by
  have whole := h.whole
  have less := h.less
  rw [zero, Nat.mul_zero] at whole
  omega

/-- The frames placed stay clear of the order table and of the span's state word. -/
theorem Arrives.clear (h : Arrives s cap g sp len room) (e c : Bool) :
    let o := cap.writer.groups.get g
    let d := cursorSpan o
    let ranges := [(d.buffer + sp.fill, len * min room o.arriving.length), (d.addr + 0x0C, 4), (d.addr + 0x14, 4)]
    Wrote (endedPort s e c cap) (framesPort (endedPort s e c cap) d sp (o.arriving.take room)) ranges ∧
    (∀ r ∈ ranges, Apart (slotBase cap.slot + 0x24, 4) r) ∧
    Holds (framesPort (endedPort s e c cap) d sp (o.arriving.take room)) d.addr 1 := by
  dsimp only
  have mem' : Memory.wf (endedPort s e c cap).mem = true := endedPort_wf h.mem
  obtain ⟨-, apart', wrote, -, -⟩ := framesPlaced_spec (p := endedPort s e c cap) (sp := sp) mem' h.lengths h.whole.le h.less.le h.apart
  have low := slotBase_lt cap.slot
  have past := h.past
  have past' := h.past'
  refine ⟨wrote, fun r hr => ?_, wrote.holds mem' (endedPort_holds h.mem h.state past) fun r hr => ?_⟩
  · simp only [List.mem_cons, List.not_mem_nil, or_false] at hr
    rcases hr with rfl | rfl | rfl <;> simp only [Apart] <;> omega
  · simp only [List.mem_cons, List.not_mem_nil, or_false] at hr
    rcases hr with rfl | rfl | rfl <;> simp only [Apart] at apart' ⊢ <;> omega

/-- All the frames go into the span, which is closed with CUT. -/
theorem warmReset_framesFit (h : Arrives s cap g sp len room) (short : (cap.writer.groups.get g).arriving.length < room) :
    PlacesFrames s e c cap g sp len room := by
  unfold PlacesFrames
  intro o d placed k
  obtain ⟨wrote, outside, kept⟩ := h.clear e c
  have all : o.arriving.take room = o.arriving := List.take_of_length_le short.le
  have number : placed = o.arriving.length := Nat.min_eq_right short.le
  have fits : sp.fill + len * o.arriving.length < d.capacity := by
    have most := Nat.mul_lt_mul_of_pos_left short h.pos
    have whole : len * room = d.capacity - sp.fill := h.whole
    change len * o.arriving.length < len * room at most
    omega
  have filled : Cx.fillReleased ⟨⟨endedPort s e c cap, s.orders⟩, endedCap cap⟩ g o.arriving =
      ⟨⟨framesPort (endedPort s e c cap) d sp (o.arriving.take room), s.orders⟩,
        putOut (endedCap cap) g { o with filling := some (withFrames sp o.arriving), arriving := [] }⟩ := by
    rw [all]
    exact (congrArg _ (List.append_nil _).symm).trans (fillReleased_fit (g := g) (rest := []) h.lengths h.queue h.lost
      h.filling (List.append_nil _).symm fits)
  obtain ⟨t, q, eq, reason, spans, counted, after, shows_, kept', news⟩ := warmReset_placed (e := e) (c := c) h.ready h.mem h.capture
    h.open_ h.due h.others filled h.lost wrote outside fun _ => ⟨h.past, kept⟩
  obtain ⟨full, flags⟩ := spans _ rfl
  have left : lostFrames cap g { o with filling := some (withFrames sp o.arriving), arriving := [] } = k := by
    rw [lostFrames, show o.queue = [] from h.queue]
    change 0 + 0 + bridgeFrames (cap.resamplers.get g) = o.arriving.length - placed + bridgeFrames (cap.resamplers.get g)
    omega
  have loss : cutFlags (withFrames sp o.arriving) = cutFlags sp := by
    rw [withFrames_eq h.lengths]
    rfl
  have cut : cutRanges { o with filling := some (withFrames sp o.arriving), arriving := [] } = [(d.addr, 4), (d.addr + 0x1C, 4)] :=
    if_neg (Option.some_ne_none _)
  rw [left] at counted after kept'
  rw [loss] at flags
  rw [cut] at after kept'
  refine ⟨t, q, eq, reason, full, fun _ => flags, counted, after.mono fun r hr => ?_, shows_, keptOutside_mono kept' fun r hr => ?_, news⟩
  · rcases List.mem_append.1 hr with hr | hr
    · simp only [List.mem_cons, List.not_mem_nil, or_false] at hr ⊢
      exact hr.imp_right .inl
    · rw [(mem_lostRanges hr).2]
      simp
  · rw [if_pos short]
    rcases List.mem_cons.1 hr with rfl | hr
    · simp
    · rcases List.mem_append.1 hr with hr | hr
      · simp only [List.mem_cons, List.not_mem_nil, or_false] at hr
        rcases hr with rfl | rfl | rfl <;> simp [d, o, placed]
      · rcases List.mem_append.1 hr with hr | hr
        · simp only [List.mem_cons, List.not_mem_nil, or_false] at hr
          rcases hr with rfl | rfl <;> simp
        · exact List.mem_append_right _ hr

/-- The frames fill the span; those left find none. -/
theorem warmReset_framesFill (h : Arrives s cap g sp len room) (long : room ≤ (cap.writer.groups.get g).arriving.length) :
    PlacesFrames s e c cap g sp len room := by
  unfold PlacesFrames
  intro o d placed k
  obtain ⟨wrote, outside, kept⟩ := h.clear e c
  obtain ⟨fs, f, rest, split, number, taken⟩ := exists_split h.positive long
  have number' : placed = room := Nat.min_eq_left long
  have mem' : Memory.wf (endedPort s e c cap).mem = true := endedPort_wf h.mem
  have fills : sp.fill + len * (fs.length + 1) = d.capacity := by
    have whole : len * room = d.capacity - sp.fill := h.whole
    have less : sp.fill < d.capacity := h.less
    rw [number]
    omega
  have apart' : Apart (d.addr, 32) (d.buffer + sp.fill, len * (fs.length + 1)) := by
    have apart : Apart (d.addr, 32) (d.buffer, d.capacity) := h.apart
    simp only [Apart] at apart ⊢
    omega
  have filled : Cx.fillReleased ⟨⟨endedPort s e c cap, s.orders⟩, endedCap cap⟩ g o.arriving =
      ⟨⟨(framesPort (endedPort s e c cap) d sp (o.arriving.take room)).store d.addr 2, s.orders.setNews cap.slot (spanCause g)⟩,
        putOut (endedCap cap) g { o with filling := none, arriving := rest, cursor := (o.cursor + 1) % o.spans.length }⟩ := by
    rw [taken]
    exact (congrArg _ split).trans (fillReleased_fill (g := g) (fun x hx => h.lengths x (List.mem_of_mem_take (taken ▸ hx))) h.queue
      h.lost h.filling split h.pos fills mem' apart' (endedPort_holds h.mem h.state h.past))
  obtain ⟨t, q, eq, reason, -, counted, after, shows_, kept', news⟩ := warmReset_placed (e := e) (c := c) h.ready h.mem h.capture
    h.open_ h.due h.others filled h.lost (wrote.store d.addr 2) (fun r hr => by
      rcases List.mem_append.1 hr with hr | hr
      · exact outside r hr
      · have low := slotBase_lt cap.slot
        have past : 0x2000 ≤ d.addr := h.past
        rw [List.mem_singleton.1 hr]
        simp only [Apart]
        omega) fun some_ => absurd rfl some_
  have left : lostFrames cap g { o with
      filling := none, arriving := rest, cursor := (o.cursor + 1) % o.spans.length } = k := by
    have size : o.arriving.length = fs.length + (rest.length + 1) := (congrArg List.length split).trans List.length_append
    rw [lostFrames, show o.queue = [] from h.queue]
    change 0 + rest.length + bridgeFrames (cap.resamplers.get g) = o.arriving.length - placed + bridgeFrames (cap.resamplers.get g)
    omega
  have cut : cutRanges { o with filling := none, arriving := rest, cursor := (o.cursor + 1) % o.spans.length } = [] := if_pos rfl
  rw [left] at counted after kept'
  rw [cut] at after kept'
  have late : Wrote (framesPort (endedPort s e c cap) d sp (o.arriving.take room)) q ([(d.addr, 4)] ++ ([] ++ lostRanges cap g k)) :=
    (wrote_store _ d.addr 2).trans after
  refine ⟨t, q, eq, reason, ?_, fun short => absurd short (Nat.not_lt.2 long), counted, late.mono fun r hr => ?_, shows_,
    keptOutside_mono kept' fun r hr => ?_, news⟩
  · refine shows_ _ _ (after.holds (portWf_store (wrote.wf mem') _ _) (holds_store (wrote.wf mem') d.addr 2) fun r hr => ?_)
    have bounds := lostWord_bounds cap g
    have past : 0x2000 ≤ d.addr := h.past
    rw [(mem_lostRanges hr).2]
    simp only [Apart]
    omega
  · rcases List.mem_cons.1 hr with rfl | hr
    · exact List.mem_cons_self
    · rw [(mem_lostRanges hr).2]
      simp
  · rw [if_neg (Nat.not_lt.2 long)]
    rcases List.mem_cons.1 hr with rfl | hr
    · simp
    · rcases List.mem_append.1 hr with hr | hr
      · simp only [List.cons_append, List.nil_append, List.mem_cons, List.not_mem_nil, or_false] at hr
        rcases hr with rfl | rfl | rfl | rfl <;> simp [d, o, placed]
      · exact List.mem_append_right _ hr

end

/-- Released frames go into the FILLING span until it is full; those left are discarded and counted (R182; log 32). -/
theorem warmReset_frames (ready : Ready s) (mem : MemoryCanonical s) (capture : s.capture = some cap) {sp : OpenSpan} {len : Nat}
    (open_ : NothingOpen (withOut cap g { cap.writer.groups.get g with arriving := [] })) (due : cap.writer.closeDue = none)
    (others : ∀ k, k ≠ g → SpansQuiet cap k) :
    let base := slotBase cap.slot
    let o := cap.writer.groups.get g
    let d := cursorSpan o
    o.queue = [] → o.arriving ≠ [] → o.filling = some sp → 0 < len → (∀ f ∈ o.arriving, 4 * f.words.length = len) →
    sp.fill < d.capacity → len ∣ d.capacity - sp.fill → 0x2000 ≤ d.addr → 0x2000 ≤ d.buffer →
    Apart (d.addr, 32) (d.buffer, d.capacity) → Stored s d.addr 1 →
    let room := (d.capacity - sp.fill) / len
    let placed := min room o.arriving.length
    let k := o.arriving.length - placed + bridgeFrames (cap.resamplers.get g)
    ∃ t, exec (.warmReset e c) s = .next t ∧ Stored t (base + 0x24) 4 ∧ Stored t d.addr 2 ∧
      FramesAt t (d.buffer + sp.fill) len (o.arriving.take room) ∧
      Stored t (d.addr + 0x0C) (BitVec.ofNat 32 (sp.fill + len * placed)) ∧
      Stored t (d.addr + 0x14) (BitVec.ofNat 32 (sp.frames + placed)) ∧
      (o.arriving.length < room → Stored t (d.addr + 0x1C) (cutFlags sp)) ∧
      (0 < k → Stored t (lostWord cap g) (BitVec.ofNat 32 (min 4294967295 (o.samplesLost + k)))) ∧
      MemoryKeptOutside s t ([(base + 0x24, 4), (d.addr, 4), (d.addr + 0x0C, 4), (d.addr + 0x14, 4),
        (d.buffer + sp.fill, len * placed)] ++ (if o.arriving.length < room then [(d.addr + 0x1C, 4)] else []) ++
        (if k = 0 then [] else [(lostWord cap g, 4)])) ∧
      NewsOf t (s.orders.setNews cap.slot (spanCause g)) := by
  intro base o d queue some_ filling pos lengths less divides past past' apart state room placed k
  obtain ⟨records, -, -, -⟩ := nothingOpen_arriving open_
  have lost : o.lost = none := records.lost g
  have mem' : Memory.wf (endedPort s e c cap).mem = true := endedPort_wf mem
  have whole : len * room = d.capacity - sp.fill := Nat.mul_div_cancel' divides
  have arrives : Arrives s cap g sp len room := ⟨ready, mem, capture, open_, due, others, queue, filling, pos, lengths, whole, less,
    past, past', apart, state⟩
  obtain ⟨count, apart', wrote, frames, counts⟩ := framesPlaced_spec (sp := sp) mem' lengths whole.le less.le apart
  obtain ⟨fill, total⟩ := counts (Nat.lt_min.2 ⟨arrives.positive, List.length_pos_iff.2 some_⟩)
  have done : PlacesFrames s e c cap g sp len room :=
    (Nat.lt_or_ge o.arriving.length room).elim (warmReset_framesFit arrives) (warmReset_framesFill arrives)
  obtain ⟨t, q, eq, reason, full, flags, counted, after, shows_, kept, news⟩ := done
  have keeps : ∀ a v, Holds (framesPort (endedPort s e c cap) d sp (o.arriving.take room)) a v → 0x2000 ≤ a →
      Apart (a, 4) (d.addr, 4) → Apart (a, 4) (d.addr + 0x1C, 4) → Stored t a v := fun a v h high first last => by
    have bounds := lostWord_bounds cap g
    refine shows_ _ _ (after.holds (wrote.wf mem') h fun r hr => ?_)
    simp only [List.mem_cons, List.not_mem_nil, or_false] at hr
    rcases hr with rfl | rfl | rfl
    · exact first
    · exact last
    · simp only [Apart]
      omega
  refine ⟨t, eq, reason, full, framesIn_iff_framesAt.1 fun i f j w hi hj => ?_, keeps _ _ fill (Nat.le_add_right_of_le past) ?_ ?_,
    keeps _ _ total (Nat.le_add_right_of_le past) ?_ ?_, flags, counted, kept, news⟩
  · have bound : j < f.words.length := (List.getElem?_eq_some_iff.1 hj).1
    have size := lengths f (List.mem_of_mem_take (List.mem_of_getElem? hi))
    have number := (List.getElem?_eq_some_iff.1 hi).1
    rw [count] at number
    have last : len * (i + 1) ≤ len * min room o.arriving.length := Nat.mul_le_mul_left _ number
    rw [Nat.mul_succ] at last
    refine keeps _ _ (frames i f j w hi hj) ?_ ?_ ?_ <;> simp only [Apart] at apart' ⊢ <;> omega
  all_goals simp only [Apart]; omega

end

end Sys2Proof.TransferMemory
end

section
/-! PROOFS. The speed map record at a warm reset (R192, R193, R195, R202). -/

namespace Sys2Proof.TransferMemory

open Machine Safety Laws

/-! ## Nothing open but the speed map record -/

/-- No record, span or excerpt of the capture is open, and no frame of it is kept. -/
structure Quiet (cap : Capture) : Prop extends NoRecords cap where
  spans : ∀ g, SpansQuiet cap g
  arriving : ∀ g, (cap.writer.groups.get g).arriving = []
  excerpt : cap.writer.excerpt = none

section

variable {p : Port} {u : OrderUnit} {x : Capture}

theorem closeRanges_quiet (spans : ∀ g, SpansQuiet x g) (arriving : ∀ g, (x.writer.groups.get g).arriving = []) :
    closeRanges x x.writer.groups none = [] := by
  refine List.eq_nil_iff_forall_not_mem.2 fun r hr => ?_
  rcases mem_closeRanges hr with ⟨g, hg⟩ | ⟨g, hg⟩ | he
  · rw [spansQuiet_cut (spans g)] at hg
    cases hg
  · rw [spansQuiet_lost (spans g) (arriving g)] at hg
    cases hg
  · cases he

theorem closeNews_quiet (spans : ∀ g, SpansQuiet x g) (n : SlotNo) : closeNews u n x.writer.groups none = u := by
  rw [closeNews_one (g := .a) fun k _ => (spans k).1, if_pos (spans .a).1]

theorem closable_quiet (spans : ∀ g, SpansQuiet x g) : Closable p x.writer.groups none :=
  closable_one (g := .a) (fun k _ => (spans k).1) fun some_ => absurd (spans .a).1 some_

/-- With nothing else open only the speed map record is left. -/
theorem quiet_endWriter (mem : Memory.wf p.mem = true) (h : Quiet x) :
    ∃ q y, endWriter ⟨⟨p, u⟩, x⟩ = Cx.endMap ⟨⟨q, u⟩, y⟩ ∧ KeepsMap x y ∧ Wrote p q [] := by
  have filled : fillSpans ⟨⟨p, u⟩, x⟩ = ⟨⟨p, u⟩, x⟩ := fillSpans_still fun g => .inl (h.arriving g)
  obtain ⟨q, y, ended, keeps, wrote, -⟩ := closeSpans_noRecords (u := u) (cap := x) mem h.toNoRecords (by rw [h.excerpt]; exact closable_quiet h.spans)
  rw [h.excerpt, closeRanges_quiet h.spans h.arriving] at wrote
  rw [h.excerpt, closeNews_quiet h.spans] at ended
  exact ⟨q, y, by rw [endWriter, filled, ended], keeps, wrote⟩

/-! ## The record placed -/

/-- What asking a list that has places, or one with more outstanding than it holds, leaves (R192). -/
def roomed (c : Cx) (id : ListId) (more : Bool) : Cx :=
  if more then ⟨⟨c.hub.port.store (slotBase c.cap.slot + 0x28) (c.cap.writer.setFault id).flagsWord,
    c.hub.orders.setNews c.cap.slot .listFull⟩, { c.cap with writer := c.cap.writer.setFault id }⟩ else c

theorem room_places {c : Cx} {id : ListId} {n : Nat} (h : RoomAt c.hub.port (c.cap.writer.list id) n)
    (pos : 0 < (c.cap.writer.list id).capacity) (ne : n ≠ (c.cap.writer.list id).capacity) :
    ∃ k, k ≠ 0 ∧ c.room id = (k, roomed c id (decide ((c.cap.writer.list id).capacity < n))) := by
  rcases Nat.lt_or_ge (c.cap.writer.list id).capacity n with more | within
  · rw [room_over h more, decide_eq_true more]
    exact ⟨_, Nat.pos_iff_ne_zero.1 pos, rfl⟩
  · rw [room_within h within, decide_eq_false (Nat.not_lt.2 within)]
    exact ⟨_, Nat.sub_ne_zero_of_lt (Nat.lt_of_le_of_ne within ne), rfl⟩

/-- The capture once its speed map record is placed. -/
def mappedCap (x : Capture) (more : Bool) : Capture :=
  { x with writer := Mapped (if more then x.writer.setFault .map else x.writer) }

/-- The bytes that the speed map record writes. -/
def mapRanges (n : SlotNo) (l : RecList) (more : Bool) : List (Nat × Nat) :=
  (if more then [(slotBase n + 0x28, 4)] else []) ++ [(nextPlace l 64, 64), (l.header + 4, 4), (slotBase n + 0x5C, 4)]

/-- The news of the speed map record. -/
def mapNews (u : OrderUnit) (n : SlotNo) (more : Bool) : OrderUnit :=
  (if more then u.setNews n .listFull else u).setNews n .speedMap

/-- What a placed speed map record shows (R193, R195). -/
structure ShowsMap (q : Port) (n : SlotNo) (w : Writer) (m : MapRec) (more : Bool) : Prop where
  words : ∀ (i : Nat) (v : Word), (m.words w.mapWritten)[i]? = some v → Holds q (nextPlace w.mapList 64 + 4 * i) v
  written : Holds q (w.mapList.header + 4) (w.mapList.written + 1)
  count : Holds q (slotBase n + 0x5C) (word (upTo 4294967295 w.mapWritten))
  flags : more = true → Holds q (slotBase n + 0x28) (w.setFault .map).flagsWord

theorem ShowsMap.mono {p q : Port} {n : SlotNo} {w : Writer} {m : MapRec} {more : Bool} (h : ShowsMap p n w m more)
    (keeps : ∀ a v, Holds p a v → Holds q a v) : ShowsMap q n w m more :=
  ⟨fun i v hv => keeps _ _ (h.words i v hv), keeps _ _ h.written, keeps _ _ h.count, fun o => keeps _ _ (h.flags o)⟩

theorem writeMap_roomed (mem : Memory.wf p.mem = true) (past : 0x2000 ≤ x.writer.mapList.header) (more : Bool) (m : MapRec) :
    ∃ q, (roomed ⟨⟨p, u⟩, x⟩ .map more).writeMap m = ⟨⟨q, mapNews u x.slot more⟩, mappedCap x more⟩ ∧
      Wrote p q (mapRanges x.slot x.writer.mapList more) ∧ ShowsMap q x.slot x.writer m more := by
  have low := slotBase_lt x.slot
  cases more with
  | false =>
    obtain ⟨words, written, count, wrote⟩ := mapPort_spec mem x.slot past m
    exact ⟨_, writeMap_eq _ m, wrote, words, written, count, nofun⟩
  | true =>
    have first := wrote_store p (slotBase x.slot + 0x28) (x.writer.setFault .map).flagsWord
    have mem' := first.wf mem
    obtain ⟨words, written, count, wrote⟩ := mapPort_spec (w := x.writer.setFault .map) mem' x.slot past m
    refine ⟨_, writeMap_eq _ m, first.trans wrote, words, written, count, fun _ => ?_⟩
    refine wrote.holds mem' (holds_store mem _ _) fun r hr => ?_
    have place : x.writer.mapList.header + 16 ≤ nextPlace (x.writer.setFault .map).mapList 64 := Nat.le_add_right _ _
    have same : (x.writer.setFault .map).mapList = x.writer.mapList := rfl
    rw [same] at hr place
    simp only [List.mem_cons, List.not_mem_nil, or_false] at hr
    rcases hr with rfl | rfl | rfl <;> simp only [Apart] <;> omega

theorem KeepsMap.shows {x y : Capture} (h : KeepsMap x y) {q : Port} {m : MapRec} {more : Bool}
    (shown : ShowsMap q y.slot y.writer m more) : ShowsMap q x.slot x.writer m more := by
  obtain ⟨words, written, count, flags⟩ := shown
  have same : (y.writer.setFault .map).flagsWord = (x.writer.setFault .map).flagsWord := by
    simp only [Writer.setFault, Writer.flagsWord, h.faultRepair, h.mapDropped]
  rw [h.mapList, h.mapWritten] at words
  rw [h.mapList] at written
  rw [h.slot, h.mapWritten] at count
  rw [h.slot, same] at flags
  exact ⟨words, written, count, flags⟩

/-! ## The record of a close that has come due -/

/-- The capture with its close of the speed map carried out. -/
def closedDue (x : Capture) : Capture := { x with writer := { x.writer with closeDue := none, closeAfter := none } }

/-- CUE told where the close reported one. -/
def cuedNews (u : OrderUnit) (n : SlotNo) (cue : Bool) : OrderUnit := if cue then u.setNews n .cue else u

theorem closeMap_some {cue : Bool} (due : x.writer.closeDue = some cue) (excerpt : x.writer.excerpt = none) :
    Cx.closeMap ⟨⟨p, u⟩, x⟩ = Cx.closeRecord ⟨⟨p, u⟩, x⟩ cue := by
  have goes : x.writer.closeWaits = false := by
    unfold Writer.closeWaits
    rw [excerpt, due]
    cases x.writer.closeAfter <;> rfl
  unfold Cx.closeMap
  rw [show (Cx.mk ⟨p, u⟩ x).cap.writer.closeDue = some cue from due]
  exact if_neg (by rw [goes]; decide)

theorem news_eq (q : Port) (v : OrderUnit) (y : Capture) (cue : Bool) :
    (if cue then Cx.news ⟨⟨q, v⟩, y⟩ .cue else ⟨⟨q, v⟩, y⟩) = ⟨⟨q, cuedNews v y.slot cue⟩, y⟩ := by cases cue <;> rfl

theorem closeRecord_room {m : MapRec} (map : x.writer.map = some m) (cue : Bool) {k : Nat} {d : Cx}
    (room : Cx.room ⟨⟨p, u⟩, closedDue x⟩ .map = (k, d)) : Cx.closeRecord ⟨⟨p, u⟩, x⟩ cue =
      let e := if k = 0 then
          (d.mapWriter fun w => { w with map := some { m with extended := true }, mapPending := true }).news .listFull
        else d.writeMap m
      if cue then e.news .cue else e := by
  have held : (closedDue x).writer.map = some m := map
  unfold Cx.closeRecord
  rw [show Cx.mapWriter ⟨⟨p, u⟩, x⟩ (fun w => { w with closeDue := none, closeAfter := none }) = ⟨⟨p, u⟩, closedDue x⟩ from rfl]
  dsimp only
  rw [held]
  dsimp only
  rw [room]

end

end Sys2Proof.TransferMemory
end

section
/-! PROOFS. The speed map record at a warm reset, as one action (R192, R193, R195, R202). -/

namespace Sys2Proof.TransferMemory

open Machine Safety Laws

section

variable {p : Port} {u : OrderUnit} {x : Capture} {m : MapRec} {due : Option Bool} {n : Nat}

/-- CUE told where a close that had come due reported one. -/
def dueNews (u : OrderUnit) (n : SlotNo) (due : Option Bool) : OrderUnit := if due = some true then u.setNews n .cue else u

theorem cuedNews_due (u : OrderUnit) (n : SlotNo) (cue : Bool) : cuedNews u n cue = dueNews u n (some cue) := by cases cue <;> rfl

theorem quiet_closedDue (h : Quiet x) : Quiet (closedDue x) := ⟨⟨h.lanes, h.lost, h.handed, h.holding⟩, h.spans, h.arriving, h.excerpt⟩

theorem quiet_mappedCap (h : Quiet x) (more : Bool) : Quiet (mappedCap x more) := by
  cases more <;> exact ⟨⟨h.lanes, h.lost, h.handed, h.holding⟩, h.spans, h.arriving, h.excerpt⟩

theorem roomAt_wrote_nil {q : Port} {l : RecList} (wrote : Wrote p q []) (mem : Memory.wf p.mem = true) (room : RoomAt p l n) : RoomAt q l n :=
  wrote.roomAt mem room nofun

theorem closeDue_roomed (c : Cx) (id : ListId) (more : Bool) : (roomed c id more).cap.writer.closeDue = c.cap.writer.closeDue := by
  cases more <;> cases id <;> rfl

/-- The list has a place: the record is written. -/
theorem endWriter_mapPlaced (mem : Memory.wf p.mem = true) (h : Quiet x) (map : x.writer.map = some m) (closeDue : x.writer.closeDue = due)
    (room : RoomAt p x.writer.mapList n) (pos : 0 < x.writer.mapList.capacity) (ne : n ≠ x.writer.mapList.capacity) :
    let more := decide (x.writer.mapList.capacity < n)
    ∃ q y, endWriter (Cx.closeMap ⟨⟨p, u⟩, x⟩) = ⟨⟨q, dueNews (mapNews u x.slot more) x.slot due⟩, y⟩ ∧
      Wrote p q (mapRanges x.slot x.writer.mapList more) ∧ ShowsMap q x.slot x.writer m more := by
  intro more
  cases due with
  | none =>
    obtain ⟨q₀, y, ended, keeps, still⟩ := quiet_endWriter (u := u) mem h
    have room' : RoomAt q₀ y.writer.mapList n := by
      rw [keeps.mapList]
      exact roomAt_wrote_nil still mem room
    have capacity : ((Cx.mk ⟨q₀, u⟩ y).cap.writer.list .map).capacity = x.writer.mapList.capacity :=
      congrArg RecList.capacity keeps.mapList
    obtain ⟨k, some_, asked⟩ := room_places (c := ⟨⟨q₀, u⟩, y⟩) (id := .map) room' (capacity ▸ pos) (capacity ▸ ne)
    rw [capacity] at asked
    obtain ⟨q, written, wrote, shown⟩ := writeMap_roomed (u := u) (still.wf mem) (x := y) (by rw [keeps.mapList]; exact room.1) more m
    have kept : (roomed ⟨⟨q₀, u⟩, y⟩ .map more).cap.writer.closeDue = none :=
      (closeDue_roomed _ _ _).trans (keeps.closeDue.trans closeDue)
    rw [keeps.slot, keeps.mapList] at wrote
    refine ⟨q, mappedCap y more, ?_, still.nil_trans wrote, keeps.shows shown⟩
    rw [closeMap_of_none closeDue, ended, endMap_writes (keeps.map.trans map) asked some_, if_neg (by rw [kept]; decide), written,
      keeps.slot]
    rfl
  | some cue =>
    obtain ⟨k, some_, asked⟩ := room_places (c := ⟨⟨p, u⟩, closedDue x⟩) (id := .map) room pos ne
    obtain ⟨q₀, written, wrote, shown⟩ := writeMap_roomed (u := u) mem (x := closedDue x) room.1 more m
    obtain ⟨q, y, ended, keeps, still⟩ := quiet_endWriter (u := cuedNews (mapNews u x.slot more) x.slot cue) (wrote.wf mem)
      (quiet_mappedCap (quiet_closedDue h) more)
    have closed : Cx.closeMap ⟨⟨p, u⟩, x⟩ = ⟨⟨q₀, cuedNews (mapNews u x.slot more) x.slot cue⟩, mappedCap (closedDue x) more⟩ := by
      rw [closeMap_some closeDue h.excerpt, closeRecord_room map cue asked]
      dsimp only
      rw [if_neg some_, show roomed ⟨⟨p, u⟩, closedDue x⟩ .map (decide (((Cx.mk ⟨p, u⟩ (closedDue x)).cap.writer.list .map).capacity < n)) =
        roomed ⟨⟨p, u⟩, closedDue x⟩ .map more from rfl, written, news_eq]
      rfl
    refine ⟨q, y, ?_, (wrote.trans still).mono (by rw [List.append_nil]; exact List.Subset.refl _), ?_⟩
    · rw [closed, ended, endMap_none (keeps.map.trans rfl), cuedNews_due]
    · exact ShowsMap.mono ⟨shown.words, shown.written, shown.count, shown.flags⟩ fun a v ha => still.holds (wrote.wf mem) ha nofun

/-- The flags word of a capture that has dropped its speed map record. -/
def droppedFlags (w : Writer) : Word := word (flagBit w.faultMap + 2 * flagBit w.faultRepair + 4)

/-- The list is full: the record is dropped. -/
theorem endWriter_mapDropped (mem : Memory.wf p.mem = true) (h : Quiet x) (map : x.writer.map = some m) (closeDue : x.writer.closeDue = due)
    (full : RoomAt p x.writer.mapList x.writer.mapList.capacity) :
    ∃ q y, endWriter (Cx.closeMap ⟨⟨p, u⟩, x⟩) =
        ⟨⟨q, if due.isSome then dueNews (u.setNews x.slot .listFull) x.slot due else u⟩, y⟩ ∧
      Wrote p q [(slotBase x.slot + 0x28, 4)] ∧ Holds q (slotBase x.slot + 0x28) (droppedFlags x.writer) := by
  have drops : ∀ (v : OrderUnit) (z : Capture) (r : MapRec), Quiet z → z.slot = x.slot → z.writer.mapList = x.writer.mapList →
      z.writer.map = some r → z.writer.faultMap = x.writer.faultMap → z.writer.faultRepair = x.writer.faultRepair →
      ∃ q y, endWriter ⟨⟨p, v⟩, z⟩ = ⟨⟨q, v⟩, y⟩ ∧ Wrote p q [(slotBase x.slot + 0x28, 4)] ∧
        Holds q (slotBase x.slot + 0x28) (droppedFlags x.writer) := by
    intro v z r quiet slot list record faultMap faultRepair
    obtain ⟨q₀, y, ended, keeps, still⟩ := quiet_endWriter (u := v) mem quiet
    have full' : RoomAt q₀ y.writer.mapList y.writer.mapList.capacity := by
      rw [keeps.mapList, list]
      exact roomAt_wrote_nil still mem full
    refine ⟨_, _, ended.trans (endMap_drops (keeps.map.trans record) full'), ?_, ?_⟩
    · have wrote := still.nil_trans (wrote_store q₀ (slotBase y.slot + 0x28)
        (word (flagBit y.writer.faultMap + 2 * flagBit y.writer.faultRepair + 4)))
      rw [keeps.slot, slot] at wrote ⊢
      exact wrote
    · have holds := holds_store (still.wf mem) (slotBase y.slot + 0x28)
        (word (flagBit y.writer.faultMap + 2 * flagBit y.writer.faultRepair + 4))
      rw [droppedFlags, ← slot, ← faultMap, ← faultRepair, ← keeps.slot, ← keeps.faultMap, ← keeps.faultRepair]
      exact holds
  cases due with
  | none =>
    rw [closeMap_of_none closeDue]
    exact drops u x m h rfl rfl map rfl rfl
  | some cue =>
    have asked := room_full (c := ⟨⟨p, u⟩, closedDue x⟩) (id := .map) full
    have closed : Cx.closeMap ⟨⟨p, u⟩, x⟩ = ⟨⟨p, cuedNews (u.setNews x.slot .listFull) x.slot cue⟩, { closedDue x with
        writer := { (closedDue x).writer with map := some { m with extended := true }, mapPending := true } }⟩ := by
      rw [closeMap_some closeDue h.excerpt, closeRecord_room map cue asked]
      dsimp only
      rw [if_pos rfl]
      exact news_eq p (u.setNews x.slot .listFull) _ cue
    have quiet := quiet_closedDue h
    rw [closed, cuedNews_due]
    exact drops _ _ { m with extended := true } ⟨⟨quiet.lanes, quiet.lost, quiet.handed, quiet.holding⟩, quiet.spans, quiet.arriving,
      quiet.excerpt⟩ rfl rfl rfl rfl rfl

end

/-! ## As one action -/

section

variable {s : State} {e c : Bool} {cap : Capture} {m : MapRec} {due : Option Bool} {n : Nat}

/-- Nothing is open but the speed map record. -/
theorem quiet_of_map (quiet : ∀ g, SpansQuiet cap g) (open_ : NothingOpen { cap with writer := { cap.writer with map := none } }) :
    Quiet cap := by
  obtain ⟨lanes, -, excerpt, handed, holding, groups⟩ := open_
  exact ⟨⟨lanes, fun g => (groups g).2, handed, holding⟩, quiet, fun g => (groups g).1, excerpt⟩

theorem roomAt_ended {l : RecList} (mem : MemoryCanonical s) (room : Outstanding s l n) : RoomAt (endedPort s e c cap) l n := by
  have low := slotBase_lt cap.slot
  have past := room.1
  have before : RoomAt (begunPort s e c) l n := room
  refine (wrote_store (begunPort s e c) _ _).roomAt mem before fun r hr => ?_
  rw [List.mem_singleton.1 hr]
  simp only [Apart]
  omega

/-- The list has a place: the record is written at the reset. -/
theorem warmReset_mapPlaced (ready : Ready s) (mem : MemoryCanonical s) (capture : s.capture = some cap) (h : Quiet cap)
    (map : cap.writer.map = some m) (closeDue : cap.writer.closeDue = due) (room : Outstanding s cap.writer.mapList n)
    (pos : 0 < cap.writer.mapList.capacity) (ne : n ≠ cap.writer.mapList.capacity) :
    let more := decide (cap.writer.mapList.capacity < n)
    ∃ t, exec (.warmReset e c) s = .next t ∧ Stored t (slotBase cap.slot + 0x24) 4 ∧ ShowsMap t.port cap.slot cap.writer m more ∧
      MemoryKeptOutside s t ((slotBase cap.slot + 0x24, 4) :: mapRanges cap.slot cap.writer.mapList more) ∧
      NewsOf t (dueNews (mapNews s.orders cap.slot more) cap.slot due) := by
  intro more
  have quiet : Quiet (endedCap cap) := ⟨⟨h.lanes, h.lost, h.handed, h.holding⟩, h.spans, h.arriving, h.excerpt⟩
  obtain ⟨q, y, ends, wrote, shown⟩ := endWriter_mapPlaced (u := s.orders) (endedPort_wf (e := e) (c := c) (cap := cap) mem) quiet map
    closeDue (roomAt_ended mem room) pos ne
  have shown' : ShowsMap q cap.slot cap.writer m more := ⟨shown.words, shown.written, shown.count, shown.flags⟩
  obtain ⟨t, eq, reason, shows_, kept, news⟩ := warmReset_of ready mem capture ends wrote fun r hr => by
    have low := slotBase_lt cap.slot
    have past := room.1
    have place : cap.writer.mapList.header + 16 ≤ nextPlace cap.writer.mapList 64 := Nat.le_add_right _ _
    rcases List.mem_append.1 hr with hr | hr
    · split at hr
      · rw [List.mem_singleton.1 hr]
        exact .inl (Nat.le_refl _)
      · cases hr
    · change r ∈ [(nextPlace cap.writer.mapList 64, 64), (cap.writer.mapList.header + 4, 4), (slotBase cap.slot + 0x5C, 4)] at hr
      simp only [List.mem_cons, List.not_mem_nil, or_false] at hr
      rcases hr with rfl | rfl | rfl <;> simp only [Apart] <;> omega
  exact ⟨t, eq, reason, shown'.mono shows_, kept, news⟩

/-- The list is full: the record is dropped at the reset. -/
theorem warmReset_mapDropped (ready : Ready s) (mem : MemoryCanonical s) (capture : s.capture = some cap) (h : Quiet cap)
    (map : cap.writer.map = some m) (closeDue : cap.writer.closeDue = due)
    (full : Outstanding s cap.writer.mapList cap.writer.mapList.capacity) :
    ∃ t, exec (.warmReset e c) s = .next t ∧ Stored t (slotBase cap.slot + 0x28) (droppedFlags cap.writer) ∧
      MemoryKeptOutside s t [(slotBase cap.slot + 0x24, 4), (slotBase cap.slot + 0x28, 4)] ∧
      NewsOf t (if due.isSome then dueNews (s.orders.setNews cap.slot .listFull) cap.slot due else s.orders) := by
  have quiet : Quiet (endedCap cap) := ⟨⟨h.lanes, h.lost, h.handed, h.holding⟩, h.spans, h.arriving, h.excerpt⟩
  obtain ⟨q, y, ends, wrote, flags⟩ := endWriter_mapDropped (u := s.orders) (endedPort_wf (e := e) (c := c) (cap := cap) mem) quiet map
    closeDue (roomAt_ended mem full)
  obtain ⟨t, eq, -, shows_, kept, news⟩ := warmReset_of ready mem capture ends wrote fun r hr => by
    rw [List.mem_singleton.1 hr]
    exact .inl (Nat.le_refl _)
  exact ⟨t, eq, shows_ _ _ flags, kept, news⟩

/-- The clause of a speed map record, and nothing else open (R192, R195, R202). -/
theorem warmReset_map (ready : Ready s) (mem : MemoryCanonical s) (capture : s.capture = some cap) (quiet : ∀ g, SpansQuiet cap g)
    (map : cap.writer.map = some m) (open_ : NothingOpen { cap with writer := { cap.writer with map := none } })
    (closeDue : cap.writer.closeDue = due) :
    let base := slotBase cap.slot
    let w := cap.writer
    let l := w.mapList
    let place := l.header + 16 + 64 * (l.written.toNat % l.capacity)
    Outstanding s l n →
    (n < l.capacity → ∃ t, exec (.warmReset e c) s = .next t ∧ Stored t (base + 0x24) 4 ∧
      (∀ (i : Nat) (v : Word), (m.words w.mapWritten)[i]? = some v → Stored t (place + 4 * i) v) ∧
      Stored t (l.header + 4) (l.written + 1) ∧ Stored t (base + 0x5C) (BitVec.ofNat 32 (upTo 4294967295 w.mapWritten)) ∧
      MemoryKeptOutside s t [(base + 0x24, 4), (base + 0x5C, 4), (place, 64), (l.header + 4, 4)] ∧
      NewsOf t (dueNews (s.orders.setNews cap.slot .speedMap) cap.slot due)) ∧
    (n = l.capacity → ∃ t, exec (.warmReset e c) s = .next t ∧ Stored t (base + 0x28) (droppedFlags w) ∧
      MemoryKeptOutside s t [(base + 0x24, 4), (base + 0x28, 4)] ∧
      NewsOf t (if due.isSome then dueNews (s.orders.setNews cap.slot .listFull) cap.slot due else s.orders)) ∧
    (l.capacity < n → 0 < l.capacity → ∃ t, exec (.warmReset e c) s = .next t ∧ Stored t (base + 0x24) 4 ∧
      Stored t (base + 0x28) (BitVec.ofNat 32 (1 + 2 * flagBit w.faultRepair + 4 * flagBit w.mapDropped)) ∧
      (∀ (i : Nat) (v : Word), (m.words w.mapWritten)[i]? = some v → Stored t (place + 4 * i) v) ∧
      Stored t (l.header + 4) (l.written + 1) ∧ Stored t (base + 0x5C) (BitVec.ofNat 32 (upTo 4294967295 w.mapWritten)) ∧
      MemoryKeptOutside s t [(base + 0x24, 8), (base + 0x5C, 4), (place, 64), (l.header + 4, 4)] ∧
      NewsOf t (dueNews ((s.orders.setNews cap.slot .listFull).setNews cap.slot .speedMap) cap.slot due)) := by
  intro base w l place room
  have h : Quiet cap := quiet_of_map quiet open_
  refine ⟨fun less => ?_, fun full => ?_, fun more pos => ?_⟩
  · obtain ⟨t, eq, reason, shown, kept, news⟩ := warmReset_mapPlaced (e := e) (c := c) ready mem capture h map closeDue room
      (Nat.zero_lt_of_lt less) less.ne
    rw [decide_eq_false (Nat.not_lt.2 less.le)] at kept news
    refine ⟨t, eq, reason, shown.words, shown.written, shown.count, keptOutside_mono kept fun r hr => ?_, news⟩
    simp only [mapRanges, Bool.false_eq_true, if_false, List.nil_append, List.mem_cons, List.not_mem_nil, or_false] at hr ⊢
    rcases hr with rfl | rfl | rfl | rfl
    · exact .inl rfl
    · exact .inr (.inr (.inl rfl))
    · exact .inr (.inr (.inr rfl))
    · exact .inr (.inl rfl)
  · subst full
    exact warmReset_mapDropped ready mem capture h map closeDue room
  · obtain ⟨t, eq, reason, shown, kept, news⟩ := warmReset_mapPlaced (e := e) (c := c) ready mem capture h map closeDue room pos more.ne'
    rw [decide_eq_true more] at kept news shown
    refine ⟨t, eq, reason, shown.flags rfl, shown.words, shown.written, shown.count, fun a ha => kept a fun r hr => ?_, news⟩
    have first := ha (base + 0x24, 8) (by simp)
    simp only [mapRanges, if_true, List.cons_append, List.nil_append, List.mem_cons, List.not_mem_nil, or_false] at hr
    rcases hr with rfl | rfl | rfl | rfl | rfl
    · simp only at first ⊢
      omega
    · simp only at first ⊢
      omega
    · exact ha (place, 64) (by simp)
    · exact ha (l.header + 4, 4) (by simp)
    · exact ha (base + 0x5C, 4) (by simp)

end

end Sys2Proof.TransferMemory
end

section
/-! PROOFS. The repair records at a warm reset (R100, R104, R182, R190, R196, R202). -/

namespace Sys2Proof.TransferMemory

open Machine Safety Laws

/-! ## The records of a warm reset in their order -/

/-- The records, numbers aside, of the open LOST records. -/
def lostRecords (w : Writer) : List (Nat → RepairRec) :=
  [Group.a, Group.b].filterMap fun g => (w.groups.get g).lost.map fun r seq => lostRepair seq g r true

/-- The records that take a number at the reset. -/
def freshRecords (cap : Capture) (m : LaneMonitor) : List (Nat → RepairRec) :=
  openRecords m (nextIndex cap) laneNos ++ lostRecords cap.writer

/-- Every repair record of a warm reset: those held, those handed over, those of closed dropouts, and the new ones. -/
def resetRecords (cap : Capture) (m : LaneMonitor) : List RepairRec :=
  cap.writer.holding ++ cap.writer.handed ++ m.closed.map (closedRecord (nextIndex cap)) ++ numbered (freshRecords cap m) m.seq

/-- The records that the writer has been handed once the lanes are done. -/
def handedOver (cap : Capture) (m : LaneMonitor) : List RepairRec :=
  cap.writer.handed ++ (m.closed.map (closedRecord (nextIndex cap)) ++ numbered (openRecords m (nextIndex cap) laneNos) m.seq)

theorem lostRecords_groups (w : Writer) : lostRecords w =
    ((w.groups.get .a).lost.toList.map fun r seq => lostRepair seq .a r true) ++
      (w.groups.get .b).lost.toList.map fun r seq => lostRepair seq .b r true := by
  unfold lostRecords
  rw [List.filterMap_cons, List.filterMap_cons, List.filterMap_nil]
  cases (w.groups.get .a).lost <;> cases (w.groups.get .b).lost <;> rfl

theorem numbered_lost (o : Option LostRec) (g : Group) (n : Nat) :
    numbered (o.toList.map fun r seq => lostRepair seq g r true) n = o.toList.map fun r => lostRepair n g r true := by cases o <;> rfl

section

variable {h : Hub} {cap : Capture} {os : PerGroup GroupOut} {x : Option Excerpt} {n : LaneMonitor} {handed : List RepairRec}

theorem closeLosts_eq (lost : ∀ g, (os.get g).lost = (cap.writer.groups.get g).lost) : ∃ os' n',
    closeLosts ⟨h, capAt cap os x (some n) handed⟩ =
      ⟨h, capAt cap os' x (some n') (handed ++ numbered (lostRecords cap.writer) n.seq)⟩ := by
  obtain ⟨p, u⟩ := h
  have lostB : ((os.put .a (withoutLost (os.get .a))).get .b).lost = (cap.writer.groups.get .b).lost :=
    (congrArg GroupOut.lost (get_put_of_ne os (by decide : Group.b ≠ .a) _)).trans (lost .b)
  have eq := (congrArg (fun c => Cx.closeLost c .b true) (closeLost_capAt (p := p) (u := u) (cap := cap) (os := os) (x := x)
    (handed := handed) (g := .a) (n := n))).trans (closeLost_capAt (g := .b))
  rw [lostB, lost .a] at eq
  have numbers : numbered (lostRecords cap.writer) n.seq =
      ((cap.writer.groups.get .a).lost.toList.map fun r => lostRepair n.seq .a r true) ++
        (cap.writer.groups.get .b).lost.toList.map fun r =>
          lostRepair (n.seq + (cap.writer.groups.get .a).lost.toList.length) .b r true := by
    rw [lostRecords_groups, numbered_append, numbered_lost, numbered_lost, List.length_map]
  rw [numbers, ← List.append_assoc]
  exact ⟨_, _, eq⟩

end

/-! ## The work of a warm reset up to the records -/

theorem markExcerpt_span (m : LaneMonitor) (lane : LaneNo) (e : Excerpt) : (markExcerpt m lane e).span = e.span := by
  unfold markExcerpt
  split <;> rfl

theorem markExcerpts_span (ls : List LaneNo) (m : LaneMonitor) (e : Excerpt) : (markExcerpts m ls e).span = e.span := by
  induction ls generalizing m e with
  | nil => rfl
  | cons lane rest ih => exact (ih _ _).trans (markExcerpt_span m lane e)

/-- The open excerpt with the dropouts of its lane that the reset closes. -/
def markedExcerpt (cap : Capture) (m : LaneMonitor) : Option Excerpt := cap.writer.excerpt.map (markExcerpts m laneNos)

section

variable {p : Port} {u : OrderUnit} {cap : Capture} {m : LaneMonitor} {os : PerGroup GroupOut}

theorem Closable.marked (h : Closable p os cap.writer.excerpt) (m : LaneMonitor) : Closable p os (markedExcerpt cap m) := by
  have from_ : ∀ e, markedExcerpt cap m = some e → ∃ y, cap.writer.excerpt = some y ∧ e.span = y.span := fun e he => by
    obtain ⟨y, hy, rfl⟩ := Option.map_eq_some_iff.1 he
    exact ⟨y, hy, markExcerpts_span _ _ _⟩
  refine ⟨h.span, h.spans, fun e he => ?_, fun g e filling he => ?_⟩
  · obtain ⟨y, hy, same⟩ := from_ e he
    rw [same]
    exact h.excerpt y hy
  · obtain ⟨y, hy, same⟩ := from_ e he
    rw [same]
    exact h.both g y filling hy

theorem closeRanges_marked (os : PerGroup GroupOut) : closeRanges cap os (markedExcerpt cap m) = closeRanges cap os cap.writer.excerpt := by
  unfold closeRanges markedExcerpt
  cases cap.writer.excerpt with
  | none => rfl
  | some e =>
    have same : excerptRanges (markExcerpts m laneNos e) = excerptRanges e := by
      rw [excerptRanges, markExcerpts_span, excerptRanges]
    rw [Option.map_some, Option.toList_some, Option.toList_some, List.flatMap_cons, List.flatMap_cons, same]

theorem closeNews_marked (os : PerGroup GroupOut) : closeNews u cap.slot os (markedExcerpt cap m) =
    closeNews u cap.slot os cap.writer.excerpt := by
  unfold closeNews markedExcerpt
  cases cap.writer.excerpt <;> rfl

/-- What is left once the spans and the excerpt are closed and every record is handed over. -/
theorem endWriter_records (mem : Memory.wf p.mem = true) (still : ∀ g, Still (cap.writer.groups.get g))
    (monitor : cap.monitor = some m) (unrun : Unrun m) (closable : Closable p cap.writer.groups cap.writer.excerpt)
    (sorted : ((resetRecords cap m).map (·.seq)).Pairwise (· < ·)) :
    ∃ q os n handed, endWriter ⟨⟨p, u⟩, cap⟩ = Cx.endMap (Cx.endRepairs
        ⟨⟨q, closeNews u cap.slot cap.writer.groups cap.writer.excerpt⟩, capAt cap os none n handed⟩ (resetRecords cap m)) ∧
      Wrote p q (closeRanges cap cap.writer.groups cap.writer.excerpt) ∧ Closed q cap cap.writer.groups (markedExcerpt cap m) := by
  have filled : fillSpans ⟨⟨p, u⟩, cap⟩ = ⟨⟨p, u⟩, cap⟩ := fillSpans_still still
  have lanes := lanesReset_eq (h := ⟨p, u⟩) (cap := cap) (os := cap.writer.groups) (x := cap.writer.excerpt)
    (handed := cap.writer.handed) unrun
  rw [← monitor, capAt_self] at lanes
  obtain ⟨q, closed, wrote, shown⟩ := closeSpans_spec (u := u) (cap := cap) (m := some (resetMonitor m)) (handed := handedOver cap m)
    mem (closable.marked m)
  obtain ⟨os, n, losts⟩ := closeLosts_eq (h := ⟨q, closeNews u cap.slot cap.writer.groups (markedExcerpt cap m)⟩) (cap := cap)
    (os := ⟨endedOut cap .a cap.writer.groups.a, endedOut cap .b cap.writer.groups.b⟩) (x := none) (n := resetMonitor m)
    (handed := handedOver cap m) fun g => match g with
    | .a => endedOut_lost cap .a cap.writer.groups.a
    | .b => endedOut_lost cap .b cap.writer.groups.b
  have number : (resetMonitor m).seq = m.seq + (openRecords m (nextIndex cap) laneNos).length :=
    (afterLanes_spec m (nextIndex cap) nodup_laneNos).1
  have all : cap.writer.holding ++ (handedOver cap m ++ numbered (lostRecords cap.writer) (resetMonitor m).seq) =
      resetRecords cap m := by
    rw [resetRecords, handedOver, freshRecords, numbered_append, number]
    simp only [List.append_assoc]
  rw [closeRanges_marked] at wrote
  rw [closeNews_marked] at closed losts
  refine ⟨q, os, some n, handedOver cap m ++ numbered (lostRecords cap.writer) (resetMonitor m).seq, ?_, wrote, shown⟩
  have stages := (congrArg closeLosts closed).trans losts
  rw [endWriter, filled, lanes]
  refine (congrArg endRecords stages).trans ?_
  rw [endRecords]
  have order : sortSeq (cap.writer.holding ++ (handedOver cap m ++ numbered (lostRecords cap.writer) (resetMonitor m).seq)) =
      resetRecords cap m := by
    rw [all]
    exact sortSeq_sorted sorted
  exact congrArg (fun rs => Cx.endMap (Cx.endRepairs _ rs)) order

end

end Sys2Proof.TransferMemory
end

section
/-! PROOFS. A single repair record at a warm reset (R192, R193, R196, R202). -/

namespace Sys2Proof.TransferMemory

open Machine Safety Laws

/-! ## One record placed, or suppressed -/

section

variable {p : Port} {u : OrderUnit} {x : Capture} {r : RepairRec} {n : Nat}

/-- The bytes that a repair record writes. -/
def oneRanges (n : SlotNo) (l : RecList) (more : Bool) : List (Nat × Nat) :=
  (if more then [(slotBase n + 0x28, 4)] else []) ++ [(nextPlace l 32, 32), (l.header + 4, 4), (slotBase n + 0x60, 4)]

/-- The news of a repair record. -/
def oneNews (u : OrderUnit) (n : SlotNo) (more : Bool) : OrderUnit :=
  (if more then u.setNews n .listFull else u).setNews n .repair

/-- What a placed repair record shows (R193, R196). -/
structure ShowsRepair (q : Port) (n : SlotNo) (w : Writer) (r : RepairRec) (more : Bool) : Prop where
  words : ∀ (i : Nat) (v : Word), r.words[i]? = some v → Holds q (nextPlace w.repairList 32 + 4 * i) v
  written : Holds q (w.repairList.header + 4) (w.repairList.written + 1)
  count : Holds q (slotBase n + 0x60) (word (upTo 4294967295 w.repairWritten))
  flags : more = true → Holds q (slotBase n + 0x28) (w.setFault .repair).flagsWord

theorem ShowsRepair.mono {p q : Port} {n : SlotNo} {w : Writer} {more : Bool} (h : ShowsRepair p n w r more)
    (keeps : ∀ a v, Holds p a v → Holds q a v) : ShowsRepair q n w r more :=
  ⟨fun i v hv => keeps _ _ (h.words i v hv), keeps _ _ h.written, keeps _ _ h.count, fun o => keeps _ _ (h.flags o)⟩

theorem writeRepair_roomed (mem : Memory.wf p.mem = true) (past : 0x2000 ≤ x.writer.repairList.header) (more : Bool) (r : RepairRec) :
    ∃ q y, (roomed ⟨⟨p, u⟩, x⟩ .repair more).writeRepair r = ⟨⟨q, oneNews u x.slot more⟩, y⟩ ∧ y.writer.map = x.writer.map ∧
      Wrote p q (oneRanges x.slot x.writer.repairList more) ∧ ShowsRepair q x.slot x.writer r more := by
  have low := slotBase_lt x.slot
  cases more with
  | false =>
    obtain ⟨words, written, count, wrote⟩ := repairPort_spec mem x.slot past r
    exact ⟨_, { x with writer := Repaired x.writer }, writeRepair_eq _ r, rfl, wrote, words, written, count, nofun⟩
  | true =>
    have first := wrote_store p (slotBase x.slot + 0x28) (x.writer.setFault .repair).flagsWord
    have mem' := first.wf mem
    obtain ⟨words, written, count, wrote⟩ := repairPort_spec (w := x.writer.setFault .repair) mem' x.slot past r
    refine ⟨_, { x with writer := Repaired (x.writer.setFault .repair) }, writeRepair_eq _ r, rfl, first.trans wrote, words, written,
      count, fun _ => ?_⟩
    refine wrote.holds mem' (holds_store mem _ _) fun r hr => ?_
    have place : x.writer.repairList.header + 16 ≤ nextPlace (x.writer.setFault .repair).repairList 32 := Nat.le_add_right _ _
    have same : (x.writer.setFault .repair).repairList = x.writer.repairList := rfl
    rw [same] at hr place
    simp only [List.mem_cons, List.not_mem_nil, or_false] at hr
    rcases hr with rfl | rfl | rfl <;> simp only [Apart] <;> omega

theorem endRepairs_onePlaced (mem : Memory.wf p.mem = true) (room : RoomAt p x.writer.repairList n)
    (pos : 0 < x.writer.repairList.capacity) (ne : n ≠ x.writer.repairList.capacity) :
    let more := decide (x.writer.repairList.capacity < n)
    ∃ q y, Cx.endRepairs ⟨⟨p, u⟩, x⟩ [r] = ⟨⟨q, oneNews u x.slot more⟩, y⟩ ∧ y.writer.map = x.writer.map ∧
      Wrote p q (oneRanges x.slot x.writer.repairList more) ∧ ShowsRepair q x.slot x.writer r more := by
  intro more
  obtain ⟨k, some_, asked⟩ := room_places (c := ⟨⟨p, u⟩, x⟩) (id := .repair) room pos ne
  obtain ⟨q, y, written, map, wrote, shown⟩ := writeRepair_roomed (u := u) mem room.1 more r
  have placed : Cx.placeRepairs ⟨⟨p, u⟩, x⟩ [r] = ([], ⟨⟨q, oneNews u x.slot more⟩, y⟩) := by
    rw [placeRepairs_places r [] asked some_]
    exact congrArg (Prod.mk []) written
  exact ⟨q, _, (endRepairs_of placed).trans rfl, map, wrote, shown⟩

theorem endRepairs_oneSuppressed (mem : Memory.wf p.mem = true) (full : RoomAt p x.writer.repairList x.writer.repairList.capacity) :
    ∃ q y, Cx.endRepairs ⟨⟨p, u⟩, x⟩ [r] = ⟨⟨q, u⟩, y⟩ ∧ y.writer.map = x.writer.map ∧ Wrote p q [(slotBase x.slot + 0x64, 4)] ∧
      Holds q (slotBase x.slot + 0x64) (word (min 4294967295 (x.writer.suppressed + 1))) := by
  have asked := room_full (c := ⟨⟨p, u⟩, x⟩) (id := .repair) full
  exact ⟨_, _, endRepairs_of (placeRepairs_stops asked), rfl, wrote_store _ _ _, holds_store mem _ _⟩

end

/-! ## As one action -/

/-- Nothing is open but what a single repair record comes of. -/
structure OneRecord (cap : Capture) (m : LaneMonitor) (r : RepairRec) : Prop where
  monitor : cap.monitor = some m
  unrun : Unrun m
  spans : ∀ g, SpansQuiet cap g
  arriving : ∀ g, (cap.writer.groups.get g).arriving = []
  excerpt : cap.writer.excerpt = none
  map : cap.writer.map = none
  due : cap.writer.closeDue = none
  records : resetRecords cap m = [r]

section

variable {s : State} {e c : Bool} {cap : Capture} {m : LaneMonitor} {r : RepairRec} {n : Nat}

/-- Only the record is left once the lanes and the LOST records are done. -/
theorem OneRecord.endWriter (h : OneRecord cap m r) (mem : MemoryCanonical s) : ∃ q os n handed,
    endWriter (Cx.closeMap ⟨⟨endedPort s e c cap, s.orders⟩, endedCap cap⟩) =
      Cx.endMap (Cx.endRepairs ⟨⟨q, s.orders⟩, capAt (endedCap cap) os none n handed⟩ [r]) ∧ Wrote (endedPort s e c cap) q [] := by
  have records : resetRecords (endedCap cap) m = [r] := h.records
  have excerpt : (endedCap cap).writer.excerpt = none := h.excerpt
  obtain ⟨q, os, k, handed, ended, wrote, -⟩ := endWriter_records (u := s.orders) (cap := endedCap cap)
    (endedPort_wf (e := e) (c := c) (cap := cap) mem) (fun g => .inl (h.arriving g)) h.monitor h.unrun
    (by rw [excerpt]; exact closable_quiet (x := endedCap cap) h.spans) (by rw [records]; exact List.pairwise_singleton _ _)
  rw [excerpt, closeRanges_quiet (x := endedCap cap) h.spans h.arriving] at wrote
  rw [excerpt, closeNews_quiet (x := endedCap cap) h.spans, records] at ended
  exact ⟨q, os, k, handed, by rw [closeMap_of_none h.due]; exact ended, wrote⟩

theorem warmReset_onePlaced (ready : Ready s) (mem : MemoryCanonical s) (capture : s.capture = some cap) (h : OneRecord cap m r)
    (room : Outstanding s cap.writer.repairList n) (pos : 0 < cap.writer.repairList.capacity) (ne : n ≠ cap.writer.repairList.capacity) :
    let more := decide (cap.writer.repairList.capacity < n)
    ∃ t, exec (.warmReset e c) s = .next t ∧ Stored t (slotBase cap.slot + 0x24) 4 ∧ ShowsRepair t.port cap.slot cap.writer r more ∧
      MemoryKeptOutside s t ((slotBase cap.slot + 0x24, 4) :: oneRanges cap.slot cap.writer.repairList more) ∧
      NewsOf t (oneNews s.orders cap.slot more) := by
  intro more
  have mem' := endedPort_wf (e := e) (c := c) (cap := cap) mem
  obtain ⟨q₀, os, k, handed, ended, still⟩ := h.endWriter (e := e) (c := c) mem
  obtain ⟨q, y, placed, map, wrote, shown⟩ := endRepairs_onePlaced (u := s.orders) (r := r)
    (x := capAt (endedCap cap) os none k handed) (still.wf mem') (roomAt_wrote_nil still mem' (roomAt_ended mem room)) pos ne
  have shown' : ShowsRepair q cap.slot cap.writer r more := ⟨shown.words, shown.written, shown.count, shown.flags⟩
  obtain ⟨t, eq, reason, shows_, kept, news⟩ := warmReset_of ready mem capture
    (by rw [ended, placed]; exact endMap_none (map.trans h.map)) (still.nil_trans wrote) fun r hr => by
      have low := slotBase_lt cap.slot
      have past := room.1
      have place : cap.writer.repairList.header + 16 ≤ nextPlace cap.writer.repairList 32 := Nat.le_add_right _ _
      rcases List.mem_append.1 hr with hr | hr
      · split at hr
        · rw [List.mem_singleton.1 hr]
          exact .inl (Nat.le_refl _)
        · cases hr
      · change r ∈ [(nextPlace cap.writer.repairList 32, 32), (cap.writer.repairList.header + 4, 4), (slotBase cap.slot + 0x60, 4)] at hr
        simp only [List.mem_cons, List.not_mem_nil, or_false] at hr
        rcases hr with rfl | rfl | rfl <;> simp only [Apart] <;> omega
  exact ⟨t, eq, reason, shown'.mono shows_, kept, news⟩

theorem warmReset_oneSuppressed (ready : Ready s) (mem : MemoryCanonical s) (capture : s.capture = some cap) (h : OneRecord cap m r)
    (full : Outstanding s cap.writer.repairList cap.writer.repairList.capacity) :
    ∃ t, exec (.warmReset e c) s = .next t ∧
      Stored t (slotBase cap.slot + 0x64) (BitVec.ofNat 32 (min 4294967295 (cap.writer.suppressed + 1))) ∧
      MemoryKeptOutside s t [(slotBase cap.slot + 0x24, 4), (slotBase cap.slot + 0x64, 4)] ∧ NewsOf t s.orders := by
  have mem' := endedPort_wf (e := e) (c := c) (cap := cap) mem
  obtain ⟨q₀, os, k, handed, ended, still⟩ := h.endWriter (e := e) (c := c) mem
  obtain ⟨q, y, placed, map, wrote, count⟩ := endRepairs_oneSuppressed (u := s.orders) (r := r)
    (x := capAt (endedCap cap) os none k handed) (still.wf mem') (roomAt_wrote_nil still mem' (roomAt_ended mem full))
  obtain ⟨t, eq, -, shows_, kept, news⟩ := warmReset_of ready mem capture
    (by rw [ended, placed]; exact endMap_none (map.trans h.map)) (still.nil_trans wrote) fun r hr => by
      rw [List.mem_singleton.1 hr]
      exact .inl (by change slotBase cap.slot + 0x24 + 4 ≤ slotBase cap.slot + 0x64; omega)
  exact ⟨t, eq, shows_ _ _ count, kept, news⟩

end

end Sys2Proof.TransferMemory
end

section
/-! PROOFS. The clauses of a LOST record alone and of an open dropout alone at a warm reset (R100, R104, R190, R202). -/

namespace Sys2Proof.TransferMemory

open Machine Safety Laws

section

variable {s : State} {e c : Bool} {cap : Capture} {m : LaneMonitor} {n : Nat} {g : Group}

/-- Nothing is open but one group's LOST record. -/
theorem oneRecord_lost {r : LostRec} (quiet : ∀ g, SpansQuiet cap g) (due : cap.writer.closeDue = none) (monitor : cap.monitor = some m)
    (lost : (cap.writer.groups.get g).lost = some r)
    (open_ : NothingOpen (withOut cap g { cap.writer.groups.get g with lost := none })) : OneRecord cap m (lostRepair m.seq g r true) := by
  obtain ⟨lanes, map, excerpt, handed, holding, groups⟩ := open_
  obtain ⟨closed, dropouts⟩ := lanes m monitor
  have handed' : cap.writer.handed = [] := handed
  have holding' : cap.writer.holding = [] := holding
  have arriving : ∀ k, (cap.writer.groups.get k).arriving = [] := fun k => by
    have none_ := (groups k).1
    by_cases same : k = g
    · subst same
      rw [withOut, PerGroup.get_put_self] at none_
      exact none_
    · rw [withOut, get_put_of_ne _ same] at none_
      exact none_
  have others : ∀ k, k ≠ g → (cap.writer.groups.get k).lost = none := fun k ne => by
    have none_ := (groups k).2
    rw [withOut, get_put_of_ne _ ne] at none_
    exact none_
  have one : lostRecords cap.writer = [fun seq => lostRepair seq g r true] := by
    rw [lostRecords_groups]
    cases g with
    | a => rw [lost, others .b (by decide)]; rfl
    | b => rw [lost, others .a (by decide)]; rfl
  refine ⟨monitor, fun l y state some_ => absurd (dropouts l y state) some_, quiet, arriving, excerpt, map, due, ?_⟩
  rw [resetRecords, freshRecords, openRecords_quiet (openedIn_quiet dropouts), one, closed, handed', holding']
  rfl

/-- A LOST record closed at a reset while the list shows more outstanding than it holds (R190, R192, R202). -/
theorem warmReset_lost (ready : Ready s) (mem : MemoryCanonical s) (capture : s.capture = some cap) {r : LostRec}
    (quiet : ∀ g, SpansQuiet cap g) (due : cap.writer.closeDue = none) (monitor : cap.monitor = some m)
    (lost : (cap.writer.groups.get g).lost = some r)
    (open_ : NothingOpen (withOut cap g { cap.writer.groups.get g with lost := none })) :
    let base := slotBase cap.slot
    let w := cap.writer
    let l := w.repairList
    Outstanding s l n → l.capacity < n → 0 < l.capacity →
    ∃ t, exec (.warmReset e c) s = .next t ∧ Stored t (base + 0x24) 4 ∧
      Stored t (base + 0x28) (BitVec.ofNat 32 (flagBit w.faultMap + 2 + 4 * flagBit w.mapDropped)) ∧
      (∀ (i : Nat) (v : Word), (lostRepair m.seq g r true).words[i]? = some v →
        Stored t (l.header + 16 + 32 * (l.written.toNat % l.capacity) + 4 * i) v) ∧ Stored t (l.header + 4) (l.written + 1) ∧
      Stored t (base + 0x60) (BitVec.ofNat 32 (upTo 4294967295 w.repairWritten)) ∧
      MemoryKeptOutside s t [(base + 0x24, 8), (base + 0x60, 4),
        (l.header + 16 + 32 * (l.written.toNat % l.capacity), 32), (l.header + 4, 4)] ∧
      NewsOf t ((s.orders.setNews cap.slot .listFull).setNews cap.slot .repair) := by
  intro base w l room more pos
  obtain ⟨t, eq, reason, shown, kept, news⟩ := warmReset_onePlaced (e := e) (c := c) ready mem capture
    (oneRecord_lost quiet due monitor lost open_) room pos more.ne'
  rw [decide_eq_true more] at shown kept news
  refine ⟨t, eq, reason, shown.flags rfl, shown.words, shown.written, shown.count, fun a ha => kept a fun r hr => ?_, news⟩
  have first := ha (base + 0x24, 8) (by simp)
  simp only [oneRanges, if_true, List.cons_append, List.nil_append, List.mem_cons, List.not_mem_nil, or_false] at hr
  rcases hr with rfl | rfl | rfl | rfl | rfl
  · simp only at first ⊢
    omega
  · simp only at first ⊢
    omega
  · exact ha (nextPlace l 32, 32) (by simp [nextPlace])
  · exact ha (l.header + 4, 4) (by simp)
  · exact ha (base + 0x60, 4) (by simp)

/-! ## An open dropout -/

theorem filterMap_single {α β : Type} {f : α → Option β} {l : List α} {a : α} {b : β} (nodup : l.Nodup) (mem : a ∈ l) (some_ : f a = some b)
    (others : ∀ x ∈ l, x ≠ a → f x = none) : l.filterMap f = [b] := by
  induction l with
  | nil => cases mem
  | cons y l ih =>
    obtain ⟨fresh, nodup⟩ := List.nodup_cons.1 nodup
    by_cases same : y = a
    · subst same
      have rest : l.filterMap f = [] := List.filterMap_eq_nil_iff.2 fun x hx =>
        others x (List.mem_cons_of_mem _ hx) fun e => fresh (e ▸ hx)
      rw [List.filterMap_cons, some_, rest]
    · rw [List.filterMap_cons, others y List.mem_cons_self same]
      exact ih nodup ((List.mem_cons.1 mem).resolve_left (Ne.symm same)) fun x hx => others x (List.mem_cons_of_mem _ hx)

/-- Nothing is open but one lane's dropout. -/
theorem oneRecord_open (quiet : ∀ g, SpansQuiet cap g) {lane : LaneNo} {x : LaneState} {d : Dropout}
    (open_ : NothingOpen { cap with monitor := none }) (due : cap.writer.closeDue = none) (monitor : cap.monitor = some m)
    (closed : m.closed = []) (state : getAt m.lanes lane = some x) (dropout : x.dropout = some d) (run : x.run = none)
    (others : ∀ l y, l ≠ lane → getAt m.lanes l = some y → y.dropout = none) :
    OneRecord cap m (resetRecord (nextIndex cap) lane d m.seq) := by
  obtain ⟨-, map, excerpt, handed, holding, groups⟩ := open_
  have handed' : cap.writer.handed = [] := handed
  have holding' : cap.writer.holding = [] := holding
  have opened : openedIn m lane = some d := by
    rw [openedIn, state]
    exact dropout
  have shut : ∀ l, l ≠ lane → openedIn m l = none := fun l ne => by
    unfold openedIn
    cases there : getAt m.lanes l with
    | none => rfl
    | some y => exact others l y ne there
  have unrun : Unrun m := fun l y there some_ => by
    by_cases same : l = lane
    · subst same
      rw [state] at there
      exact Option.some.inj there ▸ run
    · exact absurd (others l y same there) some_
  have one : openRecords m (nextIndex cap) laneNos = [resetRecord (nextIndex cap) lane d] :=
    filterMap_single nodup_laneNos (mem_laneNos lane) (by rw [opened]; rfl) fun l _ ne => by rw [shut l ne]; rfl
  have none_ : lostRecords cap.writer = [] := by
    rw [lostRecords_groups, (groups .a).2, (groups .b).2]
    rfl
  refine ⟨monitor, unrun, quiet, fun g => (groups g).1, excerpt, map, due, ?_⟩
  rw [resetRecords, freshRecords, one, none_, closed, handed', holding']
  rfl

/-- An open dropout closed at a reset (R100, R104, R202). -/
theorem warmReset_open (ready : Ready s) (mem : MemoryCanonical s) (capture : s.capture = some cap) (quiet : ∀ g, SpansQuiet cap g)
    {lane : LaneNo} {x : LaneState} {d : Dropout} {r : Resampler}
    (open_ : NothingOpen { cap with monitor := none }) (due : cap.writer.closeDue = none) (monitor : cap.monitor = some m)
    (closed : m.closed = []) (state : getAt m.lanes lane = some x) (dropout : x.dropout = some d) (run : x.run = none)
    (others : ∀ l y, l ≠ lane → getAt m.lanes l = some y → y.dropout = none)
    (resampler : cap.resamplers.get (getAt cap.params.lanes lane).group = some r) :
    let base := slotBase cap.slot
    let w := cap.writer
    let l := w.repairList
    let first := d.firstOut.getD r.next
    let record : RepairRec :=
      { seq := m.seq, kind := d.kind, place := lane.val, minPresent := d.minPresent, cut := true, noExcerpt := d.noExcerpt
        absent := d.absent, first := BitVec.ofNat 32 first, length := min 4294967295 (r.next - first), block := d.block
        position := d.position, voidRuns := d.voidRuns, longest := d.longest, bridged := d.bridged }
    Outstanding s l n →
    (n < l.capacity → ∃ t, exec (.warmReset e c) s = .next t ∧ Stored t (base + 0x24) 4 ∧
      (∀ (i : Nat) (v : Word), record.words[i]? = some v →
        Stored t (l.header + 16 + 32 * (l.written.toNat % l.capacity) + 4 * i) v) ∧ Stored t (l.header + 4) (l.written + 1) ∧
      MemoryKeptOutside s t [(base + 0x24, 4), (base + 0x60, 4),
        (l.header + 16 + 32 * (l.written.toNat % l.capacity), 32), (l.header + 4, 4)] ∧
      NewsOf t (s.orders.setNews cap.slot .repair)) ∧
    (n = l.capacity → ∃ t, exec (.warmReset e c) s = .next t ∧
      Stored t (base + 0x64) (BitVec.ofNat 32 (min 4294967295 (w.suppressed + 1))) ∧
      MemoryKeptOutside s t [(base + 0x24, 4), (base + 0x64, 4)] ∧ NewsOf t s.orders) := by
  intro base w l first record room
  have next : nextIndex cap lane = r.next := by
    rw [nextIndex, resampler]
    rfl
  have same : resetRecord (nextIndex cap) lane d m.seq = record := by
    rw [resetRecord, next]
  have one : OneRecord cap m record := same ▸ oneRecord_open quiet open_ due monitor closed state dropout run others
  refine ⟨fun less => ?_, fun full => ?_⟩
  · obtain ⟨t, eq, reason, shown, kept, news⟩ := warmReset_onePlaced (e := e) (c := c) ready mem capture one room
      (Nat.zero_lt_of_lt less) less.ne
    rw [decide_eq_false (Nat.not_lt.2 less.le)] at kept news
    refine ⟨t, eq, reason, shown.words, shown.written, keptOutside_mono kept fun r hr => ?_, news⟩
    simp only [oneRanges, Bool.false_eq_true, if_false, List.nil_append, List.mem_cons, List.not_mem_nil, or_false] at hr ⊢
    rcases hr with rfl | rfl | rfl | rfl
    · exact .inl rfl
    · exact .inr (.inr (.inl rfl))
    · exact .inr (.inr (.inr rfl))
    · exact .inr (.inl rfl)
  · subst full
    exact warmReset_oneSuppressed ready mem capture one room

end

end Sys2Proof.TransferMemory
end

section
/-! PROOFS. The repair records and the speed map record of a warm reset, stage by stage (R193, R195, R196, R202). -/

namespace Sys2Proof.TransferMemory

open Machine Safety Laws

/-! ## The repair records -/

section

variable {p : Port} {u : OrderUnit} {x : Capture} {rs : List RepairRec} {n : Nat}

theorem repairPlace_inside {l : RecList} (pos : 0 < l.capacity) (i : Nat) : repairPlace l i + 32 ≤ l.header + (16 + 32 * l.capacity) := by
  have lt := Nat.mod_lt (l.written.toNat + i) pos
  change l.header + 16 + 32 * ((l.written.toNat + i) % l.capacity) + 32 ≤ _
  omega

/-- Placed repair records stay where the words of their list stay. -/
theorem RepairsIn.keeps {p q : Port} {l : RecList} (h : RepairsIn p l rs) (pos : 0 < l.capacity)
    (keeps : ∀ a v, l.header ≤ a → a + 4 ≤ l.header + (16 + 32 * l.capacity) → Holds p a v → Holds q a v) : RepairsIn q l rs := by
  refine ⟨fun i j r v hr hv => ?_, fun some_ => keeps _ _ (by omega) (by omega) (h.2 some_)⟩
  have bound : j < 8 := (List.getElem?_eq_some_iff.1 hv).1
  have low := repairPlace_le l i
  have high := repairPlace_inside pos i
  exact keeps _ _ (by omega) (by omega) (h.1 i j r v hr hv)

/-- The bytes that the repair records of a warm reset write. -/
def endRanges (n : SlotNo) (l : RecList) (count total : Nat) : List (Nat × Nat) :=
  repairRanges n l count ++ if count = total then [] else [(slotBase n + 0x64, 4)]

/-- What the repair records of a warm reset show, so many of them placed. -/
structure ShowsRepairs (q : Port) (n : SlotNo) (w : Writer) (rs : List RepairRec) (count : Nat) : Prop where
  placed : RepairsIn q w.repairList (rs.take count)
  written : 0 < count → Holds q (slotBase n + 0x60) (word (min 4294967295 (w.repairWritten + count)))
  suppressed : count < rs.length → Holds q (slotBase n + 0x64) (word (min 4294967295 (w.suppressed + (rs.length - count))))

/-- The records placed while there is room, those left suppressed (R196, R202). -/
theorem endRepairs_spec (mem : Memory.wf p.mem = true) (room : RoomAt p x.writer.repairList n) (within : n ≤ x.writer.repairList.capacity)
    (pos : 0 < x.writer.repairList.capacity) (small : x.writer.repairList.capacity ≤ 4096)
    (noWrap : x.writer.repairList.written.toNat + min rs.length (x.writer.repairList.capacity - n) < 4294967296)
    (written : x.writer.repairWritten ≤ 4294967295) :
    let count := min rs.length (x.writer.repairList.capacity - n)
    ∃ q y, Cx.endRepairs ⟨⟨p, u⟩, x⟩ rs = ⟨⟨q, if 0 < count then u.setNews x.slot .repair else u⟩, y⟩ ∧ KeepsMap x y ∧
      Wrote p q (endRanges x.slot x.writer.repairList count rs.length) ∧ ShowsRepairs q x.slot x.writer rs count := by
  intro count
  obtain ⟨q, placed, wrote, records, total⟩ := placeRepairs_spec rs (c := ⟨⟨p, u⟩, x⟩) mem room within small noWrap written
  have mem' := wrote.wf mem
  have most : count ≤ rs.length := Nat.min_le_left _ _
  have left : (rs.drop count).length = rs.length - count := List.length_drop
  have ended := endRepairs_of placed
  have low := slotBase_lt x.slot
  refine ⟨_, _, ended, ⟨rfl, rfl, rfl, rfl, rfl, rfl, rfl, rfl⟩, ?_, ?_⟩
  · by_cases all : count = rs.length
    · rw [if_pos (List.drop_eq_nil_of_le all.ge), endRanges, if_pos all, List.append_nil]
      exact wrote
    · rw [if_neg fun none_ => all (by rw [none_, List.length_nil] at left; omega), endRanges, if_neg all]
      exact wrote.store _ _
  · by_cases all : count = rs.length
    · rw [if_pos (List.drop_eq_nil_of_le all.ge)]
      exact ⟨records, total, fun less => absurd all less.ne⟩
    · rw [if_neg fun none_ => all (by rw [none_, List.length_nil] at left; omega)]
      have keeps : ∀ a v, a + 4 ≤ slotBase x.slot + 0x64 ∨ slotBase x.slot + 0x68 ≤ a → Holds q a v →
          Holds (q.store (slotBase x.slot + 0x64) (word (min 4294967295 (x.writer.suppressed + (rs.drop count).length)))) a v :=
        fun a v place ha => ha.store mem' (by simp only [Apart]; omega)
      have past : 0x2000 ≤ x.writer.repairList.header := room.1
      refine ⟨records.keeps pos fun a v above _ ha => keeps a v (.inr (by have high := past.trans above; omega)) ha, fun some_ => keeps _ _ (by omega) (total some_), fun _ => ?_⟩
      have counted := holds_store mem' (slotBase x.slot + 0x64) (word (min 4294967295 (x.writer.suppressed + (rs.drop count).length)))
      rw [left] at counted ⊢
      exact counted

end

/-! ## The speed map record -/

section

variable {p : Port} {u : OrderUnit} {x : Capture} {n : Nat}

/-- The bytes that the speed map record of a warm reset writes. -/
def lastRanges (n : SlotNo) (w : Writer) (k : Nat) : List (Nat × Nat) :=
  if w.map = none then [] else if k = w.mapList.capacity then [(slotBase n + 0x28, 4)] else mapRanges n w.mapList false

/-- The news of the speed map record of a warm reset. -/
def lastNews (u : OrderUnit) (n : SlotNo) (w : Writer) (k : Nat) : OrderUnit :=
  if w.map.isSome ∧ k < w.mapList.capacity then dueNews (u.setNews n .speedMap) n w.closeDue else u

theorem endMap_placed {m : MapRec} (mem : Memory.wf p.mem = true) (map : x.writer.map = some m) (room : RoomAt p x.writer.mapList n)
    (less : n < x.writer.mapList.capacity) :
    ∃ q y, Cx.endMap ⟨⟨p, u⟩, x⟩ = ⟨⟨q, dueNews (u.setNews x.slot .speedMap) x.slot x.writer.closeDue⟩, y⟩ ∧
      Wrote p q (mapRanges x.slot x.writer.mapList false) ∧ ShowsMap q x.slot x.writer m false := by
  obtain ⟨k, some_, asked⟩ := room_places (c := ⟨⟨p, u⟩, x⟩) (id := .map) room (Nat.zero_lt_of_lt less) less.ne
  rw [decide_eq_false (show ¬ ((Cx.mk ⟨p, u⟩ x).cap.writer.list .map).capacity < n from Nat.not_lt.2 less.le)] at asked
  obtain ⟨q, written, wrote, shown⟩ := writeMap_roomed (u := u) mem room.1 false m
  have due := closeDue_roomed ⟨⟨p, u⟩, x⟩ .map false
  refine ⟨q, mappedCap x false, (endMap_writes map asked some_).trans ?_, wrote, shown⟩
  rw [due, written]
  unfold dueNews
  by_cases cue : x.writer.closeDue = some true
  · rw [if_pos cue, if_pos cue]
    rfl
  · rw [if_neg cue, if_neg cue]
    rfl

/-- The speed map record placed or dropped (R195, R202). -/
theorem endMap_spec (mem : Memory.wf p.mem = true) (room : RoomAt p x.writer.mapList n) (within : n ≤ x.writer.mapList.capacity) :
    ∃ q y, Cx.endMap ⟨⟨p, u⟩, x⟩ = ⟨⟨q, lastNews u x.slot x.writer n⟩, y⟩ ∧ Wrote p q (lastRanges x.slot x.writer n) ∧
      (∀ m, x.writer.map = some m → n < x.writer.mapList.capacity → ShowsMap q x.slot x.writer m false) ∧
      (x.writer.map ≠ none → n = x.writer.mapList.capacity → Holds q (slotBase x.slot + 0x28) (droppedFlags x.writer)) := by
  by_cases none_ : x.writer.map = none
  · refine ⟨p, x, ?_, ?_, fun m some_ => absurd (none_.symm.trans some_) (Option.some_ne_none m).symm, fun some_ => absurd none_ some_⟩
    · rw [endMap_none none_, lastNews, if_neg (by rw [none_]; simp)]
    · rw [lastRanges, if_pos none_]
      exact .refl p
  · obtain ⟨m, map⟩ := Option.ne_none_iff_exists'.1 none_
    rcases Nat.lt_or_ge n x.writer.mapList.capacity with less | full
    · obtain ⟨q, y, ended, wrote, shown⟩ := endMap_placed (u := u) mem map room less
      refine ⟨q, y, ?_, ?_, fun m' same _ => ?_, fun _ same => absurd same less.ne⟩
      · rw [ended, lastNews, if_pos ⟨by rw [map]; rfl, less⟩]
      · rw [lastRanges, if_neg none_, if_neg less.ne]
        exact wrote
      · rw [map] at same
        obtain rfl := Option.some.inj same
        exact shown
    · have same : n = x.writer.mapList.capacity := Nat.le_antisymm within full
      have dropped := endMap_drops (c := ⟨⟨p, u⟩, x⟩) map (same ▸ room)
      have told : lastNews u x.slot x.writer n = u := if_neg fun both => absurd same both.2.ne
      rw [told]
      refine ⟨_, _, dropped, ?_, fun _ _ less => absurd same less.ne, fun _ _ => holds_store mem _ _⟩
      rw [lastRanges, if_neg none_, if_pos same]
      exact wrote_store p (slotBase x.slot + 0x28) (droppedFlags x.writer)

end

end Sys2Proof.TransferMemory
end

section
/-! PROOFS. A warm reset of everything a capture holds: the stages together (R182, R196, R202). -/

namespace Sys2Proof.TransferMemory

open Machine Safety Laws

/-! ## Where the lists lie -/

/-- The bytes of the repair list. -/
def repairRegion (w : Writer) : Nat × Nat := (w.repairList.header, 16 + 32 * w.repairList.capacity)

/-- The bytes of the speed map list. -/
def mapRegion (w : Writer) : Nat × Nat := (w.mapList.header, 16 + 64 * w.mapList.capacity)

/-- The lists share no byte with each other, the order table, the FILLING spans and the open excerpt. -/
structure Laid (cap : Capture) : Prop where
  repairs : 0x2000 ≤ cap.writer.repairList.header
  maps : 0x2000 ≤ cap.writer.mapList.header
  lists : Apart (repairRegion cap.writer) (mapRegion cap.writer)
  span : ∀ g, (cap.writer.groups.get g).filling ≠ none →
    Apart (repairRegion cap.writer) ((cursorSpan (cap.writer.groups.get g)).addr, 32) ∧
    Apart (mapRegion cap.writer) ((cursorSpan (cap.writer.groups.get g)).addr, 32)
  excerpt : ∀ e, cap.writer.excerpt = some e →
    (Apart (repairRegion cap.writer) (e.span.addr, 32) ∧ Apart (repairRegion cap.writer) (e.span.buffer, 64)) ∧
    Apart (mapRegion cap.writer) (e.span.addr, 32) ∧ Apart (mapRegion cap.writer) (e.span.buffer, 64)

/-- One range lies in another. -/
def Within (r s : Nat × Nat) : Prop := s.1 ≤ r.1 ∧ r.1 + r.2 ≤ s.1 + s.2

/-- Where the records write: in the lists, and in the progress words before the counts of lost frames. -/
def Late (cap : Capture) (r : Nat × Nat) : Prop :=
  Within r (repairRegion cap.writer) ∨ Within r (mapRegion cap.writer) ∨
    (slotBase cap.slot + 0x28 ≤ r.1 ∧ r.1 + r.2 ≤ slotBase cap.slot + 0x68)

section

variable {cap : Capture} {r : Nat × Nat} {a count total n : Nat}

theorem endRanges_within (pos : 0 < cap.writer.repairList.capacity) (h : r ∈ endRanges cap.slot cap.writer.repairList count total) :
    Within r (repairRegion cap.writer) ∨ (slotBase cap.slot + 0x60 ≤ r.1 ∧ r.1 + r.2 ≤ slotBase cap.slot + 0x68) := by
  rcases List.mem_append.1 h with h | h
  · rcases mem_repairRanges h with rfl | rfl | ⟨i, -, rfl⟩
    · exact .inr ⟨Nat.le_refl _, by simp only; omega⟩
    · exact .inl ⟨by simp only [repairRegion]; omega, by simp only [repairRegion]; omega⟩
    · have low := repairPlace_le cap.writer.repairList i
      have high := repairPlace_inside pos i
      exact .inl ⟨by simp only [repairRegion]; omega, by simp only [repairRegion]; omega⟩
  · split at h
    · cases h
    · rw [List.mem_singleton.1 h]
      exact .inr ⟨by simp only; omega, by simp only; omega⟩

theorem lastRanges_within (pos : 0 < cap.writer.mapList.capacity) (h : r ∈ lastRanges cap.slot cap.writer n) :
    Within r (mapRegion cap.writer) ∨ (slotBase cap.slot + 0x28 ≤ r.1 ∧ r.1 + r.2 ≤ slotBase cap.slot + 0x60) := by
  unfold lastRanges at h
  split at h
  · cases h
  · split at h
    · rw [List.mem_singleton.1 h]
      exact .inr ⟨Nat.le_refl _, by simp only; omega⟩
    · have lt := Nat.mod_lt cap.writer.mapList.written.toNat pos
      simp only [mapRanges, Bool.false_eq_true, if_false, List.nil_append, List.mem_cons, List.not_mem_nil, or_false] at h
      rcases h with rfl | rfl | rfl
      · exact .inl ⟨by simp only [mapRegion, nextPlace]; omega, by simp only [mapRegion, nextPlace]; omega⟩
      · exact .inl ⟨by simp only [mapRegion]; omega, by simp only [mapRegion]; omega⟩
      · exact .inr ⟨by simp only; omega, by simp only; omega⟩

theorem endRanges_late (pos : 0 < cap.writer.repairList.capacity) (h : r ∈ endRanges cap.slot cap.writer.repairList count total) :
    Late cap r := (endRanges_within pos h).imp_right fun both => .inr ⟨by omega, both.2⟩

theorem lastRanges_late (pos : 0 < cap.writer.mapList.capacity) (h : r ∈ lastRanges cap.slot cap.writer n) : Late cap r :=
  .inr ((lastRanges_within pos h).imp_right fun both => ⟨both.1, by omega⟩)

/-- A word of the counts of lost frames stays while the records are written. -/
theorem Late.apart_lost (late : Late cap r) (laid : Laid cap) (g : Group) : Apart (lostWord cap g, 4) r := by
  have bounds := lostWord_bounds cap g
  have repairs := laid.repairs
  have maps := laid.maps
  simp only [Late, Within, repairRegion, mapRegion] at late
  simp only [Apart]
  omega

/-- A word past the order table and apart from the lists stays while the records are written. -/
theorem Late.apart_word (late : Late cap r) (past : 0x2000 ≤ a) (repairs : Apart (repairRegion cap.writer) (a, 4))
    (maps : Apart (mapRegion cap.writer) (a, 4)) : Apart (a, 4) r := by
  have low := slotBase_lt cap.slot
  simp only [Late, Within, repairRegion, mapRegion] at late
  simp only [Apart, repairRegion, mapRegion] at repairs maps ⊢
  omega

theorem apart_part {region : Nat × Nat} {b size : Nat} (apart : Apart region (b, size)) (inside : b ≤ a ∧ a + 4 ≤ b + size) :
    Apart region (a, 4) := by
  simp only [Apart] at apart ⊢
  omega

/-- What spans, excerpt and counts show stays while the records are written. -/
theorem Closed.keeps {p p' q : Port} {m : LaneMonitor} {R : List (Nat × Nat)} (h : Closed p cap cap.writer.groups (markedExcerpt cap m))
    (closable : Closable p' cap.writer.groups cap.writer.excerpt) (laid : Laid cap) (mem : Memory.wf p.mem = true) (wrote : Wrote p q R)
    (late : ∀ r ∈ R, Late cap r) : Closed q cap cap.writer.groups (markedExcerpt cap m) := by
  refine ⟨fun g sp filling => ?_, fun g some_ => ?_, fun e he => ?_⟩
  · have some_ : (cap.writer.groups.get g).filling ≠ none := by rw [filling]; exact Option.some_ne_none sp
    have past := (closable.span g some_).1
    obtain ⟨repairs, maps⟩ := laid.span g some_
    have keeps : ∀ k ≤ 28, ∀ v, Holds p ((cursorSpan (cap.writer.groups.get g)).addr + k) v →
        Holds q ((cursorSpan (cap.writer.groups.get g)).addr + k) v := fun k hk v hv => wrote.holds mem hv fun r hr =>
      (late r hr).apart_word (by omega) (apart_part repairs (by omega)) (apart_part maps (by omega))
    obtain ⟨state, flags⟩ := h.span g sp filling
    exact ⟨keeps 0 (by decide) _ state, keeps 0x1C (by decide) _ flags⟩
  · exact wrote.holds mem (h.lost g some_) fun r hr => (late r hr).apart_lost laid g
  · obtain ⟨y, hy, rfl⟩ := Option.map_eq_some_iff.1 he
    obtain ⟨past, past', -, -⟩ := closable.excerpt y hy
    obtain ⟨⟨repairs, repairs'⟩, maps, maps'⟩ := laid.excerpt y hy
    obtain ⟨state, fill, flags, header⟩ := h.excerpt _ he
    rw [markExcerpts_span] at state fill flags header ⊢
    have keeps : ∀ k ≤ 28, ∀ v, Holds p (y.span.addr + k) v → Holds q (y.span.addr + k) v := fun k hk v hv =>
      wrote.holds mem hv fun r hr => (late r hr).apart_word (by omega) (apart_part repairs (by omega)) (apart_part maps (by omega))
    refine ⟨keeps 0 (by decide) _ state, keeps 0x0C (by decide) _ fill, keeps 0x1C (by decide) _ flags, fun i v hi => ?_⟩
    have bound := (List.getElem?_eq_some_iff.1 hi).1
    rw [length_header] at bound
    exact wrote.holds mem (header i v hi) fun r hr =>
      (late r hr).apart_word (by omega) (apart_part repairs' (by omega)) (apart_part maps' (by omega))

/-- The words of the lists stay while spans, excerpt and counts are written. -/
theorem Laid.apart_close (laid : Laid cap)
    (inside : Within (a, 4) (repairRegion cap.writer) ∨ Within (a, 4) (mapRegion cap.writer)) :
    ∀ r ∈ closeRanges cap cap.writer.groups cap.writer.excerpt, Apart (a, 4) r := by
  intro r hr
  have low := slotBase_lt cap.slot
  have repairs := laid.repairs
  have maps := laid.maps
  simp only [Within, repairRegion, mapRegion] at inside
  rcases mem_closeRanges hr with ⟨g, hg⟩ | ⟨g, hg⟩ | he
  · obtain ⟨filling, above, below⟩ := mem_cutRanges hg
    have apart := laid.span g filling
    simp only [Apart, repairRegion, mapRegion] at apart ⊢
    omega
  · have bounds := lostWord_bounds cap g
    rw [(mem_lostRanges hg).2]
    simp only [Apart]
    omega
  · obtain ⟨e, he, place⟩ := mem_excerptRanges he
    have apart := laid.excerpt e he
    simp only [Apart, repairRegion, mapRegion] at apart ⊢
    omega

end

/-! ## The stages together -/

/-- The lists as the records of a warm reset find them: so many records outstanding, no count wrapping. -/
structure Lists (p : Port) (w : Writer) (total n k : Nat) : Prop where
  room : RoomAt p w.repairList n
  within : n ≤ w.repairList.capacity
  pos : 0 < w.repairList.capacity
  small : w.repairList.capacity ≤ 4096
  noWrap : w.repairList.written.toNat + min total (w.repairList.capacity - n) < 4294967296
  written : w.repairWritten ≤ 4294967295
  roomMap : RoomAt p w.mapList k
  withinMap : k ≤ w.mapList.capacity
  posMap : 0 < w.mapList.capacity

/-- What the speed map record of a warm reset shows. -/
structure ShowsLast (q : Port) (n : SlotNo) (w : Writer) (k : Nat) : Prop where
  placed : ∀ m, w.map = some m → k < w.mapList.capacity → ShowsMap q n w m false
  dropped : w.map ≠ none → k = w.mapList.capacity → Holds q (slotBase n + 0x28) (droppedFlags w)

section

variable {p q : Port} {u : OrderUnit} {cap : Capture} {m : LaneMonitor} {n k total count : Nat} {rs : List RepairRec}

/-- What the repair records show stays while the speed map record is written. -/
theorem ShowsRepairs.keeps (h : ShowsRepairs p cap.slot cap.writer rs count) (laid : Laid cap) (mem : Memory.wf p.mem = true)
    (pos : 0 < cap.writer.repairList.capacity) (posMap : 0 < cap.writer.mapList.capacity)
    (wrote : Wrote p q (lastRanges cap.slot cap.writer k)) : ShowsRepairs q cap.slot cap.writer rs count := by
  have low := slotBase_lt cap.slot
  have repairs := laid.repairs
  have maps := laid.maps
  have word_ : ∀ a, slotBase cap.slot + 0x60 ≤ a → a + 4 ≤ slotBase cap.slot + 0x68 → ∀ v, Holds p a v → Holds q a v :=
    fun a above below v hv => wrote.holds mem hv fun r hr => by
      have inside := lastRanges_within posMap hr
      simp only [Within, mapRegion] at inside
      simp only [Apart]
      omega
  refine ⟨h.placed.keeps pos fun a v above below hv => wrote.holds mem hv fun r hr => ?_,
    fun some_ => word_ _ (Nat.le_refl _) (by omega) _ (h.written some_), fun some_ => word_ _ (by omega) (Nat.le_refl _) _ (h.suppressed some_)⟩
  have inside := lastRanges_within posMap hr
  have lists := laid.lists
  simp only [Within, mapRegion] at inside
  simp only [Apart, repairRegion, mapRegion] at lists ⊢
  omega

theorem RoomAt.afterClose {l : RecList} {j : Nat} (room : RoomAt p l j) (mem : Memory.wf p.mem = true) (laid : Laid cap)
    (wrote : Wrote p q (closeRanges cap cap.writer.groups cap.writer.excerpt))
    (inside : Within (l.header + 8, 4) (repairRegion cap.writer) ∨ Within (l.header + 8, 4) (mapRegion cap.writer)) : RoomAt q l j :=
  wrote.roomAt mem room (laid.apart_close inside)

theorem Lists.afterClose (h : Lists p cap.writer total n k) (mem : Memory.wf p.mem = true) (laid : Laid cap)
    (wrote : Wrote p q (closeRanges cap cap.writer.groups cap.writer.excerpt)) : Lists q cap.writer total n k := by
  refine ⟨h.room.afterClose mem laid wrote (.inl ⟨?_, ?_⟩), h.within, h.pos, h.small, h.noWrap, h.written,
    h.roomMap.afterClose mem laid wrote (.inr ⟨?_, ?_⟩), h.withinMap, h.posMap⟩ <;> simp only [repairRegion, mapRegion] <;> omega

/-- The speed map list is as it was once the repair records are written. -/
theorem Lists.roomMap_afterRepairs (h : Lists p cap.writer total n k) (mem : Memory.wf p.mem = true) (laid : Laid cap)
    (wrote : Wrote p q (endRanges cap.slot cap.writer.repairList count total)) : RoomAt q cap.writer.mapList k :=
  wrote.roomAt mem h.roomMap fun r hr => by
    have low := slotBase_lt cap.slot
    have maps := laid.maps
    have lists := laid.lists
    have inside := endRanges_within h.pos hr
    simp only [Within, repairRegion] at inside
    simp only [Apart, repairRegion, mapRegion] at lists ⊢
    omega

theorem KeepsMap.last {x y : Capture} (h : KeepsMap x y) (u : OrderUnit) (k : Nat) :
    lastNews u y.slot y.writer k = lastNews u x.slot x.writer k ∧ lastRanges y.slot y.writer k = lastRanges x.slot x.writer k := by
  simp only [lastNews, lastRanges, h.slot, h.map, h.mapList, h.closeDue, and_self]

theorem KeepsMap.showsLast {x y : Capture} (h : KeepsMap x y) (shown : ShowsLast q y.slot y.writer k) : ShowsLast q x.slot x.writer k := by
  obtain ⟨placed, dropped⟩ := shown
  refine ⟨fun m map less => h.shows (placed m (h.map.trans map) (by rw [h.mapList]; exact less)), fun some_ full => ?_⟩
  have flags := dropped (by rw [h.map]; exact some_) (by rw [h.mapList]; exact full)
  rw [droppedFlags, h.slot, h.faultMap, h.faultRepair] at flags
  exact flags

/-- The news of a warm reset of a capture. -/
def resetNews (u : OrderUnit) (cap : Capture) (count k : Nat) : OrderUnit :=
  let closed := closeNews u cap.slot cap.writer.groups cap.writer.excerpt
  lastNews (if 0 < count then closed.setNews cap.slot .repair else closed) cap.slot cap.writer k

/-- The work of a warm reset after the speed map's close, with no frame on its way (R182, R196, R202). -/
theorem endWriter_spec (mem : Memory.wf p.mem = true) (still : ∀ g, Still (cap.writer.groups.get g)) (monitor : cap.monitor = some m)
    (unrun : Unrun m) (closable : Closable p cap.writer.groups cap.writer.excerpt) (laid : Laid cap)
    (sorted : ((resetRecords cap m).map (·.seq)).Pairwise (· < ·)) (lists : Lists p cap.writer (resetRecords cap m).length n k) :
    let count := min (resetRecords cap m).length (cap.writer.repairList.capacity - n)
    ∃ q y, endWriter ⟨⟨p, u⟩, cap⟩ = ⟨⟨q, resetNews u cap count k⟩, y⟩ ∧
      Wrote p q (closeRanges cap cap.writer.groups cap.writer.excerpt ++
        (endRanges cap.slot cap.writer.repairList count (resetRecords cap m).length ++ lastRanges cap.slot cap.writer k)) ∧
      Closed q cap cap.writer.groups (markedExcerpt cap m) ∧ ShowsRepairs q cap.slot cap.writer (resetRecords cap m) count ∧
      ShowsLast q cap.slot cap.writer k := by
  intro count
  obtain ⟨q₁, os, n', handed, ended, wrote₁, shown₁⟩ := endWriter_records (u := u) mem still monitor unrun closable sorted
  have mem₁ := wrote₁.wf mem
  have lists₁ := lists.afterClose mem laid wrote₁
  obtain ⟨q₂, x, repaired, keeps, wrote₂, shown₂⟩ := endRepairs_spec
    (u := closeNews u cap.slot cap.writer.groups cap.writer.excerpt) (x := capAt cap os none n' handed) (rs := resetRecords cap m) mem₁ lists₁.room
    lists.within lists.pos lists.small lists.noWrap lists.written
  have keeps' : KeepsMap cap x := ⟨keeps.slot, keeps.map, keeps.mapList, keeps.mapWritten, keeps.closeDue, keeps.faultMap,
    keeps.faultRepair, keeps.mapDropped⟩
  have wrote₂' : Wrote q₁ q₂ (endRanges cap.slot cap.writer.repairList count (resetRecords cap m).length) := wrote₂
  have shown₂' : ShowsRepairs q₂ cap.slot cap.writer (resetRecords cap m) count := ⟨shown₂.placed, shown₂.written, shown₂.suppressed⟩
  have mem₂ := wrote₂'.wf mem₁
  have roomMap := lists₁.roomMap_afterRepairs mem₁ laid wrote₂'
  obtain ⟨q, y, mapped, wrote₃, placed, dropped⟩ := endMap_spec
    (u := if 0 < count then (closeNews u cap.slot cap.writer.groups cap.writer.excerpt).setNews cap.slot .repair
      else closeNews u cap.slot cap.writer.groups cap.writer.excerpt) (x := x) (n := k) mem₂ (by rw [keeps'.mapList]; exact roomMap)
    (by rw [keeps'.mapList]; exact lists.withinMap)
  obtain ⟨news, ranges⟩ := keeps'.last (if 0 < count then (closeNews u cap.slot cap.writer.groups cap.writer.excerpt).setNews cap.slot .repair
      else closeNews u cap.slot cap.writer.groups cap.writer.excerpt) k
  rw [ranges] at wrote₃
  rw [news] at mapped
  have late : ∀ r ∈ endRanges cap.slot cap.writer.repairList count (resetRecords cap m).length ++ lastRanges cap.slot cap.writer k,
      Late cap r := fun r hr => (List.mem_append.1 hr).elim (endRanges_late lists.pos) (lastRanges_late lists.posMap)
  refine ⟨q, y, ?_, wrote₁.trans (wrote₂'.trans wrote₃), shown₁.keeps closable laid mem₁ (wrote₂'.trans wrote₃) late,
    shown₂'.keeps laid mem₂ lists.pos lists.posMap wrote₃, keeps'.showsLast ⟨placed, dropped⟩⟩
  exact (ended.trans (congrArg Cx.endMap repaired)).trans mapped

end

end Sys2Proof.TransferMemory
end

section
/-! PROOFS. A warm reset of everything a capture holds, as one action (R182, R196, R202). -/

namespace Sys2Proof.TransferMemory

open Machine Safety Laws

section

variable {s : State} {e c : Bool} {cap : Capture} {m : LaneMonitor} {n k : Nat}

/-- A close that has come due waits for the open excerpt. -/
def CloseWaits (w : Writer) : Prop := w.closeDue ≠ none → ∃ f x, w.closeAfter = some f ∧ w.excerpt = some x ∧ x.nextIdx ≤ f

theorem closeMap_of_waits {d : Cx} (h : CloseWaits d.cap.writer) : d.closeMap = d := by
  unfold Cx.closeMap
  cases due : d.cap.writer.closeDue with
  | none => rfl
  | some cue =>
    obtain ⟨f, x, after, excerpt, behind⟩ := h (by rw [due]; exact Option.some_ne_none cue)
    have waits : d.cap.writer.closeWaits = true := by
      unfold Writer.closeWaits
      rw [due, after, excerpt]
      exact decide_eq_true behind
    exact if_pos waits

theorem Lists.ended {total : Nat} (h : Lists s.port cap.writer total n k) (mem : MemoryCanonical s) (e c : Bool) :
    Lists (endedPort s e c cap) cap.writer total n k :=
  ⟨roomAt_ended mem h.room, h.within, h.pos, h.small, h.noWrap, h.written, roomAt_ended mem h.roomMap, h.withinMap, h.posMap⟩

theorem ShowsRepairs.mono {p q : Port} {w : Writer} {i : SlotNo} {rs : List RepairRec} {count : Nat} (h : ShowsRepairs p i w rs count)
    (keeps : ∀ a v, Holds p a v → Holds q a v) : ShowsRepairs q i w rs count :=
  ⟨⟨fun i j r v hr hv => keeps _ _ (h.placed.1 i j r v hr hv), fun some_ => keeps _ _ (h.placed.2 some_)⟩,
    fun some_ => keeps _ _ (h.written some_), fun some_ => keeps _ _ (h.suppressed some_)⟩

theorem ShowsLast.mono {p q : Port} {w : Writer} {i : SlotNo} (h : ShowsLast p i w k) (keeps : ∀ a v, Holds p a v → Holds q a v) :
    ShowsLast q i w k :=
  ⟨fun m map less => (h.placed m map less).mono keeps, fun some_ full => keeps _ _ (h.dropped some_ full)⟩

/-- The progress word of the end reason stays while the records are written. -/
theorem Late.apart_reason {r : Nat × Nat} (late : Late cap r) (laid : Laid cap) : Apart (slotBase cap.slot + 0x24, 4) r := by
  have low := slotBase_lt cap.slot
  have repairs := laid.repairs
  have maps := laid.maps
  simp only [Late, Within, repairRegion, mapRegion] at late
  simp only [Apart]
  omega

/-- What a warm reset shows of everything a capture holds, with no frame on its way (R182, R196, R202). -/
theorem warmReset_everything (ready : Ready s) (mem : MemoryCanonical s) (capture : s.capture = some cap) (monitor : cap.monitor = some m)
    (waits : CloseWaits cap.writer) (still : ∀ g, Still (cap.writer.groups.get g)) (unrun : Unrun m)
    (closable : Closable s.port cap.writer.groups cap.writer.excerpt) (laid : Laid cap)
    (sorted : ((resetRecords cap m).map (·.seq)).Pairwise (· < ·)) (lists : Lists s.port cap.writer (resetRecords cap m).length n k) :
    let total := (resetRecords cap m).length
    let count := min total (cap.writer.repairList.capacity - n)
    ∃ t, exec (.warmReset e c) s = .next t ∧ Stored t (slotBase cap.slot + 0x24) 4 ∧
      Closed t.port cap cap.writer.groups (markedExcerpt cap m) ∧ ShowsRepairs t.port cap.slot cap.writer (resetRecords cap m) count ∧
      ShowsLast t.port cap.slot cap.writer k ∧
      MemoryKeptOutside s t ((slotBase cap.slot + 0x24, 4) :: (closeRanges cap cap.writer.groups cap.writer.excerpt ++
        (endRanges cap.slot cap.writer.repairList count total ++ lastRanges cap.slot cap.writer k))) ∧
      NewsOf t (resetNews s.orders cap count k) := by
  intro total count
  have closable' : Closable (endedPort s e c cap) cap.writer.groups cap.writer.excerpt := closable.ended mem e c cap
  have laid' : Laid (endedCap cap) := ⟨laid.repairs, laid.maps, laid.lists, laid.span, laid.excerpt⟩
  obtain ⟨q, y, ends, wrote, closed, repairs, last⟩ := endWriter_spec (u := s.orders) (cap := endedCap cap) (endedPort_wf mem) still
    monitor unrun closable' laid' sorted (lists.ended mem e c)
  have closed' : Closed q cap cap.writer.groups (markedExcerpt cap m) := ⟨closed.span, closed.lost, closed.excerpt⟩
  have repairs' : ShowsRepairs q cap.slot cap.writer (resetRecords cap m) count := ⟨repairs.placed, repairs.written, repairs.suppressed⟩
  have last' : ShowsLast q cap.slot cap.writer k := ⟨last.placed, last.dropped⟩
  obtain ⟨t, eq, reason, shows_, kept, news⟩ := warmReset_of (e := e) (c := c) ready mem capture
    ((congrArg Sys2Proof.TransferMemory.endWriter (closeMap_of_waits (d := ⟨⟨endedPort s e c cap, s.orders⟩, endedCap cap⟩) waits)).trans
      ends) wrote fun r hr => by
    rcases List.mem_append.1 hr with hr | hr
    · exact closeRanges_apart closable' cap (by omega) r hr
    · have late : Late cap r := (List.mem_append.1 hr).elim (endRanges_late lists.pos) (lastRanges_late lists.posMap)
      exact late.apart_reason laid
  exact ⟨t, eq, reason, closed'.mono shows_, repairs'.mono shows_, last'.mono shows_, kept, news⟩

end

end Sys2Proof.TransferMemory
end

section
/-! PROOFS. The regions, the records, the ranges and the news of a full warm reset as its statement writes them (R202). -/

namespace Sys2Proof.TransferMemory

open Machine Safety Laws

/-! ## Regions apart -/

/-- The regions of a capture: its lists, its FILLING spans, its open excerpt. -/
def heldRegions (cap : Capture) : List (Nat × Nat) :=
  [repairRegion cap.writer, mapRegion cap.writer] ++
    ([Group.a, Group.b].filterMap fun g => (cap.writer.groups.get g).filling.map fun _ =>
      ((cursorSpan (cap.writer.groups.get g)).addr, 32)) ++
    cap.writer.excerpt.toList.flatMap fun (x : Excerpt) => [(x.span.addr, 32), (x.span.buffer, 64)]

section

variable {s : State} {cap : Capture}

theorem mem_spanRegions {g : Group} (filling : (cap.writer.groups.get g).filling ≠ none) :
    ((cursorSpan (cap.writer.groups.get g)).addr, 32) ∈ [Group.a, Group.b].filterMap fun g =>
      (cap.writer.groups.get g).filling.map fun _ => ((cursorSpan (cap.writer.groups.get g)).addr, 32) := by
  obtain ⟨sp, some_⟩ := Option.ne_none_iff_exists'.1 filling
  exact List.mem_filterMap.2 ⟨g, by cases g <;> simp, by rw [some_]; rfl⟩

theorem mem_excerptRegions {e : Excerpt} (excerpt : cap.writer.excerpt = some e) :
    (e.span.addr, 32) ∈ cap.writer.excerpt.toList.flatMap (fun (x : Excerpt) => [(x.span.addr, 32), (x.span.buffer, 64)]) ∧
    (e.span.buffer, 64) ∈ cap.writer.excerpt.toList.flatMap fun (x : Excerpt) => [(x.span.addr, 32), (x.span.buffer, 64)] := by
  rw [excerpt]
  simp

/-- Regions that share no byte, as the stages need it. -/
theorem regions_spec (apart : (heldRegions cap).Pairwise Apart) :
    Apart (repairRegion cap.writer) (mapRegion cap.writer) ∧
    (∀ g, (cap.writer.groups.get g).filling ≠ none →
      Apart (repairRegion cap.writer) ((cursorSpan (cap.writer.groups.get g)).addr, 32) ∧
      Apart (mapRegion cap.writer) ((cursorSpan (cap.writer.groups.get g)).addr, 32)) ∧
    (∀ e, cap.writer.excerpt = some e →
      (Apart (repairRegion cap.writer) (e.span.addr, 32) ∧ Apart (repairRegion cap.writer) (e.span.buffer, 64)) ∧
      Apart (mapRegion cap.writer) (e.span.addr, 32) ∧ Apart (mapRegion cap.writer) (e.span.buffer, 64)) ∧
    (cap.writer.groups.a.filling ≠ none → cap.writer.groups.b.filling ≠ none →
      Apart ((cursorSpan cap.writer.groups.a).addr, 32) ((cursorSpan cap.writer.groups.b).addr, 32)) ∧
    (∀ e, cap.writer.excerpt = some e → Apart (e.span.addr, 32) (e.span.buffer, 64)) ∧
    ∀ g e, (cap.writer.groups.get g).filling ≠ none → cap.writer.excerpt = some e →
      Apart ((cursorSpan (cap.writer.groups.get g)).addr, 32) (e.span.addr, 32) ∧
      Apart ((cursorSpan (cap.writer.groups.get g)).addr, 32) (e.span.buffer, 64) := by
  unfold heldRegions at apart
  obtain ⟨front, excerpts, across⟩ := List.pairwise_append.1 apart
  obtain ⟨lists, spans, beside⟩ := List.pairwise_append.1 front
  refine ⟨List.rel_of_pairwise_cons lists (List.mem_singleton.2 rfl), fun g filling => ?_, fun e he => ?_, fun a b => ?_, fun e he => ?_,
    fun g e filling he => ?_⟩
  · exact ⟨beside _ (by simp) _ (mem_spanRegions filling), beside _ (by simp) _ (mem_spanRegions filling)⟩
  · obtain ⟨addr, buffer⟩ := mem_excerptRegions he
    exact ⟨⟨across _ (by simp) _ addr, across _ (by simp) _ buffer⟩, across _ (by simp) _ addr, across _ (by simp) _ buffer⟩
  · obtain ⟨x, ha⟩ := Option.ne_none_iff_exists'.1 a
    obtain ⟨y, hb⟩ := Option.ne_none_iff_exists'.1 b
    have both : ([Group.a, Group.b].filterMap fun g => (cap.writer.groups.get g).filling.map fun _ =>
        ((cursorSpan (cap.writer.groups.get g)).addr, 32)) =
        [((cursorSpan cap.writer.groups.a).addr, 32), ((cursorSpan cap.writer.groups.b).addr, 32)] := by
      rw [List.filterMap_cons, List.filterMap_cons, show (cap.writer.groups.get .a).filling = some x from ha,
        show (cap.writer.groups.get .b).filling = some y from hb]
      rfl
    rw [both] at spans
    exact List.rel_of_pairwise_cons spans (List.mem_singleton.2 rfl)
  · rw [he] at excerpts
    exact List.rel_of_pairwise_cons excerpts (by simp)
  · obtain ⟨addr, buffer⟩ := mem_excerptRegions he
    exact ⟨across _ (List.mem_append_right _ (mem_spanRegions filling)) _ addr,
      across _ (List.mem_append_right _ (mem_spanRegions filling)) _ buffer⟩

theorem laid_of (apart : (heldRegions cap).Pairwise Apart) (repairs : 0x2000 ≤ cap.writer.repairList.header)
    (maps : 0x2000 ≤ cap.writer.mapList.header) : Laid cap := by
  obtain ⟨lists, span, excerpt, -, -, -⟩ := regions_spec apart
  exact ⟨repairs, maps, lists, span, excerpt⟩

theorem closable_of (apart : (heldRegions cap).Pairwise Apart)
    (spans : ∀ g, (cap.writer.groups.get g).filling.isSome = true →
      0x2000 ≤ (cursorSpan (cap.writer.groups.get g)).addr ∧ Stored s (cursorSpan (cap.writer.groups.get g)).addr 1)
    (excerpts : ∀ x, cap.writer.excerpt = some x → 0x2000 ≤ x.span.addr ∧ 0x2000 ≤ x.span.buffer ∧ Stored s x.span.addr 1) :
    Closable s.port cap.writer.groups cap.writer.excerpt := by
  obtain ⟨-, -, -, between, within, both⟩ := regions_spec apart
  refine ⟨fun g some_ => spans g (Option.isSome_iff_ne_none.2 some_), between, fun e he => ?_, both⟩
  obtain ⟨past, past', state⟩ := excerpts e he
  exact ⟨past, past', state, within e he⟩

/-! ## The frames lost and the ranges -/

/-- The frames that a group loses where none is on its way. -/
theorem lostFrames_eq {g : Group} (arriving : (cap.writer.groups.get g).arriving = []) :
    lostFrames cap g (cap.writer.groups.get g) =
      framesIn (cap.writer.groups.get g).queue + ((cap.resamplers.get g).map (·.buffer.length)).getD 0 := by
  rw [lostFrames, arriving, bridgeFrames_eq]
  rfl

/-- The bytes that a full warm reset writes, group by group. -/
theorem mem_groupRanges {lost : Group → Nat} (same : ∀ g, lostFrames cap g (cap.writer.groups.get g) = lost g) {r : Nat × Nat}
    (h : r ∈ closeRanges cap cap.writer.groups cap.writer.excerpt) :
    r ∈ ([Group.a, Group.b].flatMap fun g => (if lost g = 0 then [] else [(lostWord cap g, 4)]) ++
        (if (cap.writer.groups.get g).filling = none then [] else
          [((cursorSpan (cap.writer.groups.get g)).addr, 4), ((cursorSpan (cap.writer.groups.get g)).addr + 0x1C, 4)])) ∨
      r ∈ cap.writer.excerpt.toList.flatMap fun (x : Excerpt) =>
        [(x.span.addr, 4), (x.span.addr + 0x0C, 20), (x.span.buffer, 64)] := by
  have all : ∀ g : Group, g ∈ [Group.a, Group.b] := fun g => by cases g <;> simp
  rcases mem_closeRanges h with ⟨g, hg⟩ | ⟨g, hg⟩ | he
  · exact .inl (List.mem_flatMap.2 ⟨g, all g, List.mem_append_right _ hg⟩)
  · rw [same g] at hg
    exact .inl (List.mem_flatMap.2 ⟨g, all g, List.mem_append_left _ hg⟩)
  · exact .inr he

theorem mem_lastRanges {n : SlotNo} {w : Writer} {k : Nat} {r : Nat × Nat} (h : r ∈ lastRanges n w k) :
    r ∈ if w.map = none then [] else if k = w.mapList.capacity then [(slotBase n + 0x28, 4)] else
      [(slotBase n + 0x5C, 4), (w.mapList.header + 4, 4),
        (w.mapList.header + 16 + 64 * (w.mapList.written.toNat % w.mapList.capacity), 64)] := by
  unfold lastRanges at h
  split at h
  · cases h
  · rename_i some_
    rw [if_neg some_]
    split at h
    · rename_i full
      rwa [if_pos full]
    · rename_i less
      rw [if_neg less]
      simp only [mapRanges, Bool.false_eq_true, if_false, List.nil_append, List.mem_cons, List.not_mem_nil, or_false] at h ⊢
      rcases h with rfl | rfl | rfl
      · exact .inr (.inr rfl)
      · exact .inr (.inl rfl)
      · exact .inl rfl

/-! ## The news -/

theorem foldl_news_if (u : OrderUnit) (n : SlotNo) (k : Cause) (b : Prop) [Decidable b] :
    (if b then [k] else []).foldl (fun o k => o.setNews n k) u = if b then u.setNews n k else u := by
  split <;> rfl

/-- The news of a full warm reset, one behind the other. -/
theorem resetNews_foldl (u : OrderUnit) (count k : Nat) : resetNews u cap count k =
    ((if (cap.writer.groups.a.filling).isSome then [Cause.spanA] else []) ++
      (if (cap.writer.groups.b.filling).isSome then [Cause.spanB] else []) ++
      (if cap.writer.excerpt.isSome then [Cause.excerpt] else []) ++ (if 0 < count then [Cause.repair] else []) ++
      (if cap.writer.map.isSome ∧ k < cap.writer.mapList.capacity then
        Cause.speedMap :: (if cap.writer.closeDue = some true then [Cause.cue] else []) else [])).foldl
      (fun o k => o.setNews cap.slot k) u := by
  have turn : ∀ {α : Type} (o : Option α) (v w : OrderUnit), (if o = none then v else w) = if o.isSome then w else v := fun o v w => by
    cases o <;> rfl
  have last : ∀ v, (if cap.writer.map.isSome ∧ k < cap.writer.mapList.capacity then
        Cause.speedMap :: (if cap.writer.closeDue = some true then [Cause.cue] else []) else []).foldl
      (fun o k => o.setNews cap.slot k) v = lastNews v cap.slot cap.writer k := fun v => by
    unfold lastNews dueNews
    split
    · rw [List.foldl_cons, foldl_news_if]
    · rfl
  rw [List.foldl_append, List.foldl_append, List.foldl_append, List.foldl_append, last, foldl_news_if, foldl_news_if, foldl_news_if,
    foldl_news_if]
  simp only [resetNews, closeNews, turn]

end

end Sys2Proof.TransferMemory
end

section
/-! PROOFS. The settling of WarmResetBegins. -/

namespace Sys2Proof.TransferMemory

open Machine Safety Laws

section

variable {q : Port} {cap : Capture} {m : LaneMonitor}

/-- An open excerpt lists the dropout that the reset closes in its lane (R198, R202). -/
theorem Closed.markedExcerpt {x : Excerpt} (h : Closed q cap cap.writer.groups (markedExcerpt cap m))
    (excerpt : cap.writer.excerpt = some x) :
    let shown := { x with seqs := x.seqs ++ (if (openedIn m x.lane).isSome then [m.seq + openBefore m laneNos x.lane] else []) }
    Holds q x.span.addr 2 ∧ Holds q (x.span.addr + 0x0C) (word (64 + 15360 * x.stored)) ∧ Holds q (x.span.addr + 0x1C) 1 ∧
    ∀ (i : Nat) (v : Word), (shown.header (getAt cap.params.lanes x.lane) false true)[i]? = some v →
      Holds q (x.span.buffer + 4 * i) v := by
  obtain ⟨b, marked⟩ := markExcerpts_spec m (ls := laneNos) (by decide) (mem_laneNos x.lane)
  have some_ : Sys2Proof.TransferMemory.markedExcerpt cap m = some (markExcerpts m laneNos x) := congrArg (Option.map _) excerpt
  have facts := h.excerpt _ some_
  rw [marked] at facts
  exact facts

/-- The records of a warm reset as its statement lists them. -/
theorem resetRecords_of {closed : ClosedDropout → RepairRec} {fresh : List (Nat → RepairRec)}
    (completed : ∀ x, closed x = closedRecord (nextIndex cap) x) (numbers : fresh = freshRecords cap m) :
    cap.writer.holding ++ cap.writer.handed ++ m.closed.map closed ++ (fresh.zipIdx.map fun x => x.1 (m.seq + x.2)) =
      resetRecords cap m := by
  rw [zipIdx_numbered, numbers, List.map_congr_left fun x _ => completed x]
  rfl

theorem finRange_laneNos : List.finRange 4 = laneNos := by decide

end

end Sys2Proof.TransferMemory

namespace Sys2Proof

open Machine Safety Laws TransferMemory

/-- Settles O20: the unit's work at a warm reset, stage by stage: the speed map's close, released frames, lanes, spans, excerpt,
LOST records, repair records, speed map record. -/
theorem warmResetBegins : Obligations.WarmResetBegins := by
  unfold Obligations.WarmResetBegins
  refine ⟨fun s e c ready => warmReset_frame ready, fun s e c n o k ready mem _ capture => warmReset_start ready mem capture, ?_⟩
  intro s e c cap ready mem capture base w news without bridged
  have bridge : ∀ g, bridgeFrames (cap.resamplers.get g) = bridged g := fun g => bridgeFrames_eq _
  refine ⟨?_, ?_, fun quiet => ⟨?_, ?_, ?_, ?_⟩, ?_⟩
  · intro g open_ due others o d k still
    have spans := warmReset_span (e := e) (c := c) ready mem capture open_ due others still
    dsimp only at spans
    rw [show lostFrames cap g (cap.writer.groups.get g) = k by rw [lostFrames, bridge]] at spans
    cases g <;> exact spans
  · intro g sp len open_ due others o d queue some_ filling pos lengths less divides past past' apart state room placed k
    have frames := warmReset_frames (e := e) (c := c) ready mem capture open_ due others queue some_ filling pos lengths less divides past
      past' apart state
    dsimp only at frames
    rw [bridge] at frames
    cases g <;> exact frames
  · intro x excerpt open_ due past past' apart state
    exact warmReset_excerpt ready mem capture quiet excerpt open_ due past past' apart state
  · intro m due n map open_ closeDue l cued room
    exact warmReset_map ready mem capture quiet map open_ closeDue room
  · intro g r m n due monitor lost open_ l room more pos
    exact warmReset_lost ready mem capture quiet due monitor lost open_ room more pos
  · intro m lane x d r n open_ due monitor closed state dropout run others resampler l first record room
    exact warmReset_open ready mem capture quiet open_ due monitor closed state dropout run others resampler room
  · intro m n k monitor waits arriving next opened settled _ ended fresh records sorted l lm count takes roomMap withinMap posMap span lost
      spans excerpts apart
    obtain ⟨room, within, pos, small, noWrap, written⟩ := takes
    have fresh_ : fresh = freshRecords cap m :=
      congrArg (fun ls : List LaneNo => (ls.filterMap fun lane => (opened lane).map (ended lane)) ++
        [Group.a, Group.b].filterMap fun g => (w.groups.get g).lost.map fun r seq => lostRepair seq g r true) finRange_laneNos
    have records_ : records = resetRecords cap m := resetRecords_of (fun x => by
      unfold closedRecord
      cases x.length <;> rfl) fresh_
    have total : ∀ g, lostFrames cap g (cap.writer.groups.get g) = lost g := fun g => lostFrames_eq (arriving g)
    have number : ∀ x : Excerpt, ((List.finRange 4).filter fun y => decide (y < x.lane) && (opened y).isSome).length =
        openBefore m laneNos x.lane := fun x => congrArg (fun ls : List LaneNo =>
      (ls.filter fun y => decide (y < x.lane) && (opened y).isSome).length) finRange_laneNos
    have lists : Lists s.port cap.writer (resetRecords cap m).length n k :=
      ⟨room, within, Nat.lt_of_lt_of_le (Nat.succ_pos 3) pos, small, by rw [← records_]; exact noWrap, written, roomMap, withinMap,
        Nat.lt_of_lt_of_le (Nat.succ_pos 3) posMap⟩
    obtain ⟨t, eq, reason, closed, repairs, last, kept, told⟩ := warmReset_everything (e := e) (c := c) ready mem capture monitor waits
      (fun g => .inl (arriving g)) (fun lane y there _ => settled lane y there) (closable_of apart spans excerpts)
      (laid_of apart room.1 roomMap.1) (by rw [← records_]; exact sorted) lists
    rw [← records_] at repairs kept told
    refine ⟨t, eq, reason, fun g some_ => ?_, closed.span, fun x excerpt => ?_, repairs.placed, repairs.written, repairs.suppressed,
      fun x map less => ?_, last.dropped, keptOutside_mono kept fun r hr => ?_, ?_⟩
    · rw [← total g] at some_ ⊢
      exact closed.lost g some_
    · rw [number x]
      exact closed.markedExcerpt excerpt
    · have shown := last.placed x map less
      exact ⟨shown.words, shown.written, shown.count⟩
    · simp only [List.mem_append, List.mem_singleton]
      rcases List.mem_cons.1 hr with reason | hr
      · exact .inl (.inl (.inl (.inl (.inl reason))))
      · rcases List.mem_append.1 hr with hr | hr
        · rcases mem_groupRanges total hr with hr | hr
          · exact .inl (.inl (.inl (.inl (.inr hr))))
          · exact .inl (.inl (.inl (.inr hr)))
        · rcases List.mem_append.1 hr with hr | hr
          · rcases List.mem_append.1 hr with hr | hr
            · exact .inl (.inl (.inr hr))
            · exact .inl (.inr hr)
          · exact .inr (mem_lastRanges hr)
    · rw [resetNews_foldl] at told
      exact told

end Sys2Proof
end

section
/-! PROOFS. Orders (02): what every command keeps of the posting queue and of the part's stores. -/

namespace Sys2Proof.Orders

open Machine Safety Laws TransferMemory

/-! ## The order unit's queues -/

/-- The posting queue holds the POSTED slots, each once: `PostingExact`, said of the order unit alone. -/
def QueueExact (o : OrderUnit) : Prop := o.posting.Nodup ∧ ∀ n, n ∈ o.posting ↔ (o.slot n).state = .posted

theorem postingExact_iff {s : State} : PostingExact s ↔ QueueExact s.orders := Iff.rfl

/-- An order unit after a command: the posting queue stays exact, the run queue within its capacity. -/
structure OrdersKept (o p : OrderUnit) : Prop where
  posting : QueueExact o → QueueExact p
  runQueue : o.runQueue.length ≤ Config.runQueueMax → p.runQueue.length ≤ Config.runQueueMax

theorem OrdersKept.refl (o : OrderUnit) : OrdersKept o o := ⟨id, id⟩

theorem OrdersKept.trans {o p q : OrderUnit} (a : OrdersKept o p) (b : OrdersKept p q) : OrdersKept o q :=
  ⟨fun h => b.posting (a.posting h), fun h => b.runQueue (a.runQueue h)⟩

/-- The posting queue and the POSTED slots unchanged, the run queue no longer. -/
theorem OrdersKept.ofFrame {o p : OrderUnit} (posting : p.posting = o.posting)
    (posted : ∀ n, (p.slot n).state = .posted ↔ (o.slot n).state = .posted)
    (runQueue : p.runQueue.length ≤ o.runQueue.length) : OrdersKept o p :=
  ⟨fun ⟨nodup, mem⟩ => ⟨posting ▸ nodup, fun n => by rw [posting, mem n, posted n]⟩, runQueue.trans⟩

/-- Neither queue nor any slot changed. -/
theorem OrdersKept.ofSlots {o p : OrderUnit} (posting : p.posting = o.posting) (slots : p.slots = o.slots)
    (runQueue : p.runQueue = o.runQueue) : OrdersKept o p :=
  .ofFrame posting (fun n => by unfold OrderUnit.slot; rw [slots]) (by rw [runQueue])

/-- A slot rewritten that neither was nor becomes POSTED. -/
theorem ordersKept_setSlot {o : OrderUnit} {n : SlotNo} {r : SlotRec} (before : (o.slot n).state ≠ .posted)
    (after : r.state ≠ .posted) : OrdersKept o (o.setSlot n r) := by
  refine .ofFrame rfl (fun m => ?_) (Nat.le_refl _)
  by_cases hm : m = n
  · subst hm; simp [before, after]
  · rw [OrderUnit.setSlot_slot_of_ne _ _ hm]

/-- A slot rewritten that keeps its state. -/
theorem ordersKept_setSlot_state {o : OrderUnit} {n : SlotNo} {r : SlotRec} (state : r.state = (o.slot n).state) :
    OrdersKept o (o.setSlot n r) := by
  refine .ofFrame rfl (fun m => ?_) (Nat.le_refl _)
  by_cases hm : m = n
  · subst hm; simp [state]
  · rw [OrderUnit.setSlot_slot_of_ne _ _ hm]

theorem ordersKept_ofHub {h k : Hub} (kept : HubKept h k) : OrdersKept h.orders k.orders := by
  refine .ofFrame (by rw [kept.orders]) (fun n => ?_) (by rw [kept.orders])
  obtain ⟨-, -, same | ⟨taken, running⟩⟩ := kept.slot n
  · rw [same]
  · simp [taken, running]

theorem ordersKept_ofNews {o p : OrderUnit} (news : OnlyNewsDiffers o p) : OrdersKept o p :=
  .ofFrame (by rw [news.1]) (fun n => by rw [news.2 n]) (by rw [news.1])

theorem ordersKept_conclude {h : Hub} {n : SlotNo} (before : (h.orders.slot n).state ≠ .posted) (out : OrderOutcome)
    (code : RefusalCode) (late : Bool) : OrdersKept h.orders (h.conclude n out code late).orders := by
  obtain ⟨-, self, others, frame, -⟩ := conclude_spec h n out code late
  refine .ofFrame (by rw [frame]) (fun m => ?_) (by rw [frame])
  by_cases hm : m = n
  · subst hm; simp [self, before]
  · rw [others m hm]

theorem ordersKept_finish {h : Hub} {n : SlotNo} (before : (h.orders.slot n).state ≠ .posted) (out : OrderOutcome)
    (code : RefusalCode) (late : Bool) : OrdersKept h.orders (h.finish n out code late).orders :=
  ordersKept_conclude before out code late

/-- A posting of a slot that is not POSTED puts it into the queue (R25). -/
theorem ordersKept_post {o : OrderUnit} {n : SlotNo} (before : (o.slot n).state ≠ .posted) : OrdersKept o (o.post n) := by
  refine ⟨fun ⟨nodup, mem⟩ => ⟨?_, fun m => ?_⟩, id⟩
  · have fresh : n ∉ o.posting := fun h => before ((mem n).mp h)
    simp only [OrderUnit.post_posting]
    exact List.nodup_append.mpr ⟨nodup, List.nodup_singleton n, fun a ha b hb => by
      rw [List.mem_singleton.mp hb]; exact fun e => fresh (e ▸ ha)⟩
  · show m ∈ o.posting ++ [n] ↔ ((o.setState n .posted).slot m).state = .posted
    rw [List.mem_append, List.mem_singleton]
    by_cases hm : m = n
    · subst hm; simp
    · rw [OrderUnit.setState_slot_of_ne _ _ hm, mem m]; simp [hm]

/-- A slot that leaves POSTED and the posting queue in one action (R25, R26). -/
theorem queueExact_filter {o p : OrderUnit} {n : SlotNo} {st : SlotState} (left : st ≠ .posted)
    (posting : p.posting = o.posting.filter fun m => decide (m ≠ n)) (slots : p.slots = (o.setState n st).slots)
    (exact : QueueExact o) : QueueExact p := by
  obtain ⟨nodup, mem⟩ := exact
  refine ⟨posting ▸ nodup.filter _, fun m => ?_⟩
  have slot : p.slot m = (o.setState n st).slot m := by unfold OrderUnit.slot; rw [slots]
  rw [posting, slot, List.mem_filter, mem m]
  by_cases hm : m = n
  · subst hm; simp [left]
  · rw [OrderUnit.setState_slot_of_ne _ _ hm]; simp [hm]

theorem ordersKept_withdraw (o : OrderUnit) (n : SlotNo) : OrdersKept o (o.withdraw n) :=
  ⟨queueExact_filter (by simp) rfl rfl, id⟩

theorem ordersKept_take (o : OrderUnit) (n : SlotNo) : OrdersKept o (o.take n) :=
  ⟨queueExact_filter (by simp) rfl rfl, id⟩

/-- A warm reset rebuilds the posting queue from the POSTED slots and empties the run queue (R44). -/
theorem ordersKept_rebuild (o p : OrderUnit) : OrdersKept o p.rebuild :=
  ⟨fun _ => by
    have nodup : slotNos.Nodup := by rw [slotNos_eq_finRange]; exact List.nodup_finRange 32
    refine ⟨nodup.filter fun n => decide ((p.slot n).state = .posted), fun n => ?_⟩
    show n ∈ slotNos.filter (fun m => decide ((p.slot m).state = .posted)) ↔ (p.slot n).state = .posted
    simp [mem_slotNos], fun _ => Nat.zero_le _⟩

theorem ordersKept_cold (o : OrderUnit) : OrdersKept o OrderUnit.cold :=
  ⟨fun _ => ⟨List.nodup_nil, by decide⟩, fun _ => Nat.zero_le _⟩

/-! ## The stores of the part -/

/-- A capture, where there is one, holds no more than its writer has room for. -/
def WritersWithin (c : Option Capture) : Prop := ∀ cap, c = some cap → WriterWithin cap.writer

theorem writersWithin_none : WritersWithin none := fun _ h => nomatch h

theorem withinCapacities_iff {s : State} : WithinCapacities s ↔ s.orders.runQueue.length ≤ Config.runQueueMax ∧
    s.elements.history.length ≤ 3 ∧ s.transport.records.length ≤ 8 ∧ WritersWithin s.capture := Iff.rfl

/-- A state after a command: its order unit keeps `OrdersKept`, and no store grows past its capacity. -/
structure StoresKept (s t : State) : Prop where
  orders : OrdersKept s.orders t.orders
  history : s.elements.history.length ≤ 3 → t.elements.history.length ≤ 3
  records : s.transport.records.length ≤ 8 → t.transport.records.length ≤ 8
  writer : WritersWithin s.capture → WritersWithin t.capture

theorem StoresKept.refl (s : State) : StoresKept s s := ⟨.refl _, id, id, id⟩

theorem StoresKept.trans {s t u : State} (a : StoresKept s t) (b : StoresKept t u) : StoresKept s u :=
  ⟨a.orders.trans b.orders, fun h => b.history (a.history h), fun h => b.records (a.records h), fun h => b.writer (a.writer h)⟩

/-- A command that reaches neither history, block records nor capture. -/
theorem StoresKept.ofOrders {s t : State} (orders : OrdersKept s.orders t.orders) (elements : t.elements = s.elements)
    (transport : t.transport = s.transport) (capture : t.capture = s.capture) : StoresKept s t :=
  ⟨orders, by rw [elements]; exact id, by rw [transport]; exact id, by rw [capture]; exact id⟩

/-- A command that reaches neither the order unit nor any store. -/
theorem StoresKept.ofFrame {s t : State} (orders : t.orders = s.orders) (elements : t.elements = s.elements)
    (transport : t.transport = s.transport) (capture : t.capture = s.capture) : StoresKept s t :=
  .ofOrders (orders ▸ .refl _) elements transport capture

theorem storesKept_ofCapture {s t : State} (h : CaptureKept s t) : StoresKept s t := by
  rcases h with rfl | ⟨cap, d, running, kept, rfl⟩
  · exact .refl _
  · refine ⟨ordersKept_ofHub kept.hub, id, id, fun within e he => ?_⟩
    cases he
    exact kept.writer (within cap running)

theorem captureKept_onCapture {s : State} {f : Cx → Cx} (hf : ∀ c, CxKept c (f c)) : CaptureKept s (s.onCapture f) := by
  unfold State.onCapture
  split
  · exact .inl rfl
  · rename_i cap running
    exact .inr ⟨cap, _, running, hf _, rfl⟩

theorem storesKept_onCapture {s : State} {f : Cx → Cx} (hf : ∀ c, CxKept c (f c)) : StoresKept s (s.onCapture f) :=
  storesKept_ofCapture (captureKept_onCapture hf)

/-- What has come due in the speed reference unit makes no slot POSTED. -/
theorem settled_not_posted {s : State} {n : SlotNo} (h : (s.orders.slot n).state ≠ .posted) :
    ((s.onCapture Cx.settleSpeed).orders.slot n).state ≠ .posted := by
  have kept := (captureKept_onCapture (s := s) kept_settleSpeed).frame.2.1
  obtain ⟨-, -, same | ⟨-, running⟩⟩ := kept.slot n
  · exact fun e => h (same.symm.trans e)
  · exact fun e => by rw [show ((s.onCapture Cx.settleSpeed).orders.slot n).state = .running from running] at e; cases e

/-! ## The host's writes -/

theorem storesKept_cancelLive (s : State) (n : SlotNo) : StoresKept s (s.cancelLive n) := by
  unfold State.cancelLive
  split
  · exact .refl _
  · exact storesKept_onCapture (kept_cancelOwn n _)
  · unfold State.cancelCalibration
    split
    · exact .refl _
    · split
      · exact .ofOrders (.ofSlots rfl rfl rfl) rfl rfl rfl
      · exact .refl _
  · exact storesKept_onCapture fun c => kept_cancelRetune c _ n
  · exact storesKept_onCapture fun c => kept_foldl (Cx.cancelSource n) (kept_cancelSource n) c groupList
  · unfold Hub.cancelTransport
    split
    · exact .refl _
    · split
      · exact .ofOrders (.ofSlots rfl rfl rfl) rfl rfl rfl
      · exact .refl _

/-- The port and the order unit with a slot's orders taken out of the run queue. -/
def dequeued (h : Hub) (n : SlotNo) : Hub :=
  { h with orders := { h.orders with runQueue := h.orders.runQueue.filter fun q => decide (q.1 ≠ n) } }

theorem cancelQueued_eq (h : Hub) (n : SlotNo) : h.cancelQueued n = (dequeued h n).finish n .cancelled .none false := rfl

theorem ordersKept_cancelQueued {h : Hub} {n : SlotNo} (before : (h.orders.slot n).state ≠ .posted) :
    OrdersKept h.orders (h.cancelQueued n).orders := by
  have shorter : OrdersKept h.orders (dequeued h n).orders := .ofFrame rfl (fun _ => Iff.rfl) (List.length_filter_le _ _)
  rw [cancelQueued_eq]
  exact shorter.trans (ordersKept_finish (h := dequeued h n) before _ _ _)

theorem storesKept_cancelSlot {s : State} {n : SlotNo} (before : (s.orders.slot n).state ≠ .posted) :
    StoresKept s (s.cancelSlot n) := by
  have settled := storesKept_onCapture (s := s) kept_settleSpeed
  have after := settled_not_posted before
  unfold State.cancelSlot
  generalize s.onCapture Cx.settleSpeed = u at settled after
  dsimp only
  refine settled.trans ?_
  split
  · exact .ofOrders (ordersKept_cancelQueued (h := u.hub) after) rfl rfl rfl
  · refine StoresKept.trans ?_ (storesKept_cancelLive { u with orders := u.orders.setState n .stopping } n)
    exact .ofOrders (ordersKept_setSlot after (by simp)) rfl rfl rfl

theorem storesKept_writeSlotState (s : State) (n : SlotNo) (v : Word) : StoresKept s (s.writeSlotState n v) := by
  have refl := StoresKept.refl s
  unfold State.writeSlotState
  split
  · exact refl
  · split
    case h_1 free =>
      split
      · exact .ofOrders (ordersKept_post (by simp [free])) rfl rfl rfl
      · exact refl
    case h_2 =>
      split
      · exact .ofOrders (ordersKept_withdraw _ _) rfl rfl rfl
      · exact refl
    case h_3 taken =>
      split
      · exact storesKept_cancelSlot (by simp [taken])
      · exact refl
    case h_4 running =>
      split
      · exact storesKept_cancelSlot (by simp [running])
      · exact refl
    case h_5 => exact refl
    case h_6 done =>
      split
      · exact .ofOrders ((ordersKept_setSlot (by simp [done]) (by simp)).trans (.ofSlots rfl rfl rfl)) rfl rfl rfl
      · exact refl

theorem storesKept_beginWarmReset (s : State) : StoresKept s s.beginWarmReset := by
  have reset := storesKept_onCapture (s := { s with port := { s.port with phase := .warmReset, lastWarm := true } })
    kept_resetCapture
  unfold State.beginWarmReset
  dsimp only
  generalize State.onCapture _ Cx.resetCapture = u at reset ⊢
  exact ⟨reset.orders.trans (.ofSlots rfl rfl rfl), reset.history, reset.records, fun _ => writersWithin_none⟩

theorem storesKept_writeControl (s : State) (v : Word) : StoresKept s (s.writeControl v) := by
  unfold State.writeControl
  dsimp only
  split
  · generalize (if bit v 2 then _ else _ : Port) = p
    exact StoresKept.trans (t := { s with port := p }) (.ofFrame rfl rfl rfl rfl) (storesKept_beginWarmReset _)
  · exact .ofFrame rfl rfl rfl rfl

theorem storesKept_hostWriteWord (addr : Addr) (v : Word) (s : State) : StoresKept s (hostWriteWord addr v s) := by
  unfold hostWriteWord
  split
  · exact .refl _
  · cases targetOf addr with
    | slotState n => exact storesKept_writeSlotState s n v
    | news n => exact .ofOrders (ordersKept_setSlot_state rfl) rfl rfl rfl
    | summary => exact .ofOrders (.ofSlots rfl rfl rfl) rfl rfl rfl
    | memory a => exact .ofFrame rfl rfl rfl rfl
    | control => exact storesKept_writeControl s v
    | ident => exact .refl _
    | status => exact .refl _
    | unassigned => exact .refl _

theorem storesKept_hostWriteBytes (addr : Addr) (en : BitVec 4) (v : Word) (s : State) :
    StoresKept s (hostWriteBytes addr en v s) := by
  unfold hostWriteBytes
  split
  · exact storesKept_hostWriteWord addr v s
  · split
    · exact .refl _
    · cases targetOf addr with
      | memory a => exact .ofFrame rfl rfl rfl rfl
      | _ => exact .refl _

/-! ## Taking, validating, starting, finishing -/

theorem ordersKept_copyTaken (h : Hub) (n : SlotNo) : OrdersKept h.orders (h.copyTaken n).orders :=
  (ordersKept_setSlot_state (n := n) (r := { h.orders.slot n with mask := (h.port.copyOrder n).1 }) rfl).trans (.ofSlots rfl rfl rfl)

theorem storesKept_takeOrder {s t : State} (h : execTakeOrder s = .next t) : StoresKept s t := by
  unfold execTakeOrder at h
  split at h
  · cases h; exact .refl _
  · rename_i n k _
    split at h
    · cases h
      exact .ofOrders ((ordersKept_take s.orders n).trans (ordersKept_copyTaken ((⟨s.port, s.orders.take n⟩ : Hub).clearResults n) n))
        rfl rfl rfl
    · cases h; exact .refl _

/-- A stream order is appended to a run queue that the context check found not full (R31, R33). -/
theorem storesKept_acceptOrder {s : State} {n : SlotNo} {c : Checked} (context : contextCode s c = .none) :
    StoresKept s (acceptOrder s n c) := by
  have live : OrdersKept s.orders { s.orders.setLive n c.kind with taking := none } :=
    (ordersKept_setSlot_state (n := n) (r := { s.orders.slot n with live := some c.kind }) rfl).trans (.ofSlots rfl rfl rfl)
  have room : ∀ k, s.orders.runQueue.length < 4 → OrdersKept s.orders ({ s.orders.setLive n c.kind with taking := none }.enqueue n k) :=
    fun k short => ⟨fun h => live.posting h, fun _ => by
      simp only [OrderUnit.enqueue_runQueue, List.length_append, List.length_singleton]; exact short⟩
  cases c with
  | capture o => exact .ofOrders (room _ (by by_contra full; simp [contextCode, Nat.not_lt.mp full] at context)) rfl rfl rfl
  | calibrate o => exact .ofOrders (room _ (by by_contra full; simp [contextCode, Nat.not_lt.mp full] at context)) rfl rfl rfl
  | retune t =>
    have accepted : StoresKept s { s with orders := { s.orders.setLive n .retune with taking := none } } := .ofOrders live rfl rfl rfl
    exact accepted.trans (storesKept_onCapture fun c => kept_acceptRetune c s.elements.table n t)
  | source g target k =>
    have accepted : StoresKept s { s with orders := { s.orders.setLive n .source with taking := none } } := .ofOrders live rfl rfl rfl
    exact accepted.trans (storesKept_onCapture fun c => kept_acceptSource c n g target k)
  | transport o =>
    refine .ofOrders (live.trans ?_) rfl rfl rfl
    simp only [acceptOrder, State.setHub_orders, Hub.acceptTransport]
    split <;> exact .ofSlots rfl rfl rfl

theorem contextCode_of_checked {s : State} {k : Copied} {c : Checked} (h : checkOrder s k = .ok c) : contextCode s c = .none := by
  unfold checkOrder at h
  split at h
  · cases h
  · split at h
    · rename_i context; cases h; exact context
    · cases h

theorem storesKept_validateSlot {s : State} {n : SlotNo} (before : (s.orders.slot n).state ≠ .posted) (k : CopyResult) :
    StoresKept s (validateSlot s n k) := by
  have finishes : ∀ out code late, StoresKept s
      (s.setHub { s.hub.finish n out code late with orders := { (s.hub.finish n out code late).orders with taking := none } }) :=
    fun out code late => .ofOrders ((ordersKept_finish (h := s.hub) before out code late).trans (.ofSlots rfl rfl rfl)) rfl rfl rfl
  unfold validateSlot
  split
  · exact finishes _ _ _
  · split
    · exact finishes _ _ _
    · rename_i checked
      split
      · exact finishes _ _ _
      · exact storesKept_acceptOrder (contextCode_of_checked checked)

theorem storesKept_validate {s t : State} (h : execValidate s = .next t) : StoresKept s t := by
  unfold execValidate at h
  split at h
  · cases h; exact .refl _
  · rename_i k _
    dsimp only at h
    split at h
    · rename_i ready
      cases h
      have before : (s.orders.slot k.slot).state ≠ .posted := by
        rcases ready.2 with taken | stopping <;> simp [*]
      exact (storesKept_onCapture kept_settleSpeed).trans (storesKept_validateSlot (settled_not_posted before) _)
    · cases h; exact .refl _

theorem writerWithin_start (o : CaptureOrder) : WriterWithin (Writer.start o) := by
  unfold WriterWithin
  simp [Writer.start, pagesIn]

/-- The head of the run queue leaves it, its slot RUNNING. -/
theorem ordersKept_startHead {o : OrderUnit} {n : SlotNo} {order : StreamOrder} {rest : List (SlotNo × StreamOrder)}
    (head : o.runQueue = (n, order) :: rest) (taken : (o.slot n).state = .taken) : OrdersKept o (o.startHead n rest) :=
  (ordersKept_setSlot (n := n) (r := { o.slot n with state := .running }) (by simp [taken]) (by simp)).trans
    (.ofFrame rfl (fun _ => Iff.rfl) (by simp [head]))

theorem storesKept_startStreamOrder {s t : State} (h : execStartStreamOrder s = .next t) : StoresKept s t := by
  unfold execStartStreamOrder at h
  split at h
  · cases h; exact .refl _
  · rename_i n order rest head
    split at h
    · rename_i ready
      obtain ⟨-, -, -, -, taken⟩ := ready
      have started := ordersKept_startHead head taken
      split at h
      · split at h
        · cases h
          exact ⟨started, id, id, fun _ cap running => by cases running; exact writerWithin_start _⟩
        · cases h
          exact .ofOrders (.ofFrame rfl (fun _ => Iff.rfl) (by simp [head])) rfl rfl rfl
      · cases h
        exact .ofOrders started rfl rfl rfl
    · cases h; exact .refl _

theorem ordersKept_finishReport (h : Hub) (r : EndReport) : OrdersKept h.orders (h.finishReport r).orders := by
  unfold Hub.finishReport
  split
  case h_1 taken => exact ordersKept_finish (by simp [taken]) _ _ _
  case h_2 running => exact ordersKept_finish (by simp [running]) _ _ _
  case h_3 stopping => exact ordersKept_finish (by simp [stopping]) _ _ _
  case h_4 => exact .refl _
  case h_5 => exact .refl _
  case h_6 => exact .refl _

theorem storesKept_dropRun (s : State) (n : SlotNo) : StoresKept s (s.dropRun n) := by
  refine ⟨.refl _, id, id, fun within => ?_⟩
  unfold State.dropRun
  dsimp only
  split <;> split
  · exact writersWithin_none
  · exact within
  · exact writersWithin_none
  · exact within

theorem storesKept_finishOrder {s t : State} (h : execFinishOrder s = .next t) : StoresKept s t := by
  rcases engineStep_next h with rfl | ⟨-, h⟩
  · exact .refl _
  · split at h
    · cases h; exact .refl _
    · rename_i r rest _
      cases h
      refine StoresKept.trans ?_ (storesKept_dropRun _ _)
      have reported : OrdersKept s.orders { s.orders with ends := rest } := .ofSlots rfl rfl rfl
      exact .ofOrders (reported.trans (ordersKept_finishReport ⟨s.port, _⟩ r)) rfl rfl rfl

/-! ## The transport counter unit and the block boundary -/

/-- A deck after a command, its records still within eight. -/
structure DeckWithin (k l : Deck) : Prop where
  orders : OrdersKept k.hub.orders l.hub.orders
  records : k.unit.records.length ≤ 8 → l.unit.records.length ≤ 8

theorem DeckWithin.trans {k l m : Deck} (a : DeckWithin k l) (b : DeckWithin l m) : DeckWithin k m :=
  ⟨a.orders.trans b.orders, fun h => b.records (a.records h)⟩

theorem deckWithin_ofKept {k l : Deck} (kept : DeckKept k l) : DeckWithin k l :=
  ⟨ordersKept_ofNews kept.2.1, by rw [kept.2.2.1]; exact id⟩

theorem ordersKept_completeTransport (h : Hub) (r : Option BlockRecord) : OrdersKept h.orders (h.completeTransport r).orders := by
  unfold Hub.completeTransport
  split
  · exact .ofSlots rfl rfl rfl
  · exact .refl _

theorem closeMotion_records (t : Transport) : t.closeMotion.records = t.records := by
  unfold Transport.closeMotion Transport.stopIfStill
  split
  · rfl
  · split <;> rfl

/-- Of the closed block records the last eight are kept (R57). -/
theorem closeRecord_records {t : Transport} (h : t.records.length ≤ 8) : t.closeRecord.2.records.length ≤ 8 := by
  unfold Transport.closeRecord
  split
  · exact h
  · simp only [List.length_take]; omega

theorem deckWithin_bindTransport (k : Deck) (num : Word) : DeckWithin k (k.bindTransport num) := by
  unfold Deck.bindTransport
  split
  · exact ⟨.refl _, id⟩
  · split
    · exact ⟨.ofSlots rfl rfl rfl, id⟩
    · exact ⟨.refl _, id⟩

theorem deckWithin_boundary (k : Deck) (num : Word) : DeckWithin k (k.boundary num).2 := by
  unfold Deck.boundary
  dsimp only
  have closed : DeckWithin k ⟨k.unit.closeMotion.closeRecord.2, k.hub.completeTransport k.unit.closeMotion.closeRecord.1⟩ :=
    ⟨ordersKept_completeTransport _ _, fun h => closeRecord_records (by rwa [closeMotion_records])⟩
  have bound := closed.trans (deckWithin_bindTransport _ num)
  exact ⟨bound.orders, bound.records⟩

/-- The deck as a block ends: time passed to the boundary, and the free values then taken. -/
def atBoundary (s : State) : Deck × Nat := s.deck.pass (Config.blockTime - s.transport.clock) s.freeCount 10

/-- The record of the ending block, and the deck in the block that begins. -/
def beginningDeck (s : State) : Option BlockRecord × Deck := (atBoundary s).1.boundary (s.elements.block + 1)

/-- The deck after the boundary's instant. -/
def boundaryDeck (s : State) : Deck × Nat := (beginningDeck s).2.instant (beginningDeck s).2.unit.rawLevels (atBoundary s).2

/-- What a block boundary with a well-formed block gives outside COLD_INIT. -/
theorem blockBoundary_eq {samples : List (List Sample)} {s : State} (warm : s.port.phase ≠ .coldInit)
    (wf : wellFormedBlock samples = true) : execBlockBoundary samples s = .next { s.setDeck (boundaryDeck s) with
      elements := s.elements.boundary samples
      reports := if s.capture.isSome || s.calibration.isSome
        then s.reports ++ [⟨s.elements.block, (beginningDeck s).1, samples.map clipCount⟩] else s.reports } := by
  unfold execBlockBoundary
  rw [engineStep_warm warm, if_neg (by simp [wf])]
  rfl

theorem deckWithin_boundaryDeck (s : State) : DeckWithin s.deck (boundaryDeck s).1 :=
  ((deckWithin_ofKept (pass_kept _ _ _ _)).trans (deckWithin_boundary _ _)).trans (deckWithin_ofKept (instant_kept _ _ _))

theorem storesKept_blockBoundary {samples : List (List Sample)} {s t : State} (h : execBlockBoundary samples s = .next t) :
    StoresKept s t := by
  rcases engineStep_next (id h) with rfl | ⟨warm, ran⟩
  · exact .refl _
  · split at ran
    · cases ran
    · rename_i wf
      rw [blockBoundary_eq warm (by simpa using wf)] at h
      cases h
      have served := deckWithin_boundaryDeck s
      exact ⟨served.orders, fun _ => List.length_take_le 3 _, served.records, id⟩

theorem storesKept_inputChange {periods : Nat} {levels : BitVec 10} {s t : State} (h : execInputChange periods levels s = .next t) :
    StoresKept s t := by
  unfold execInputChange at h
  split at h
  · cases h; exact ⟨.refl _, id, id, id⟩
  · have passed := deckWithin_ofKept (pass_kept s.deck (1000 * periods) s.freeCount 10)
    generalize s.deck.pass (1000 * periods) s.freeCount 10 = k at h passed
    cases h
    have served := passed.trans (deckWithin_ofKept (instant_kept k.1 levels k.2))
    exact ⟨served.orders, id, served.records, id⟩

theorem storesKept_debounceExpiry {s t : State} (h : execDebounceExpiry s = .next t) : StoresKept s t := by
  rcases engineStep_next h with rfl | ⟨-, h⟩
  · exact .refl _
  · split at h
    · cases h; exact .refl _
    · rename_i e _
      cases h
      have served := deckWithin_ofKept
        (instant_kept { s.deck with unit := s.transport.tick e } (s.transport.tick e).rawLevels s.freeCount)
      exact ⟨served.orders, id, served.records, id⟩

/-! ## CALIBRATE, judging, notices, the warm reset's end -/

theorem storesKept_calibrateBlock {s t : State} (h : execCalibrateBlock s = .next t) : StoresKept s t := by
  rcases engineStep_next h with rfl | ⟨-, h⟩
  · exact .refl _
  · split at h
    · split at h
      · cases h
      · cases h; exact .ofFrame rfl rfl rfl rfl
      · cases h
        have orders : ∀ b : Bool, ∀ r : CalRun, OrdersKept s.orders
          (if b then s.hub.calibrateProgress r else s.hub.calibrateState r).orders :=
          fun b r => by cases b <;> exact .ofSlots rfl rfl rfl
        exact .ofOrders (orders _ _) rfl rfl rfl
    · cases h; exact .refl _

theorem storesKept_windowComplete {s t : State} (h : execWindowComplete s = .next t) : StoresKept s t := by
  rcases engineStep_next h with rfl | ⟨-, h⟩
  · exact .refl _
  · split at h
    · cases h; exact .refl _
    · split at h
      · cases h; exact .refl _
      · split at h
        · cases h
        · cases h
          refine ⟨.ofSlots rfl rfl rfl, fun held => ?_, id, id⟩
          dsimp only
          split <;> exact held

theorem storesKept_judgeBlock {s t : State} (h : execJudgeBlock s = .next t) : StoresKept s t := by
  rcases engineStep_next h with rfl | ⟨-, h⟩
  · exact .refl _
  · split at h
    · rename_i cap b rest running _
      cases h
      have judged : CaptureKept s (s.setCx ((Cx.judge ⟨s.hub, cap⟩ s.elements b).writePosition b)) :=
        .inr ⟨cap, _, running, (kept_judge ⟨s.hub, cap⟩ s.elements b).trans (kept_writePosition _ b), rfl⟩
      exact (storesKept_ofCapture judged).trans (.ofFrame rfl rfl rfl rfl)
    · cases h; exact .refl _

theorem storesKept_watchNotice {s t : State} (h : execWatchNotice s = .next t) : StoresKept s t := by
  rcases engineStep_next h with rfl | ⟨-, h⟩
  · exact .refl _
  · split at h
    · cases h; exact .refl _
    · rename_i n rest _
      have taken : StoresKept s { s with port := { s.port with notices := rest } } := .ofFrame rfl rfl rfl rfl
      dsimp only at h
      split at h
      · cases h; exact taken
      · rename_i cap running
        cases h
        exact taken.trans (storesKept_ofCapture (.inr ⟨cap, _, running, kept_notice _ n, rfl⟩))

theorem storesKept_orderReset {s t : State} (h : execOrderReset s = .next t) : StoresKept s t := by
  unfold execOrderReset at h
  split at h
  · generalize slotNos.foldl Hub.resetSlot s.hub = reset at h
    cases h
    exact .ofOrders (ordersKept_rebuild s.orders reset.orders) rfl rfl rfl
  · cases h; exact .refl _

/-! ## Every command -/

/-- No command makes the posting queue inexact or fills a store past its capacity. -/
theorem exec_storesKept {c : Instr} {s t : State} (h : exec c s = .next t) : StoresKept s t := by
  cases c with
  | resetLow => cases h; exact ⟨ordersKept_cold _, fun _ => Nat.zero_le _, fun _ => Nat.zero_le _, fun _ => writersWithin_none⟩
  | resetRelease => cases h; exact .ofFrame rfl rfl rfl rfl
  | clearingDone =>
    replace h : execClearingDone s = .next t := h
    unfold execClearingDone at h
    split at h
    · cases h; exact ⟨.refl _, id, id, id⟩
    · cases h; exact .refl _
  | hostRead addr en =>
    replace h : execHostRead addr en s = .next t := h
    unfold execHostRead at h
    generalize readTarget s (targetOf addr) = found at h
    cases h
    exact .ofFrame rfl rfl rfl rfl
  | hostWrite addr v => exact Host.Outcome.next.inj h ▸ storesKept_hostWriteWord _ _ s
  | hostNarrowWrite addr en v => exact Host.Outcome.next.inj h ▸ storesKept_hostWriteBytes _ _ _ s
  | post n => exact Host.Outcome.next.inj h ▸ storesKept_hostWriteWord _ _ s
  | withdraw n => exact Host.Outcome.next.inj h ▸ storesKept_hostWriteWord _ _ s
  | cancel n => exact Host.Outcome.next.inj h ▸ storesKept_hostWriteWord _ _ s
  | release n => exact Host.Outcome.next.inj h ▸ storesKept_hostWriteWord _ _ s
  | handBackSpan addr => exact Host.Outcome.next.inj h ▸ storesKept_hostWriteWord _ _ s
  | clearNews n ones => exact Host.Outcome.next.inj h ▸ storesKept_hostWriteWord _ _ s
  | clearSummary ones => exact Host.Outcome.next.inj h ▸ storesKept_hostWriteWord _ _ s
  | attnEn e => exact Host.Outcome.next.inj h ▸ storesKept_hostWriteWord _ _ s
  | warmReset e c => exact Host.Outcome.next.inj h ▸ storesKept_hostWriteWord _ _ s
  | clearMemerr e r => exact Host.Outcome.next.inj h ▸ storesKept_hostWriteWord _ _ s
  | discardedWrite addr en v => exact Host.Outcome.next.inj h ▸ storesKept_hostWriteBytes _ _ _ s
  | orderReset => exact storesKept_orderReset h
  | warmResetEnd =>
    replace h : execWarmResetEnd s = .next t := h
    unfold execWarmResetEnd at h
    split at h
    · cases h; exact .ofFrame rfl rfl rfl rfl
    · cases h; exact .refl _
  | takeOrder => exact storesKept_takeOrder h
  | validate => exact storesKept_validate h
  | startStreamOrder => exact storesKept_startStreamOrder h
  | finishOrder => exact storesKept_finishOrder h
  | inputChange periods levels => exact storesKept_inputChange h
  | debounceExpiry => exact storesKept_debounceExpiry h
  | blockBoundary samples => exact storesKept_blockBoundary h
  | motionStopped =>
    replace h : execMotionStopped s = .next t := h
    rcases engineStep_next h with rfl | ⟨-, h⟩
    · exact .refl _
    · cases h
      refine ⟨.refl _, id, fun held => ?_, id⟩
      dsimp only [Transport.stopIfStill]
      split <;> exact held
  | judgeBlock => exact storesKept_judgeBlock h
  | takeBlock => exact storesKept_ofCapture (execTakeBlock_kept h)
  | leader => exact storesKept_ofCapture (execLeader_kept h)
  | blockProcessed => exact storesKept_ofCapture (execBlockProcessed_kept h)
  | captureStop => exact storesKept_ofCapture (execCaptureStop_kept h)
  | calibrateBlock => exact storesKept_calibrateBlock h
  | offsetsFixed =>
    replace h : execOffsetsFixed s = .next t := h
    rcases engineStep_next h with rfl | ⟨-, h⟩
    · exact .refl _
    · cases h; exact .ofFrame rfl rfl rfl rfl
  | windowComplete => exact storesKept_windowComplete h
  | judgeLanes => exact storesKept_ofCapture (execJudgeLanes_kept h)
  | weak lane => exact storesKept_ofCapture (execWeak_kept h)
  | measureSkew => exact storesKept_ofCapture (execMeasureSkew_kept h)
  | speedBlock => exact storesKept_ofCapture (execSpeedBlock_kept h)
  | holdoverExpiry g => exact storesKept_ofCapture (execHoldoverExpiry_kept h)
  | humTimeout g => exact storesKept_ofCapture (execHumTimeout_kept h)
  | humMissLimit g => exact storesKept_ofCapture (execHumMissLimit_kept h)
  | notLocked g => exact storesKept_ofCapture (execNotLocked_kept h)
  | probationComplete g => exact storesKept_ofCapture (execProbationComplete_kept h)
  | sourceReturn g => exact storesKept_ofCapture (execSourceReturn_kept h)
  | resampleBlock g => exact storesKept_ofCapture (execResampleBlock_kept h)
  | placeFrame g => exact storesKept_ofCapture (execPlaceFrame_kept h)
  | watchNotice => exact storesKept_watchNotice h
  | foldBlock => exact storesKept_ofCapture (execFoldBlock_kept h)
  | speedmapClose => exact storesKept_ofCapture (execSpeedmapClose_kept h)
  | placeRepair => exact storesKept_ofCapture (execPlaceRepair_kept h)
  | storeExcerpt => exact storesKept_ofCapture (execStoreExcerpt_kept h)
  | memoryWordDisturbed addr d =>
    replace h : execMemoryWordDisturbed addr d s = .next t := h
    unfold execMemoryWordDisturbed at h
    split at h
    · cases h; exact .ofFrame rfl rfl rfl rfl
    all_goals cases h; exact .refl _

theorem step_storesKept {s t : State} (h : step s = .next t) : StoresKept s t := by
  rcases step_cases h with rfl | ⟨c, rest, -, ran⟩
  · exact .refl _
  · exact StoresKept.trans (t := { s with pending := rest }) (.ofFrame rfl rfl rfl rfl) (exec_storesKept ran)

/-- Settles O5: each command keeps the posting queue exact, command by command in `exec_storesKept`. -/
theorem stepKeepsPostingQueueExact : Obligations.StepKeepsPostingQueueExact :=
  fun _ _ exact ran => postingExact_iff.mpr ((step_storesKept ran).orders.posting (postingExact_iff.mp exact))

/-- Settles O7: an order joins the run queue only past the context check, a boundary keeps the newest records and blocks, and a
capture's steps keep its writer within. -/
theorem stepKeepsCapacities : Obligations.StepKeepsCapacities := by
  intro s t within ran
  obtain ⟨queue, history, records, writer⟩ := withinCapacities_iff.mp within
  have kept := step_storesKept ran
  exact withinCapacities_iff.mpr ⟨kept.orders.runQueue queue, kept.history history, kept.records records, kept.writer writer⟩

end Sys2Proof.Orders
end

section
/-! PROOFS. Orders (02): news, acting on an end, starting a stream order, cancels. -/

namespace Sys2Proof.Orders

open Machine Safety Laws TransferMemory

/-! ## News (R42) -/

theorem getLsbD_causeMask (c : Cause) (i : Nat) : (causeMask c).getLsbD i = decide (i = causeBit c) := by
  have below : causeBit c < 13 := by cases c <;> decide
  simp only [causeMask, BitVec.getLsbD_ofNat, Nat.testBit_two_pow]
  by_cases h : i = causeBit c
  · subst h; simp [below]
  · simp [h, Ne.symm h]

/-- A mask asks for a cause by one bit. -/
theorem mask_asks (m : BitVec 13) (c : Cause) : m &&& causeMask c ≠ 0 ↔ m.getLsbD (causeBit c) = true := by
  have bit : ∀ i, (m &&& causeMask c).getLsbD i = (m.getLsbD i && decide (i = causeBit c)) := fun i => by
    rw [BitVec.getLsbD_and, getLsbD_causeMask]
  refine ⟨fun h => ?_, fun h none_ => ?_⟩
  · by_contra unset
    refine h (BitVec.eq_of_getLsbD_eq fun i _ => ?_)
    rw [bit i]
    by_cases hi : i = causeBit c
    · subst hi; simpa using unset
    · simp [hi]
  · have asked := bit (causeBit c)
    rw [none_, h] at asked
    simp at asked

/-- Settles O32: the bits of `setNews`, read off its two cases. -/
theorem newsFollowsMask : Obligations.NewsFollowsMask := by
  intro o n c
  refine ⟨setNews_idle, fun notFree notPosted => ?_⟩
  have eq := setNews_live (c := c) notFree notPosted
  have slot : (o.setNews n c).slot n = { o.slot n with news := (o.slot n).news ||| causeMask c } := by
    rw [eq]; exact OrderUnit.setSlot_slot_self _ _ _
  refine ⟨fun i _ => ?_, fun i _ => ?_, by rw [slot], (setNews_frame o n c).2.2, (setNews_frame o n c).1⟩
  · rw [slot, BitVec.getLsbD_or, getLsbD_causeMask]
  · rw [eq]
    dsimp only
    by_cases asks : (o.slot n).mask.getLsbD (causeBit c) = true
    · rw [if_pos ((mask_asks _ _).2 asks), BitVec.getLsbD_or, getLsbD_slotMask, asks, Bool.and_true]
    · rw [if_neg fun h => asks ((mask_asks _ _).1 h)]
      simp [asks]

/-! ## Finishing (R24, R40, R41) -/

/-- `Finished` turns on the port, the slots and the summary word alone. -/
theorem finished_congr {s t u : State} {n : SlotNo} {out : OrderOutcome} {code : RefusalCode} {late : Bool}
    (h : Finished s t n out code late) (port : u.port = t.port) (slots : u.orders.slots = t.orders.slots)
    (summary : u.orders.summary = t.orders.summary) : Finished s u n out code late := by
  unfold Finished Stored MemoryKeptOutside CheckBitsKeptOutside OrderUnit.slot at h ⊢
  rw [port, slots, summary]
  exact h

/-- The order unit's `finish`, whatever else of the state a command changes with it. -/
theorem finished_of_finish {s t : State} (mem : MemoryCanonical s) {n : SlotNo} {out : OrderOutcome} {code : RefusalCode} {late : Bool}
    (port : t.port = (s.hub.finish n out code late).port) (slots : t.orders.slots = (s.hub.finish n out code late).orders.slots)
    (summary : t.orders.summary = (s.hub.finish n out code late).orders.summary) : Finished s t n out code late :=
  finished_congr (finished_endTaken mem n out code late).1 port slots summary

theorem finish_orders (h : Hub) (n : SlotNo) (out : OrderOutcome) (code : RefusalCode) (late : Bool) :
    (h.finish n out code late).orders = { h.orders with
      slots := (h.finish n out code late).orders.slots, summary := (h.finish n out code late).orders.summary } :=
  (conclude_spec h n out code late).2.2.2.1

/-- A live slot's order is finished by a report of its end. -/
theorem finishReport_live {h : Hub} {r : EndReport} (live : (h.orders.slot r.slot).state.isLive = true) :
    h.finishReport r = h.finish r.slot r.outcome r.code (decide ((h.orders.slot r.slot).state = .stopping) && !r.own) := by
  unfold Hub.finishReport
  rcases (isLive_iff _).1 live with state | state | state <;> simp [state]

theorem finishReport_idle {h : Hub} {r : EndReport} (idle : (h.orders.slot r.slot).state.isLive = false) : h.finishReport r = h := by
  unfold Hub.finishReport
  cases state : (h.orders.slot r.slot).state <;> simp_all [SlotState.isLive]

theorem exec_finishOrder {s : State} {r : EndReport} {rest : List EndReport} (working : Working s) (ends : s.orders.ends = r :: rest) :
    exec .finishOrder s =
      .next ((s.setHub ((⟨s.port, { s.orders with ends := rest }⟩ : Hub).finishReport r)).dropRun r.slot) := by
  change execFinishOrder s = _
  unfold execFinishOrder
  rw [engineStep_warm working, ends]

/-- Which run of a finished slot is discarded. -/
theorem dropRun_eq (s : State) (n : SlotNo) : s.dropRun n = { s with
    capture := if s.capture.map (·.slot) = some n then none else s.capture
    calibration := if s.calibration.map (·.slot) = some n then none else s.calibration
    reports := if s.capture.map (·.slot) = some n ∨ s.calibration.map (·.slot) = some n then [] else s.reports } := by
  unfold State.dropRun
  cases s.capture <;> cases s.calibration <;> simp

/-- Settles O31: the report is acted on by `finishReport`, the run dropped by `dropRun`. -/
theorem finishActsOnEnd : Obligations.FinishActsOnEnd := by
  intro s r rest working mem ends s1 drops
  have ran := exec_finishOrder working ends
  rw [dropRun_eq] at ran
  refine ⟨fun live => ?_, fun idle => ?_⟩
  · rw [finishReport_live (h := ⟨s.port, { s.orders with ends := rest }⟩) live] at ran
    refine ⟨_, ran, finished_of_finish (s := s1) mem rfl rfl rfl, ?_⟩
    dsimp only [State.setHub]
    rw [finish_orders]
    rfl
  · rw [finishReport_idle (h := ⟨s.port, { s.orders with ends := rest }⟩) idle] at ran
    exact ran

/-! ## Starting a stream order (R34) -/

theorem refusing_iff {o : OrderUnit} : o.refusing = true ↔ ∃ e ∈ o.ends, e.outcome = .refused := by
  simp [OrderUnit.refusing]

section

variable {s : State} {n : SlotNo} {rest : List (SlotNo × StreamOrder)}

/-- What lets the head of the run queue, in a slot, be considered (R34). -/
def MayStart (s : State) (n : SlotNo) : Prop := s.port.phase = .ready ∧ streamBusy s.orders = false ∧ s.orders.refusing = false ∧
  transportBusy s.orders = false ∧ (s.orders.slot n).state = .taken

theorem exec_startCalibrate {o : CalibrateOrder} (queue : s.orders.runQueue = (n, .calibrate o) :: rest) (may : MayStart s n) :
    exec .startStreamOrder s =
      .next { s with orders := s.orders.startHead n rest, calibration := some (CalRun.start n o), reports := [] } := by
  change execStartStreamOrder s = _
  unfold execStartStreamOrder
  rw [queue]
  exact if_pos may

theorem exec_startCapture {o : CaptureOrder} (queue : s.orders.runQueue = (n, .capture o) :: rest) (may : MayStart s n)
    (watched : allWatched s.elements.table o.params o.tuning = true) : exec .startStreamOrder s =
      .next { s with
        port := s.port.prepareLists o, orders := s.orders.startHead n rest, capture := some (Capture.start n o), reports := [] } := by
  change execStartStreamOrder s = _
  unfold execStartStreamOrder
  rw [queue]
  exact (if_pos may).trans (if_pos watched)

theorem exec_startRefused {o : CaptureOrder} (queue : s.orders.runQueue = (n, .capture o) :: rest) (may : MayStart s n)
    (unwatched : allWatched s.elements.table o.params o.tuning = false) :
    exec .startStreamOrder s = .next { s with orders := s.orders.refuseHead n rest } := by
  change execStartStreamOrder s = _
  unfold execStartStreamOrder
  rw [queue]
  exact (if_pos may).trans (if_neg (by simp [unwatched]))

theorem exec_startStreamOrder_waits {order : StreamOrder} (queue : s.orders.runQueue = (n, order) :: rest)
    (may : ¬ MayStart s n) : exec .startStreamOrder s = .next s := by
  change execStartStreamOrder s = _
  unfold execStartStreamOrder
  rw [queue]
  exact if_neg may

theorem slotBecomes_setState {t : State} {st : SlotState} (slots : t.orders.slots = (s.orders.setState n st).slots) :
    SlotBecomes s t n st := by
  unfold SlotBecomes OrderUnit.slot
  rw [slots]
  exact ⟨OrderUnit.setState_slot_self _ _ _, fun m hm => OrderUnit.setState_slot_of_ne _ _ hm⟩

end

/-- A port with zero stored into words, one after the other. -/
def zeroed (p : Port) (words : List Nat) : Port := words.foldl (fun p a => p.store a 0) p

theorem readByte_store_zero {p : Port} (mem : Memory.wf p.mem = true) {a x : Nat} (h : readByte p.mem x = 0 ∨ a ≤ x ∧ x < a + 4) :
    readByte (p.store a 0).mem x = 0 := by
  by_cases inside : a ≤ x ∧ x < a + 4
  · obtain ⟨i, rfl⟩ := Nat.exists_eq_add_of_le inside.1
    have short : i < 4 := by omega
    rw [Port.store_mem, writeMemWord, readByte_writeBytes_inside mem short, wordBytes]
    simp only [byteOf_zero]
    interval_cases i <;> rfl
  · rw [(store_spec mem a 0).2.2.1 x (by omega)]
    exact h.resolve_right inside

/-- The bytes of the words zeroed are zero, wherever the words lie. -/
theorem readByte_zeroed {words : List Nat} {p : Port} (mem : Memory.wf p.mem = true) {x : Nat}
    (h : readByte p.mem x = 0 ∨ ∃ a ∈ words, a ≤ x ∧ x < a + 4) : readByte (zeroed p words).mem x = 0 := by
  induction words generalizing p with
  | nil => exact h.resolve_right (by simp)
  | cons a words ih =>
    refine ih (p := p.store a 0) (portWf_store mem a 0) ?_
    rcases h with zero | ⟨b, hb, inside⟩
    · exact .inl (readByte_store_zero mem (.inl zero))
    · rcases List.mem_cons.1 hb with rfl | hb
      · exact .inl (readByte_store_zero mem (.inr inside))
      · exact .inr ⟨b, hb, inside⟩

theorem wrote_prepareLists (p : Port) (o : CaptureOrder) :
    Wrote p (p.prepareLists o) [(o.params.mapAddr + 4, 8), (o.params.repairAddr + 4, 8)] := by
  have wrote := ((wrote_store p (o.params.mapAddr + 4) 0).store (o.params.mapAddr + 8) 0).store (o.params.repairAddr + 4) 0
  refine (wrote.store (o.params.repairAddr + 8) 0).cover fun a outside => ?_
  simp only [Outside, List.forall_mem_cons, List.cons_append, List.nil_append] at outside ⊢
  obtain ⟨map, repair, -⟩ := outside
  refine ⟨?_, ?_, ?_, ?_, nofun⟩ <;> omega

/-- Settles O30: one lemma for each of the three ways the head of the run queue leaves it. -/
theorem startOfStreamOrder : Obligations.StartOfStreamOrder := by
  intro s n order rest queue
  refine ⟨fun waits => exec_startStreamOrder_waits queue ?_, fun ready mem free idle none_ taken => ?_⟩
  · rintro ⟨ready, stream, refusing, transport, -⟩
    rcases waits with phase | busy | busy | refused
    · exact phase ready
    · simp [stream] at busy
    · simp [transport] at busy
    · simp [refusing_iff.2 refused] at refusing
  · have may : MayStart s n := ⟨ready, free, Bool.eq_false_iff.2 fun h => by
      obtain ⟨e, he, refused⟩ := refusing_iff.1 h
      exact none_ e he refused, idle, taken⟩
    refine ⟨?_, ?_, ?_⟩
    · rintro o rfl
      exact ⟨_, _, exec_startCalibrate queue may, slotBecomes_setState rfl, rfl, rfl, rfl, rfl, rfl, rfl, rfl, rfl⟩
    · rintro o rfl watched
      have zero := fun x h => readByte_zeroed (x := x)
        (words := [o.params.mapAddr + 4, o.params.mapAddr + 8, o.params.repairAddr + 4, o.params.repairAddr + 8]) mem (.inr h)
      refine ⟨_, _, exec_startCapture queue may watched, slotBecomes_setState rfl, rfl, rfl, rfl, rfl, rfl, rfl, rfl, rfl,
        fun a outside => (wrote_prepareLists s.port o).bytes mem a outside, fun a low high => zero a ?_, fun a low high => zero a ?_⟩
      · simp only [List.exists_mem_cons_iff]
        omega
      · simp only [List.exists_mem_cons_iff]
        omega
    · rintro o rfl unwatched
      exact exec_startRefused queue may unwatched

/-! ## Cancels (R36, R39, R40) -/

theorem exec_cancel {s : State} {n : SlotNo} (ready : Ready s)
    (live : (s.orders.slot n).state = .taken ∨ (s.orders.slot n).state = .running) :
    exec (.cancel n) s = .next (s.cancelSlot n) := by
  change Host.Outcome.next (hostWriteWord (stateAddr n) (word (slotCode .stopping)) s) = _
  rw [hostWriteWord_slotState_ready ready]
  rcases live with state | state <;> simp [state, word, slotCode]

theorem exec_cancel_idle {s : State} {n : SlotNo}
    (idle : ¬ (s.port.phase = .ready ∧ ((s.orders.slot n).state = .taken ∨ (s.orders.slot n).state = .running))) :
    exec (.cancel n) s = .next s := by
  change Host.Outcome.next (hostWriteWord (stateAddr n) (word (slotCode .stopping)) s) = _
  by_cases ready : s.port.phase = .ready
  · rw [hostWriteWord_slotState_ready ready]
    simp [word, slotCode]
    exact fun live => absurd ⟨ready, live⟩ idle
  · rw [hostWriteWord_slotState_idle ready]

theorem settled_runQueue (s : State) : (settled s).orders.runQueue = s.orders.runQueue := by
  rw [settled_orders s]

theorem cancelSlot_queued {s : State} {n : SlotNo} (queued : ∃ q ∈ s.orders.runQueue, q.1 = n) :
    s.cancelSlot n = (settled s).setHub ((settled s).hub.cancelQueued n) := by
  rw [← settled_runQueue] at queued
  obtain ⟨q, member, own⟩ := queued
  exact if_pos (List.any_eq_true.2 ⟨q, member, decide_eq_true own⟩)

/-- The state with a slot STOPPING, once what has come due is carried out. -/
def stopped (s : State) (n : SlotNo) : State := { settled s with orders := (settled s).orders.setState n .stopping }

theorem cancelSlot_bound {s : State} {n : SlotNo} (free : ∀ q ∈ s.orders.runQueue, q.1 ≠ n) :
    s.cancelSlot n = (stopped s n).cancelLive n := by
  rw [← settled_runQueue] at free
  exact if_neg fun queued => by
    obtain ⟨q, member, own⟩ := List.any_eq_true.1 queued
    exact free q member (of_decide_eq_true own)

theorem memoryCanonical_settled {s : State} (mem : MemoryCanonical s) : MemoryCanonical (settled s) :=
  (settled_kept s).frame.2.1.wf mem

/-- Settles O23: a queued order is finished with the cancel; a write that finds no live order is discarded. -/
theorem cancelOfQueuedOrder : Obligations.CancelOfQueuedOrder := by
  refine ⟨fun s n ready mem taken queued => ?_, fun s n => exec_cancel_idle⟩
  have ran := exec_cancel ready (.inl taken)
  rw [cancelSlot_queued queued, cancelQueued_eq] at ran
  refine ⟨_, ran, finished_of_finish (s := (settled s).setHub (dequeued (settled s).hub n)) (memoryCanonical_settled mem) rfl rfl rfl,
    ?_, ?_⟩
  · rw [State.setHub_orders, finish_orders, ← settled_runQueue s]
    rfl
  · dsimp only [State.setHub]
    rw [finish_orders]
    rfl

section

variable {s : State} {n : SlotNo}

theorem stopped_live : ((stopped s n).orders.slot n).live = (s.orders.slot n).live := by
  rw [stopped, OrderUnit.setState_slot_self, settled_slot]

/-! ### A cancel of an order that is not queued, by the kind of the live order -/

theorem cancelLive_none (live : (s.orders.slot n).live = none) : s.cancelLive n = s := by
  rw [State.cancelLive, live]

theorem cancelLive_calibrate (live : (s.orders.slot n).live = some .calibrate) : s.cancelLive n = s.cancelCalibration n := by
  rw [State.cancelLive, live]

theorem cancelLive_transport (live : (s.orders.slot n).live = some .transport) :
    s.cancelLive n = s.setHub (s.hub.cancelTransport n) := by
  rw [State.cancelLive, live]

theorem cancelLive_retune {cap : Capture} (live : (s.orders.slot n).live = some .retune) (capture : s.capture = some cap) :
    s.cancelLive n = s.setCx (Cx.cancelRetune ⟨s.hub, cap⟩ s.elements.table n) := by
  rw [State.cancelLive, live]
  dsimp only
  rw [State.onCapture, capture]

theorem cancelLive_source {cap : Capture} (live : (s.orders.slot n).live = some .source) (capture : s.capture = some cap) :
    s.cancelLive n = s.setCx (groupList.foldl (Cx.cancelSource n) ⟨s.hub, cap⟩) := by
  rw [State.cancelLive, live]
  dsimp only
  rw [State.onCapture, capture]

end

/-- A RETUNE's cancel drops its pending tuning, the units going back to the tuning in force (R36, R165; log 60). -/
theorem cancelRetune_pending {c : Cx} {n : SlotNo} {p : PendingTuning} (pending : c.cap.control.pending = some p) (own : p.slot = n)
    (table : Vector CalEntry 16) : c.cancelRetune table n = ⟨c.hub.report n .cancelled true,
      unitsFor table c.cap.control.tuning { c.cap with control := { c.cap.control with pending := none } }⟩ := by
  have back := followTuning_eq_unitsFor (cap := { c.cap with control := { c.cap.control with pending := none } })
    (t := c.cap.control.tuning) (fun _ => rfl) table
  unfold Cx.cancelRetune
  rw [pending]
  dsimp only
  rw [if_pos own, ← back]
  rfl

theorem cancelRetune_foreign {c : Cx} {n : SlotNo} (foreign : ∀ p, c.cap.control.pending = some p → p.slot ≠ n)
    (table : Vector CalEntry 16) : c.cancelRetune table n = c := by
  unfold Cx.cancelRetune
  split
  · rfl
  · rename_i p pending
    exact if_neg (foreign p pending)

/-- The slot's SOURCE order of a group withdrawn: waiting, CANCELLED; in probation, COMPLETE, its count written (R40, R141). -/
def withdrawnSource (c : Cx) (g : Group) (r : SourceRun) : Cx :=
  if r.isWaiting then c.endSource g r .cancelled true else (c.writeProbation r).endSource g r .complete false

theorem cancelSource_own {c : Cx} {n : SlotNo} {g : Group} {r : SourceRun} (source : c.cap.control.sources.get g = some r)
    (own : r.slot = n) : c.cancelSource n g = withdrawnSource c g r := by
  unfold Cx.cancelSource
  rw [source]
  exact if_pos own

theorem cancelSource_foreign {c : Cx} {n : SlotNo} {g : Group} (foreign : ∀ r, c.cap.control.sources.get g = some r → r.slot ≠ n) :
    c.cancelSource n g = c := by
  unfold Cx.cancelSource
  split
  · rfl
  · rename_i r source
    exact if_neg (foreign r source)

theorem withdrawnSource_waiting {r : SourceRun} {count : Nat} (phase : r.phase = .waiting count) (c : Cx) (g : Group) :
    withdrawnSource c g r = ⟨c.hub.report r.slot .cancelled true, withSource c.cap g none⟩ := by
  rw [withdrawnSource, if_pos (by simp [SourceRun.isWaiting, phase])]
  rfl

theorem withdrawnSource_probation {r : SourceRun} {count : Nat} {list : List Source} {source : Option Source}
    (phase : r.phase = .probation count list source) (c : Cx) (g : Group) : withdrawnSource c g r =
      ⟨(c.hub.slotWrite r.slot 0x2C (word count)).report r.slot .complete false, withSource c.cap g none⟩ := by
  rw [withdrawnSource, if_neg (by simp [SourceRun.isWaiting, phase]), Cx.writeProbation, phase]
  rfl

theorem withdrawnSource_cap (c : Cx) (g : Group) (r : SourceRun) : (withdrawnSource c g r).cap = withSource c.cap g none := by
  cases phase : r.phase with
  | waiting count => rw [withdrawnSource_waiting phase]
  | probation count list source => rw [withdrawnSource_probation phase]

/-- Of the two groups only that of the slot's own SOURCE order changes. -/
theorem cancelSources_own {c : Cx} {n : SlotNo} {g : Group} {r : SourceRun} (source : c.cap.control.sources.get g = some r)
    (own : r.slot = n) (others : ∀ h x, h ≠ g → c.cap.control.sources.get h = some x → x.slot ≠ n) :
    groupList.foldl (Cx.cancelSource n) c = withdrawnSource c g r := by
  cases g with
  | a =>
    change (c.cancelSource n .a).cancelSource n .b = _
    rw [cancelSource_own source own]
    refine cancelSource_foreign fun x other => others .b x (by decide) ?_
    rwa [withdrawnSource_cap] at other
  | b =>
    change (c.cancelSource n .a).cancelSource n .b = _
    rw [cancelSource_foreign fun x other => others .a x (by decide) other, cancelSource_own source own]

/-- A CALIBRATE run's cancel: one not yet in STOPPING ends as the cancel's own effect (R80). -/
theorem cancelCalibration_own {s : State} {n : SlotNo} {r : CalRun} (run : s.calibration = some r) (own : r.slot = n) :
    s.cancelCalibration n = if r.state = .stopping then s else
      { s with calibration := none, orders := { s.orders with ends := reported s n .cancelled true } } := by
  unfold State.cancelCalibration
  rw [run]
  by_cases stopping : r.state = .stopping
  · simp [stopping]
  · simp [stopping, own]
    rfl

theorem cancelTransport_eq (s : State) (n : SlotNo) : s.setHub (s.hub.cancelTransport n) =
    if s.orders.pendingTransport.map (·.slot) = some n then
      { s with orders := { s.orders with ends := reported s n .cancelled true, pendingTransport := none } }
    else s := by
  unfold Hub.cancelTransport
  cases pending : s.orders.pendingTransport with
  | none => simp [pending]
  | some p =>
    by_cases own : p.slot = n
    · simp [pending, own]
      rfl
    · simp [pending, own]

/-- Settles O24: kind by kind, from what each cancel does with its own record. -/
theorem cancelOfBoundOrder : Obligations.CancelOfBoundOrder := by
  constructor
  · intro s n ready state free s1 st
    have ran := exec_cancel ready state
    rw [cancelSlot_bound free] at ran
    refine ⟨fun live r run own => ?_, fun live => ?_, fun live => ?_⟩
    · rw [ran, cancelLive_calibrate (stopped_live.trans live), cancelCalibration_own (s := stopped s n) run own]
      rfl
    · rw [ran, cancelLive_transport (stopped_live.trans live), cancelTransport_eq]
      rfl
    · rw [ran, cancelLive_none (stopped_live.trans live)]
      rfl
  · intro s n cap ready state free capture s1 st k
    have ran := exec_cancel ready state
    rw [cancelSlot_bound free] at ran
    refine ⟨fun live p pending own => ?_, fun live foreign => ?_, fun live g r count source own phase others => ?_,
      fun live g r count list src source own phase others => ?_⟩
    · rw [ran, cancelLive_retune (stopped_live.trans live) capture, cancelRetune_pending (c := ⟨_, cap⟩) pending own]
      rfl
    · rw [ran, cancelLive_retune (stopped_live.trans live) capture, cancelRetune_foreign (c := ⟨_, cap⟩) foreign]
      exact congrArg _ (setCx_self (s := stopped s n) capture)
    · rw [ran, cancelLive_source (stopped_live.trans live) capture, cancelSources_own (c := ⟨_, cap⟩) source own others,
        withdrawnSource_waiting phase, own]
      rfl
    · rw [ran, cancelLive_source (stopped_live.trans live) capture, cancelSources_own (c := ⟨_, cap⟩) source own others,
        withdrawnSource_probation phase, own]
      rfl

end Sys2Proof.Orders
end

section
/-! PROOFS. Copying an order (02, R27): what a copying gives where its words can be read, and where one cannot. -/

namespace Sys2Proof.Orders

open Machine Safety Laws TransferMemory

/-! ## Copyings and what they give -/

/-- One port follows from another by reads of words that could be read. -/
structure Corrected (p q : Port) : Prop where
  frame : q = { p with ecc := q.ecc, corrected := q.corrected }
  faulty : ∀ a, eccAt q.ecc a = some .uncorrectable ↔ eccAt p.ecc a = some .uncorrectable

theorem Corrected.refl (p : Port) : Corrected p p := ⟨rfl, fun _ => Iff.rfl⟩

theorem Corrected.trans {p q r : Port} (h : Corrected p q) (k : Corrected q r) : Corrected p r :=
  ⟨by rw [k.frame, h.frame], fun a => (k.faulty a).trans (h.faulty a)⟩

theorem Corrected.mem {p q : Port} (h : Corrected p q) : q.mem = p.mem := by rw [h.frame]

/-- Of the words of a record one cannot be read. -/
def Faulty (p : Port) (a n : Nat) : Prop := ∃ i < n, eccAt p.ecc (a + 4 * i) = some .uncorrectable

theorem Corrected.faulty_iff {p q : Port} (h : Corrected p q) {a n : Nat} : Faulty q a n ↔ Faulty p a n := by
  simp only [Faulty, h.faulty]

/-- The words of a record as memory holds them. -/
def recordAt (p : Port) (a n : Nat) : List Word := (List.range n).map fun i => readMemWord p.mem (a + 4 * i)

theorem recordAt_succ (p : Port) (a n : Nat) : recordAt p a (n + 1) = readMemWord p.mem a :: recordAt p (a + 4) n := by
  have shift : ∀ i, a + 4 * (i + 1) = a + 4 + 4 * i := fun i => by ring
  simp [recordAt, List.range_succ_eq_map, Function.comp_def, shift]

theorem Corrected.recordAt {p q : Port} (h : Corrected p q) (a n : Nat) : recordAt q a n = recordAt p a n := by
  simp only [Orders.recordAt, h.mem]

/-- A copying gives a value over reads that all succeed. -/
def Gives {α : Type} (m : Copy α) (p : Port) (x : α) : Prop := ∃ q, m.run.run p = (.ok x, q) ∧ Corrected p q

/-- A copying meets a word that cannot be read. -/
def Faults {α : Type} (m : Copy α) (p : Port) : Prop :=
  ∃ q, m.run.run p = (.error .memoryFault, q) ∧ q.uncorrected = true ∧ q.mem = p.mem

/-- How a copying goes on after its first part. -/
theorem run_bind {α β : Type} (m : Copy α) (f : α → Copy β) (p : Port) : (m >>= f).run.run p =
    match m.run.run p with
    | (.ok x, q) => (f x).run.run q
    | (.error e, q) => (.error e, q) := by
  show (ExceptT.bind m f) p = _
  unfold ExceptT.bind ExceptT.mk
  show (ExceptT.bindCont f (m p).1) (m p).2 = match m p with
    | (.ok x, q) => (f x).run.run q
    | (.error e, q) => (.error e, q)
  rcases m p with ⟨_ | _, _⟩ <;> rfl

section

variable {α β : Type} {m : Copy α} {f : α → Copy β} {p : Port} {x : α}

theorem gives_pure (x : α) (p : Port) : Gives (pure x) p x := ⟨p, rfl, .refl p⟩

theorem Gives.bind {y : β} (h : Gives m p x) (k : ∀ q, Corrected p q → Gives (f x) q y) : Gives (m >>= f) p y := by
  obtain ⟨q, ran, read⟩ := h
  obtain ⟨r, rest, more⟩ := k q read
  refine ⟨r, ?_, read.trans more⟩
  rw [run_bind, ran]
  exact rest

theorem Faults.bind (h : Faults m p) : Faults (m >>= f) p := by
  obtain ⟨q, ran, fault⟩ := h
  refine ⟨q, ?_, fault⟩
  rw [run_bind, ran]

theorem Gives.faults (h : Gives m p x) (k : ∀ q, Corrected p q → Faults (f x) q) : Faults (m >>= f) p := by
  obtain ⟨q, ran, read⟩ := h
  obtain ⟨r, rest, fault, mem⟩ := k q read
  refine ⟨r, ?_, fault, mem.trans read.mem⟩
  rw [run_bind, ran]
  exact rest

/-- A fault later on, whether the first part meets one or not. -/
theorem faults_later (h : Faults m p ∨ ∃ x, Gives m p x) (k : ∀ x q, Corrected p q → Faults (f x) q) : Faults (m >>= f) p := by
  rcases h with fault | ⟨x, read⟩
  · exact fault.bind
  · exact read.faults (k x)

end

/-! ## Words and records -/

theorem checkedRead_readable {p : Port} {a : Nat} (h : eccAt p.ecc a ≠ some .uncorrectable) :
    (p.checkedRead a).1 = some (readMemWord p.mem a) ∧ Corrected p (p.checkedRead a).2 := by
  refine ⟨(checkedRead_fst p a).trans (if_neg h), ?_, fun b => ?_⟩
  · have counts := (checkedRead_counts p a).2
    rw [decide_eq_false h, Bool.or_false] at counts
    have frame := checkedRead_frame p a
    dsimp only at frame
    rw [counts] at frame
    exact frame
  · obtain ⟨others, own⟩ := checkedRead_ecc p a
    by_cases hb : b = a
    · subst hb; rw [own, if_neg h]; simp [h]
    · rw [others b hb]

theorem readWords_succ_readable {p : Port} {a : Nat} (h : eccAt p.ecc a ≠ some .uncorrectable) (n : Nat) :
    p.readWords a (n + 1) =
      (((p.checkedRead a).2.readWords (a + 4) n).1.map (readMemWord p.mem a :: ·), ((p.checkedRead a).2.readWords (a + 4) n).2) := by
  have first := (checkedRead_readable h).1
  rw [Port.readWords]
  generalize p.checkedRead a = r at first ⊢
  obtain ⟨v, q⟩ := r
  cases first
  dsimp only
  rcases q.readWords (a + 4) n with ⟨_ | _, _⟩ <;> rfl

theorem readWords_succ_faulty {p : Port} {a : Nat} (h : eccAt p.ecc a = some .uncorrectable) (n : Nat) :
    p.readWords a (n + 1) = (none, { p with uncorrected := true }) := by
  rw [Port.readWords, checkedRead_uncorrectable h]

theorem readWords_readable {n : Nat} {p : Port} {a : Nat} (h : ¬ Faulty p a n) :
    (p.readWords a n).1 = some (recordAt p a n) ∧ Corrected p (p.readWords a n).2 := by
  induction n generalizing p a with
  | zero => exact ⟨rfl, .refl p⟩
  | succ n ih =>
    have first : eccAt p.ecc a ≠ some .uncorrectable := fun bad => h ⟨0, n.succ_pos, by simpa using bad⟩
    have read := (checkedRead_readable first).2
    have rest : ¬ Faulty p (a + 4) n := fun ⟨i, hi, bad⟩ =>
      h ⟨i + 1, Nat.succ_lt_succ hi, by rwa [show a + 4 * (i + 1) = a + 4 + 4 * i by ring]⟩
    obtain ⟨words, more⟩ := ih (fun bad => rest (read.faulty_iff.1 bad))
    rw [readWords_succ_readable first, words, recordAt_succ, read.recordAt]
    exact ⟨rfl, read.trans more⟩

theorem readWords_faulty {n : Nat} {p : Port} {a : Nat} (h : Faulty p a n) : (p.readWords a n).1 = none ∧
    (p.readWords a n).2.uncorrected = true ∧ (p.readWords a n).2.mem = p.mem := by
  induction n generalizing p a with
  | zero => obtain ⟨i, hi, -⟩ := h; exact absurd hi (Nat.not_lt_zero i)
  | succ n ih =>
    by_cases first : eccAt p.ecc a = some .uncorrectable
    · rw [readWords_succ_faulty first]
      exact ⟨rfl, rfl, rfl⟩
    · have read := (checkedRead_readable first).2
      obtain ⟨i, hi, bad⟩ := h
      cases i with
      | zero => exact absurd (by simpa using bad) first
      | succ i =>
        have rest : Faulty p (a + 4) n :=
          ⟨i, Nat.lt_of_succ_lt_succ hi, by rwa [show a + 4 * (i + 1) = a + 4 + 4 * i by ring] at bad⟩
        obtain ⟨none_, flag, mem⟩ := ih (read.faulty_iff.2 rest)
        rw [readWords_succ_readable first, none_]
        exact ⟨rfl, flag, mem.trans read.mem⟩

theorem gives_words {p : Port} {a n : Nat} (h : ¬ Faulty p a n) : Gives (copyWords a n) p (recordAt p a n) := by
  obtain ⟨words, read⟩ := readWords_readable h
  refine ⟨_, ?_, read⟩
  show copyWords a n p = _
  unfold copyWords
  generalize p.readWords a n = r at words ⊢
  obtain ⟨v, q⟩ := r
  cases words
  rfl

theorem faults_words {p : Port} {a n : Nat} (h : Faulty p a n) : Faults (copyWords a n) p := by
  obtain ⟨none_, fault⟩ := readWords_faulty h
  refine ⟨_, ?_, fault⟩
  show copyWords a n p = _
  unfold copyWords
  generalize p.readWords a n = r at none_ ⊢
  obtain ⟨v, q⟩ := r
  cases none_
  rfl

/-- A record of the general area as memory holds it; none where part of it lies outside (R27). -/
def recordIf (p : Port) (a n : Nat) : Option (List Word) := if inGeneral a (4 * n) = true then some (recordAt p a n) else none

theorem Corrected.recordIf {p q : Port} (h : Corrected p q) (a n : Nat) : recordIf q a n = recordIf p a n := by
  simp only [Orders.recordIf, h.recordAt]

theorem gives_ifInside {p : Port} {a n : Nat} (h : inGeneral a (4 * n) = true → ¬ Faulty p a n) :
    Gives (copyIfInside a n) p (recordIf p a n) := by
  unfold copyIfInside recordIf
  by_cases inside : inGeneral a (4 * n) = true
  · rw [if_pos inside, if_pos inside]
    exact (gives_words (h inside)).bind fun q _ => gives_pure _ q
  · rw [if_neg inside, if_neg inside]
    exact gives_pure _ p

theorem faults_ifInside {p : Port} {a n : Nat} (inside : inGeneral a (4 * n) = true) (bad : Faulty p a n) :
    Faults (copyIfInside a n) p := by
  unfold copyIfInside
  rw [if_pos inside]
  exact (faults_words bad).bind

theorem ifInside_gives_or_faults (p : Port) (a n : Nat) : Faults (copyIfInside a n) p ∨ ∃ x, Gives (copyIfInside a n) p x := by
  by_cases bad : inGeneral a (4 * n) = true ∧ Faulty p a n
  · exact .inl (faults_ifInside bad.1 bad.2)
  · exact .inr ⟨_, gives_ifInside fun inside faulty => bad ⟨inside, faulty⟩⟩

/-! ## Descriptors and span lists -/

/-- The descriptors of an array as memory holds them (11). -/
def descsAt (p : Port) (a count : Nat) : Option (List SpanDesc) :=
  (recordIf p a (8 * count)).map fun l => (List.range count).map (parseDesc a l)

theorem gives_descs {p : Port} {a n : Nat} (h : inGeneral a (4 * (8 * n)) = true → ¬ Faulty p a (8 * n)) :
    Gives (copyDescs a n) p (descsAt p a n) := (gives_ifInside h).bind fun q _ => gives_pure _ q

theorem faults_descs {p : Port} {a n : Nat} (inside : inGeneral a (4 * (8 * n)) = true) (bad : Faulty p a (8 * n)) :
    Faults (copyDescs a n) p := (faults_ifInside inside bad).bind

theorem descs_give_or_fault (p : Port) (a n : Nat) : Faults (copyDescs a n) p ∨ ∃ x, Gives (copyDescs a n) p x := by
  rcases ifInside_gives_or_faults p a (8 * n) with bad | ⟨x, read⟩
  · exact .inl bad.bind
  · exact .inr ⟨_, read.bind fun q _ => gives_pure _ q⟩

theorem Corrected.descsAt {p q : Port} (h : Corrected p q) (a n : Nat) : descsAt q a n = descsAt p a n := by
  simp only [Orders.descsAt, h.recordIf]

/-- A group's descriptors as memory holds them; a group with no active lane has none (R27). -/
def spansAt (p : Port) (c : CaptureParams) (g : Group) : Option (List SpanDesc) :=
  if groupActive c g then descsAt p (c.spanAddr.get g) (c.spanCount.get g) else some []

theorem gives_spans {p : Port} {c : CaptureParams} {g : Group} (h : ∀ a n, ¬ Faulty p a n) :
    Gives (copySpans c g) p (spansAt p c g) := by
  unfold copySpans spansAt
  split
  · exact gives_descs fun _ => h _ _
  · exact gives_pure _ p

theorem spans_give_or_fault (p : Port) (c : CaptureParams) (g : Group) :
    Faults (copySpans c g) p ∨ ∃ x, Gives (copySpans c g) p x := by
  unfold copySpans
  split
  · exact descs_give_or_fault p _ _
  · exact .inr ⟨_, gives_pure _ p⟩

theorem faults_spans {p : Port} {c : CaptureParams} {g : Group} (active : groupActive c g = true)
    (inside : inGeneral (c.spanAddr.get g) (4 * (8 * c.spanCount.get g)) = true)
    (bad : Faulty p (c.spanAddr.get g) (8 * c.spanCount.get g)) : Faults (copySpans c g) p := by
  unfold copySpans
  rw [if_pos active]
  exact faults_descs inside bad

/-- A CAPTURE's excerpt descriptors copied. -/
def copyExcerpts (c : CaptureParams) : Copy (Option (List SpanDesc)) :=
  if c.excerptCount = 0 then pure (some []) else copyDescs c.excerptAddr c.excerptCount

/-- A CAPTURE's excerpt descriptors as memory holds them. -/
def excerptsAt (p : Port) (c : CaptureParams) : Option (List SpanDesc) :=
  if c.excerptCount = 0 then some [] else descsAt p c.excerptAddr c.excerptCount

theorem gives_excerpts {p : Port} {c : CaptureParams} (h : ∀ a n, ¬ Faulty p a n) : Gives (copyExcerpts c) p (excerptsAt p c) := by
  unfold copyExcerpts excerptsAt
  split
  · exact gives_pure _ p
  · exact gives_descs fun _ => h _ _

theorem faults_excerpts {p : Port} {c : CaptureParams} (inside : inGeneral c.excerptAddr (4 * (8 * c.excerptCount)) = true)
    (bad : Faulty p c.excerptAddr (8 * c.excerptCount)) : Faults (copyExcerpts c) p := by
  unfold copyExcerpts
  have some_ : c.excerptCount ≠ 0 := fun none_ => by
    obtain ⟨i, hi, -⟩ := bad
    omega
  rw [if_neg some_]
  exact faults_descs inside bad

end Sys2Proof.Orders
end

section
/-! PROOFS. Copying an order (02, R27), kind by kind: the parameters, and the whole copy. -/

namespace Sys2Proof.Orders

open Machine Safety Laws TransferMemory

/-! ## A CAPTURE -/

/-- The lists and the profile of a CAPTURE copied, its block being read (R27). -/
def copyLists (c : CaptureParams) : Copy CaptureCopy := do
  let profile ← copyIfInside c.profileAddr 16
  let map ← copyIfInside c.mapAddr 4
  let repair ← copyIfInside c.repairAddr 4
  let a ← copySpans c .a
  let b ← copySpans c .b
  let e ← copyExcerpts c
  let capacity := fun (l : Option (List Word)) => l.map fun ws => (at_ ws 0).toNat
  return { params := c, tuning := profile.map parseTuning, mapCapacity := capacity map, repairCapacity := capacity repair,
           spans := ⟨a, b⟩, excerpts := e }

/-- A CAPTURE copied from its block on. -/
def copyBlock : Option (List Word) → Copy CaptureCopy
  | none => throw .badLayout
  | some ws => copyLists (parseCaptureParams ws)

theorem copyCapture_eq (base : Nat) : copyCapture base =
    copyWords (base + 0x10) 1 >>= fun w => copyIfInside (alignedAddr (at_ w 0)) 20 >>= copyBlock := by
  unfold copyCapture
  refine congrArg _ (funext fun w => congrArg _ (funext fun block => ?_))
  cases block with
  | none => rfl
  | some ws =>
    dsimp only [copyBlock, copyLists, copyExcerpts]
    split <;> rfl

/-- The list capacity in a copied header. -/
def capacityAt (p : Port) (a : Nat) : Option Nat := (recordIf p a 4).map fun ws => (at_ ws 0).toNat

/-- What memory holds of a CAPTURE with the given parameters. -/
def capturedAt (p : Port) (c : CaptureParams) : CaptureCopy :=
  { params := c, tuning := (recordIf p c.profileAddr 16).map parseTuning, mapCapacity := capacityAt p c.mapAddr
    repairCapacity := capacityAt p c.repairAddr, spans := ⟨spansAt p c .a, spansAt p c .b⟩, excerpts := excerptsAt p c }

/-- The general area's records read the same after reads that succeed. -/
theorem Corrected.capturedAt {p q : Port} (h : Corrected p q) (c : CaptureParams) : capturedAt q c = capturedAt p c := by
  simp only [Orders.capturedAt, capacityAt, spansAt, excerptsAt, h.recordIf, h.descsAt]

theorem Corrected.clean {p q : Port} (h : Corrected p q) (clean : ∀ a n, ¬ Faulty p a n) : ∀ a n, ¬ Faulty q a n :=
  fun a n bad => clean a n (h.faulty_iff.1 bad)

theorem gives_lists {p : Port} (clean : ∀ a n, ¬ Faulty p a n) (c : CaptureParams) : Gives (copyLists c) p (capturedAt p c) := by
  refine (gives_ifInside fun _ => clean _ _).bind fun q1 r1 => ?_
  refine (gives_ifInside fun _ => r1.clean clean _ _).bind fun q2 r2 => ?_
  have r2 := r1.trans r2
  refine (gives_ifInside fun _ => r2.clean clean _ _).bind fun q3 r3 => ?_
  have r3 := r2.trans r3
  refine (gives_spans (r3.clean clean)).bind fun q4 r4 => ?_
  have r4 := r3.trans r4
  refine (gives_spans (r4.clean clean)).bind fun q5 r5 => ?_
  have r5 := r4.trans r5
  refine (gives_excerpts (r5.clean clean)).bind fun q6 _ => ?_
  have same : capturedAt p c =
      { params := c, tuning := (recordIf p c.profileAddr 16).map parseTuning
        mapCapacity := (recordIf q1 c.mapAddr 4).map fun ws => (at_ ws 0).toNat
        repairCapacity := (recordIf q2 c.repairAddr 4).map fun ws => (at_ ws 0).toNat
        spans := ⟨spansAt q3 c .a, spansAt q4 c .b⟩, excerpts := excerptsAt q5 c } := by
    simp only [capturedAt, capacityAt, spansAt, excerptsAt, r1.recordIf, r2.recordIf, r3.descsAt, r4.descsAt, r5.descsAt]
  rw [same]
  exact gives_pure _ q6

/-- The records of a CAPTURE that are read where they lie in the general area, by address and words. -/
def ListsRead (c : CaptureParams) (a n : Nat) : Prop :=
  (a, n) ∈ [(c.profileAddr, 16), (c.mapAddr, 4), (c.repairAddr, 4), (c.excerptAddr, 8 * c.excerptCount)] ∨
    ∃ g, groupActive c g = true ∧ (a, n) = (c.spanAddr.get g, 8 * c.spanCount.get g)

/-- A record that is read and cannot be read to its end faults the copying, wherever it stands in the order of reads. -/
theorem faults_lists {p : Port} {c : CaptureParams} {a n : Nat} (read : ListsRead c a n) (inside : inGeneral a (4 * n) = true)
    (bad : Faulty p a n) : Faults (copyLists c) p := by
  have excerpts : (a, n) = (c.excerptAddr, 8 * c.excerptCount) → ∀ q, Corrected p q → Faults (copyExcerpts c) q := fun e q r => by
    cases e; exact faults_excerpts inside (r.faulty_iff.2 bad)
  have spans : ∀ g, groupActive c g = true ∧ (a, n) = (c.spanAddr.get g, 8 * c.spanCount.get g) →
      ∀ q, Corrected p q → Faults (copySpans c g) q := fun g ⟨active, e⟩ q r => by
    cases e; exact faults_spans active inside (r.faulty_iff.2 bad)
  have record : ∀ a' n', (a, n) = (a', n') → ∀ q, Corrected p q → Faults (copyIfInside a' n') q := fun a' n' e q r => by
    cases e; exact faults_ifInside inside (r.faulty_iff.2 bad)
  simp only [ListsRead, List.mem_cons, List.not_mem_nil, or_false] at read
  by_cases h1 : (a, n) = (c.profileAddr, 16)
  · exact (record _ _ h1 p (.refl p)).bind
  refine faults_later (ifInside_gives_or_faults _ _ _) fun _ q1 r1 => ?_
  by_cases h2 : (a, n) = (c.mapAddr, 4)
  · exact (record _ _ h2 _ r1).bind
  refine faults_later (ifInside_gives_or_faults _ _ _) fun _ q2 r2 => ?_
  have r2 := r1.trans r2
  by_cases h3 : (a, n) = (c.repairAddr, 4)
  · exact (record _ _ h3 _ r2).bind
  refine faults_later (ifInside_gives_or_faults _ _ _) fun _ q3 r3 => ?_
  have r3 := r2.trans r3
  by_cases h4 : groupActive c .a = true ∧ (a, n) = (c.spanAddr.get .a, 8 * c.spanCount.get .a)
  · exact (spans _ h4 _ r3).bind
  refine faults_later (spans_give_or_fault _ _ _) fun _ q4 r4 => ?_
  have r4 := r3.trans r4
  by_cases h5 : groupActive c .b = true ∧ (a, n) = (c.spanAddr.get .b, 8 * c.spanCount.get .b)
  · exact (spans _ h5 _ r4).bind
  refine faults_later (spans_give_or_fault _ _ _) fun _ q5 r5 => ?_
  refine (excerpts ?_ _ (r4.trans r5)).bind
  rcases read with (h | h | h | h) | ⟨g, h⟩
  · exact absurd h h1
  · exact absurd h h2
  · exact absurd h h3
  · exact h
  · cases g with
    | a => exact absurd h h4
    | b => exact absurd h h5

/-- The address of the record that a slot's first parameter word names. -/
def pointed (p : Port) (base : Nat) : Nat := alignedAddr (readMemWord p.mem (base + 0x10))

theorem Corrected.pointed {p q : Port} (h : Corrected p q) (base : Nat) : pointed q base = pointed p base := by
  simp only [Orders.pointed, h.mem]

section

variable {p : Port} {base : Nat}

theorem gives_capture (clean : ∀ a n, ¬ Faulty p a n) (inside : inGeneral (pointed p base) 80 = true) :
    Gives (copyCapture base) p (capturedAt p (parseCaptureParams (recordAt p (pointed p base) 20))) := by
  rw [copyCapture_eq]
  refine (gives_words (clean _ _)).bind fun q1 r1 => ?_
  refine (gives_ifInside fun _ => r1.clean clean _ _).bind fun q2 r2 => ?_
  change Gives (copyBlock (recordIf q1 (Orders.pointed p base) 20)) q2 _
  rw [r1.recordIf, recordIf, if_pos inside, ← (r1.trans r2).capturedAt]
  exact gives_lists ((r1.trans r2).clean clean) _

theorem faults_capture_block (first : ¬ Faulty p (base + 0x10) 1) (inside : inGeneral (pointed p base) 80 = true)
    (bad : Faulty p (pointed p base) 20) : Faults (copyCapture base) p := by
  rw [copyCapture_eq]
  exact (gives_words first).faults fun q r => (faults_ifInside inside (r.faulty_iff.2 bad)).bind

theorem faults_capture_lists (first : ¬ Faulty p (base + 0x10) 1) (inside : inGeneral (pointed p base) 80 = true)
    (block : ¬ Faulty p (pointed p base) 20) {a n : Nat}
    (read : ListsRead (parseCaptureParams (recordAt p (pointed p base) 20)) a n) (general : inGeneral a (4 * n) = true)
    (bad : Faulty p a n) : Faults (copyCapture base) p := by
  rw [copyCapture_eq]
  refine (gives_words first).faults fun q1 r1 => ?_
  refine (gives_ifInside fun _ => fun faulty => block (r1.faulty_iff.1 faulty)).faults fun q2 r2 => ?_
  rw [r1.recordIf, recordIf, if_pos inside]
  exact faults_lists read general ((r1.trans r2).faulty_iff.2 bad)

end

/-! ## The kind word and the whole copy -/

/-- The kind in a slot's kind word. -/
def kindAt (p : Port) (n : SlotNo) : Option Kind := kindOfCode ((readMemWord p.mem (slotBase n + 0x08)).toNat % 16)

/-- The mask in a slot's kind word. -/
def maskAt (p : Port) (n : SlotNo) : BitVec 13 := (readMemWord p.mem (slotBase n + 0x08)).extractLsb' 16 13

section

variable {p : Port} {n : SlotNo}

theorem readKind_fault (bad : eccAt p.ecc (slotBase n + 0x08) = some .uncorrectable) :
    readKind p n = (BitVec.allOnes 13, .error .memoryFault, { p with uncorrected := true }) := by
  unfold readKind
  rw [checkedRead_uncorrectable bad]

theorem readKind_readable (readable : eccAt p.ecc (slotBase n + 0x08) ≠ some .uncorrectable) : readKind p n =
    (maskAt p n, match kindAt p n with | none => .error .badKind | some k => .ok k, (p.checkedRead (slotBase n + 0x08)).2) := by
  have first := (checkedRead_readable readable).1
  unfold readKind
  generalize p.checkedRead (slotBase n + 0x08) = r at first ⊢
  obtain ⟨v, q⟩ := r
  cases first
  dsimp only
  have kind : kindOfCode (field (readMemWord p.mem (slotBase n + 0x08)) 0 4) = kindAt p n := by simp [field, kindAt]
  rw [kind]
  cases kindAt p n <;> rfl

theorem copyOrder_badKind (readable : eccAt p.ecc (slotBase n + 0x08) ≠ some .uncorrectable) (kind : kindAt p n = none) :
    p.copyOrder n = (maskAt p n, .refused .badKind, (p.checkedRead (slotBase n + 0x08)).2) := by
  unfold Port.copyOrder
  rw [readKind_readable readable, kind]

/-- A copying of the kind's parameters that gives a value. -/
theorem copyOrder_gives {k : Kind} {c : Copied} (readable : eccAt p.ecc (slotBase n + 0x08) ≠ some .uncorrectable)
    (kind : kindAt p n = some k) (copy : ∀ q, Corrected p q → Gives (copyKind (slotBase n) k) q c) :
    ∃ q, p.copyOrder n = (maskAt p n, .copied c, q) ∧ Corrected p q := by
  have read := (checkedRead_readable readable).2
  obtain ⟨q, ran, more⟩ := copy _ read
  refine ⟨q, ?_, read.trans more⟩
  unfold Port.copyOrder
  rw [readKind_readable readable, kind]
  dsimp only
  rw [ran]

theorem copyOrder_faults {k : Kind} (readable : eccAt p.ecc (slotBase n + 0x08) ≠ some .uncorrectable) (kind : kindAt p n = some k)
    (copy : ∀ q, Corrected p q → Faults (copyKind (slotBase n) k) q) :
    ∃ q, p.copyOrder n = (maskAt p n, .refused .memoryFault, q) ∧ q.uncorrected = true ∧ q.mem = p.mem := by
  have read := (checkedRead_readable readable).2
  obtain ⟨q, ran, fault, mem⟩ := copy _ read
  refine ⟨q, ?_, fault, mem.trans read.mem⟩
  unfold Port.copyOrder
  rw [readKind_readable readable, kind]
  dsimp only
  rw [ran]

/-- A copying of the kind's parameters that is refused without a change. -/
theorem copyOrder_refused {k : Kind} {e : RefusalCode} (clean : eccAt p.ecc (slotBase n + 0x08) = none) (kind : kindAt p n = some k)
    (copy : (copyKind (slotBase n) k).run.run p = (.error e, p)) : p.copyOrder n = (maskAt p n, .refused e, p) := by
  unfold Port.copyOrder
  rw [readKind_readable (by rw [clean]; simp), kind, checkedRead_clean clean]
  dsimp only
  rw [copy]

end

end Sys2Proof.Orders
end

section
/-! PROOFS. Taking (R21, R26, R27) and validating what the copying gave (R27, R28, R32, R33). -/

namespace Sys2Proof.Orders

open Machine Safety Laws TransferMemory

/-! ## What the kind word gives (R22, R27) -/

theorem kindAt_none_iff {p : Port} {n : SlotNo} :
    kindAt p n = none ↔ (readMemWord p.mem (slotBase n + 0x08)).toNat % 16 = 0 ∨
      6 ≤ (readMemWord p.mem (slotBase n + 0x08)).toNat % 16 := by
  unfold kindAt
  have below : (readMemWord p.mem (slotBase n + 0x08)).toNat % 16 < 16 := Nat.mod_lt _ (by decide)
  generalize (readMemWord p.mem (slotBase n + 0x08)).toNat % 16 = k at below ⊢
  revert k
  decide

/-- A CAPTURE whose block lies outside the general area is refused at that, its first parameter word being read (R27). -/
theorem copyCapture_outside {p : Port} {base : Nat} (clean : eccAt p.ecc (base + 0x10) = none)
    (outside : inGeneral (pointed p base) 80 = false) : (copyCapture base).run.run p = (.error .badLayout, p) := by
  have words : (copyWords (base + 0x10) 1).run.run p = (.ok [readMemWord p.mem (base + 0x10)], p) := by
    show copyWords (base + 0x10) 1 p = _
    unfold copyWords
    rw [readWords_clean fun i hi => by obtain rfl : i = 0 := by omega
                                       exact clean]
    rfl
  have block : (copyIfInside (pointed p base) 20).run.run p = (.ok none, p) := by
    unfold copyIfInside
    rw [if_neg (by simp [outside])]
    rfl
  rw [copyCapture_eq, run_bind, words]
  dsimp only
  change ((copyIfInside (pointed p base) 20) >>= copyBlock).run.run p = _
  rw [run_bind, block]
  rfl

/-! ## VALIDATE on what the copying gave -/

theorem exec_validate_idle {s : State} (idle : s.port.phase ≠ .ready ∨ s.orders.taking = none) : exec .validate s = .next s := by
  change execValidate s = _
  unfold execValidate
  cases taking : s.orders.taking with
  | none => rfl
  | some k =>
    have phase := idle.resolve_right (by rw [taking]; simp)
    exact if_neg fun may => phase may.1

/-- How a validation ends the slot's order: its answer, and what is left of the order unit. -/
def Ends (s : State) (n : SlotNo) (out : OrderOutcome) (code : RefusalCode) (late : Bool) : Prop :=
  ∃ t, exec .validate s = .next t ∧ Finished (settled s) t n out code late ∧ t = { settled s with
    port := t.port
    orders := { (settled s).orders with slots := t.orders.slots, summary := t.orders.summary, taking := none } }

section

variable {s : State} {n : SlotNo} {copy : CopyResult} (ready : Ready s) (mem : MemoryCanonical (settled s))
  (taking : s.orders.taking = some ⟨n, copy⟩) (live : (s.orders.slot n).state = .taken ∨ (s.orders.slot n).state = .stopping)

include ready mem taking live

theorem ends_of_validateSlot {out : OrderOutcome} {code : RefusalCode} {late : Bool}
    (ended : validateSlot (settled s) n copy = endTaken (settled s) n out code late) : Ends s n out code late :=
  ⟨_, (exec_validate ready taking live).trans (congrArg _ ended), finished_endTaken mem n out code late⟩

theorem ends_refused {e : RefusalCode} (refused : validateSlot (settled s) n copy = refuseOrder (settled s) n e) :
    Ends s n .refused e (decide ((s.orders.slot n).state = .stopping)) :=
  ends_of_validateSlot ready mem taking live (by rw [refused, refuseOrder_eq, settled_slot])

end

/-- Settles O27: what the kind word and a CAPTURE's first parameter word give, and the refusal that follows from it. -/
theorem validateRefusesBadKind : Obligations.ValidateRefusesBadKind := by
  refine ⟨fun p n => ⟨fun bad => ?_, fun readable kind => ?_, fun clean first kind outside => ?_⟩,
    fun s n e ready mem taking live => ends_refused ready mem taking live rfl, fun s => exec_validate_idle⟩
  · unfold Port.copyOrder
    rw [readKind_fault bad]
  · refine ⟨_, copyOrder_badKind readable (kindAt_none_iff.2 kind), ?_, (checkedRead_readable readable).2.frame,
      (checkedRead_counts _ _).1⟩
    exact (checkedRead_ecc _ _).2.trans (if_neg readable)
  · have capture : kindAt p n = some .capture := by rw [kindAt, kind]; rfl
    have inside : inGeneral (pointed p (slotBase n)) 80 = false := by
      rw [← Bool.not_eq_true, inGeneral_iff, pointed, alignedAddr]
      omega
    refine copyOrder_refused clean capture ?_
    change (copyCapture (slotBase n) >>= fun c => (return .capture c : Copy Copied)).run.run p = _
    rw [run_bind, copyCapture_outside first inside]

/-! ## Taking (R21, R26) -/

/-- The slot that the request names is the head of the posting queue, or was withdrawn at the head and is posted again. -/
theorem requested_of_queue {o : OrderUnit} {h : SlotNo} {rest : List SlotNo} (queue : o.posting = h :: rest) (free : Nat) :
    ∃ n k, o.requested free = some (n, k) ∧ (n = h ∨ n ∈ rest ∧ n ∈ o.named) := by
  have named : ∀ m ∈ h :: o.named.filter (fun m => decide (m ∈ rest)), m = h ∨ m ∈ rest ∧ m ∈ o.named := fun m hm => by
    rcases List.mem_cons.1 hm with e | hm
    · exact .inl e
    · obtain ⟨member, waits⟩ := List.mem_filter.1 hm
      exact .inr ⟨of_decide_eq_true waits, member⟩
  have candidates : o.candidates = h :: o.named.filter fun m => decide (m ∈ rest) := by
    unfold OrderUnit.candidates
    rw [queue]
  unfold OrderUnit.requested
  rw [candidates]
  generalize o.named.filter (fun m => decide (m ∈ rest)) = l at named
  cases l with
  | nil => exact ⟨h, 0, rfl, .inl rfl⟩
  | cons m l =>
    refine ⟨_, 1, rfl, named _ ?_⟩
    have below : Config.namedSlot free % (l.length + 2) < (h :: m :: l).length := Nat.mod_lt _ (Nat.succ_pos _)
    rw [List.getD_eq_getElem _ _ below]
    exact List.getElem_mem below

theorem exec_takeOrder {s : State} {n : SlotNo} {k : Nat} (request : s.orders.requested s.freeCount = some (n, k))
    (may : s.port.phase = .ready ∧ s.orders.taking = none ∧ (s.orders.slot n).state = .posted) : exec .takeOrder s =
      .next { s.setHub (((⟨s.port, s.orders.take n⟩ : Hub).clearResults n).copyTaken n) with freeCount := s.freeCount + k } := by
  change execTakeOrder s = _
  unfold execTakeOrder
  rw [request]
  exact if_pos may

theorem exec_takeOrder_idle {s : State} (idle : s.port.phase ≠ .ready ∨ s.orders.taking ≠ none ∨ s.orders.posting = []) :
    exec .takeOrder s = .next s := by
  change execTakeOrder s = _
  unfold execTakeOrder
  split
  · rfl
  · rename_i n k request
    refine if_neg fun ⟨ready, none_, _⟩ => ?_
    rcases idle with phase | taking | empty
    · exact phase ready
    · exact taking none_
    · simp [OrderUnit.requested, OrderUnit.candidates, empty] at request

/-- The port with a slot's engine-written words cleared (R21). -/
def clearedPort (p : Port) (n : SlotNo) : Port :=
  (p.store (slotBase n + 0x0C) 0).storeWords (slotBase n + 0x20) (List.replicate 56 0)

theorem clearResults_eq (h : Hub) (n : SlotNo) : h.clearResults n = ⟨clearedPort h.port n, h.orders⟩ := rfl

theorem wrote_clearedPort (p : Port) (n : SlotNo) :
    Wrote p (clearedPort p n) [(slotBase n + 0x0C, 4), (slotBase n + 0x20, 224)] :=
  (wrote_store p _ 0).trans (wrote_storeWords _ _ _)

theorem clearedPort_holds {p : Port} (mem : Memory.wf p.mem = true) (n : SlotNo) :
    Holds (clearedPort p n) (slotBase n + 0x0C) 0 ∧ ∀ i < 56, Holds (clearedPort p n) (slotBase n + 0x20 + 4 * i) 0 := by
  refine ⟨?_, fun i hi => ?_⟩
  · refine (wrote_storeWords (p.store (slotBase n + 0x0C) 0) (slotBase n + 0x20) _).holds (portWf_store mem _ _)
      (holds_store mem _ 0) fun r hr => ?_
    rw [List.mem_singleton.1 hr]
    simp only [Apart]
    omega
  · exact holds_storeWords (portWf_store mem _ _) _ (by rw [List.getElem?_replicate, if_pos hi])

/-- The check bits of the words that are not cleared stay. -/
theorem clearedPort_ecc (p : Port) (n : SlotNo) {a : Nat} (first : a < slotBase n + 0x0C ∨ slotBase n + 0x10 ≤ a)
    (others : a < slotBase n + 0x20 ∨ slotBase n + 0x100 ≤ a) : eccAt (clearedPort p n).ecc a = eccAt p.ecc a := by
  unfold clearedPort
  have kept := eccAt_filter_of_pos (l := (p.store (slotBase n + 0x0C) 0).ecc)
    (f := fun k => decide (k < slotBase n + 0x20 ∨ slotBase n + 0x20 + 4 * 56 ≤ k)) (a := a) (by simp; omega)
  refine Eq.trans ?_ (kept.trans (eccAt_clearEcc_of_ne _ (by omega)))
  simp [Port.storeWords]

/-- Taking and copying touch the taken slot only. -/
theorem copyTaken_slot (h : Hub) (n : SlotNo) :
    ((⟨h.port, h.orders.take n⟩ : Hub).copyTaken n).orders.slot n =
      { h.orders.slot n with state := .taken, mask := (h.port.copyOrder n).1 } ∧
    ∀ m, m ≠ n → ((⟨h.port, h.orders.take n⟩ : Hub).copyTaken n).orders.slot m = h.orders.slot m := by
  have taken : (h.orders.take n).slot n = { h.orders.slot n with state := .taken } := OrderUnit.setState_slot_self _ _ _
  refine ⟨(OrderUnit.setSlot_slot_self (h.orders.take n) n _).trans (by rw [taken]; rfl), fun m hm => ?_⟩
  exact (OrderUnit.setSlot_slot_of_ne (h.orders.take n) _ hm).trans (OrderUnit.setState_slot_of_ne _ _ hm)

/-- Settles O26: the request's slot is taken, its words cleared, its order copied by reads alone. -/
theorem takeClearsResults : Obligations.TakeClearsResults := by
  refine ⟨fun s h rest ready mem exact none_ queue => ?_, fun s => exec_takeOrder_idle⟩
  obtain ⟨n, k, request, named⟩ := requested_of_queue queue s.freeCount
  have posted : (s.orders.slot n).state = .posted := by
    rw [← exact.2 n, queue]
    rcases named with rfl | ⟨member, -⟩
    · exact List.mem_cons_self
    · exact List.mem_cons_of_mem _ member
  have ran := exec_takeOrder request ⟨ready, none_, posted⟩
  rw [clearResults_eq] at ran
  have read := onlyRead_copyOrder (clearedPort s.port n) n
  have wrote := wrote_clearedPort s.port n
  obtain ⟨outcome, results⟩ := clearedPort_holds mem n
  obtain ⟨own, others⟩ := copyTaken_slot ⟨clearedPort s.port n, s.orders⟩ n
  have mask := congrArg SlotRec.mask own
  have kept : ∀ a w, Holds (clearedPort s.port n) a w → Holds ((clearedPort s.port n).copyOrder n).2.2 a w :=
    fun a w holds => ⟨by rw [read.mem]; exact holds.1, read.clean a holds.2⟩
  refine ⟨_, n, ((clearedPort s.port n).copyOrder n).2.1, clearedPort s.port n, ran, named, ?_, fun m hm => ?_, kept _ _ outcome,
    fun i hi => kept _ _ (results i hi), fun a outside => ?_, ?_, ?_, fun a => clearedPort_ecc s.port n, ?_⟩
  · exact own.trans (congrArg (fun mask => { s.orders.slot n with state := .taken, mask := mask }) mask.symm)
  · exact others m hm
  · exact (congrArg (readByte · a) read.mem).trans (wrote.bytes mem a outside)
  · change clearedPort s.port n =
      { s.port with mem := ((clearedPort s.port n).copyOrder n).2.2.mem, ecc := (clearedPort s.port n).ecc }
    rw [read.mem]
    rfl
  · exact congrArg (fun mask => (mask, ((clearedPort s.port n).copyOrder n).2)) mask.symm
  · have port : ((clearedPort s.port n).copyOrder n).2.2 = { s.port with
        mem := ((clearedPort s.port n).copyOrder n).2.2.mem, ecc := ((clearedPort s.port n).copyOrder n).2.2.ecc
        corrected := ((clearedPort s.port n).copyOrder n).2.2.corrected
        uncorrected := ((clearedPort s.port n).copyOrder n).2.2.uncorrected } := by
      rw [read.mem]
      exact read.rest
    change State.mk _ _ _ _ _ _ _ _ _ = State.mk _ _ _ _ _ _ _ _ _
    rw [State.mk.injEq]
    exact ⟨rfl, port, rfl, rfl, rfl, rfl, rfl, rfl, rfl⟩

end Sys2Proof.Orders
end

section
/-! PROOFS. The records of chapter 11 and what a copy of them says (02, R27, R28, R203, R205). -/

namespace Sys2Proof.Orders

open Machine Safety Laws TransferMemory

/-! ## Fields -/

theorem bit_eq_field (w : Word) (i : Nat) : bit w i = decide (field w i 1 = 1) := by
  rw [bit, BitVec.getLsbD, Nat.testBit_eq_decide_div_mod_eq, field, Nat.pow_one]

/-- The bits of a word from a high one to a low one. -/
def bitsOf (w : Word) (high low : Nat) : Nat := w.toNat / 2 ^ low % 2 ^ (high + 1 - low)

theorem bitsOf_eq_field (w : Word) (low n : Nat) : bitsOf w (low + n) low = field w low (n + 1) := by
  rw [bitsOf, field, show low + n + 1 - low = n + 1 by omega]

theorem field_lt (w : Word) (lo n : Nat) : field w lo n < 2 ^ n := Nat.mod_lt _ (Nat.two_pow_pos n)

/-! ## A SOURCE and a TRANSPORT -/

theorem parseSource_eq (w : Word) : parseSource w = {
    group := if bitsOf w 0 0 = 1 then .b else .a, timeout := bitsOf w 23 16
    target := match bitsOf w 9 8 with | 0 => none | 1 => some .tach | 2 => some .hum | _ => some .bias } := by
  have source : ∀ k, k < 4 → sourceOfCode k = match k with | 0 => none | 1 => some .tach | 2 => some .hum | _ => some .bias := by
    decide
  unfold parseSource
  rw [source _ (field_lt w 8 2), bit_eq_field]
  simp only [decide_eq_true_eq]
  rfl

/-- The settings that a decoder byte names (11, "Kind parameters"). -/
def decoderOf (w : Word) (low : Nat) : Option DecoderSettings :=
  if bitsOf w (low + 1) low = 3 ∨ 4 < bitsOf w (low + 6) (low + 4) then none else some (
    { encoding := match bitsOf w (low + 1) low with | 0 => .x4 | 1 => .x2 | _ => .x1
      debounce := match bitsOf w (low + 3) (low + 2) with | 0 => 0 | 1 => 1 | 2 => 2 | _ => 4
      index := match bitsOf w (low + 6) (low + 4) with
        | 0 => none | 1 => some .ll | 2 => some .hl | 3 => some .hh | _ => some .lh } : DecoderSettings)

theorem parseDecoder_eq (w : Word) (low : Nat) : parseDecoder w low = decoderOf w low := by
  unfold parseDecoder decoderOf
  have encoding := bitsOf_eq_field w low 1
  have debounce := bitsOf_eq_field w (low + 2) 1
  have index := bitsOf_eq_field w (low + 4) 2
  rw [show low + 2 + 1 = low + 3 from rfl] at debounce
  rw [show low + 4 + 2 = low + 6 from rfl] at index
  rw [encoding, debounce, index]
  have e := field_lt w low (1 + 1)
  have i := field_lt w (low + 4) (2 + 1)
  generalize field w low (1 + 1) = fe at e ⊢
  generalize field w (low + 2) (1 + 1) = fd
  generalize field w (low + 4) (2 + 1) = fi at i ⊢
  interval_cases fe <;> interval_cases fi <;> rfl

/-! ## A tuning profile (R29) -/

theorem parseLaneTuning_fields (w : Word) (low : Nat) :
    (parseLaneTuning w low).watch.toNat = bitsOf w (low + 5) low ∧ (parseLaneTuning w low).anchor = bitsOf w (low + 10) (low + 8) ∧
    (parseLaneTuning w low).measure = decide (bitsOf w (low + 12) (low + 12) = 1) := by
  have watch := bitsOf_eq_field w low 5
  have anchor := bitsOf_eq_field w (low + 8) 2
  have measure := bitsOf_eq_field w (low + 12) 0
  rw [show low + 8 + 2 = low + 10 from rfl] at anchor
  rw [show low + 12 + 0 = low + 12 from rfl] at measure
  rw [watch, anchor, measure]
  refine ⟨?_, rfl, bit_eq_field w (low + 12)⟩
  rw [parseLaneTuning, BitVec.extractLsb'_toNat, Nat.shiftRight_eq_div_pow]
  rfl

/-- The code of a source (R29). -/
def codeOf : Source → Nat
  | .tach => 1
  | .hum => 2
  | .bias => 3

/-- A code names no source when it is 0. -/
theorem sourceOfCode_cases {k : Nat} (h : k < 4) :
    (k = 0 ∧ sourceOfCode k = none) ∨ ∃ s, sourceOfCode k = some s ∧ codeOf s = k ∧ k ≠ 0 := by
  interval_cases k
  · exact .inl ⟨rfl, rfl⟩
  · exact .inr ⟨.tach, rfl, rfl, by decide⟩
  · exact .inr ⟨.hum, rfl, rfl, by decide⟩
  · exact .inr ⟨.bias, rfl, rfl, by decide⟩

/-- The preference list is the codes before the first 0. -/
theorem parsePrefs_codes (w : Word) : (parsePrefs w).map codeOf =
    [bitsOf w 1 0, bitsOf w 3 2, bitsOf w 5 4].takeWhile (· ≠ 0) := by
  unfold parsePrefs
  rw [show bitsOf w 1 0 = field w 0 2 from rfl, show bitsOf w 3 2 = field w 2 2 from rfl, show bitsOf w 5 4 = field w 4 2 from rfl]
  rcases sourceOfCode_cases (field_lt w 0 2) with ⟨zero, none_⟩ | ⟨s, first, code, ne⟩
  · rw [none_, zero]; rfl
  rw [first, List.takeWhile_cons_of_pos (by simpa using ne), ← code]
  rcases sourceOfCode_cases (field_lt w 2 2) with ⟨zero, none_⟩ | ⟨s', second, code', ne'⟩
  · rw [none_, zero]; rfl
  rw [second, List.takeWhile_cons_of_pos (by simpa using ne'), ← code']
  rcases sourceOfCode_cases (field_lt w 4 2) with ⟨zero, none_⟩ | ⟨s'', third, code'', ne''⟩
  · rw [none_, zero]; rfl
  · rw [third, List.takeWhile_cons_of_pos (by simpa using ne''), ← code'']; rfl

theorem parseGroupTuning_fields (w nominal gate : Word) :
    let o := parseGroupTuning w nominal gate
    o.holdover = bitsOf w 15 8 ∧ o.hum60 = decide (bitsOf w 16 16 = 1) ∧ o.humLane.val = bitsOf w 21 20 ∧
    o.biasLane.val = bitsOf w 25 24 ∧ o.biasNominal = nominal.toNat ∧ o.biasGate = gate.toNat ∧
    o.prefs.map codeOf = [bitsOf w 1 0, bitsOf w 3 2, bitsOf w 5 4].takeWhile (· ≠ 0) :=
  ⟨rfl, bit_eq_field w 16, Nat.mod_eq_of_lt (field_lt w 20 2), Nat.mod_eq_of_lt (field_lt w 24 2), rfl, rfl, parsePrefs_codes w⟩

theorem parseTuning_lane (ws : List Word) (l : LaneNo) :
    getAt (parseTuning ws).lanes l = parseLaneTuning (ws.getD (l.val / 2) 0) (16 * (l.val % 2)) := by
  fin_cases l <;> rfl

/-! ## A capture parameter block (R205) -/

theorem parseLaneEntry_eq (w : Word) (low : Nat) : parseLaneEntry w low =
    { first := bitsOf w (low + 3) low, count := bitsOf w (low + 6) (low + 4)
      group := if bitsOf w (low + 8) (low + 8) = 1 then .b else .a
      active := decide (bitsOf w (low + 15) (low + 15) = 1) } := by
  have first := bitsOf_eq_field w low 3
  have count := bitsOf_eq_field w (low + 4) 2
  have group := bitsOf_eq_field w (low + 8) 0
  have active := bitsOf_eq_field w (low + 15) 0
  rw [show low + 4 + 2 = low + 6 from rfl] at count
  rw [show low + 8 + 0 = low + 8 from rfl] at group
  rw [show low + 15 + 0 = low + 15 from rfl] at active
  rw [first, count, group, active]
  unfold parseLaneEntry
  rw [bit_eq_field, bit_eq_field]
  simp only [decide_eq_true_eq]

theorem parseCaptureParams_lane (ws : List Word) (l : LaneNo) :
    getAt (parseCaptureParams ws).lanes l = parseLaneEntry (ws.getD (1 + l.val / 2) 0) (16 * (l.val % 2)) := by
  fin_cases l <;> rfl

/-- The cue words of a block of 20 words. -/
theorem cues_eq {ws : List Word} (whole : ws.length = 20) (n : Nat) :
    (ws.drop 12).take (min n 8) = (List.range (min n 8)).map fun i => ws.getD (12 + i) 0 := by
  refine List.ext_getElem (by simp [whole]) fun i hi _ => ?_
  have below : 12 + i < ws.length := by simp [whole] at hi; omega
  simp [List.getElem?_eq_getElem below]

/-! ## The records as memory holds them (R27) -/

theorem at_recordAt {p : Port} {a n off : Nat} (h : off / 4 < n) : at_ (recordAt p a n) off = readMemWord p.mem (a + 4 * (off / 4)) := by
  simp [at_, recordAt, h]

theorem capacityAt_eq (p : Port) (a : Nat) :
    capacityAt p a = if inGeneral a 16 = true then some (readMemWord p.mem a).toNat else none := by
  unfold capacityAt recordIf
  split <;> rfl

theorem descsAt_eq (p : Port) (a n : Nat) : descsAt p a n = if inGeneral a (32 * n) = true then some ((List.range n).map fun i =>
    (⟨a + 32 * i, (readMemWord p.mem (a + 32 * i)).toNat, alignedAddr (readMemWord p.mem (a + 32 * i + 4)),
      (readMemWord p.mem (a + 32 * i + 8)).toNat⟩ : SpanDesc)) else none := by
  unfold descsAt recordIf
  rw [show 4 * (8 * n) = 32 * n by omega]
  split
  · rw [Option.map_some, Option.some.injEq]
    refine List.map_congr_left fun i hi => ?_
    have below := List.mem_range.1 hi
    unfold parseDesc
    dsimp only
    rw [at_recordAt (by omega), at_recordAt (by omega), at_recordAt (by omega)]
    rw [show 4 * ((32 * i + 0) / 4) = 32 * i by omega, show 4 * ((32 * i + 4) / 4) = 32 * i + 4 by omega,
      show 4 * ((32 * i + 8) / 4) = 32 * i + 8 by omega]
    rfl
  · rfl

theorem groupActive_iff {c : CaptureParams} {g : Group} :
    groupActive c g = true ↔ ∃ l, (getAt c.lanes l).active = true ∧ (getAt c.lanes l).group = g := by
  unfold groupActive groupLanes
  rw [Bool.not_eq_true', List.isEmpty_eq_false_iff_exists_mem]
  simp [List.mem_filter, mem_activeLanes]

/-! ## A CALIBRATE (R28, R33) -/

theorem parseCalibrate_eq (w start : Word) : parseCalibrate w start =
    { window := w.toNat % 65536, anchor := w.toNat / 65536 % 16, apply := w.getLsbD 24
      start := if w.getLsbD 25 then some start else none } := by
  unfold parseCalibrate field
  simp only [Nat.pow_zero, Nat.div_one]
  rfl

theorem calibrateOk_iff {o : CalibrateOrder} : calibrateOk o = true ↔ 20 ≤ o.window ∧ o.window ≤ 6000 ∧ o.anchor ≤ 15 := decide_eq_true_iff

theorem checkCalibrate {s : State} {o : CalibrateOrder} :
    (calibrateOk o = false → checkOrder s (.calibrate o) = .error .badLayout) ∧
    (calibrateOk o = true → 4 ≤ s.orders.runQueue.length → checkOrder s (.calibrate o) = .error .queueFull) ∧
    (calibrateOk o = true → s.orders.runQueue.length < 4 → checkOrder s (.calibrate o) = .ok (.calibrate o)) := by
  have passes : calibrateOk o = true → checkCopy s (.calibrate o) = .ok (.calibrate o) := fun ok => if_pos ok
  refine ⟨fun bad => checkOrder_error (if_neg (by simp [bad])), fun ok full => ?_, fun ok room => ?_⟩
  · exact TransferMemory.checkOrder_context (passes ok) (if_pos full) (by decide)
  · exact checkOrder_ok (passes ok) (if_neg (Nat.not_le.2 room))

/-! ## What copying an order gives (R27) -/

theorem inside_eq (a bytes : Nat) : decide (0x3000 ≤ a ∧ a + bytes ≤ 0x400000) = inGeneral a bytes := by
  rw [Bool.eq_iff_iff, decide_eq_true_iff, inGeneral_iff]

theorem faulty_iff {p : Port} {a n bytes : Nat} (h : bytes = 4 * n) :
    (∃ i, 4 * i < bytes ∧ eccAt p.ecc (a + 4 * i) = some .uncorrectable) ↔ Faulty p a n := by
  subst h
  simp only [Faulty, Nat.mul_lt_mul_left (show 0 < 4 by decide)]

/-- The kind word can be read and names a kind. -/
def HasKind (p : Port) (n : SlotNo) (k : Kind) : Prop := eccAt p.ecc (slotBase n + 0x08) ≠ some .uncorrectable ∧ kindAt p n = some k

theorem hasKind_of_code {p : Port} {n : SlotNo} {code : Nat} {k : Kind} (readable : eccAt p.ecc (slotBase n + 0x08) ≠ some .uncorrectable)
    (h : (readMemWord p.mem (slotBase n + 0x08)).toNat % 16 = code) (names : kindOfCode code = some k) : HasKind p n k :=
  ⟨readable, by rw [kindAt, h, names]⟩

section

variable {p : Port} {n : SlotNo}

/-- The copying of a kind's parameters, as far as the words themselves go. -/
theorem copyKind_gives_words {α : Type} {base count : Nat} {f : List Word → Copy α} {y : α} (words : ¬ Faulty p (base + 0x10) count)
    (rest : ∀ q, Corrected p q → Gives (f (recordAt p (base + 0x10) count)) q y) :
    Gives (copyWords (base + 0x10) count >>= f) p y := (gives_words words).bind rest

theorem copyOrder_source (kind : HasKind p n .source) (words : ¬ Faulty p (slotBase n + 0x10) 1) :
    ∃ q, p.copyOrder n = (maskAt p n, .copied (.source (parseSource (readMemWord p.mem (slotBase n + 0x10)))), q) ∧ Corrected p q :=
  copyOrder_gives kind.1 kind.2 fun q r => by
    rw [← r.mem]
    exact copyKind_gives_words (fun bad => words (r.faulty_iff.1 bad)) fun q' _ => gives_pure _ q'

theorem copyOrder_transport (kind : HasKind p n .transport) (words : ¬ Faulty p (slotBase n + 0x10) 3) :
    ∃ q, p.copyOrder n = (maskAt p n, .copied (.transport (parseTransport (readMemWord p.mem (slotBase n + 0x10))
      (readMemWord p.mem (slotBase n + 0x14)) (readMemWord p.mem (slotBase n + 0x18)))), q) ∧ Corrected p q :=
  copyOrder_gives kind.1 kind.2 fun q r => by
    rw [← r.mem]
    exact copyKind_gives_words (fun bad => words (r.faulty_iff.1 bad)) fun q' _ => gives_pure _ q'

theorem copyOrder_calibrate (kind : HasKind p n .calibrate) (words : ¬ Faulty p (slotBase n + 0x10) 2) :
    ∃ q, p.copyOrder n = (maskAt p n, .copied (.calibrate (parseCalibrate (readMemWord p.mem (slotBase n + 0x10))
      (readMemWord p.mem (slotBase n + 0x14)))), q) ∧ Corrected p q :=
  copyOrder_gives kind.1 kind.2 fun q r => by
    rw [← r.mem]
    exact copyKind_gives_words (fun bad => words (r.faulty_iff.1 bad)) fun q' _ => gives_pure _ q'

theorem copyOrder_retune (kind : HasKind p n .retune) (clean : ∀ a k, ¬ Faulty p a k) :
    ∃ q, p.copyOrder n = (maskAt p n, .copied (.retune ((recordIf p (pointed p (slotBase n)) 16).map parseTuning)), q) ∧ Corrected p q :=
  copyOrder_gives kind.1 kind.2 fun q r => by
    rw [← r.pointed, ← r.recordIf]
    refine copyKind_gives_words (r.clean clean _ _) fun q' r' => ?_
    refine (gives_ifInside fun _ => r'.clean (r.clean clean) _ _).bind fun q'' _ => ?_
    rw [r'.recordIf]
    exact gives_pure _ q''

theorem copyOrder_capture (kind : HasKind p n .capture) (clean : ∀ a k, ¬ Faulty p a k)
    (inside : inGeneral (pointed p (slotBase n)) 80 = true) : ∃ q, p.copyOrder n =
      (maskAt p n, .copied (.capture (capturedAt p (parseCaptureParams (recordAt p (pointed p (slotBase n)) 20)))), q) ∧ Corrected p q :=
  copyOrder_gives kind.1 kind.2 fun q r => by
    rw [← r.pointed, ← r.recordAt, ← r.capturedAt]
    exact (gives_capture (r.clean clean) (by rw [r.pointed]; exact inside)).bind fun q' _ => gives_pure _ q'

/-! ### Words that cannot be read -/

/-- How many parameter words of a slot a kind has. -/
def paramWords : Kind → Nat
  | .capture => 1
  | .calibrate => 2
  | .retune => 1
  | .source => 1
  | .transport => 3

theorem copyKind_faults_words {k : Kind} {base : Nat} (bad : Faulty p (base + 0x10) (paramWords k)) : Faults (copyKind base k) p := by
  cases k with
  | capture =>
    refine Faults.bind ?_
    rw [copyCapture_eq]
    exact (faults_words bad).bind
  | calibrate => exact (faults_words bad).bind
  | retune => exact (faults_words bad).bind
  | source => exact (faults_words bad).bind
  | transport => exact (faults_words bad).bind

theorem Faulty.mono {a k m : Nat} (bad : Faulty p a k) (le : k ≤ m) : Faulty p a m := by
  obtain ⟨i, hi, mark⟩ := bad
  exact ⟨i, hi.trans_le le, mark⟩

theorem copyOrder_faults_words {k : Kind} (kind : HasKind p n k) (bad : Faulty p (slotBase n + 0x10) (paramWords k)) :
    ∃ q, p.copyOrder n = (maskAt p n, .refused .memoryFault, q) ∧ q.uncorrected = true ∧ q.mem = p.mem :=
  copyOrder_faults kind.1 kind.2 fun _ r => copyKind_faults_words (r.faulty_iff.2 bad)

theorem copyOrder_faults_profile (kind : HasKind p n .retune) (first : ¬ Faulty p (slotBase n + 0x10) 1)
    (inside : inGeneral (pointed p (slotBase n)) 64 = true) (bad : Faulty p (pointed p (slotBase n)) 16) :
    ∃ q, p.copyOrder n = (maskAt p n, .refused .memoryFault, q) ∧ q.uncorrected = true ∧ q.mem = p.mem :=
  copyOrder_faults kind.1 kind.2 fun q r =>
    (gives_words fun faulty => first (r.faulty_iff.1 faulty)).faults fun q' r' => by
      refine Faults.bind ?_
      change Faults (copyIfInside (pointed q (slotBase n)) 16) q'
      rw [r.pointed]
      exact faults_ifInside inside ((r.trans r').faulty_iff.2 bad)

theorem copyOrder_faults_capture (kind : HasKind p n .capture)
    (faults : ∀ q, Corrected p q → Faults (copyCapture (slotBase n)) q) :
    ∃ q, p.copyOrder n = (maskAt p n, .refused .memoryFault, q) ∧ q.uncorrected = true ∧ q.mem = p.mem :=
  copyOrder_faults kind.1 kind.2 fun q r => (faults q r).bind

theorem copyOrder_faults_block (kind : HasKind p n .capture) (first : ¬ Faulty p (slotBase n + 0x10) 1)
    (inside : inGeneral (pointed p (slotBase n)) 80 = true) (bad : Faulty p (pointed p (slotBase n)) 20) :
    ∃ q, p.copyOrder n = (maskAt p n, .refused .memoryFault, q) ∧ q.uncorrected = true ∧ q.mem = p.mem :=
  copyOrder_faults_capture kind fun q r => faults_capture_block (fun faulty => first (r.faulty_iff.1 faulty))
    (by rw [r.pointed]; exact inside) (by rw [r.pointed]; exact r.faulty_iff.2 bad)

theorem copyOrder_faults_lists (kind : HasKind p n .capture) (first : ¬ Faulty p (slotBase n + 0x10) 1)
    (inside : inGeneral (pointed p (slotBase n)) 80 = true) (block : ¬ Faulty p (pointed p (slotBase n)) 20) {a k : Nat}
    (read : ListsRead (parseCaptureParams (recordAt p (pointed p (slotBase n)) 20)) a k) (general : inGeneral a (4 * k) = true)
    (bad : Faulty p a k) :
    ∃ q, p.copyOrder n = (maskAt p n, .refused .memoryFault, q) ∧ q.uncorrected = true ∧ q.mem = p.mem :=
  copyOrder_faults_capture kind fun q r => faults_capture_lists (fun faulty => first (r.faulty_iff.1 faulty))
    (by rw [r.pointed]; exact inside) (by rw [r.pointed]; exact fun faulty => block (r.faulty_iff.1 faulty))
    (by rw [r.pointed, r.recordAt]; exact read) general (r.faulty_iff.2 bad)

end

/-! ## Validation of a CALIBRATE's copy (R28, R31 to R33) -/

section

variable {s : State} {n : SlotNo} {o : CalibrateOrder} (ready : Ready s) (mem : MemoryCanonical (settled s))
  (taking : s.orders.taking = some ⟨n, .copied (.calibrate o)⟩)

include ready mem taking

theorem calibrate_refused {e : RefusalCode} (live : (s.orders.slot n).state = .taken ∨ (s.orders.slot n).state = .stopping)
    (check : checkOrder (settled s) (.calibrate o) = .error e) :
    Ends s n .refused e (decide ((s.orders.slot n).state = .stopping)) :=
  ends_refused ready mem taking live (validateSlot_error check)

theorem calibrate_cancelled (stopping : (s.orders.slot n).state = .stopping)
    (check : checkOrder (settled s) (.calibrate o) = .ok (.calibrate o)) : Ends s n .cancelled .none false :=
  ends_of_validateSlot ready mem taking (.inr stopping) (by
    rw [validateSlot_cancelled check (by rw [settled_slot]; exact stopping), cancelTaken_eq])

omit mem in
theorem calibrate_accepted (taken : (s.orders.slot n).state = .taken)
    (check : checkOrder (settled s) (.calibrate o) = .ok (.calibrate o)) : exec .validate s = .next { settled s with
      orders := { acceptedOrders (settled s) n .calibrate with runQueue := s.orders.runQueue ++ [(n, .calibrate o)] } } := by
  rw [exec_validate ready taking (.inl taken), validateSlot_accepted check (by rw [settled_slot]; exact taken), ← settled_runQueue]
  rfl

end

/-! ## The obligation -/

/-- Settles O28: the copy by `Gives` and `Faults`, the layouts field by field, the validation by its check. -/
theorem validateCalibrate : Obligations.ValidateCalibrate := by
  refine ⟨?_, ⟨parseSource_eq, ?_, ?_, ?_⟩, ?_, ?_⟩
  · intro p n base word record kind mask aligned inside tuning capacity descs copies
    have inside_ : ∀ a b, inside a b = inGeneral a b := inside_eq
    have tuning_ : ∀ a, tuning a = (recordIf p a 16).map parseTuning := fun a => by
      change (if inside a 64 = true then _ else _) = _
      rw [inside_, recordIf]
      split <;> rfl
    have capacity_ : ∀ a, capacity a = capacityAt p a := fun a => by
      change (if inside a 16 = true then _ else _) = _
      rw [inside_, capacityAt_eq]
    have descs_ : ∀ a k, descs a k = descsAt p a k := fun a k => by
      change (if inside a (32 * k) = true then _ else _) = _
      rw [inside_, descsAt_eq]
      rfl
    have copied : ∀ c, (∃ q, p.copyOrder n = (maskAt p n, .copied c, q) ∧ Corrected p q) → copies c :=
      fun c ⟨q, ran, read⟩ => ⟨q, ran, read.frame⟩
    constructor
    · intro readable
      have clean : ∀ a k, ¬ Faulty p a k := fun a k ⟨i, _, bad⟩ => readable _ bad
      refine ⟨fun is => ?_, fun is => ?_, fun is => ?_, fun is general => ?_⟩
      · exact copied _ (copyOrder_source (hasKind_of_code (readable _) is rfl) (clean _ _))
      · exact copied _ (copyOrder_transport (hasKind_of_code (readable _) is rfl) (clean _ _))
      · rw [tuning_]
        exact copied _ (copyOrder_retune (hasKind_of_code (readable _) is rfl) clean)
      · intro c spans
        have spans_ : ∀ g, spans g = spansAt p c g := fun g => by
          simp only [spans, spansAt, descs_, ← groupActive_iff]
        rw [spans_, spans_, tuning_, capacity_, capacity_, descs_]
        exact copied _ (copyOrder_capture (hasKind_of_code (readable _) is rfl) clean (inside_ _ _ ▸ general))
    · intro readable bad faults at1
      have bad_ : ∀ a k, bad a (4 * k) ↔ Faulty p a k := fun a k => faulty_iff rfl
      have words : ∀ k, HasKind p n k → ∀ m, m ≤ paramWords k → bad (base + 0x10) (4 * m) → faults := fun k named m le unread =>
        copyOrder_faults_words named (((bad_ _ m).1 unread).mono le)
      refine ⟨fun low high unread => ?_, fun is => words .calibrate (hasKind_of_code readable is rfl) 2 (by decide),
        fun is => words .transport (hasKind_of_code readable is rfl) 3 (by decide), fun is first inArea unread => ?_,
        fun is first inArea => ⟨fun unread => ?_, fun block => ?_⟩⟩
      · obtain ⟨k, names⟩ : ∃ k, kindOfCode kind = some k := by
          obtain ⟨m, hm⟩ : ∃ m, m = kind := ⟨_, rfl⟩
          rw [← hm] at low high ⊢
          interval_cases m <;> exact ⟨_, rfl⟩
        exact words k (hasKind_of_code readable rfl names) 1 (by cases k <;> decide) unread
      · rw [inside_] at inArea
        exact copyOrder_faults_profile (hasKind_of_code readable is rfl) (mt (bad_ _ 1).2 first) inArea ((bad_ _ 16).1 unread)
      · rw [inside_] at inArea
        exact copyOrder_faults_block (hasKind_of_code readable is rfl) (mt (bad_ _ 1).2 first) inArea ((bad_ _ 20).1 unread)
      · intro c spans a bytes listed general unread
        obtain ⟨k, rfl, read⟩ : ∃ k, bytes = 4 * k ∧ ListsRead c a k := by
          simp only [List.mem_cons, List.not_mem_nil, or_false, Prod.mk.injEq] at listed
          rcases listed with (⟨rfl, rfl⟩ | ⟨rfl, rfl⟩ | ⟨rfl, rfl⟩ | ⟨rfl, rfl⟩) | ⟨g, active, rfl, rfl⟩
          · exact ⟨16, rfl, .inl (by simp)⟩
          · exact ⟨4, rfl, .inl (by simp)⟩
          · exact ⟨4, rfl, .inl (by simp)⟩
          · exact ⟨8 * c.excerptCount, by ring, .inl (by simp)⟩
          · exact ⟨8 * c.spanCount.get g, by ring, .inr ⟨g, groupActive_iff.2 active, rfl⟩⟩
        rw [inside_] at inArea general
        exact copyOrder_faults_lists (hasKind_of_code readable is rfl) (mt (bad_ _ 1).2 first) inArea (mt (bad_ _ 20).2 block) read
          general ((bad_ _ k).1 unread)
  · intro w0 w1 w2 decoder
    have decoder_ : ∀ low, decoder low = parseDecoder w0 low := fun low => (parseDecoder_eq w0 low).symm
    rw [decoder_, decoder_, decoder_]
    unfold parseTransport
    rw [bit_eq_field]
    simp only [decide_eq_true_eq]
    rfl
  · intro ws w t
    refine ⟨rfl, rfl, rfl, rfl, rfl, rfl, rfl, fun l => ?_, fun g => ?_⟩
    · intro low half
      rw [parseTuning_lane]
      exact parseLaneTuning_fields half low
    · intro first o
      cases g with
      | a => exact parseGroupTuning_fields (w 6) (w 7) (w 8)
      | b => exact parseGroupTuning_fields (w 9) (w 10) (w 11)
  · intro ws whole w address c
    have flags : ∀ i, bit (w 0) i = decide (field (w 0) i 1 = 1) := bit_eq_field (w 0)
    have start := flags 8
    have stop := flags 9
    refine ⟨rfl, congrArg₂ _ (flags 4) (flags 5), congrArg₂ _ (flags 6) (flags 7), ?_, ?_, rfl, cues_eq whole _, fun l => ?_,
      rfl, rfl, rfl, rfl, rfl, rfl, rfl⟩
    · change (if bit (w 0) 8 = true then _ else _) = _
      simp only [flags, decide_eq_true_eq]
      rfl
    · change (if bit (w 0) 9 = true then _ else _) = _
      simp only [flags, decide_eq_true_eq]
      rfl
    · intro low half
      rw [parseCaptureParams_lane]
      exact parseLaneEntry_eq half low
  · intro p n kind w readable first second is
    have words : ¬ Faulty p (slotBase n + 0x10) 2 := fun ⟨i, hi, bad⟩ => by
      interval_cases i
      · exact first bad
      · exact second bad
    obtain ⟨q, ran, read⟩ := copyOrder_calibrate (hasKind_of_code readable is rfl) words
    rw [parseCalibrate_eq] at ran
    exact ⟨q, ran, read.frame⟩
  · intro s n order ready mem taking live s1 late ok finishes
    obtain ⟨bad, full, room⟩ := checkCalibrate (s := s1) (o := order)
    have queue : s1.orders.runQueue = s.orders.runQueue := settled_runQueue s
    rw [queue] at full room
    refine ⟨fun no => ?_, fun yes long => ?_, fun yes short stopping => ?_, fun yes short taken => ?_⟩
    · exact calibrate_refused ready mem taking live (bad (by rw [← Bool.not_eq_true, calibrateOk_iff]; exact no))
    · exact calibrate_refused ready mem taking live (full (calibrateOk_iff.2 yes) long)
    · exact calibrate_cancelled ready mem taking stopping (room (calibrateOk_iff.2 yes) short)
    · exact calibrate_accepted ready taking taken (room (calibrateOk_iff.2 yes) short)

end Sys2Proof.Orders
end

section
/-! PROOFS. Progress words (R180), and BLOCK_PROCESSED (R36, R169). -/

namespace Sys2Proof.Orders

open Machine Safety Laws TransferMemory

/-! ## Words stored one after the other -/

/-- A port with words stored, each by its address. -/
def putWords (p : Port) (l : List (Nat × Word)) : Port := l.foldl (fun p w => p.store w.1 w.2) p

theorem wrote_putWords (p : Port) (l : List (Nat × Word)) : Wrote p (putWords p l) (l.map fun w => (w.1, 4)) := by
  induction l generalizing p with
  | nil => exact .refl p
  | cons w l ih => exact (wrote_store p w.1 w.2).trans (ih _)

/-- Words that share no byte are all held in the end. -/
theorem holds_putWords {l : List (Nat × Word)} (apart : l.Pairwise fun v w => Apart (v.1, 4) (w.1, 4)) {p : Port}
    (mem : Memory.wf p.mem = true) : ∀ w ∈ l, Holds (putWords p l) w.1 w.2 := by
  induction l generalizing p with
  | nil => exact nofun
  | cons v l ih =>
    obtain ⟨first, others⟩ := List.pairwise_cons.1 apart
    have stored := portWf_store mem v.1 v.2
    intro w hw
    rcases List.mem_cons.1 hw with rfl | hw
    · refine (wrote_putWords (p.store w.1 w.2) l).holds stored (holds_store mem _ _) fun r hr => ?_
      obtain ⟨u, hu, rfl⟩ := List.mem_map.1 hr
      exact first u hu
    · exact ih others stored w hw

/-- The words of a slot's progress area, by their offsets. -/
def slotWords (n : SlotNo) (l : List (Nat × Word)) : List (Nat × Word) := l.map fun w => (slotBase n + w.1, w.2)

/-- The capture with words of its progress area written. -/
def putProgress (c : Cx) (l : List (Nat × Word)) : Cx := l.foldl (fun c w => c.progress w.1 w.2) c

theorem putProgress_eq (c : Cx) (l : List (Nat × Word)) :
    putProgress c l = ⟨⟨putWords c.hub.port (slotWords c.cap.slot l), c.hub.orders⟩, c.cap⟩ := by
  induction l generalizing c with
  | nil => rfl
  | cons w l ih => exact ih (c.progress w.1 w.2)

theorem putProgress_append (c : Cx) (l m : List (Nat × Word)) : putProgress c (l ++ m) = putProgress (putProgress c l) m :=
  List.foldl_append

/-- Offsets that share no byte, said of the words written. -/
theorem slotWords_apart {n : SlotNo} {l : List (Nat × Word)} (h : l.Pairwise fun v w => v.1 + 4 ≤ w.1 ∨ w.1 + 4 ≤ v.1) :
    (slotWords n l).Pairwise fun v w => Apart (v.1, 4) (w.1, 4) := by
  refine List.pairwise_map.2 (h.imp fun {v w} apart => ?_)
  simp only [Apart]
  omega

theorem holds_slotWords {n : SlotNo} {l : List (Nat × Word)} (apart : l.Pairwise fun v w => v.1 + 4 ≤ w.1 ∨ w.1 + 4 ≤ v.1) {p : Port}
    (mem : Memory.wf p.mem = true) {off : Nat} {w : Word} (h : (off, w) ∈ l) : Holds (putWords p (slotWords n l)) (slotBase n + off) w :=
  holds_putWords (slotWords_apart apart) mem (slotBase n + off, w) (List.mem_map.2 ⟨(off, w), h, rfl⟩)

/-- A byte outside the words written reads as before. -/
theorem readByte_slotWords {n : SlotNo} {l : List (Nat × Word)} {p : Port} (mem : Memory.wf p.mem = true) {a : Nat}
    (h : ∀ w ∈ l, a < slotBase n + w.1 ∨ slotBase n + w.1 + 4 ≤ a) : readByte (putWords p (slotWords n l)).mem a = readByte p.mem a := by
  refine (wrote_putWords p (slotWords n l)).bytes mem a fun r hr => ?_
  obtain ⟨v, hv, rfl⟩ := List.mem_map.1 hr
  obtain ⟨w, hw, rfl⟩ := List.mem_map.1 hv
  exact h w hw

/-- A group's two progress words; none where its resampler reported nothing. -/
def countWords (off : Nat) : Option (Word × Word) → List (Nat × Word)
  | none => []
  | some (next, released) => [(off, next), (off + 4, released)]

theorem writeCounts_eq (c : Cx) (off : Nat) (o : Option (Word × Word)) : c.writeCounts off o = putProgress c (countWords off o) := by
  rcases o with _ | ⟨next, released⟩ <;> rfl

/-! ## BLOCK_PROCESSED -/

theorem done_iff {x : Taken} {p : CaptureParams} : x.done p = true ↔ x.lanes ≠ none ∧ x.skew ≠ none ∧ x.speed ≠ none ∧
    ∀ g, (∃ l, (getAt p.lanes l).active = true ∧ (getAt p.lanes l).group = g) → x.resampled.get g ≠ none := by
  have groups : (groupList.all fun g => !groupActive p g || (x.resampled.get g).isSome) = true ↔
      ∀ g, groupActive p g = true → x.resampled.get g ≠ none := by
    rw [List.all_eq_true]
    refine ⟨fun all g active => ?_, fun all g _ => ?_⟩
    · have reported := all g (by cases g <;> decide)
      rw [active] at reported
      simpa [Option.isSome_iff_ne_none] using reported
    · by_cases active : groupActive p g = true
      · simpa [active, Option.isSome_iff_ne_none] using all g active
      · simp [active]
  unfold Taken.done
  rw [Bool.and_eq_true, Bool.and_eq_true, Bool.and_eq_true, groups]
  simp only [Option.isSome_iff_ne_none, groupActive_iff, and_assoc]

/-- RETUNEs reported one after the other. -/
theorem foldl_complete (l : List (SlotNo × Nat)) (h : Hub) : l.foldl (fun h p => h.report p.1 .complete false) h =
    ⟨h.port, { h.orders with ends := h.orders.ends ++ l.map fun p => ⟨p.1, .complete, .none, false⟩ }⟩ := by
  induction l generalizing h with
  | nil => rw [List.foldl_nil, List.map_nil, List.append_nil]
  | cons p l ih =>
    rw [List.foldl_cons, ih, List.map_cons]
    simp [Hub.report]

/-- The controller after a block is processed. -/
def processedControl (k : Control) (x : Taken) (stop : Word) : Control :=
  { k with
    processed := upTo 4294967295 k.processed, highWater := stop
    counts := ⟨x.resampled.a <|> k.counts.a, x.resampled.b <|> k.counts.b⟩
    reached := k.reached.filter fun p => decide (p.2 ≠ x.idx)
    inFlight := (k.inFlight.map fun y => if y.idx = x.idx then { x with processed := true } else y).filter fun y =>
      !(y.processed && y.folded) }

/-- The progress words that a processed block writes (R169, R180). -/
def processedWords (k : Control) (x : Taken) (stop : Word) : List (Nat × Word) :=
  [(0x2C, word (upTo 4294967295 k.processed)), (0x3C, stop)] ++ countWords 0x40 x.resampled.a ++ countWords 0x48 x.resampled.b

theorem processed_eq (c : Cx) {x : Taken} {r : BlockRecord} (record : x.block.record = some r) : c.processed x =
    ⟨⟨putWords c.hub.port (slotWords c.cap.slot (processedWords c.cap.control x r.stop)), { c.hub.orders with
        ends := c.hub.orders.ends ++
          (c.cap.control.reached.filter fun p => decide (p.2 = x.idx)).map fun p => ⟨p.1, .complete, .none, false⟩ }⟩,
      { c.cap with control := processedControl c.cap.control x r.stop }⟩ := by
  have written : ∀ d : Cx, (((d.progress 0x2C (word (satInc max32 c.cap.control.processed))).progress 0x3C r.stop).writeCounts 0x40
      x.resampled.a).writeCounts 0x48 x.resampled.b =
      ⟨⟨putWords d.hub.port (slotWords d.cap.slot (processedWords c.cap.control x r.stop)), d.hub.orders⟩, d.cap⟩ := fun d => by
    rw [writeCounts_eq, writeCounts_eq, ← putProgress_eq, processedWords, putProgress_append, putProgress_append]
    rfl
  unfold Cx.processed Cx.completeRetunes
  rw [record]
  dsimp only [Option.map_some, Option.getD_some]
  rw [written, foldl_complete]
  rfl

theorem processedWords_apart (k : Control) (x : Taken) (stop : Word) :
    (processedWords k x stop).Pairwise fun v w => v.1 + 4 ≤ w.1 ∨ w.1 + 4 ≤ v.1 := by
  unfold processedWords
  rcases x.resampled.a with _ | ⟨na, ra⟩ <;> rcases x.resampled.b with _ | ⟨nb, rb⟩ <;> simp [countWords]

theorem mem_countWords {off : Nat} {o : Option (Word × Word)} {w : Nat × Word} (h : w ∈ countWords off o) :
    (w.1 = off ∨ w.1 = off + 4) ∧ o ≠ none := by
  rcases o with _ | ⟨next, released⟩
  · exact absurd h List.not_mem_nil
  · simp only [countWords, List.mem_cons, List.not_mem_nil, or_false] at h
    rcases h with rfl | rfl
    · exact ⟨.inl rfl, by simp⟩
    · exact ⟨.inr rfl, by simp⟩

/-- Every word lies at 0x2C, 0x3C or in the groups' counts. -/
theorem mem_processedWords {k : Control} {x : Taken} {stop : Word} {w : Nat × Word} (h : w ∈ processedWords k x stop) :
    w.1 = 0x2C ∨ w.1 = 0x3C ∨ (w.1 = 0x40 ∨ w.1 = 0x44) ∧ x.resampled.a ≠ none ∨
      (w.1 = 0x48 ∨ w.1 = 0x4C) ∧ x.resampled.b ≠ none := by
  rcases List.mem_append.1 h with h | h
  · rcases List.mem_append.1 h with h | h
    · simp only [List.mem_cons, List.not_mem_nil, or_false] at h
      rcases h with rfl | rfl
      · exact .inl rfl
      · exact .inr (.inl rfl)
    · exact .inr (.inr (.inl (mem_countWords h)))
  · exact .inr (.inr (.inr (mem_countWords h)))

theorem countWords_mem {k : Control} {x : Taken} {stop : Word} (g : Group) {next released : Word}
    (reported : x.resampled.get g = some (next, released)) :
    ((match g with | .a => 0x40 | .b => 0x48 : Nat), next) ∈ processedWords k x stop ∧
    ((match g with | .a => 0x44 | .b => 0x4C : Nat), released) ∈ processedWords k x stop := by
  unfold processedWords
  cases g with
  | a =>
    rw [show x.resampled.a = some (next, released) from reported]
    simp [countWords]
  | b =>
    rw [show x.resampled.b = some (next, released) from reported]
    simp [countWords]

theorem exec_blockProcessed {s : State} {cap : Capture} {x : Taken} (running : Capturing s cap) (peak : cap.control.peak = none)
    (oldest : cap.control.inFlight.find? (fun y => !y.processed) = some x) : exec .blockProcessed s =
      .next (s.setCx (if x.done cap.params then Cx.processed ⟨s.hub, cap⟩ x else ⟨s.hub, cap⟩)) := by
  change execBlockProcessed s = _
  unfold execBlockProcessed
  rw [captureStep_some running.1 running.2]
  dsimp only
  rw [receivePeak_of_none (c := ⟨s.hub, cap⟩) peak, oldest]

/-- Settles O46: the words and the controller of `processed_eq`. -/
theorem blockProcessedRaisesHighWater : Obligations.BlockProcessedRaisesHighWater := by
  refine ⟨fun x p => done_iff, ?_⟩
  intro s cap x rec running mem peak oldest record k base
  have ran := exec_blockProcessed running peak oldest
  refine ⟨fun unfinished => ?_, fun done => ?_⟩
  · rw [ran, if_neg (by simp [unfinished]), setCx_self running.2]
  rw [if_pos done, processed_eq ⟨s.hub, cap⟩ record] at ran
  have kept := captureFrame_of_kept (kept_processed ⟨s.hub, cap⟩ x)
  rw [processed_eq ⟨s.hub, cap⟩ record] at kept
  have held := fun off w (h : (off, w) ∈ processedWords k x rec.stop) =>
    holds_slotWords (n := cap.slot) (processedWords_apart k x rec.stop) mem h
  refine ⟨_, processedControl k x rec.stop, ran, kept, rfl, rfl, rfl,
    held 0x2C _ (List.mem_append_left _ (List.mem_append_left _ (by exact List.mem_cons_self))),
    held 0x3C _ (by simp [processedWords]), fun g next released reported => ⟨?_, ?_, ?_⟩, fun g missing => ⟨?_, fun a low high => ?_⟩,
    fun a outside => ?_⟩
  · cases g <;> simp_all [processedControl, PerGroup.get]
  · cases g <;> exact held _ _ (countWords_mem _ reported).1
  · cases g <;> exact held _ _ (countWords_mem _ reported).2
  · cases g <;> simp_all [processedControl, PerGroup.get]
  · refine readByte_slotWords (n := cap.slot) mem fun w hw => ?_
    have place := mem_processedWords hw
    cases g with
    | a =>
      have none_ : x.resampled.a = none := missing
      simp only [none_, ne_eq, not_true_eq_false, and_false, false_or] at place low high
      omega
    | b =>
      have none_ : x.resampled.b = none := missing
      simp only [none_, ne_eq, not_true_eq_false, and_false, or_false] at place low high
      omega
  · refine readByte_slotWords (n := cap.slot) mem fun w hw => ?_
    have place := mem_processedWords hw
    simp only [List.forall_mem_cons] at outside
    omega

end Sys2Proof.Orders
end

section
/-! PROOFS. Quiet inputs (R45): what time and one edge do when no line has a pending change. -/

namespace Sys2Proof.Orders

open Machine Safety Laws TransferMemory

/-! ## Still lines -/

/-- A line with no pending change, its filtered level its raw level. -/
def Still (l : Line) : Prop := l.filtered = l.raw ∧ l.ran = none

theorem still_iff {l : Line} : Still l ↔ l = ⟨l.raw, l.raw, none⟩ := by
  rcases l with ⟨raw, filtered, ran⟩
  simp [Still]

theorem tick_still {l : Line} (h : Still l) (dt : Nat) : l.tick dt = l := by
  rw [still_iff.1 h]
  rfl

theorem remaining_still {l : Line} (h : Still l) (n : Nat) : l.remaining n = none := by
  rw [still_iff.1 h]
  rfl

/-- A still line at its own level stays as it is, whatever its debounce interval. -/
theorem settle_still {l : Line} (h : Still l) (n : Nat) : l.settle n l.raw = l := by
  rw [still_iff.1 h]
  unfold Line.settle Line.matured
  split <;> simp

/-- A decoder whose three lines are still. -/
structure DecoderStill (d : Decoder) : Prop where
  a : Still d.lineA
  b : Still d.lineB
  i : Still d.lineI

/-- A unit whose ten lines are still. -/
structure Quiet (t : Transport) : Prop where
  capstan : DecoderStill t.capstan
  supply : DecoderStill t.supply
  takeup : DecoderStill t.takeup
  pinch : Still t.pinch

theorem quiet_of_inputs {t : Transport} (h : InputsQuiet t) : Quiet t := by
  simp only [InputsQuiet, inputLines, List.forall_mem_cons] at h
  obtain ⟨ca, cb, ci, sa, sb, si, ta, tb, ti, pinch, -⟩ := h
  exact ⟨⟨ca, cb, ci⟩, ⟨sa, sb, si⟩, ⟨ta, tb, ti⟩, pinch⟩

theorem Quiet.decoder {t : Transport} (h : Quiet t) (d : DecoderId) : DecoderStill (t.decoder d) := by
  cases d
  · exact h.capstan
  · exact h.supply
  · exact h.takeup

theorem decoder_tick_still {d : Decoder} (h : DecoderStill d) (dt : Nat) : d.tick dt = d := by
  unfold Decoder.tick
  rw [tick_still h.a, tick_still h.b, tick_still h.i]

theorem decoder_remaining_still {d : Decoder} (h : DecoderStill d) : d.remaining = none := by
  unfold Decoder.remaining
  dsimp only
  rw [remaining_still h.a, remaining_still h.b, remaining_still h.i]
  rfl

theorem tick_quiet {t : Transport} (h : Quiet t) (dt : Nat) : t.tick dt = { t with clock := t.clock + dt } := by
  unfold Transport.tick
  rw [decoder_tick_still h.capstan, decoder_tick_still h.supply, decoder_tick_still h.takeup, tick_still h.pinch]

theorem nextExpiry_quiet {t : Transport} (h : Quiet t) : t.nextExpiry = none := by
  unfold Transport.nextExpiry
  rw [decoder_remaining_still h.capstan, decoder_remaining_still h.supply, decoder_remaining_still h.takeup, remaining_still h.pinch]
  rfl

/-- Time passes over quiet inputs with nothing but the clock. -/
theorem pass_quiet {k : Deck} (h : Quiet k.unit) (dt free fuel : Nat) :
    k.pass dt free fuel = ({ k with unit := { k.unit with clock := k.unit.clock + dt } }, free) := by
  cases fuel with
  | zero => rw [Deck.pass, tick_quiet h]
  | succ fuel => rw [Deck.pass, nextExpiry_quiet h, tick_quiet h]

/-! ## An instant over quiet inputs -/

/-- The bit of a decoder's A line in the raw levels. -/
def firstBit : DecoderId → Nat
  | .capstan => 0
  | .supply => 3
  | .takeup => 6

/-- The decoder's three levels are the raw ones it has. -/
structure LevelsKept (t : Transport) (v : BitVec 10) (d : DecoderId) : Prop where
  a : v.getLsbD (firstBit d) = (t.decoder d).lineA.raw
  b : v.getLsbD (firstBit d + 1) = (t.decoder d).lineB.raw
  i : v.getLsbD (firstBit d + 2) = (t.decoder d).lineI.raw

theorem decoder_settle_still {d : Decoder} (h : DecoderStill d) : d.settle d.lineA.raw d.lineB.raw d.lineI.raw = d := by
  unfold Decoder.settle
  dsimp only
  rw [settle_still h.a, settle_still h.b, settle_still h.i]

/-- A decoder with debounce off, its lines at the given levels. -/
def raised (x : Decoder) (a b i : Bool) : Decoder := { x with lineA := ⟨a, a, none⟩, lineB := ⟨b, b, none⟩, lineI := ⟨i, i, none⟩ }

theorem decoder_settle_off {d : Decoder} (h : d.settings.debounce = 0) (a b i : Bool) : d.settle a b i = raised d a b i := by
  unfold Decoder.settle Line.settle
  rw [h]
  rfl

theorem differs_self (d : Decoder) : d.differs d = false := by simp [Decoder.differs]

theorem quiet_self (d : Decoder) : d.quiet d = d := rfl

/-- A decoder change over quiet inputs: the step or the decode error, then the two index conditions (R46, R47, R50). -/
def edged (k : Deck) (d : DecoderId) (y : Decoder) : Deck :=
  let x := k.unit.decoder d
  let before := phaseOf x.lineA.raw x.lineB.raw
  let after := phaseOf y.lineA.raw y.lineB.raw
  let condition := indexCondition x.settings.index
  let t := k.unit.setDecoder d y
  let moved := if x.lineA.raw != y.lineA.raw && x.lineB.raw != y.lineB.raw then t.decodeError d
    else t.count d (stepCount x.settings.encoding before after)
  (({ k with unit := moved } : Deck).indexEdge d (condition before x.lineI.raw) (condition after x.lineI.raw)).indexEdge d
    (condition after x.lineI.raw)
    (condition after y.lineI.raw)

/-- The unit with the raw levels of a decoder's change, its filtered levels as before. -/
theorem decoderChange_quiet {k : Deck} {d : DecoderId} (h : DecoderStill (k.unit.decoder d)) (a b i : Bool) :
    ({ k with unit := k.unit.setDecoder d ((k.unit.decoder d).quiet (raised (k.unit.decoder d) a b i)) } : Deck).decoderChange d
      (raised (k.unit.decoder d) a b i) = edged k d (raised (k.unit.decoder d) a b i) := by
  unfold Deck.decoderChange edged
  dsimp only
  rw [← h.a.1, ← h.b.1, ← h.i.1]
  cases d <;> rfl

/-- An instant at which one decoder with debounce off changes, and no other line. -/
theorem instant_edge {k : Deck} {v : BitVec 10} {d : DecoderId} (quiet : Quiet k.unit) (off : (k.unit.decoder d).settings.debounce = 0)
    (others : ∀ e, e ≠ d → LevelsKept k.unit v e) (pinch : v.getLsbD 9 = k.unit.pinch.raw) {y : Decoder}
    (hy : y = raised (k.unit.decoder d) (v.getLsbD (firstBit d)) (v.getLsbD (firstBit d + 1)) (v.getLsbD (firstBit d + 2)))
    (moves : (k.unit.decoder d).differs y = true) (free : Nat) : k.instant v free = (edged k d y, free) := by
  have kept : ∀ e, e ≠ d → (k.unit.decoder e).settle (v.getLsbD (firstBit e)) (v.getLsbD (firstBit e + 1)) (v.getLsbD (firstBit e + 2)) =
      k.unit.decoder e := fun e he => by
    rw [(others e he).a, (others e he).b, (others e he).i, decoder_settle_still (quiet.decoder e)]
  have own := decoder_settle_off off (v.getLsbD (firstBit d)) (v.getLsbD (firstBit d + 1)) (v.getLsbD (firstBit d + 2))
  rw [← hy] at own
  have pin : k.unit.pinch.settle k.unit.capstan.settings.debounce (v.getLsbD 9) = k.unit.pinch := by
    rw [pinch, settle_still quiet.pinch]
  have change := decoderChange_quiet (quiet.decoder d) (v.getLsbD (firstBit d)) (v.getLsbD (firstBit d + 1)) (v.getLsbD (firstBit d + 2))
  rw [← hy] at change
  rw [← change]
  unfold Deck.instant
  cases d with
  | capstan =>
    have s := kept .supply (by decide)
    have t := kept .takeup (by decide)
    simp only [Transport.decoder, firstBit] at own s t moves
    dsimp only
    rw [own, s, t, pin]
    simp [moves, differs_self, quiet_self, Deck.serve, Transport.setDecoder, Transport.decoder]
  | supply =>
    have c := kept .capstan (by decide)
    have t := kept .takeup (by decide)
    simp only [Transport.decoder, firstBit] at own c t moves
    dsimp only
    rw [own, c, t, pin]
    simp [moves, differs_self, quiet_self, Deck.serve, Transport.setDecoder, Transport.decoder]
  | takeup =>
    have c := kept .capstan (by decide)
    have s := kept .supply (by decide)
    simp only [Transport.decoder, firstBit] at own c s moves
    dsimp only
    rw [own, c, s, pin]
    simp [moves, differs_self, quiet_self, Deck.serve, Transport.setDecoder, Transport.decoder]

/-- An instant at which PINCH alone changes, its debounce off. -/
theorem instant_pinch {k : Deck} {v : BitVec 10} (quiet : Quiet k.unit) (off : k.unit.capstan.settings.debounce = 0)
    (others : ∀ e, LevelsKept k.unit v e) (moves : v.getLsbD 9 = !k.unit.pinch.raw) (free : Nat) :
    k.instant v free = ({ k with unit := k.unit.pinchChange ⟨!k.unit.pinch.raw, !k.unit.pinch.raw, none⟩ }, free) := by
  have kept : ∀ e, (k.unit.decoder e).settle (v.getLsbD (firstBit e)) (v.getLsbD (firstBit e + 1)) (v.getLsbD (firstBit e + 2)) =
      k.unit.decoder e := fun e => by
    rw [(others e).a, (others e).b, (others e).i, decoder_settle_still (quiet.decoder e)]
  have c := kept .capstan
  have s := kept .supply
  have t := kept .takeup
  simp only [Transport.decoder, firstBit] at c s t
  have pin : k.unit.pinch.settle k.unit.capstan.settings.debounce (v.getLsbD 9) = ⟨!k.unit.pinch.raw, !k.unit.pinch.raw, none⟩ := by
    rw [off, moves]
    rfl
  unfold Deck.instant
  dsimp only
  rw [c, s, t, pin]
  simp [differs_self, quiet_self, Deck.serve, quiet.pinch.1, Transport.pinchChange]

/-- An instant at which no level changes. -/
theorem instant_none {k : Deck} {v : BitVec 10} (quiet : Quiet k.unit) (others : ∀ e, LevelsKept k.unit v e)
    (pinch : v.getLsbD 9 = k.unit.pinch.raw) (free : Nat) : k.instant v free = (k, free) := by
  have kept : ∀ e, (k.unit.decoder e).settle (v.getLsbD (firstBit e)) (v.getLsbD (firstBit e + 1)) (v.getLsbD (firstBit e + 2)) =
      k.unit.decoder e := fun e => by
    rw [(others e).a, (others e).b, (others e).i, decoder_settle_still (quiet.decoder e)]
  have c := kept .capstan
  have s := kept .supply
  have t := kept .takeup
  simp only [Transport.decoder, firstBit] at c s t
  have pin : k.unit.pinch.settle k.unit.capstan.settings.debounce (v.getLsbD 9) = k.unit.pinch := by
    rw [pinch, settle_still quiet.pinch]
  unfold Deck.instant
  dsimp only
  rw [c, s, t, pin]
  simp [differs_self, quiet_self]

end Sys2Proof.Orders
end

section
/-! PROOFS. One edge over quiet inputs (R46 to R55). -/

namespace Sys2Proof.Orders

open Machine Safety Laws TransferMemory

/-! ## What a count, a decode error and PINCH do -/

/-- A count reaches position, block and motion state while PINCH is engaged and it is not 0 (R48, R54). -/
theorem capstanCount_eq (t : Transport) (c : Int) : t.capstanCount c =
    let added := t.pinch.filtered && decide (c ≠ 0)
    let net := if added then BitVec.ofInt 32 c else 0
    { t with
      position := t.position + net
      motion := if added then (if 0 < c then .forward else .reverse) else t.motion
      stillRun := if added then 0 else t.stillRun
      counted := t.counted || added
      current := t.current.map fun r => { r with net := r.net + net, reverse := r.reverse || (added && decide (c < 0)) } } := by
  unfold Transport.capstanCount
  by_cases idle : c = 0 ∨ t.pinch.filtered = false
  · have none_ : (t.pinch.filtered && decide (c ≠ 0)) = false := by
      rcases idle with zero | opened
      · simp [zero]
      · simp [opened]
    rw [if_pos idle, none_]
    simp
  · obtain ⟨ne, engaged⟩ := not_or.1 idle
    have added : (t.pinch.filtered && decide (c ≠ 0)) = true := by simp_all
    rw [if_neg idle, added]
    simp [Transport.mark]

/-- Index events change nothing where the condition does not become true. -/
theorem indexEdge_same (k : Deck) (d : DecoderId) (b : Bool) : k.indexEdge d b b = k := by
  cases b <;> rfl

theorem indexCondition_low (index : Option QPhase) (p : QPhase) : indexCondition index p false = false := by
  cases index <;> rfl

theorem indexCondition_eq (index : Option QPhase) (p : QPhase) (i : Bool) :
    indexCondition index p i = (i && (decide (index = none) || decide (index = some p))) := by
  cases index with
  | none => simp [indexCondition]
  | some q => simp [indexCondition]

/-- The step or the decode error that a decoder's change is. -/
def stepped (t : Transport) (d : DecoderId) (y : Decoder) : Transport :=
  let x := t.decoder d
  if x.lineA.raw != y.lineA.raw && x.lineB.raw != y.lineB.raw then (t.setDecoder d y).decodeError d
  else (t.setDecoder d y).count d
    (stepCount x.settings.encoding (phaseOf x.lineA.raw x.lineB.raw) (phaseOf y.lineA.raw y.lineB.raw))

/-- With the index input low before and after, no index event follows. -/
theorem edged_low {k : Deck} {d : DecoderId} {y : Decoder} (before : (k.unit.decoder d).lineI.raw = false) (after : y.lineI.raw = false) :
    edged k d y = { k with unit := stepped k.unit d y } := by
  unfold edged
  dsimp only
  rw [before, after, indexCondition_low, indexCondition_low, indexEdge_same, indexEdge_same]
  rfl

/-- One edge of A, B or I gives at most one index event: when the condition goes from false to true. -/
theorem edged_one {k : Deck} {d : DecoderId} {y : Decoder}
    (one : phaseOf y.lineA.raw y.lineB.raw = phaseOf (k.unit.decoder d).lineA.raw (k.unit.decoder d).lineB.raw ∨
      y.lineI.raw = (k.unit.decoder d).lineI.raw) : edged k d y =
    (⟨stepped k.unit d y, k.hub⟩ : Deck).indexEdge d
      (indexCondition (k.unit.decoder d).settings.index (phaseOf (k.unit.decoder d).lineA.raw (k.unit.decoder d).lineB.raw)
        (k.unit.decoder d).lineI.raw)
      (indexCondition (k.unit.decoder d).settings.index (phaseOf y.lineA.raw y.lineB.raw) y.lineI.raw) := by
  unfold edged
  dsimp only
  rcases one with phase | level
  · rw [phase, indexEdge_same]
    unfold stepped
    dsimp only
    rw [phase]
  · rw [level, indexEdge_same]
    rfl

/-! ## INPUT_CHANGE over quiet inputs -/

/-- The deck as the levels change: the clock has run on. -/
def clocked (s : State) (dt : Nat) : Deck := ⟨{ s.transport with clock := s.transport.clock + dt }, s.hub⟩

theorem clocked_decoder (s : State) (dt : Nat) (d : DecoderId) : (clocked s dt).unit.decoder d = s.transport.decoder d := by
  cases d <;> rfl

theorem clocked_quiet {s : State} (h : Quiet s.transport) (dt : Nat) : Quiet (clocked s dt).unit := ⟨h.capstan, h.supply, h.takeup, h.pinch⟩

theorem exec_inputChange {s : State} (working : Working s) (quiet : Quiet s.transport) (periods : Nat) (v : BitVec 10) :
    exec (.inputChange periods v) s = .next (s.setDeck ((clocked s (1000 * periods)).instant v s.freeCount)) := by
  change execInputChange periods v s = _
  unfold execInputChange
  rw [if_neg working, pass_quiet (k := s.deck) quiet]
  rfl

/-- One edge: the levels of the decoder's lines turn where they are flipped, every other level stays. -/
structure EdgeOf (t : Transport) (v : BitVec 10) (d : DecoderId) (a b i : Bool) : Prop where
  levelA : v.getLsbD (firstBit d) = ((t.decoder d).lineA.raw ^^ a)
  levelB : v.getLsbD (firstBit d + 1) = ((t.decoder d).lineB.raw ^^ b)
  levelI : v.getLsbD (firstBit d + 2) = ((t.decoder d).lineI.raw ^^ i)
  others : ∀ e, e ≠ d → LevelsKept t v e
  pinch : v.getLsbD 9 = t.pinch.raw
  some_ : a = true ∨ b = true ∨ i = true

/-- The decoder after its edge. -/
def flipped (x : Decoder) (a b i : Bool) : Decoder := raised x (x.lineA.raw ^^ a) (x.lineB.raw ^^ b) (x.lineI.raw ^^ i)

theorem exec_edge {s : State} {v : BitVec 10} {d : DecoderId} {a b i : Bool} (working : Working s) (quiet : Quiet s.transport)
    (off : (s.transport.decoder d).settings.debounce = 0) (edge : EdgeOf s.transport v d a b i) (periods : Nat) :
    exec (.inputChange periods v) s =
      .next (s.setDeck (edged (clocked s (1000 * periods)) d (flipped (s.transport.decoder d) a b i), s.freeCount)) := by
  have still := quiet.decoder d
  have moves : (s.transport.decoder d).differs (flipped (s.transport.decoder d) a b i) = true := by
    unfold Decoder.differs flipped raised
    rw [still.a.1, still.b.1, still.i.1]
    rcases edge.some_ with rfl | rfl | rfl <;> simp
  have others : ∀ e, e ≠ d → LevelsKept (clocked s (1000 * periods)).unit v e := fun e he => by
    obtain ⟨ha, hb, hi⟩ := edge.others e he
    exact ⟨by rw [clocked_decoder]; exact ha, by rw [clocked_decoder]; exact hb, by rw [clocked_decoder]; exact hi⟩
  have levels : flipped (s.transport.decoder d) a b i = raised ((clocked s (1000 * periods)).unit.decoder d) (v.getLsbD (firstBit d))
      (v.getLsbD (firstBit d + 1)) (v.getLsbD (firstBit d + 2)) := by
    rw [clocked_decoder, edge.levelA, edge.levelB, edge.levelI]
    rfl
  rw [exec_inputChange working quiet, instant_edge (clocked_quiet quiet _) (by rw [clocked_decoder]; exact off) others edge.pinch levels
    (by rw [clocked_decoder]; exact moves)]

theorem firstBit_le (d : DecoderId) : firstBit d + 3 ≤ 9 := by cases d <;> decide

/-- Two decoders have no line in common. -/
theorem firstBit_apart {d e : DecoderId} (ne : e ≠ d) : firstBit e + 3 ≤ firstBit d ∨ firstBit d + 3 ≤ firstBit e :=
  match d, e with
  | .capstan, .capstan | .supply, .supply | .takeup, .takeup => absurd rfl ne
  | .capstan, .supply | .capstan, .takeup | .supply, .takeup => .inr (by decide)
  | .supply, .capstan | .takeup, .capstan | .takeup, .supply => .inl (by decide)

/-- Levels given line by line, as those of one decoder's edge. -/
theorem edgeOf_of_lines {t : Transport} {v : BitVec 10} {d : DecoderId} {a b i : Bool} (turn : Nat → Bool)
    (levels : ∀ (n : Nat) (l : Line × Nat), (inputLines t)[n]? = some l → v.getLsbD n = (l.1.raw ^^ turn n))
    (ha : turn (firstBit d) = a) (hb : turn (firstBit d + 1) = b) (hi : turn (firstBit d + 2) = i) (some_ : a = true ∨ b = true ∨ i = true)
    (rest : ∀ n, n < 10 → n ≠ firstBit d → n ≠ firstBit d + 1 → n ≠ firstBit d + 2 → turn n = false) : EdgeOf t v d a b i := by
  have line : ∀ n l, (inputLines t)[n]? = some l → turn n = false → v.getLsbD n = l.1.raw := fun n l hl same => by
    rw [levels n l hl, same, Bool.xor_false]
  have apart : ∀ e, e ≠ d → ∀ j, j < 3 → turn (firstBit e + j) = false := fun e he j hj =>
    have beside := firstBit_apart he
    have below := firstBit_le e
    rest _ (by omega) (by omega) (by omega) (by omega)
  have kept : ∀ e, e ≠ d → LevelsKept t v e := fun e he => by
    have at_ := apart e he
    cases e
    all_goals exact ⟨line _ _ rfl (at_ 0 (by decide)), line _ _ rfl (at_ 1 (by decide)), line _ _ rfl (at_ 2 (by decide))⟩
  refine ⟨?_, ?_, ?_, kept, ?_, some_⟩
  · cases d <;> exact (levels _ _ rfl).trans (by rw [← ha]; rfl)
  · cases d <;> exact (levels _ _ rfl).trans (by rw [← hb]; rfl)
  · cases d <;> exact (levels _ _ rfl).trans (by rw [← hi]; rfl)
  · exact line 9 _ rfl (rest 9 (by decide) (by cases d <;> decide) (by cases d <;> decide) (by cases d <;> decide))

/-! ## The news of a slip (R42, R53) -/

/-- The slots a slip is news for: an accepted CAPTURE that is RUNNING or STOPPING, while no warm reset runs. -/
def told (h : Hub) (n : SlotNo) : Bool :=
  decide (h.port.phase ≠ .warmReset ∧ (h.orders.slot n).live = some .capture ∧
    ((h.orders.slot n).state = .running ∨ (h.orders.slot n).state = .stopping))

/-- The news of a slip told to a list of slots that are not FREE or POSTED. -/
theorem slipNews_list (l : List SlotNo) : ∀ h : Hub, (∀ n ∈ l, (h.orders.slot n).state ≠ .free ∧ (h.orders.slot n).state ≠ .posted) →
    let o := (l.foldl (fun h n => h.news n .slip) h).orders
    (∀ n, o.slot n = if n ∈ l then { h.orders.slot n with news := (h.orders.slot n).news ||| 0x1000 } else h.orders.slot n) ∧
    ∀ n : SlotNo, o.summary.getLsbD n.val = (h.orders.summary.getLsbD n.val || (decide (n ∈ l) && (h.orders.slot n).mask.getLsbD 12)) := by
  induction l with
  | nil => exact fun h _ => ⟨fun n => by simp, fun n => by simp⟩
  | cons a l ih =>
    intro h live
    obtain ⟨free, posted⟩ := live a (by simp)
    have eq := setNews_live (o := h.orders) (n := a) (c := .slip) free posted
    obtain ⟨-, kept, other⟩ := setNews_frame h.orders a .slip
    obtain ⟨slots, bits⟩ := ih (h.news a .slip) fun n hn => by
      obtain ⟨state, -⟩ := kept n
      rw [show ((h.news a .slip).orders.slot n).state = (h.orders.slot n).state from state]
      exact live n (by simp [hn])
    have self : (h.news a .slip).orders.slot a = { h.orders.slot a with news := (h.orders.slot a).news ||| 0x1000 } := by
      change (h.orders.setNews a .slip).slot a = _
      rw [eq]
      exact OrderUnit.setSlot_slot_self _ _ _
    have summary : ∀ n : SlotNo, (h.news a .slip).orders.summary.getLsbD n.val =
        (h.orders.summary.getLsbD n.val || (decide (n = a) && (h.orders.slot n).mask.getLsbD 12)) := fun n => by
      change (h.orders.setNews a .slip).summary.getLsbD n.val = _
      obtain ⟨-, bit, -⟩ := (newsFollowsMask h.orders a .slip).2 free posted
      rw [bit n.val n.isLt]
      by_cases same : n = a
      · subst same; simp [causeBit]
      · have ne : n.val ≠ a.val := fun e => same (Fin.ext e)
        simp [same, ne]
    refine ⟨fun n => ?_, fun n => ?_⟩
    · rw [List.foldl_cons, slots n]
      by_cases same : n = a
      · subst same
        rw [self]
        by_cases again : n ∈ l <;> simp [again, BitVec.or_assoc]
      · rw [show (h.news a .slip).orders.slot n = h.orders.slot n from other n same]
        simp [same]
    · obtain ⟨-, mask, -⟩ := kept n
      rw [List.foldl_cons, bits n, summary n, show ((h.news a .slip).orders.slot n).mask = (h.orders.slot n).mask from mask]
      by_cases same : n = a
      · simp only [same, List.mem_cons, true_or, decide_true, Bool.true_and]
        cases (h.orders.slot a).mask.getLsbD 12 <;> simp
      · simp [same]

/-- A slip's news: the news bit of each slot told, its summary bit where its mask asks; no other slot changes. -/
theorem slipNews_spec (h : Hub) :
    (∀ n, h.slipNews.orders.slot n =
      if told h n then { h.orders.slot n with news := (h.orders.slot n).news ||| 0x1000 } else h.orders.slot n) ∧
    ∀ n : SlotNo, h.slipNews.orders.summary.getLsbD n.val =
      (h.orders.summary.getLsbD n.val || (told h n && (h.orders.slot n).mask.getLsbD 12)) := by
  unfold Hub.slipNews
  by_cases reset : h.port.phase = .warmReset
  · simp [told, reset]
  · have mem : ∀ n, n ∈ runningCaptures h.orders ↔ told h n = true := fun n => by
      simp [runningCaptures, told, mem_slotNos, reset]
    obtain ⟨slots, bits⟩ := slipNews_list (runningCaptures h.orders) h fun n hn => by
      obtain ⟨-, -, running | stopping⟩ := of_decide_eq_true ((mem n).1 hn)
      · rw [running]; exact ⟨by decide, by decide⟩
      · rw [stopping]; exact ⟨by decide, by decide⟩
    rw [if_neg reset]
    refine ⟨fun n => ?_, fun n => ?_⟩
    · rw [slots n]
      simp only [mem n]
    · rw [bits n]
      simp only [mem n, Bool.decide_eq_true]

end Sys2Proof.Orders
end

section
/-! PROOFS. O34: the capstan's counts and decode errors, and index events (R46 to R53). -/

namespace Sys2Proof.Orders

open Machine Safety Laws TransferMemory

/-! ## What one edge does to the unit -/

/-- Both edges of a decoder together are a decode error. -/
theorem stepped_both (t : Transport) (d : DecoderId) (i : Bool) :
    stepped t d (flipped (t.decoder d) true true i) = (t.setDecoder d (flipped (t.decoder d) true true i)).decodeError d := by
  simp [stepped, flipped, raised]

/-- Where A and B do not both turn, the step's count is delivered. -/
theorem stepped_count {t : Transport} {d : DecoderId} {a b i : Bool} (one : (a && b) = false) :
    stepped t d (flipped (t.decoder d) a b i) = (t.setDecoder d (flipped (t.decoder d) a b i)).count d
      (stepCount (t.decoder d).settings.encoding (phaseOf (t.decoder d).lineA.raw (t.decoder d).lineB.raw)
        (phaseOf ((t.decoder d).lineA.raw ^^ a) ((t.decoder d).lineB.raw ^^ b))) := by
  cases a with
  | false => simp [stepped, flipped, raised]
  | true =>
    obtain rfl : b = false := one
    simp [stepped, flipped, raised]

/-- The decoder's levels as the deck stands at the edge. -/
theorem edgedUnit_eq (s : State) (dt : Nat) (d : DecoderId) (a b i : Bool) :
    flipped (s.transport.decoder d) a b i = flipped ((clocked s dt).unit.decoder d) a b i := by
  rw [clocked_decoder]

/-- The counts of the steps in the three encodings (R46). -/
theorem stepCount_table :
   (∀ e p q, stepCount e p q = -stepCount e q p) ∧
   (∀ e, [stepCount e .ll .hl, stepCount e .hl .hh, stepCount e .hh .lh, stepCount e .lh .ll,
      stepCount e .ll .lh, stepCount e .lh .hh, stepCount e .hh .hl, stepCount e .hl .ll] =
     match e with
     | .x4 => [1, 1, 1, 1, -1, -1, -1, -1]
     | .x2 => [1, 0, 1, 0, 0, -1, 0, -1]
     | .x1 => [1, 0, 0, 0, 0, 0, 0, -1]) ∧
   (∀ e, stepCount e .ll .hl = 1) ∧ (∀ p q, stepCount .x1 p q ≠ 0 → (p = .ll ∧ q = .hl) ∨ (p = .hl ∧ q = .ll)) ∧
   (∀ p q, stepCount .x2 p q ≠ 0 → stepCount .x4 p q = stepCount .x2 p q) ∧ (∀ e p, stepCount e p p = 0) := by
  refine ⟨fun e p q => ?_, fun e => ?_, fun e => ?_, fun p q => ?_, fun p q => ?_, fun e p => ?_⟩
  · cases e <;> cases p <;> cases q <;> rfl
  · cases e <;> rfl
  · cases e <;> rfl
  · cases p <;> cases q <;> decide
  · cases p <;> cases q <;> decide
  · cases e <;> cases p <;> rfl

theorem pinch_filtered {s : State} (quiet : Quiet s.transport) : s.transport.pinch.filtered = s.transport.pinch.raw := quiet.pinch.1

/-- A capstan decoder's edge of A, B or both, its index input low. -/
theorem exec_capstanEdge {s : State} {v : BitVec 10} {flipA flipB : Bool} (working : Working s) (quiet : Quiet s.transport)
    (off : s.transport.capstan.settings.debounce = 0) (low : s.transport.capstan.lineI.raw = false)
    (edge : EdgeOf s.transport v .capstan flipA flipB false) (periods : Nat) :
    exec (.inputChange periods v) s = .next { s with
      transport := stepped (clocked s (1000 * periods)).unit .capstan (flipped (s.transport.decoder .capstan) flipA flipB false) } := by
  rw [exec_edge (d := .capstan) working quiet off edge, edged_low (by rw [clocked_decoder]; exact low)
    (by simp [flipped, raised, Transport.decoder, low])]
  rfl

/-- The levels of O34's capstan edge, as an edge. -/
theorem edgeOf_capstan {t : Transport} {v : BitVec 10} {flipA flipB : Bool} (some_ : flipA = true ∨ flipB = true)
    (levels : (inputLines t).map (fun l => l.1.raw) =
      [t.capstan.lineA.raw, t.capstan.lineB.raw] ++ ((List.range 10).drop 2).map v.getLsbD)
    (ha : v.getLsbD 0 = (t.capstan.lineA.raw ^^ flipA)) (hb : v.getLsbD 1 = (t.capstan.lineB.raw ^^ flipB)) :
    EdgeOf t v .capstan flipA flipB false := by
  simp only [inputLines, List.map_cons, List.map_nil, List.range, List.range.loop, List.drop_succ_cons, List.drop_zero, List.cons_append,
    List.nil_append, List.cons.injEq, true_and, and_true] at levels
  obtain ⟨ci, sa, sb, si, ta, tb, ti, pinch⟩ := levels
  refine ⟨ha, hb, by rw [Bool.xor_false]; exact ci.symm, fun e he => ?_, pinch.symm, some_.elim Or.inl (Or.inr ∘ Or.inl)⟩
  cases e with
  | capstan => exact absurd rfl he
  | supply => exact ⟨sa.symm, sb.symm, si.symm⟩
  | takeup => exact ⟨ta.symm, tb.symm, ti.symm⟩

/-- O34's second part, its levels an edge. -/
theorem capstanEdge_counts (s : State) (periods : Nat) (v : BitVec 10) (flipA flipB : Bool) (working : Working s)
    (inputs : InputsQuiet s.transport) (off : s.transport.capstan.settings.debounce = 0)
    (low : s.transport.capstan.lineI.raw = false) (edge : EdgeOf s.transport v .capstan flipA flipB false) :
     let t0 := s.transport
     let a := t0.capstan.lineA.raw
     let b := t0.capstan.lineB.raw
     let c := stepCount t0.capstan.settings.encoding (phaseOf a b) (phaseOf (a ^^ flipA) (b ^^ flipB))
     let error := flipA && flipB
     let added := !error && t0.pinch.raw && decide (c ≠ 0)
     let net := if added then BitVec.ofInt 32 c else 0
     exec (.inputChange periods v) s = .next { s with transport := { t0 with
       capstan := { t0.capstan with
         lineA := ⟨a ^^ flipA, a ^^ flipA, none⟩, lineB := ⟨b ^^ flipB, b ^^ flipB, none⟩
         errors := if error ∧ t0.capstan.errors ≠ 65535 then t0.capstan.errors + 1 else t0.capstan.errors }
       position := t0.position + net
       motion := if added then (if 0 < c then .forward else .reverse) else t0.motion
       stillRun := if added then 0 else t0.stillRun
       counted := t0.counted || added
       current := t0.current.map fun r => { r with
         net := r.net + net, reverse := r.reverse || (added && decide (c < 0)), decodeError := r.decodeError || error }
       supplyReel := { t0.supplyReel with runClean := t0.supplyReel.runClean && !error }
       takeupReel := { t0.takeupReel with runClean := t0.takeupReel.runClean && !error }
       clock := t0.clock + 1000 * periods } } := by
  intro t0 a b c error added net
  have quiet := quiet_of_inputs inputs
  have index : (⟨false, false, none⟩ : Line) = s.transport.capstan.lineI := by
    rw [still_iff.1 quiet.capstan.i, low]
  rw [exec_capstanEdge working quiet off low edge, edgedUnit_eq s (1000 * periods)]
  by_cases both : error = true
  · obtain ⟨rfl, rfl⟩ : flipA = true ∧ flipB = true := by simpa [error] using both
    rw [stepped_both]
    simp [error, added, net, t0, a, b, Transport.decodeError, Transport.setDecoder, Transport.decoder, Transport.mark, Transport.soilReels,
      Reel.soil, clocked, flipped, raised, inc16, low, index]
  · rw [stepped_count (by simpa [error] using both)]
    have none_ : error = false := by simpa using both
    simp [Transport.count, capstanCount_eq, added, net, none_, t0, a, b, c, Transport.setDecoder, Transport.decoder, clocked, flipped,
      raised,
      low, index, pinch_filtered quiet]

/-! ## Index events -/

/-- The flag of a reel's index event: whether it judges a slip; CAPSTAN judges none (R53). -/
def judges (t : Transport) : DecoderId → Bool
  | .capstan => false
  | .supply => (t.supplyReel.indexEvent t.position t.pinch.filtered t.slipThreshold).2
  | .takeup => (t.takeupReel.indexEvent t.position t.pinch.filtered t.slipThreshold).2

/-- An index event's stamp, reel and mark, and the news of the slip it judges. -/
theorem indexEvent_eq (k : Deck) (d : DecoderId) : k.indexEvent d =
    ⟨{ k.unit with
        capstanStamp := if d = .capstan then k.unit.position else k.unit.capstanStamp
        supplyReel := if d = .supply then (k.unit.supplyReel.indexEvent k.unit.position k.unit.pinch.filtered k.unit.slipThreshold).1
          else k.unit.supplyReel
        takeupReel := if d = .takeup then (k.unit.takeupReel.indexEvent k.unit.position k.unit.pinch.filtered k.unit.slipThreshold).1
          else k.unit.takeupReel
        current := k.unit.current.map fun r => { r with slip := r.slip || judges k.unit d } },
      if judges k.unit d then k.hub.slipNews else k.hub⟩ := by
  cases d with
  | capstan => simp [Deck.indexEvent, judges]
  | supply =>
    unfold Deck.indexEvent judges
    dsimp only
    cases slip : (k.unit.supplyReel.indexEvent k.unit.position k.unit.pinch.filtered k.unit.slipThreshold).2 <;> simp [Transport.mark]
  | takeup =>
    unfold Deck.indexEvent judges
    dsimp only
    cases slip : (k.unit.takeupReel.indexEvent k.unit.position k.unit.pinch.filtered k.unit.slipThreshold).2 <;> simp [Transport.mark]

theorem indexEdge_eq (k : Deck) (d : DecoderId) (p q : Bool) :
    k.indexEdge d p q = if (!p && q) = true then k.indexEvent d else k := by
  cases p <;> cases q <;> rfl

/-- A reel with a count added. -/
def turnedReel (r : Reel) (c : Int) : Reel := { r with counter := r.counter + BitVec.ofInt 16 c }

/-- Where a decoder's count goes: CAPSTAN's to the position while PINCH is engaged, a reel's to its counter always (R48, R51). -/
theorem count_eq (t : Transport) (d : DecoderId) (c : Int) : t.count d c =
    let added := t.pinch.filtered && decide (d = .capstan ∧ c ≠ 0)
    let net := if added then BitVec.ofInt 32 c else 0
    { t with
      position := t.position + net
      motion := if added then (if 0 < c then .forward else .reverse) else t.motion
      stillRun := if added then 0 else t.stillRun
      counted := t.counted || added
      current := t.current.map fun r => { r with net := r.net + net, reverse := r.reverse || (added && decide (c < 0)) }
      supplyReel := if d = .supply then turnedReel t.supplyReel c else t.supplyReel
      takeupReel := if d = .takeup then turnedReel t.takeupReel c else t.takeupReel } := by
  cases d with
  | capstan => simp [Transport.count, capstanCount_eq]
  | supply => simp [Transport.count, turnedReel]
  | takeup => simp [Transport.count, turnedReel]

/-- A decoder with its levels turned, and the rest of the unit. -/
theorem setDecoder_fields (t : Transport) (d : DecoderId) (y : Decoder) :
    (t.setDecoder d y).position = t.position ∧ (t.setDecoder d y).motion = t.motion ∧ (t.setDecoder d y).stillRun = t.stillRun ∧
    (t.setDecoder d y).counted = t.counted ∧ (t.setDecoder d y).current = t.current ∧ (t.setDecoder d y).pinch = t.pinch ∧
    (t.setDecoder d y).capstanStamp = t.capstanStamp ∧ (t.setDecoder d y).supplyReel = t.supplyReel ∧
    (t.setDecoder d y).takeupReel = t.takeupReel ∧ (t.setDecoder d y).slipThreshold = t.slipThreshold := by
  cases d <;> exact ⟨rfl, rfl, rfl, rfl, rfl, rfl, rfl, rfl, rfl, rfl⟩

theorem decoder_setDecoder (t : Transport) (d : DecoderId) (y : Decoder) : (t.setDecoder d y).decoder d = y := by
  cases d <;> rfl

theorem decoder_setDecoder_of_ne (t : Transport) {d e : DecoderId} (y : Decoder) (ne : e ≠ d) :
    (t.setDecoder d y).decoder e = t.decoder e :=
  match d, e with
  | .capstan, .capstan | .supply, .supply | .takeup, .takeup => absurd rfl ne
  | .capstan, .supply | .capstan, .takeup | .supply, .capstan | .supply, .takeup | .takeup, .capstan | .takeup, .supply => rfl

/-- One edge of a decoder's A, B or I: the count, and the index event where the condition becomes true. -/
theorem exec_oneEdge {s : State} {v : BitVec 10} {d : DecoderId} {a b i : Bool} (working : Working s) (quiet : Quiet s.transport)
    (off : (s.transport.decoder d).settings.debounce = 0) (edge : EdgeOf s.transport v d a b i)
    (one : (a = false ∧ b = false) ∨ (i = false ∧ (a && b) = false)) (periods : Nat) :
    let x := s.transport.decoder d
    let before := phaseOf x.lineA.raw x.lineB.raw
    let after := phaseOf (x.lineA.raw ^^ a) (x.lineB.raw ^^ b)
    let u := ((clocked s (1000 * periods)).unit.setDecoder d (flipped x a b i)).count d (stepCount x.settings.encoding before after)
    exec (.inputChange periods v) s = .next (s.setDeck (
      if (!indexCondition x.settings.index before x.lineI.raw && indexCondition x.settings.index after (x.lineI.raw ^^ i)) = true
      then (⟨u, s.hub⟩ : Deck).indexEvent d else ⟨u, s.hub⟩, s.freeCount)) := by
  intro x before after u
  have decoder := clocked_decoder s (1000 * periods) d
  have step : stepped (clocked s (1000 * periods)).unit d (flipped x a b i) = u := by
    have eq := stepped_count (t := (clocked s (1000 * periods)).unit) (d := d) (a := a) (b := b) (i := i)
      (one.elim (fun h => by rw [h.1, h.2]; rfl) And.right)
    rwa [decoder] at eq
  rw [exec_edge working quiet off edge, edged_one, step, indexEdge_eq, decoder]
  · rfl
  · rw [decoder]
    rcases one with ⟨rfl, rfl⟩ | ⟨rfl, -⟩
    · left; simp [flipped, raised]
    · right; simp [flipped, raised]

end Sys2Proof.Orders
end

section
/-! PROOFS. O34: one edge of any decoder, both edges of a reel's, and PINCH (R46 to R55). -/

namespace Sys2Proof.Orders

open Machine Safety Laws TransferMemory

theorem decoder_count (t : Transport) (d e : DecoderId) (c : Int) : (t.count d c).decoder e = t.decoder e := by
  rw [count_eq]
  cases e <;> rfl

/-- One flipped line of a decoder is an edge. -/
theorem edgeOf_line {t : Transport} {v : BitVec 10} {d : DecoderId} {j : Nat} (hj : j < 3)
    (levels : ∀ (n : Nat) (l : Line × Nat), (inputLines t)[n]? = some l → v.getLsbD n = (l.1.raw ^^ decide (n = firstBit d + j))) :
    EdgeOf t v d (decide (j = 0)) (decide (j = 1)) (decide (j = 2)) := by
  refine edgeOf_of_lines (fun n => decide (n = firstBit d + j)) levels ?_ ?_ ?_ ?_ ?_
  · simp
  · simp [eq_comm]
  · simp [eq_comm]
  · simp only [decide_eq_true_eq]
    omega
  · intro n _ na nb ni
    exact decide_eq_false (by omega)

/-- The unit after the count of one edge over quiet inputs. -/
theorem edgeUnit_fields {s : State} {dt : Nat} {d : DecoderId} {a b i : Bool} {c : Int} {u : Transport} (quiet : Quiet s.transport)
    (hu : ((clocked s dt).unit.setDecoder d (flipped (s.transport.decoder d) a b i)).count d c = u) :
    let t0 := s.transport
    let added := t0.pinch.raw && decide (d = .capstan ∧ c ≠ 0)
    let net := if added then BitVec.ofInt 32 c else 0
    (u.decoder d).errors = (t0.decoder d).errors ∧
    u.position = (if t0.pinch.raw && decide (d = .capstan) then t0.position + BitVec.ofInt 32 c else t0.position) ∧
    u.pinch.filtered = t0.pinch.raw ∧ u.slipThreshold = t0.slipThreshold ∧
    u.motion = (if added then (if 0 < c then .forward else .reverse) else t0.motion) ∧
    u.stillRun = (if added then 0 else t0.stillRun) ∧ u.counted = (t0.counted || added) ∧
    (u.current = t0.current.map fun r => { r with net := r.net + net, reverse := r.reverse || (added && decide (c < 0)) }) ∧
    u.capstanStamp = t0.capstanStamp ∧
    u.supplyReel = (if d = .supply then turnedReel t0.supplyReel c else t0.supplyReel) ∧
    u.takeupReel = (if d = .takeup then turnedReel t0.takeupReel c else t0.takeupReel) := by
  intro t0 added net
  have pinch : t0.pinch.filtered = t0.pinch.raw := pinch_filtered quiet
  obtain ⟨position, motion, still, counted, current, engaged, stamp, supply, takeup, threshold⟩ :=
    setDecoder_fields (clocked s dt).unit d (flipped (s.transport.decoder d) a b i)
  have errors : (u.decoder d).errors = (t0.decoder d).errors := by
    rw [← hu, decoder_count, decoder_setDecoder]
    rfl
  refine ⟨errors, ?_⟩
  rw [count_eq, position, motion, still, counted, current, engaged, stamp, supply, takeup] at hu
  subst hu
  rw [show (clocked s dt).unit.pinch.filtered = t0.pinch.raw from pinch]
  refine ⟨?_, rfl, threshold, rfl, rfl, rfl, rfl, rfl, rfl, rfl⟩
  by_cases zero : c = 0
  · simp [zero, clocked, t0]
  · by_cases capstan : d = .capstan <;> cases engages : t0.pinch.raw <;> simp [zero, capstan, clocked, t0]

/-- O34's third part, with the orders as the slip's news leaves them. -/
theorem oneEdge_counts (s : State) (periods : Nat) (v : BitVec 10) (d : DecoderId) (j : Nat) (working : Working s)
    (inputs : InputsQuiet s.transport) (hj : j < 3) :
     let t0 := s.transport
     let x := t0.decoder d
     x.settings.debounce = 0 →
     (∀ (i : Nat) (l : Line × Nat), (inputLines t0)[i]? = some l → v.getLsbD i = (l.1.raw ^^ decide (i = firstBit d + j))) →
     let before := phaseOf x.lineA.raw x.lineB.raw
     let after := phaseOf (x.lineA.raw ^^ decide (j = 0)) (x.lineB.raw ^^ decide (j = 1))
     let c := stepCount x.settings.encoding before after
     let condition := fun (p : QPhase) (i : Bool) => i && (decide (x.settings.index = none) || decide (x.settings.index = some p))
     let event := !condition before x.lineI.raw && condition after (x.lineI.raw ^^ decide (j = 2))
     let latched := fun (r : Reel) => (turnedReel r c).indexEvent t0.position t0.pinch.raw t0.slipThreshold
     let position := if t0.pinch.raw && decide (d = .capstan) then t0.position + BitVec.ofInt 32 c else t0.position
     let slip := event && match d with
       | .capstan => false
       | .supply => (latched t0.supplyReel).2
       | .takeup => (latched t0.takeupReel).2
     ∃ t, exec (.inputChange periods v) s = .next t ∧ t = { s with transport := t.transport, orders := t.orders } ∧
       OnlyNewsDiffers s.orders t.orders ∧ t.transport.position = position ∧
       (t.transport.decoder d).errors = x.errors ∧
       (let added := t0.pinch.raw && decide (d = .capstan ∧ c ≠ 0)
        let net := if added then BitVec.ofInt 32 c else 0
        t.transport.motion = (if added then (if 0 < c then .forward else .reverse) else t0.motion) ∧
        t.transport.stillRun = (if added then 0 else t0.stillRun) ∧ t.transport.counted = (t0.counted || added) ∧
        t.transport.current = t0.current.map fun r => { r with
          net := r.net + net, reverse := r.reverse || (added && decide (c < 0)), slip := r.slip || slip }) ∧
       t.transport.capstanStamp = (if event && decide (d = .capstan) then position else t0.capstanStamp) ∧
       t.transport.supplyReel = (if d ≠ .supply then t0.supplyReel else if event then (latched t0.supplyReel).1
         else turnedReel t0.supplyReel c) ∧
       t.transport.takeupReel = (if d ≠ .takeup then t0.takeupReel else if event then (latched t0.takeupReel).1
         else turnedReel t0.takeupReel c) ∧
       t.orders = if slip then s.hub.slipNews.orders else s.orders := by
  intro t0 x off levels before after c condition event latched position slip
  have quiet := quiet_of_inputs inputs
  have one : (decide (j = 0) = false ∧ decide (j = 1) = false) ∨ (decide (j = 2) = false ∧ (decide (j = 0) && decide (j = 1)) = false) := by
    rcases (by omega : j = 0 ∨ j = 1 ∨ j = 2) with rfl | rfl | rfl <;> decide
  have run := exec_oneEdge working quiet off (edgeOf_line hj levels) one periods
  dsimp only at run
  rw [indexCondition_eq, indexCondition_eq] at run
  generalize hu : ((clocked s (1000 * periods)).unit.setDecoder d (flipped (s.transport.decoder d) (decide (j = 0)) (decide (j = 1))
    (decide (j = 2)))).count d c = u at run
  obtain ⟨errors, at_, engaged, threshold, motion, still, counted, current, stamp, supply, takeup⟩ := edgeUnit_fields quiet hu
  by_cases edge : event = true
  · rw [if_pos edge] at run
    have judged : slip = judges u d := by
      simp only [slip, edge, Bool.true_and]
      cases d <;> simp [judges, latched, at_, engaged, threshold, supply, takeup, t0, c, x, before, after]
    rw [indexEvent_eq, ← judged] at run
    have kept : (if slip = true then s.hub.slipNews else s.hub).port = s.port ∧
        OnlyNewsDiffers s.orders (if slip = true then s.hub.slipNews else s.hub).orders := by
      split
      · exact slipNews_kept s.hub
      · exact ⟨rfl, onlyNewsDiffers_refl _⟩
    obtain ⟨port, news⟩ := kept
    refine ⟨_, run, ?_, news, at_, ?_, ⟨motion, still, counted, ?_⟩, ?_, ?_, ?_, ?_⟩
    · simp [State.setDeck, port]
    · rw [← errors]
      cases d <;> rfl
    · simp only [State.setDeck, current, Option.map_map]
      rfl
    · simp only [State.setDeck, edge, Bool.true_and, decide_eq_true_eq, stamp, at_]
      rfl
    · simp only [State.setDeck, edge, supply, at_, engaged, threshold, latched]
      cases d <;> simp [t0, c, x, before, after]
    · simp only [State.setDeck, edge, takeup, at_, engaged, threshold, latched]
      cases d <;> simp [t0, c, x, before, after]
    · simp only [State.setDeck]
      split <;> rfl
  · rw [if_neg edge] at run
    have none_ : event = false := by simpa using edge
    have quietSlip : slip = false := by simp [slip, none_]
    refine ⟨_, run, rfl, onlyNewsDiffers_refl _, at_, errors, ⟨motion, still, counted, ?_⟩, ?_, ?_, ?_, ?_⟩
    · simp only [quietSlip, Bool.or_false]
      exact current
    · simpa [none_] using stamp
    · simp only [none_]
      refine supply.trans ?_
      cases d <;> simp [t0, c, x, before, after]
    · simp only [none_]
      refine takeup.trans ?_
      cases d <;> simp [t0, c, x, before, after]
    · simp only [quietSlip]
      rfl

/-- Both edges of a reel's decoder: its error count, its interval unclean, the record marked. -/
theorem exec_reelError {s : State} {v : BitVec 10} {d : DecoderId} (working : Working s) (inputs : InputsQuiet s.transport)
    (off : (s.transport.decoder d).settings.debounce = 0) (low : (s.transport.decoder d).lineI.raw = false)
    (levels : ∀ (i : Nat) (l : Line × Nat), (inputLines s.transport)[i]? = some l →
      v.getLsbD i = (l.1.raw ^^ decide (i = firstBit d ∨ i = firstBit d + 1))) (periods : Nat) :
    exec (.inputChange periods v) s = .next { s with
      transport := ((clocked s (1000 * periods)).unit.setDecoder d (flipped (s.transport.decoder d) true true false)).decodeError d } := by
  have edge : EdgeOf s.transport v d true true false := by
    refine edgeOf_of_lines (fun n => decide (n = firstBit d ∨ n = firstBit d + 1)) levels (by simp) (by simp) (by simp) (by simp) ?_
    intro n _ na nb _
    exact decide_eq_false (by omega)
  rw [exec_edge working (quiet_of_inputs inputs) off edge, edged_low (by rw [clocked_decoder]; exact low) (by simp [flipped, raised, low]),
    edgedUnit_eq s (1000 * periods), stepped_both]
  rfl

/-- A decode error of a reel's decoder, field by field. -/
theorem reelError_fields (t : Transport) {d : DecoderId} (reel : d ≠ .capstan) (y : Decoder) :
    let u := (t.setDecoder d y).decodeError d
    u.position = t.position ∧ u.motion = t.motion ∧ u.capstanStamp = t.capstanStamp ∧ (u.decoder d).errors = inc16 y.errors ∧
    u.supplyReel = { t.supplyReel with runClean := t.supplyReel.runClean && decide (d ≠ .supply) } ∧
    u.takeupReel = { t.takeupReel with runClean := t.takeupReel.runClean && decide (d ≠ .takeup) } ∧
    u.current = t.current.map fun r => { r with decodeError := true } := by
  cases d with
  | capstan => exact absurd rfl reel
  | supply => simp [Transport.decodeError, Transport.setDecoder, Transport.decoder, Transport.mark, Reel.soil]
  | takeup => simp [Transport.decodeError, Transport.setDecoder, Transport.decoder, Transport.mark, Reel.soil]

/-- A change of PINCH alone. -/
theorem exec_pinchEdge {s : State} {v : BitVec 10} (working : Working s) (quiet : Quiet s.transport)
    (off : s.transport.capstan.settings.debounce = 0)
    (levels : ∀ (i : Nat) (l : Line × Nat), (inputLines s.transport)[i]? = some l → v.getLsbD i = (l.1.raw ^^ decide (i = 9)))
    (periods : Nat) :
    exec (.inputChange periods v) s = .next { s with
      transport := (clocked s (1000 * periods)).unit.pinchChange ⟨!s.transport.pinch.raw, !s.transport.pinch.raw, none⟩ } := by
  have line : ∀ n l, (inputLines s.transport)[n]? = some l → n ≠ 9 → v.getLsbD n = l.1.raw := fun n l hl ne => by
    rw [levels n l hl, decide_eq_false ne, Bool.xor_false]
  have others : ∀ e, LevelsKept (clocked s (1000 * periods)).unit v e := fun e => by
    have below : ∀ j, j < 3 → firstBit e + j ≠ 9 := fun j hj => by cases e <;> simp only [firstBit] <;> omega
    cases e
    all_goals exact ⟨line _ _ rfl (below 0 (by decide)), line _ _ rfl (below 1 (by decide)), line _ _ rfl (below 2 (by decide))⟩
  have moves : v.getLsbD 9 = !s.transport.pinch.raw := by
    rw [levels 9 _ rfl, decide_eq_true rfl, Bool.xor_true]
  rw [exec_inputChange working quiet, instant_pinch (clocked_quiet quiet _) off others moves]
  rfl

theorem pinchChange_quiet {t : Transport} (still : Still t.pinch) :
    t.pinchChange ⟨!t.pinch.raw, !t.pinch.raw, none⟩ = { t with
      pinch := ⟨!t.pinch.raw, !t.pinch.raw, none⟩
      current := t.current.map fun r => { r with pinch := r.pinch && !t.pinch.raw }
      supplyReel := { t.supplyReel with runClean := t.supplyReel.runClean && !t.pinch.raw }
      takeupReel := { t.takeupReel with runClean := t.takeupReel.runClean && !t.pinch.raw } } := by
  unfold Transport.pinchChange
  rw [still.1]
  cases opens : t.pinch.raw <;> simp [Transport.mark, Transport.soilReels, Reel.soil]

/-- Settles O34: one edge over quiet inputs is one count, one index event at most, or a decode error. -/
theorem capstanEdgeCounts : Obligations.CapstanEdgeCounts := by
  refine ⟨stepCount_table, ?_, ?_, ?_, ?_⟩
  · intro s periods v flipA flipB working inputs off low some_ t0 a b levels ha hb
    exact capstanEdge_counts s periods v flipA flipB working inputs off low (edgeOf_capstan some_ levels ha hb)
  · intro s periods v d j working inputs hj t0 x first off levels before after c condition event turned latched position slip
    have first_eq : first = firstBit d := by cases d <;> rfl
    obtain ⟨t, run, frame, news, at_, errors, counts, stamp, supply, takeup, orders⟩ :=
      oneEdge_counts s periods v d j working inputs hj off (by rw [← first_eq]; exact levels)
    have told_ : t.orders = if slip = true then s.hub.slipNews.orders else s.orders := orders
    refine ⟨t, run, frame, news, at_, errors, counts, stamp, supply, takeup, ?_, ?_⟩
    · exact fun none_ => told_.trans (if_neg (by rw [none_]; exact Bool.false_ne_true))
    · intro told
      obtain ⟨slots, bits⟩ := slipNews_spec s.hub
      rw [told_]
      by_cases judged : slip = true
      · rw [if_pos judged]
        refine ⟨fun n => ?_, fun n => ?_⟩
        · rw [slots n]
          simp only [told, judged, Bool.true_and]
          rfl
        · rw [bits n]
          simp only [told, judged, Bool.true_and]
          rfl
      · rw [if_neg judged]
        exact ⟨fun n => by simp [told, judged], fun n => by simp [told, judged]⟩
  · intro s periods v d working inputs reel t0 x first off low levels
    have first_eq : first = firstBit d := by cases d <;> rfl
    rw [first_eq] at levels
    obtain ⟨position, motion, stamp, errors, supply, takeup, current⟩ :=
      reelError_fields (clocked s (1000 * periods)).unit reel (flipped (s.transport.decoder d) true true false)
    refine ⟨_, exec_reelError working inputs off low levels periods, rfl, position, motion, stamp, errors.trans ?_, supply, takeup, current⟩
    change inc16 x.errors = _
    unfold inc16
    split <;> simp_all
  · intro s periods v working inputs t0 opens off levels
    have quiet := quiet_of_inputs inputs
    rw [exec_pinchEdge working quiet off levels]
    exact congrArg _
      (congrArg (fun t => { s with transport := t }) (pinchChange_quiet (t := (clocked s (1000 * periods)).unit) quiet.pinch))

end Sys2Proof.Orders
end

section
/-! PROOFS. What the changes served while time passes keep of the unit: settings, records, and the open record's identity (R45 to R55). -/

namespace Sys2Proof.Orders

open Machine Safety Laws TransferMemory

/-! ## The open record while changes are served -/

/-- The same record, further on: PINCH-throughout only lost, the other marks only gained (R55). -/
structure Grown (c r : OpenRecord) : Prop where
  num : r.num = c.num
  start : r.start = c.start
  nc : r.nc = c.nc
  pinch : c.pinch = false → r.pinch = false
  reverse : c.reverse = true → r.reverse = true
  decodeError : c.decodeError = true → r.decodeError = true
  slip : c.slip = true → r.slip = true

theorem Grown.refl (c : OpenRecord) : Grown c c := ⟨rfl, rfl, rfl, id, id, id, id⟩

theorem Grown.trans {c r x : OpenRecord} (h : Grown c r) (g : Grown r x) : Grown c x :=
  ⟨g.num.trans h.num, g.start.trans h.start, g.nc.trans h.nc, g.pinch ∘ h.pinch, g.reverse ∘ h.reverse, g.decodeError ∘ h.decodeError,
    g.slip ∘ h.slip⟩

/-- The unit after changes were served: settings and closed records as before, the open record grown. -/
structure Served (t u : Transport) : Prop where
  settings : ∀ d, (u.decoder d).settings = (t.decoder d).settings
  nc : u.nc = t.nc
  threshold : u.slipThreshold = t.slipThreshold
  records : u.records = t.records
  none_ : t.current = none → u.current = none
  some_ : ∀ c, t.current = some c → ∃ r, u.current = some r ∧ Grown c r

theorem Served.refl (t : Transport) : Served t t := ⟨fun _ => rfl, rfl, rfl, rfl, id, fun c hc => ⟨c, hc, .refl c⟩⟩

theorem Served.trans {t u v : Transport} (h : Served t u) (g : Served u v) : Served t v :=
  ⟨fun d => (g.settings d).trans (h.settings d), g.nc.trans h.nc, g.threshold.trans h.threshold, g.records.trans h.records,
    g.none_ ∘ h.none_, fun c hc => by
      obtain ⟨r, hr, grown⟩ := h.some_ c hc
      obtain ⟨x, hx, more⟩ := g.some_ r hr
      exact ⟨x, hx, grown.trans more⟩⟩

/-- A unit whose settings, records and open record are those of another. -/
theorem Served.ofFields {t u : Transport} (settings : ∀ d, (u.decoder d).settings = (t.decoder d).settings) (nc : u.nc = t.nc)
    (threshold : u.slipThreshold = t.slipThreshold) (records : u.records = t.records) (current : u.current = t.current) : Served t u :=
  ⟨settings, nc, threshold, records, fun h => current.trans h, fun c hc => ⟨c, current.trans hc, .refl c⟩⟩

/-- A unit whose open record alone is marked. -/
theorem Served.ofMark {t u : Transport} {f : OpenRecord → OpenRecord} (settings : ∀ d, (u.decoder d).settings = (t.decoder d).settings)
    (nc : u.nc = t.nc) (threshold : u.slipThreshold = t.slipThreshold) (records : u.records = t.records)
    (current : u.current = t.current.map f) (grown : ∀ c, Grown c (f c)) : Served t u :=
  ⟨settings, nc, threshold, records, fun h => by rw [current, h]; rfl, fun c hc => ⟨f c, by rw [current, hc]; rfl, grown c⟩⟩

theorem served_setDecoder (t : Transport) {d : DecoderId} {y : Decoder} (same : y.settings = (t.decoder d).settings) :
    Served t (t.setDecoder d y) := by
  refine .ofFields (fun e => ?_) ?_ ?_ ?_ ?_
  · by_cases own : e = d
    · rw [own, decoder_setDecoder]
      exact same
    · rw [decoder_setDecoder_of_ne t y own]
  all_goals cases d <;> rfl

theorem served_count (t : Transport) (d : DecoderId) (c : Int) : Served t (t.count d c) := by
  cases d with
  | capstan =>
    unfold Transport.count Transport.capstanCount
    dsimp only
    split
    · exact .refl t
    · exact .ofMark (fun d => by cases d <;> rfl) rfl rfl rfl rfl fun c => ⟨rfl, rfl, rfl, id, fun h => by simp [h], id, id⟩
  | supply => exact .ofFields (fun d => by cases d <;> rfl) rfl rfl rfl rfl
  | takeup => exact .ofFields (fun d => by cases d <;> rfl) rfl rfl rfl rfl

theorem served_soilReels (t : Transport) : Served t t.soilReels := .ofFields (fun d => by cases d <;> rfl) rfl rfl rfl rfl

theorem served_decodeError (t : Transport) (d : DecoderId) : Served t (t.decodeError d) := by
  unfold Transport.decodeError
  extract_lets x t1
  have moved : Served t (t.setDecoder d { x with errors := inc16 x.errors }) := served_setDecoder t rfl
  have marked : Served t t1 := moved.trans
    (.ofMark (fun d => by cases d <;> rfl) rfl rfl rfl rfl fun c => ⟨rfl, rfl, rfl, id, id, fun _ => rfl, id⟩)
  cases d with
  | capstan => exact marked.trans (served_soilReels t1)
  | supply => exact marked.trans (.ofFields (fun d => by cases d <;> rfl) rfl rfl rfl rfl)
  | takeup => exact marked.trans (.ofFields (fun d => by cases d <;> rfl) rfl rfl rfl rfl)

theorem served_indexEvent (k : Deck) (d : DecoderId) : Served k.unit (k.indexEvent d).unit := by
  rw [indexEvent_eq]
  exact .ofMark (fun d => by cases d <;> rfl) rfl rfl rfl rfl fun c => ⟨rfl, rfl, rfl, id, id, id, fun h => by simp [h]⟩

theorem served_indexEdge (k : Deck) (d : DecoderId) (p q : Bool) : Served k.unit (k.indexEdge d p q).unit := by
  rw [indexEdge_eq]
  split
  · exact served_indexEvent k d
  · exact .refl _

theorem served_pinchChange (t : Transport) (l : Line) : Served t (t.pinchChange l) := by
  unfold Transport.pinchChange
  dsimp only
  have moved : Served t { t with pinch := l } := .ofFields (fun d => by cases d <;> rfl) rfl rfl rfl rfl
  split
  · exact .ofMark (fun d => by cases d <;> rfl) rfl rfl rfl rfl fun c => ⟨rfl, rfl, rfl, fun _ => rfl, id, id, id⟩
  · exact moved

theorem served_decoderChange (k : Deck) (d : DecoderId) (y : Decoder) : Served k.unit (k.decoderChange d y).unit := by
  unfold Deck.decoderChange
  extract_lets old p0 p1 index t both t1 k1 c0 c1 c2
  have moved : Served k.unit t := served_setDecoder _ rfl
  have stepped : Served t t1 := by
    change Served t (if both then _ else _)
    split
    · exact served_decodeError t d
    · exact served_count t d _
  exact ((moved.trans stepped).trans (served_indexEdge k1 d c0 c1)).trans (served_indexEdge _ d c1 c2)

theorem served_serve (k : Deck) (c : Change) : Served k.unit (k.serve c).unit := by
  cases c with
  | decoder d y => exact served_decoderChange k d y
  | pinch l => exact served_pinchChange k.unit l

theorem served_serves (k : Deck) (l : List Change) : Served k.unit (l.foldl Deck.serve k).unit := by
  induction l generalizing k with
  | nil => exact .refl _
  | cons c l ih => exact (served_serve k c).trans (ih _)

theorem served_instant (k : Deck) (v : BitVec 10) (free : Nat) : Served k.unit (k.instant v free).1.unit := by
  unfold Deck.instant
  extract_lets t cap sup tak pin changes k1
  have raised : Served k.unit k1.unit := .ofFields (fun d => by cases d <;> rfl) rfl rfl rfl rfl
  split
  · exact raised.trans (served_serves _ _)
  · exact raised.trans (served_serves _ _)

theorem served_tick (t : Transport) (dt : Nat) : Served t (t.tick dt) := .ofFields (fun d => by cases d <;> rfl) rfl rfl rfl rfl

theorem served_pass (k : Deck) (dt free fuel : Nat) : Served k.unit (k.pass dt free fuel).1.unit := by
  induction fuel generalizing k dt free with
  | zero => exact served_tick _ _
  | succ fuel ih =>
    unfold Deck.pass
    split
    · exact served_tick _ _
    · split
      · exact served_tick _ _
      · rename_i e _ _
        have ticked : Served k.unit ({ k with unit := k.unit.tick e } : Deck).unit := served_tick _ _
        have done := served_instant { k with unit := k.unit.tick e } (k.unit.tick e).rawLevels free
        dsimp only
        generalize ({ k with unit := k.unit.tick e } : Deck).instant (k.unit.tick e).rawLevels free = x at done ⊢
        exact (ticked.trans done).trans (ih _ _ _)

/-! ## The raw levels as they stand -/

/-- The number whose bits, from bit 0 up, are the levels of a list. -/
def levelBits : List Bool → Nat
  | [] => 0
  | b :: l => flagBit b + 2 * levelBits l

theorem testBit_levelBits (l : List Bool) (i : Nat) : (levelBits l).testBit i = l.getD i false := by
  induction l generalizing i with
  | nil => simp [levelBits]
  | cons b l ih =>
    cases i with
    | zero => cases b <;> simp [levelBits, flagBit, Nat.testBit_zero, Nat.add_mod]
    | succ i =>
      have half : (flagBit b + 2 * levelBits l) / 2 = levelBits l := by unfold flagBit; split <;> omega
      rw [levelBits, Nat.testBit_succ, half, ih, List.getD_cons_succ]

theorem rawLevels_eq (t : Transport) : t.rawLevels = BitVec.ofNat 10 (levelBits ((inputLines t).map fun l => l.1.raw)) := by
  refine congrArg (BitVec.ofNat 10) ?_
  simp only [inputLines, List.map_cons, List.map_nil, levelBits]
  omega

/-- Each bit of the raw levels is the raw level of its line. -/
theorem rawLevels_line {t : Transport} {n : Nat} {l : Line × Nat} (h : (inputLines t)[n]? = some l) : t.rawLevels.getLsbD n = l.1.raw := by
  have below : n < 10 := (List.getElem?_eq_some_iff.1 h).1
  rw [rawLevels_eq, BitVec.getLsbD_ofNat, decide_eq_true below, Bool.true_and, testBit_levelBits, List.getD_eq_getElem?_getD,
    List.getElem?_map, h]
  rfl

theorem rawLevels_kept (t : Transport) (d : DecoderId) : LevelsKept t t.rawLevels d := by
  cases d with
  | capstan => exact ⟨rawLevels_line (n := 0) rfl, rawLevels_line (n := 1) rfl, rawLevels_line (n := 2) rfl⟩
  | supply => exact ⟨rawLevels_line (n := 3) rfl, rawLevels_line (n := 4) rfl, rawLevels_line (n := 5) rfl⟩
  | takeup => exact ⟨rawLevels_line (n := 6) rfl, rawLevels_line (n := 7) rfl, rawLevels_line (n := 8) rfl⟩

/-- Over quiet inputs nothing matures at an instant that leaves the levels as they stand. -/
theorem instant_still {k : Deck} (quiet : Quiet k.unit) (free : Nat) : k.instant k.unit.rawLevels free = (k, free) :=
  instant_none quiet (rawLevels_kept k.unit) (rawLevels_line (n := 9) rfl) free

end Sys2Proof.Orders
end

section
/-! PROOFS. O38: the boundary itself, function by function (R54 to R60). -/

namespace Sys2Proof.Orders

open Machine Safety Laws TransferMemory

/-! ## The ending block -/

theorem closeMotion_eq (t : Transport) : t.closeMotion = { t with
    counted := false
    stillRun := if t.counted then t.stillRun else t.stillRun + 1
    motion := if t.counted = false ∧ 10 ≤ t.stillRun + 1 then .stopped else t.motion } := by
  unfold Transport.closeMotion Transport.stopIfStill
  cases counted : t.counted
  · by_cases ten : 10 ≤ t.stillRun + 1 <;> simp [ten]
  · simp

/-- The record of the block that ends (R55, R56). -/
def closedAt (t : Transport) : Option BlockRecord := t.current.map fun c => c.close t.position t.closeMotion.motion

/-- The unit once the ending block's record is closed and kept. -/
def closedUnit (t : Transport) : Transport := { t.closeMotion with
  current := none
  records := (closedAt t).elim t.records fun b => (b :: t.records).take 8 }

theorem closeRecord_eq (t : Transport) : t.closeMotion.closeRecord = (closedAt t, closedUnit t) := by
  have current : t.closeMotion.current = t.current := by rw [closeMotion_eq]
  have position : t.closeMotion.position = t.position := by rw [closeMotion_eq]
  unfold Transport.closeRecord closedUnit closedAt
  cases open_ : t.current with
  | none =>
    have eta : ∀ u : Transport, u.current = none → u = { u with current := none, records := u.records } := fun u h => by
      cases u; cases h; rfl
    simp only [current, open_, Option.map_none, Option.elim_none, ← closeMotion_records t]
    exact congrArg (Prod.mk none) (eta _ (current.trans open_))
  | some c =>
    simp only [current, open_, position, Option.map_some, Option.elim_some, closeMotion_records]

/-- The TRANSPORT that takes effect with a block (R38, R59). -/
def boundWith (o : OrderUnit) (num : Word) : Option PendingTransport := o.pendingTransport.filter fun p => p.block == num

theorem bindTransport_eq (k : Deck) (num : Word) : k.bindTransport num =
    (boundWith k.hub.orders num).elim k fun p => { unit := k.unit.bindOrder p.order
                                                   hub := { k.hub with orders := { k.hub.orders with
                                                     pendingTransport := none, reachedTransport := some p.slot } } } := by
  unfold Deck.bindTransport boundWith
  cases pending : k.hub.orders.pendingTransport with
  | none => rfl
  | some p => by_cases due : p.block = num <;> simp [due, Option.filter]

/-- The unit as the next block begins, before its record opens. -/
def begunUnit (k : Deck) (num : Word) : Transport :=
  (boundWith k.hub.orders num).elim (closedUnit k.unit) fun p => (closedUnit k.unit).bindOrder p.order

/-! ## A TRANSPORT completed (R59) -/

/-- The port with the two position words of a TRANSPORT whose binding block has its record. -/
def completedPort (p : Port) : Option SlotNo → Option BlockRecord → Port
  | some n, some b => (p.store (slotBase n + 0x24) b.start).store (slotBase n + 0x28) b.stop
  | _, _ => p

/-- The order unit once that TRANSPORT's end is reported. -/
def completedOrders (o : OrderUnit) : Option BlockRecord → OrderUnit
  | none => o
  | some _ => o.reachedTransport.elim o fun n => { o with ends := o.ends ++ [⟨n, .complete, .none, false⟩], reachedTransport := none }

theorem completeTransport_eq (h : Hub) (r : Option BlockRecord) :
    h.completeTransport r = { h with port := completedPort h.port h.orders.reachedTransport r, orders := completedOrders h.orders r } := by
  unfold Hub.completeTransport completedOrders
  cases reached : h.orders.reachedTransport <;> cases r <;> rfl

theorem completedPort_frame (p : Port) (n : Option SlotNo) (r : Option BlockRecord) :
    completedPort p n r = { p with mem := (completedPort p n r).mem, ecc := (completedPort p n r).ecc } := by
  cases n <;> cases r <;> rfl

theorem wrote_completedPort (p : Port) (n : Option SlotNo) (r : Option BlockRecord) :
    Wrote p (completedPort p n r) (n.toList.map fun n => (slotBase n + 0x24, 8)) := by
  cases n with
  | none => exact .refl p
  | some n =>
    cases r with
    | none => exact (Wrote.refl p).cover fun a _ r hr => by simp at hr
    | some b =>
      refine ((wrote_store p (slotBase n + 0x24) b.start).store (slotBase n + 0x28) b.stop).cover fun a ha r hr => ?_
      simp only [List.cons_append, List.nil_append, List.mem_cons, List.not_mem_nil, or_false] at hr
      have out := ha (slotBase n + 0x24, 8) (by simp)
      rcases hr with rfl | rfl <;> dsimp only at out ⊢ <;> omega

theorem holds_completedPort {p : Port} (mem : Memory.wf p.mem = true) (n : SlotNo) (b : BlockRecord) :
    Holds (completedPort p (some n) (some b)) (slotBase n + 0x24) b.start ∧
      Holds (completedPort p (some n) (some b)) (slotBase n + 0x28) b.stop :=
  ⟨(holds_store mem _ _).store (portWf_store mem _ _) (by simp only [Apart]; omega), holds_store (portWf_store mem _ _) _ _⟩

/-! ## The beginning block -/

/-- The boundary of the unit, its port and its order unit. -/
theorem boundary_eq (k : Deck) (num : Word) :
    let t := (begunUnit k num).openRecord num
    let o := completedOrders k.hub.orders (closedAt k.unit)
    k.boundary num = (closedAt k.unit,
      { unit := { t with clock := 0 }
        hub := { k.hub with
          port := (completedPort k.hub.port k.hub.orders.reachedTransport (closedAt k.unit)).storeWords Config.snapshotBase (t.snapshot num)
          orders := (boundWith k.hub.orders num).elim o fun p =>
            { o with pendingTransport := none, reachedTransport := some p.slot } } }) := by
  intro t o
  have pending : boundWith o num = boundWith k.hub.orders num := by
    change boundWith (completedOrders _ _) num = _
    unfold completedOrders
    cases closedAt k.unit with
    | none => rfl
    | some b => cases k.hub.orders.reachedTransport <;> rfl
  unfold Deck.boundary
  rw [closeRecord_eq]
  dsimp only
  rw [bindTransport_eq, completeTransport_eq]
  dsimp only
  rw [show boundWith (completedOrders k.hub.orders (closedAt k.unit)) num = boundWith k.hub.orders num from pending]
  simp only [t, begunUnit]
  cases boundWith k.hub.orders num <;> rfl

end Sys2Proof.Orders
end

section
/-! PROOFS. O38: what a block boundary leaves, part by part (R54 to R60, R64 to R67). -/

namespace Sys2Proof.Orders

open Machine Safety Laws TransferMemory

/-- The state after a boundary with a well-formed block. -/
def afterBoundary (samples : List (List Sample)) (s : State) : State := { s.setDeck (boundaryDeck s) with
  elements := s.elements.boundary samples
  reports := if s.capture.isSome || s.calibration.isSome
    then s.reports ++ [⟨s.elements.block, (beginningDeck s).1, samples.map clipCount⟩] else s.reports }

/-! ## The deck before and after -/

theorem kept_atBoundary (s : State) : DeckKept s.deck (atBoundary s).1 := pass_kept _ _ _ _

theorem served_atBoundary (s : State) : Served s.transport (atBoundary s).1.unit := served_pass s.deck _ _ _

theorem kept_boundaryDeck (s : State) : DeckKept (beginningDeck s).2 (boundaryDeck s).1 := instant_kept _ _ _

theorem served_boundaryDeck (s : State) : Served (beginningDeck s).2.unit (boundaryDeck s).1.unit := served_instant _ _ _

/-- The unit as the next block begins, its record open: the snapshot is taken of it (R58). -/
def openedUnit (s : State) : Transport := (begunUnit (atBoundary s).1 (s.elements.block + 1)).openRecord (s.elements.block + 1)

/-- The record of the block that ends. -/
def endedRecord (s : State) : Option BlockRecord := closedAt (atBoundary s).1.unit

theorem beginningDeck_record (s : State) : (beginningDeck s).1 = endedRecord s := by
  unfold beginningDeck
  rw [boundary_eq]
  rfl

theorem beginningDeck_unit (s : State) : (beginningDeck s).2.unit = { openedUnit s with clock := 0 } := by
  unfold beginningDeck
  rw [boundary_eq]
  rfl

/-- The order unit's pending and reached TRANSPORT are those before the boundary: changes served are news only. -/
theorem atBoundary_orders (s : State) : (atBoundary s).1.hub.orders = { s.orders with
    slots := (atBoundary s).1.hub.orders.slots, summary := (atBoundary s).1.hub.orders.summary } := by
  obtain ⟨-, ⟨frame, -⟩, -, -⟩ := kept_atBoundary s
  exact frame

theorem boundWith_atBoundary (s : State) (num : Word) : boundWith (atBoundary s).1.hub.orders num = boundWith s.orders num := by
  rw [atBoundary_orders]
  rfl

theorem reached_atBoundary (s : State) : (atBoundary s).1.hub.orders.reachedTransport = s.orders.reachedTransport := by
  rw [atBoundary_orders]

/-- The port after the boundary: the two position words, then the snapshot. -/
theorem boundaryDeck_port (s : State) : (boundaryDeck s).1.hub.port =
    (completedPort s.port s.orders.reachedTransport (endedRecord s)).storeWords Config.snapshotBase
      ((openedUnit s).snapshot (s.elements.block + 1)) := by
  obtain ⟨port, -, -, -⟩ := kept_boundaryDeck s
  obtain ⟨before, -, -, -⟩ := kept_atBoundary s
  rw [port]
  unfold beginningDeck
  rw [boundary_eq]
  dsimp only
  rw [reached_atBoundary, before]
  rfl

/-- The order unit with a TRANSPORT completed by the record that closed, and another put in force (R38, R59). -/
def boundOrders (o : OrderUnit) (r : Option BlockRecord) (bound : Option PendingTransport) : OrderUnit :=
  bound.elim (completedOrders o r) fun p => { completedOrders o r with pendingTransport := none, reachedTransport := some p.slot }

theorem boundOrders_frame (o : OrderUnit) (r : Option BlockRecord) (bound : Option PendingTransport) : boundOrders o r bound = { o with
    ends := (completedOrders o r).ends
    pendingTransport := (boundOrders o r bound).pendingTransport, reachedTransport := (boundOrders o r bound).reachedTransport } := by
  unfold boundOrders completedOrders
  cases bound <;> cases r <;> cases o.reachedTransport <;> rfl

theorem onlyNewsDiffers_boundOrders {o p : OrderUnit} (news : OnlyNewsDiffers o p) (r : Option BlockRecord)
    (bound : Option PendingTransport) :
    OnlyNewsDiffers (boundOrders o r bound) (boundOrders p r bound) := by
  obtain ⟨frame, slots⟩ := news
  obtain ⟨table, summary, rfl⟩ : ∃ table summary, p = { o with slots := table, summary := summary } := ⟨_, _, frame⟩
  rcases o with ⟨_, _, posting, named, runQueue, taking, ends, pending, reached, resetDone⟩
  cases bound <;> cases r <;> cases reached <;> exact ⟨rfl, slots⟩

/-- The order unit after the boundary, but for news. -/
theorem onlyNewsDiffers_boundaryDeck (s : State) :
    OnlyNewsDiffers (boundOrders s.orders (endedRecord s) (boundWith s.orders (s.elements.block + 1))) (boundaryDeck s).1.hub.orders := by
  obtain ⟨-, after, -, -⟩ := kept_boundaryDeck s
  obtain ⟨-, before, -, -⟩ := kept_atBoundary s
  refine onlyNewsDiffers_trans (onlyNewsDiffers_boundOrders before _ _) ?_
  unfold beginningDeck at after
  rw [boundary_eq] at after
  rw [← boundWith_atBoundary]
  exact after

/-! ## Records (R55 to R57) -/

theorem endedRecord_none {s : State} (h : s.transport.current = none) : endedRecord s = none := by
  unfold endedRecord closedAt
  rw [(served_atBoundary s).none_ h]
  rfl

theorem endedRecord_some {s : State} {c : OpenRecord} (h : s.transport.current = some c) : ∃ r, Grown c r ∧
    endedRecord s = some (r.close (atBoundary s).1.unit.position (atBoundary s).1.unit.closeMotion.motion) := by
  obtain ⟨r, hr, grown⟩ := (served_atBoundary s).some_ c h
  refine ⟨r, grown, ?_⟩
  unfold endedRecord closedAt
  rw [hr]
  rfl

/-- The records after a boundary: the one that closed before the others (R57). -/
theorem records_boundaryDeck (s : State) : (boundaryDeck s).1.unit.records =
    (endedRecord s).elim s.transport.records fun b => (b :: s.transport.records).take 8 := by
  rw [(served_boundaryDeck s).records, beginningDeck_unit]
  have closed : (openedUnit s).records = (closedUnit (atBoundary s).1.unit).records := by
    unfold openedUnit begunUnit
    cases boundWith (atBoundary s).1.hub.orders (s.elements.block + 1) <;> rfl
  change (openedUnit s).records = _
  rw [closed, ← (served_atBoundary s).records]
  rfl

/-- The record that opens with the next block (R55). -/
theorem current_boundaryDeck (s : State) : ∃ r, (boundaryDeck s).1.unit.current = some r ∧ r.num = s.elements.block + 1 ∧
    r.start = (openedUnit s).position ∧ r.nc = (boundaryDeck s).1.unit.nc := by
  have served := served_boundaryDeck s
  rw [beginningDeck_unit] at served
  obtain ⟨r, hr, grown⟩ := served.some_ _ rfl
  exact ⟨r, hr, grown.num, grown.start, grown.nc.trans served.nc.symm⟩

/-! ## Settings (R59, R60) -/

/-- The settings after a boundary without a TRANSPORT that binds. -/
theorem settings_unbound {s : State} (none_ : boundWith s.orders (s.elements.block + 1) = none) :
    (∀ d, ((boundaryDeck s).1.unit.decoder d).settings = (s.transport.decoder d).settings) ∧
    (boundaryDeck s).1.unit.nc = s.transport.nc ∧ (boundaryDeck s).1.unit.slipThreshold = s.transport.slipThreshold := by
  have served := served_boundaryDeck s
  rw [beginningDeck_unit] at served
  have before := served_atBoundary s
  have opened : openedUnit s = (closedUnit (atBoundary s).1.unit).openRecord (s.elements.block + 1) := by
    unfold openedUnit begunUnit
    rw [boundWith_atBoundary, none_]
    rfl
  rw [opened] at served
  refine ⟨fun d => ((served.settings d).trans ?_).trans (before.settings d), (served.nc.trans ?_).trans before.nc,
    (served.threshold.trans ?_).trans before.threshold⟩
  · unfold closedUnit
    rw [closeMotion_eq]
    cases d <;> rfl
  · unfold closedUnit
    rw [closeMotion_eq]
    rfl
  · unfold closedUnit
    rw [closeMotion_eq]
    rfl

/-- The settings after a boundary at which a TRANSPORT binds: those of its order. -/
theorem settings_bound {s : State} {p : PendingTransport} (bound : boundWith s.orders (s.elements.block + 1) = some p) :
    let u := (boundaryDeck s).1.unit
    u.capstan.settings = p.order.capstan ∧ u.supply.settings = p.order.supply ∧ u.takeup.settings = p.order.takeup ∧
    u.nc = p.order.nc ∧ u.slipThreshold = p.order.slipThreshold ∧ ∀ q, p.order.preset = some q → u.current.map (·.start) = some q := by
  have served := served_boundaryDeck s
  rw [beginningDeck_unit] at served
  have opened : openedUnit s = ((closedUnit (atBoundary s).1.unit).bindOrder p.order).openRecord (s.elements.block + 1) := by
    unfold openedUnit begunUnit
    rw [boundWith_atBoundary, bound]
    rfl
  obtain ⟨r, hr, -, start, -⟩ := current_boundaryDeck s
  rw [opened] at served
  refine ⟨served.settings .capstan, served.settings .supply, served.settings .takeup, served.nc, served.threshold, fun q hq => ?_⟩
  rw [hr, Option.map_some, start, opened]
  simp [Transport.openRecord, Transport.bindOrder, hq]

/-! ## Quiet inputs -/

theorem quiet_bindOrder {t : Transport} (quiet : Quiet t) (o : TransportOrder) : Quiet (t.bindOrder o) :=
  ⟨⟨quiet.capstan.a, quiet.capstan.b, quiet.capstan.i⟩, ⟨quiet.supply.a, quiet.supply.b, quiet.supply.i⟩,
    ⟨quiet.takeup.a, quiet.takeup.b, quiet.takeup.i⟩, quiet.pinch⟩

theorem quiet_closedUnit {t : Transport} (quiet : Quiet t) : Quiet (closedUnit t) := by
  unfold closedUnit
  rw [closeMotion_eq]
  exact ⟨quiet.capstan, quiet.supply, quiet.takeup, quiet.pinch⟩

/-- Over quiet inputs nothing is served in the ending block but the time. -/
theorem atBoundary_quiet {s : State} (quiet : Quiet s.transport) :
    (atBoundary s).1.unit = { s.transport with clock := s.transport.clock + (Config.blockTime - s.transport.clock) } := by
  unfold atBoundary
  rw [pass_quiet (k := s.deck) quiet]
  rfl

/-- Over quiet inputs nothing is served at the boundary. -/
theorem boundaryDeck_quiet {s : State} (quiet : Quiet s.transport) : (boundaryDeck s).1.unit = { openedUnit s with clock := 0 } := by
  have timed : Quiet (atBoundary s).1.unit := by
    rw [atBoundary_quiet quiet]
    exact ⟨quiet.capstan, quiet.supply, quiet.takeup, quiet.pinch⟩
  have opened : Quiet (openedUnit s) := by
    unfold openedUnit begunUnit
    cases boundWith (atBoundary s).1.hub.orders (s.elements.block + 1) with
    | none =>
      obtain ⟨capstan, supply, takeup, pinch⟩ := quiet_closedUnit timed
      exact ⟨capstan, supply, takeup, pinch⟩
    | some p =>
      obtain ⟨capstan, supply, takeup, pinch⟩ := quiet_bindOrder (quiet_closedUnit timed) p.order
      exact ⟨capstan, supply, takeup, pinch⟩
  unfold boundaryDeck
  have still : Quiet (beginningDeck s).2.unit := by
    rw [beginningDeck_unit]
    exact ⟨opened.capstan, opened.supply, opened.takeup, opened.pinch⟩
  rw [instant_still still, beginningDeck_unit]

end Sys2Proof.Orders
end

section
/-! PROOFS. O38: the statement's parts, and the theorem. -/

namespace Sys2Proof.Orders

open Machine Safety Laws TransferMemory

theorem clipCount_eq (samples : List (List Sample)) :
    samples.map clipCount = samples.map fun e => (e.filter fun x => x == 0x7FFFFF#24 || x == 0x800000#24).length :=
  List.map_congr_left fun _ _ => List.countP_eq_length_filter

theorem isSome_endedRecord (s : State) : (endedRecord s).isSome = s.transport.current.isSome := by
  cases open_ : s.transport.current with
  | none => rw [endedRecord_none open_]; rfl
  | some c =>
    obtain ⟨r, -, ended⟩ := endedRecord_some open_
    rw [ended]
    rfl

theorem close_driven (r : OpenRecord) (stop : Word) (m : Motion) :
    (r.close stop m).driven = true ↔ r.pinch = true ∧ r.reverse = false ∧ m = .forward := by
  simp [OpenRecord.close, and_assoc]

/-- The record that closes over quiet inputs is the one that was open. -/
theorem endedRecord_quiet {s : State} (quiet : Quiet s.transport) {c : OpenRecord} (h : s.transport.current = some c) :
    endedRecord s = some (c.close s.transport.position s.transport.closeMotion.motion) := by
  unfold endedRecord closedAt
  rw [atBoundary_quiet quiet, closeMotion_eq, closeMotion_eq]
  simp [h]

/-- O38 on the block that ends. -/
theorem boundary_closes (s : State) {c : OpenRecord} (h : s.transport.current = some c) :
    ∃ x, (boundaryDeck s).1.unit.records = (x :: s.transport.records).take 8 ∧
      x.num = c.num ∧ x.start = c.start ∧ x.nc = c.nc ∧ (c.pinch = false → x.pinch = false) ∧
      (c.reverse = true → x.reverse = true) ∧ (c.decodeError = true → x.decodeError = true) ∧ (c.slip = true → x.slip = true) ∧
      (x.driven = true ↔ x.pinch = true ∧ x.reverse = false ∧ x.motion = .forward) ∧
      (InputsQuiet s.transport →
        let u := s.transport.closeMotion
        x = { num := c.num, start := c.start, stop := s.transport.position, net := c.net, pinch := c.pinch, reverse := c.reverse
              decodeError := c.decodeError, slip := c.slip, motion := u.motion
              driven := c.pinch && !c.reverse && decide (u.motion = .forward), nc := c.nc }) := by
  obtain ⟨r, grown, ended⟩ := endedRecord_some h
  refine ⟨r.close (atBoundary s).1.unit.position (atBoundary s).1.unit.closeMotion.motion, ?_, grown.num, grown.start, grown.nc,
    grown.pinch, grown.reverse, grown.decodeError, grown.slip,
    close_driven _ _ _, ?_⟩
  · rw [records_boundaryDeck, ended]
    rfl
  · intro inputs
    have same := (ended.symm.trans (endedRecord_quiet (quiet_of_inputs inputs) h))
    exact Option.some.inj same

/-- A word of the snapshot, after the boundary (R58). -/
theorem stored_snapshot {samples : List (List Sample)} {s : State} (mem : MemoryCanonical s) {i : Nat} {w : Word}
    (hw : ((openedUnit s).snapshot (s.elements.block + 1))[i]? = some w) : Stored (afterBoundary samples s) (0x2100 + 4 * i) w := by
  rw [← holds_iff_stored]
  change Holds (boundaryDeck s).1.hub.port _ _
  rw [boundaryDeck_port]
  exact holds_storeWords ((wrote_completedPort _ _ _).wf mem) _ hw

theorem afterBoundary_transport (samples : List (List Sample)) (s : State) :
    (afterBoundary samples s).transport = (boundaryDeck s).1.unit := rfl

theorem afterBoundary_orders (samples : List (List Sample)) (s : State) :
    (afterBoundary samples s).orders = (boundaryDeck s).1.hub.orders := rfl

/-- O38 on the record that opens. -/
theorem boundary_opens {samples : List (List Sample)} {s : State} (mem : MemoryCanonical s) :
    ∃ r, (boundaryDeck s).1.unit.current = some r ∧ r.num = s.elements.block + 1 ∧ r.nc = (boundaryDeck s).1.unit.nc ∧
      Stored (afterBoundary samples s) 0x2104 r.start ∧
      (InputsQuiet s.transport → r = { num := s.elements.block + 1, start := (boundaryDeck s).1.unit.position, net := 0
                                       pinch := s.transport.pinch.filtered, reverse := false, decodeError := false, slip := false
                                       nc := (boundaryDeck s).1.unit.nc }) := by
  obtain ⟨r, hr, num, start, nc⟩ := current_boundaryDeck s
  refine ⟨r, hr, num, nc, ?_, fun inputs => ?_⟩
  · rw [start]
    exact stored_snapshot (i := 1) mem rfl
  · have quiet := quiet_of_inputs inputs
    have pinch : (openedUnit s).pinch = s.transport.pinch := by
      unfold openedUnit begunUnit closedUnit
      rw [closeMotion_eq, atBoundary_quiet quiet]
      cases boundWith (atBoundary s).1.hub.orders (s.elements.block + 1) <;> rfl
    rw [boundaryDeck_quiet quiet] at hr ⊢
    rw [← pinch]
    exact (Option.some.inj hr).symm

/-- O38's words of the snapshot over quiet inputs. -/
theorem boundary_snapshot {samples : List (List Sample)} {s : State} (mem : MemoryCanonical s) (quiet : Quiet s.transport) :
    let t := afterBoundary samples s
    let u := (boundaryDeck s).1.unit
    Stored t 0x2108 (BitVec.ofNat 32 (motionCode u.motion + 256 * flagBit u.pinch.filtered)) ∧
    Stored t 0x210C (BitVec.ofNat 32 (u.supplyReel.counter.toNat + 65536 * u.takeupReel.counter.toNat)) ∧
    Stored t 0x2110 u.supplyReel.ratio ∧ Stored t 0x2114 u.takeupReel.ratio ∧ Stored t 0x2118 u.capstanStamp ∧
    Stored t 0x211C (BitVec.ofNat 32 (u.capstan.errors.toNat + 65536 * u.supply.errors.toNat)) ∧
    Stored t 0x2120 (BitVec.ofNat 32 u.takeup.errors.toNat) ∧
    Stored t 0x2124 (BitVec.ofNat 32 (u.supplyReel.slips.toNat + 65536 * u.takeupReel.slips.toNat)) ∧
    ∀ a ∈ [0x2128, 0x212C, 0x2130, 0x2134, 0x2138], Stored t a 0 := by
  intro t u
  have hu : u = { openedUnit s with clock := 0 } := boundaryDeck_quiet quiet
  have word_ : ∀ i w, (u.snapshot (s.elements.block + 1))[i]? = some w → Stored t (0x2100 + 4 * i) w := fun i w h =>
    stored_snapshot mem (by rw [hu] at h; exact h)
  refine ⟨word_ 2 _ rfl, word_ 3 _ rfl, word_ 4 _ rfl, word_ 5 _ rfl, word_ 6 _ rfl, word_ 7 _ rfl, word_ 8 _ rfl, word_ 9 _ rfl, ?_⟩
  simp only [List.forall_mem_cons]
  exact ⟨word_ 10 _ rfl, word_ 11 _ rfl, word_ 12 _ rfl, word_ 13 _ rfl, word_ 14 _ rfl, by simp⟩

/-- A reel soiled where a binding says so (R52). -/
theorem reel_soiled (r : Reel) {soil : Prop} [Decidable soil] {b : Bool} (h : soil ↔ b = true) :
    (if soil then r.soil else r) = { r with runClean := r.runClean && !b } := by
  cases b with
  | true => simp [h.2 rfl, Reel.soil]
  | false =>
    have kept : ¬ soil := fun s => Bool.false_ne_true (h.1 s)
    simp [kept]

/-- O38's unit over quiet inputs: what a TRANSPORT that binds changes, and nothing else. -/
theorem boundary_quietUnit {s : State} (quiet : Quiet s.transport) :
    let u := s.transport
    let v := (boundaryDeck s).1.unit
    let bound := (s.orders.pendingTransport.filter fun p => p.block == s.elements.block + 1).map (·.order)
    let soiled := fun (settings : Transport → DecoderSettings) (new : TransportOrder → DecoderSettings) => bound.any fun o =>
      decide (o.capstan.encoding ≠ u.capstan.settings.encoding) || decide ((new o).encoding ≠ (settings u).encoding) ||
        decide ((new o).index ≠ (settings u).index) || o.preset.isSome
    v.position = (bound.bind (·.preset)).getD u.position ∧
    v.stillRun = (if u.counted then u.stillRun else u.stillRun + 1) ∧ v.counted = false ∧
    v.motion = (if u.counted = false ∧ 10 ≤ u.stillRun + 1 then .stopped else u.motion) ∧
    v.capstan = { u.capstan with settings := v.capstan.settings } ∧ v.supply = { u.supply with settings := v.supply.settings } ∧
    v.takeup = { u.takeup with settings := v.takeup.settings } ∧ v.pinch = u.pinch ∧ v.capstanStamp = u.capstanStamp ∧
    v.supplyReel = { u.supplyReel with runClean := u.supplyReel.runClean && !soiled (·.supply.settings) (·.supply) } ∧
    v.takeupReel = { u.takeupReel with runClean := u.takeupReel.runClean && !soiled (·.takeup.settings) (·.takeup) } := by
  intro u v bound soiled
  have hv : v = { openedUnit s with clock := 0 } := boundaryDeck_quiet quiet
  unfold openedUnit begunUnit closedUnit at hv
  rw [boundWith_atBoundary, closeMotion_eq, atBoundary_quiet quiet] at hv
  cases found : boundWith s.orders (s.elements.block + 1) with
  | none =>
    have free : bound = none := congrArg (Option.map _) found
    rw [found] at hv
    simp only [soiled, free, hv]
    simp [Transport.openRecord, u]
  | some p =>
    have taken : bound = some p.order := congrArg (Option.map _) found
    rw [found] at hv
    simp only [soiled, taken, hv]
    refine ⟨rfl, rfl, rfl, rfl, rfl, rfl, rfl, rfl, rfl, ?_, ?_⟩
    · exact reel_soiled _ (by simp [u, or_assoc, Option.isSome_iff_ne_none])
    · exact reel_soiled _ (by simp [u, or_assoc, Option.isSome_iff_ne_none])

/-- O38 on a TRANSPORT whose binding block ends with a record (R59). -/
theorem boundary_completes {samples : List (List Sample)} {s : State} (mem : MemoryCanonical s) {n : SlotNo}
    (reached : s.orders.reachedTransport = some n) (open_ : s.transport.current.isSome = true) :
    ∃ x, (boundaryDeck s).1.unit.records.head? = some x ∧
      (boundaryDeck s).1.hub.orders.ends = s.orders.ends ++ [⟨n, .complete, .none, false⟩] ∧
      Stored (afterBoundary samples s) (slotBase n + 0x24) x.start ∧ Stored (afterBoundary samples s) (slotBase n + 0x28) x.stop := by
  obtain ⟨c, hc⟩ := Option.isSome_iff_exists.1 open_
  obtain ⟨r, -, ended⟩ := endedRecord_some hc
  generalize r.close _ _ = b at ended
  obtain ⟨start, stop⟩ := holds_completedPort mem n b
  have below := n.isLt
  have held : ∀ {a w}, Holds (completedPort s.port (some n) (some b)) a w → a + 4 ≤ 0x2100 → Stored (afterBoundary samples s) a w :=
    fun {a w} h low => by
      rw [← holds_iff_stored]
      change Holds (boundaryDeck s).1.hub.port a w
      rw [boundaryDeck_port, ended, reached]
      refine (wrote_storeWords _ _ _).holds ((wrote_completedPort _ _ _).wf mem) h fun r hr => ?_
      rw [List.mem_singleton.1 hr]
      left
      exact low
  refine ⟨b, ?_, ?_, held start ?_, held stop ?_⟩
  · rw [records_boundaryDeck, ended]
    rfl
  · obtain ⟨frame, -⟩ := onlyNewsDiffers_boundaryDeck s
    rw [frame, ended, boundOrders_frame]
    simp [completedOrders, reached]
  · unfold slotBase; omega
  · unfold slotBase; omega

theorem boundary_ends {s : State} (none_ : s.orders.reachedTransport = none) : (boundaryDeck s).1.hub.orders.ends = s.orders.ends := by
  obtain ⟨frame, -⟩ := onlyNewsDiffers_boundaryDeck s
  rw [frame, boundOrders_frame]
  cases ended : endedRecord s <;> simp [completedOrders, none_]

theorem completedOrders_pending (o : OrderUnit) (r : Option BlockRecord) : (completedOrders o r).pendingTransport = o.pendingTransport := by
  unfold completedOrders
  cases r with
  | none => rfl
  | some b => cases o.reachedTransport <;> rfl

/-- O38 on a pending TRANSPORT (R38, R59, R60). -/
theorem boundary_binds {s : State} {p : PendingTransport} (pending : s.orders.pendingTransport = some p) :
    let u := (boundaryDeck s).1.unit
    let o := (boundaryDeck s).1.hub.orders
    (p.block = s.elements.block + 1 → o.pendingTransport = none ∧ o.reachedTransport = some p.slot ∧
      u.capstan.settings = p.order.capstan ∧ u.supply.settings = p.order.supply ∧ u.takeup.settings = p.order.takeup ∧
      u.nc = p.order.nc ∧ u.slipThreshold = p.order.slipThreshold ∧ ∀ q, p.order.preset = some q → u.current.map (·.start) = some q) ∧
    (p.block ≠ s.elements.block + 1 → o.pendingTransport = some p ∧
      u.capstan.settings = s.transport.capstan.settings ∧ u.supply.settings = s.transport.supply.settings ∧
      u.takeup.settings = s.transport.takeup.settings ∧ u.nc = s.transport.nc ∧ u.slipThreshold = s.transport.slipThreshold) := by
  intro u o
  obtain ⟨frame, -⟩ := onlyNewsDiffers_boundaryDeck s
  refine ⟨fun due => ?_, fun early => ?_⟩
  · have bound : boundWith s.orders (s.elements.block + 1) = some p := by simp [boundWith, pending, due, Option.filter]
    rw [bound] at frame
    exact ⟨congrArg OrderUnit.pendingTransport frame, congrArg OrderUnit.reachedTransport frame, settings_bound bound⟩
  · have unbound : boundWith s.orders (s.elements.block + 1) = none := by
      unfold boundWith
      rw [pending]
      exact if_neg (by simpa using early)
    obtain ⟨settings, nc, threshold⟩ := settings_unbound unbound
    rw [unbound] at frame
    refine ⟨(congrArg OrderUnit.pendingTransport frame).trans ?_, settings .capstan, settings .supply, settings .takeup, nc, threshold⟩
    change (completedOrders s.orders (endedRecord s)).pendingTransport = some p
    rw [completedOrders_pending]
    exact pending

theorem boundary_unbound {s : State} (pending : s.orders.pendingTransport = none) :
    let u := (boundaryDeck s).1.unit
    (boundaryDeck s).1.hub.orders.pendingTransport = none ∧
      u.capstan.settings = s.transport.capstan.settings ∧ u.supply.settings = s.transport.supply.settings ∧
      u.takeup.settings = s.transport.takeup.settings ∧ u.nc = s.transport.nc ∧ u.slipThreshold = s.transport.slipThreshold := by
  intro u
  obtain ⟨frame, -⟩ := onlyNewsDiffers_boundaryDeck s
  have unbound : boundWith s.orders (s.elements.block + 1) = none := by simp [boundWith, pending]
  obtain ⟨settings, nc, threshold⟩ := settings_unbound unbound
  rw [unbound] at frame
  refine ⟨(congrArg OrderUnit.pendingTransport frame).trans ?_, settings .capstan, settings .supply, settings .takeup, nc, threshold⟩
  change (completedOrders s.orders (endedRecord s)).pendingTransport = none
  rw [completedOrders_pending]
  exact pending

/-- O38 on memory: the snapshot and the two position words. -/
theorem boundary_memory {samples : List (List Sample)} {s : State} (mem : MemoryCanonical s) :
    MemoryKeptOutside s (afterBoundary samples s)
      ((0x2100, 64) :: s.orders.reachedTransport.toList.map fun n => (slotBase n + 0x24, 8)) := by
  have wrote := (wrote_completedPort s.port s.orders.reachedTransport (endedRecord s)).trans
    (wrote_storeWords _ Config.snapshotBase ((openedUnit s).snapshot (s.elements.block + 1)))
  rw [← boundaryDeck_port] at wrote
  refine wrote.keepsOutside (t := afterBoundary samples s) mem fun a out =>
    outside_append.2 ⟨fun r hr => out r (List.mem_cons_of_mem _ hr), ?_⟩
  intro r hr
  rw [List.mem_singleton.1 hr]
  exact out (0x2100, 64) List.mem_cons_self

/-- O38 on the rest of the state: the port's registers and guard, and the order unit but for news, ends and TRANSPORT. -/
theorem boundary_frame (samples : List (List Sample)) (s : State) :
    let t := afterBoundary samples s
    t.port = { s.port with mem := t.port.mem, ecc := t.port.ecc } ∧
    t = { s with
      port := t.port, orders := t.orders, transport := t.transport, elements := t.elements, reports := t.reports
      freeCount := t.freeCount } ∧
    t.orders = { s.orders with
      slots := t.orders.slots, summary := t.orders.summary, ends := t.orders.ends
      pendingTransport := t.orders.pendingTransport, reachedTransport := t.orders.reachedTransport } ∧
    ∀ n, t.orders.slot n = { s.orders.slot n with news := (t.orders.slot n).news } := by
  obtain ⟨frame, slots⟩ := onlyNewsDiffers_boundaryDeck s
  refine ⟨?_, rfl, ?_, fun n => (slots n).trans ?_⟩
  · change (boundaryDeck s).1.hub.port = { s.port with mem := (boundaryDeck s).1.hub.port.mem, ecc := (boundaryDeck s).1.hub.port.ecc }
    rw [boundaryDeck_port, completedPort_frame]
    rfl
  · rw [boundOrders_frame] at frame
    generalize hp : (boundaryDeck s).1.hub.orders = p at frame
    change (boundaryDeck s).1.hub.orders = { s.orders with
      slots := (boundaryDeck s).1.hub.orders.slots, summary := (boundaryDeck s).1.hub.orders.summary
      ends := (boundaryDeck s).1.hub.orders.ends
      pendingTransport := (boundaryDeck s).1.hub.orders.pendingTransport
      reachedTransport := (boundaryDeck s).1.hub.orders.reachedTransport }
    rw [hp, frame]
  · rw [boundOrders_frame]
    rfl

/-- Settles O38: the ending block closed, the next begun, the snapshot taken, and what the changes served may still touch. -/
theorem blockBoundaryFramesBlocks : Obligations.BlockBoundaryFramesBlocks := by
  refine ⟨?_, fun s samples working malformed => ?_⟩
  · intro s samples working mem wf num clips settingsKept
    have clips_eq : samples.map clipCount = clips := clipCount_eq samples
    obtain ⟨port, state, orders, slots⟩ := boundary_frame samples s
    refine ⟨afterBoundary samples s, blockBoundary_eq working wf, ?_⟩
    rw [afterBoundary_transport, afterBoundary_orders] at state ⊢
    rw [afterBoundary_orders] at orders
    rw [afterBoundary_orders] at slots
    refine ⟨?_, ?_, ?_, fun c hc => boundary_closes s hc, boundary_opens mem, fun inputs => boundary_quietUnit (quiet_of_inputs inputs),
      fun inputs => boundary_snapshot mem (quiet_of_inputs inputs), stored_snapshot (i := 0) mem rfl, stored_snapshot (i := 15) mem rfl,
      fun n reached open_ => boundary_completes mem reached open_, boundary_ends, fun p pending => boundary_binds pending,
      boundary_unbound, boundary_memory mem, port, state, orders, slots⟩
    · rw [← clips_eq]
      rfl
    · intro capture calibration
      simp [afterBoundary, capture, calibration]
    · intro busy
      refine ⟨endedRecord s, ?_, isSome_endedRecord s, fun x hx => ?_⟩
      · have runs : (s.capture.isSome || s.calibration.isSome) = true := by simpa [Option.isSome_iff_ne_none] using busy
        simp only [afterBoundary, runs, if_true, beginningDeck_record, clips_eq]
        rfl
      · exact (records_boundaryDeck s).trans (by rw [hx]; rfl)
  · change execBlockBoundary samples s = _
    unfold execBlockBoundary
    rw [engineStep_warm working, if_pos malformed]

end Sys2Proof.Orders
end

section
/-! PROOFS. O47: the end of a capture, step by step (R178). -/

namespace Sys2Proof.Orders

open Machine Safety Laws TransferMemory

/-! ## What the end work leaves of the controller and the reports -/

/-- A step of the writer: controller and end reports stay. -/
structure Stays (c d : Cx) : Prop where
  control : d.cap.control = c.cap.control
  ends : d.hub.orders.ends = c.hub.orders.ends

theorem Stays.refl (c : Cx) : Stays c c := ⟨rfl, rfl⟩

theorem Stays.trans {c d e : Cx} (h : Stays c d) (k : Stays d e) : Stays c e := ⟨k.control.trans h.control, k.ends.trans h.ends⟩

/-- A step after changes that leave controller and end reports alone. -/
theorem Stays.of {c d e : Cx} (h : Stays d e) (control : d.cap.control = c.cap.control) (ends : d.hub.orders.ends = c.hub.orders.ends) :
    Stays c e := Stays.trans ⟨control, ends⟩ h

theorem stays_news (c : Cx) (k : Cause) : Stays c (c.news k) := by
  obtain ⟨frame, -, -⟩ := setNews_frame c.hub.orders c.cap.slot k
  refine ⟨rfl, ?_⟩
  change (c.hub.orders.setNews c.cap.slot k).ends = _
  rw [frame]

theorem stays_request (c : Cx) (a : Nat) (e w : Word) (b : Bool) : Stays c (c.request a e w b).2 := by
  unfold Cx.request
  dsimp only
  split
  · exact (stays_news _ _).of rfl rfl
  · exact ⟨rfl, rfl⟩

theorem stays_closeSpan (c : Cx) (g : Group) : Stays c (c.closeSpan g) := by
  unfold Cx.closeSpan
  have asked := stays_request c (c.out g).span.addr spanFilling spanFull false
  generalize c.request (c.out g).span.addr spanFilling spanFull false = answer at asked ⊢
  obtain ⟨t, d⟩ := answer
  dsimp only at asked ⊢
  have told : Stays c (if t = .applied then d.news (spanCause g) else d) := by
    split
    · exact asked.trans (stays_news _ _)
    · exact asked
  exact told.trans ⟨rfl, rfl⟩

theorem stays_closeEarly (c : Cx) (g : Group) : Stays c (c.closeEarly g) := by
  unfold Cx.closeEarly
  split
  · exact stays_closeSpan c g
  · exact .refl c

theorem stays_writeFrame (c : Cx) (g : Group) (f : Frame) : Stays c (c.writeFrame g f) := by
  unfold Cx.writeFrame
  split
  · exact .refl c
  · dsimp only
    split
    · exact (stays_closeSpan _ g).of rfl rfl
    · exact ⟨rfl, rfl⟩

theorem stays_openAndWrite (c : Cx) (g : Group) (f : Frame) (watch : Bool) : Stays c (c.openAndWrite g f watch).2 := by
  unfold Cx.openAndWrite
  have asked := stays_request c (c.out g).span.addr spanEmpty spanFilling watch
  generalize c.request (c.out g).span.addr spanEmpty spanFilling watch = answer at asked ⊢
  obtain ⟨t, d⟩ := answer
  dsimp only at asked ⊢
  split
  · exact asked.trans ((stays_writeFrame (d.openSpan g f) g f).of rfl rfl)
  · exact asked

theorem stays_drain (c : Cx) (g : Group) (watch : Bool) (fuel : Nat) : Stays c (c.drain g watch fuel) := by
  induction fuel generalizing c with
  | zero => exact .refl c
  | succ fuel ih =>
    have marks : ∀ d : Cx, Stays d (d.takeLossMark g) := fun d => (stays_closeEarly d g).trans ⟨rfl, rfl⟩
    unfold Cx.drain
    split
    · split
      · exact marks c
      · exact .refl c
    · exact ((marks _).trans (ih _)).of rfl rfl
    · exact (ih _).of rfl rfl
    · rename_i f fs rest _
      dsimp only
      split
      · exact ((stays_writeFrame _ g f).trans (ih _)).of rfl rfl
      · have opens := stays_openAndWrite c g f watch
        split
        · rename_i d asked
          rw [asked] at opens
          exact opens.trans ((ih _).of rfl rfl)
        · rename_i d asked
          rw [asked] at opens
          exact opens

theorem stays_closeLost (c : Cx) (g : Group) (cut : Bool) : Stays c (c.closeLost g cut) := by
  unfold Cx.closeLost Cx.takeSeq
  split
  · exact .refl c
  · cases c.cap.monitor <;> exact ⟨rfl, rfl⟩

theorem stays_endSpill (c : Cx) (g : Group) : Stays c (c.endSpill g) := by
  unfold Cx.endSpill Cx.discardSpill
  dsimp only
  have counted : ∀ (d : Cx) (k : Nat), Stays d (d.countLost g k) := fun d k => by
    unfold Cx.countLost
    split
    · exact .refl d
    · exact ⟨rfl, rfl⟩
  exact (stays_drain c g false (c.drainFuel g)).trans (((counted _ _).trans (stays_closeLost _ g true)).of rfl rfl)

theorem stays_room (c : Cx) (id : ListId) : Stays c (c.room id).2 := by
  unfold Cx.room
  dsimp only
  split
  · exact (stays_news _ _).of rfl rfl
  · split
    · exact ⟨rfl, rfl⟩
    · exact (stays_news _ _).of rfl rfl

theorem stays_placeRepairs (c : Cx) (rs : List RepairRec) : Stays c (c.placeRepairs rs).2 := by
  induction rs generalizing c with
  | nil => exact .refl c
  | cons r rest ih =>
    have asked := stays_room c .repair
    unfold Cx.placeRepairs
    dsimp only
    split
    · exact asked
    · have written : Stays (c.room .repair).2 ((c.room .repair).2.writeRepair r) := (stays_news _ _).of rfl rfl
      exact (asked.trans written).trans (ih _)

theorem stays_endRepairs (c : Cx) (rs : List RepairRec) : Stays c (c.endRepairs rs) := by
  unfold Cx.endRepairs Cx.suppress
  dsimp only
  refine (stays_placeRepairs c rs).trans ?_
  split
  · exact ⟨rfl, rfl⟩
  · exact ⟨rfl, rfl⟩

theorem stays_endMap (c : Cx) : Stays c c.endMap := by
  unfold Cx.endMap
  split
  · exact .refl c
  · rename_i m _
    have asked := stays_room c .map
    have written : Stays c ((c.room .map).2.writeMap m) := asked.trans ((stays_news _ _).of rfl rfl)
    dsimp only
    split
    · exact asked.trans ⟨rfl, rfl⟩
    · split
      · exact written.trans (stays_news _ _)
      · exact written

theorem stays_endWork (c : Cx) : Stays c c.endWork :=
  (((((stays_endSpill c .a).trans (stays_endSpill _ .b)).trans (stays_closeEarly _ .a)).trans (stays_closeEarly _ .b)).trans
    (stays_endRepairs _ _)).trans (stays_endMap _)

/-! ## The orders that a capture still has -/

/-- The end report of an order that ends with its capture. -/
def endedReport (n : SlotNo) : EndReport := ⟨n, .captureEnded, .none, false⟩

theorem endSourceAtStop_eq (c : Cx) (g : Group) : c.endSourceAtStop g =
    ⟨⟨lostPort (c.cap.control.sources.get g) c.hub.port,
      withEnds c.hub.orders ((c.cap.control.sources.get g).toList.map fun q => endedReport q.slot)⟩, withSource c.cap g none⟩ := by
  unfold Cx.endSourceAtStop
  cases source : c.cap.control.sources.get g with
  | none =>
    rw [Option.toList_none, List.map_nil, withEnds_nil, show withSource c.cap g none = c.cap by rw [← source, withSource_self]]
    rfl
  | some r =>
    dsimp only
    unfold Cx.writeProbation lostPort
    rw [Option.elim_some]
    unfold countedPort
    cases r.phase <;> rfl

theorem endPending_eq (c : Cx) : c.endPending =
    ⟨⟨c.hub.port, withEnds c.hub.orders (c.cap.control.pending.toList.map fun q => endedReport q.slot)⟩,
      { c.cap with control := { c.cap.control with pending := none } }⟩ := by
  cases pending : c.cap.control.pending with
  | none =>
    have left : c.endPending = c := by unfold Cx.endPending; rw [pending]
    rw [left, Option.toList_none, List.map_nil, withEnds_nil, ← pending]
  | some p => unfold Cx.endPending; rw [pending]; rfl

/-- The controller once those orders have ended. -/
def freedControl (k : Control) : Control := { k with sources := ⟨none, none⟩, pending := none }

/-- The capture as its end work begins: SOURCE orders and a pending RETUNE ended (R141, R168). -/
def freed (c : Cx) : Cx := ((c.endSourceAtStop .a).endSourceAtStop .b).endPending

theorem freed_eq (c : Cx) : freed c =
    ⟨⟨lostPort c.cap.control.sources.b (lostPort c.cap.control.sources.a c.hub.port),
      withEnds c.hub.orders ((c.cap.control.sources.a.toList ++ c.cap.control.sources.b.toList).map (fun q => endedReport q.slot) ++
        c.cap.control.pending.toList.map fun q => endedReport q.slot)⟩,
      { c.cap with control := freedControl c.cap.control }⟩ := by
  unfold freed
  rw [endPending_eq, endSourceAtStop_eq, endSourceAtStop_eq]
  simp only [withEnds_withEnds, List.map_append, List.append_assoc]
  rfl

/-! ## The final values (R178, R180) -/

/-- The words of the progress area that the end writes. -/
def finalWords (k : Control) : List (Nat × Word) :=
  [(0x20, word (runStateCode k.state)), (0x2C, word k.processed), (0x3C, k.highWater)] ++ countWords 0x40 k.counts.a ++
    countWords 0x48 k.counts.b ++ [(0x54, k.cuesWord), (0x58, word k.pauses), (0x24, word (endReasonCode k.endReason))]

theorem writeFinal_eq (c : Cx) : c.writeFinal = putProgress c (finalWords c.cap.control) := by
  unfold Cx.writeFinal finalWords
  dsimp only
  rw [writeCounts_eq, writeCounts_eq, putProgress_append, putProgress_append, putProgress_append]
  rfl

theorem finalWords_apart (k : Control) : (finalWords k).Pairwise fun v w => v.1 + 4 ≤ w.1 ∨ w.1 + 4 ≤ v.1 := by
  unfold finalWords
  rcases k.counts.a with _ | ⟨na, ra⟩ <;> rcases k.counts.b with _ | ⟨nb, rb⟩ <;> simp [countWords]

theorem finalWords_within {k : Control} {w : Nat × Word} (h : w ∈ finalWords k) :
    0x20 ≤ w.1 ∧ w.1 + 4 ≤ 0x5C ∧ (w.1 + 4 ≤ 0x28 ∨ 0x2C ≤ w.1) := by
  simp only [finalWords, List.mem_append, List.mem_cons, List.not_mem_nil, or_false] at h
  rcases h with (((rfl | rfl | rfl) | h) | h) | (rfl | rfl | rfl)
  case inl.inl.inr => obtain ⟨place, -⟩ := mem_countWords h; omega
  case inl.inr => obtain ⟨place, -⟩ := mem_countWords h; omega
  all_goals simp

/-- The end of a capture, its end work known: final values, its end reported, the units dropped. -/
theorem stopCapture_of {c d : Cx} (work : (freed c).endWork = d) : c.stopCapture =
    ⟨⟨putWords d.hub.port (slotWords d.cap.slot (finalWords d.cap.control)), withEnds d.hub.orders
        [⟨d.cap.slot, if decide (d.cap.control.endReason = .cancel) then .cancelled else .complete, .none,
          decide (d.cap.control.endReason = .cancel)⟩]⟩,
      Capture.dropUnits { d.cap with control := { d.cap.control with ended := true } }⟩ := by
  unfold Cx.stopCapture
  rw [show ((c.endSourceAtStop .a).endSourceAtStop .b).endPending = freed c from rfl, work]
  dsimp only
  rw [writeFinal_eq, putProgress_eq]
  rfl

end Sys2Proof.Orders
end

section
/-! PROOFS. O47: CAPTURE_STOP as one action (R178, R180). -/

namespace Sys2Proof.Orders

open Machine Safety Laws TransferMemory

theorem idle_iff (cap : Capture) : cap.idle = true ↔ cap.control.state = .stopping ∧ cap.control.ended = false ∧ cap.control.toTake = [] ∧
    cap.control.candidate = none ∧ cap.control.cancelLeft = 0 ∧ cap.control.inFlight = [] ∧ cap.control.peak = none ∧
    (∀ g, (cap.writer.groups.get g).arriving = []) ∧ cap.writer.handed = [] ∧ cap.writer.excerpt = none := by
  have groups : (∀ g, (cap.writer.groups.get g).arriving = []) ↔ cap.writer.groups.a.arriving = [] ∧ cap.writer.groups.b.arriving = [] :=
    forall_group
  rw [groups]
  simp [Capture.idle, and_assoc]

/-! ## The step -/

theorem receivePeak_none {c : Cx} (h : c.cap.control.peak = none) : c.receivePeak = c := by
  unfold Cx.receivePeak
  rw [h]

theorem settleSpeed_settled {s : State} {cap : Capture} (capture : s.capture = some cap) (still : settled s = s) :
    Cx.settleSpeed ⟨s.hub, cap⟩ = ⟨s.hub, cap⟩ := by
  unfold settled State.onCapture at still
  rw [capture] at still
  dsimp only at still
  generalize Cx.settleSpeed ⟨s.hub, cap⟩ = d at still ⊢
  obtain ⟨⟨p, u⟩, x⟩ := d
  have port : p = s.port := congrArg State.port still
  have orders : u = s.orders := congrArg State.orders still
  have same : some x = s.capture := congrArg State.capture still
  rw [capture] at same
  rw [port, orders, Option.some.inj same]
  rfl

theorem closeMap_none {c : Cx} (h : c.cap.writer.closeDue = none) : c.closeMap = c := by
  unfold Cx.closeMap
  rw [h]

theorem stays_closeMap (c : Cx) : Stays c c.closeMap := by
  unfold Cx.closeMap
  split
  · exact .refl c
  · split
    · exact .refl c
    · unfold Cx.closeRecord
      dsimp only
      have cleared : Stays c (c.mapWriter fun w => { w with closeDue := none, closeAfter := none }) := ⟨rfl, rfl⟩
      generalize (c.mapWriter fun w => { w with closeDue := none, closeAfter := none }) = c0 at cleared ⊢
      have asked := cleared.trans (stays_room c0 .map)
      have done : ∀ m : MapRec, Stays c (if (c0.room .map).1 = 0 then
          ((c0.room .map).2.mapWriter fun w => { w with map := some { m with extended := true }, mapPending := true }).news .listFull
          else (c0.room .map).2.writeMap m) := fun m => by
        split
        · exact asked.trans ((stays_news _ _).of rfl rfl)
        · exact asked.trans ((stays_news _ _).of rfl rfl)
      have told : ∀ d : Cx, Stays c d → ∀ cue : Bool, Stays c (if cue then d.news .cue else d) := fun d h cue => by
        cases cue
        · exact h
        · exact h.trans (stays_news _ _)
      refine told _ ?_ _
      cases c0.cap.writer.map with
      | none => exact cleared
      | some m => exact done m

theorem exec_captureStop {s : State} {cap : Capture} (running : Capturing s cap) (peak : cap.control.peak = none) (still : settled s = s) :
    exec .captureStop s = .next (s.setCx (if (Cx.closeMap ⟨s.hub, cap⟩).cap.idle then (Cx.closeMap ⟨s.hub, cap⟩).stopCapture
      else ⟨s.hub, cap⟩)) := by
  refine (captureStep_ok running fun c0 => if c0.receivePeak.settleSpeed.closeMap.cap.idle then
    c0.receivePeak.settleSpeed.closeMap.stopCapture else c0).trans ?_
  rw [receivePeak_none (c := ⟨s.hub, cap⟩) peak, settleSpeed_settled running.2 still]

/-- A capture that is not in STOPPING, or has something left, is left as it is. -/
theorem captureStop_waits {s : State} {cap : Capture} (running : Capturing s cap) (peak : cap.control.peak = none) (still : settled s = s)
    (busy : cap.control.state ≠ .stopping ∨ (cap.writer.closeDue = none ∧ cap.idle = false)) : exec .captureStop s = .next s := by
  have waits : (Cx.closeMap ⟨s.hub, cap⟩).cap.idle = false := by
    rcases busy with state | ⟨due, idle⟩
    · refine Bool.eq_false_iff.2 fun idle => state ?_
      obtain ⟨stopping, -⟩ := (idle_iff _).1 idle
      rwa [(stays_closeMap ⟨s.hub, cap⟩).control] at stopping
    · rw [closeMap_none (c := ⟨s.hub, cap⟩) due]
      exact idle
  rw [exec_captureStop running peak still, waits, if_neg Bool.false_ne_true, setCx_self running.2]

/-! ## The state it leaves -/

/-- The end work of a capture, from the instant at which its orders have ended. -/
@[irreducible] def worked (s : State) (cap : Capture) : Cx := (freed ⟨s.hub, cap⟩).endWork

/-- The state after the end of a capture. -/
def stoppedState (s : State) (cap : Capture) : State := s.setCx (Cx.stopCapture ⟨s.hub, cap⟩)

theorem captureStop_stops {s : State} {cap : Capture} (running : Capturing s cap) (due : cap.writer.closeDue = none) (still : settled s = s)
    (idle : cap.idle = true) : exec .captureStop s = .next (stoppedState s cap) := by
  obtain ⟨-, -, -, -, -, -, peak, -⟩ := (idle_iff cap).1 idle
  rw [exec_captureStop running peak still, closeMap_none (c := ⟨s.hub, cap⟩) due, if_pos idle]
  rfl

theorem endWork_worked (s : State) (cap : Capture) : (freed ⟨s.hub, cap⟩).endWork = worked s cap := by unfold worked; rfl

theorem stopped_worked (s : State) (cap : Capture) : stoppedState s cap = s.setCx
    ⟨⟨putWords (worked s cap).hub.port (slotWords (worked s cap).cap.slot (finalWords (worked s cap).cap.control)),
      withEnds (worked s cap).hub.orders
        [⟨(worked s cap).cap.slot, if decide ((worked s cap).cap.control.endReason = .cancel) then .cancelled else .complete, .none,
          decide ((worked s cap).cap.control.endReason = .cancel)⟩]⟩,
      Capture.dropUnits { (worked s cap).cap with control := { (worked s cap).cap.control with ended := true } }⟩ :=
  congrArg s.setCx (stopCapture_of (endWork_worked s cap))

theorem worked_control (s : State) (cap : Capture) : (worked s cap).cap.control = freedControl cap.control := by
  unfold worked
  rw [(stays_endWork _).control, freed_eq]

theorem worked_slot (s : State) (cap : Capture) : (worked s cap).cap.slot = cap.slot := by
  unfold worked
  rw [(kept_endWork _).slot, freed_eq]

theorem worked_ends (s : State) (cap : Capture) : (worked s cap).hub.orders.ends = s.orders.ends ++
    ((cap.control.sources.a.toList ++ cap.control.sources.b.toList).map (fun q => endedReport q.slot) ++
      cap.control.pending.toList.map fun q => endedReport q.slot) := by
  unfold worked
  rw [(stays_endWork _).ends, freed_eq]
  rfl

theorem kept_freed (c : Cx) : CxKept c (freed c) :=
  ((kept_endSourceAtStop c .a).trans (kept_endSourceAtStop _ .b)).trans (kept_endPending _)

theorem worked_wf {s : State} (mem : MemoryCanonical s) (cap : Capture) : Memory.wf (worked s cap).hub.port.mem = true := by
  have frees := kept_freed ⟨s.hub, cap⟩
  rw [← endWork_worked]
  exact (kept_endWork (freed ⟨s.hub, cap⟩)).hub.wf (frees.hub.wf mem)

theorem stoppedState_port (s : State) (cap : Capture) : (stoppedState s cap).port =
    putWords (worked s cap).hub.port (slotWords cap.slot (finalWords (freedControl cap.control))) := by
  rw [stopped_worked, worked_slot, worked_control]
  rfl

theorem stoppedState_orders (s : State) (cap : Capture) : (stoppedState s cap).orders = withEnds (worked s cap).hub.orders
    [⟨cap.slot, if decide (cap.control.endReason = .cancel) then .cancelled else .complete, .none,
      decide (cap.control.endReason = .cancel)⟩] := by
  rw [stopped_worked, worked_slot, worked_control]
  rfl

theorem stoppedState_capture (s : State) (cap : Capture) : (stoppedState s cap).capture =
    some (Capture.dropUnits { (worked s cap).cap with control := { freedControl cap.control with ended := true } }) := by
  rw [stopped_worked, worked_slot, worked_control]
  rfl

theorem stoppedState_frame (s : State) (cap : Capture) : CaptureFrame s (stoppedState s cap) :=
  captureFrame_of_kept (kept_stopCapture ⟨s.hub, cap⟩)

/-- A final value of the progress area. -/
theorem stored_final {s : State} {cap : Capture} (mem : MemoryCanonical s) {off : Nat} {w : Word}
    (h : (off, w) ∈ finalWords (freedControl cap.control)) : Stored (stoppedState s cap) (slotBase cap.slot + off) w := by
  rw [← holds_iff_stored, stoppedState_port]
  exact holds_slotWords (finalWords_apart _) (worked_wf mem cap) h

/-- What stands where the final values are not written stays. -/
theorem stored_worked {s : State} {cap : Capture} (mem : MemoryCanonical s) {a : Nat} {w : Word} (h : Holds (worked s cap).hub.port a w)
    (apart : a + 4 ≤ slotBase cap.slot + 0x20 ∨ slotBase cap.slot + 0x5C ≤ a ∨ a = slotBase cap.slot + 0x28) :
    Stored (stoppedState s cap) a w := by
  rw [← holds_iff_stored, stoppedState_port]
  refine (wrote_putWords _ _).holds (worked_wf mem cap) h fun r hr => ?_
  obtain ⟨v, hv, rfl⟩ := List.mem_map.1 hr
  obtain ⟨x, hx, rfl⟩ := List.mem_map.1 hv
  have within := finalWords_within hx
  simp only [Apart]
  omega

/-- The bytes written: those of the end work, and the progress area's words. -/
theorem kept_stopped {s : State} {cap : Capture} (mem : MemoryCanonical s) {R : List (Nat × Nat)}
    (wrote : Wrote s.port (worked s cap).hub.port R) :
    MemoryKeptOutside s (stoppedState s cap) ((slotBase cap.slot + 0x20, 60) :: R) := by
  have final := wrote.trans (wrote_putWords (worked s cap).hub.port (slotWords cap.slot (finalWords (freedControl cap.control))))
  rw [← stoppedState_port] at final
  refine final.keepsOutside mem fun a out => outside_append.2 ⟨fun r hr => out r (List.mem_cons_of_mem _ hr), fun r hr => ?_⟩
  obtain ⟨v, hv, rfl⟩ := List.mem_map.1 hr
  obtain ⟨x, hx, rfl⟩ := List.mem_map.1 hv
  have within := finalWords_within hx
  have outside := out _ List.mem_cons_self
  dsimp only at outside ⊢
  omega

/-- O47's general part: what stands after the end of any capture. -/
theorem stopped_reports {s : State} {cap : Capture} (mem : MemoryCanonical s) (stopping : cap.control.state = .stopping) :
    let k := cap.control
    let base := slotBase cap.slot
    let own := decide (k.endReason = .cancel)
    let t := stoppedState s cap
    ∃ cap', t.capture = some cap' ∧ cap'.control.ended = true ∧
      cap'.control.endReason = k.endReason ∧ cap'.monitor = none ∧ cap'.speed = none ∧ cap'.resamplers = ⟨none, none⟩ ∧
      (∀ l, getAt cap'.skew l = none) ∧ cap'.control.sources = ⟨none, none⟩ ∧ cap'.control.pending = none ∧ CaptureFrame s t ∧
      t.orders.ends = s.orders.ends ++ (k.sources.a.toList ++ k.sources.b.toList).map (fun q => endedReport q.slot) ++
        k.pending.toList.map (fun q => endedReport q.slot) ++ [⟨cap.slot, if own then .cancelled else .complete, .none, own⟩] ∧
      Stored t (base + 0x24) (BitVec.ofNat 32 (endReasonCode k.endReason)) ∧ Stored t (base + 0x20) 3 ∧
      Stored t (base + 0x2C) (BitVec.ofNat 32 k.processed) ∧ Stored t (base + 0x3C) k.highWater ∧
      Stored t (base + 0x54) (BitVec.ofNat 32 (k.cuesSkipped + 256 * k.cuesReached)) ∧
      Stored t (base + 0x58) (BitVec.ofNat 32 k.pauses) ∧
      (∀ g next released, k.counts.get g = some (next, released) →
        Stored t (base + (match g with | .a => 0x40 | .b => 0x48)) next ∧
        Stored t (base + (match g with | .a => 0x44 | .b => 0x4C)) released) := by
  intro k base own t
  refine ⟨_, stoppedState_capture s cap, rfl, rfl, rfl, rfl, rfl, fun l => ?_, rfl, rfl, stoppedState_frame s cap, ?_, ?_, ?_, ?_, ?_,
    ?_, ?_, ?_⟩
  · simp [Capture.dropUnits, getAt]
  · simp only [t]
    rw [stoppedState_orders]
    simp only [withEnds, worked_ends, List.append_assoc]
    rfl
  · exact stored_final mem (by simp [finalWords, freedControl, word, k])
  · exact stored_final mem (by simp [finalWords, freedControl, stopping, runStateCode, word])
  · exact stored_final mem (by simp [finalWords, freedControl, word, k])
  · exact stored_final mem (by simp [finalWords, freedControl, k])
  · exact stored_final mem (by simp [finalWords, freedControl, word, k, Control.cuesWord])
  · exact stored_final mem (by simp [finalWords, freedControl, word, k])
  · intro g next released counted
    cases g with
    | a => 
      have counts : (freedControl cap.control).counts.a = some (next, released) := counted
      exact ⟨stored_final mem (by simp [finalWords, counts, countWords]), stored_final mem (by simp [finalWords, counts, countWords])⟩
    | b =>
      have counts : (freedControl cap.control).counts.b = some (next, released) := counted
      exact ⟨stored_final mem (by simp [finalWords, counts, countWords]), stored_final mem (by simp [finalWords, counts, countWords])⟩

end Sys2Proof.Orders
end

section
/-! PROOFS. O47: what the end work leaves of one group's spans and spill store (R186, R189, R191, R201). -/

namespace Sys2Proof.Orders

open Machine Safety Laws TransferMemory

/-! ## The end work in parts -/

/-- Steps 4 and 5 of the end work: the repair records, then the speed map record. -/
def finishRecords (c : Cx) : Cx := (c.endRepairs (c.cap.writer.holding ++ c.cap.writer.handed)).endMap

theorem endWork_parts (c : Cx) : c.endWork = finishRecords ((((c.endSpill .a).endSpill .b).closeEarly .a).closeEarly .b) := rfl

theorem endSpill_drained (c : Cx) (g : Group) : c.endSpill g = (drained c g false).discardSpill g := rfl

/-- Nothing of a group's spill is left to discard. -/
theorem discardSpill_empty {c : Cx} {g : Group} (queue : (c.out g).queue = []) (lost : (c.out g).lost = none) : c.discardSpill g = c := by
  unfold Cx.discardSpill
  dsimp only
  rw [mapOut_queue_eq, withQueue_self queue, queue]
  exact closeLost_none lost true

/-- What is left of a group's spill is counted as lost (R201). -/
theorem discardSpill_counts {c : Cx} {g : Group} {k : Nat} (frames : framesIn (c.out g).queue = k) (some_ : k ≠ 0)
    (lost : (c.out g).lost = none) : c.discardSpill g =
      ⟨⟨c.hub.port.store (lostWord c.cap g) (word (min 4294967295 ((c.out g).samplesLost + k))), c.hub.orders⟩,
        putOut c.cap g { c.out g with queue := [], samplesLost := min 4294967295 ((c.out g).samplesLost + k) }⟩ := by
  unfold Cx.discardSpill
  dsimp only
  rw [frames, countLost_eq some_, mapOut_eq, out_putOut, putOut_putOut]
  exact closeLost_none (by rw [out_putOut]; exact lost) true

theorem closeEarly_none {c : Cx} {g : Group} (filling : (c.out g).filling = none) : c.closeEarly g = c := by
  unfold Cx.closeEarly
  rw [if_neg (by rw [filling]; simp)]

theorem closeEarly_some {p : Port} {u : OrderUnit} {x : Capture} {g : Group} {o : GroupOut} (filling : o.filling.isSome = true)
    (state : Holds p (cursorSpan o).addr 1) : Cx.closeEarly ⟨⟨p, u⟩, putOut x g o⟩ g =
      ⟨⟨p.store (cursorSpan o).addr 2, u.setNews x.slot (spanCause g)⟩, putOut x g (cutOut o)⟩ := by
  have out := out_putOut ⟨p, u⟩ x g o
  have closed := closeSpan_applied (c := ⟨⟨p, u⟩, putOut x g o⟩) (g := g) (by rw [out]; exact state)
  rw [out, putOut_putOut] at closed
  unfold Cx.closeEarly
  rw [if_pos (by rw [out]; exact filling), closed, cutOut, if_pos filling]
  rfl

/-! ## One group -/

/-- A group with no FILLING span, no spill and no open LOST record. -/
structure Bare (o : GroupOut) : Prop where
  filling : o.filling = none
  queue : o.queue = []
  lost : o.lost = none

theorem endSpill_bare {c : Cx} {g : Group} (bare : Bare (c.out g)) : c.endSpill g = c := by
  rw [endSpill_drained, drained_nil bare.queue, if_neg (by rw [bare.lost]; simp)]
  exact discardSpill_empty bare.queue bare.lost

/-- Port and order unit once a group's spill is drained and discarded and its FILLING span closed early. -/
def SpansEnd (p : Port) (u : OrderUnit) (x : Capture) (g : Group) (q : Port) (v : OrderUnit) : Prop :=
  ∃ h o o', Cx.endSpill ⟨⟨p, u⟩, x⟩ g = ⟨h, putOut x g o⟩ ∧ Cx.closeEarly ⟨h, putOut x g o⟩ g = ⟨⟨q, v⟩, putOut x g o'⟩

section

variable {p q : Port} {u v : OrderUnit} {x : Capture} {g : Group} {o : GroupOut}

/-- The drain has emptied the queue and left no span FILLING. -/
theorem spansEnd_closed (drains : drained ⟨⟨p, u⟩, x⟩ g false = ⟨⟨q, v⟩, putOut x g o⟩) (bare : Bare o) : SpansEnd p u x g q v := by
  have out := out_putOut ⟨q, v⟩ x g o
  refine ⟨⟨q, v⟩, o, o, ?_, closeEarly_none (by rw [out]; exact bare.filling)⟩
  rw [endSpill_drained, drains]
  exact discardSpill_empty (by rw [out]; exact bare.queue) (by rw [out]; exact bare.lost)

/-- The drain has emptied the queue and left a span FILLING, which is closed early (R191). -/
theorem spansEnd_open (drains : drained ⟨⟨p, u⟩, x⟩ g false = ⟨⟨q, v⟩, putOut x g o⟩) (queue : o.queue = []) (lost : o.lost = none)
    (filling : o.filling.isSome = true) (state : Holds q (cursorSpan o).addr 1) :
    SpansEnd p u x g (q.store (cursorSpan o).addr 2) (v.setNews x.slot (spanCause g)) := by
  have out := out_putOut ⟨q, v⟩ x g o
  refine ⟨⟨q, v⟩, o, _, ?_, closeEarly_some filling state⟩
  rw [endSpill_drained, drains]
  exact discardSpill_empty (by rw [out]; exact queue) (by rw [out]; exact lost)

/-- The drain has met a span that is not EMPTY: what is left is counted as lost (R201). -/
theorem spansEnd_lost (drains : drained ⟨⟨p, u⟩, x⟩ g false = ⟨⟨q, v⟩, putOut x g o⟩) {k : Nat} (frames : framesIn o.queue = k)
    (some_ : k ≠ 0)
    (lost : o.lost = none) (filling : o.filling = none) :
    SpansEnd p u x g (q.store (lostWord x g) (word (min 4294967295 (o.samplesLost + k)))) v := by
  have out := out_putOut ⟨q, v⟩ x g o
  refine ⟨⟨q.store (lostWord x g) (word (min 4294967295 (o.samplesLost + k))), v⟩,
    { o with queue := [], samplesLost := min 4294967295 (o.samplesLost + k) }, _, ?_, closeEarly_none (by rw [out_putOut]; exact filling)⟩
  rw [endSpill_drained, drains, discardSpill_counts (by rw [out]; exact frames) some_ (by rw [out]; exact lost), out]
  simp only [putOut_putOut]
  rfl

/-- With nothing in the other group, the spans are those of one. -/
theorem endWork_spans (others : ∀ k, k ≠ g → Bare (x.writer.groups.get k)) (ends : SpansEnd p u x g q v) :
    ∃ o, Cx.endWork ⟨⟨p, u⟩, x⟩ = finishRecords ⟨⟨q, v⟩, putOut x g o⟩ := by
  obtain ⟨h, o, o', spilled, closed⟩ := ends
  refine ⟨o', ?_⟩
  rw [endWork_parts]
  have other : ∀ hub y k, k ≠ g → Bare (Cx.out ⟨hub, putOut x g y⟩ k) := fun hub y k ne => by
    rw [out_putOut_of_ne _ _ _ ne]
    exact others k ne
  cases g with
  | a =>
    have b : Group.b ≠ .a := by decide
    rw [spilled, endSpill_bare (other _ _ .b b), closed, closeEarly_none (other _ _ .b b).filling]
  | b =>
    have a : Group.a ≠ .b := by decide
    rw [endSpill_bare (c := ⟨⟨p, u⟩, x⟩) (g := .a) (others .a a), spilled, closeEarly_none (other _ _ .a a).filling, closed]

/-- No record is left for the lists. -/
theorem finishRecords_none (holding : x.writer.holding = []) (handed : x.writer.handed = []) (map : x.writer.map = none) :
    ∃ y, finishRecords ⟨⟨p, u⟩, x⟩ = ⟨⟨p, u⟩, y⟩ := by
  refine ⟨{ x with writer := suppressedBy x.writer 0 }, ?_⟩
  unfold finishRecords
  rw [show (Cx.mk ⟨p, u⟩ x).cap.writer.holding ++ (Cx.mk ⟨p, u⟩ x).cap.writer.handed = [] by rw [holding, handed]; rfl, endRepairs_nil,
    endMap_none map]

/-! ## What a drain without a watch leaves -/

variable {d : SpanDesc} {f : Frame} {fs : List Frame} {len : Nat}

/-- A FILLING span with an empty queue is closed with the fill it holds. -/
theorem spansEnd_filling (queue : (x.writer.groups.get g).queue = []) (lost : (x.writer.groups.get g).lost = none)
    (filling : (x.writer.groups.get g).filling.isSome = true) (state : Holds p (cursorSpan (x.writer.groups.get g)).addr 1) :
    SpansEnd p u x g (p.store (cursorSpan (x.writer.groups.get g)).addr 2) (u.setNews x.slot (spanCause g)) := by
  refine spansEnd_open (o := x.writer.groups.get g) ?_ queue lost filling state
  rw [drained_nil (c := ⟨⟨p, u⟩, x⟩) queue, if_neg (by rw [show (Cx.out ⟨⟨p, u⟩, x⟩ g).lost = none from lost]; simp)]
  exact congrArg (Cx.mk _) (putOut_out ⟨⟨p, u⟩, x⟩ g).symm

/-- A drain from a span that is not EMPTY moves nothing. -/
theorem drained_refused {tail : List SpillItem} (filling : o.filling = none) {w : Word} (state : Holds p (cursorSpan o).addr w) (ne : w ≠ 0)
    (queue : o.queue = .page (f :: fs) :: tail) : drained ⟨⟨p, u⟩, putOut x g o⟩ g false = ⟨⟨p, u⟩, putOut x g o⟩ := by
  have out : ∀ hub, Cx.out ⟨hub, putOut x g o⟩ g = o := fun hub => out_putOut hub x g o
  have ends := drained_waits (c := ⟨⟨p, u⟩, putOut x g o⟩) (g := g) (watch := false) (f := f) (fs := fs) (rest := tail)
    (by rw [out, filling]) (by rw [out]; exact state) ne
  rw [withQueue_self (by rw [out, queue]), if_neg Bool.false_ne_true, withQueue_self (by rw [out, queue])] at ends
  exact ends

/-- The group's part with its queue moved into spans, the next span's turn come. -/
def pastSpan (o : GroupOut) (q : List SpillItem) : GroupOut :=
  { o with queue := q, afterLoss := false, cursor := (o.cursor + 1) % o.spans.length }

/-- The queue fits into the span at the cursor, which ends FULL. -/
theorem spansEnd_fits (mem : Memory.wf p.mem = true) (filling : o.filling = none) (lost : o.lost = none)
    (state : Holds p (cursorSpan o).addr 0)
    (lengths : SameLength len (f :: fs)) (pos : 0 < len) (fits : len * (fs.length + 1) ≤ (cursorSpan o).capacity)
    (apart : Apart ((cursorSpan o).addr, 32) ((cursorSpan o).buffer, len * (fs.length + 1))) {pages : List (List Frame)}
    (queue : o.queue = pages.map .page) (all : pages.flatten = f :: fs)
    (same : drained ⟨⟨q, v⟩, x⟩ g false = drained ⟨⟨p, u⟩, putOut x g o⟩ g false) :
    SpansEnd q v x g ((spanPort p (cursorSpan o) o.afterLoss f fs).store (cursorSpan o).addr 2) (u.setNews x.slot (spanCause g)) := by
  have out := out_putOut ⟨p, u⟩ x g o
  obtain ⟨shown, -, -⟩ := spanPort_spec mem o.afterLoss lengths apart
  rcases Nat.lt_or_eq_of_le fits with less | full
  · have moved := drained_fits (c := ⟨⟨p, u⟩, putOut x g o⟩) (g := g) (watch := false) (by rw [out, filling]) (by rw [out, lost])
      (by rw [out]; exact state) lengths (fun _ => pos) (by rw [out]; exact less) all
    rw [withQueue_self (by rw [out, queue]), inSpan, out, putOut_putOut] at moved
    exact spansEnd_open (o := { o with
      queue := [], filling := some ⟨len * (fs.length + 1), fs.length + 1, o.afterLoss⟩, afterLoss := false })
      (same.trans moved) rfl lost rfl shown.1
  · have moved := drained_fills (c := ⟨⟨p, u⟩, putOut x g o⟩) (g := g) (watch := false) (by rw [out, filling]) mem
      (by rw [out]; exact state) lengths pos (by rw [out]; exact apart) (by rw [out]; exact full) all
    rw [withQueue_self (by rw [out, queue]), afterSpan, out, putOut_putOut] at moved
    exact spansEnd_closed (o := { o with queue := [], afterLoss := false, cursor := (o.cursor + 1) % o.spans.length })
      (same.trans moved) ⟨filling, rfl, lost⟩

/-- The head of the queue fills the span at the cursor; what is behind it meets the next. -/
theorem drained_next (mem : Memory.wf p.mem = true) (filling : o.filling = none) (state : Holds p (cursorSpan o).addr 0)
    (lengths : SameLength len (f :: fs)) (pos : 0 < len)
    (apart : Apart ((cursorSpan o).addr, 32) ((cursorSpan o).buffer, len * (fs.length + 1)))
    (fills : len * (fs.length + 1) = (cursorSpan o).capacity) {before : List (List Frame)} {start : List Frame}
    (all : before.flatten ++ start = f :: fs) {more : List Frame} {tail : List SpillItem}
    (queue : o.queue = before.map .page ++ .page (start ++ more) :: tail) :
    drained ⟨⟨p, u⟩, putOut x g o⟩ g false =
      drained ⟨⟨(spanPort p (cursorSpan o) o.afterLoss f fs).store (cursorSpan o).addr 2, u.setNews x.slot (spanCause g)⟩,
        putOut x g (pastSpan o (.page more :: tail))⟩ g false := by
  have out := out_putOut ⟨p, u⟩ x g o
  have moved := drained_over (c := ⟨⟨p, u⟩, putOut x g o⟩) (g := g) (watch := false) (by rw [out, filling]) mem
    (by rw [out]; exact state) lengths pos (by rw [out]; exact apart) (by rw [out]; exact fills) all more tail
  rw [withQueue_self (by rw [out, queue]), afterSpan, out, putOut_putOut] at moved
  exact moved

end

end Sys2Proof.Orders
end

section
/-! PROOFS. O47: the end of a capture whose orders have ended and of whose groups only one holds frames (R186, R191, R201). -/

namespace Sys2Proof.Orders

open Machine Safety Laws TransferMemory

/-! ## Reports and news -/

theorem withEnds_setNews (u : OrderUnit) (l : List EndReport) (n : SlotNo) (k : Cause) :
    (withEnds u l).setNews n k = withEnds (u.setNews n k) l := by
  by_cases idle : (u.slot n).state = .free ∨ (u.slot n).state = .posted
  · rw [setNews_idle idle, setNews_idle (o := withEnds u l) idle]
  · rw [not_or] at idle
    rw [setNews_live idle.1 idle.2, setNews_live (o := withEnds u l) idle.1 idle.2]
    rfl

/-! ## Without SOURCE orders -/

/-- The reports of a pending RETUNE that ends with its capture. -/
def pendingEnds (cap : Capture) : List EndReport := cap.control.pending.toList.map fun q => endedReport q.slot

/-- The capture once its orders have ended. -/
def freedCap (cap : Capture) : Capture := { cap with control := freedControl cap.control }

theorem worked_sourceless (s : State) {cap : Capture} (sources : cap.control.sources = ⟨none, none⟩) :
    worked s cap = Cx.endWork ⟨⟨s.port, withEnds s.orders (pendingEnds cap)⟩, freedCap cap⟩ := by
  rw [← endWork_worked, freed_eq, sources]
  rfl

section

variable {s : State} {cap : Capture} {g : Group} {q : Port} {o : OrderUnit} {R : List (Nat × Nat)} {y : Capture}

/-- Where the final values are not written. -/
def OffFinal (n : SlotNo) (a : Nat) : Prop := a + 4 ≤ slotBase n + 0x20 ∨ slotBase n + 0x5C ≤ a ∨ a = slotBase n + 0x28

theorem offFinal_of_past (n : SlotNo) {a : Nat} (past : 0x2000 ≤ a) : OffFinal n a := by
  have low := slotBase_lt n
  exact .inr (.inl (by omega))

theorem offFinal_lost (cap : Capture) (g : Group) : OffFinal cap.slot (lostWord cap g) := by
  obtain ⟨low, -, -⟩ := lostWord_bounds cap g
  exact .inr (.inl (by omega))

/-- What the end work has come to shows in the state that the capture's end leaves. -/
structure Ended (s : State) (cap : Capture) (q : Port) (o : OrderUnit) (R : List (Nat × Nat)) : Prop where
  holds : ∀ a w, Holds q a w → OffFinal cap.slot a → Stored (stoppedState s cap) a w
  kept : MemoryKeptOutside s (stoppedState s cap) ((slotBase cap.slot + 0x20, 60) :: R)
  news : NewsOf (stoppedState s cap) o

theorem ended_of (mem : MemoryCanonical s) {l : List EndReport} (work : worked s cap = ⟨⟨q, withEnds o l⟩, y⟩) (wrote : Wrote s.port q R) :
    Ended s cap q o R := by
  have port : (worked s cap).hub.port = q := by rw [work]
  refine ⟨fun a w h off => stored_worked mem (port ▸ h) off, kept_stopped mem (port ▸ wrote), ?_⟩
  rw [NewsOf, stoppedState_orders, work]
  exact ⟨rfl, rfl⟩

theorem Ended.shows (h : Ended s cap q o R) {d : SpanDesc} {st first pos flags : Word} {fill frames : Nat}
    (shown : Shows q d st fill frames first pos flags) (past : 0x2000 ≤ d.addr) :
    ShowsSpan (stoppedState s cap) d st fill frames first pos flags := by
  obtain ⟨state, fill', index, count, position, flag⟩ := shown
  have keeps : ∀ {x : Nat} {w : Word}, Holds q (d.addr + x) w → Stored (stoppedState s cap) (d.addr + x) w := fun hx =>
    h.holds _ _ hx (offFinal_of_past _ (Nat.le_add_right_of_le past))
  exact ⟨keeps (x := 0) state, keeps fill', keeps index, keeps count, keeps position, keeps flag⟩

theorem Ended.frames (h : Ended s cap q o R) {a len : Nat} {fs : List Frame} (frames : FramesIn q a len fs) (past : 0x2000 ≤ a) :
    FramesAt (stoppedState s cap) a len fs := fun k f i w hf hw =>
  h.holds _ _ (frames k f i w hf hw) (offFinal_of_past _ (by omega))

/-! ## One group's spans -/

/-- A capture of which at most one group holds frames, and nothing else is open. -/
structure Alone (cap : Capture) (g : Group) : Prop where
  open_ : NothingOpen cap
  sources : cap.control.sources = ⟨none, none⟩
  others : ∀ k, k ≠ g → SpansQuiet cap k

/-- Port and order unit once the group's part of the end work is done. -/
def GroupEnds (s : State) (cap : Capture) (g : Group) (q : Port) (o : OrderUnit) : Prop :=
  SpansEnd s.port (withEnds s.orders (pendingEnds cap)) (freedCap cap) g q (withEnds o (pendingEnds cap))

theorem Alone.ended (alone : Alone cap g) (mem : MemoryCanonical s) (ends : GroupEnds s cap g q o) (wrote : Wrote s.port q R) :
    Ended s cap q o R := by
  obtain ⟨-, map, -, handed, holding, groups⟩ := alone.open_
  have others : ∀ k, k ≠ g → Bare ((freedCap cap).writer.groups.get k) := fun k ne =>
    have quiet := alone.others k ne
    ⟨quiet.1, quiet.2.1, (groups k).2⟩
  obtain ⟨part, work⟩ := endWork_spans others ends
  obtain ⟨y, finished⟩ := finishRecords_none (p := q) (u := withEnds o (pendingEnds cap))
    (x := putOut (freedCap cap) g part) holding handed map
  exact ended_of (y := y) mem ((worked_sourceless s alone.sources).trans (work.trans finished)) wrote

theorem Alone.lost (alone : Alone cap g) : (cap.writer.groups.get g).lost = none := by
  obtain ⟨-, -, -, -, -, groups⟩ := alone.open_
  exact (groups g).2

theorem putOut_freed (cap : Capture) (g : Group) : putOut (freedCap cap) g (cap.writer.groups.get g) = freedCap cap := by
  rw [putOut, show (freedCap cap).writer.groups.put g (cap.writer.groups.get g) = (freedCap cap).writer.groups from put_get _ g]

end

end Sys2Proof.Orders
end

section
/-! PROOFS. O47: what the end of a capture leaves of a single group's spans (R186, R191, R201). -/

namespace Sys2Proof.Orders

open Machine Safety Laws TransferMemory

theorem framesIn_pages (pages : List (List Frame)) : framesIn (pages.map .page) = pages.flatten.length := by
  induction pages with
  | nil => rfl
  | cons page pages ih =>
    rw [List.map_cons, framesIn_cons, ih, List.flatten_cons, List.length_append]
    rfl

theorem apart_shorter {x : Nat × Nat} {a n m : Nat} (h : Apart x (a, n)) (le : m ≤ n) : Apart x (a, m) := by
  simp only [Apart] at h ⊢
  omega

section

variable {s : State} {cap : Capture} {g : Group} {f h : Frame} {fs left : List Frame} {len : Nat}

/-- A FILLING span is closed early with the fill it holds (R191). -/
theorem Alone.filling (alone : Alone cap g) (mem : MemoryCanonical s) {sp : OpenSpan} (queue : (cap.writer.groups.get g).queue = [])
    (filling : (cap.writer.groups.get g).filling = some sp) (past : 0x2000 ≤ (cursorSpan (cap.writer.groups.get g)).addr)
    (state : Stored s (cursorSpan (cap.writer.groups.get g)).addr 1) :
    let d := cursorSpan (cap.writer.groups.get g)
    let t := stoppedState s cap
    Stored t d.addr 2 ∧ MemoryKeptOutside s t [(slotBase cap.slot + 0x20, 60), (d.addr, 4)] ∧
      NewsOf t (s.orders.setNews cap.slot (spanCause g)) := by
  intro d t
  have ends := spansEnd_filling (p := s.port) (u := withEnds s.orders (pendingEnds cap)) (x := freedCap cap) (g := g) queue alone.lost
    (by rw [show ((freedCap cap).writer.groups.get g).filling = some sp from filling]; rfl) state
  rw [withEnds_setNews] at ends
  have ended := alone.ended (q := s.port.store d.addr 2) mem ends (wrote_store _ _ _)
  exact ⟨ended.holds _ _ (holds_store mem _ _) (offFinal_of_past _ past), ended.kept, ended.news⟩

/-- The spill store meets a span that is not EMPTY: its frames are counted as lost (R201). -/
theorem Alone.refused (alone : Alone cap g) (mem : MemoryCanonical s) {rest : List SpillItem} {v : Word}
    (filling : (cap.writer.groups.get g).filling = none) (queue : (cap.writer.groups.get g).queue = .page (f :: fs) :: rest)
    (state : Stored s (cursorSpan (cap.writer.groups.get g)).addr v) (ne : v ≠ 0) :
    let o := cap.writer.groups.get g
    let t := stoppedState s cap
    Stored t (lostWord cap g) (BitVec.ofNat 32 (min 4294967295 (o.samplesLost + framesIn o.queue))) ∧
      MemoryKeptOutside s t [(slotBase cap.slot + 0x20, 60), (lostWord cap g, 4)] ∧ NewsOf t s.orders := by
  intro o t
  have drains := drained_refused (p := s.port) (u := withEnds s.orders (pendingEnds cap)) (x := freedCap cap) (g := g) (o := o) filling
    state ne queue
  rw [putOut_freed] at drains
  have ends := spansEnd_lost (o := o) (drains.trans (congrArg (Cx.mk _) (putOut_freed cap g).symm)) rfl
    (by rw [queue, framesIn_cons]; simp [SpillItem.frames]) alone.lost filling
  have ended := alone.ended mem ends (wrote_store _ _ _)
  exact ⟨ended.holds _ _ (holds_store mem _ _) (offFinal_lost cap g), ended.kept, ended.news⟩

/-- A spill store of pages, and the EMPTY span at the group's cursor. -/
structure Spilled (s : State) (cap : Capture) (g : Group) (pages : List (List Frame)) (len : Nat) : Prop where
  filling : (cap.writer.groups.get g).filling = none
  queue : (cap.writer.groups.get g).queue = pages.map .page
  lengths : ∀ x ∈ pages.flatten, 4 * x.words.length = len
  pos : 0 < len
  past : 0x2000 ≤ (cursorSpan (cap.writer.groups.get g)).addr
  buffer : 0x2000 ≤ (cursorSpan (cap.writer.groups.get g)).buffer
  apart : Apart ((cursorSpan (cap.writer.groups.get g)).addr, 32)
    ((cursorSpan (cap.writer.groups.get g)).buffer, (cursorSpan (cap.writer.groups.get g)).capacity)
  state : Stored s (cursorSpan (cap.writer.groups.get g)).addr 0

variable {pages : List (List Frame)}

/-- The spill store fits into the span at the cursor (R186, R191). -/
theorem Alone.fits (alone : Alone cap g) (mem : MemoryCanonical s) (spilled : Spilled s cap g pages len) (all : pages.flatten = f :: fs)
    (fits : len * (fs.length + 1) ≤ (cursorSpan (cap.writer.groups.get g)).capacity) :
    let d := cursorSpan (cap.writer.groups.get g)
    let t := stoppedState s cap
    ShowsSpan t d 2 (len * (fs.length + 1)) (fs.length + 1) f.index f.position (lossFlag (cap.writer.groups.get g).afterLoss) ∧
      FramesAt t d.buffer len (f :: fs) ∧
      MemoryKeptOutside s t [(slotBase cap.slot + 0x20, 60), (d.buffer, len * (fs.length + 1)), (d.addr, 4), (d.addr + 0x0C, 20)] ∧
      NewsOf t (s.orders.setNews cap.slot (spanCause g)) := by
  intro d t
  obtain ⟨filling, queue, lengths, pos, past, buffer, apart, state⟩ := spilled
  rw [all] at lengths
  have narrow : Apart (d.addr, 32) (d.buffer, len * (fs.length + 1)) := apart_shorter apart fits
  have ends := spansEnd_fits (p := s.port) (u := withEnds s.orders (pendingEnds cap)) (x := freedCap cap) (g := g)
    (o := cap.writer.groups.get g) mem filling alone.lost state lengths pos fits narrow queue all (by rw [putOut_freed])
  rw [withEnds_setNews] at ends
  obtain ⟨shown, frames, wrote⟩ := closedSpan_spec (p := s.port) mem (cap.writer.groups.get g).afterLoss lengths narrow
  have ended := alone.ended mem ends wrote
  exact ⟨ended.shows shown past, ended.frames frames buffer, ended.kept, ended.news⟩

/-! ## A queue that fills the span and goes on -/

/-- The head of the spill store fills the span at the cursor; its rest meets the next span. -/
theorem Spilled.over (spilled : Spilled s cap g pages len) (mem : MemoryCanonical s) (u : OrderUnit) {fit : List Frame}
    (all : pages.flatten = f :: fs) (split : f :: fs = fit ++ h :: left)
    (fills : len * fit.length = (cursorSpan (cap.writer.groups.get g)).capacity)
    (positive : 0 < (cursorSpan (cap.writer.groups.get g)).capacity) :
    let o := cap.writer.groups.get g
    let d := cursorSpan o
    ∃ q l behind, l ++ behind.flatten = left ∧
      drained ⟨⟨s.port, u⟩, freedCap cap⟩ g false = drained ⟨⟨q, u.setNews cap.slot (spanCause g)⟩,
        putOut (freedCap cap) g (pastSpan o (((h :: l) :: behind).map .page))⟩ g false ∧
      Shows q d 2 d.capacity fit.length f.index f.position (lossFlag o.afterLoss) ∧ FramesIn q d.buffer len fit ∧
      Wrote s.port q [(d.buffer, d.capacity), (d.addr, 4), (d.addr + 0x0C, 20)] := by
  intro o d
  obtain ⟨filling, queue, lengths, pos, -, -, apart, state⟩ := spilled
  cases fit with
  | nil => rw [List.length_nil, Nat.mul_zero] at fills; omega
  | cons f' fit =>
    obtain ⟨rfl, rfl⟩ := List.cons.inj split
    obtain ⟨before, start, l, behind, rfl, hfit, hleft⟩ := split_pages (fit := f :: fit) all
    have same : SameLength len (f :: fit) := fun x hx => lengths x (by rw [all]; exact List.mem_append_left _ hx)
    have apart' : Apart (d.addr, 32) (d.buffer, len * (fit.length + 1)) := by rw [← List.length_cons, fills]; exact apart
    have moved := drained_next (u := u) (x := freedCap cap) (g := g) (p := s.port) mem filling state same pos apart' fills hfit
      (queue.trans List.map_append)
    obtain ⟨shown, frames, wrote⟩ := closedSpan_spec (p := s.port) mem o.afterLoss same apart'
    rw [putOut_freed] at moved
    rw [← List.length_cons, fills] at shown wrote
    exact ⟨_, l, behind, hleft, moved, shown, frames, wrote⟩

/-- The next span is not EMPTY: the frames left are counted as lost (R201). -/
theorem Alone.overRefused (alone : Alone cap g) (mem : MemoryCanonical s) (spilled : Spilled s cap g pages len) {fit : List Frame}
    (all : pages.flatten = f :: fs) (split : f :: fs = fit ++ h :: left)
    (fills : len * fit.length = (cursorSpan (cap.writer.groups.get g)).capacity)
    (positive : 0 < (cursorSpan (cap.writer.groups.get g)).capacity) {v : Word} :
    let o := cap.writer.groups.get g
    let d := cursorSpan o
    let e := cursorSpan { o with cursor := (o.cursor + 1) % o.spans.length }
    let t := stoppedState s cap
    Stored s e.addr v → v ≠ 0 → Apart (e.addr, 4) (d.addr, 32) → Apart (e.addr, 4) (d.buffer, d.capacity) →
      ShowsSpan t d 2 d.capacity fit.length f.index f.position (lossFlag o.afterLoss) ∧ FramesAt t d.buffer len fit ∧
      Stored t (lostWord cap g) (BitVec.ofNat 32 (min 4294967295 (o.samplesLost + (left.length + 1)))) ∧
      MemoryKeptOutside s t [(slotBase cap.slot + 0x20, 60), (lostWord cap g, 4), (d.buffer, d.capacity), (d.addr, 4),
        (d.addr + 0x0C, 20)] ∧
      NewsOf t (s.orders.setNews cap.slot (spanCause g)) := by
  intro o d e t state ne apartAddr apartBuffer
  obtain ⟨q, l, behind, hleft, moved, shown, frames, wrote⟩ :=
    spilled.over mem (withEnds s.orders (pendingEnds cap)) all split fills positive
  have taken : Holds q e.addr v := wrote.holds mem state (by
    simp only [List.mem_cons, forall_eq_or_imp, List.not_mem_nil, or_false, forall_eq, Apart, d, o] at apartAddr apartBuffer ⊢
    omega)
  have stays := moved.trans (drained_refused (o := pastSpan o (((h :: l) :: behind).map .page)) spilled.filling taken ne rfl)
  have count : framesIn (((h :: l) :: behind).map .page) = left.length + 1 := by
    rw [framesIn_pages, List.flatten_cons, List.cons_append, hleft, List.length_cons]
  have ends := spansEnd_lost stays count (Nat.succ_ne_zero _) alone.lost spilled.filling
  rw [withEnds_setNews] at ends
  have mem' := wrote.wf mem
  have bounds := lostWord_bounds cap g
  have ended := alone.ended mem ends (wrote.store _ _)
  have counts := wrote_store q (lostWord cap g) (word (min 4294967295 (o.samplesLost + (left.length + 1))))
  refine ⟨ended.shows (counts.shows mem' shown ?_) spilled.past, ended.frames (counts.framesIn mem' frames ?_ ?_) spilled.buffer,
    ended.holds _ _ (holds_store mem' _ _) (offFinal_lost cap g), keptOutside_mono ended.kept fun r hr => ?_, ended.news⟩
  · have past := spilled.past
    intro r hr
    rw [List.mem_singleton.1 hr]
    simp only [Apart, d, o]
    omega
  · exact fun x hx => spilled.lengths x (by rw [all, split]; exact List.mem_append_left _ hx)
  · have past := spilled.buffer
    intro r hr
    rw [List.mem_singleton.1 hr]
    simp only [Apart, d, o]
    omega
  · simp only [List.mem_cons, List.mem_append, List.not_mem_nil, or_false] at hr ⊢
    tauto

/-- The next span takes the frames left, and is closed early (R191). -/
theorem Alone.overFits (alone : Alone cap g) (mem : MemoryCanonical s) (spilled : Spilled s cap g pages len) {fit : List Frame}
    (all : pages.flatten = f :: fs) (split : f :: fs = fit ++ h :: left)
    (fills : len * fit.length = (cursorSpan (cap.writer.groups.get g)).capacity)
    (positive : 0 < (cursorSpan (cap.writer.groups.get g)).capacity) :
    let o := cap.writer.groups.get g
    let d := cursorSpan o
    let e := cursorSpan { o with cursor := (o.cursor + 1) % o.spans.length }
    let size := len * (left.length + 1)
    let t := stoppedState s cap
    Stored s e.addr 0 → size ≤ e.capacity → 0x2000 ≤ e.addr → 0x2000 ≤ e.buffer →
      [(d.addr, 32), (d.buffer, d.capacity), (e.addr, 32), (e.buffer, e.capacity)].Pairwise Apart →
      ShowsSpan t d 2 d.capacity fit.length f.index f.position (lossFlag o.afterLoss) ∧ FramesAt t d.buffer len fit ∧
      ShowsSpan t e 2 size (left.length + 1) h.index h.position 0 ∧ FramesAt t e.buffer len (h :: left) ∧
      MemoryKeptOutside s t [(slotBase cap.slot + 0x20, 60), (d.buffer, d.capacity), (d.addr, 4), (d.addr + 0x0C, 20),
        (e.buffer, size), (e.addr, 4), (e.addr + 0x0C, 20)] ∧ NewsOf t (s.orders.setNews cap.slot (spanCause g)) := by
  intro o d e size t state room past past' apart
  simp only [List.pairwise_cons, List.mem_cons, forall_eq_or_imp, List.not_mem_nil, or_false, forall_eq] at apart
  obtain ⟨⟨dd, de, deb⟩, ⟨bd, bdb⟩, eb, -⟩ := apart
  obtain ⟨q, l, behind, hleft, moved, shown, frames, wrote⟩ :=
    spilled.over mem (withEnds s.orders (pendingEnds cap)) all split fills positive
  have mem' := wrote.wf mem
  have given : Holds q e.addr 0 := wrote.holds mem state (by
    simp only [List.mem_cons, forall_eq_or_imp, List.not_mem_nil, or_false, forall_eq, Apart, d, o] at de bd ⊢
    omega)
  have lengths : ∀ x ∈ fit ++ h :: left, 4 * x.words.length = len := fun x hx => spilled.lengths x (by rw [all, split]; exact hx)
  have same : SameLength len (h :: left) := fun x hx => lengths x (List.mem_append_right _ hx)
  have narrow : Apart (e.addr, 32) (e.buffer, size) := apart_shorter eb room
  have ends := spansEnd_fits (o := pastSpan o (((h :: l) :: behind).map .page)) mem' spilled.filling alone.lost given same spilled.pos room
    narrow rfl (by rw [List.flatten_cons, List.cons_append, hleft]) moved
  rw [withEnds_setNews, withEnds_setNews, show (freedCap cap).slot = cap.slot from rfl, setNews_setNews] at ends
  obtain ⟨shown', frames', wrote'⟩ := closedSpan_spec mem' false same narrow
  have ended := alone.ended mem ends (wrote.trans wrote')
  refine ⟨ended.shows (wrote'.shows mem' shown ?_) spilled.past, ended.frames (wrote'.framesIn mem' frames ?_ ?_) spilled.buffer,
    ended.shows shown' past, ended.frames frames' past', ended.kept, ended.news⟩
  · simp only [List.mem_cons, forall_eq_or_imp, List.not_mem_nil, or_false, forall_eq, Apart, size, d, o] at de deb room ⊢
    omega
  · exact fun x hx => lengths x (List.mem_append_left _ hx)
  · rw [fills]
    simp only [List.mem_cons, forall_eq_or_imp, List.not_mem_nil, or_false, forall_eq, Apart, size, d, o] at bd bdb room ⊢
    omega

end

end Sys2Proof.Orders
end

section
/-! PROOFS. O47: the end of a capture that holds a speed map record, or one repair record, alone (R195, R196, R201). -/

namespace Sys2Proof.Orders

open Machine Safety Laws TransferMemory

section

variable {s : State} {cap : Capture} {n : Nat}

/-- No span is FILLING, no frame spilled, no LOST record open, and no order of the capture but a RETUNE is left. -/
structure Spent (cap : Capture) : Prop where
  spans : ∀ g, SpansQuiet cap g
  lost : ∀ g, (cap.writer.groups.get g).lost = none
  sources : cap.control.sources = ⟨none, none⟩

/-- Only the records are left of the end work. -/
theorem worked_spent (s : State) (spent : Spent cap) :
    worked s cap = finishRecords ⟨⟨s.port, withEnds s.orders (pendingEnds cap)⟩, freedCap cap⟩ := by
  have bare : ∀ g, Bare ((freedCap cap).writer.groups.get g) := fun g => ⟨(spent.spans g).1, (spent.spans g).2.1, spent.lost g⟩
  have spill : ∀ g, Cx.endSpill ⟨⟨s.port, withEnds s.orders (pendingEnds cap)⟩, freedCap cap⟩ g =
      ⟨⟨s.port, withEnds s.orders (pendingEnds cap)⟩, freedCap cap⟩ := fun g => endSpill_bare (bare g)
  have close : ∀ g, Cx.closeEarly ⟨⟨s.port, withEnds s.orders (pendingEnds cap)⟩, freedCap cap⟩ g =
      ⟨⟨s.port, withEnds s.orders (pendingEnds cap)⟩, freedCap cap⟩ := fun g => closeEarly_none (bare g).filling
  rw [worked_sourceless s spent.sources, endWork_parts, spill, spill, close, close]

theorem lastNews_withEnds (u : OrderUnit) (l : List EndReport) (i : SlotNo) {w : Writer} (due : w.closeDue = none) (k : Nat) :
    lastNews (withEnds u l) i w k = withEnds (lastNews u i w k) l := by
  unfold lastNews dueNews
  rw [due, withEnds_setNews]
  split <;> rfl

/-- A speed map record placed, or dropped (R195, R201). -/
theorem Spent.map (spent : Spent cap) (mem : MemoryCanonical s) (due : cap.writer.closeDue = none) (holding : cap.writer.holding = [])
    (handed : cap.writer.handed = []) {m : MapRec} (map : cap.writer.map = some m) (room : Outstanding s cap.writer.mapList n)
    (within : n ≤ cap.writer.mapList.capacity) :
    ∃ q, Ended s cap q (lastNews s.orders cap.slot cap.writer n) (lastRanges cap.slot cap.writer n) ∧
      (n < cap.writer.mapList.capacity → ShowsMap q cap.slot cap.writer m false) ∧
      (n = cap.writer.mapList.capacity → Holds q (slotBase cap.slot + 0x28) (droppedFlags cap.writer)) := by
  have records : finishRecords ⟨⟨s.port, withEnds s.orders (pendingEnds cap)⟩, freedCap cap⟩ =
      Cx.endMap ⟨⟨s.port, withEnds s.orders (pendingEnds cap)⟩, { freedCap cap with writer := suppressedBy cap.writer 0 }⟩ := by
    unfold finishRecords
    rw [show (freedCap cap).writer.holding ++ (freedCap cap).writer.handed = [] from by
      rw [show (freedCap cap).writer.holding = [] from holding, show (freedCap cap).writer.handed = [] from handed]; rfl, endRepairs_nil]
    rfl
  obtain ⟨q, y, mapped, wrote, placed, dropped⟩ := endMap_spec (p := s.port) (u := withEnds s.orders (pendingEnds cap))
    (x := { freedCap cap with writer := suppressedBy cap.writer 0 }) (n := n) mem room within
  have news : lastNews (withEnds s.orders (pendingEnds cap)) cap.slot (suppressedBy cap.writer 0) n =
      withEnds (lastNews s.orders cap.slot cap.writer n) (pendingEnds cap) :=
    lastNews_withEnds s.orders (pendingEnds cap) cap.slot (w := suppressedBy cap.writer 0) due n
  have work := (worked_spent s spent).trans (records.trans mapped)
  rw [show ({ freedCap cap with writer := suppressedBy cap.writer 0 } : Capture).slot = cap.slot from rfl, news] at work
  refine ⟨q, ended_of mem work wrote, fun less => ?_, dropped (by rw [show (suppressedBy cap.writer 0).map = some m from map]; simp)⟩
  obtain ⟨words, written, count, flags⟩ := placed m map less
  exact ⟨words, written, count, flags⟩

/-- A repair record placed (R193, R196). -/
theorem Spent.repair (spent : Spent cap) (mem : MemoryCanonical s) (map : cap.writer.map = none) {r : RepairRec}
    (holding : cap.writer.holding = [r]) (handed : cap.writer.handed = []) (room : Outstanding s cap.writer.repairList n)
    (less : n < cap.writer.repairList.capacity) :
    ∃ q, Ended s cap q (s.orders.setNews cap.slot .repair) (oneRanges cap.slot cap.writer.repairList false) ∧
      ShowsRepair q cap.slot cap.writer r false := by
  have records : (freedCap cap).writer.holding ++ (freedCap cap).writer.handed = [r] := by
    rw [show (freedCap cap).writer.holding = [r] from holding, show (freedCap cap).writer.handed = [] from handed]; rfl
  obtain ⟨q, y, placed, kept, wrote, shown⟩ := endRepairs_onePlaced (p := s.port) (u := withEnds s.orders (pendingEnds cap))
    (x := freedCap cap) (r := r) mem room (Nat.zero_lt_of_lt less) less.ne
  rw [show decide ((freedCap cap).writer.repairList.capacity < n) = false from decide_eq_false (Nat.not_lt.2 less.le)] at placed wrote shown
  have work : worked s cap = ⟨⟨q, withEnds (s.orders.setNews cap.slot .repair) (pendingEnds cap)⟩, y⟩ := by
    rw [worked_spent s spent, finishRecords, records, placed, endMap_none (kept.trans map), ← withEnds_setNews]
    rfl
  exact ⟨q, ended_of mem work wrote, shown⟩

/-- A repair record with no room for it (R196, R201). -/
theorem Spent.suppressed (spent : Spent cap) (mem : MemoryCanonical s) (map : cap.writer.map = none) {r : RepairRec}
    (holding : cap.writer.holding = [r]) (handed : cap.writer.handed = [])
    (full : Outstanding s cap.writer.repairList cap.writer.repairList.capacity) :
    ∃ q, Ended s cap q s.orders [(slotBase cap.slot + 0x64, 4)] ∧
      Holds q (slotBase cap.slot + 0x64) (word (min 4294967295 (cap.writer.suppressed + 1))) := by
  have records : (freedCap cap).writer.holding ++ (freedCap cap).writer.handed = [r] := by
    rw [show (freedCap cap).writer.holding = [r] from holding, show (freedCap cap).writer.handed = [] from handed]; rfl
  obtain ⟨q, y, placed, kept, wrote, shown⟩ := endRepairs_oneSuppressed (p := s.port) (u := withEnds s.orders (pendingEnds cap))
    (x := freedCap cap) (r := r) mem full
  have work : worked s cap = ⟨⟨q, withEnds s.orders (pendingEnds cap)⟩, y⟩ := by
    rw [worked_spent s spent, finishRecords, records, placed, endMap_none (kept.trans map)]
  exact ⟨q, ended_of mem work wrote, shown⟩

end

end Sys2Proof.Orders
end

section
/-! PROOFS. O47: the end work of one group's spill store and FILLING span while LOST records are numbered (R190, R191, R201; log 62). -/

namespace Sys2Proof.Orders

open Machine Safety Laws TransferMemory

/-! ## The drain without a watch -/

section

variable {p : Port} {u : OrderUnit} {x : Capture} {g : Group} {o : GroupOut}

/-- At a span that is not EMPTY the drain drops loss marks and empty pages, and no frame. -/
theorem drained_stuck (filling : o.filling = none) {v : Word} (state : Holds p (cursorSpan o).addr v) (ne : v ≠ 0) (q : List SpillItem)
    (b : Bool) :
    ∃ q' b', drained ⟨⟨p, u⟩, putOut x g { o with queue := q, afterLoss := b }⟩ g false =
      ⟨⟨p, u⟩, putOut x g { o with queue := q', afterLoss := b' }⟩ ∧ framesIn q' = framesIn q := by
  have out : ∀ y, Cx.out ⟨⟨p, u⟩, putOut x g y⟩ g = y := fun y => out_putOut ⟨p, u⟩ x g y
  induction q generalizing b with
  | nil =>
    refine ⟨[], b, ?_, rfl⟩
    rw [drained_nil (by rw [out]), if_neg (by rw [out]; simp [filling])]
  | cons item rest ih =>
    have self : ∀ i, withQueue ⟨⟨p, u⟩, putOut x g { o with queue := i :: rest, afterLoss := b }⟩ g (i :: rest) =
        ⟨⟨p, u⟩, putOut x g { o with queue := i :: rest, afterLoss := b }⟩ := fun i => withQueue_self (by rw [out])
    have behind : ∀ i, withQueue ⟨⟨p, u⟩, putOut x g { o with queue := i :: rest, afterLoss := b }⟩ g rest =
        ⟨⟨p, u⟩, putOut x g { o with queue := rest, afterLoss := b }⟩ := fun i => by rw [withQueue, out, putOut_putOut]
    cases item with
    | lossMark =>
      obtain ⟨q', b', moved, frames⟩ := ih true
      refine ⟨q', b', ?_, by rw [frames, framesIn_cons]; exact (Nat.zero_add _).symm⟩
      rw [← self, drained_lossMark, behind, takeLossMark_idle (by rw [out]; exact filling), out, putOut_putOut, moved]
    | page fs =>
      cases fs with
      | nil =>
        obtain ⟨q', b', moved, frames⟩ := ih b
        refine ⟨q', b', ?_, by rw [frames, framesIn_cons]; exact (Nat.zero_add _).symm⟩
        rw [← self, drained_empty, behind, moved]
      | cons f fs =>
        exact ⟨_, _, drained_refused (o := { o with queue := .page (f :: fs) :: rest, afterLoss := b }) filling state ne rfl, rfl⟩

end

/-! ## What a group stores last -/

/-- The word that the end work stores for a group: the state of its FILLING span, or its count of lost frames. -/
def lastStore (cap : Capture) (g : Group) : Option (Nat × Word) :=
  let o := cap.writer.groups.get g
  if o.filling.isSome then some ((cursorSpan o).addr, 2)
  else if framesIn o.queue = 0 then none else some (lostWord cap g, word (min 4294967295 (o.samplesLost + framesIn o.queue)))

/-- A port with at most one word stored. -/
def putLast (p : Port) (s : Option (Nat × Word)) : Port := s.elim p fun x => p.store x.1 x.2

/-- Port and order unit once a group is done. -/
def settleGroup (cap : Capture) (g : Group) (h : Hub) : Hub :=
  ⟨putLast h.port (lastStore cap g),
    if (cap.writer.groups.get g).filling.isSome then h.orders.setNews cap.slot (spanCause g) else h.orders⟩

theorem settleGroup_filling {cap : Capture} {g : Group} (filling : (cap.writer.groups.get g).filling.isSome = true) (p : Port)
    (u : OrderUnit) :
    settleGroup cap g ⟨p, u⟩ = ⟨p.store (cursorSpan (cap.writer.groups.get g)).addr 2, u.setNews cap.slot (spanCause g)⟩ := by
  rw [settleGroup, lastStore, if_pos filling, if_pos filling]
  rfl

theorem settleGroup_idle {cap : Capture} {g : Group} (filling : (cap.writer.groups.get g).filling = none) (p : Port) (u : OrderUnit) :
    let o := cap.writer.groups.get g
    settleGroup cap g ⟨p, u⟩ = ⟨putLast p (if framesIn o.queue = 0 then none else
      some (lostWord cap g, word (min 4294967295 (o.samplesLost + framesIn o.queue)))), u⟩ := by
  intro o
  have idle : ¬ (cap.writer.groups.get g).filling.isSome = true := by rw [filling]; simp
  rw [settleGroup, lastStore, if_neg idle, if_neg idle]

/-- The spill's step of the end work already does it, as the drain closes a span early while a LOST record is open (R191). -/
def settlesFirst (o : GroupOut) : Bool := o.lost.isSome || o.filling.isNone

/-- No frame can move: a group with frames spilled waits for a span that is not EMPTY. -/
structure GroupReady (p : Port) (o : GroupOut) : Prop where
  queue : o.queue ≠ [] → o.filling = none ∧ ∃ v, v ≠ 0 ∧ Holds p (cursorSpan o).addr v
  filling : o.filling.isSome = true → Holds p (cursorSpan o).addr 1

/-- What the first step leaves of a group for the second. -/
structure Left (o o' : GroupOut) : Prop where
  first : settlesFirst o = true → o'.filling = none
  later : settlesFirst o = false → o'.filling = o.filling ∧ cursorSpan o' = cursorSpan o

section

variable {h : Hub} {cap : Capture} {os : PerGroup GroupOut} {x : Option Excerpt} {n : LaneMonitor} {handed : List RepairRec} {g : Group}

/-- A group's part once its spill is discarded and its LOST record closed. -/
def discardedOut (o : GroupOut) : GroupOut :=
  let k := framesIn o.queue
  { o with queue := [], lost := none, samplesLost := if k = 0 then o.samplesLost else min 4294967295 (o.samplesLost + k) }

/-- What is left of a spill is counted as lost, and an open LOST record closed with CUT (R201). -/
theorem discardSpill_capAt : Cx.discardSpill ⟨h, capAt cap os x (some n) handed⟩ g =
    ⟨⟨putLast h.port (if framesIn (os.get g).queue = 0 then none else
        some (lostWord cap g, word (min 4294967295 ((os.get g).samplesLost + framesIn (os.get g).queue)))), h.orders⟩,
      capAt cap (os.put g (discardedOut (os.get g))) x (some { n with seq := n.seq + (os.get g).lost.toList.length })
        (handed ++ (os.get g).lost.toList.map fun r => lostRepair n.seq g r true)⟩ := by
  obtain ⟨p, u⟩ := h
  have emptied : Cx.discardSpill ⟨⟨p, u⟩, capAt cap os x (some n) handed⟩ g =
      (Cx.countLost ⟨⟨p, u⟩, capAt cap (os.put g { os.get g with queue := [] }) x (some n) handed⟩ g (framesIn (os.get g).queue)).closeLost
        g true := rfl
  rw [emptied]
  by_cases none_ : framesIn (os.get g).queue = 0
  · rw [none_, countLost_zero, closeLost_capAt, PerGroup.get_put_self, put_put, if_pos rfl, discardedOut, none_, if_pos rfl]
    rfl
  · have counted : Cx.countLost ⟨⟨p, u⟩, capAt cap (os.put g { os.get g with queue := [] }) x (some n) handed⟩ g
          (framesIn (os.get g).queue) =
        ⟨⟨p.store (lostWord cap g) (word (min 4294967295 ((os.get g).samplesLost + framesIn (os.get g).queue))), u⟩,
          capAt cap (os.put g { os.get g with
            queue := [], samplesLost := min 4294967295 ((os.get g).samplesLost + framesIn (os.get g).queue) }) x (some n) handed⟩ := by
      rw [countLost_eq none_, out_capAt, PerGroup.get_put_self, putOut_capAt, put_put]
      rfl
    rw [counted, closeLost_capAt, PerGroup.get_put_self, put_put, if_neg none_, discardedOut, if_neg none_]
    rfl

theorem endSpill_of {p q : Port} {u v : OrderUnit} {o : GroupOut} (lost : o.lost = (os.get g).lost)
    (drains : drained ⟨⟨p, u⟩, capAt cap os x (some n) handed⟩ g false = ⟨⟨q, v⟩, capAt cap (os.put g o) x (some n) handed⟩) :
    Cx.endSpill ⟨⟨p, u⟩, capAt cap os x (some n) handed⟩ g =
      ⟨⟨putLast q (if framesIn o.queue = 0 then none else
          some (lostWord cap g, word (min 4294967295 (o.samplesLost + framesIn o.queue)))), v⟩,
        capAt cap (os.put g (discardedOut o)) x (some { n with seq := n.seq + (os.get g).lost.toList.length })
          (handed ++ (os.get g).lost.toList.map fun r => lostRepair n.seq g r true)⟩ := by
  rw [endSpill_drained, drains, discardSpill_capAt, PerGroup.get_put_self, put_put, lost]

/-- The first step: a group is done, or left for the second with its FILLING span as it is. -/
theorem endSpill_capAt (same : os.get g = cap.writer.groups.get g) (ready : GroupReady h.port (os.get g)) : ∃ o',
    Cx.endSpill ⟨h, capAt cap os x (some n) handed⟩ g =
      ⟨if settlesFirst (os.get g) then settleGroup cap g h else h,
        capAt cap (os.put g o') x (some { n with seq := n.seq + (os.get g).lost.toList.length })
          (handed ++ (os.get g).lost.toList.map fun r => lostRepair n.seq g r true)⟩ ∧ Left (os.get g) o' := by
  obtain ⟨p, u⟩ := h
  have self : ∀ y, putOut (capAt cap os x (some n) handed) g y = capAt cap (os.put g y) x (some n) handed := fun _ => rfl
  have here : capAt cap (os.put g (os.get g)) x (some n) handed = capAt cap os x (some n) handed := by rw [put_get]
  by_cases spilled : (os.get g).queue = []
  · have nothing : drained ⟨⟨p, u⟩, capAt cap os x (some n) handed⟩ g false =
        if (os.get g).lost.isSome ∧ (os.get g).filling.isSome then Cx.takeLossMark ⟨⟨p, u⟩, capAt cap os x (some n) handed⟩ g
        else ⟨⟨p, u⟩, capAt cap os x (some n) handed⟩ := drained_nil spilled
    have none_ : framesIn (os.get g).queue = 0 := by rw [spilled]; rfl
    cases filling : (os.get g).filling with
    | none =>
      rw [filling, if_neg (by simp)] at nothing
      refine ⟨discardedOut (os.get g), (endSpill_of rfl (nothing.trans (congrArg (Cx.mk _) here.symm))).trans ?_, fun _ => filling,
        fun later => ?_⟩
      · rw [settlesFirst, filling, Option.isNone_none, Bool.or_true, if_pos rfl, settleGroup_idle (same ▸ filling), ← same]
      · rw [settlesFirst, filling, Option.isNone_none, Bool.or_true] at later
        cases later
    | some sp =>
      cases lost : (os.get g).lost with
      | none =>
        rw [lost, if_neg (by simp)] at nothing
        have later : settlesFirst (os.get g) = false := by rw [settlesFirst, lost, filling]; rfl
        refine ⟨discardedOut (os.get g), (endSpill_of rfl (nothing.trans (congrArg (Cx.mk _) here.symm))).trans ?_, fun first => ?_,
          fun _ => ⟨rfl, rfl⟩⟩
        · rw [if_pos none_, later, lost]
          rfl
        · rw [later] at first
          cases first
      | some r =>
        have first : settlesFirst (os.get g) = true := by rw [settlesFirst, lost]; rfl
        have closed := takeLossMark_closes (u := u) (cap := capAt cap os x (some n) handed) (g := g) (o := os.get g) rfl
          (by rw [filling]; rfl) (ready.filling (by rw [filling]; rfl))
        rw [self, self, here] at closed
        rw [lost, filling, if_pos ⟨rfl, rfl⟩, closed] at nothing
        refine ⟨discardedOut { os.get g with
          filling := none, afterLoss := true, cursor := ((os.get g).cursor + 1) % (os.get g).spans.length },
          (endSpill_of (by rfl) nothing).trans ?_, fun _ => rfl, fun later => ?_⟩
        · rw [show framesIn ({ os.get g with
            filling := none, afterLoss := true, cursor := ((os.get g).cursor + 1) % (os.get g).spans.length } : GroupOut).queue = 0
            from none_,
            if_pos rfl, first, if_pos rfl, settleGroup_filling (by rw [← same, filling]; rfl), ← same, lost]
          rfl
        · rw [first] at later
          cases later
  · obtain ⟨filling, v, ne, state⟩ := ready.queue spilled
    obtain ⟨q', b', moved, frames⟩ := drained_stuck (u := u) (x := capAt cap os x (some n) handed) (g := g) filling state ne
      (os.get g).queue
      (os.get g).afterLoss
    have moved' : drained ⟨⟨p, u⟩, capAt cap os x (some n) handed⟩ g false =
        ⟨⟨p, u⟩, capAt cap (os.put g { os.get g with queue := q', afterLoss := b' }) x (some n) handed⟩ := by
      refine Eq.trans (congrArg (fun y => drained ⟨⟨p, u⟩, y⟩ g false) ?_) moved
      exact here.symm
    refine ⟨discardedOut { os.get g with queue := q', afterLoss := b' }, (endSpill_of (by rfl) moved').trans ?_, fun _ => filling,
      fun later => ?_⟩
    · rw [settlesFirst, filling, Option.isNone_none, Bool.or_true, if_pos rfl, settleGroup_idle (same ▸ filling), ← same, ← frames]
    · rw [settlesFirst, filling, Option.isNone_none, Bool.or_true] at later
      cases later

end

end Sys2Proof.Orders
end

section
/-! PROOFS. O47: the end work of both groups' spill stores and FILLING spans (R190, R191, R201; log 62). -/

namespace Sys2Proof.Orders

open Machine Safety Laws TransferMemory

/-! ## News in either order (R42) -/

theorem setNews_comm (o : OrderUnit) (n : SlotNo) (j k : Cause) : (o.setNews n j).setNews n k = (o.setNews n k).setNews n j := by
  by_cases idle : (o.slot n).state = .free ∨ (o.slot n).state = .posted
  · rw [setNews_idle idle, setNews_idle idle, setNews_idle idle]
  · rw [not_or] at idle
    have twice : ∀ a b, (o.setNews n a).setNews n b =
        { o.setSlot n { o.slot n with news := (o.slot n).news ||| causeMask a ||| causeMask b } with
          summary := if (o.slot n).mask &&& causeMask b ≠ 0 then
              (if (o.slot n).mask &&& causeMask a ≠ 0 then o.summary ||| slotMask n else o.summary) ||| slotMask n
            else if (o.slot n).mask &&& causeMask a ≠ 0 then o.summary ||| slotMask n else o.summary } := fun a b => by
      have once := setNews_live (c := a) idle.1 idle.2
      have slot : (o.setNews n a).slot n = { o.slot n with news := (o.slot n).news ||| causeMask a } := by
        rw [once]
        exact OrderUnit.setSlot_slot_self _ _ _
      rw [setNews_live (by rw [slot]; exact idle.1) (by rw [slot]; exact idle.2), slot, once]
      have slots : ∀ (v : Vector SlotRec 32) (r r' : SlotRec), setAt (setAt v n r') n r = setAt v n r := fun v r r' => by
        simp [setAt]
      simp only [OrderUnit.setSlot, slots]
    have either : ∀ w : Word, w ||| slotMask n ||| slotMask n = w ||| slotMask n := fun w => by rw [BitVec.or_assoc, BitVec.or_self]
    rw [twice, twice, BitVec.or_assoc, BitVec.or_assoc, BitVec.or_comm (causeMask j)]
    split
    · split
      · rfl
      · rfl
    · rfl

/-! ## The second step -/

section

variable {h : Hub} {cap : Capture} {os : PerGroup GroupOut} {x : Option Excerpt} {n : Option LaneMonitor} {handed : List RepairRec}
  {g : Group}

/-- The second step: a FILLING span that is left is closed early (R191). -/
theorem closeEarly_capAt (left : Left (cap.writer.groups.get g) (os.get g)) 
    (ready : settlesFirst (cap.writer.groups.get g) = false → GroupReady h.port (cap.writer.groups.get g)) : ∃ o',
    Cx.closeEarly ⟨h, capAt cap os x n handed⟩ g =
      ⟨if settlesFirst (cap.writer.groups.get g) then h else settleGroup cap g h, capAt cap (os.put g o') x n handed⟩ := by
  obtain ⟨p, u⟩ := h
  have here : capAt cap (os.put g (os.get g)) x n handed = capAt cap os x n handed := by rw [put_get]
  cases settled : settlesFirst (cap.writer.groups.get g) with
  | true =>
    refine ⟨os.get g, ?_⟩
    rw [here]
    exact closeEarly_none (left.first settled)
  | false =>
    obtain ⟨filling, span⟩ := left.later settled
    have some_ : (cap.writer.groups.get g).filling.isSome = true :=
      Option.isSome_iff_ne_none.2 fun none_ => by simp [settlesFirst, none_] at settled
    have closed := closeEarly_some (u := u) (x := capAt cap os x n handed) (g := g) (o := os.get g) (by rw [filling]; exact some_)
      (by rw [span]; exact (ready settled).filling some_)
    refine ⟨cutOut (os.get g), ?_⟩
    rw [if_neg Bool.false_ne_true, settleGroup_filling some_, ← span]
    refine Eq.trans ?_ closed
    exact congrArg (fun y => Cx.closeEarly ⟨⟨p, u⟩, y⟩ g) here.symm

end

/-! ## Both groups -/

/-- What one group's step stores lies apart from what the other waits for and stores. -/
structure GroupsApart (cap : Capture) : Prop where
  spans : ∀ {j k y}, j ≠ k → (cap.writer.groups.get j).queue ≠ [] ∨ (cap.writer.groups.get j).filling.isSome = true →
    lastStore cap k = some y → Apart ((cursorSpan (cap.writer.groups.get j)).addr, 4) (y.1, 4)
  stores : ∀ {j k y z}, j ≠ k → lastStore cap j = some y → lastStore cap k = some z → Apart (y.1, 4) (z.1, 4)

/-- The bytes that a group's last store writes. -/
def storeRanges (cap : Capture) (g : Group) : List (Nat × Nat) := (lastStore cap g).toList.map fun y => (y.1, 4)

/-- The news of a group's FILLING span, closed. -/
def spanNews (cap : Capture) (g : Group) (u : OrderUnit) : OrderUnit :=
  if (cap.writer.groups.get g).filling.isSome then u.setNews cap.slot (spanCause g) else u

section

variable {p q : Port} {u : OrderUnit} {h : Hub} {cap : Capture} {g j k : Group}

theorem settleGroup_wrote (h : Hub) (cap : Capture) (g : Group) : Wrote h.port (settleGroup cap g h).port (storeRanges cap g) := by
  change Wrote h.port (putLast h.port (lastStore cap g)) _
  unfold storeRanges putLast
  cases lastStore cap g with
  | none => exact .refl _
  | some y => exact wrote_store _ _ _

theorem settleGroup_holds (mem : Memory.wf h.port.mem = true) {y : Nat × Word} (stored : lastStore cap g = some y) :
    Holds (settleGroup cap g h).port y.1 y.2 := by
  change Holds (putLast h.port (lastStore cap g)) _ _
  rw [stored]
  exact holds_store mem _ _

theorem mem_storeRanges {r : Nat × Nat} (hr : r ∈ storeRanges cap g) : ∃ y, lastStore cap g = some y ∧ r = (y.1, 4) := by
  obtain ⟨y, hy, rfl⟩ := List.mem_map.1 hr
  exact ⟨y, Option.mem_toList.1 hy, rfl⟩

theorem GroupReady.settled (ready : GroupReady h.port (cap.writer.groups.get j)) (apart : GroupsApart cap) (ne : j ≠ k)
    (mem : Memory.wf h.port.mem = true) : GroupReady (settleGroup cap k h).port (cap.writer.groups.get j) := by
  have keeps : ∀ v, (cap.writer.groups.get j).queue ≠ [] ∨ (cap.writer.groups.get j).filling.isSome = true →
      Holds h.port (cursorSpan (cap.writer.groups.get j)).addr v →
      Holds (settleGroup cap k h).port (cursorSpan (cap.writer.groups.get j)).addr v := fun v active hv =>
    (settleGroup_wrote h cap k).holds mem hv fun r hr => by
      obtain ⟨y, stored, rfl⟩ := mem_storeRanges hr
      exact apart.spans ne active stored
  refine ⟨fun queue => ?_, fun filling => keeps _ (.inr filling) (ready.filling filling)⟩
  obtain ⟨none_, v, pos, state⟩ := ready.queue queue
  exact ⟨none_, v, pos, keeps v (.inl queue) state⟩

/-- Two groups done, one behind the other. -/
theorem settle_both (apart : GroupsApart cap) (ne : j ≠ k) (mem : Memory.wf h.port.mem = true) :
    let q := (settleGroup cap k (settleGroup cap j h)).port
    Wrote h.port q (storeRanges cap j ++ storeRanges cap k) ∧ (∀ y, lastStore cap j = some y → Holds q y.1 y.2) ∧
      ∀ y, lastStore cap k = some y → Holds q y.1 y.2 := by
  have first := settleGroup_wrote h cap j
  have second := settleGroup_wrote (settleGroup cap j h) cap k
  have mem' := first.wf mem
  refine ⟨first.trans second, fun y stored => second.holds mem' (settleGroup_holds mem stored) fun r hr => ?_,
    fun y stored => settleGroup_holds mem' stored⟩
  obtain ⟨z, other, rfl⟩ := mem_storeRanges hr
  exact apart.stores ne stored other

/-- What the spans' part of the end work leaves in port and order unit. -/
structure SpansDone (cap : Capture) (h h' : Hub) : Prop where
  wrote : Wrote h.port h'.port (storeRanges cap .a ++ storeRanges cap .b)
  holds : ∀ g y, lastStore cap g = some y → Holds h'.port y.1 y.2
  news : h'.orders = spanNews cap .b (spanNews cap .a h.orders)

theorem spansDone_ab (apart : GroupsApart cap) (mem : Memory.wf h.port.mem = true) :
    SpansDone cap h (settleGroup cap .b (settleGroup cap .a h)) := by
  obtain ⟨wrote, first, second⟩ := settle_both (h := h) apart (show Group.a ≠ .b by decide) mem
  exact ⟨wrote, fun g => match g with | .a => first | .b => second, rfl⟩

theorem spansDone_ba (apart : GroupsApart cap) (mem : Memory.wf h.port.mem = true) :
    SpansDone cap h (settleGroup cap .a (settleGroup cap .b h)) := by
  obtain ⟨wrote, first, second⟩ := settle_both (h := h) apart (show Group.b ≠ .a by decide) mem
  refine ⟨wrote.mono fun r hr => ?_, fun g => match g with | .a => second | .b => first, ?_⟩
  · exact List.mem_append.2 (List.mem_append.1 hr).symm
  · change spanNews cap .a (spanNews cap .b h.orders) = _
    unfold spanNews
    split
    · split
      · exact setNews_comm _ _ _ _
      · rfl
    · rfl

end

section

variable {h : Hub} {cap : Capture} {x : Option Excerpt} {n : LaneMonitor} {handed : List RepairRec}

theorem numbered_lostRecords (w : Writer) (n : Nat) : numbered (lostRecords w) n =
    ((w.groups.get .a).lost.toList.map fun r => lostRepair n .a r true) ++
      (w.groups.get .b).lost.toList.map fun r => lostRepair (n + (w.groups.get .a).lost.toList.length) .b r true := by
  rw [lostRecords_groups, numbered_append, numbered_lost, numbered_lost, List.length_map]

/-- Port and order unit after the first step of both groups. -/
def spilledHub (cap : Capture) (h : Hub) : Hub :=
  let h1 := if settlesFirst (cap.writer.groups.get .a) then settleGroup cap .a h else h
  if settlesFirst (cap.writer.groups.get .b) then settleGroup cap .b h1 else h1

/-- The first step of both groups, group A's LOST record numbered first (log 62). -/
theorem endSpills_spec (mem : Memory.wf h.port.mem = true) (ready : ∀ g, GroupReady h.port (cap.writer.groups.get g))
    (apart : GroupsApart cap) : ∃ oa ob n', ((Cx.mk h (capAt cap cap.writer.groups x (some n) handed)).endSpill .a).endSpill .b =
      ⟨spilledHub cap h, capAt cap ⟨oa, ob⟩ x n' (handed ++ numbered (lostRecords cap.writer) n.seq)⟩ ∧
      Left (cap.writer.groups.get .a) oa ∧ Left (cap.writer.groups.get .b) ob := by
  obtain ⟨oa, spillA, leftA⟩ := endSpill_capAt (h := h) (cap := cap) (os := cap.writer.groups) (x := x) (n := n) (handed := handed)
    (g := .a) rfl (ready .a)
  have readyB : GroupReady (if settlesFirst (cap.writer.groups.get .a) then settleGroup cap .a h else h).port
    (cap.writer.groups.get .b) := by
    split
    · exact (ready .b).settled apart (by decide) mem
    · exact ready .b
  obtain ⟨ob, spillB, leftB⟩ := endSpill_capAt (cap := cap) (os := cap.writer.groups.put .a oa) (x := x)
    (n := { n with seq := n.seq + (cap.writer.groups.get .a).lost.toList.length })
    (handed := handed ++ (cap.writer.groups.get .a).lost.toList.map fun r => lostRepair n.seq .a r true) (g := .b) rfl readyB
  rw [spillA, spillB, numbered_lostRecords, ← List.append_assoc]
  exact ⟨oa, ob, _, rfl, leftA, leftB⟩

/-- The second step of both groups. -/
theorem closeEarlys_spec {n : Option LaneMonitor} {oa ob : GroupOut} (mem : Memory.wf h.port.mem = true)
    (ready : ∀ g, GroupReady h.port (cap.writer.groups.get g)) (apart : GroupsApart cap)
    (leftA : Left (cap.writer.groups.get .a) oa) (leftB : Left (cap.writer.groups.get .b) ob) :
    ∃ h' os, ((Cx.mk (spilledHub cap h) (capAt cap ⟨oa, ob⟩ x n handed)).closeEarly .a).closeEarly .b =
      ⟨h', capAt cap os x n handed⟩ ∧ SpansDone cap h h' := by
  obtain ⟨oa', closeA⟩ := closeEarly_capAt (h := spilledHub cap h) (cap := cap) (os := ⟨oa, ob⟩) (x := x) (n := n) (handed := handed)
    (g := .a) leftA fun later => by
      rw [spilledHub, later, if_neg Bool.false_ne_true]
      split
      · exact (ready .a).settled apart (by decide) mem
      · exact ready .a
  have readyB : settlesFirst (cap.writer.groups.get .b) = false →
      GroupReady (if settlesFirst (cap.writer.groups.get .a) then spilledHub cap h else settleGroup cap .a (spilledHub cap h)).port
        (cap.writer.groups.get .b) := fun later => by
    have moved : GroupReady (settleGroup cap .a h).port (cap.writer.groups.get .b) := (ready .b).settled apart (by decide) mem
    rw [spilledHub, later, if_neg Bool.false_ne_true]
    cases settlesFirst (cap.writer.groups.get .a) <;> exact moved
  obtain ⟨ob', closeB⟩ := closeEarly_capAt (cap := cap) (os := (⟨oa, ob⟩ : PerGroup GroupOut).put .a oa') (x := x) (n := n)
    (handed := handed) (g := .b) leftB readyB
  rw [closeA, closeB]
  refine ⟨_, _, rfl, ?_⟩
  unfold spilledHub
  cases settlesFirst (cap.writer.groups.get .a) with
  | true => cases settlesFirst (cap.writer.groups.get .b) <;> exact spansDone_ab apart mem
  | false =>
    cases settlesFirst (cap.writer.groups.get .b) with
    | true => exact spansDone_ba apart mem
    | false => exact spansDone_ab apart mem

/-- Steps 1 to 3 of the end work: both groups done, and the records of their open LOST records handed over. -/
theorem endSpans_spec (mem : Memory.wf h.port.mem = true) (ready : ∀ g, GroupReady h.port (cap.writer.groups.get g))
    (apart : GroupsApart cap) :
    ∃ h' os n', Cx.endWork ⟨h, capAt cap cap.writer.groups x (some n) handed⟩ =
      finishRecords ⟨h', capAt cap os x n' (handed ++ numbered (lostRecords cap.writer) n.seq)⟩ ∧ SpansDone cap h h' := by
  obtain ⟨oa, ob, n', spilled, leftA, leftB⟩ := endSpills_spec (x := x) (n := n) (handed := handed) mem ready apart
  obtain ⟨h', os, closed, done⟩ := closeEarlys_spec (x := x) (n := n') (handed := handed ++ numbered (lostRecords cap.writer) n.seq) mem
    ready apart leftA leftB
  exact ⟨h', os, n', by rw [endWork_parts, spilled, closed], done⟩

end

end Sys2Proof.Orders
end

section
/-! PROOFS. O47: everything that a capture holds at its end: the stages together (R193, R195, R196, R201). -/

namespace Sys2Proof.Orders

open Machine Safety Laws TransferMemory

/-! ## Where the spans lie -/

/-- A group that holds frames or a FILLING span. -/
def Active (o : GroupOut) : Prop := o.filling.isSome = true ∨ o.queue ≠ []

/-- The spans of active groups lie past the order table and share no byte. -/
structure HeldSpans (cap : Capture) : Prop where
  past : ∀ g, Active (cap.writer.groups.get g) → 0x2000 ≤ (cursorSpan (cap.writer.groups.get g)).addr
  between : Active (cap.writer.groups.get .a) → Active (cap.writer.groups.get .b) →
    Apart ((cursorSpan (cap.writer.groups.get .a)).addr, 32) ((cursorSpan (cap.writer.groups.get .b)).addr, 32)

section

variable {cap : Capture} {g j k : Group} {y z : Nat × Word} {r : Nat × Nat}

/-- Where a group's last store goes. -/
theorem lastStore_place (stored : lastStore cap g = some y) :
    ((cap.writer.groups.get g).filling.isSome = true ∧ y.1 = (cursorSpan (cap.writer.groups.get g)).addr) ∨ y.1 = lostWord cap g := by
  unfold lastStore at stored
  dsimp only at stored
  split at stored
  · rename_i filling
    exact .inl ⟨filling, by rw [← Option.some.inj stored]⟩
  · split at stored
    · cases stored
    · exact .inr (by rw [← Option.some.inj stored])

theorem HeldSpans.apart (held : HeldSpans cap) (ne : j ≠ k) (first : Active (cap.writer.groups.get j))
    (second : Active (cap.writer.groups.get k)) :
    Apart ((cursorSpan (cap.writer.groups.get j)).addr, 4) ((cursorSpan (cap.writer.groups.get k)).addr, 4) := by
  have apart : Active (cap.writer.groups.get .a) → Active (cap.writer.groups.get .b) →
      Apart ((cursorSpan (cap.writer.groups.get .a)).addr, 4) ((cursorSpan (cap.writer.groups.get .b)).addr, 4) := fun a b => by
    have whole := held.between a b
    simp only [Apart] at whole ⊢
    omega
  match j, k with
  | .a, .a => exact absurd rfl ne
  | .a, .b => exact apart first second
  | .b, .a => exact (apart second first).symm
  | .b, .b => exact absurd rfl ne

theorem HeldSpans.apart_lost (held : HeldSpans cap) (active : Active (cap.writer.groups.get j)) (k : Group) :
    Apart ((cursorSpan (cap.writer.groups.get j)).addr, 4) (lostWord cap k, 4) := by
  have past := held.past j active
  have bounds := lostWord_bounds cap k
  simp only [Apart]
  omega

theorem lostWord_apart_of_ne (cap : Capture) (ne : j ≠ k) : Apart (lostWord cap j, 4) (lostWord cap k, 4) :=
  match j, k with
  | .a, .a => absurd rfl ne
  | .a, .b => lostWord_apart cap
  | .b, .a => (lostWord_apart cap).symm
  | .b, .b => absurd rfl ne

theorem HeldSpans.groupsApart (held : HeldSpans cap) : GroupsApart cap := by
  refine ⟨fun {j k y} ne active stored => ?_, fun {j k y z} ne first second => ?_⟩
  · rcases lastStore_place stored with ⟨filling, place⟩ | place
    · rw [place]
      exact held.apart ne active.symm (.inl filling)
    · rw [place]
      exact held.apart_lost active.symm k
  · rcases lastStore_place first with ⟨filling, place⟩ | place
    · rcases lastStore_place second with ⟨filling', place'⟩ | place'
      · rw [place, place']
        exact held.apart ne (.inl filling) (.inl filling')
      · rw [place, place']
        exact held.apart_lost (.inl filling) k
    · rcases lastStore_place second with ⟨filling', place'⟩ | place'
      · rw [place, place']
        exact (held.apart_lost (.inl filling') j).symm
      · rw [place, place']
        exact lostWord_apart_of_ne cap ne

/-- A group's last store stays while the records are written. -/
theorem HeldSpans.apart_late (held : HeldSpans cap) (laid : Laid cap) (late : Late cap r) (stored : lastStore cap g = some y) :
    Apart (y.1, 4) r := by
  rcases lastStore_place stored with ⟨filling, place⟩ | place
  · obtain ⟨repairs, maps⟩ := laid.span g (Option.isSome_iff_ne_none.1 filling)
    rw [place]
    exact late.apart_word (held.past g (.inl filling)) (apart_part repairs (by omega)) (apart_part maps (by omega))
  · rw [place]
    exact late.apart_lost laid g

/-- The words of the lists stay while both groups are done. -/
theorem HeldSpans.apart_stores (held : HeldSpans cap) (laid : Laid cap) (late : Late cap r) :
    ∀ x ∈ storeRanges cap .a ++ storeRanges cap .b, Apart r x := by
  intro x hx
  rcases List.mem_append.1 hx with hx | hx
  · obtain ⟨y, stored, rfl⟩ := mem_storeRanges hx
    exact (held.apart_late laid late stored).symm
  · obtain ⟨y, stored, rfl⟩ := mem_storeRanges hx
    exact (held.apart_late laid late stored).symm

end

/-! ## The stages together -/

/-- The repair records of a capture's end (R201). -/
def endRecordsOf (cap : Capture) (m : LaneMonitor) : List RepairRec := cap.writer.holding ++ numbered (lostRecords cap.writer) m.seq

/-- The news of a capture's end. -/
def endNews (u : OrderUnit) (cap : Capture) (count k : Nat) : OrderUnit :=
  let closed := spanNews cap .b (spanNews cap .a u)
  lastNews (if 0 < count then closed.setNews cap.slot .repair else closed) cap.slot cap.writer k

/-- A capture of which nothing is left but its records and its groups' spans and spill stores. -/
structure Ending (cap : Capture) (m : LaneMonitor) : Prop where
  monitor : cap.monitor = some m
  sources : cap.control.sources = ⟨none, none⟩
  excerpt : cap.writer.excerpt = none
  handed : cap.writer.handed = []
  due : cap.writer.closeDue = none

section

variable {s : State} {cap : Capture} {m : LaneMonitor} {n k total : Nat} {p q : Port}

theorem endNews_withEnds (u : OrderUnit) (l : List EndReport) (due : cap.writer.closeDue = none) (count : Nat) :
    endNews (withEnds u l) cap count k = withEnds (endNews u cap count k) l := by
  have span : ∀ g v, spanNews cap g (withEnds v l) = withEnds (spanNews cap g v) l := fun g v => by
    unfold spanNews
    split
    · exact withEnds_setNews _ _ _ _
    · rfl
  have repair : ∀ v, (if 0 < count then (withEnds v l).setNews cap.slot .repair else withEnds v l) =
      withEnds (if 0 < count then v.setNews cap.slot .repair else v) l := fun v => by
    split
    · exact withEnds_setNews _ _ _ _
    · rfl
  unfold endNews
  rw [span, span]
  dsimp only
  rw [repair, lastNews_withEnds _ _ _ due]

theorem lists_afterSpans (h : Lists p cap.writer total n k) (mem : Memory.wf p.mem = true) (held : HeldSpans cap) (laid : Laid cap)
    (wrote : Wrote p q (storeRanges cap .a ++ storeRanges cap .b)) : Lists q cap.writer total n k := by
  refine ⟨wrote.roomAt mem h.room (held.apart_stores laid (.inl ⟨?_, ?_⟩)), h.within, h.pos, h.small, h.noWrap, h.written,
    wrote.roomAt mem h.roomMap (held.apart_stores laid (.inr (.inl ⟨?_, ?_⟩))), h.withinMap, h.posMap⟩ <;>
    simp only [repairRegion, mapRegion] <;> omega

theorem worked_capAt (s : State) (ending : Ending cap m) : worked s cap = Cx.endWork ⟨⟨s.port, withEnds s.orders (pendingEnds cap)⟩,
    capAt (freedCap cap) (freedCap cap).writer.groups none (some m) []⟩ := by
  rw [worked_sourceless s ending.sources]
  refine congrArg (fun y => Cx.endWork ⟨_, y⟩) ((capAt_self (freedCap cap)).symm.trans ?_)
  rw [show (freedCap cap).writer.excerpt = none from ending.excerpt, show (freedCap cap).monitor = some m from ending.monitor,
    show (freedCap cap).writer.handed = [] from ending.handed]

/-- What the end of a capture shows of everything it holds (R193, R195, R196, R201). -/
theorem ended_everything (mem : MemoryCanonical s) (ending : Ending cap m) (ready : ∀ g, GroupReady s.port (cap.writer.groups.get g))
    (held : HeldSpans cap) (laid : Laid cap) (lists : Lists s.port cap.writer (endRecordsOf cap m).length n k) :
    let records := endRecordsOf cap m
    let count := min records.length (cap.writer.repairList.capacity - n)
    ∃ q, Ended s cap q (endNews s.orders cap count k) ((storeRanges cap .a ++ storeRanges cap .b) ++
        (endRanges cap.slot cap.writer.repairList count records.length ++ lastRanges cap.slot cap.writer k)) ∧
      (∀ g y, lastStore cap g = some y → Holds q y.1 y.2) ∧ ShowsRepairs q cap.slot cap.writer records count ∧
      ShowsLast q cap.slot cap.writer k := by
  intro records count
  obtain ⟨⟨q₁, u₁⟩, os, n', spans, done⟩ := endSpans_spec (h := ⟨s.port, withEnds s.orders (pendingEnds cap)⟩)
    (cap := freedCap cap) (x := none)
    (n := m) (handed := []) mem ready ⟨held.groupsApart.spans, held.groupsApart.stores⟩
  have wrote₁ : Wrote s.port q₁ (storeRanges cap .a ++ storeRanges cap .b) := done.wrote
  have shown₁ : ∀ g y, lastStore cap g = some y → Holds q₁ y.1 y.2 := done.holds
  have news₁ : u₁ = spanNews cap .b (spanNews cap .a (withEnds s.orders (pendingEnds cap))) := done.news
  have mem₁ := wrote₁.wf mem
  have lists₁ := lists_afterSpans lists mem held laid wrote₁
  have all : (capAt (freedCap cap) os none n' ([] ++ numbered (lostRecords (freedCap cap).writer) m.seq)).writer.holding ++
      (capAt (freedCap cap) os none n' ([] ++ numbered (lostRecords (freedCap cap).writer) m.seq)).writer.handed = records := rfl
  obtain ⟨q₂, x, repaired, keeps, wrote₂, shown₂⟩ := endRepairs_spec (p := q₁) (u := u₁)
    (x := capAt (freedCap cap) os none n' ([] ++ numbered (lostRecords (freedCap cap).writer) m.seq)) (rs := records) mem₁ lists₁.room
    lists.within lists.pos lists.small lists.noWrap lists.written
  have keeps' : KeepsMap cap x := ⟨keeps.slot, keeps.map, keeps.mapList, keeps.mapWritten, keeps.closeDue, keeps.faultMap,
    keeps.faultRepair, keeps.mapDropped⟩
  have wrote₂' : Wrote q₁ q₂ (endRanges cap.slot cap.writer.repairList count records.length) := wrote₂
  have shown₂' : ShowsRepairs q₂ cap.slot cap.writer records count := ⟨shown₂.placed, shown₂.written, shown₂.suppressed⟩
  have mem₂ := wrote₂'.wf mem₁
  have roomMap := lists₁.roomMap_afterRepairs mem₁ laid wrote₂'
  obtain ⟨q, y, mapped, wrote₃, placed, dropped⟩ := endMap_spec (p := q₂) (u := if 0 < count then u₁.setNews cap.slot .repair else u₁)
    (x := x) (n := k) mem₂ (by rw [keeps'.mapList]; exact roomMap) (by rw [keeps'.mapList]; exact lists.withinMap)
  obtain ⟨news, ranges⟩ := keeps'.last (if 0 < count then u₁.setNews cap.slot .repair else u₁) k
  rw [ranges] at wrote₃
  have wrote := wrote₂'.trans wrote₃
  have late : ∀ r ∈ endRanges cap.slot cap.writer.repairList count records.length ++ lastRanges cap.slot cap.writer k, Late cap r :=
    fun r hr => (List.mem_append.1 hr).elim (endRanges_late lists.pos) (lastRanges_late lists.posMap)
  have told : lastNews (if 0 < count then u₁.setNews cap.slot .repair else u₁) x.slot x.writer k =
      withEnds (endNews s.orders cap count k) (pendingEnds cap) := by
    rw [news, news₁, ← endNews_withEnds _ _ ending.due]
    rfl
  have work : worked s cap = ⟨⟨q, withEnds (endNews s.orders cap count k) (pendingEnds cap)⟩, y⟩ := by
    rw [worked_capAt s ending, spans, finishRecords, all, repaired, ← told]
    exact mapped
  exact ⟨q, ended_of mem work (wrote₁.trans wrote), fun g y stored => wrote.holds mem₁ (shown₁ g y stored) fun r hr =>
    held.apart_late laid (late r hr) stored, shown₂'.keeps laid mem₂ lists.pos lists.posMap wrote₃, keeps'.showsLast ⟨placed, dropped⟩⟩

end

end Sys2Proof.Orders
end

section
/-! PROOFS. O47: regions, ranges and news of a capture's end as its statement writes them (R201). -/

namespace Sys2Proof.Orders

open Machine Safety Laws TransferMemory

section

variable {s : State} {cap : Capture} {m : LaneMonitor} {n k count : Nat} {q : Port} {o : OrderUnit} {R : List (Nat × Nat)}

/-! ## Regions -/

/-- The regions of a capture that ends: its lists, and the spans of the groups that hold frames. -/
def endRegions (cap : Capture) : List (Nat × Nat) :=
  [repairRegion cap.writer, mapRegion cap.writer] ++ [Group.a, Group.b].filterMap fun g =>
    if (cap.writer.groups.get g).filling = none ∧ (cap.writer.groups.get g).queue = [] then none
    else some ((cursorSpan (cap.writer.groups.get g)).addr, 32)

theorem not_idle_of_active {o : GroupOut} (active : Active o) : ¬ (o.filling = none ∧ o.queue = []) := fun ⟨filling, queue⟩ =>
  active.elim (fun some_ => by rw [filling] at some_; cases some_) fun ne => ne queue

theorem endRegions_spec (apart : (endRegions cap).Pairwise Apart) :
    Apart (repairRegion cap.writer) (mapRegion cap.writer) ∧
    (∀ g, Active (cap.writer.groups.get g) →
      Apart (repairRegion cap.writer) ((cursorSpan (cap.writer.groups.get g)).addr, 32) ∧
      Apart (mapRegion cap.writer) ((cursorSpan (cap.writer.groups.get g)).addr, 32)) ∧
    (Active (cap.writer.groups.get .a) → Active (cap.writer.groups.get .b) →
      Apart ((cursorSpan (cap.writer.groups.get .a)).addr, 32) ((cursorSpan (cap.writer.groups.get .b)).addr, 32)) := by
  unfold endRegions at apart
  obtain ⟨lists, spans, beside⟩ := List.pairwise_append.1 apart
  have place : ∀ g, Active (cap.writer.groups.get g) → ((cursorSpan (cap.writer.groups.get g)).addr, 32) ∈
      [Group.a, Group.b].filterMap fun g =>
        if (cap.writer.groups.get g).filling = none ∧ (cap.writer.groups.get g).queue = [] then none
        else some ((cursorSpan (cap.writer.groups.get g)).addr, 32) := fun g active =>
    List.mem_filterMap.2 ⟨g, by cases g <;> simp, if_neg (not_idle_of_active active)⟩
  refine ⟨List.rel_of_pairwise_cons lists (List.mem_singleton.2 rfl), fun g active =>
    ⟨beside _ (by simp) _ (place g active), beside _ (by simp) _ (place g active)⟩, fun a b => ?_⟩
  rw [List.filterMap_cons, List.filterMap_cons, if_neg (not_idle_of_active a), if_neg (not_idle_of_active b)] at spans
  exact List.rel_of_pairwise_cons spans (List.mem_singleton.2 rfl)

theorem laid_of_endRegions (apart : (endRegions cap).Pairwise Apart) (excerpt : cap.writer.excerpt = none)
    (repairs : 0x2000 ≤ cap.writer.repairList.header) (maps : 0x2000 ≤ cap.writer.mapList.header) : Laid cap := by
  obtain ⟨lists, spans, -⟩ := endRegions_spec apart
  exact ⟨repairs, maps, lists, fun g filling => spans g (.inl (Option.isSome_iff_ne_none.2 filling)), fun e some_ => by
    rw [excerpt] at some_; cases some_⟩

/-! ## Last stores -/

theorem lastStore_filling {g : Group} (filling : (cap.writer.groups.get g).filling.isSome = true) :
    lastStore cap g = some ((cursorSpan (cap.writer.groups.get g)).addr, 2) := if_pos filling

theorem lastStore_lost {g : Group} (filling : (cap.writer.groups.get g).filling = none)
    (frames : framesIn (cap.writer.groups.get g).queue ≠ 0) : lastStore cap g = some (lostWord cap g,
      word (min 4294967295 ((cap.writer.groups.get g).samplesLost + framesIn (cap.writer.groups.get g).queue))) := by
  unfold lastStore
  dsimp only
  rw [if_neg (by rw [filling]; simp), if_neg frames]

/-- The bytes of both groups' last stores. -/
theorem mem_groupStores {r : Nat × Nat} (h : r ∈ storeRanges cap .a ++ storeRanges cap .b) :
    r ∈ [Group.a, Group.b].flatMap fun g =>
      (if framesIn (cap.writer.groups.get g).queue = 0 then [] else [(lostWord cap g, 4)]) ++
        (if (cap.writer.groups.get g).filling = none then [] else [((cursorSpan (cap.writer.groups.get g)).addr, 4)]) := by
  have group : ∀ g, r ∈ storeRanges cap g → r ∈
      (if framesIn (cap.writer.groups.get g).queue = 0 then [] else [(lostWord cap g, 4)]) ++
        (if (cap.writer.groups.get g).filling = none then [] else [((cursorSpan (cap.writer.groups.get g)).addr, 4)]) := fun g hr => by
    obtain ⟨y, stored, rfl⟩ := mem_storeRanges hr
    cases filling : (cap.writer.groups.get g).filling with
    | some sp =>
      rw [lastStore_filling (by rw [filling]; rfl)] at stored
      rw [← Option.some.inj stored]
      simp
    | none =>
      by_cases frames : framesIn (cap.writer.groups.get g).queue = 0
      · simp [lastStore, filling, frames] at stored
      · rw [lastStore_lost filling frames] at stored
        rw [← Option.some.inj stored, if_neg frames]
        simp
  rcases List.mem_append.1 h with h | h
  · exact List.mem_flatMap.2 ⟨.a, by simp, group .a h⟩
  · exact List.mem_flatMap.2 ⟨.b, by simp, group .b h⟩

/-! ## News -/

theorem endNews_foldl (u : OrderUnit) (count k : Nat) (due : cap.writer.closeDue = none) : endNews u cap count k =
    ((if (cap.writer.groups.a.filling).isSome then [Cause.spanA] else []) ++
      (if (cap.writer.groups.b.filling).isSome then [Cause.spanB] else []) ++ (if 0 < count then [Cause.repair] else []) ++
      (if cap.writer.map.isSome ∧ k < cap.writer.mapList.capacity then [Cause.speedMap] else [])).foldl
      (fun o k => o.setNews cap.slot k) u := by
  rw [List.foldl_append, List.foldl_append, List.foldl_append, foldl_news_if, foldl_news_if, foldl_news_if, foldl_news_if]
  unfold endNews lastNews dueNews
  rw [due]
  rfl

/-! ## What the records show at the end -/

theorem Ended.repairs (h : Ended s cap q o R) {rs : List RepairRec} (shown : ShowsRepairs q cap.slot cap.writer rs count)
    (past : 0x2000 ≤ cap.writer.repairList.header) (pos : 0 < cap.writer.repairList.capacity) :
    ShowsRepairs (stoppedState s cap).port cap.slot cap.writer rs count :=
  ⟨shown.placed.keeps pos fun a v above _ hv => h.holds a v hv (offFinal_of_past _ (past.trans above)),
    fun some_ => h.holds _ _ (shown.written some_) (.inr (.inl (by omega))),
    fun less => h.holds _ _ (shown.suppressed less) (.inr (.inl (by omega)))⟩

theorem Ended.map (h : Ended s cap q o R) {x : MapRec} (shown : ShowsMap q cap.slot cap.writer x false)
    (past : 0x2000 ≤ cap.writer.mapList.header) : ShowsMap (stoppedState s cap).port cap.slot cap.writer x false := by
  have place : cap.writer.mapList.header + 16 ≤ nextPlace cap.writer.mapList 64 := Nat.le_add_right _ _
  exact ⟨fun i v hv => h.holds _ _ (shown.words i v hv) (offFinal_of_past _ (by omega)),
    h.holds _ _ shown.written (offFinal_of_past _ (by omega)), h.holds _ _ shown.count (.inr (.inl (by omega))), nofun⟩

theorem Ended.dropped (h : Ended s cap q o R) (flags : Holds q (slotBase cap.slot + 0x28) (droppedFlags cap.writer)) :
    Stored (stoppedState s cap) (slotBase cap.slot + 0x28) (droppedFlags cap.writer) := h.holds _ _ flags (.inr (.inr rfl))

/-- What both groups store last stands at the end. -/
theorem Ended.filling (h : Ended s cap q o R) (stores : ∀ g y, lastStore cap g = some y → Holds q y.1 y.2) {g : Group}
    (filling : (cap.writer.groups.get g).filling.isSome = true) (past : 0x2000 ≤ (cursorSpan (cap.writer.groups.get g)).addr) :
    Stored (stoppedState s cap) (cursorSpan (cap.writer.groups.get g)).addr 2 := by
  have closed := stores g _ (lastStore_filling filling)
  exact h.holds _ _ closed (offFinal_of_past _ past)

theorem Ended.lost (h : Ended s cap q o R) (stores : ∀ g y, lastStore cap g = some y → Holds q y.1 y.2) {g : Group}
    (filling : (cap.writer.groups.get g).filling = none) (frames : framesIn (cap.writer.groups.get g).queue ≠ 0) :
    Stored (stoppedState s cap) (lostWord cap g)
      (word (min 4294967295 ((cap.writer.groups.get g).samplesLost + framesIn (cap.writer.groups.get g).queue))) := by
  have counted := stores g _ (lastStore_lost filling frames)
  exact h.holds _ _ counted (offFinal_lost cap g)

/-- The bytes that the end of everything a capture holds writes, as the statement lists them. -/
theorem Ended.everything_kept {total : Nat} (h : Ended s cap q o ((storeRanges cap .a ++ storeRanges cap .b) ++
      (endRanges cap.slot cap.writer.repairList count total ++ lastRanges cap.slot cap.writer k))) :
    MemoryKeptOutside s (stoppedState s cap) ([(slotBase cap.slot + 0x20, 60)] ++
      ([Group.a, Group.b].flatMap fun g =>
        (if framesIn (cap.writer.groups.get g).queue = 0 then [] else [(lostWord cap g, 4)]) ++
        (if (cap.writer.groups.get g).filling = none then [] else [((cursorSpan (cap.writer.groups.get g)).addr, 4)])) ++
      repairRanges cap.slot cap.writer.repairList count ++ (if count = total then [] else [(slotBase cap.slot + 0x64, 4)]) ++
      (if cap.writer.map = none ∨ k = cap.writer.mapList.capacity then [] else
        [(slotBase cap.slot + 0x5C, 4), (cap.writer.mapList.header + 4, 4),
          (cap.writer.mapList.header + 16 + 64 * (cap.writer.mapList.written.toNat % cap.writer.mapList.capacity), 64)])) := by
  intro a ha
  obtain ⟨front, last⟩ := outside_append.1 ha
  obtain ⟨front, suppressed⟩ := outside_append.1 front
  obtain ⟨front, placed⟩ := outside_append.1 front
  obtain ⟨final, groups⟩ := outside_append.1 front
  refine h.kept a (outside_cons.2 ⟨(outside_cons.1 final).1, outside_append.2 ⟨fun r hr => groups r (mem_groupStores hr),
    outside_append.2 ⟨outside_append.2 ⟨placed, suppressed⟩, fun r hr => ?_⟩⟩⟩)
  have written := mem_lastRanges hr
  split at written
  · cases written
  · rename_i some_
    split at written
    · have base := (outside_cons.1 final).1
      rw [List.mem_singleton.1 written]
      dsimp only at base ⊢
      omega
    · rename_i room
      rw [if_neg (not_or.2 ⟨some_, room⟩)] at last
      exact last r written

theorem Ended.repair (h : Ended s cap q o R) {r : RepairRec} (shown : ShowsRepair q cap.slot cap.writer r false)
    (past : 0x2000 ≤ cap.writer.repairList.header) : ShowsRepair (stoppedState s cap).port cap.slot cap.writer r false := by
  have place : cap.writer.repairList.header + 16 ≤ nextPlace cap.writer.repairList 32 := Nat.le_add_right _ _
  exact ⟨fun i v hv => h.holds _ _ (shown.words i v hv) (offFinal_of_past _ (by omega)),
    h.holds _ _ shown.written (offFinal_of_past _ (by omega)), h.holds _ _ shown.count (.inr (.inl (by omega))), nofun⟩

end

end Sys2Proof.Orders
end

section
/-! PROOFS. O47: a single record at a capture's end, and the settling of CaptureStopReportsTheEnd (R178, R195, R196, R201). -/

namespace Sys2Proof.Orders

open Machine Safety Laws TransferMemory

theorem cast_lossFlag (loss : Bool) : ((if loss then 2 else 0 : Nat) : Word) = lossFlag loss := by cases loss <;> rfl

section

variable {s : State} {cap : Capture} {n : Nat}

/-- A speed map record where its list has room (R195). -/
theorem Spent.mapPlaced (spent : Spent cap) (mem : MemoryCanonical s) (due : cap.writer.closeDue = none) (holding : cap.writer.holding = [])
    (handed : cap.writer.handed = []) {m : MapRec} (map : cap.writer.map = some m) (room : Outstanding s cap.writer.mapList n)
    (less : n < cap.writer.mapList.capacity) :
    let t := stoppedState s cap
    let l := cap.writer.mapList
    (∀ (i : Nat) (v : Word), (m.words cap.writer.mapWritten)[i]? = some v →
        Stored t (l.header + 16 + 64 * (l.written.toNat % l.capacity) + 4 * i) v) ∧
      Stored t (l.header + 4) (l.written + 1) ∧
      Stored t (slotBase cap.slot + 0x5C) (BitVec.ofNat 32 (upTo 4294967295 cap.writer.mapWritten)) ∧
      MemoryKeptOutside s t [(slotBase cap.slot + 0x20, 64), (l.header + 16 + 64 * (l.written.toNat % l.capacity), 64), (l.header + 4, 4)] ∧
      NewsOf t (s.orders.setNews cap.slot .speedMap) := by
  intro t l
  obtain ⟨q, ended, placed, -⟩ := spent.map mem due holding handed map room less.le
  obtain ⟨words, written, count, -⟩ := ended.map (placed less) room.1
  have news := ended.news
  rw [lastNews, if_pos ⟨by rw [map]; rfl, less⟩, due] at news
  refine ⟨words, written, count, fun a ha => ended.kept a fun r hr => ?_, news⟩
  have final := ha (slotBase cap.slot + 0x20, 64) (by simp)
  rw [lastRanges, if_neg (by rw [map]; simp), if_neg less.ne] at hr
  simp only [mapRanges, Bool.false_eq_true, if_false, List.nil_append, List.mem_cons, List.not_mem_nil, or_false] at hr
  rcases hr with rfl | rfl | rfl | rfl
  · dsimp only at final ⊢
    omega
  · exact ha (nextPlace l 64, 64) (by simp [nextPlace])
  · exact ha (l.header + 4, 4) (by simp)
  · dsimp only at final ⊢
    omega

/-- A speed map record whose list is full (R201). -/
theorem Spent.mapDropped (spent : Spent cap) (mem : MemoryCanonical s) (due : cap.writer.closeDue = none)
    (holding : cap.writer.holding = []) (handed : cap.writer.handed = []) {m : MapRec} (map : cap.writer.map = some m)
    (full : Outstanding s cap.writer.mapList cap.writer.mapList.capacity) :
    let t := stoppedState s cap
    Stored t (slotBase cap.slot + 0x28)
        (BitVec.ofNat 32 (flagBit cap.writer.faultMap + 2 * flagBit cap.writer.faultRepair + 4)) ∧
      MemoryKeptOutside s t [(slotBase cap.slot + 0x20, 60)] ∧ NewsOf t s.orders := by
  intro t
  obtain ⟨q, ended, -, dropped⟩ := spent.map mem due holding handed map full (Nat.le_refl _)
  have news := ended.news
  rw [lastNews, if_neg fun both => absurd both.2 (Nat.lt_irrefl _)] at news
  refine ⟨ended.dropped (dropped rfl), fun a ha => ended.kept a fun r hr => ?_, news⟩
  have final := ha (slotBase cap.slot + 0x20, 60) (by simp)
  rw [lastRanges, if_neg (by rw [map]; simp), if_pos rfl] at hr
  simp only [List.mem_cons, List.not_mem_nil, or_false] at hr
  rcases hr with rfl | rfl
  · exact final
  · dsimp only at final ⊢
    omega

/-- A repair record where its list has room (R193, R196). -/
theorem Spent.repairPlaced (spent : Spent cap) (mem : MemoryCanonical s) (map : cap.writer.map = none) {r : RepairRec}
    (holding : cap.writer.holding = [r]) (handed : cap.writer.handed = []) (room : Outstanding s cap.writer.repairList n)
    (less : n < cap.writer.repairList.capacity) :
    let t := stoppedState s cap
    let l := cap.writer.repairList
    (∀ (i : Nat) (v : Word), r.words[i]? = some v → Stored t (l.header + 16 + 32 * (l.written.toNat % l.capacity) + 4 * i) v) ∧
      Stored t (l.header + 4) (l.written + 1) ∧
      Stored t (slotBase cap.slot + 0x60) (BitVec.ofNat 32 (upTo 4294967295 cap.writer.repairWritten)) ∧
      MemoryKeptOutside s t [(slotBase cap.slot + 0x20, 68), (l.header + 16 + 32 * (l.written.toNat % l.capacity), 32), (l.header + 4, 4)] ∧
      NewsOf t (s.orders.setNews cap.slot .repair) := by
  intro t l
  obtain ⟨q, ended, placed⟩ := spent.repair mem map holding handed room less
  obtain ⟨words, written, count, -⟩ := ended.repair placed room.1
  refine ⟨words, written, count, fun a ha => ended.kept a fun x hx => ?_, ended.news⟩
  have final := ha (slotBase cap.slot + 0x20, 68) (by simp)
  simp only [oneRanges, Bool.false_eq_true, if_false, List.nil_append, List.mem_cons, List.not_mem_nil, or_false] at hx
  rcases hx with rfl | rfl | rfl | rfl
  · dsimp only at final ⊢
    omega
  · exact ha (nextPlace l 32, 32) (by simp [nextPlace])
  · exact ha (l.header + 4, 4) (by simp)
  · dsimp only at final ⊢
    omega

end

end Sys2Proof.Orders

namespace Sys2Proof

open Machine Safety Laws TransferMemory Orders

/-- Settles O47: the end of an idle capture, its reports and final values, then the end work of one group's spans, of everything
that it holds, and of a single record; a capture that is not idle in STOPPING stays. -/
theorem captureStopReportsTheEnd : Obligations.CaptureStopReportsTheEnd := by
  unfold Obligations.CaptureStopReportsTheEnd
  refine ⟨idle_iff, ?_, fun s cap running peak still busy => captureStop_waits running peak still busy⟩
  intro s cap running mem still due idle k w base own ended news
  obtain ⟨stopping, -, -, -, -, -, -, arriving, handed, excerpt⟩ := (idle_iff cap).1 idle
  obtain ⟨cap', capture, stopped, reason, monitor, speed, resamplers, skew, sources, pending, frame, ends, r24, r20, r2C, r3C, r54, r58,
    counts⟩ := stopped_reports mem stopping
  refine ⟨stoppedState s cap, cap', captureStop_stops running due still idle, capture, stopped, reason, monitor, speed, resamplers, skew,
    sources, pending, frame, ends, r24, r20, r2C, r3C, r54, r58, counts, ?_, ?_, ?_⟩
  · intro g open_ free others o d
    have alone : Alone cap g := ⟨open_, free, others⟩
    refine ⟨fun sp queue filling past state => ?_,
      fun f fs rest v filling queue past state ne => alone.refused mem filling queue state ne, ?_⟩
    · have shown := alone.filling mem queue filling past state
      cases g <;> exact shown
    · intro pages f fs len filling queue all lengths pos positive past buffer apart state flags spanNews size
      have spilled : Spilled s cap g pages len := ⟨filling, queue, by rw [all]; exact lengths, pos, past, buffer, apart, state⟩
      rw [show (flags : Word) = lossFlag o.afterLoss from cast_lossFlag _]
      refine ⟨fun fits => ?_, ?_⟩
      · have shown := alone.fits mem spilled all fits
        cases g <;> exact shown
      intro fit h left split fills e left_
      refine ⟨fun v state' ne _ apartAddr apartBuffer => ?_, fun state' room past' buffer' apart' => ?_⟩
      · have shown := alone.overRefused mem spilled all split fills positive state' ne apartAddr apartBuffer
        cases g <;> exact shown
      · have shown := alone.overFits mem spilled all split fills positive state' room past' buffer' apart'
        cases g <;> exact shown
  · intro m n nm lanes free span lost stuck filling records l lm count takes roomMap withinMap posMap apart
    obtain ⟨room, within, capacity, small, noWrap, written⟩ := takes
    have active : ∀ g, Active (w.groups.get g) → 0x2000 ≤ (span g).addr := fun g some_ => some_.elim (fun open_ => (filling g open_).1)
      fun queue => (stuck g queue).2.elim fun _ facts => facts.2.1
    have records_ : records = endRecordsOf cap m := by
      simp only [records]
      rw [zipIdx_numbered]
      rfl
    have held : HeldSpans cap := ⟨active, (endRegions_spec apart).2.2⟩
    have laid : Laid cap := laid_of_endRegions apart excerpt room.1 roomMap.1
    have ready : ∀ g, GroupReady s.port (w.groups.get g) := fun g => ⟨fun queue =>
      ⟨(stuck g queue).1, (stuck g queue).2.elim fun v facts => ⟨v, facts.1, facts.2.2⟩⟩, fun open_ => (filling g open_).2⟩
    have lists : TransferMemory.Lists s.port w (endRecordsOf cap m).length n nm :=
      ⟨room, within, Nat.lt_of_lt_of_le (Nat.succ_pos 3) capacity, small, by rw [← records_]; exact noWrap, written, roomMap, withinMap,
        Nat.lt_of_lt_of_le (Nat.succ_pos 3) posMap⟩
    obtain ⟨q, ended, stores, repairs, last⟩ := ended_everything mem ⟨lanes, free, excerpt, handed, due⟩ ready held laid lists
    rw [← records_] at ended repairs
    have shown := ended.repairs repairs room.1 lists.pos
    refine ⟨fun g some_ => ?_, fun g open_ => ended.filling stores open_ (active g (.inl open_)),
      shown.placed, shown.written, shown.suppressed, fun x map less => ?_, fun map full => ended.dropped (last.dropped map full),
      ended.everything_kept, ?_⟩
    · have frames : framesIn (w.groups.get g).queue ≠ 0 := some_.ne'
      exact ended.lost stores (stuck g fun none_ => frames (by rw [none_]; rfl)).1 frames
    · have facts := ended.map (last.placed x map less) roomMap.1
      exact ⟨facts.words, facts.written, facts.count⟩
    · rw [← endNews_foldl s.orders count nm due]
      exact ended.news
  · intro quiet free
    refine ⟨?_, ?_⟩
    · intro m n map open_ l room
      obtain ⟨-, -, -, -, holding, groups⟩ := open_
      have spent : Spent cap := ⟨quiet, fun g => (groups g).2, free⟩
      exact ⟨spent.mapPlaced mem due holding handed map room, fun full => spent.mapDropped mem due holding handed map (full ▸ room)⟩
    · intro r n holding open_ l room
      obtain ⟨-, map, -, -, -, groups⟩ := open_
      have spent : Spent cap := ⟨quiet, fun g => (groups g).2, free⟩
      refine ⟨spent.repairPlaced mem map holding handed room, fun full => ?_⟩
      obtain ⟨q, ended, count⟩ := spent.suppressed mem map holding handed (full ▸ room)
      exact ⟨ended.holds _ _ count (.inr (.inl (by omega))), ended.kept, ended.news⟩

end Sys2Proof
end
